-- ==== Sys2Proof/Word.lean ====
section
/-! DEFINITION. Widths and plain arithmetic: bytes, words, 64-bit and 2048-bit values, register files. -/

namespace Sys2Proof

abbrev Byte := BitVec 8
/-- A slot word (R35) or a 32-bit lane (R6). -/
abbrev Word := BitVec 32
abbrev Dword := BitVec 64
/-- A vector value or a 256-byte row: 64 lanes of 32 bits, lane 0 lowest (R6). -/
abbrev Vec := BitVec 2048
/-- Sticky status: bit 0 invalid, 1 divide-by-zero, 2 overflow, 3 underflow, 4 inexact (R26). -/
abbrev Fpst := BitVec 5

/-- The two resident contexts of a tile (R14). -/
inductive Cx where
  | p
  | s
  deriving DecidableEq, Repr

namespace Cx
/-- CTXID: 0 for the primary, 1 for the secondary (R22). -/
def num : Cx → Nat
  | p => 0
  | s => 1
/-- The tile's other context. -/
def other : Cx → Cx
  | p => s
  | s => p
end Cx

/-- Entry `i` of a register file, or `d` outside it. -/
def rd {α : Type} {n : Nat} (v : Vector α n) (i : Nat) (d : α) : α :=
  if h : i < n then v[i] else d

/-- The register file with entry `i` replaced; unchanged outside it. -/
def wr {α : Type} {n : Nat} (v : Vector α n) (i : Nat) (x : α) : Vector α n :=
  v.setIfInBounds i x

/-- Bit `i` of a word as a Bool. -/
abbrev bit {w : Nat} (x : BitVec w) (i : Nat) : Bool := x.getLsbD i

/-- Bits `lo` to `lo + n - 1` of a word. -/
abbrev fld {w : Nat} (x : BitVec w) (lo n : Nat) : BitVec n := x.extractLsb' lo n

/-- A Bool as a number. -/
def b2n (b : Bool) : Nat := if b then 1 else 0

/-- Lane `i` of a vector value (R6). -/
def lane (v : Vec) (i : Nat) : Word := v.extractLsb' (32 * i) 32

/-- The number whose 32-bit digits are `f k, ..., f 0`. -/
def lanesNat (f : Nat → Word) : Nat → Nat
  | 0 => 0
  | k + 1 => (f k).toNat <<< (32 * k) + lanesNat f k

/-- The vector whose lane `i` is `f i` (R6). -/
def ofLanes (f : Nat → Word) : Vec := BitVec.ofNat 2048 (lanesNat f 64)

/-- The number whose bytes are the list, lowest first (R5). -/
def bytesNat : List Byte → Nat
  | [] => 0
  | b :: r => b.toNat + 256 * bytesNat r

/-- The `n` bytes of a number, lowest first (R5). -/
def natBytes : Nat → Nat → List Byte
  | 0, _ => []
  | n + 1, x => BitVec.ofNat 8 x :: natBytes n (x / 256)

/-- The set of `i < n` with `f i`, as a mask. -/
def maskNat (f : Nat → Bool) : Nat → Nat
  | 0 => 0
  | k + 1 => (if f k then 1 <<< k else 0) + maskNat f k

def ofMask (f : Nat → Bool) : Dword := BitVec.ofNat 64 (maskNat f 64)

end Sys2Proof
end

