-- ==== Sys2Proof/Syntax.lean ====
section
/-! DEFINITION. The instructions and steps of the machine, one constructor per row of the opcode table. -/

namespace Sys2Proof

/-- One constructor per row of spec/opcode_table.json. The slots carry their encoded fields as the table
lays them out, highest first: `st` the stop bit (R35), `gd` the guard (R40), then the operand fields of R36
and R60. The steps that have no encoding (95) carry what names their place: a tile, a context, an
operation, a partition; they stand first, because Lean's compiler builds only the constructors below number 244. -/
inductive Instr where
  /-- A pending result of latency L enters its destination at the producer's issued cycle n + L (R27). -/
  | resultLanding (tile : Nat) (cx : Cx)
  /-- A context frozen in WAITF or WAITC retests its condition in a later core cycle and resumes when it holds (R102). -/
  | waitRetest (tile : Nat) (cx : Cx)
  /-- A segment or KV datum that was not ready at its landing cycle arrives and ends the freeze (R28). -/
  | lateDatumArrival (tile : Nat) (cx : Cx)
  /-- A core access delayed by an absent segment or a pending range is made when the obstacle clears (R201). -/
  | delayedCoreAccess (tile : Nat) (cx : Cx)
  /-- The bundles that issue in a core cycle are chosen under the class rule and the current limiter (R383). -/
  | bundleSelection
  /-- A pending interrupt source is taken before a bundle when interrupts are enabled (R326). -/
  | intr (tile : Nat) (cx : Cx)
  /-- A fault of a completed operation is taken before the context's next bundle at or after completion (R196). -/
  | operationFaultDelivery (tile : Nat) (cx : Cx)
  /-- A pass ends once os, oc and om of the ended context are 0 (R91). -/
  | endComplete (tile : Nat) (cx : Cx)
  /-- A signal reaching a tile adds DELTA to a flag of matching generation or is dropped and counted in FLATE (R218). -/
  | signalApply
  /-- A granted E operation reads a line of a segment's front version (R257). -/
  | engineRead (op : Nat)
  /-- A granted E operation writes a line of a front or back version, entering remote scoreboards on first arrival (R257). -/
  | engineLand (op : Nat)
  /-- An E operation whose bytes have all landed and whose signal is applied completes and oc falls (R215). -/
  | eComplete (op : Nat)
  /-- A waiting residency request whose members are all resident is granted and pinned (R244). -/
  | requestGrant (req : Nat)
  /-- A sequence operation completes: writes, status, pins and om, and the wait slot moves up (R176). -/
  | seqComplete (tile : Nat)
  /-- An idle move channel begins a recall, push or compaction move for the head (R244). -/
  | moveBegin (tile : Nat)
  /-- A move is applied after its duration and the segment takes its new state (R245). -/
  | moveApplied (tile : Nat)
  /-- The rows of an append land in their page and os falls (R227). -/
  | kvRowLand (id : Nat)
  /-- A walker's fetch marks the page present and every context frozen on it resumes (R276). -/
  | pageFetchApplied (id : Nat)
  /-- The sequencer sizes a round and starts the guess routine, or ends the loop (R289). -/
  | roundSize (task : Nat)
  /-- After the guess routine ends, marks are set, replicas refreshed and the lanes started (R289). -/
  | seal (task : Nat)
  /-- After every lane ends, acceptance is decided and accepted effects applied in one step (R293). -/
  | settle (task : Nat)
  /-- The dispatch complex takes a launch record from a ring or SPAWN, checks it and enqueues it (R310). -/
  | recordTake (part : Nat) (ring : Nat)
  /-- The dispatch complex places the head and other blocks where R313 allows (R314). -/
  | dispatchStep (part : Nat)
  /-- A waiting block gains one token for each 65,536 reference cycles it waits (R314). -/
  | tokenAge (part : Nat)
  /-- A marked victim is checkpointed at its next kernel-iteration boundary (R317). -/
  | checkpoint (tile : Nat) (cx : Cx)
  /-- A placed task binds its template, recalls its segments, and issues its first bundle once they are applied (R241). -/
  | taskStart (task : Nat)
  /-- At NBT - TTLEAD a time-triggered record is placed in the reserved clusters or takes its late path (R318). -/
  | ttPlace (part : Nat)
  /-- The Ensign controller suspends a partition's contexts at any bundle for the host (R336). -/
  | suspend (part : Nat)
  /-- A write of STOP stops the context's sequence operations at their next boundary (R183). -/
  | meflagsStop (tile : Nat) (cx : Cx)
  /-- A write of ILIM sets the limiter threshold, with a floor of 256 (R74). -/
  | ilimWrite (tile : Nat) (v : BitVec 64)
  /-- The EQSEL remove command takes an ungranted entry out of an engine queue (R340). -/
  | eqRemove (tile : Nat)
  /-- The EQSEL submit command checks and queues the staged entry for a context (R340). -/
  | eqSubmit (tile : Nat)
  /-- Writing RBSEL.CLR empties every replay buffer entry (R332). -/
  | rbClear (tile : Nat) (cx : Cx)
  /-- A write of RBDATA sets a replay entry word, a nonzero KIND making the entry valid (R332). -/
  | rbdataWrite (tile : Nat) (cx : Cx) (v : BitVec 64)
  /-- A write to a register without a row of its own stores its writable fields (R12). -/
  | registerWrite (part : Nat) (addr : Nat) (v : BitVec 64)
  /-- A write of RBASE.EN enables a ring or is refused with ERR (R306). -/
  | ringEnable (part : Nat) (ring : Nat) (v : BitVec 64)
  /-- A write of RCTL.TAIL makes ring records available (R306). -/
  | tailWrite (part : Nat) (ring : Nat) (v : BitVec 64)
  /-- A page-table walk after a TLB miss decides the translation and the frozen context resumes (R349). -/
  | tlbWalkDone (tile : Nat) (cx : Cx)
  /-- A waiting operation takes all its page locks in ticket order (R351). -/
  | lockAcquire (op : Nat)
  /-- A write of TLBINV starts an invalidation of matching translations (R352). -/
  | tlbinv (part : Nat) (v : BitVec 64)
  /-- BUSY clears once no TLB holds a match and the locking operations have completed (R352). -/
  | tlbinvComplete (part : Nat)
  /-- A write of MIGCTL.GO starts the copy phase of a page migration, or is refused (R353). -/
  | migrationStart (part : Nat) (v : BitVec 64)
  /-- After every line is copied the migration stops granting new locks on the page (R354). -/
  | migrationFreeze (part : Nat)
  /-- When the page's lock count reaches zero, dirty lines are recopied and the leaf is switched (R354). -/
  | migrationSwitch (part : Nat)
  /-- A host access through BAR2 reads or writes the partition's GDDR-7 under the access tables (R368). -/
  | hostMemoryAccess (part : Nat) (addr : Nat) (len : Nat) (data : List (BitVec 8))
  /-- A write of DOORBELL makes the HOST interrupt source pending for the named context (R369). -/
  | doorbell (part : Nat) (v : BitVec 64)
  /-- A write that makes PERIOD nonzero starts the watchdog (R370). -/
  | wdctlWrite (part : Nat) (v : BitVec 64)
  /-- Any write of WDKICK restarts the watchdog period (R370). -/
  | wdkick (part : Nat)
  /-- A first expiry sets STAGE1 and makes WDOG pending in the partition's contexts (R370). -/
  | watchdogFirstExpiry (part : Nat)
  /-- A second expiry without a kick takes the configured action (R370). -/
  | watchdogSecondExpiry (part : Nat)
  /-- Stops every bundle of the partition and the taking of records (R371). -/
  | partitionFreeze (part : Nat)
  /-- Lifts a partition freeze so every context continues (R371). -/
  | partitionResume (part : Nat)
  /-- Kills every task of the partition and reports their joins (R371). -/
  | partitionKill (part : Nat)
  /-- Kills, disables rings, resets flags with new generations and drops the partition's TLB entries (R371). -/
  | partitionReset (part : Nat)
  /-- A port sends a numbered flit while its replay buffer has room (R373). -/
  | flitSend (port : Nat) (data : List (BitVec 8))
  /-- A port accepts the next expected flit or discards it and sends a NAK (R373). -/
  | flitReceive (port : Nat) (sq : BitVec 12) (good : Bool) (data : List (BitVec 8))
  /-- A received NAK makes the sender resend every flit from the named number (R373). -/
  | nak (port : Nat) (sq : BitVec 12)
  /-- A cumulative acknowledgement frees the acknowledged flits from the replay buffer (R373). -/
  | ack (port : Nat) (sq : BitVec 12)
  /-- After power is good the controller verifies and runs its image, brings up the module and creates partitions (R375). -/
  | boot
  /-- Answers the SPDM GET_VERSION request (R376). -/
  | getVersion
  /-- Answers the SPDM GET_CAPABILITIES request (R376). -/
  | getCapabilities
  /-- Answers the SPDM NEGOTIATE_ALGORITHMS request (R376). -/
  | negotiateAlgorithms (data : List (BitVec 8))
  /-- Answers the SPDM GET_DIGESTS request (R376). -/
  | getDigests
  /-- Answers the SPDM GET_CERTIFICATE request (R376). -/
  | getCertificate (data : List (BitVec 8))
  /-- Answers the SPDM CHALLENGE request (R376). -/
  | challenge (data : List (BitVec 8))
  /-- Returns the measurement digests of the listed indices (R376). -/
  | getMeasurements (idx : Nat)
  /-- Serves a PLDM type 2 monitoring request (R376). -/
  | pldmMonitoring (data : List (BitVec 8))
  /-- Serves a PLDM type 5 firmware update request and verifies the image (R376). -/
  | pldmFirmwareUpdate (idx : Nat) (data : List (BitVec 8))
  /-- A PTP message on the management port is timestamped and drives PTIME and PTPSTAT (R377). -/
  | ptpMessage (val : Nat)
  /-- A staged scheduler image is verified and takes over from the old one by a hand-over structure (R378). -/
  | schedulerUpdate (data : List (BitVec 8))
  /-- The new scheduler image's first heartbeat completes the update and records are taken again (R378). -/
  | heartbeat
  /-- A heartbeat missing 2 s after the new image starts restarts the old image (R378). -/
  | heartbeatTimeout
  /-- The operator sets a module power cap and the controller adjusts ILIM and island frequencies (R380). -/
  | setPowerCap (val : Nat)
  /-- Input below 38 V for 1 ms freezes every partition and turns off the core rails (R379). -/
  | undervoltage
  /-- Input above 40 V for 1 s restores the core rails (R379). -/
  | powerRestore
  /-- A junction above 105 °C sets its islands to 175 MHz (R381). -/
  | thermalThrottle (idx : Nat)
  /-- A junction above 115 °C or a loss of flow shuts the module down (R381). -/
  | thermalShutdown
  /-- The background scrub corrects the SRAM stores at least once every 24 hours (R365); what the controller has found in
  GDDR-7 meanwhile is taken with it. -/
  | scrub
  /-- A consumed error or CHK in a repairable phase restores the context from its snapshot (R361). -/
  | rollback (tile : Nat) (cx : Cx)
  /-- A failing pseudo-channel is removed and its partition's data is rebuilt on the rest (R366). -/
  | pseudoChannelDrop (part : Nat) (idx : Nat)
  /-- The tile monitor timer makes the TIMER interrupt source pending (R330). -/
  | monitorTimerExpiry (tile : Nat) (cx : Cx)
  /-- A debug halt request makes the HALT interrupt source pending (R330). -/
  | debugHaltRequest (tile : Nat) (cx : Cx)
  /-- A G store or local atomic retires once its bytes can be seen by engines, and os falls (R201). -/
  | storeRetirement (tile : Nat) (cx : Cx)
  /-- When PTP messages from the grandmaster stop, PTPSTAT enters holdover and HOLD counts its seconds (R377). -/
  | holdover
  /-- An owner module that does not answer a remote-page fetch is reported as an escalated KVP with WHY 1 (R279). -/
  | ownerUnreachable (id : Nat)
  /-- A Pennant link or host port that retrained after an uncorrectable error completes training and traffic resumes in order (R365). On a link that is trained it is the error that begins the retraining. -/
  | linkTrained (port : Nat)
  /-- Branches to the offset target after two delay bundles when its guard is true (R78). -/
  | br (st : BitVec 1) (gd : BitVec 3) (i : BitVec 18)
  /-- Branches when its guard is true, and annuls its delay bundles when it is not taken (R78). -/
  | brNa (st : BitVec 1) (gd : BitVec 3) (i : BitVec 18)
  /-- Branches when its guard is true, and annuls its delay bundles when it is taken (R78). -/
  | brNt (st : BitVec 1) (gd : BitVec 3) (i : BitVec 18)
  /-- Branches to the address taken from scalar source a after two delay bundles (R79). -/
  | bri (st : BitVec 1) (gd : BitVec 3) (a : BitVec 6)
  /-- Pushes the return address into d and branches to the offset target (R82). -/
  | call (st : BitVec 1) (gd : BitVec 3) (d : BitVec 6) (i : BitVec 12)
  /-- Sets up loop set lp0 with the count taken from scalar source a (R83). -/
  | loop0 (st : BitVec 1) (gd : BitVec 3) (a : BitVec 6) (i : BitVec 12)
  /-- Sets up loop set lp1 with the count taken from scalar source a (R83). -/
  | loop1 (st : BitVec 1) (gd : BitVec 3) (a : BitVec 6) (i : BitVec 12)
  /-- Sets up loop set lp0 with a 6-bit immediate count (R83). -/
  | loopi0 (st : BitVec 1) (gd : BitVec 3) (c : BitVec 6) (i : BitVec 12)
  /-- Sets up loop set lp1 with a 6-bit immediate count (R83). -/
  | loopi1 (st : BitVec 1) (gd : BitVec 3) (c : BitVec 6) (i : BitVec 12)
  /-- Takes the task's result word, checks banks and queue residue, and stops the context issuing (R91). -/
  | endTask (st : BitVec 1) (gd : BitVec 3) (a : BitVec 6)
  /-- Lets its bundle issue, then takes the cause TRAP with the immediate in EINFO (R89). -/
  | trap (st : BitVec 1) (gd : BitVec 3) (i : BitVec 12)
  /-- Returns from a trap: restores the mode, resumes at EPC with the pending delay state, and re-injects the replay buffer (R88). -/
  | reti (st : BitVec 1) (gd : BitVec 3)
  /-- Stops its bundle from issuing and takes the cause BRK (R90). -/
  | brk (st : BitVec 1) (gd : BitVec 3) (i : BitVec 12)
  /-- Sets guard window w to predicate p and the given sense (R92). -/
  | gmap (st : BitVec 1) (gd : BitVec 3) (w : BitVec 3) (p : BitVec 7) (e : BitVec 1)
  /-- Reads a system register and pushes its value into d (R93). -/
  | srd (st : BitVec 1) (gd : BitVec 3) (d : BitVec 6) (i : BitVec 12)
  /-- Writes the value taken from a into a system register (R94). -/
  | swr (st : BitVec 1) (gd : BitVec 3) (a : BitVec 6) (i : BitVec 12)
  /-- Pushes carry-in register ci_k into d (R233). -/
  | cget (st : BitVec 1) (gd : BitVec 3) (d : BitVec 6) (k : BitVec 3)
  /-- Writes the value taken from a into carry-out register co_k (R233). -/
  | cset (st : BitVec 1) (gd : BitVec 3) (a : BitVec 6) (k : BitVec 3)
  /-- Compares a with the next lane's carry-in k and records a mismatch when they differ (R233). -/
  | acmp (st : BitVec 1) (gd : BitVec 3) (a : BitVec 6) (k : BitVec 3)
  /-- In the guess routine, posts a as the guess of carry k for lane l (R233). -/
  | cgset (st : BitVec 1) (gd : BitVec 3) (a : BitVec 6) (l : BitVec 3) (k : BitVec 3)
  /-- Pushes the lane's speculation word into d (R233). -/
  | slane (st : BitVec 1) (gd : BitVec 3) (d : BitVec 6)
  /-- Pushes a + b into d, in SA (R95). -/
  | addSa (st : BitVec 1) (gd : BitVec 3) (d : BitVec 6) (a : BitVec 6) (b : BitVec 6)
  /-- Pushes a + b into d, in SB (R95). -/
  | addSb (st : BitVec 1) (gd : BitVec 3) (d : BitVec 6) (a : BitVec 6) (b : BitVec 6)
  /-- Pushes a - b into d, in SA (R95). -/
  | subSa (st : BitVec 1) (gd : BitVec 3) (d : BitVec 6) (a : BitVec 6) (b : BitVec 6)
  /-- Pushes a - b into d, in SB (R95). -/
  | subSb (st : BitVec 1) (gd : BitVec 3) (d : BitVec 6) (a : BitVec 6) (b : BitVec 6)
  /-- Pushes a plus the signed immediate into d, in SA (R95). -/
  | addiSa (st : BitVec 1) (gd : BitVec 3) (d : BitVec 6) (a : BitVec 6) (i : BitVec 6)
  /-- Pushes a plus the signed immediate into d, in SB (R95). -/
  | addiSb (st : BitVec 1) (gd : BitVec 3) (d : BitVec 6) (a : BitVec 6) (i : BitVec 6)
  /-- Pushes the low 64 bits of a × b into d, in SA (R95). -/
  | mulSa (st : BitVec 1) (gd : BitVec 3) (d : BitVec 6) (a : BitVec 6) (b : BitVec 6)
  /-- Pushes the low 64 bits of a × b into d, in SB (R95). -/
  | mulSb (st : BitVec 1) (gd : BitVec 3) (d : BitVec 6) (a : BitVec 6) (b : BitVec 6)
  /-- Pushes the high 64 bits of the signed product into d, in SA (R95). -/
  | mulhSa (st : BitVec 1) (gd : BitVec 3) (d : BitVec 6) (a : BitVec 6) (b : BitVec 6)
  /-- Pushes the high 64 bits of the signed product into d, in SB (R95). -/
  | mulhSb (st : BitVec 1) (gd : BitVec 3) (d : BitVec 6) (a : BitVec 6) (b : BitVec 6)
  /-- Pushes the high 64 bits of the unsigned product into d, in SA (R95). -/
  | mulhuSa (st : BitVec 1) (gd : BitVec 3) (d : BitVec 6) (a : BitVec 6) (b : BitVec 6)
  /-- Pushes the high 64 bits of the unsigned product into d, in SB (R95). -/
  | mulhuSb (st : BitVec 1) (gd : BitVec 3) (d : BitVec 6) (a : BitVec 6) (b : BitVec 6)
  /-- Pushes the signed quotient into d after 24 cycles, in SA (R96). -/
  | divSa (st : BitVec 1) (gd : BitVec 3) (d : BitVec 6) (a : BitVec 6) (b : BitVec 6)
  /-- Pushes the signed quotient into d after 24 cycles, in SB (R96). -/
  | divSb (st : BitVec 1) (gd : BitVec 3) (d : BitVec 6) (a : BitVec 6) (b : BitVec 6)
  /-- Pushes the unsigned quotient into d after 24 cycles, in SA (R96). -/
  | divuSa (st : BitVec 1) (gd : BitVec 3) (d : BitVec 6) (a : BitVec 6) (b : BitVec 6)
  /-- Pushes the unsigned quotient into d after 24 cycles, in SB (R96). -/
  | divuSb (st : BitVec 1) (gd : BitVec 3) (d : BitVec 6) (a : BitVec 6) (b : BitVec 6)
  /-- Pushes the signed remainder into d after 24 cycles, in SA (R96). -/
  | remSa (st : BitVec 1) (gd : BitVec 3) (d : BitVec 6) (a : BitVec 6) (b : BitVec 6)
  /-- Pushes the signed remainder into d after 24 cycles, in SB (R96). -/
  | remSb (st : BitVec 1) (gd : BitVec 3) (d : BitVec 6) (a : BitVec 6) (b : BitVec 6)
  /-- Pushes the unsigned remainder into d after 24 cycles, in SA (R96). -/
  | remuSa (st : BitVec 1) (gd : BitVec 3) (d : BitVec 6) (a : BitVec 6) (b : BitVec 6)
  /-- Pushes the unsigned remainder into d after 24 cycles, in SB (R96). -/
  | remuSb (st : BitVec 1) (gd : BitVec 3) (d : BitVec 6) (a : BitVec 6) (b : BitVec 6)
  /-- Pushes a AND b into d, in SA (R95). -/
  | andSa (st : BitVec 1) (gd : BitVec 3) (d : BitVec 6) (a : BitVec 6) (b : BitVec 6)
  /-- Pushes a AND b into d, in SB (R95). -/
  | andSb (st : BitVec 1) (gd : BitVec 3) (d : BitVec 6) (a : BitVec 6) (b : BitVec 6)
  /-- Pushes a OR b into d, in SA (R95). -/
  | orSa (st : BitVec 1) (gd : BitVec 3) (d : BitVec 6) (a : BitVec 6) (b : BitVec 6)
  /-- Pushes a OR b into d, in SB (R95). -/
  | orSb (st : BitVec 1) (gd : BitVec 3) (d : BitVec 6) (a : BitVec 6) (b : BitVec 6)
  /-- Pushes a XOR b into d, in SA (R95). -/
  | xorSa (st : BitVec 1) (gd : BitVec 3) (d : BitVec 6) (a : BitVec 6) (b : BitVec 6)
  /-- Pushes a XOR b into d, in SB (R95). -/
  | xorSb (st : BitVec 1) (gd : BitVec 3) (d : BitVec 6) (a : BitVec 6) (b : BitVec 6)
  /-- Pushes a AND NOT b into d, in SA (R95). -/
  | andnSa (st : BitVec 1) (gd : BitVec 3) (d : BitVec 6) (a : BitVec 6) (b : BitVec 6)
  /-- Pushes a AND NOT b into d, in SB (R95). -/
  | andnSb (st : BitVec 1) (gd : BitVec 3) (d : BitVec 6) (a : BitVec 6) (b : BitVec 6)
  /-- Pushes a shifted left by b[5:0] into d, in SA (R95). -/
  | shlSa (st : BitVec 1) (gd : BitVec 3) (d : BitVec 6) (a : BitVec 6) (b : BitVec 6)
  /-- Pushes a shifted left by b[5:0] into d, in SB (R95). -/
  | shlSb (st : BitVec 1) (gd : BitVec 3) (d : BitVec 6) (a : BitVec 6) (b : BitVec 6)
  /-- Pushes a shifted logically right by b[5:0] into d, in SA (R95). -/
  | shrSa (st : BitVec 1) (gd : BitVec 3) (d : BitVec 6) (a : BitVec 6) (b : BitVec 6)
  /-- Pushes a shifted logically right by b[5:0] into d, in SB (R95). -/
  | shrSb (st : BitVec 1) (gd : BitVec 3) (d : BitVec 6) (a : BitVec 6) (b : BitVec 6)
  /-- Pushes a shifted arithmetically right by b[5:0] into d, in SA (R95). -/
  | sarSa (st : BitVec 1) (gd : BitVec 3) (d : BitVec 6) (a : BitVec 6) (b : BitVec 6)
  /-- Pushes a shifted arithmetically right by b[5:0] into d, in SB (R95). -/
  | sarSb (st : BitVec 1) (gd : BitVec 3) (d : BitVec 6) (a : BitVec 6) (b : BitVec 6)
  /-- Pushes a shifted left by the immediate into d, in SA (R95). -/
  | shliSa (st : BitVec 1) (gd : BitVec 3) (d : BitVec 6) (a : BitVec 6) (i : BitVec 6)
  /-- Pushes a shifted left by the immediate into d, in SB (R95). -/
  | shliSb (st : BitVec 1) (gd : BitVec 3) (d : BitVec 6) (a : BitVec 6) (i : BitVec 6)
  /-- Pushes a shifted logically right by the immediate into d, in SA (R95). -/
  | shriSa (st : BitVec 1) (gd : BitVec 3) (d : BitVec 6) (a : BitVec 6) (i : BitVec 6)
  /-- Pushes a shifted logically right by the immediate into d, in SB (R95). -/
  | shriSb (st : BitVec 1) (gd : BitVec 3) (d : BitVec 6) (a : BitVec 6) (i : BitVec 6)
  /-- Pushes a shifted arithmetically right by the immediate into d, in SA (R95). -/
  | sariSa (st : BitVec 1) (gd : BitVec 3) (d : BitVec 6) (a : BitVec 6) (i : BitVec 6)
  /-- Pushes a shifted arithmetically right by the immediate into d, in SB (R95). -/
  | sariSb (st : BitVec 1) (gd : BitVec 3) (d : BitVec 6) (a : BitVec 6) (i : BitVec 6)
  /-- Pushes the signed minimum of a and b into d, in SA (R95). -/
  | minSa (st : BitVec 1) (gd : BitVec 3) (d : BitVec 6) (a : BitVec 6) (b : BitVec 6)
  /-- Pushes the signed minimum of a and b into d, in SB (R95). -/
  | minSb (st : BitVec 1) (gd : BitVec 3) (d : BitVec 6) (a : BitVec 6) (b : BitVec 6)
  /-- Pushes the signed maximum of a and b into d, in SA (R95). -/
  | maxSa (st : BitVec 1) (gd : BitVec 3) (d : BitVec 6) (a : BitVec 6) (b : BitVec 6)
  /-- Pushes the signed maximum of a and b into d, in SB (R95). -/
  | maxSb (st : BitVec 1) (gd : BitVec 3) (d : BitVec 6) (a : BitVec 6) (b : BitVec 6)
  /-- Pushes the unsigned minimum of a and b into d, in SA (R95). -/
  | minuSa (st : BitVec 1) (gd : BitVec 3) (d : BitVec 6) (a : BitVec 6) (b : BitVec 6)
  /-- Pushes the unsigned minimum of a and b into d, in SB (R95). -/
  | minuSb (st : BitVec 1) (gd : BitVec 3) (d : BitVec 6) (a : BitVec 6) (b : BitVec 6)
  /-- Pushes the unsigned maximum of a and b into d, in SA (R95). -/
  | maxuSa (st : BitVec 1) (gd : BitVec 3) (d : BitVec 6) (a : BitVec 6) (b : BitVec 6)
  /-- Pushes the unsigned maximum of a and b into d, in SB (R95). -/
  | maxuSb (st : BitVec 1) (gd : BitVec 3) (d : BitVec 6) (a : BitVec 6) (b : BitVec 6)
  /-- Pushes the count of leading zero bits of a into d, in SA (R95). -/
  | clzSa (st : BitVec 1) (gd : BitVec 3) (d : BitVec 6) (a : BitVec 6)
  /-- Pushes the count of leading zero bits of a into d, in SB (R95). -/
  | clzSb (st : BitVec 1) (gd : BitVec 3) (d : BitVec 6) (a : BitVec 6)
  /-- Pushes the count of one bits of a into d, in SA (R95). -/
  | popcSa (st : BitVec 1) (gd : BitVec 3) (d : BitVec 6) (a : BitVec 6)
  /-- Pushes the count of one bits of a into d, in SB (R95). -/
  | popcSb (st : BitVec 1) (gd : BitVec 3) (d : BitVec 6) (a : BitVec 6)
  /-- Pushes bits [w:0] of a, sign-extended, into d, in SA (R95). -/
  | extSa (st : BitVec 1) (gd : BitVec 3) (d : BitVec 6) (a : BitVec 6) (i : BitVec 6)
  /-- Pushes bits [w:0] of a, sign-extended, into d, in SB (R95). -/
  | extSb (st : BitVec 1) (gd : BitVec 3) (d : BitVec 6) (a : BitVec 6) (i : BitVec 6)
  /-- Pushes bits [w:0] of a, zero-extended, into d, in SA (R95). -/
  | extzSa (st : BitVec 1) (gd : BitVec 3) (d : BitVec 6) (a : BitVec 6) (i : BitVec 6)
  /-- Pushes bits [w:0] of a, zero-extended, into d, in SB (R95). -/
  | extzSb (st : BitVec 1) (gd : BitVec 3) (d : BitVec 6) (a : BitVec 6) (i : BitVec 6)
  /-- Pushes a into d, in SA (R95). -/
  | movSa (st : BitVec 1) (gd : BitVec 3) (d : BitVec 6) (a : BitVec 6)
  /-- Pushes a into d, in SB (R95). -/
  | movSb (st : BitVec 1) (gd : BitVec 3) (d : BitVec 6) (a : BitVec 6)
  /-- Pushes the sign-extended immediate into d, in SA (R95). -/
  | moviSa (st : BitVec 1) (gd : BitVec 3) (d : BitVec 6) (i : BitVec 12)
  /-- Pushes the sign-extended immediate into d, in SB (R95). -/
  | moviSb (st : BitVec 1) (gd : BitVec 3) (d : BitVec 6) (i : BitVec 12)
  /-- Sets predicate pd to a = b, in SA (R97). -/
  | cmpEqSa (st : BitVec 1) (gd : BitVec 3) (p : BitVec 7) (a : BitVec 6) (b : BitVec 5)
  /-- Sets predicate pd to a = b, in SB (R97). -/
  | cmpEqSb (st : BitVec 1) (gd : BitVec 3) (p : BitVec 7) (a : BitVec 6) (b : BitVec 5)
  /-- Sets predicate pd to a ≠ b, in SA (R97). -/
  | cmpNeSa (st : BitVec 1) (gd : BitVec 3) (p : BitVec 7) (a : BitVec 6) (b : BitVec 5)
  /-- Sets predicate pd to a ≠ b, in SB (R97). -/
  | cmpNeSb (st : BitVec 1) (gd : BitVec 3) (p : BitVec 7) (a : BitVec 6) (b : BitVec 5)
  /-- Sets predicate pd to signed a < b, in SA (R97). -/
  | cmpLtSa (st : BitVec 1) (gd : BitVec 3) (p : BitVec 7) (a : BitVec 6) (b : BitVec 5)
  /-- Sets predicate pd to signed a < b, in SB (R97). -/
  | cmpLtSb (st : BitVec 1) (gd : BitVec 3) (p : BitVec 7) (a : BitVec 6) (b : BitVec 5)
  /-- Sets predicate pd to signed a ≤ b, in SA (R97). -/
  | cmpLeSa (st : BitVec 1) (gd : BitVec 3) (p : BitVec 7) (a : BitVec 6) (b : BitVec 5)
  /-- Sets predicate pd to signed a ≤ b, in SB (R97). -/
  | cmpLeSb (st : BitVec 1) (gd : BitVec 3) (p : BitVec 7) (a : BitVec 6) (b : BitVec 5)
  /-- Sets predicate pd to unsigned a < b, in SA (R97). -/
  | cmpLtuSa (st : BitVec 1) (gd : BitVec 3) (p : BitVec 7) (a : BitVec 6) (b : BitVec 5)
  /-- Sets predicate pd to unsigned a < b, in SB (R97). -/
  | cmpLtuSb (st : BitVec 1) (gd : BitVec 3) (p : BitVec 7) (a : BitVec 6) (b : BitVec 5)
  /-- Sets predicate pd to unsigned a ≤ b, in SA (R97). -/
  | cmpLeuSa (st : BitVec 1) (gd : BitVec 3) (p : BitVec 7) (a : BitVec 6) (b : BitVec 5)
  /-- Sets predicate pd to unsigned a ≤ b, in SB (R97). -/
  | cmpLeuSb (st : BitVec 1) (gd : BitVec 3) (p : BitVec 7) (a : BitVec 6) (b : BitVec 5)
  /-- Sets predicate pd to a = immediate, in SA (R97). -/
  | cmpiEqSa (st : BitVec 1) (gd : BitVec 3) (p : BitVec 7) (a : BitVec 6) (i : BitVec 5)
  /-- Sets predicate pd to a = immediate, in SB (R97). -/
  | cmpiEqSb (st : BitVec 1) (gd : BitVec 3) (p : BitVec 7) (a : BitVec 6) (i : BitVec 5)
  /-- Sets predicate pd to a ≠ immediate, in SA (R97). -/
  | cmpiNeSa (st : BitVec 1) (gd : BitVec 3) (p : BitVec 7) (a : BitVec 6) (i : BitVec 5)
  /-- Sets predicate pd to a ≠ immediate, in SB (R97). -/
  | cmpiNeSb (st : BitVec 1) (gd : BitVec 3) (p : BitVec 7) (a : BitVec 6) (i : BitVec 5)
  /-- Sets predicate pd to signed a < immediate, in SA (R97). -/
  | cmpiLtSa (st : BitVec 1) (gd : BitVec 3) (p : BitVec 7) (a : BitVec 6) (i : BitVec 5)
  /-- Sets predicate pd to signed a < immediate, in SB (R97). -/
  | cmpiLtSb (st : BitVec 1) (gd : BitVec 3) (p : BitVec 7) (a : BitVec 6) (i : BitVec 5)
  /-- Sets predicate pd to signed a ≤ immediate, in SA (R97). -/
  | cmpiLeSa (st : BitVec 1) (gd : BitVec 3) (p : BitVec 7) (a : BitVec 6) (i : BitVec 5)
  /-- Sets predicate pd to signed a ≤ immediate, in SB (R97). -/
  | cmpiLeSb (st : BitVec 1) (gd : BitVec 3) (p : BitVec 7) (a : BitVec 6) (i : BitVec 5)
  /-- Sets predicate pd to unsigned a < immediate, in SA (R97). -/
  | cmpiLtuSa (st : BitVec 1) (gd : BitVec 3) (p : BitVec 7) (a : BitVec 6) (i : BitVec 5)
  /-- Sets predicate pd to unsigned a < immediate, in SB (R97). -/
  | cmpiLtuSb (st : BitVec 1) (gd : BitVec 3) (p : BitVec 7) (a : BitVec 6) (i : BitVec 5)
  /-- Sets predicate pd to unsigned a ≤ immediate, in SA (R97). -/
  | cmpiLeuSa (st : BitVec 1) (gd : BitVec 3) (p : BitVec 7) (a : BitVec 6) (i : BitVec 5)
  /-- Sets predicate pd to unsigned a ≤ immediate, in SB (R97). -/
  | cmpiLeuSb (st : BitVec 1) (gd : BitVec 3) (p : BitVec 7) (a : BitVec 6) (i : BitVec 5)
  /-- Sets pd to pd AND pa, in SA (R98). -/
  | pandSa (st : BitVec 1) (gd : BitVec 3) (p : BitVec 7) (q : BitVec 7)
  /-- Sets pd to pd AND pa, in SB (R98). -/
  | pandSb (st : BitVec 1) (gd : BitVec 3) (p : BitVec 7) (q : BitVec 7)
  /-- Sets pd to pd OR pa, in SA (R98). -/
  | porSa (st : BitVec 1) (gd : BitVec 3) (p : BitVec 7) (q : BitVec 7)
  /-- Sets pd to pd OR pa, in SB (R98). -/
  | porSb (st : BitVec 1) (gd : BitVec 3) (p : BitVec 7) (q : BitVec 7)
  /-- Sets pd to pd XOR pa, in SA (R98). -/
  | pxorSa (st : BitVec 1) (gd : BitVec 3) (p : BitVec 7) (q : BitVec 7)
  /-- Sets pd to pd XOR pa, in SB (R98). -/
  | pxorSb (st : BitVec 1) (gd : BitVec 3) (p : BitVec 7) (q : BitVec 7)
  /-- Sets pd to pd AND NOT pa, in SA (R98). -/
  | pandnSa (st : BitVec 1) (gd : BitVec 3) (p : BitVec 7) (q : BitVec 7)
  /-- Sets pd to pd AND NOT pa, in SB (R98). -/
  | pandnSb (st : BitVec 1) (gd : BitVec 3) (p : BitVec 7) (q : BitVec 7)
  /-- Sets pd to NOT pa, in SA (R98). -/
  | pnotSa (st : BitVec 1) (gd : BitVec 3) (p : BitVec 7) (q : BitVec 7)
  /-- Sets pd to NOT pa, in SB (R98). -/
  | pnotSb (st : BitVec 1) (gd : BitVec 3) (p : BitVec 7) (q : BitVec 7)
  /-- Sets pd to pa, in SA (R98). -/
  | pmovSa (st : BitVec 1) (gd : BitVec 3) (p : BitVec 7) (q : BitVec 7)
  /-- Sets pd to pa, in SB (R98). -/
  | pmovSb (st : BitVec 1) (gd : BitVec 3) (p : BitVec 7) (q : BitVec 7)
  /-- Sets pd to the immediate bit b, in SA (R98). -/
  | psetiSa (st : BitVec 1) (gd : BitVec 3) (p : BitVec 7) (b : BitVec 1)
  /-- Sets pd to the immediate bit b, in SB (R98). -/
  | psetiSb (st : BitVec 1) (gd : BitVec 3) (p : BitVec 7) (b : BitVec 1)
  /-- Pushes predicate pa, zero-extended, into d, in SA (R98). -/
  | ptosSa (st : BitVec 1) (gd : BitVec 3) (d : BitVec 6) (q : BitVec 7)
  /-- Pushes predicate pa, zero-extended, into d, in SB (R98). -/
  | ptosSb (st : BitVec 1) (gd : BitVec 3) (d : BitVec 6) (q : BitVec 7)
  /-- Sets pd to 1 if a is nonzero, else 0, in SA (R98). -/
  | setpSa (st : BitVec 1) (gd : BitVec 3) (p : BitVec 7) (a : BitVec 6)
  /-- Sets pd to 1 if a is nonzero, else 0, in SB (R98). -/
  | setpSb (st : BitVec 1) (gd : BitVec 3) (p : BitVec 7) (a : BitVec 6)
  /-- Compares a and b and raises CHK one cycle later when they differ, in SA (R99). -/
  | schkSa (st : BitVec 1) (gd : BitVec 3) (a : BitVec 6) (b : BitVec 6)
  /-- Compares a and b and raises CHK one cycle later when they differ, in SB (R99). -/
  | schkSb (st : BitVec 1) (gd : BitVec 3) (a : BitVec 6) (b : BitVec 6)
  /-- Adds FP32 lanes of a and b, in VA (R133). -/
  | vaddF32Va (st : BitVec 1) (gd : BitVec 3) (d : BitVec 6) (a : BitVec 6) (b : BitVec 6)
  /-- Adds FP32 lanes of a and b, in VB (R133). -/
  | vaddF32Vb (st : BitVec 1) (gd : BitVec 3) (d : BitVec 6) (a : BitVec 6) (b : BitVec 6)
  /-- Subtracts FP32 lanes of b from a, in VA (R133). -/
  | vsubF32Va (st : BitVec 1) (gd : BitVec 3) (d : BitVec 6) (a : BitVec 6) (b : BitVec 6)
  /-- Subtracts FP32 lanes of b from a, in VB (R133). -/
  | vsubF32Vb (st : BitVec 1) (gd : BitVec 3) (d : BitVec 6) (a : BitVec 6) (b : BitVec 6)
  /-- Multiplies FP32 lanes of a and b, in VA (R133). -/
  | vmulF32Va (st : BitVec 1) (gd : BitVec 3) (d : BitVec 6) (a : BitVec 6) (b : BitVec 6)
  /-- Multiplies FP32 lanes of a and b, in VB (R133). -/
  | vmulF32Vb (st : BitVec 1) (gd : BitVec 3) (d : BitVec 6) (a : BitVec 6) (b : BitVec 6)
  /-- Fused multiply-add of FP32 lanes with the addend popped from vd, in VA (R134). -/
  | vfmaF32Va (st : BitVec 1) (gd : BitVec 3) (d : BitVec 6) (a : BitVec 6) (b : BitVec 6)
  /-- Fused multiply-add of FP32 lanes with the addend popped from vd, in VB (R134). -/
  | vfmaF32Vb (st : BitVec 1) (gd : BitVec 3) (d : BitVec 6) (a : BitVec 6) (b : BitVec 6)
  /-- Fused c - a·b of FP32 lanes with the addend popped from vd, in VA (R134). -/
  | vfmsF32Va (st : BitVec 1) (gd : BitVec 3) (d : BitVec 6) (a : BitVec 6) (b : BitVec 6)
  /-- Fused c - a·b of FP32 lanes with the addend popped from vd, in VB (R134). -/
  | vfmsF32Vb (st : BitVec 1) (gd : BitVec 3) (d : BitVec 6) (a : BitVec 6) (b : BitVec 6)
  /-- Lane-wise FP32 minimum under R114, in VA (R133). -/
  | vminF32Va (st : BitVec 1) (gd : BitVec 3) (d : BitVec 6) (a : BitVec 6) (b : BitVec 6)
  /-- Lane-wise FP32 minimum under R114, in VB (R133). -/
  | vminF32Vb (st : BitVec 1) (gd : BitVec 3) (d : BitVec 6) (a : BitVec 6) (b : BitVec 6)
  /-- Lane-wise FP32 maximum under R114, in VA (R133). -/
  | vmaxF32Va (st : BitVec 1) (gd : BitVec 3) (d : BitVec 6) (a : BitVec 6) (b : BitVec 6)
  /-- Lane-wise FP32 maximum under R114, in VB (R133). -/
  | vmaxF32Vb (st : BitVec 1) (gd : BitVec 3) (d : BitVec 6) (a : BitVec 6) (b : BitVec 6)
  /-- Clears the sign bit of each lane of a, in VA (R133). -/
  | vabsF32Va (st : BitVec 1) (gd : BitVec 3) (d : BitVec 6) (a : BitVec 6)
  /-- Clears the sign bit of each lane of a, in VB (R133). -/
  | vabsF32Vb (st : BitVec 1) (gd : BitVec 3) (d : BitVec 6) (a : BitVec 6)
  /-- Inverts the sign bit of each lane of a, in VA (R133). -/
  | vnegF32Va (st : BitVec 1) (gd : BitVec 3) (d : BitVec 6) (a : BitVec 6)
  /-- Inverts the sign bit of each lane of a, in VB (R133). -/
  | vnegF32Vb (st : BitVec 1) (gd : BitVec 3) (d : BitVec 6) (a : BitVec 6)
  /-- Adds BF16 elements, in VA (R133). -/
  | vaddBfVa (st : BitVec 1) (gd : BitVec 3) (d : BitVec 6) (a : BitVec 6) (b : BitVec 6)
  /-- Adds BF16 elements, in VB (R133). -/
  | vaddBfVb (st : BitVec 1) (gd : BitVec 3) (d : BitVec 6) (a : BitVec 6) (b : BitVec 6)
  /-- Multiplies BF16 elements, in VA (R133). -/
  | vmulBfVa (st : BitVec 1) (gd : BitVec 3) (d : BitVec 6) (a : BitVec 6) (b : BitVec 6)
  /-- Multiplies BF16 elements, in VB (R133). -/
  | vmulBfVb (st : BitVec 1) (gd : BitVec 3) (d : BitVec 6) (a : BitVec 6) (b : BitVec 6)
  /-- Fused multiply-add of BF16 elements with the addend from vd, in VA (R134). -/
  | vfmaBfVa (st : BitVec 1) (gd : BitVec 3) (d : BitVec 6) (a : BitVec 6) (b : BitVec 6)
  /-- Fused multiply-add of BF16 elements with the addend from vd, in VB (R134). -/
  | vfmaBfVb (st : BitVec 1) (gd : BitVec 3) (d : BitVec 6) (a : BitVec 6) (b : BitVec 6)
  /-- Adds FP16 elements, in VA (R133). -/
  | vaddHfVa (st : BitVec 1) (gd : BitVec 3) (d : BitVec 6) (a : BitVec 6) (b : BitVec 6)
  /-- Adds FP16 elements, in VB (R133). -/
  | vaddHfVb (st : BitVec 1) (gd : BitVec 3) (d : BitVec 6) (a : BitVec 6) (b : BitVec 6)
  /-- Multiplies FP16 elements, in VA (R133). -/
  | vmulHfVa (st : BitVec 1) (gd : BitVec 3) (d : BitVec 6) (a : BitVec 6) (b : BitVec 6)
  /-- Multiplies FP16 elements, in VB (R133). -/
  | vmulHfVb (st : BitVec 1) (gd : BitVec 3) (d : BitVec 6) (a : BitVec 6) (b : BitVec 6)
  /-- Fused multiply-add of FP16 elements with the addend from vd, in VA (R134). -/
  | vfmaHfVa (st : BitVec 1) (gd : BitVec 3) (d : BitVec 6) (a : BitVec 6) (b : BitVec 6)
  /-- Fused multiply-add of FP16 elements with the addend from vd, in VB (R134). -/
  | vfmaHfVb (st : BitVec 1) (gd : BitVec 3) (d : BitVec 6) (a : BitVec 6) (b : BitVec 6)
  /-- Adds INT32 lanes modulo 2^32, in VA (R135). -/
  | vaddI32Va (st : BitVec 1) (gd : BitVec 3) (d : BitVec 6) (a : BitVec 6) (b : BitVec 6)
  /-- Adds INT32 lanes modulo 2^32, in VB (R135). -/
  | vaddI32Vb (st : BitVec 1) (gd : BitVec 3) (d : BitVec 6) (a : BitVec 6) (b : BitVec 6)
  /-- Subtracts INT32 lanes modulo 2^32, in VA (R135). -/
  | vsubI32Va (st : BitVec 1) (gd : BitVec 3) (d : BitVec 6) (a : BitVec 6) (b : BitVec 6)
  /-- Subtracts INT32 lanes modulo 2^32, in VB (R135). -/
  | vsubI32Vb (st : BitVec 1) (gd : BitVec 3) (d : BitVec 6) (a : BitVec 6) (b : BitVec 6)
  /-- Multiplies INT32 lanes, keeping the low 32 bits, in VA (R135). -/
  | vmulI32Va (st : BitVec 1) (gd : BitVec 3) (d : BitVec 6) (a : BitVec 6) (b : BitVec 6)
  /-- Multiplies INT32 lanes, keeping the low 32 bits, in VB (R135). -/
  | vmulI32Vb (st : BitVec 1) (gd : BitVec 3) (d : BitVec 6) (a : BitVec 6) (b : BitVec 6)
  /-- Signed INT32 lane minimum, in VA (R135). -/
  | vminI32Va (st : BitVec 1) (gd : BitVec 3) (d : BitVec 6) (a : BitVec 6) (b : BitVec 6)
  /-- Signed INT32 lane minimum, in VB (R135). -/
  | vminI32Vb (st : BitVec 1) (gd : BitVec 3) (d : BitVec 6) (a : BitVec 6) (b : BitVec 6)
  /-- Signed INT32 lane maximum, in VA (R135). -/
  | vmaxI32Va (st : BitVec 1) (gd : BitVec 3) (d : BitVec 6) (a : BitVec 6) (b : BitVec 6)
  /-- Signed INT32 lane maximum, in VB (R135). -/
  | vmaxI32Vb (st : BitVec 1) (gd : BitVec 3) (d : BitVec 6) (a : BitVec 6) (b : BitVec 6)
  /-- Bitwise AND of lanes, in VA (R135). -/
  | vandVa (st : BitVec 1) (gd : BitVec 3) (d : BitVec 6) (a : BitVec 6) (b : BitVec 6)
  /-- Bitwise AND of lanes, in VB (R135). -/
  | vandVb (st : BitVec 1) (gd : BitVec 3) (d : BitVec 6) (a : BitVec 6) (b : BitVec 6)
  /-- Bitwise OR of lanes, in VA (R135). -/
  | vorVa (st : BitVec 1) (gd : BitVec 3) (d : BitVec 6) (a : BitVec 6) (b : BitVec 6)
  /-- Bitwise OR of lanes, in VB (R135). -/
  | vorVb (st : BitVec 1) (gd : BitVec 3) (d : BitVec 6) (a : BitVec 6) (b : BitVec 6)
  /-- Bitwise XOR of lanes, in VA (R135). -/
  | vxorVa (st : BitVec 1) (gd : BitVec 3) (d : BitVec 6) (a : BitVec 6) (b : BitVec 6)
  /-- Bitwise XOR of lanes, in VB (R135). -/
  | vxorVb (st : BitVec 1) (gd : BitVec 3) (d : BitVec 6) (a : BitVec 6) (b : BitVec 6)
  /-- Shifts lanes left by b_i[4:0], in VA (R135). -/
  | vshlVa (st : BitVec 1) (gd : BitVec 3) (d : BitVec 6) (a : BitVec 6) (b : BitVec 6)
  /-- Shifts lanes left by b_i[4:0], in VB (R135). -/
  | vshlVb (st : BitVec 1) (gd : BitVec 3) (d : BitVec 6) (a : BitVec 6) (b : BitVec 6)
  /-- Shifts lanes logically right by b_i[4:0], in VA (R135). -/
  | vshrVa (st : BitVec 1) (gd : BitVec 3) (d : BitVec 6) (a : BitVec 6) (b : BitVec 6)
  /-- Shifts lanes logically right by b_i[4:0], in VB (R135). -/
  | vshrVb (st : BitVec 1) (gd : BitVec 3) (d : BitVec 6) (a : BitVec 6) (b : BitVec 6)
  /-- Shifts lanes arithmetically right by b_i[4:0], in VA (R135). -/
  | vsarVa (st : BitVec 1) (gd : BitVec 3) (d : BitVec 6) (a : BitVec 6) (b : BitVec 6)
  /-- Shifts lanes arithmetically right by b_i[4:0], in VB (R135). -/
  | vsarVb (st : BitVec 1) (gd : BitVec 3) (d : BitVec 6) (a : BitVec 6) (b : BitVec 6)
  /-- Writes mask md with FP32 a_i = b_i, in VA (R136). -/
  | vcmpEqF32Va (st : BitVec 1) (gd : BitVec 3) (d : BitVec 3) (a : BitVec 6) (b : BitVec 6)
  /-- Writes mask md with FP32 a_i = b_i, in VB (R136). -/
  | vcmpEqF32Vb (st : BitVec 1) (gd : BitVec 3) (d : BitVec 3) (a : BitVec 6) (b : BitVec 6)
  /-- Writes mask md with FP32 a_i < b_i, in VA (R136). -/
  | vcmpLtF32Va (st : BitVec 1) (gd : BitVec 3) (d : BitVec 3) (a : BitVec 6) (b : BitVec 6)
  /-- Writes mask md with FP32 a_i < b_i, in VB (R136). -/
  | vcmpLtF32Vb (st : BitVec 1) (gd : BitVec 3) (d : BitVec 3) (a : BitVec 6) (b : BitVec 6)
  /-- Writes mask md with FP32 a_i ≤ b_i, in VA (R136). -/
  | vcmpLeF32Va (st : BitVec 1) (gd : BitVec 3) (d : BitVec 3) (a : BitVec 6) (b : BitVec 6)
  /-- Writes mask md with FP32 a_i ≤ b_i, in VB (R136). -/
  | vcmpLeF32Vb (st : BitVec 1) (gd : BitVec 3) (d : BitVec 3) (a : BitVec 6) (b : BitVec 6)
  /-- Writes mask md with INT32 a_i = b_i, in VA (R136). -/
  | vcmpEqI32Va (st : BitVec 1) (gd : BitVec 3) (d : BitVec 3) (a : BitVec 6) (b : BitVec 6)
  /-- Writes mask md with INT32 a_i = b_i, in VB (R136). -/
  | vcmpEqI32Vb (st : BitVec 1) (gd : BitVec 3) (d : BitVec 3) (a : BitVec 6) (b : BitVec 6)
  /-- Writes mask md with signed a_i < b_i, in VA (R136). -/
  | vcmpLtI32Va (st : BitVec 1) (gd : BitVec 3) (d : BitVec 3) (a : BitVec 6) (b : BitVec 6)
  /-- Writes mask md with signed a_i < b_i, in VB (R136). -/
  | vcmpLtI32Vb (st : BitVec 1) (gd : BitVec 3) (d : BitVec 3) (a : BitVec 6) (b : BitVec 6)
  /-- Writes mask md with signed a_i ≤ b_i, in VA (R136). -/
  | vcmpLeI32Va (st : BitVec 1) (gd : BitVec 3) (d : BitVec 3) (a : BitVec 6) (b : BitVec 6)
  /-- Writes mask md with signed a_i ≤ b_i, in VB (R136). -/
  | vcmpLeI32Vb (st : BitVec 1) (gd : BitVec 3) (d : BitVec 3) (a : BitVec 6) (b : BitVec 6)
  /-- Writes md := ma AND mb, in VA (R137). -/
  | vmandVa (st : BitVec 1) (gd : BitVec 3) (d : BitVec 3) (a : BitVec 3) (b : BitVec 3)
  /-- Writes md := ma AND mb, in VB (R137). -/
  | vmandVb (st : BitVec 1) (gd : BitVec 3) (d : BitVec 3) (a : BitVec 3) (b : BitVec 3)
  /-- Writes md := ma OR mb, in VA (R137). -/
  | vmorVa (st : BitVec 1) (gd : BitVec 3) (d : BitVec 3) (a : BitVec 3) (b : BitVec 3)
  /-- Writes md := ma OR mb, in VB (R137). -/
  | vmorVb (st : BitVec 1) (gd : BitVec 3) (d : BitVec 3) (a : BitVec 3) (b : BitVec 3)
  /-- Writes md := NOT ma, in VA (R137). -/
  | vmnotVa (st : BitVec 1) (gd : BitVec 3) (d : BitVec 3) (a : BitVec 3)
  /-- Writes md := NOT ma, in VB (R137). -/
  | vmnotVb (st : BitVec 1) (gd : BitVec 3) (d : BitVec 3) (a : BitVec 3)
  /-- Sets the select-mask index to ma, in VA (R137). -/
  | vmsVa (st : BitVec 1) (gd : BitVec 3) (a : BitVec 3)
  /-- Sets the select-mask index to ma, in VB (R137). -/
  | vmsVb (st : BitVec 1) (gd : BitVec 3) (a : BitVec 3)
  /-- Selects lanes of a or b by the select mask, in VA (R138). -/
  | vselVa (st : BitVec 1) (gd : BitVec 3) (d : BitVec 6) (a : BitVec 6) (b : BitVec 6)
  /-- Selects lanes of a or b by the select mask, in VB (R138). -/
  | vselVb (st : BitVec 1) (gd : BitVec 3) (d : BitVec 6) (a : BitVec 6) (b : BitVec 6)
  /-- Permutes lanes of a by the indices in b, in VA (R138). -/
  | vpermVa (st : BitVec 1) (gd : BitVec 3) (d : BitVec 6) (a : BitVec 6) (b : BitVec 6)
  /-- Permutes lanes of a by the indices in b, in VB (R138). -/
  | vpermVb (st : BitVec 1) (gd : BitVec 3) (d : BitVec 6) (a : BitVec 6) (b : BitVec 6)
  /-- Rotates lanes of a by k, in VA (R138). -/
  | vrotVa (st : BitVec 1) (gd : BitVec 3) (d : BitVec 6) (a : BitVec 6) (i : BitVec 6)
  /-- Rotates lanes of a by k, in VB (R138). -/
  | vrotVb (st : BitVec 1) (gd : BitVec 3) (d : BitVec 6) (a : BitVec 6) (i : BitVec 6)
  /-- Converts INT32 lanes to FP32, in VA (R139). -/
  | vcvtF32I32Va (st : BitVec 1) (gd : BitVec 3) (d : BitVec 6) (a : BitVec 6)
  /-- Converts INT32 lanes to FP32, in VB (R139). -/
  | vcvtF32I32Vb (st : BitVec 1) (gd : BitVec 3) (d : BitVec 6) (a : BitVec 6)
  /-- Converts FP32 lanes to INT32, nearest even, saturating, in VA (R139). -/
  | vcvtI32F32Va (st : BitVec 1) (gd : BitVec 3) (d : BitVec 6) (a : BitVec 6)
  /-- Converts FP32 lanes to INT32, nearest even, saturating, in VB (R139). -/
  | vcvtI32F32Vb (st : BitVec 1) (gd : BitVec 3) (d : BitVec 6) (a : BitVec 6)
  /-- Converts FP32 lanes to INT32 toward zero, saturating, in VA (R139). -/
  | vcvtI32F32zVa (st : BitVec 1) (gd : BitVec 3) (d : BitVec 6) (a : BitVec 6)
  /-- Converts FP32 lanes to INT32 toward zero, saturating, in VB (R139). -/
  | vcvtI32F32zVb (st : BitVec 1) (gd : BitVec 3) (d : BitVec 6) (a : BitVec 6)
  /-- Packs two FP32 vectors into one BF16 vector, in VA (R140). -/
  | vpackBfVa (st : BitVec 1) (gd : BitVec 3) (d : BitVec 6) (a : BitVec 6) (b : BitVec 6)
  /-- Packs two FP32 vectors into one BF16 vector, in VB (R140). -/
  | vpackBfVb (st : BitVec 1) (gd : BitVec 3) (d : BitVec 6) (a : BitVec 6) (b : BitVec 6)
  /-- Unpacks half h of a BF16 vector to FP32 lanes, in VA (R140). -/
  | vunpkBfVa (st : BitVec 1) (gd : BitVec 3) (d : BitVec 6) (a : BitVec 6) (h : BitVec 1)
  /-- Unpacks half h of a BF16 vector to FP32 lanes, in VB (R140). -/
  | vunpkBfVb (st : BitVec 1) (gd : BitVec 3) (d : BitVec 6) (a : BitVec 6) (h : BitVec 1)
  /-- Packs two FP32 vectors into one FP16 vector, in VA (R140). -/
  | vpackHfVa (st : BitVec 1) (gd : BitVec 3) (d : BitVec 6) (a : BitVec 6) (b : BitVec 6)
  /-- Packs two FP32 vectors into one FP16 vector, in VB (R140). -/
  | vpackHfVb (st : BitVec 1) (gd : BitVec 3) (d : BitVec 6) (a : BitVec 6) (b : BitVec 6)
  /-- Unpacks half h of an FP16 vector to FP32 lanes, in VA (R140). -/
  | vunpkHfVa (st : BitVec 1) (gd : BitVec 3) (d : BitVec 6) (a : BitVec 6) (h : BitVec 1)
  /-- Unpacks half h of an FP16 vector to FP32 lanes, in VB (R140). -/
  | vunpkHfVb (st : BitVec 1) (gd : BitVec 3) (d : BitVec 6) (a : BitVec 6) (h : BitVec 1)
  /-- Packs two FP32 vectors into E4M3 elements 0 to 127, in VA (R141). -/
  | vpack8E4Va (st : BitVec 1) (gd : BitVec 3) (d : BitVec 6) (a : BitVec 6) (b : BitVec 6)
  /-- Packs two FP32 vectors into E4M3 elements 0 to 127, in VB (R141). -/
  | vpack8E4Vb (st : BitVec 1) (gd : BitVec 3) (d : BitVec 6) (a : BitVec 6) (b : BitVec 6)
  /-- Packs two FP32 vectors into E5M2 elements 0 to 127, in VA (R141). -/
  | vpack8E5Va (st : BitVec 1) (gd : BitVec 3) (d : BitVec 6) (a : BitVec 6) (b : BitVec 6)
  /-- Packs two FP32 vectors into E5M2 elements 0 to 127, in VB (R141). -/
  | vpack8E5Vb (st : BitVec 1) (gd : BitVec 3) (d : BitVec 6) (a : BitVec 6) (b : BitVec 6)
  /-- Merges the low halves of two 8-bit vectors, in VA (R141). -/
  | vmrg8Va (st : BitVec 1) (gd : BitVec 3) (d : BitVec 6) (a : BitVec 6) (b : BitVec 6)
  /-- Merges the low halves of two 8-bit vectors, in VB (R141). -/
  | vmrg8Vb (st : BitVec 1) (gd : BitVec 3) (d : BitVec 6) (a : BitVec 6) (b : BitVec 6)
  /-- Decodes quarter q of an E4M3 vector to FP32, in VA (R141). -/
  | vunpk8E4Va (st : BitVec 1) (gd : BitVec 3) (d : BitVec 6) (a : BitVec 6) (i : BitVec 6)
  /-- Decodes quarter q of an E4M3 vector to FP32, in VB (R141). -/
  | vunpk8E4Vb (st : BitVec 1) (gd : BitVec 3) (d : BitVec 6) (a : BitVec 6) (i : BitVec 6)
  /-- Decodes quarter q of an E5M2 vector to FP32, in VA (R141). -/
  | vunpk8E5Va (st : BitVec 1) (gd : BitVec 3) (d : BitVec 6) (a : BitVec 6) (i : BitVec 6)
  /-- Decodes quarter q of an E5M2 vector to FP32, in VB (R141). -/
  | vunpk8E5Vb (st : BitVec 1) (gd : BitVec 3) (d : BitVec 6) (a : BitVec 6) (i : BitVec 6)
  /-- Adds four signed INT8 products per lane to the addend from vd, in VA (R142). -/
  | vdot4I8Va (st : BitVec 1) (gd : BitVec 3) (d : BitVec 6) (a : BitVec 6) (b : BitVec 6)
  /-- Adds four signed INT8 products per lane to the addend from vd, in VB (R142). -/
  | vdot4I8Vb (st : BitVec 1) (gd : BitVec 3) (d : BitVec 6) (a : BitVec 6) (b : BitVec 6)
  /-- Computes 2^x per lane by the architected procedure (R123). -/
  | vexp2 (st : BitVec 1) (gd : BitVec 3) (d : BitVec 6) (a : BitVec 6)
  /-- Computes log2 x per lane by the architected procedure (R124). -/
  | vlog2 (st : BitVec 1) (gd : BitVec 3) (d : BitVec 6) (a : BitVec 6)
  /-- Computes 1/x per lane by the architected procedure (R125). -/
  | vrcp (st : BitVec 1) (gd : BitVec 3) (d : BitVec 6) (a : BitVec 6)
  /-- Computes 1/sqrt(x) per lane by the architected procedure (R126). -/
  | vrsq (st : BitVec 1) (gd : BitVec 3) (d : BitVec 6) (a : BitVec 6)
  /-- Computes the correctly rounded square root per lane (R121). -/
  | vsqrt (st : BitVec 1) (gd : BitVec 3) (d : BitVec 6) (a : BitVec 6)
  /-- Computes the correctly rounded quotient a_i / b_i per lane (R121). -/
  | vdiv (st : BitVec 1) (gd : BitVec 3) (d : BitVec 6) (a : BitVec 6) (b : BitVec 6)
  /-- Computes tanh x per lane by the architected procedure (R127). -/
  | vtanh (st : BitVec 1) (gd : BitVec 3) (d : BitVec 6) (a : BitVec 6)
  /-- Sums the FP32 lanes by the pairwise tree and broadcasts the result (R144). -/
  | vrsumF32 (st : BitVec 1) (gd : BitVec 3) (d : BitVec 6) (a : BitVec 6)
  /-- Reduces the FP32 lanes by maximum and broadcasts the result (R144). -/
  | vrmaxF32 (st : BitVec 1) (gd : BitVec 3) (d : BitVec 6) (a : BitVec 6)
  /-- Reduces the FP32 lanes by minimum and broadcasts the result (R144). -/
  | vrminF32 (st : BitVec 1) (gd : BitVec 3) (d : BitVec 6) (a : BitVec 6)
  /-- Sums the INT32 lanes modulo 2^32 and broadcasts the result (R144). -/
  | vrsumI32 (st : BitVec 1) (gd : BitVec 3) (d : BitVec 6) (a : BitVec 6)
  /-- Updates the attention row maximum and sets the rescale factors of the state (R146). -/
  | amaxu (st : BitVec 1) (gd : BitVec 3) (d : BitVec 6) (a : BitVec 6) (b : BitVec 6)
  /-- Forms the exponent weights of a tile's scores against the state maximum (R147). -/
  | aexps (st : BitVec 1) (gd : BitVec 3) (d : BitVec 6) (a : BitVec 6) (b : BitVec 6)
  /-- Rescales and combines the running and new vectors by the state's factors (R148). -/
  | aresc (st : BitVec 1) (gd : BitVec 3) (d : BitVec 6) (a : BitVec 6) (b : BitVec 6)
  /-- Normalises an output vector by the row's sum and writes the row's bit of m7 (R149). -/
  | anorm (st : BitVec 1) (gd : BitVec 3) (d : BitVec 6) (a : BitVec 6) (b : BitVec 6)
  /-- Merges two attention partial states into one (R150). -/
  | amrg (st : BitVec 1) (gd : BitVec 3) (d : BitVec 6) (a : BitVec 6) (b : BitVec 6)
  /-- Compares two vectors and raises CHK two cycles later when they differ (R152). -/
  | vchk (st : BitVec 1) (gd : BitVec 3) (a : BitVec 6) (b : BitVec 6)
  /-- Broadcasts a[31:0] to every lane of vd (R100). -/
  | xbc (st : BitVec 1) (gd : BitVec 3) (d : BitVec 6) (a : BitVec 6)
  /-- Pops vd, inserts a[31:0] in one lane and pushes it back (R100). -/
  | xins (st : BitVec 1) (gd : BitVec 3) (d : BitVec 6) (a : BitVec 6) (i : BitVec 6)
  /-- Writes the scalar a into lane mask md (R100). -/
  | xmk (st : BitVec 1) (gd : BitVec 3) (d : BitVec 3) (a : BitVec 6)
  /-- Pushes one lane of a vector, zero-extended, into d (R101). -/
  | xext (st : BitVec 1) (gd : BitVec 3) (d : BitVec 6) (a : BitVec 6) (i : BitVec 6)
  /-- Pushes mask ma as a 64-bit value into d (R101). -/
  | xms (st : BitVec 1) (gd : BitVec 3) (d : BitVec 6) (a : BitVec 3)
  /-- Pushes the index of the lowest set bit of mask ma into d (R101). -/
  | xfst (st : BitVec 1) (gd : BitVec 3) (d : BitVec 6) (a : BitVec 3)
  /-- Loads a byte, sign-extended, into sld (R205). -/
  | ldb (st : BitVec 1) (gd : BitVec 3) (n : BitVec 6) (o : BitVec 6) (i : BitVec 6)
  /-- Loads a byte, zero-extended, into sld (R205). -/
  | ldbz (st : BitVec 1) (gd : BitVec 3) (n : BitVec 6) (o : BitVec 6) (i : BitVec 6)
  /-- Loads two bytes, sign-extended, into sld (R205). -/
  | ldh (st : BitVec 1) (gd : BitVec 3) (n : BitVec 6) (o : BitVec 6) (i : BitVec 6)
  /-- Loads two bytes, zero-extended, into sld (R205). -/
  | ldhz (st : BitVec 1) (gd : BitVec 3) (n : BitVec 6) (o : BitVec 6) (i : BitVec 6)
  /-- Loads four bytes, sign-extended, into sld (R205). -/
  | ldw (st : BitVec 1) (gd : BitVec 3) (n : BitVec 6) (o : BitVec 6) (i : BitVec 6)
  /-- Loads four bytes, zero-extended, into sld (R205). -/
  | ldwz (st : BitVec 1) (gd : BitVec 3) (n : BitVec 6) (o : BitVec 6) (i : BitVec 6)
  /-- Loads eight bytes into sld (R205). -/
  | ldd (st : BitVec 1) (gd : BitVec 3) (n : BitVec 6) (o : BitVec 6) (i : BitVec 6)
  /-- Loads 256 bytes, or decodes an N4Q block, into vld (R206). -/
  | ldv (st : BitVec 1) (gd : BitVec 3) (n : BitVec 6) (o : BitVec 6) (i : BitVec 6)
  /-- Loads 256 bytes in the swizzled view into vld (R206). -/
  | ldvS (st : BitVec 1) (gd : BitVec 3) (n : BitVec 6) (o : BitVec 6) (i : BitVec 6)
  /-- Gathers a word per selected lane into vld (R207). -/
  | ldvg (st : BitVec 1) (gd : BitVec 3) (n : BitVec 6) (o : BitVec 6) (v : BitVec 6)
  /-- Stores the low byte of data (R205). -/
  | stb (st : BitVec 1) (gd : BitVec 3) (n : BitVec 6) (o : BitVec 6) (x : BitVec 6)
  /-- Stores the low two bytes of data (R205). -/
  | sth (st : BitVec 1) (gd : BitVec 3) (n : BitVec 6) (o : BitVec 6) (x : BitVec 6)
  /-- Stores the low four bytes of data (R205). -/
  | stw (st : BitVec 1) (gd : BitVec 3) (n : BitVec 6) (o : BitVec 6) (x : BitVec 6)
  /-- Stores eight bytes of data (R205). -/
  | std (st : BitVec 1) (gd : BitVec 3) (n : BitVec 6) (o : BitVec 6) (x : BitVec 6)
  /-- Stores 256 bytes, or encodes an N4Q block (R206). -/
  | stv (st : BitVec 1) (gd : BitVec 3) (n : BitVec 6) (o : BitVec 6) (x : BitVec 6)
  /-- Stores 256 bytes in the swizzled view (R206). -/
  | stvS (st : BitVec 1) (gd : BitVec 3) (n : BitVec 6) (o : BitVec 6) (x : BitVec 6)
  /-- Stores only the selected lanes of a vector (R206). -/
  | stvm (st : BitVec 1) (gd : BitVec 3) (n : BitVec 6) (o : BitVec 6) (x : BitVec 6)
  /-- Scatters the selected lanes of a data vector to offsets from an offset vector (R207). -/
  | stvs (st : BitVec 1) (gd : BitVec 3) (n : BitVec 6) (o : BitVec 6) (v : BitVec 6)
  /-- Atomically adds to a 32-bit word and pushes the old value into sld (R208). -/
  | aaddW (st : BitVec 1) (gd : BitVec 3) (n : BitVec 6) (o : BitVec 6) (x : BitVec 6)
  /-- Atomically adds to a 64-bit word and pushes the old value into sld (R208). -/
  | aaddD (st : BitVec 1) (gd : BitVec 3) (n : BitVec 6) (o : BitVec 6) (x : BitVec 6)
  /-- Atomic signed minimum on a 32-bit word, pushing the old value (R208). -/
  | aminW (st : BitVec 1) (gd : BitVec 3) (n : BitVec 6) (o : BitVec 6) (x : BitVec 6)
  /-- Atomic signed maximum on a 32-bit word, pushing the old value (R208). -/
  | amaxW (st : BitVec 1) (gd : BitVec 3) (n : BitVec 6) (o : BitVec 6) (x : BitVec 6)
  /-- Atomically exchanges a 64-bit word, pushing the old value (R208). -/
  | axchgD (st : BitVec 1) (gd : BitVec 3) (n : BitVec 6) (o : BitVec 6) (x : BitVec 6)
  /-- Atomic compare-and-swap on a 64-bit word, pushing the old value (R208). -/
  | acasD (st : BitVec 1) (gd : BitVec 3) (n : BitVec 6) (o : BitVec 6) (x : BitVec 6)
  /-- Clears every view mark of the segment (R203). -/
  | vjoin (st : BitVec 1) (gd : BitVec 3) (n : BitVec 6)
  /-- Binds name g to an existing segment or creates a private one (R209). -/
  | sbind (st : BitVec 1) (gd : BitVec 3) (n : BitVec 6) (o : BitVec 6)
  /-- Makes name g invalid, destroying a private segment with its last binding (R210). -/
  | sfree (st : BitVec 1) (gd : BitVec 3) (n : BitVec 6)
  /-- Pushes the segment's length in bytes into d (R211). -/
  | slen (st : BitVec 1) (gd : BitVec 3) (n : BitVec 6) (d : BitVec 6)
  /-- Pushes the segment's descriptor word into d (R211). -/
  | sfmt (st : BitVec 1) (gd : BitVec 3) (n : BitVec 6) (d : BitVec 6)
  /-- Opens a shadow of the segment (R212). -/
  | sshd (st : BitVec 1) (gd : BitVec 3) (n : BitVec 6)
  /-- Publishes the written shadow lines into the segment in one step and closes the shadow (R212). -/
  | spub (st : BitVec 1) (gd : BitVec 3) (n : BitVec 6)
  /-- Publishes as SPUB and marks a phase commit (R212). -/
  | spubp (st : BitVec 1) (gd : BitVec 3) (n : BitVec 6)
  /-- Discards the shadow's lines and closes the shadow (R212). -/
  | sdisc (st : BitVec 1) (gd : BitVec 3) (n : BitVec 6)
  /-- Checks a handle and installs it in handle register kh (R224). -/
  | kset (st : BitVec 1) (gd : BitVec 3) (h : BitVec 6) (a : BitVec 6)
  /-- Clears the valid bit of handle register kh (R224). -/
  | kclr (st : BitVec 1) (gd : BitVec 3) (h : BitVec 6)
  /-- Loads the key row at a position into kld (R225). -/
  | kldk (st : BitVec 1) (gd : BitVec 3) (h : BitVec 6) (a : BitVec 6)
  /-- Loads the value row at a position into kld (R225). -/
  | kldv (st : BitVec 1) (gd : BitVec 3) (h : BitVec 6) (a : BitVec 6)
  /-- Reserves the next position of the stream and writes a key row and a value row there (R227). -/
  | kapp (st : BitVec 1) (gd : BitVec 3) (h : BitVec 6) (a : BitVec 6) (b : BitVec 6)
  /-- Pushes the stream's length into d (R228). -/
  | klen (st : BitVec 1) (gd : BitVec 3) (d : BitVec 6) (h : BitVec 6)
  /-- Sets the committed mark of the stream to its length (R228). -/
  | kmark (st : BitVec 1) (gd : BitVec 3) (h : BitVec 6)
  /-- Truncates the stream's length to a and frees the pages beyond it (R228). -/
  | ktrunc (st : BitVec 1) (gd : BitVec 3) (h : BitVec 6) (a : BitVec 6)
  /-- Pops a start and an end into mask interval ki_i (R229). -/
  | kivl (st : BitVec 1) (gd : BitVec 3) (i : BitVec 6) (a : BitVec 6)
  /-- Classifies a key tile against the intervals, writing a mask and a class (R230). -/
  | kcls (st : BitVec 1) (gd : BitVec 3) (d : BitVec 6) (a : BitVec 6) (m : BitVec 3)
  /-- Asks the walker to make the pages of a position present (R231). -/
  | kpf (st : BitVec 1) (gd : BitVec 3) (h : BitVec 6) (a : BitVec 6)
  /-- Submits a copy from virtual memory into a segment (R216). -/
  | cpyin (st : BitVec 1) (gd : BitVec 3) (n : BitVec 6) (a : BitVec 6)
  /-- Submits a copy from virtual memory into the segment's open shadow (R216). -/
  | cpyinSh (st : BitVec 1) (gd : BitVec 3) (n : BitVec 6) (a : BitVec 6)
  /-- Submits a copy from a segment to virtual memory (R216). -/
  | cpyout (st : BitVec 1) (gd : BitVec 3) (n : BitVec 6) (a : BitVec 6)
  /-- Submits a copy from a segment into a segment of a tile of this module (R216). -/
  | cpysg (st : BitVec 1) (gd : BitVec 3) (n : BitVec 6) (a : BitVec 6)
  /-- Submits a multicast copy to tiles of the cluster, each then signalled (R216). -/
  | cpymc (st : BitVec 1) (gd : BitVec 3) (n : BitVec 6) (a : BitVec 6)
  /-- Submits a put of segment bytes to a target segment, followed by a signal (R217). -/
  | puts (st : BitVec 1) (gd : BitVec 3) (n : BitVec 6) (a : BitVec 6)
  /-- Pops a result-queue row and submits its put to a target, followed by a signal (R217). -/
  | putr (st : BitVec 1) (gd : BitVec 3) (q : BitVec 6) (a : BitVec 6)
  /-- Submits a get of remote segment bytes into a local segment, followed by a local signal (R217). -/
  | gets (st : BitVec 1) (gd : BitVec 3) (n : BitVec 6) (a : BitVec 6)
  /-- Submits an atomic add on a virtual word, returning the old value to a segment (R219). -/
  | atadd (st : BitVec 1) (gd : BitVec 3) (n : BitVec 6) (a : BitVec 6)
  /-- Submits an atomic compare-and-swap on a virtual word (R219). -/
  | atcas (st : BitVec 1) (gd : BitVec 3) (n : BitVec 6) (a : BitVec 6)
  /-- Submits an atomic exchange on a virtual word (R219). -/
  | atxch (st : BitVec 1) (gd : BitVec 3) (n : BitVec 6) (a : BitVec 6)
  /-- Copies a launch record from a segment and submits it to the dispatch complex (R220). -/
  | spawn (st : BitVec 1) (gd : BitVec 3) (a : BitVec 6)
  /-- Tests a flag against k, decrementing it on success and freezing otherwise (R102). -/
  | waitf (st : BitVec 1) (gd : BitVec 3) (f : BitVec 6) (i : BitVec 12)
  /-- Adds a signed immediate to a flag's value (R103). -/
  | postf (st : BitVec 1) (gd : BitVec 3) (f : BitVec 6) (i : BitVec 12)
  /-- Sends a signal word to a flag of a remote tile through the engine port (R104). -/
  | postr (st : BitVec 1) (gd : BitVec 3) (a : BitVec 6)
  /-- Sets a flag's value and increments its generation (R103). -/
  | finit (st : BitVec 1) (gd : BitVec 3) (f : BitVec 6) (i : BitVec 12)
  /-- Freezes the context until the outstanding counters fall to the given limits (R105). -/
  | waitc (st : BitVec 1) (gd : BitVec 3) (l : BitVec 4) (t : BitVec 4) (c : BitVec 4) (m : BitVec 4)
  /-- Pushes a flag's value and generation into d (R106). -/
  | frd (st : BitVec 1) (gd : BitVec 3) (d : BitVec 6) (f : BitVec 6)
  /-- Loads one weight row from a segment into the idle plane (R159). -/
  | mwl (st : BitVec 1) (gd : BitVec 3) (n : BitVec 6) (o : BitVec 6) (r : BitVec 6)
  /-- Swaps the active and idle weight planes (R160). -/
  | mwsw (st : BitVec 1) (gd : BitVec 3)
  /-- Gathers up to eight activation rows into the operand latch (R161). -/
  | mga (st : BitVec 1) (gd : BitVec 3) (n : BitVec 6) (o : BitVec 6) (v : BitVec 6)
  /-- Runs one beat on a vector A row and adds it into an accumulator row (R162). -/
  | mac (st : BitVec 1) (gd : BitVec 3) (a : BitVec 6) (b : BitVec 6)
  /-- Runs one beat on an A row popped from the latch and adds it into an accumulator row (R162). -/
  | macLatch (st : BitVec 1) (gd : BitVec 3) (a : BitVec 6)
  /-- Runs one beat on a vector A row and overwrites an accumulator row (R162). -/
  | macZ (st : BitVec 1) (gd : BitVec 3) (a : BitVec 6) (b : BitVec 6)
  /-- Runs one beat on an A row from the latch and overwrites an accumulator row (R162). -/
  | macZLatch (st : BitVec 1) (gd : BitVec 3) (a : BitVec 6)
  /-- Converts an accumulator row and pushes it into a result queue (R164). -/
  | mdr (st : BitVec 1) (gd : BitVec 3) (q : BitVec 6) (a : BitVec 6) (x : BitVec 1) (f : BitVec 3)
  /-- Applies the Hadamard rotation of the active plane to an accumulator row in place (R167). -/
  | mrot (st : BitVec 1) (gd : BitVec 3) (a : BitVec 6)
  /-- Writes Hadamard signs of order q into the idle plane (R166). -/
  | mldh (st : BitVec 1) (gd : BitVec 3) (i : BitVec 12)
  /-- Writes a value into a matrix engine register (R168). -/
  | mset (st : BitVec 1) (gd : BitVec 3) (a : BitVec 6) (e : BitVec 5)
  /-- Allocates n consecutive accumulator banks and pushes the first bank number (R169). -/
  | abal (st : BitVec 1) (gd : BitVec 3) (d : BitVec 6) (i : BitVec 12)
  /-- Frees n accumulator banks held by the context (R170). -/
  | abfr (st : BitVec 1) (gd : BitVec 3) (a : BitVec 6) (i : BitVec 12)
  /-- Submits a tile product C := A·B (+C) to the sequence engine (R189). -/
  | mmul (st : BitVec 1) (gd : BitVec 3)
  /-- Resumes a tile product from MESTEP (R189). -/
  | mmulR (st : BitVec 1) (gd : BitVec 3)
  /-- Submits an LU factorisation with partial pivoting (R190). -/
  | mlu (st : BitVec 1) (gd : BitVec 3)
  /-- Resumes an LU factorisation from MESTEP (R190). -/
  | mluR (st : BitVec 1) (gd : BitVec 3)
  /-- Submits a Cholesky factorisation (R192). -/
  | mchol (st : BitVec 1) (gd : BitVec 3)
  /-- Resumes a Cholesky factorisation from MESTEP (R192). -/
  | mcholR (st : BitVec 1) (gd : BitVec 3)
  /-- Submits a Householder QR reduction (R193). -/
  | mqr (st : BitVec 1) (gd : BitVec 3)
  /-- Resumes a Householder QR reduction from MESTEP (R193). -/
  | mqrR (st : BitVec 1) (gd : BitVec 3)
  /-- Submits a triangular solve in place (R194). -/
  | mtrs (st : BitVec 1) (gd : BitVec 3)
  /-- Submits a row permutation of B by PERM (R195). -/
  | mperm (st : BitVec 1) (gd : BitVec 3)
  /-- Extends the immediate of the preceding slot with 27 literal bits (R42). -/
  | lit (st : BitVec 1) (l : BitVec 27)
  /-- Pads a bundle and occupies no unit (R44). -/
  | pad (st : BitVec 1)
  deriving DecidableEq, Repr

end Sys2Proof
end

