-- ==== Sys2Proof/WellFormed.lean ====
section
/-! DEFINITION. Which instructions have an encoding the decoder accepts: the field rules of R37, R38, R43 and R60. -/

namespace Sys2Proof

/-- A 6-bit scalar source: codes 29 and 30 are illegal (R37). -/
def sSrcOk (x : BitVec 6) : Bool := x.toNat % 32 < 29 || x.toNat % 32 == 31
/-- A 6-bit scalar destination: codes 28 to 30 are illegal and no keep bit is allowed (R37). -/
def sDstOk (x : BitVec 6) : Bool := x.toNat < 28 || x.toNat == 31
/-- The B field of CMP: codes 28 to 30 are illegal (R97). -/
def sBOk (x : BitVec 5) : Bool := x.toNat < 28 || x.toNat == 31
/-- A 6-bit vector source: code 30 is illegal (R37). -/
def vSrcOk (x : BitVec 6) : Bool := x.toNat % 32 != 30
/-- A 6-bit vector destination: codes 24 to 30 are illegal and no keep bit is allowed (R37). -/
def vDstOk (x : BitVec 6) : Bool := x.toNat < 24 || x.toNat == 31
/-- The destination of a fused form, which may carry the keep bit (R37). -/
def vFusedOk (x : BitVec 6) : Bool := x.toNat % 32 < 24 || x.toNat % 32 == 31
/-- A predicate destination: p1 to p95 (R17, R38). -/
def pDstOk (x : BitVec 7) : Bool := 0 < x.toNat && x.toNat < 96
/-- A predicate source: p0 to p95 (R38). -/
def pSrcOk (x : BitVec 7) : Bool := x.toNat < 96
/-- A lane-mask destination: m1 to m7 (R17, R38). -/
def mDstOk (x : BitVec 3) : Bool := x != 0
/-- A number field with its range (R60). -/
def numOk {w : Nat} (lo hi : Nat) (x : BitVec w) : Bool := lo ≤ x.toNat && x.toNat ≤ hi
/-- The assigned system register numbers (R22). -/
def sysAssigned (n : Nat) : Bool :=
  n ≤ 0x008 || (0x010 ≤ n && n ≤ 0x017) || (0x020 ≤ n && n ≤ 0x025) || (0x030 ≤ n && n ≤ 0x033) || n == 0x040 ||
  n == 0x050 || n == 0x051 || n == 0x060 || (0x100 ≤ n && n ≤ 0x13F) || (0x200 ≤ n && n ≤ 0x202) ||
  (0x210 ≤ n && n ≤ 0x212)
def sysOk (x : BitVec 12) : Bool := sysAssigned x.toNat
/-- The order of MLDH (R166). -/
def orderOk (x : BitVec 12) : Bool := x.toNat == 16 || x.toNat == 32 || x.toNat == 64

/-- An instruction whose fields the decoder accepts. The steps without an encoding name a tile of the module
(R1) where they name one. -/
def wf : Instr → Bool
  | .br _ _ _ => true
  | .brNa _ _ _ => true
  | .brNt _ _ _ => true
  | .bri _ _ a => sSrcOk a
  | .call _ _ d _ => sDstOk d
  | .loop0 _ _ a _ => sSrcOk a
  | .loop1 _ _ a _ => sSrcOk a
  | .loopi0 _ _ _ _ => true
  | .loopi1 _ _ _ _ => true
  | .endTask _ _ a => sSrcOk a
  | .trap _ _ _ => true
  | .reti _ _ => true
  | .brk _ _ _ => true
  | .gmap _ _ w p _ => numOk 1 7 w && pSrcOk p
  | .srd _ _ d i => sDstOk d && sysOk i
  | .swr _ _ a i => sSrcOk a && sysOk i
  | .cget _ _ d _ => sDstOk d
  | .cset _ _ a _ => sSrcOk a
  | .acmp _ _ a _ => sSrcOk a
  | .cgset _ _ a l _ => sSrcOk a && numOk 1 7 l
  | .slane _ _ d => sDstOk d
  | .addSa _ _ d a b => sDstOk d && sSrcOk a && sSrcOk b
  | .addSb _ _ d a b => sDstOk d && sSrcOk a && sSrcOk b
  | .subSa _ _ d a b => sDstOk d && sSrcOk a && sSrcOk b
  | .subSb _ _ d a b => sDstOk d && sSrcOk a && sSrcOk b
  | .addiSa _ _ d a _ => sDstOk d && sSrcOk a
  | .addiSb _ _ d a _ => sDstOk d && sSrcOk a
  | .mulSa _ _ d a b => sDstOk d && sSrcOk a && sSrcOk b
  | .mulSb _ _ d a b => sDstOk d && sSrcOk a && sSrcOk b
  | .mulhSa _ _ d a b => sDstOk d && sSrcOk a && sSrcOk b
  | .mulhSb _ _ d a b => sDstOk d && sSrcOk a && sSrcOk b
  | .mulhuSa _ _ d a b => sDstOk d && sSrcOk a && sSrcOk b
  | .mulhuSb _ _ d a b => sDstOk d && sSrcOk a && sSrcOk b
  | .divSa _ _ d a b => sDstOk d && sSrcOk a && sSrcOk b
  | .divSb _ _ d a b => sDstOk d && sSrcOk a && sSrcOk b
  | .divuSa _ _ d a b => sDstOk d && sSrcOk a && sSrcOk b
  | .divuSb _ _ d a b => sDstOk d && sSrcOk a && sSrcOk b
  | .remSa _ _ d a b => sDstOk d && sSrcOk a && sSrcOk b
  | .remSb _ _ d a b => sDstOk d && sSrcOk a && sSrcOk b
  | .remuSa _ _ d a b => sDstOk d && sSrcOk a && sSrcOk b
  | .remuSb _ _ d a b => sDstOk d && sSrcOk a && sSrcOk b
  | .andSa _ _ d a b => sDstOk d && sSrcOk a && sSrcOk b
  | .andSb _ _ d a b => sDstOk d && sSrcOk a && sSrcOk b
  | .orSa _ _ d a b => sDstOk d && sSrcOk a && sSrcOk b
  | .orSb _ _ d a b => sDstOk d && sSrcOk a && sSrcOk b
  | .xorSa _ _ d a b => sDstOk d && sSrcOk a && sSrcOk b
  | .xorSb _ _ d a b => sDstOk d && sSrcOk a && sSrcOk b
  | .andnSa _ _ d a b => sDstOk d && sSrcOk a && sSrcOk b
  | .andnSb _ _ d a b => sDstOk d && sSrcOk a && sSrcOk b
  | .shlSa _ _ d a b => sDstOk d && sSrcOk a && sSrcOk b
  | .shlSb _ _ d a b => sDstOk d && sSrcOk a && sSrcOk b
  | .shrSa _ _ d a b => sDstOk d && sSrcOk a && sSrcOk b
  | .shrSb _ _ d a b => sDstOk d && sSrcOk a && sSrcOk b
  | .sarSa _ _ d a b => sDstOk d && sSrcOk a && sSrcOk b
  | .sarSb _ _ d a b => sDstOk d && sSrcOk a && sSrcOk b
  | .shliSa _ _ d a _ => sDstOk d && sSrcOk a
  | .shliSb _ _ d a _ => sDstOk d && sSrcOk a
  | .shriSa _ _ d a _ => sDstOk d && sSrcOk a
  | .shriSb _ _ d a _ => sDstOk d && sSrcOk a
  | .sariSa _ _ d a _ => sDstOk d && sSrcOk a
  | .sariSb _ _ d a _ => sDstOk d && sSrcOk a
  | .minSa _ _ d a b => sDstOk d && sSrcOk a && sSrcOk b
  | .minSb _ _ d a b => sDstOk d && sSrcOk a && sSrcOk b
  | .maxSa _ _ d a b => sDstOk d && sSrcOk a && sSrcOk b
  | .maxSb _ _ d a b => sDstOk d && sSrcOk a && sSrcOk b
  | .minuSa _ _ d a b => sDstOk d && sSrcOk a && sSrcOk b
  | .minuSb _ _ d a b => sDstOk d && sSrcOk a && sSrcOk b
  | .maxuSa _ _ d a b => sDstOk d && sSrcOk a && sSrcOk b
  | .maxuSb _ _ d a b => sDstOk d && sSrcOk a && sSrcOk b
  | .clzSa _ _ d a => sDstOk d && sSrcOk a
  | .clzSb _ _ d a => sDstOk d && sSrcOk a
  | .popcSa _ _ d a => sDstOk d && sSrcOk a
  | .popcSb _ _ d a => sDstOk d && sSrcOk a
  | .extSa _ _ d a _ => sDstOk d && sSrcOk a
  | .extSb _ _ d a _ => sDstOk d && sSrcOk a
  | .extzSa _ _ d a _ => sDstOk d && sSrcOk a
  | .extzSb _ _ d a _ => sDstOk d && sSrcOk a
  | .movSa _ _ d a => sDstOk d && sSrcOk a
  | .movSb _ _ d a => sDstOk d && sSrcOk a
  | .moviSa _ _ d _ => sDstOk d
  | .moviSb _ _ d _ => sDstOk d
  | .cmpEqSa _ _ p a b => pDstOk p && sSrcOk a && sBOk b
  | .cmpEqSb _ _ p a b => pDstOk p && sSrcOk a && sBOk b
  | .cmpNeSa _ _ p a b => pDstOk p && sSrcOk a && sBOk b
  | .cmpNeSb _ _ p a b => pDstOk p && sSrcOk a && sBOk b
  | .cmpLtSa _ _ p a b => pDstOk p && sSrcOk a && sBOk b
  | .cmpLtSb _ _ p a b => pDstOk p && sSrcOk a && sBOk b
  | .cmpLeSa _ _ p a b => pDstOk p && sSrcOk a && sBOk b
  | .cmpLeSb _ _ p a b => pDstOk p && sSrcOk a && sBOk b
  | .cmpLtuSa _ _ p a b => pDstOk p && sSrcOk a && sBOk b
  | .cmpLtuSb _ _ p a b => pDstOk p && sSrcOk a && sBOk b
  | .cmpLeuSa _ _ p a b => pDstOk p && sSrcOk a && sBOk b
  | .cmpLeuSb _ _ p a b => pDstOk p && sSrcOk a && sBOk b
  | .cmpiEqSa _ _ p a _ => pDstOk p && sSrcOk a
  | .cmpiEqSb _ _ p a _ => pDstOk p && sSrcOk a
  | .cmpiNeSa _ _ p a _ => pDstOk p && sSrcOk a
  | .cmpiNeSb _ _ p a _ => pDstOk p && sSrcOk a
  | .cmpiLtSa _ _ p a _ => pDstOk p && sSrcOk a
  | .cmpiLtSb _ _ p a _ => pDstOk p && sSrcOk a
  | .cmpiLeSa _ _ p a _ => pDstOk p && sSrcOk a
  | .cmpiLeSb _ _ p a _ => pDstOk p && sSrcOk a
  | .cmpiLtuSa _ _ p a _ => pDstOk p && sSrcOk a
  | .cmpiLtuSb _ _ p a _ => pDstOk p && sSrcOk a
  | .cmpiLeuSa _ _ p a _ => pDstOk p && sSrcOk a
  | .cmpiLeuSb _ _ p a _ => pDstOk p && sSrcOk a
  | .pandSa _ _ p q => pDstOk p && pSrcOk q
  | .pandSb _ _ p q => pDstOk p && pSrcOk q
  | .porSa _ _ p q => pDstOk p && pSrcOk q
  | .porSb _ _ p q => pDstOk p && pSrcOk q
  | .pxorSa _ _ p q => pDstOk p && pSrcOk q
  | .pxorSb _ _ p q => pDstOk p && pSrcOk q
  | .pandnSa _ _ p q => pDstOk p && pSrcOk q
  | .pandnSb _ _ p q => pDstOk p && pSrcOk q
  | .pnotSa _ _ p q => pDstOk p && pSrcOk q
  | .pnotSb _ _ p q => pDstOk p && pSrcOk q
  | .pmovSa _ _ p q => pDstOk p && pSrcOk q
  | .pmovSb _ _ p q => pDstOk p && pSrcOk q
  | .psetiSa _ _ p _ => pDstOk p
  | .psetiSb _ _ p _ => pDstOk p
  | .ptosSa _ _ d q => sDstOk d && pSrcOk q
  | .ptosSb _ _ d q => sDstOk d && pSrcOk q
  | .setpSa _ _ p a => pDstOk p && sSrcOk a
  | .setpSb _ _ p a => pDstOk p && sSrcOk a
  | .schkSa _ _ a b => sSrcOk a && sSrcOk b
  | .schkSb _ _ a b => sSrcOk a && sSrcOk b
  | .vaddF32Va _ _ d a b => vDstOk d && vSrcOk a && vSrcOk b
  | .vaddF32Vb _ _ d a b => vDstOk d && vSrcOk a && vSrcOk b
  | .vsubF32Va _ _ d a b => vDstOk d && vSrcOk a && vSrcOk b
  | .vsubF32Vb _ _ d a b => vDstOk d && vSrcOk a && vSrcOk b
  | .vmulF32Va _ _ d a b => vDstOk d && vSrcOk a && vSrcOk b
  | .vmulF32Vb _ _ d a b => vDstOk d && vSrcOk a && vSrcOk b
  | .vfmaF32Va _ _ d a b => vFusedOk d && vSrcOk a && vSrcOk b
  | .vfmaF32Vb _ _ d a b => vFusedOk d && vSrcOk a && vSrcOk b
  | .vfmsF32Va _ _ d a b => vFusedOk d && vSrcOk a && vSrcOk b
  | .vfmsF32Vb _ _ d a b => vFusedOk d && vSrcOk a && vSrcOk b
  | .vminF32Va _ _ d a b => vDstOk d && vSrcOk a && vSrcOk b
  | .vminF32Vb _ _ d a b => vDstOk d && vSrcOk a && vSrcOk b
  | .vmaxF32Va _ _ d a b => vDstOk d && vSrcOk a && vSrcOk b
  | .vmaxF32Vb _ _ d a b => vDstOk d && vSrcOk a && vSrcOk b
  | .vabsF32Va _ _ d a => vDstOk d && vSrcOk a
  | .vabsF32Vb _ _ d a => vDstOk d && vSrcOk a
  | .vnegF32Va _ _ d a => vDstOk d && vSrcOk a
  | .vnegF32Vb _ _ d a => vDstOk d && vSrcOk a
  | .vaddBfVa _ _ d a b => vDstOk d && vSrcOk a && vSrcOk b
  | .vaddBfVb _ _ d a b => vDstOk d && vSrcOk a && vSrcOk b
  | .vmulBfVa _ _ d a b => vDstOk d && vSrcOk a && vSrcOk b
  | .vmulBfVb _ _ d a b => vDstOk d && vSrcOk a && vSrcOk b
  | .vfmaBfVa _ _ d a b => vFusedOk d && vSrcOk a && vSrcOk b
  | .vfmaBfVb _ _ d a b => vFusedOk d && vSrcOk a && vSrcOk b
  | .vaddHfVa _ _ d a b => vDstOk d && vSrcOk a && vSrcOk b
  | .vaddHfVb _ _ d a b => vDstOk d && vSrcOk a && vSrcOk b
  | .vmulHfVa _ _ d a b => vDstOk d && vSrcOk a && vSrcOk b
  | .vmulHfVb _ _ d a b => vDstOk d && vSrcOk a && vSrcOk b
  | .vfmaHfVa _ _ d a b => vFusedOk d && vSrcOk a && vSrcOk b
  | .vfmaHfVb _ _ d a b => vFusedOk d && vSrcOk a && vSrcOk b
  | .vaddI32Va _ _ d a b => vDstOk d && vSrcOk a && vSrcOk b
  | .vaddI32Vb _ _ d a b => vDstOk d && vSrcOk a && vSrcOk b
  | .vsubI32Va _ _ d a b => vDstOk d && vSrcOk a && vSrcOk b
  | .vsubI32Vb _ _ d a b => vDstOk d && vSrcOk a && vSrcOk b
  | .vmulI32Va _ _ d a b => vDstOk d && vSrcOk a && vSrcOk b
  | .vmulI32Vb _ _ d a b => vDstOk d && vSrcOk a && vSrcOk b
  | .vminI32Va _ _ d a b => vDstOk d && vSrcOk a && vSrcOk b
  | .vminI32Vb _ _ d a b => vDstOk d && vSrcOk a && vSrcOk b
  | .vmaxI32Va _ _ d a b => vDstOk d && vSrcOk a && vSrcOk b
  | .vmaxI32Vb _ _ d a b => vDstOk d && vSrcOk a && vSrcOk b
  | .vandVa _ _ d a b => vDstOk d && vSrcOk a && vSrcOk b
  | .vandVb _ _ d a b => vDstOk d && vSrcOk a && vSrcOk b
  | .vorVa _ _ d a b => vDstOk d && vSrcOk a && vSrcOk b
  | .vorVb _ _ d a b => vDstOk d && vSrcOk a && vSrcOk b
  | .vxorVa _ _ d a b => vDstOk d && vSrcOk a && vSrcOk b
  | .vxorVb _ _ d a b => vDstOk d && vSrcOk a && vSrcOk b
  | .vshlVa _ _ d a b => vDstOk d && vSrcOk a && vSrcOk b
  | .vshlVb _ _ d a b => vDstOk d && vSrcOk a && vSrcOk b
  | .vshrVa _ _ d a b => vDstOk d && vSrcOk a && vSrcOk b
  | .vshrVb _ _ d a b => vDstOk d && vSrcOk a && vSrcOk b
  | .vsarVa _ _ d a b => vDstOk d && vSrcOk a && vSrcOk b
  | .vsarVb _ _ d a b => vDstOk d && vSrcOk a && vSrcOk b
  | .vcmpEqF32Va _ _ d a b => mDstOk d && vSrcOk a && vSrcOk b
  | .vcmpEqF32Vb _ _ d a b => mDstOk d && vSrcOk a && vSrcOk b
  | .vcmpLtF32Va _ _ d a b => mDstOk d && vSrcOk a && vSrcOk b
  | .vcmpLtF32Vb _ _ d a b => mDstOk d && vSrcOk a && vSrcOk b
  | .vcmpLeF32Va _ _ d a b => mDstOk d && vSrcOk a && vSrcOk b
  | .vcmpLeF32Vb _ _ d a b => mDstOk d && vSrcOk a && vSrcOk b
  | .vcmpEqI32Va _ _ d a b => mDstOk d && vSrcOk a && vSrcOk b
  | .vcmpEqI32Vb _ _ d a b => mDstOk d && vSrcOk a && vSrcOk b
  | .vcmpLtI32Va _ _ d a b => mDstOk d && vSrcOk a && vSrcOk b
  | .vcmpLtI32Vb _ _ d a b => mDstOk d && vSrcOk a && vSrcOk b
  | .vcmpLeI32Va _ _ d a b => mDstOk d && vSrcOk a && vSrcOk b
  | .vcmpLeI32Vb _ _ d a b => mDstOk d && vSrcOk a && vSrcOk b
  | .vmandVa _ _ d _ _ => mDstOk d
  | .vmandVb _ _ d _ _ => mDstOk d
  | .vmorVa _ _ d _ _ => mDstOk d
  | .vmorVb _ _ d _ _ => mDstOk d
  | .vmnotVa _ _ d _ => mDstOk d
  | .vmnotVb _ _ d _ => mDstOk d
  | .vmsVa _ _ _ => true
  | .vmsVb _ _ _ => true
  | .vselVa _ _ d a b => vDstOk d && vSrcOk a && vSrcOk b
  | .vselVb _ _ d a b => vDstOk d && vSrcOk a && vSrcOk b
  | .vpermVa _ _ d a b => vDstOk d && vSrcOk a && vSrcOk b
  | .vpermVb _ _ d a b => vDstOk d && vSrcOk a && vSrcOk b
  | .vrotVa _ _ d a _ => vDstOk d && vSrcOk a
  | .vrotVb _ _ d a _ => vDstOk d && vSrcOk a
  | .vcvtF32I32Va _ _ d a => vDstOk d && vSrcOk a
  | .vcvtF32I32Vb _ _ d a => vDstOk d && vSrcOk a
  | .vcvtI32F32Va _ _ d a => vDstOk d && vSrcOk a
  | .vcvtI32F32Vb _ _ d a => vDstOk d && vSrcOk a
  | .vcvtI32F32zVa _ _ d a => vDstOk d && vSrcOk a
  | .vcvtI32F32zVb _ _ d a => vDstOk d && vSrcOk a
  | .vpackBfVa _ _ d a b => vDstOk d && vSrcOk a && vSrcOk b
  | .vpackBfVb _ _ d a b => vDstOk d && vSrcOk a && vSrcOk b
  | .vunpkBfVa _ _ d a _ => vDstOk d && vSrcOk a
  | .vunpkBfVb _ _ d a _ => vDstOk d && vSrcOk a
  | .vpackHfVa _ _ d a b => vDstOk d && vSrcOk a && vSrcOk b
  | .vpackHfVb _ _ d a b => vDstOk d && vSrcOk a && vSrcOk b
  | .vunpkHfVa _ _ d a _ => vDstOk d && vSrcOk a
  | .vunpkHfVb _ _ d a _ => vDstOk d && vSrcOk a
  | .vpack8E4Va _ _ d a b => vDstOk d && vSrcOk a && vSrcOk b
  | .vpack8E4Vb _ _ d a b => vDstOk d && vSrcOk a && vSrcOk b
  | .vpack8E5Va _ _ d a b => vDstOk d && vSrcOk a && vSrcOk b
  | .vpack8E5Vb _ _ d a b => vDstOk d && vSrcOk a && vSrcOk b
  | .vmrg8Va _ _ d a b => vDstOk d && vSrcOk a && vSrcOk b
  | .vmrg8Vb _ _ d a b => vDstOk d && vSrcOk a && vSrcOk b
  | .vunpk8E4Va _ _ d a i => vDstOk d && vSrcOk a && numOk 0 3 i
  | .vunpk8E4Vb _ _ d a i => vDstOk d && vSrcOk a && numOk 0 3 i
  | .vunpk8E5Va _ _ d a i => vDstOk d && vSrcOk a && numOk 0 3 i
  | .vunpk8E5Vb _ _ d a i => vDstOk d && vSrcOk a && numOk 0 3 i
  | .vdot4I8Va _ _ d a b => vFusedOk d && vSrcOk a && vSrcOk b
  | .vdot4I8Vb _ _ d a b => vFusedOk d && vSrcOk a && vSrcOk b
  | .vexp2 _ _ d a => vDstOk d && vSrcOk a
  | .vlog2 _ _ d a => vDstOk d && vSrcOk a
  | .vrcp _ _ d a => vDstOk d && vSrcOk a
  | .vrsq _ _ d a => vDstOk d && vSrcOk a
  | .vsqrt _ _ d a => vDstOk d && vSrcOk a
  | .vdiv _ _ d a b => vDstOk d && vSrcOk a && vSrcOk b
  | .vtanh _ _ d a => vDstOk d && vSrcOk a
  | .vrsumF32 _ _ d a => vDstOk d && vSrcOk a
  | .vrmaxF32 _ _ d a => vDstOk d && vSrcOk a
  | .vrminF32 _ _ d a => vDstOk d && vSrcOk a
  | .vrsumI32 _ _ d a => vDstOk d && vSrcOk a
  | .amaxu _ _ d a b => vDstOk d && vSrcOk a && vSrcOk b
  | .aexps _ _ d a b => vDstOk d && vSrcOk a && vSrcOk b
  | .aresc _ _ d a b => vDstOk d && vSrcOk a && vSrcOk b
  | .anorm _ _ d a b => vDstOk d && vSrcOk a && vSrcOk b
  | .amrg _ _ d a b => vDstOk d && vSrcOk a && vSrcOk b
  | .vchk _ _ a b => vSrcOk a && vSrcOk b
  | .xbc _ _ d a => vDstOk d && sSrcOk a
  | .xins _ _ d a _ => vDstOk d && sSrcOk a
  | .xmk _ _ d a => mDstOk d && sSrcOk a
  | .xext _ _ d a _ => sDstOk d && vSrcOk a
  | .xms _ _ d _ => sDstOk d
  | .xfst _ _ d _ => sDstOk d
  | .ldb _ _ _ o _ => sSrcOk o
  | .ldbz _ _ _ o _ => sSrcOk o
  | .ldh _ _ _ o _ => sSrcOk o
  | .ldhz _ _ _ o _ => sSrcOk o
  | .ldw _ _ _ o _ => sSrcOk o
  | .ldwz _ _ _ o _ => sSrcOk o
  | .ldd _ _ _ o _ => sSrcOk o
  | .ldv _ _ _ o _ => sSrcOk o
  | .ldvS _ _ _ o _ => sSrcOk o
  | .ldvg _ _ _ o v => sSrcOk o && vSrcOk v
  | .stb _ _ _ o x => sSrcOk o && sSrcOk x
  | .sth _ _ _ o x => sSrcOk o && sSrcOk x
  | .stw _ _ _ o x => sSrcOk o && sSrcOk x
  | .std _ _ _ o x => sSrcOk o && sSrcOk x
  | .stv _ _ _ o x => sSrcOk o && vSrcOk x
  | .stvS _ _ _ o x => sSrcOk o && vSrcOk x
  | .stvm _ _ _ o x => sSrcOk o && vSrcOk x
  | .stvs _ _ _ o v => sSrcOk o && vSrcOk v
  | .aaddW _ _ _ o x => sSrcOk o && sSrcOk x
  | .aaddD _ _ _ o x => sSrcOk o && sSrcOk x
  | .aminW _ _ _ o x => sSrcOk o && sSrcOk x
  | .amaxW _ _ _ o x => sSrcOk o && sSrcOk x
  | .axchgD _ _ _ o x => sSrcOk o && sSrcOk x
  | .acasD _ _ _ o x => sSrcOk o && sSrcOk x
  | .vjoin _ _ _ => true
  | .sbind _ _ _ o => sSrcOk o
  | .sfree _ _ _ => true
  | .slen _ _ _ d => sDstOk d
  | .sfmt _ _ _ d => sDstOk d
  | .sshd _ _ _ => true
  | .spub _ _ _ => true
  | .spubp _ _ _ => true
  | .sdisc _ _ _ => true
  | .kset _ _ h a => numOk 0 7 h && sSrcOk a
  | .kclr _ _ h => numOk 0 7 h
  | .kldk _ _ h a => numOk 0 7 h && sSrcOk a
  | .kldv _ _ h a => numOk 0 7 h && sSrcOk a
  | .kapp _ _ h a b => numOk 0 7 h && vSrcOk a && vSrcOk b
  | .klen _ _ d h => sDstOk d && numOk 0 7 h
  | .kmark _ _ h => numOk 0 7 h
  | .ktrunc _ _ h a => numOk 0 7 h && sSrcOk a
  | .kivl _ _ i a => numOk 0 3 i && sSrcOk a
  | .kcls _ _ d a m => sDstOk d && sSrcOk a && mDstOk m
  | .kpf _ _ h a => numOk 0 7 h && sSrcOk a
  | .cpyin _ _ _ a => sSrcOk a
  | .cpyinSh _ _ _ a => sSrcOk a
  | .cpyout _ _ _ a => sSrcOk a
  | .cpysg _ _ _ a => sSrcOk a
  | .cpymc _ _ _ a => sSrcOk a
  | .puts _ _ _ a => sSrcOk a
  | .putr _ _ q a => numOk 0 3 q && sSrcOk a
  | .gets _ _ _ a => sSrcOk a
  | .atadd _ _ _ a => sSrcOk a
  | .atcas _ _ _ a => sSrcOk a
  | .atxch _ _ _ a => sSrcOk a
  | .spawn _ _ a => sSrcOk a
  | .waitf _ _ f _ => numOk 0 15 f
  | .postf _ _ f _ => numOk 0 15 f
  | .postr _ _ a => sSrcOk a
  | .finit _ _ f _ => numOk 0 15 f
  | .waitc _ _ _ _ _ _ => true
  | .frd _ _ d f => sDstOk d && numOk 0 15 f
  | .mwl _ _ _ o _ => sSrcOk o
  | .mwsw _ _ => true
  | .mga _ _ _ o v => sSrcOk o && vSrcOk v
  | .mac _ _ a b => sSrcOk a && vSrcOk b
  | .macLatch _ _ a => sSrcOk a
  | .macZ _ _ a b => sSrcOk a && vSrcOk b
  | .macZLatch _ _ a => sSrcOk a
  | .mdr _ _ q a _ f => numOk 0 3 q && sSrcOk a && numOk 0 6 f
  | .mrot _ _ a => sSrcOk a
  | .mldh _ _ i => orderOk i
  | .mset _ _ a _ => sSrcOk a
  | .abal _ _ d i => sDstOk d && numOk 1 128 i
  | .abfr _ _ a i => sSrcOk a && numOk 1 128 i
  | .mmul _ _ => true
  | .mmulR _ _ => true
  | .mlu _ _ => true
  | .mluR _ _ => true
  | .mchol _ _ => true
  | .mcholR _ _ => true
  | .mqr _ _ => true
  | .mqrR _ _ => true
  | .mtrs _ _ => true
  | .mperm _ _ => true
  | .lit _ _ => true
  | .pad _ => true
  | .resultLanding tile _ => decide (tile < 2048)
  | .waitRetest tile _ => decide (tile < 2048)
  | .lateDatumArrival tile _ => decide (tile < 2048)
  | .delayedCoreAccess tile _ => decide (tile < 2048)
  | .bundleSelection => true
  | .intr tile _ => decide (tile < 2048)
  | .operationFaultDelivery tile _ => decide (tile < 2048)
  | .endComplete tile _ => decide (tile < 2048)
  | .signalApply => true
  | .engineRead _ => true
  | .engineLand _ => true
  | .eComplete _ => true
  | .requestGrant _ => true
  | .seqComplete tile => decide (tile < 2048)
  | .moveBegin tile => decide (tile < 2048)
  | .moveApplied tile => decide (tile < 2048)
  | .kvRowLand _ => true
  | .pageFetchApplied _ => true
  | .roundSize _ => true
  | .seal _ => true
  | .settle _ => true
  | .recordTake _ _ => true
  | .dispatchStep _ => true
  | .tokenAge _ => true
  | .checkpoint tile _ => decide (tile < 2048)
  | .taskStart _ => true
  | .ttPlace _ => true
  | .suspend _ => true
  | .meflagsStop tile _ => decide (tile < 2048)
  | .ilimWrite tile _ => decide (tile < 2048)
  | .eqRemove tile => decide (tile < 2048)
  | .eqSubmit tile => decide (tile < 2048)
  | .rbClear tile _ => decide (tile < 2048)
  | .rbdataWrite tile _ _ => decide (tile < 2048)
  | .registerWrite _ _ _ => true
  | .ringEnable _ _ _ => true
  | .tailWrite _ _ _ => true
  | .tlbWalkDone tile _ => decide (tile < 2048)
  | .lockAcquire _ => true
  | .tlbinv _ _ => true
  | .tlbinvComplete _ => true
  | .migrationStart _ _ => true
  | .migrationFreeze _ => true
  | .migrationSwitch _ => true
  | .hostMemoryAccess _ _ _ _ => true
  | .doorbell _ _ => true
  | .wdctlWrite _ _ => true
  | .wdkick _ => true
  | .watchdogFirstExpiry _ => true
  | .watchdogSecondExpiry _ => true
  | .partitionFreeze _ => true
  | .partitionResume _ => true
  | .partitionKill _ => true
  | .partitionReset _ => true
  | .flitSend _ data => decide (data.length ≤ 244)
  | .flitReceive _ _ _ _ => true
  | .nak _ _ => true
  | .ack _ _ => true
  | .boot => true
  | .getVersion => true
  | .getCapabilities => true
  | .negotiateAlgorithms _ => true
  | .getDigests => true
  | .getCertificate _ => true
  | .challenge _ => true
  | .getMeasurements _ => true
  | .pldmMonitoring _ => true
  | .pldmFirmwareUpdate _ _ => true
  | .ptpMessage _ => true
  | .schedulerUpdate _ => true
  | .heartbeat => true
  | .heartbeatTimeout => true
  | .setPowerCap _ => true
  | .undervoltage => true
  | .powerRestore => true
  | .thermalThrottle _ => true
  | .thermalShutdown => true
  | .scrub => true
  | .rollback tile _ => decide (tile < 2048)
  | .pseudoChannelDrop _ _ => true
  | .monitorTimerExpiry tile _ => decide (tile < 2048)
  | .debugHaltRequest tile _ => decide (tile < 2048)
  | .storeRetirement tile _ => decide (tile < 2048)
  | .holdover => true
  | .ownerUnreachable _ => true
  | .linkTrained _ => true

end Sys2Proof
end

