-- ==== Sys2Proof/Decode.lean ====
section
/-! DEFINITION. Decoding of slots and bundles (R35 to R51, R58 to R71), total on any words, and the encoder.
A definition that builds an instruction is marked noncomputable only because Lean's compiler stores a constructor's
number in one byte and Instr has 425 constructors; the kernel evaluates it like any other. -/

namespace Sys2Proof

/-! ### Operand fields -/

/-- The immediate fields, by the check that R43 makes after LIT extension. -/
inductive Imm where
  /-- An arithmetic value, taken modulo 2^64. -/
  | any
  /-- A number from 0 to `n`. -/
  | upTo (n : Nat)
  /-- A system register number (R22). -/
  | sys
  /-- A number in the bits of `n`, all other bits zero. -/
  | low (n : Nat)
  /-- The lane and carry number of CGSET. -/
  | cgset
  /-- The unsigned flag operand of WAITF. -/
  | flagU
  /-- The signed flag operand of POSTF and FINIT. -/
  | flagS
  /-- The order of MLDH: 16, 32 or 64. -/
  | order
  /-- The bank count of ABAL and ABFR: 1 to 128. -/
  | banks
  /-- The format and scale bits of MDR. -/
  | mdr
  deriving DecidableEq, Repr

/-- The kinds of operand field of R36, R37, R38 and R60. -/
inductive Fk where
  /-- A scalar source of `n` successive entries. -/
  | sS (n : Nat)
  /-- The B field of CMP, without keep bit. -/
  | sB
  /-- A scalar destination. -/
  | sD
  /-- A vector source of `n` successive entries. -/
  | vS (n : Nat)
  /-- A vector destination. -/
  | vD
  /-- The destination of a fused form, which is also its addend. -/
  | vF
  /-- The destination of XINS, which it pops. -/
  | vX
  /-- A predicate destination. -/
  | pD
  /-- A predicate source. -/
  | pS
  /-- A lane-mask destination. -/
  | mD
  /-- A lane-mask source. -/
  | mS
  /-- A number from `lo` to `hi`. -/
  | num (lo hi : Nat)
  /-- The result queue that PUTR pops. -/
  | rq
  /-- The D field of MAC and MAC.z: 0 a vector source, 1 the operand latch. -/
  | mac
  /-- The B field of MAC and MAC.z. -/
  | macB
  /-- Bits that must be zero. -/
  | z
  /-- An immediate. -/
  | imm (k : Imm)
  deriving DecidableEq, Repr

/-- An operand field and the bits of the slot word it occupies. -/
structure Fd where
  kind : Fk
  hi : Nat
  lo : Nat
  deriving DecidableEq, Repr

/-- The operand fields of class 0 (R62), highest first. -/
def layoutB : Nat → Option (List Fd)
  | 0 | 1 | 2 => some [⟨.imm .any, 17, 0⟩]
  | 3 | 9 => some [⟨.z, 17, 12⟩, ⟨.sS 1, 11, 6⟩, ⟨.z, 5, 0⟩]
  | 4 => some [⟨.sD, 17, 12⟩, ⟨.imm .any, 11, 0⟩]
  | 5 | 6 => some [⟨.sS 1, 17, 12⟩, ⟨.imm .any, 11, 0⟩]
  | 7 | 8 => some [⟨.num 0 63, 17, 12⟩, ⟨.imm .any, 11, 0⟩]
  | 10 | 12 => some [⟨.z, 17, 12⟩, ⟨.imm .any, 11, 0⟩]
  | 11 => some [⟨.z, 17, 0⟩]
  | 13 => some [⟨.num 1 7, 17, 15⟩, ⟨.pS, 14, 8⟩, ⟨.num 0 1, 7, 7⟩, ⟨.z, 6, 0⟩]
  | 14 => some [⟨.sD, 17, 12⟩, ⟨.imm .sys, 11, 0⟩]
  | 15 => some [⟨.sS 1, 17, 12⟩, ⟨.imm .sys, 11, 0⟩]
  | 16 => some [⟨.sD, 17, 12⟩, ⟨.imm (.low 7), 11, 0⟩]
  | 17 | 18 => some [⟨.sS 1, 17, 12⟩, ⟨.imm (.low 7), 11, 0⟩]
  | 19 => some [⟨.sS 1, 17, 12⟩, ⟨.imm .cgset, 11, 0⟩]
  | 20 => some [⟨.sD, 17, 12⟩, ⟨.z, 11, 6⟩, ⟨.z, 5, 0⟩]
  | _ => none

/-- The operand fields of class 1 (R63), highest first. -/
def layoutSa : Nat → Option (List Fd)
  | 0 | 1 | 3 | 4 | 5 | 6 | 7 | 8 | 9 | 10 | 11 | 12 | 13 | 14 | 15 | 16 | 20 | 21 | 22 | 23 => some [⟨.sD, 17, 12⟩, ⟨.sS 1, 11, 6⟩, ⟨.sS 1, 5, 0⟩]
  | 2 => some [⟨.sD, 17, 12⟩, ⟨.sS 1, 11, 6⟩, ⟨.imm .any, 5, 0⟩]
  | 17 | 18 | 19 | 26 | 27 => some [⟨.sD, 17, 12⟩, ⟨.sS 1, 11, 6⟩, ⟨.imm (.upTo 63), 5, 0⟩]
  | 24 | 25 | 28 => some [⟨.sD, 17, 12⟩, ⟨.sS 1, 11, 6⟩, ⟨.z, 5, 0⟩]
  | 29 => some [⟨.sD, 17, 12⟩, ⟨.imm .any, 11, 0⟩]
  | 32 | 33 | 34 | 35 | 36 | 37 => some [⟨.pD, 17, 11⟩, ⟨.sS 1, 10, 5⟩, ⟨.sB, 4, 0⟩]
  | 38 | 39 | 40 | 41 | 42 | 43 => some [⟨.pD, 17, 11⟩, ⟨.sS 1, 10, 5⟩, ⟨.imm .any, 4, 0⟩]
  | 44 | 45 | 46 | 47 | 48 | 49 => some [⟨.pD, 17, 11⟩, ⟨.pS, 10, 4⟩, ⟨.z, 3, 0⟩]
  | 50 => some [⟨.pD, 17, 11⟩, ⟨.z, 10, 5⟩, ⟨.num 0 1, 4, 0⟩]
  | 51 => some [⟨.sD, 17, 12⟩, ⟨.z, 11, 7⟩, ⟨.pS, 6, 0⟩]
  | 52 => some [⟨.pD, 17, 11⟩, ⟨.sS 1, 10, 5⟩, ⟨.z, 4, 0⟩]
  | 53 => some [⟨.z, 17, 12⟩, ⟨.sS 1, 11, 6⟩, ⟨.sS 1, 5, 0⟩]
  | _ => none

/-- The operand fields of class 3 (R64), highest first. -/
def layoutVa : Nat → Option (List Fd)
  | 0 | 1 | 2 | 5 | 6 | 9 | 10 | 12 | 13 | 15 | 16 | 17 | 18 | 19 | 20 | 21 | 22 | 23 | 24 | 25 | 36 | 37 | 42 | 44 | 46 | 47 | 48 => some [⟨.vD, 17, 12⟩, ⟨.vS 1, 11, 6⟩, ⟨.vS 1, 5, 0⟩]
  | 3 | 4 | 11 | 14 | 51 => some [⟨.vF, 17, 12⟩, ⟨.vS 1, 11, 6⟩, ⟨.vS 1, 5, 0⟩]
  | 7 | 8 | 39 | 40 | 41 => some [⟨.vD, 17, 12⟩, ⟨.vS 1, 11, 6⟩, ⟨.z, 5, 0⟩]
  | 26 | 27 | 28 | 29 | 30 | 31 => some [⟨.mD, 17, 12⟩, ⟨.vS 1, 11, 6⟩, ⟨.vS 1, 5, 0⟩]
  | 32 | 33 => some [⟨.mD, 17, 12⟩, ⟨.mS, 11, 6⟩, ⟨.mS, 5, 0⟩]
  | 34 => some [⟨.mD, 17, 12⟩, ⟨.mS, 11, 6⟩, ⟨.z, 5, 0⟩]
  | 35 => some [⟨.z, 17, 12⟩, ⟨.mS, 11, 6⟩, ⟨.z, 5, 0⟩]
  | 38 => some [⟨.vD, 17, 12⟩, ⟨.vS 1, 11, 6⟩, ⟨.imm (.upTo 63), 5, 0⟩]
  | 43 | 45 => some [⟨.vD, 17, 12⟩, ⟨.vS 1, 11, 6⟩, ⟨.imm (.low 1), 5, 0⟩]
  | 49 | 50 => some [⟨.vD, 17, 12⟩, ⟨.vS 1, 11, 6⟩, ⟨.imm (.upTo 3), 5, 0⟩]
  | _ => none

/-- The operand fields of class 5 (R65), highest first. -/
def layoutVf : Nat → Option (List Fd)
  | 0 | 1 | 2 | 3 | 4 | 6 | 8 | 9 | 10 | 11 => some [⟨.vD, 17, 12⟩, ⟨.vS 1, 11, 6⟩, ⟨.z, 5, 0⟩]
  | 5 | 16 | 17 | 20 => some [⟨.vD, 17, 12⟩, ⟨.vS 1, 11, 6⟩, ⟨.vS 1, 5, 0⟩]
  | 18 => some [⟨.vD, 17, 12⟩, ⟨.vS 2, 11, 6⟩, ⟨.vS 1, 5, 0⟩]
  | 19 => some [⟨.vD, 17, 12⟩, ⟨.vS 1, 11, 6⟩, ⟨.vS 2, 5, 0⟩]
  | 24 => some [⟨.z, 17, 12⟩, ⟨.vS 1, 11, 6⟩, ⟨.vS 1, 5, 0⟩]
  | _ => none

/-- The operand fields of class 6 (R66), highest first. -/
def layoutXv : Nat → Option (List Fd)
  | 0 => some [⟨.vD, 17, 12⟩, ⟨.sS 1, 11, 6⟩, ⟨.z, 5, 0⟩]
  | 1 => some [⟨.vX, 17, 12⟩, ⟨.sS 1, 11, 6⟩, ⟨.imm (.upTo 63), 5, 0⟩]
  | 2 => some [⟨.mD, 17, 12⟩, ⟨.sS 1, 11, 6⟩, ⟨.z, 5, 0⟩]
  | _ => none

/-- The operand fields of class 7 (R66), highest first. -/
def layoutXs : Nat → Option (List Fd)
  | 0 => some [⟨.sD, 17, 12⟩, ⟨.vS 1, 11, 6⟩, ⟨.imm (.upTo 63), 5, 0⟩]
  | 1 | 2 => some [⟨.sD, 17, 12⟩, ⟨.mS, 11, 6⟩, ⟨.z, 5, 0⟩]
  | _ => none

/-- The operand fields of class 8 (R67), highest first. -/
def layoutG : Nat → Option (List Fd)
  | 0 | 1 | 2 | 3 | 4 | 5 | 6 | 8 | 9 => some [⟨.num 0 63, 17, 12⟩, ⟨.sS 1, 11, 6⟩, ⟨.imm .any, 5, 0⟩]
  | 10 | 20 | 21 | 22 => some [⟨.num 0 63, 17, 12⟩, ⟨.sS 1, 11, 6⟩, ⟨.vS 1, 5, 0⟩]
  | 16 | 17 | 18 | 19 | 24 | 25 | 26 | 27 | 28 => some [⟨.num 0 63, 17, 12⟩, ⟨.sS 1, 11, 6⟩, ⟨.sS 1, 5, 0⟩]
  | 23 => some [⟨.num 0 63, 17, 12⟩, ⟨.sS 1, 11, 6⟩, ⟨.vS 2, 5, 0⟩]
  | 29 => some [⟨.num 0 63, 17, 12⟩, ⟨.sS 1, 11, 6⟩, ⟨.sS 2, 5, 0⟩]
  | 32 | 41 | 44 | 45 | 46 | 47 => some [⟨.num 0 63, 17, 12⟩, ⟨.z, 11, 0⟩]
  | 40 => some [⟨.num 0 63, 17, 12⟩, ⟨.sS 1, 11, 6⟩, ⟨.z, 5, 0⟩]
  | 42 | 43 => some [⟨.num 0 63, 17, 12⟩, ⟨.z, 11, 6⟩, ⟨.sD, 5, 0⟩]
  | _ => none

/-- The operand fields of class 9 (R68), highest first. -/
def layoutK : Nat → Option (List Fd)
  | 0 | 2 | 3 | 7 | 10 => some [⟨.num 0 7, 17, 12⟩, ⟨.sS 1, 11, 6⟩, ⟨.z, 5, 0⟩]
  | 1 | 6 => some [⟨.num 0 7, 17, 12⟩, ⟨.z, 11, 6⟩, ⟨.z, 5, 0⟩]
  | 4 => some [⟨.num 0 7, 17, 12⟩, ⟨.vS 1, 11, 6⟩, ⟨.vS 1, 5, 0⟩]
  | 5 => some [⟨.sD, 17, 12⟩, ⟨.num 0 7, 11, 6⟩, ⟨.z, 5, 0⟩]
  | 8 => some [⟨.num 0 3, 17, 12⟩, ⟨.sS 2, 11, 6⟩, ⟨.z, 5, 0⟩]
  | 9 => some [⟨.sD, 17, 12⟩, ⟨.sS 1, 11, 6⟩, ⟨.mD, 5, 0⟩]
  | _ => none

/-- The operand fields of class 10 (R69), highest first. -/
def layoutE : Nat → Option (List Fd)
  | 0 | 1 | 2 | 3 | 4 | 8 | 10 => some [⟨.num 0 63, 17, 12⟩, ⟨.sS 3, 11, 6⟩, ⟨.z, 5, 0⟩]
  | 5 | 7 | 9 => some [⟨.num 0 63, 17, 12⟩, ⟨.sS 4, 11, 6⟩, ⟨.z, 5, 0⟩]
  | 6 => some [⟨.rq, 17, 12⟩, ⟨.sS 3, 11, 6⟩, ⟨.z, 5, 0⟩]
  | 11 => some [⟨.z, 17, 12⟩, ⟨.sS 2, 11, 6⟩, ⟨.z, 5, 0⟩]
  | _ => none

/-- The operand fields of class 11 (R70), highest first. -/
def layoutY : Nat → Option (List Fd)
  | 0 => some [⟨.num 0 15, 17, 12⟩, ⟨.imm .flagU, 11, 0⟩]
  | 1 | 3 => some [⟨.num 0 15, 17, 12⟩, ⟨.imm .flagS, 11, 0⟩]
  | 2 => some [⟨.z, 17, 12⟩, ⟨.sS 1, 11, 6⟩, ⟨.z, 5, 0⟩]
  | 4 => some [⟨.z, 17, 16⟩, ⟨.num 0 15, 15, 12⟩, ⟨.num 0 15, 11, 8⟩, ⟨.num 0 15, 7, 4⟩, ⟨.num 0 15, 3, 0⟩]
  | 5 => some [⟨.sD, 17, 12⟩, ⟨.z, 11, 6⟩, ⟨.imm (.upTo 15), 5, 0⟩]
  | _ => none

/-- The operand fields of class 12 (R71), highest first. -/
def layoutM : Nat → Option (List Fd)
  | 0 => some [⟨.num 0 63, 17, 12⟩, ⟨.sS 1, 11, 6⟩, ⟨.imm (.upTo 63), 5, 0⟩]
  | 1 | 16 | 17 | 18 | 19 | 20 | 21 | 22 | 23 | 24 | 25 => some [⟨.z, 17, 0⟩]
  | 2 => some [⟨.num 0 63, 17, 12⟩, ⟨.sS 1, 11, 6⟩, ⟨.vS 1, 5, 0⟩]
  | 3 | 4 => some [⟨.mac, 17, 12⟩, ⟨.sS 1, 11, 6⟩, ⟨.macB, 5, 0⟩]
  | 5 => some [⟨.num 0 3, 17, 12⟩, ⟨.sS 1, 11, 6⟩, ⟨.imm .mdr, 5, 0⟩]
  | 6 => some [⟨.z, 17, 12⟩, ⟨.sS 1, 11, 6⟩, ⟨.z, 5, 0⟩]
  | 7 => some [⟨.z, 17, 12⟩, ⟨.imm .order, 11, 0⟩]
  | 8 => some [⟨.sS 1, 17, 12⟩, ⟨.imm (.low 31), 11, 0⟩]
  | 9 => some [⟨.sD, 17, 12⟩, ⟨.imm .banks, 11, 0⟩]
  | 10 => some [⟨.sS 1, 17, 12⟩, ⟨.imm .banks, 11, 0⟩]
  | _ => none

/-- The operand fields of an opcode, highest first; none for an unassigned class or opcode (R59). -/
def layout (cl op : Nat) : Option (List Fd) :=
  match cl with
  | 0 => layoutB op
  | 1 | 2 => layoutSa op
  | 3 | 4 => layoutVa op
  | 5 => layoutVf op
  | 6 => layoutXv op
  | 7 => layoutXs op
  | 8 => layoutG op
  | 9 => layoutK op
  | 10 => layoutE op
  | 11 => layoutY op
  | 12 => layoutM op
  | _ => none

/-! ### From words to instructions -/

/-- Class 0 (R62). -/
def decodeB (st : BitVec 1) (op : Nat) (gd : BitVec 3) (o : BitVec 18) : Option Instr :=
  match op with
  | 0 => some (.br st gd o)
  | 1 => some (.brNa st gd o)
  | 2 => some (.brNt st gd o)
  | 3 => some (.bri st gd (fld o 6 6))
  | 4 => some (.call st gd (fld o 12 6) (fld o 0 12))
  | 5 => some (.loop0 st gd (fld o 12 6) (fld o 0 12))
  | 6 => some (.loop1 st gd (fld o 12 6) (fld o 0 12))
  | 7 => some (.loopi0 st gd (fld o 12 6) (fld o 0 12))
  | 8 => some (.loopi1 st gd (fld o 12 6) (fld o 0 12))
  | 9 => some (.endTask st gd (fld o 6 6))
  | 10 => some (.trap st gd (fld o 0 12))
  | 11 => some (.reti st gd)
  | 12 => some (.brk st gd (fld o 0 12))
  | 13 => some (.gmap st gd (fld o 15 3) (fld o 8 7) (fld o 7 1))
  | 14 => some (.srd st gd (fld o 12 6) (fld o 0 12))
  | 15 => some (.swr st gd (fld o 12 6) (fld o 0 12))
  | 16 => some (.cget st gd (fld o 12 6) (fld o 0 3))
  | 17 => some (.cset st gd (fld o 12 6) (fld o 0 3))
  | 18 => some (.acmp st gd (fld o 12 6) (fld o 0 3))
  | 19 => some (.cgset st gd (fld o 12 6) (fld o 3 3) (fld o 0 3))
  | 20 => some (.slane st gd (fld o 12 6))
  | _ => none

/-- Class 1 (R63). -/
def decodeSa (st : BitVec 1) (op : Nat) (gd : BitVec 3) (o : BitVec 18) : Option Instr :=
  match op with
  | 0 => some (.addSa st gd (fld o 12 6) (fld o 6 6) (fld o 0 6))
  | 1 => some (.subSa st gd (fld o 12 6) (fld o 6 6) (fld o 0 6))
  | 2 => some (.addiSa st gd (fld o 12 6) (fld o 6 6) (fld o 0 6))
  | 3 => some (.mulSa st gd (fld o 12 6) (fld o 6 6) (fld o 0 6))
  | 4 => some (.mulhSa st gd (fld o 12 6) (fld o 6 6) (fld o 0 6))
  | 5 => some (.mulhuSa st gd (fld o 12 6) (fld o 6 6) (fld o 0 6))
  | 6 => some (.divSa st gd (fld o 12 6) (fld o 6 6) (fld o 0 6))
  | 7 => some (.divuSa st gd (fld o 12 6) (fld o 6 6) (fld o 0 6))
  | 8 => some (.remSa st gd (fld o 12 6) (fld o 6 6) (fld o 0 6))
  | 9 => some (.remuSa st gd (fld o 12 6) (fld o 6 6) (fld o 0 6))
  | 10 => some (.andSa st gd (fld o 12 6) (fld o 6 6) (fld o 0 6))
  | 11 => some (.orSa st gd (fld o 12 6) (fld o 6 6) (fld o 0 6))
  | 12 => some (.xorSa st gd (fld o 12 6) (fld o 6 6) (fld o 0 6))
  | 13 => some (.andnSa st gd (fld o 12 6) (fld o 6 6) (fld o 0 6))
  | 14 => some (.shlSa st gd (fld o 12 6) (fld o 6 6) (fld o 0 6))
  | 15 => some (.shrSa st gd (fld o 12 6) (fld o 6 6) (fld o 0 6))
  | 16 => some (.sarSa st gd (fld o 12 6) (fld o 6 6) (fld o 0 6))
  | 17 => some (.shliSa st gd (fld o 12 6) (fld o 6 6) (fld o 0 6))
  | 18 => some (.shriSa st gd (fld o 12 6) (fld o 6 6) (fld o 0 6))
  | 19 => some (.sariSa st gd (fld o 12 6) (fld o 6 6) (fld o 0 6))
  | 20 => some (.minSa st gd (fld o 12 6) (fld o 6 6) (fld o 0 6))
  | 21 => some (.maxSa st gd (fld o 12 6) (fld o 6 6) (fld o 0 6))
  | 22 => some (.minuSa st gd (fld o 12 6) (fld o 6 6) (fld o 0 6))
  | 23 => some (.maxuSa st gd (fld o 12 6) (fld o 6 6) (fld o 0 6))
  | 24 => some (.clzSa st gd (fld o 12 6) (fld o 6 6))
  | 25 => some (.popcSa st gd (fld o 12 6) (fld o 6 6))
  | 26 => some (.extSa st gd (fld o 12 6) (fld o 6 6) (fld o 0 6))
  | 27 => some (.extzSa st gd (fld o 12 6) (fld o 6 6) (fld o 0 6))
  | 28 => some (.movSa st gd (fld o 12 6) (fld o 6 6))
  | 29 => some (.moviSa st gd (fld o 12 6) (fld o 0 12))
  | 32 => some (.cmpEqSa st gd (fld o 11 7) (fld o 5 6) (fld o 0 5))
  | 33 => some (.cmpNeSa st gd (fld o 11 7) (fld o 5 6) (fld o 0 5))
  | 34 => some (.cmpLtSa st gd (fld o 11 7) (fld o 5 6) (fld o 0 5))
  | 35 => some (.cmpLeSa st gd (fld o 11 7) (fld o 5 6) (fld o 0 5))
  | 36 => some (.cmpLtuSa st gd (fld o 11 7) (fld o 5 6) (fld o 0 5))
  | 37 => some (.cmpLeuSa st gd (fld o 11 7) (fld o 5 6) (fld o 0 5))
  | 38 => some (.cmpiEqSa st gd (fld o 11 7) (fld o 5 6) (fld o 0 5))
  | 39 => some (.cmpiNeSa st gd (fld o 11 7) (fld o 5 6) (fld o 0 5))
  | 40 => some (.cmpiLtSa st gd (fld o 11 7) (fld o 5 6) (fld o 0 5))
  | 41 => some (.cmpiLeSa st gd (fld o 11 7) (fld o 5 6) (fld o 0 5))
  | 42 => some (.cmpiLtuSa st gd (fld o 11 7) (fld o 5 6) (fld o 0 5))
  | 43 => some (.cmpiLeuSa st gd (fld o 11 7) (fld o 5 6) (fld o 0 5))
  | 44 => some (.pandSa st gd (fld o 11 7) (fld o 4 7))
  | 45 => some (.porSa st gd (fld o 11 7) (fld o 4 7))
  | 46 => some (.pxorSa st gd (fld o 11 7) (fld o 4 7))
  | 47 => some (.pandnSa st gd (fld o 11 7) (fld o 4 7))
  | 48 => some (.pnotSa st gd (fld o 11 7) (fld o 4 7))
  | 49 => some (.pmovSa st gd (fld o 11 7) (fld o 4 7))
  | 50 => some (.psetiSa st gd (fld o 11 7) (fld o 0 1))
  | 51 => some (.ptosSa st gd (fld o 12 6) (fld o 0 7))
  | 52 => some (.setpSa st gd (fld o 11 7) (fld o 5 6))
  | 53 => some (.schkSa st gd (fld o 6 6) (fld o 0 6))
  | _ => none

/-- Class 2 (R63). -/
def decodeSb (st : BitVec 1) (op : Nat) (gd : BitVec 3) (o : BitVec 18) : Option Instr :=
  match op with
  | 0 => some (.addSb st gd (fld o 12 6) (fld o 6 6) (fld o 0 6))
  | 1 => some (.subSb st gd (fld o 12 6) (fld o 6 6) (fld o 0 6))
  | 2 => some (.addiSb st gd (fld o 12 6) (fld o 6 6) (fld o 0 6))
  | 3 => some (.mulSb st gd (fld o 12 6) (fld o 6 6) (fld o 0 6))
  | 4 => some (.mulhSb st gd (fld o 12 6) (fld o 6 6) (fld o 0 6))
  | 5 => some (.mulhuSb st gd (fld o 12 6) (fld o 6 6) (fld o 0 6))
  | 6 => some (.divSb st gd (fld o 12 6) (fld o 6 6) (fld o 0 6))
  | 7 => some (.divuSb st gd (fld o 12 6) (fld o 6 6) (fld o 0 6))
  | 8 => some (.remSb st gd (fld o 12 6) (fld o 6 6) (fld o 0 6))
  | 9 => some (.remuSb st gd (fld o 12 6) (fld o 6 6) (fld o 0 6))
  | 10 => some (.andSb st gd (fld o 12 6) (fld o 6 6) (fld o 0 6))
  | 11 => some (.orSb st gd (fld o 12 6) (fld o 6 6) (fld o 0 6))
  | 12 => some (.xorSb st gd (fld o 12 6) (fld o 6 6) (fld o 0 6))
  | 13 => some (.andnSb st gd (fld o 12 6) (fld o 6 6) (fld o 0 6))
  | 14 => some (.shlSb st gd (fld o 12 6) (fld o 6 6) (fld o 0 6))
  | 15 => some (.shrSb st gd (fld o 12 6) (fld o 6 6) (fld o 0 6))
  | 16 => some (.sarSb st gd (fld o 12 6) (fld o 6 6) (fld o 0 6))
  | 17 => some (.shliSb st gd (fld o 12 6) (fld o 6 6) (fld o 0 6))
  | 18 => some (.shriSb st gd (fld o 12 6) (fld o 6 6) (fld o 0 6))
  | 19 => some (.sariSb st gd (fld o 12 6) (fld o 6 6) (fld o 0 6))
  | 20 => some (.minSb st gd (fld o 12 6) (fld o 6 6) (fld o 0 6))
  | 21 => some (.maxSb st gd (fld o 12 6) (fld o 6 6) (fld o 0 6))
  | 22 => some (.minuSb st gd (fld o 12 6) (fld o 6 6) (fld o 0 6))
  | 23 => some (.maxuSb st gd (fld o 12 6) (fld o 6 6) (fld o 0 6))
  | 24 => some (.clzSb st gd (fld o 12 6) (fld o 6 6))
  | 25 => some (.popcSb st gd (fld o 12 6) (fld o 6 6))
  | 26 => some (.extSb st gd (fld o 12 6) (fld o 6 6) (fld o 0 6))
  | 27 => some (.extzSb st gd (fld o 12 6) (fld o 6 6) (fld o 0 6))
  | 28 => some (.movSb st gd (fld o 12 6) (fld o 6 6))
  | 29 => some (.moviSb st gd (fld o 12 6) (fld o 0 12))
  | 32 => some (.cmpEqSb st gd (fld o 11 7) (fld o 5 6) (fld o 0 5))
  | 33 => some (.cmpNeSb st gd (fld o 11 7) (fld o 5 6) (fld o 0 5))
  | 34 => some (.cmpLtSb st gd (fld o 11 7) (fld o 5 6) (fld o 0 5))
  | 35 => some (.cmpLeSb st gd (fld o 11 7) (fld o 5 6) (fld o 0 5))
  | 36 => some (.cmpLtuSb st gd (fld o 11 7) (fld o 5 6) (fld o 0 5))
  | 37 => some (.cmpLeuSb st gd (fld o 11 7) (fld o 5 6) (fld o 0 5))
  | 38 => some (.cmpiEqSb st gd (fld o 11 7) (fld o 5 6) (fld o 0 5))
  | 39 => some (.cmpiNeSb st gd (fld o 11 7) (fld o 5 6) (fld o 0 5))
  | 40 => some (.cmpiLtSb st gd (fld o 11 7) (fld o 5 6) (fld o 0 5))
  | 41 => some (.cmpiLeSb st gd (fld o 11 7) (fld o 5 6) (fld o 0 5))
  | 42 => some (.cmpiLtuSb st gd (fld o 11 7) (fld o 5 6) (fld o 0 5))
  | 43 => some (.cmpiLeuSb st gd (fld o 11 7) (fld o 5 6) (fld o 0 5))
  | 44 => some (.pandSb st gd (fld o 11 7) (fld o 4 7))
  | 45 => some (.porSb st gd (fld o 11 7) (fld o 4 7))
  | 46 => some (.pxorSb st gd (fld o 11 7) (fld o 4 7))
  | 47 => some (.pandnSb st gd (fld o 11 7) (fld o 4 7))
  | 48 => some (.pnotSb st gd (fld o 11 7) (fld o 4 7))
  | 49 => some (.pmovSb st gd (fld o 11 7) (fld o 4 7))
  | 50 => some (.psetiSb st gd (fld o 11 7) (fld o 0 1))
  | 51 => some (.ptosSb st gd (fld o 12 6) (fld o 0 7))
  | 52 => some (.setpSb st gd (fld o 11 7) (fld o 5 6))
  | 53 => some (.schkSb st gd (fld o 6 6) (fld o 0 6))
  | _ => none

/-- Class 3 (R64). -/
noncomputable def decodeVa (st : BitVec 1) (op : Nat) (gd : BitVec 3) (o : BitVec 18) : Option Instr :=
  match op with
  | 0 => some (.vaddF32Va st gd (fld o 12 6) (fld o 6 6) (fld o 0 6))
  | 1 => some (.vsubF32Va st gd (fld o 12 6) (fld o 6 6) (fld o 0 6))
  | 2 => some (.vmulF32Va st gd (fld o 12 6) (fld o 6 6) (fld o 0 6))
  | 3 => some (.vfmaF32Va st gd (fld o 12 6) (fld o 6 6) (fld o 0 6))
  | 4 => some (.vfmsF32Va st gd (fld o 12 6) (fld o 6 6) (fld o 0 6))
  | 5 => some (.vminF32Va st gd (fld o 12 6) (fld o 6 6) (fld o 0 6))
  | 6 => some (.vmaxF32Va st gd (fld o 12 6) (fld o 6 6) (fld o 0 6))
  | 7 => some (.vabsF32Va st gd (fld o 12 6) (fld o 6 6))
  | 8 => some (.vnegF32Va st gd (fld o 12 6) (fld o 6 6))
  | 9 => some (.vaddBfVa st gd (fld o 12 6) (fld o 6 6) (fld o 0 6))
  | 10 => some (.vmulBfVa st gd (fld o 12 6) (fld o 6 6) (fld o 0 6))
  | 11 => some (.vfmaBfVa st gd (fld o 12 6) (fld o 6 6) (fld o 0 6))
  | 12 => some (.vaddHfVa st gd (fld o 12 6) (fld o 6 6) (fld o 0 6))
  | 13 => some (.vmulHfVa st gd (fld o 12 6) (fld o 6 6) (fld o 0 6))
  | 14 => some (.vfmaHfVa st gd (fld o 12 6) (fld o 6 6) (fld o 0 6))
  | 15 => some (.vaddI32Va st gd (fld o 12 6) (fld o 6 6) (fld o 0 6))
  | 16 => some (.vsubI32Va st gd (fld o 12 6) (fld o 6 6) (fld o 0 6))
  | 17 => some (.vmulI32Va st gd (fld o 12 6) (fld o 6 6) (fld o 0 6))
  | 18 => some (.vminI32Va st gd (fld o 12 6) (fld o 6 6) (fld o 0 6))
  | 19 => some (.vmaxI32Va st gd (fld o 12 6) (fld o 6 6) (fld o 0 6))
  | 20 => some (.vandVa st gd (fld o 12 6) (fld o 6 6) (fld o 0 6))
  | 21 => some (.vorVa st gd (fld o 12 6) (fld o 6 6) (fld o 0 6))
  | 22 => some (.vxorVa st gd (fld o 12 6) (fld o 6 6) (fld o 0 6))
  | 23 => some (.vshlVa st gd (fld o 12 6) (fld o 6 6) (fld o 0 6))
  | 24 => some (.vshrVa st gd (fld o 12 6) (fld o 6 6) (fld o 0 6))
  | 25 => some (.vsarVa st gd (fld o 12 6) (fld o 6 6) (fld o 0 6))
  | 26 => some (.vcmpEqF32Va st gd (fld o 12 3) (fld o 6 6) (fld o 0 6))
  | 27 => some (.vcmpLtF32Va st gd (fld o 12 3) (fld o 6 6) (fld o 0 6))
  | 28 => some (.vcmpLeF32Va st gd (fld o 12 3) (fld o 6 6) (fld o 0 6))
  | 29 => some (.vcmpEqI32Va st gd (fld o 12 3) (fld o 6 6) (fld o 0 6))
  | 30 => some (.vcmpLtI32Va st gd (fld o 12 3) (fld o 6 6) (fld o 0 6))
  | 31 => some (.vcmpLeI32Va st gd (fld o 12 3) (fld o 6 6) (fld o 0 6))
  | 32 => some (.vmandVa st gd (fld o 12 3) (fld o 6 3) (fld o 0 3))
  | 33 => some (.vmorVa st gd (fld o 12 3) (fld o 6 3) (fld o 0 3))
  | 34 => some (.vmnotVa st gd (fld o 12 3) (fld o 6 3))
  | 35 => some (.vmsVa st gd (fld o 6 3))
  | 36 => some (.vselVa st gd (fld o 12 6) (fld o 6 6) (fld o 0 6))
  | 37 => some (.vpermVa st gd (fld o 12 6) (fld o 6 6) (fld o 0 6))
  | 38 => some (.vrotVa st gd (fld o 12 6) (fld o 6 6) (fld o 0 6))
  | 39 => some (.vcvtF32I32Va st gd (fld o 12 6) (fld o 6 6))
  | 40 => some (.vcvtI32F32Va st gd (fld o 12 6) (fld o 6 6))
  | 41 => some (.vcvtI32F32zVa st gd (fld o 12 6) (fld o 6 6))
  | 42 => some (.vpackBfVa st gd (fld o 12 6) (fld o 6 6) (fld o 0 6))
  | 43 => some (.vunpkBfVa st gd (fld o 12 6) (fld o 6 6) (fld o 0 1))
  | 44 => some (.vpackHfVa st gd (fld o 12 6) (fld o 6 6) (fld o 0 6))
  | 45 => some (.vunpkHfVa st gd (fld o 12 6) (fld o 6 6) (fld o 0 1))
  | 46 => some (.vpack8E4Va st gd (fld o 12 6) (fld o 6 6) (fld o 0 6))
  | 47 => some (.vpack8E5Va st gd (fld o 12 6) (fld o 6 6) (fld o 0 6))
  | 48 => some (.vmrg8Va st gd (fld o 12 6) (fld o 6 6) (fld o 0 6))
  | 49 => some (.vunpk8E4Va st gd (fld o 12 6) (fld o 6 6) (fld o 0 6))
  | 50 => some (.vunpk8E5Va st gd (fld o 12 6) (fld o 6 6) (fld o 0 6))
  | 51 => some (.vdot4I8Va st gd (fld o 12 6) (fld o 6 6) (fld o 0 6))
  | _ => none

/-- Class 4 (R64). -/
noncomputable def decodeVb (st : BitVec 1) (op : Nat) (gd : BitVec 3) (o : BitVec 18) : Option Instr :=
  match op with
  | 0 => some (.vaddF32Vb st gd (fld o 12 6) (fld o 6 6) (fld o 0 6))
  | 1 => some (.vsubF32Vb st gd (fld o 12 6) (fld o 6 6) (fld o 0 6))
  | 2 => some (.vmulF32Vb st gd (fld o 12 6) (fld o 6 6) (fld o 0 6))
  | 3 => some (.vfmaF32Vb st gd (fld o 12 6) (fld o 6 6) (fld o 0 6))
  | 4 => some (.vfmsF32Vb st gd (fld o 12 6) (fld o 6 6) (fld o 0 6))
  | 5 => some (.vminF32Vb st gd (fld o 12 6) (fld o 6 6) (fld o 0 6))
  | 6 => some (.vmaxF32Vb st gd (fld o 12 6) (fld o 6 6) (fld o 0 6))
  | 7 => some (.vabsF32Vb st gd (fld o 12 6) (fld o 6 6))
  | 8 => some (.vnegF32Vb st gd (fld o 12 6) (fld o 6 6))
  | 9 => some (.vaddBfVb st gd (fld o 12 6) (fld o 6 6) (fld o 0 6))
  | 10 => some (.vmulBfVb st gd (fld o 12 6) (fld o 6 6) (fld o 0 6))
  | 11 => some (.vfmaBfVb st gd (fld o 12 6) (fld o 6 6) (fld o 0 6))
  | 12 => some (.vaddHfVb st gd (fld o 12 6) (fld o 6 6) (fld o 0 6))
  | 13 => some (.vmulHfVb st gd (fld o 12 6) (fld o 6 6) (fld o 0 6))
  | 14 => some (.vfmaHfVb st gd (fld o 12 6) (fld o 6 6) (fld o 0 6))
  | 15 => some (.vaddI32Vb st gd (fld o 12 6) (fld o 6 6) (fld o 0 6))
  | 16 => some (.vsubI32Vb st gd (fld o 12 6) (fld o 6 6) (fld o 0 6))
  | 17 => some (.vmulI32Vb st gd (fld o 12 6) (fld o 6 6) (fld o 0 6))
  | 18 => some (.vminI32Vb st gd (fld o 12 6) (fld o 6 6) (fld o 0 6))
  | 19 => some (.vmaxI32Vb st gd (fld o 12 6) (fld o 6 6) (fld o 0 6))
  | 20 => some (.vandVb st gd (fld o 12 6) (fld o 6 6) (fld o 0 6))
  | 21 => some (.vorVb st gd (fld o 12 6) (fld o 6 6) (fld o 0 6))
  | 22 => some (.vxorVb st gd (fld o 12 6) (fld o 6 6) (fld o 0 6))
  | 23 => some (.vshlVb st gd (fld o 12 6) (fld o 6 6) (fld o 0 6))
  | 24 => some (.vshrVb st gd (fld o 12 6) (fld o 6 6) (fld o 0 6))
  | 25 => some (.vsarVb st gd (fld o 12 6) (fld o 6 6) (fld o 0 6))
  | 26 => some (.vcmpEqF32Vb st gd (fld o 12 3) (fld o 6 6) (fld o 0 6))
  | 27 => some (.vcmpLtF32Vb st gd (fld o 12 3) (fld o 6 6) (fld o 0 6))
  | 28 => some (.vcmpLeF32Vb st gd (fld o 12 3) (fld o 6 6) (fld o 0 6))
  | 29 => some (.vcmpEqI32Vb st gd (fld o 12 3) (fld o 6 6) (fld o 0 6))
  | 30 => some (.vcmpLtI32Vb st gd (fld o 12 3) (fld o 6 6) (fld o 0 6))
  | 31 => some (.vcmpLeI32Vb st gd (fld o 12 3) (fld o 6 6) (fld o 0 6))
  | 32 => some (.vmandVb st gd (fld o 12 3) (fld o 6 3) (fld o 0 3))
  | 33 => some (.vmorVb st gd (fld o 12 3) (fld o 6 3) (fld o 0 3))
  | 34 => some (.vmnotVb st gd (fld o 12 3) (fld o 6 3))
  | 35 => some (.vmsVb st gd (fld o 6 3))
  | 36 => some (.vselVb st gd (fld o 12 6) (fld o 6 6) (fld o 0 6))
  | 37 => some (.vpermVb st gd (fld o 12 6) (fld o 6 6) (fld o 0 6))
  | 38 => some (.vrotVb st gd (fld o 12 6) (fld o 6 6) (fld o 0 6))
  | 39 => some (.vcvtF32I32Vb st gd (fld o 12 6) (fld o 6 6))
  | 40 => some (.vcvtI32F32Vb st gd (fld o 12 6) (fld o 6 6))
  | 41 => some (.vcvtI32F32zVb st gd (fld o 12 6) (fld o 6 6))
  | 42 => some (.vpackBfVb st gd (fld o 12 6) (fld o 6 6) (fld o 0 6))
  | 43 => some (.vunpkBfVb st gd (fld o 12 6) (fld o 6 6) (fld o 0 1))
  | 44 => some (.vpackHfVb st gd (fld o 12 6) (fld o 6 6) (fld o 0 6))
  | 45 => some (.vunpkHfVb st gd (fld o 12 6) (fld o 6 6) (fld o 0 1))
  | 46 => some (.vpack8E4Vb st gd (fld o 12 6) (fld o 6 6) (fld o 0 6))
  | 47 => some (.vpack8E5Vb st gd (fld o 12 6) (fld o 6 6) (fld o 0 6))
  | 48 => some (.vmrg8Vb st gd (fld o 12 6) (fld o 6 6) (fld o 0 6))
  | 49 => some (.vunpk8E4Vb st gd (fld o 12 6) (fld o 6 6) (fld o 0 6))
  | 50 => some (.vunpk8E5Vb st gd (fld o 12 6) (fld o 6 6) (fld o 0 6))
  | 51 => some (.vdot4I8Vb st gd (fld o 12 6) (fld o 6 6) (fld o 0 6))
  | _ => none

/-- Class 5 (R65). -/
noncomputable def decodeVf (st : BitVec 1) (op : Nat) (gd : BitVec 3) (o : BitVec 18) : Option Instr :=
  match op with
  | 0 => some (.vexp2 st gd (fld o 12 6) (fld o 6 6))
  | 1 => some (.vlog2 st gd (fld o 12 6) (fld o 6 6))
  | 2 => some (.vrcp st gd (fld o 12 6) (fld o 6 6))
  | 3 => some (.vrsq st gd (fld o 12 6) (fld o 6 6))
  | 4 => some (.vsqrt st gd (fld o 12 6) (fld o 6 6))
  | 5 => some (.vdiv st gd (fld o 12 6) (fld o 6 6) (fld o 0 6))
  | 6 => some (.vtanh st gd (fld o 12 6) (fld o 6 6))
  | 8 => some (.vrsumF32 st gd (fld o 12 6) (fld o 6 6))
  | 9 => some (.vrmaxF32 st gd (fld o 12 6) (fld o 6 6))
  | 10 => some (.vrminF32 st gd (fld o 12 6) (fld o 6 6))
  | 11 => some (.vrsumI32 st gd (fld o 12 6) (fld o 6 6))
  | 16 => some (.amaxu st gd (fld o 12 6) (fld o 6 6) (fld o 0 6))
  | 17 => some (.aexps st gd (fld o 12 6) (fld o 6 6) (fld o 0 6))
  | 18 => some (.aresc st gd (fld o 12 6) (fld o 6 6) (fld o 0 6))
  | 19 => some (.anorm st gd (fld o 12 6) (fld o 6 6) (fld o 0 6))
  | 20 => some (.amrg st gd (fld o 12 6) (fld o 6 6) (fld o 0 6))
  | 24 => some (.vchk st gd (fld o 6 6) (fld o 0 6))
  | _ => none

/-- Class 6 (R66). -/
noncomputable def decodeXv (st : BitVec 1) (op : Nat) (gd : BitVec 3) (o : BitVec 18) : Option Instr :=
  match op with
  | 0 => some (.xbc st gd (fld o 12 6) (fld o 6 6))
  | 1 => some (.xins st gd (fld o 12 6) (fld o 6 6) (fld o 0 6))
  | 2 => some (.xmk st gd (fld o 12 3) (fld o 6 6))
  | _ => none

/-- Class 7 (R66). -/
noncomputable def decodeXs (st : BitVec 1) (op : Nat) (gd : BitVec 3) (o : BitVec 18) : Option Instr :=
  match op with
  | 0 => some (.xext st gd (fld o 12 6) (fld o 6 6) (fld o 0 6))
  | 1 => some (.xms st gd (fld o 12 6) (fld o 6 3))
  | 2 => some (.xfst st gd (fld o 12 6) (fld o 6 3))
  | _ => none

/-- Class 8 (R67). -/
noncomputable def decodeG (st : BitVec 1) (op : Nat) (gd : BitVec 3) (o : BitVec 18) : Option Instr :=
  match op with
  | 0 => some (.ldb st gd (fld o 12 6) (fld o 6 6) (fld o 0 6))
  | 1 => some (.ldbz st gd (fld o 12 6) (fld o 6 6) (fld o 0 6))
  | 2 => some (.ldh st gd (fld o 12 6) (fld o 6 6) (fld o 0 6))
  | 3 => some (.ldhz st gd (fld o 12 6) (fld o 6 6) (fld o 0 6))
  | 4 => some (.ldw st gd (fld o 12 6) (fld o 6 6) (fld o 0 6))
  | 5 => some (.ldwz st gd (fld o 12 6) (fld o 6 6) (fld o 0 6))
  | 6 => some (.ldd st gd (fld o 12 6) (fld o 6 6) (fld o 0 6))
  | 8 => some (.ldv st gd (fld o 12 6) (fld o 6 6) (fld o 0 6))
  | 9 => some (.ldvS st gd (fld o 12 6) (fld o 6 6) (fld o 0 6))
  | 10 => some (.ldvg st gd (fld o 12 6) (fld o 6 6) (fld o 0 6))
  | 16 => some (.stb st gd (fld o 12 6) (fld o 6 6) (fld o 0 6))
  | 17 => some (.sth st gd (fld o 12 6) (fld o 6 6) (fld o 0 6))
  | 18 => some (.stw st gd (fld o 12 6) (fld o 6 6) (fld o 0 6))
  | 19 => some (.std st gd (fld o 12 6) (fld o 6 6) (fld o 0 6))
  | 20 => some (.stv st gd (fld o 12 6) (fld o 6 6) (fld o 0 6))
  | 21 => some (.stvS st gd (fld o 12 6) (fld o 6 6) (fld o 0 6))
  | 22 => some (.stvm st gd (fld o 12 6) (fld o 6 6) (fld o 0 6))
  | 23 => some (.stvs st gd (fld o 12 6) (fld o 6 6) (fld o 0 6))
  | 24 => some (.aaddW st gd (fld o 12 6) (fld o 6 6) (fld o 0 6))
  | 25 => some (.aaddD st gd (fld o 12 6) (fld o 6 6) (fld o 0 6))
  | 26 => some (.aminW st gd (fld o 12 6) (fld o 6 6) (fld o 0 6))
  | 27 => some (.amaxW st gd (fld o 12 6) (fld o 6 6) (fld o 0 6))
  | 28 => some (.axchgD st gd (fld o 12 6) (fld o 6 6) (fld o 0 6))
  | 29 => some (.acasD st gd (fld o 12 6) (fld o 6 6) (fld o 0 6))
  | 32 => some (.vjoin st gd (fld o 12 6))
  | 40 => some (.sbind st gd (fld o 12 6) (fld o 6 6))
  | 41 => some (.sfree st gd (fld o 12 6))
  | 42 => some (.slen st gd (fld o 12 6) (fld o 0 6))
  | 43 => some (.sfmt st gd (fld o 12 6) (fld o 0 6))
  | 44 => some (.sshd st gd (fld o 12 6))
  | 45 => some (.spub st gd (fld o 12 6))
  | 46 => some (.spubp st gd (fld o 12 6))
  | 47 => some (.sdisc st gd (fld o 12 6))
  | _ => none

/-- Class 9 (R68). -/
noncomputable def decodeK (st : BitVec 1) (op : Nat) (gd : BitVec 3) (o : BitVec 18) : Option Instr :=
  match op with
  | 0 => some (.kset st gd (fld o 12 6) (fld o 6 6))
  | 1 => some (.kclr st gd (fld o 12 6))
  | 2 => some (.kldk st gd (fld o 12 6) (fld o 6 6))
  | 3 => some (.kldv st gd (fld o 12 6) (fld o 6 6))
  | 4 => some (.kapp st gd (fld o 12 6) (fld o 6 6) (fld o 0 6))
  | 5 => some (.klen st gd (fld o 12 6) (fld o 6 6))
  | 6 => some (.kmark st gd (fld o 12 6))
  | 7 => some (.ktrunc st gd (fld o 12 6) (fld o 6 6))
  | 8 => some (.kivl st gd (fld o 12 6) (fld o 6 6))
  | 9 => some (.kcls st gd (fld o 12 6) (fld o 6 6) (fld o 0 3))
  | 10 => some (.kpf st gd (fld o 12 6) (fld o 6 6))
  | _ => none

/-- Class 10 (R69). -/
noncomputable def decodeE (st : BitVec 1) (op : Nat) (gd : BitVec 3) (o : BitVec 18) : Option Instr :=
  match op with
  | 0 => some (.cpyin st gd (fld o 12 6) (fld o 6 6))
  | 1 => some (.cpyinSh st gd (fld o 12 6) (fld o 6 6))
  | 2 => some (.cpyout st gd (fld o 12 6) (fld o 6 6))
  | 3 => some (.cpysg st gd (fld o 12 6) (fld o 6 6))
  | 4 => some (.cpymc st gd (fld o 12 6) (fld o 6 6))
  | 5 => some (.puts st gd (fld o 12 6) (fld o 6 6))
  | 6 => some (.putr st gd (fld o 12 6) (fld o 6 6))
  | 7 => some (.gets st gd (fld o 12 6) (fld o 6 6))
  | 8 => some (.atadd st gd (fld o 12 6) (fld o 6 6))
  | 9 => some (.atcas st gd (fld o 12 6) (fld o 6 6))
  | 10 => some (.atxch st gd (fld o 12 6) (fld o 6 6))
  | 11 => some (.spawn st gd (fld o 6 6))
  | _ => none

/-- Class 11 (R70). -/
noncomputable def decodeY (st : BitVec 1) (op : Nat) (gd : BitVec 3) (o : BitVec 18) : Option Instr :=
  match op with
  | 0 => some (.waitf st gd (fld o 12 6) (fld o 0 12))
  | 1 => some (.postf st gd (fld o 12 6) (fld o 0 12))
  | 2 => some (.postr st gd (fld o 6 6))
  | 3 => some (.finit st gd (fld o 12 6) (fld o 0 12))
  | 4 => some (.waitc st gd (fld o 12 4) (fld o 8 4) (fld o 4 4) (fld o 0 4))
  | 5 => some (.frd st gd (fld o 12 6) (fld o 0 6))
  | _ => none

/-- Class 12 (R71). -/
noncomputable def decodeM (st : BitVec 1) (op : Nat) (gd : BitVec 3) (o : BitVec 18) : Option Instr :=
  match op with
  | 0 => some (.mwl st gd (fld o 12 6) (fld o 6 6) (fld o 0 6))
  | 1 => some (.mwsw st gd)
  | 2 => some (.mga st gd (fld o 12 6) (fld o 6 6) (fld o 0 6))
  | 3 => if fld o 12 6 = 1 then some (.macLatch st gd (fld o 6 6)) else some (.mac st gd (fld o 6 6) (fld o 0 6))
  | 4 => if fld o 12 6 = 1 then some (.macZLatch st gd (fld o 6 6)) else some (.macZ st gd (fld o 6 6) (fld o 0 6))
  | 5 => some (.mdr st gd (fld o 12 6) (fld o 6 6) (fld o 3 1) (fld o 0 3))
  | 6 => some (.mrot st gd (fld o 6 6))
  | 7 => some (.mldh st gd (fld o 0 12))
  | 8 => some (.mset st gd (fld o 12 6) (fld o 0 5))
  | 9 => some (.abal st gd (fld o 12 6) (fld o 0 12))
  | 10 => some (.abfr st gd (fld o 12 6) (fld o 0 12))
  | 16 => some (.mmul st gd)
  | 17 => some (.mmulR st gd)
  | 18 => some (.mlu st gd)
  | 19 => some (.mluR st gd)
  | 20 => some (.mchol st gd)
  | 21 => some (.mcholR st gd)
  | 22 => some (.mqr st gd)
  | 23 => some (.mqrR st gd)
  | 24 => some (.mtrs st gd)
  | 25 => some (.mperm st gd)
  | _ => none

/-- The instruction of a class from 0 to 12, if the opcode is assigned (R59). -/
noncomputable def decodeOp (cl : Nat) (st : BitVec 1) (op : Nat) (gd : BitVec 3) (o : BitVec 18) : Option Instr :=
  match cl with
  | 0 => decodeB st op gd o
  | 1 => decodeSa st op gd o
  | 2 => decodeSb st op gd o
  | 3 => decodeVa st op gd o
  | 4 => decodeVb st op gd o
  | 5 => decodeVf st op gd o
  | 6 => decodeXv st op gd o
  | 7 => decodeXs st op gd o
  | 8 => decodeG st op gd o
  | 9 => decodeK st op gd o
  | 10 => decodeE st op gd o
  | 11 => decodeY st op gd o
  | 12 => decodeM st op gd o
  | _ => none

/-! ### Faults of one slot (R50 step 2, R51) -/

/-- The reasons for ILLI, in the order of their WHY codes (R51). -/
inductive SlotWhy where
  | class13
  | opcode
  | code
  | keep
  | predMask
  | sysReg
  | unused
  | pad
  deriving DecidableEq, Repr

/-- The WHY code of R51. -/
def SlotWhy.num : SlotWhy → Nat
  | class13 => 1
  | opcode => 2
  | code => 3
  | keep => 4
  | predMask => 5
  | sysReg => 6
  | unused => 7
  | pad => 8

/-- Why a slot is refused, and the DATA of R51. -/
structure SlotFault where
  why : SlotWhy
  data : Nat
  deriving DecidableEq, Repr

/-- An immediate field of `w` bits with the literal bits that follow it: the value and its width (R42). -/
def immExt (w f : Nat) : List (BitVec 27) → Nat × Nat
  | [] => (f, w)
  | [a] => (f + a.toNat <<< w, w + 27)
  | a :: b :: _ => (f + a.toNat <<< w + b.toNat <<< (w + 27), w + 54)

/-- The extended value without sign, modulo 2^64 (R42). -/
def immU (w f : Nat) (lits : List (BitVec 27)) : Dword := BitVec.ofNat 64 (immExt w f lits).1

/-- The extended value with the sign of its top bit, modulo 2^64 (R42). -/
def immS (w f : Nat) (lits : List (BitVec 27)) : Dword :=
  let (v, n) := immExt w f lits
  if v.testBit (n - 1) then BitVec.ofInt 64 (Int.ofNat v - 2 ^ n) else BitVec.ofNat 64 v

/-- The extended value with the sign of its top bit, as R43 holds it against a range. -/
def immInt (w f : Nat) (lits : List (BitVec 27)) : Int :=
  let (v, n) := immExt w f lits
  if v.testBit (n - 1) then Int.ofNat v - 2 ^ n else Int.ofNat v

/-- The check of R43 on an immediate field: on the whole extended value, up to 66 bits of an I12 with two LITs. -/
def immFault (k : Imm) (w f : Nat) (lits : List (BitVec 27)) : Option SlotFault :=
  let v := (immExt w f lits).1
  let out : Option SlotFault := some ⟨.code, v % 4096⟩
  match k with
  | .any => none
  | .upTo n => if v ≤ n then none else out
  | .sys => if sysAssigned v then none else some ⟨.sysReg, v % 4096⟩
  | .low n => if v ≤ n then none else some ⟨.unused, 0⟩
  | .cgset => if v / 8 % 8 = 0 then out else if v < 64 then none else some ⟨.unused, 0⟩
  | .flagU => if v < 2 ^ 31 then none else out
  | .flagS => let x := immInt w f lits; if -2 ^ 31 ≤ x ∧ x < 2 ^ 31 then none else out
  | .order => if v = 16 ∨ v = 32 ∨ v = 64 then none else out
  | .banks => if 1 ≤ v ∧ v ≤ 128 then none else out
  | .mdr => if v % 8 = 7 then out else if v < 16 then none else some ⟨.unused, 0⟩

/-- Whether a 6-bit field has its keep bit (R37). -/
def keepBit (x : Nat) : Bool := x.testBit 5

/-- The checks of R37, R38 and R60 on one operand field `x` of `n` bits; `d` is the slot's D field. -/
def fieldFault (k : Fk) (x n d : Nat) (lits : List (BitVec 27)) : List SlotFault :=
  let c := x % 32
  match k with
  | .sS _ => if c = 29 ∨ c = 30 then [⟨.code, x⟩] else []
  | .sB => if c = 28 ∨ c = 29 ∨ c = 30 then [⟨.code, x⟩] else []
  | .sD => (if c = 28 ∨ c = 29 ∨ c = 30 then [⟨.code, x⟩] else []) ++ if keepBit x then [⟨.keep, x⟩] else []
  | .vS _ => if c = 30 then [⟨.code, x⟩] else []
  | .vD | .vX => (if 24 ≤ c ∧ c ≤ 30 then [⟨.code, x⟩] else []) ++ if keepBit x then [⟨.keep, x⟩] else []
  | .vF => if 24 ≤ c ∧ c ≤ 30 then [⟨.code, x⟩] else []
  | .pD => if x = 0 ∨ 96 ≤ x then [⟨.predMask, x⟩] else []
  | .pS => if 96 ≤ x then [⟨.predMask, x⟩] else []
  | .mD => (if x % 8 = 0 then [⟨.predMask, x⟩] else []) ++ if 8 ≤ x then [⟨.unused, 0⟩] else []
  | .mS => if 8 ≤ x then [⟨.unused, 0⟩] else []
  | .num lo hi => if x < lo ∨ hi < x then [⟨.code, x⟩] else []
  | .rq => if 3 < x then [⟨.code, x⟩] else []
  | .mac => (if 1 < c then [⟨.code, x⟩] else []) ++ if keepBit x then [⟨.keep, x⟩] else []
  | .macB => if d = 0 then (if c = 30 then [⟨.code, x⟩] else []) else if x ≠ 0 then [⟨.unused, 0⟩] else []
  | .z => if x ≠ 0 then [⟨.unused, 0⟩] else []
  | .imm i => (immFault i n x lits).toList

/-- The value of a field in a slot word. -/
def Fd.get (f : Fd) (w : Word) : Nat := (w.toNat >>> f.lo) % 2 ^ (f.hi + 1 - f.lo)

/-- The first fault with the lowest WHY code. -/
def worst : List SlotFault → Option SlotFault
  | [] => none
  | a :: r =>
    match worst r with
    | none => some a
    | some b => if b.why.num < a.why.num then some b else some a

/-- The class code CL of a slot word (R35). -/
def slotClass (w : Word) : Nat := (fld w 27 4).toNat
/-- The opcode OP of a slot word (R35). -/
def slotOp (w : Word) : Nat := (fld w 21 6).toNat
/-- The stop bit of a slot word (R35). -/
def slotStop (w : Word) : Bool := bit w 31

/-- The operand fields of a slot word; none for LIT, PAD and unassigned codes. -/
def slotFields (w : Word) : List Fd := (layout (slotClass w) (slotOp w)).getD []

/-- The failure that step 2 of R50 finds in a slot, given the literal bits of the LIT slots that follow it. -/
def slotFault (w : Word) (lits : List (BitVec 27)) : Option SlotFault :=
  match slotClass w with
  | 13 => some ⟨.class13, 0⟩
  | 14 => none
  | 15 => if fld w 0 27 = 0 then none else some ⟨.pad, 0⟩
  | cl =>
    match layout cl (slotOp w) with
    | none => some ⟨.opcode, 0⟩
    | some l => worst (l.flatMap fun f =>
        fieldFault f.kind (f.get w) (f.hi + 1 - f.lo) (fld w 12 6).toNat lits)

/-- The instruction of a slot word, or the reason why it has none. `lits` are the literal bits of the LIT slots
that follow it. -/
noncomputable def decodeSlot (w : Word) (lits : List (BitVec 27)) : Except SlotFault Instr :=
  match slotFault w lits with
  | some f => .error f
  | none =>
    match slotClass w with
    | 14 => .ok (.lit (fld w 31 1) (fld w 0 27))
    | 15 => .ok (.pad (fld w 31 1))
    | cl =>
      match decodeOp cl (fld w 31 1) (slotOp w) (fld w 18 3) (fld w 0 18) with
      | some i => .ok i
      | none => .error ⟨.opcode, 0⟩

/-! ### Bundles (R45 to R51) -/

/-- The reasons for ILLB, in the order of their WHY codes (R51). -/
inductive BundleWhy where
  | tooFew
  | tooMany
  | lit
  | repeated
  | popTwice
  | scalarPorts
  | vectorPorts
  | busy
  | entry
  deriving DecidableEq, Repr

/-- The WHY code of R51. -/
def BundleWhy.num : BundleWhy → Nat
  | tooFew => 1
  | tooMany => 2
  | lit => 3
  | repeated => 4
  | popTwice => 5
  | scalarPorts => 6
  | vectorPorts => 7
  | busy => 8
  | entry => 9

/-- Why a bundle is refused (R50): ILLI of a slot, or ILLB, with the slot named and the DATA of R51. -/
inductive BundleFault where
  | illi (slot : Nat) (f : SlotFault)
  | illb (slot : Nat) (why : BundleWhy) (data : Nat)
  deriving DecidableEq, Repr

/-- A read of a queue by a slot: its file, its register code, and whether it pops. -/
structure QRead where
  vec : Bool
  code : Nat
  pop : Bool
  deriving DecidableEq, Repr

/-- The queue reads of one operand field (R37, R46, R47). Reads of z and vz are none. -/
def fieldReads (k : Fk) (x d : Nat) : List QRead :=
  let c := x % 32
  if c = 31 then (if k = .rq then [⟨true, 24 + x % 4, true⟩] else [])
  else match k with
  | .sS _ => [⟨false, c, !keepBit x⟩]
  | .sB => [⟨false, c, true⟩]
  | .vS _ | .vF => [⟨true, c, !keepBit x⟩]
  | .vX => [⟨true, c, true⟩]
  | .rq => [⟨true, 24 + x, true⟩]
  | .macB => if d = 0 then [⟨true, c, !keepBit x⟩] else []
  | _ => []

/-- The queue reads of a slot, in the order of its fields. -/
def slotReads (w : Word) : List QRead :=
  (slotFields w).flatMap fun f => fieldReads f.kind (f.get w) (fld w 12 6).toNat

/-- The literal bits of the LIT slots, at most two, that stand at the head of the words (R42). -/
def leadLits : List Word → List (BitVec 27)
  | a :: b :: _ =>
    if slotClass a = 14 then fld a 0 27 :: (if slotClass b = 14 then [fld b 0 27] else []) else []
  | [a] => if slotClass a = 14 then [fld a 0 27] else []
  | [] => []

/-- The words of the bundle that starts the list: up to and including the first with S = 1, at most eight. -/
def frameWords : Nat → List Word → List Word
  | 0, _ => []
  | _, [] => []
  | n + 1, w :: r => if slotStop w then [w] else w :: frameWords n r

/-- Step 1 of R50. -/
def framingFault (b : List Word) : Option BundleFault :=
  match b.getLast? with
  | none => some (.illb 0 .tooFew 0)
  | some w =>
    if slotStop w then (if b.length < 4 then some (.illb (b.length - 1) .tooFew b.length) else none)
    else some (.illb 7 .tooMany 9)

/-- Step 2 of R50, from position `k` on. -/
def slotsFault : Nat → List Word → Option BundleFault
  | _, [] => none
  | k, w :: r =>
    match slotFault w (leadLits r) with
    | some f => some (.illi k f)
    | none => slotsFault (k + 1) r

/-- Whether a slot's form holds an immediate field, which LIT slots may extend (R42). -/
def takesLit (w : Word) : Bool :=
  (slotFields w).any fun f => match f.kind with | .imm _ => true | _ => false

/-- A misplaced LIT (R42): `n` more LIT slots may stand here. -/
def litFault : Nat → Nat → List Word → Option BundleFault
  | _, _, [] => none
  | k, n, w :: r =>
    if slotClass w = 14 then
      match n with
      | 0 => some (.illb k .lit 0)
      | m + 1 => litFault (k + 1) m r
    else litFault (k + 1) (if takesLit w then 2 else 0) r

/-- A class from 0 to 12 that appears twice (R45). -/
def classFault : Nat → List Nat → List Word → Option BundleFault
  | _, _, [] => none
  | k, seen, w :: r =>
    let c := slotClass w
    if c ≤ 12 then
      if seen.contains c then some (.illb k .repeated c) else classFault (k + 1) (c :: seen) r
    else classFault (k + 1) seen r

/-- The first queue of `qs` that has been popped already, counting the pops of the slot itself (R46). Where one slot
makes a second pop of two queues, R51 does not say which one DATA names: the queue of the highest field, which R50
states for its step 2 only (DEDUCED, log 36). -/
def popSeen : List (Bool × Nat) → List QRead → Option (Bool × Nat)
  | _, [] => none
  | seen, q :: r =>
    if q.pop then
      if seen.contains (q.vec, q.code) then some (q.vec, q.code) else popSeen ((q.vec, q.code) :: seen) r
    else popSeen seen r

/-- A queue popped twice (R46). -/
def popFault : Nat → List (Bool × Nat) → List Word → Option BundleFault
  | _, _, [] => none
  | k, seen, w :: r =>
    match popSeen seen (slotReads w) with
    | some (v, c) => some (.illb k .popTwice (c + if v then 32 else 0))
    | none => popFault (k + 1) (((slotReads w).filter (·.pop)).map (fun q => (q.vec, q.code)) ++ seen) r

/-- The reads of s0 to s27, or of v0 to v23, that a slot makes (R47). -/
def portReads (vec : Bool) (w : Word) : Nat :=
  ((slotReads w).filter fun q => q.vec == vec && decide (q.code < if vec then 24 else 28)).length

/-- A read beyond the ports of one file (R47). -/
def portFault (vec : Bool) (lim : Nat) (why : BundleWhy) : Nat → Nat → List Word → Option BundleFault
  | _, _, [] => none
  | k, n, w :: r =>
    let m := n + portReads vec w
    if lim < m then some (.illb k why m) else portFault vec lim why (k + 1) m r

/-- A division slot of SA or SB issued to a stage that is busy (R48). -/
def busyFault (busyA busyB : Bool) : Nat → List Word → Option BundleFault
  | _, [] => none
  | k, w :: r =>
    let c := slotClass w
    if decide (6 ≤ slotOp w) && decide (slotOp w ≤ 9) && ((c == 1 && busyA) || (c == 2 && busyB)) then
      some (.illb k .busy 0)
    else busyFault busyA busyB (k + 1) r

/-- The checks of R50 on the words at a bundle start, in their order. The eight words that follow the start are
given; the answer is the bundle's words. -/
def decodeBundle (busyA busyB : Bool) (ws : List Word) : Except BundleFault (List Word) :=
  let b := frameWords 8 ws
  let f := (framingFault b).or <| (slotsFault 0 b).or <| (litFault 0 0 b).or <| (classFault 0 [] b).or <|
    (popFault 0 [] b).or <| (portFault false 8 .scalarPorts 0 0 b).or <|
    (portFault true 6 .vectorPorts 0 0 b).or (busyFault busyA busyB 0 b)
  match f with
  | some e => .error e
  | none => .ok b

/-- The EINFO of ILLI and ILLB (R51); `w` is the slot word at the slot named. -/
def BundleFault.einfo (f : BundleFault) (w : Word) : Dword :=
  let (why, data) : Nat × Nat := match f with
    | .illi _ e => (e.why.num, e.data)
    | .illb _ y d => (y.num, d)
  BitVec.ofNat 64 (data % 4096 + why * 4096 + w.toNat * 65536)

/-- The slot that ECAUSE.SLOT names (R51). -/
def BundleFault.slot : BundleFault → Nat
  | .illi k _ => k
  | .illb k _ _ => k

/-! ### The encoder -/

/-- A slot word from its fields (R35). -/
def slotWord (st : BitVec 1) (cl op : Nat) (gd : BitVec 3) (o : BitVec 18) : Word :=
  st ++ BitVec.ofNat 4 cl ++ BitVec.ofNat 6 op ++ gd ++ o

/-- The word of an instruction, from the encoding tables of the spec (R35, R36, R60 to R71); none for a step
without an encoding. -/
def encode : Instr → Option Word
  | .br st gd i => some (slotWord st 0 0 gd (i))
  | .brNa st gd i => some (slotWord st 0 1 gd (i))
  | .brNt st gd i => some (slotWord st 0 2 gd (i))
  | .bri st gd a => some (slotWord st 0 3 gd ((0#6) ++ a ++ (0#6)))
  | .call st gd d i => some (slotWord st 0 4 gd (d ++ i))
  | .loop0 st gd a i => some (slotWord st 0 5 gd (a ++ i))
  | .loop1 st gd a i => some (slotWord st 0 6 gd (a ++ i))
  | .loopi0 st gd c i => some (slotWord st 0 7 gd (c ++ i))
  | .loopi1 st gd c i => some (slotWord st 0 8 gd (c ++ i))
  | .endTask st gd a => some (slotWord st 0 9 gd ((0#6) ++ a ++ (0#6)))
  | .trap st gd i => some (slotWord st 0 10 gd ((0#6) ++ i))
  | .reti st gd => some (slotWord st 0 11 gd ((0#18)))
  | .brk st gd i => some (slotWord st 0 12 gd ((0#6) ++ i))
  | .gmap st gd w p e => some (slotWord st 0 13 gd (w ++ p ++ e ++ (0#7)))
  | .srd st gd d i => some (slotWord st 0 14 gd (d ++ i))
  | .swr st gd a i => some (slotWord st 0 15 gd (a ++ i))
  | .cget st gd d k => some (slotWord st 0 16 gd (d ++ (0#9) ++ k))
  | .cset st gd a k => some (slotWord st 0 17 gd (a ++ (0#9) ++ k))
  | .acmp st gd a k => some (slotWord st 0 18 gd (a ++ (0#9) ++ k))
  | .cgset st gd a l k => some (slotWord st 0 19 gd (a ++ (0#6) ++ l ++ k))
  | .slane st gd d => some (slotWord st 0 20 gd (d ++ (0#12)))
  | .addSa st gd d a b => some (slotWord st 1 0 gd (d ++ a ++ b))
  | .addSb st gd d a b => some (slotWord st 2 0 gd (d ++ a ++ b))
  | .subSa st gd d a b => some (slotWord st 1 1 gd (d ++ a ++ b))
  | .subSb st gd d a b => some (slotWord st 2 1 gd (d ++ a ++ b))
  | .addiSa st gd d a i => some (slotWord st 1 2 gd (d ++ a ++ i))
  | .addiSb st gd d a i => some (slotWord st 2 2 gd (d ++ a ++ i))
  | .mulSa st gd d a b => some (slotWord st 1 3 gd (d ++ a ++ b))
  | .mulSb st gd d a b => some (slotWord st 2 3 gd (d ++ a ++ b))
  | .mulhSa st gd d a b => some (slotWord st 1 4 gd (d ++ a ++ b))
  | .mulhSb st gd d a b => some (slotWord st 2 4 gd (d ++ a ++ b))
  | .mulhuSa st gd d a b => some (slotWord st 1 5 gd (d ++ a ++ b))
  | .mulhuSb st gd d a b => some (slotWord st 2 5 gd (d ++ a ++ b))
  | .divSa st gd d a b => some (slotWord st 1 6 gd (d ++ a ++ b))
  | .divSb st gd d a b => some (slotWord st 2 6 gd (d ++ a ++ b))
  | .divuSa st gd d a b => some (slotWord st 1 7 gd (d ++ a ++ b))
  | .divuSb st gd d a b => some (slotWord st 2 7 gd (d ++ a ++ b))
  | .remSa st gd d a b => some (slotWord st 1 8 gd (d ++ a ++ b))
  | .remSb st gd d a b => some (slotWord st 2 8 gd (d ++ a ++ b))
  | .remuSa st gd d a b => some (slotWord st 1 9 gd (d ++ a ++ b))
  | .remuSb st gd d a b => some (slotWord st 2 9 gd (d ++ a ++ b))
  | .andSa st gd d a b => some (slotWord st 1 10 gd (d ++ a ++ b))
  | .andSb st gd d a b => some (slotWord st 2 10 gd (d ++ a ++ b))
  | .orSa st gd d a b => some (slotWord st 1 11 gd (d ++ a ++ b))
  | .orSb st gd d a b => some (slotWord st 2 11 gd (d ++ a ++ b))
  | .xorSa st gd d a b => some (slotWord st 1 12 gd (d ++ a ++ b))
  | .xorSb st gd d a b => some (slotWord st 2 12 gd (d ++ a ++ b))
  | .andnSa st gd d a b => some (slotWord st 1 13 gd (d ++ a ++ b))
  | .andnSb st gd d a b => some (slotWord st 2 13 gd (d ++ a ++ b))
  | .shlSa st gd d a b => some (slotWord st 1 14 gd (d ++ a ++ b))
  | .shlSb st gd d a b => some (slotWord st 2 14 gd (d ++ a ++ b))
  | .shrSa st gd d a b => some (slotWord st 1 15 gd (d ++ a ++ b))
  | .shrSb st gd d a b => some (slotWord st 2 15 gd (d ++ a ++ b))
  | .sarSa st gd d a b => some (slotWord st 1 16 gd (d ++ a ++ b))
  | .sarSb st gd d a b => some (slotWord st 2 16 gd (d ++ a ++ b))
  | .shliSa st gd d a i => some (slotWord st 1 17 gd (d ++ a ++ i))
  | .shliSb st gd d a i => some (slotWord st 2 17 gd (d ++ a ++ i))
  | .shriSa st gd d a i => some (slotWord st 1 18 gd (d ++ a ++ i))
  | .shriSb st gd d a i => some (slotWord st 2 18 gd (d ++ a ++ i))
  | .sariSa st gd d a i => some (slotWord st 1 19 gd (d ++ a ++ i))
  | .sariSb st gd d a i => some (slotWord st 2 19 gd (d ++ a ++ i))
  | .minSa st gd d a b => some (slotWord st 1 20 gd (d ++ a ++ b))
  | .minSb st gd d a b => some (slotWord st 2 20 gd (d ++ a ++ b))
  | .maxSa st gd d a b => some (slotWord st 1 21 gd (d ++ a ++ b))
  | .maxSb st gd d a b => some (slotWord st 2 21 gd (d ++ a ++ b))
  | .minuSa st gd d a b => some (slotWord st 1 22 gd (d ++ a ++ b))
  | .minuSb st gd d a b => some (slotWord st 2 22 gd (d ++ a ++ b))
  | .maxuSa st gd d a b => some (slotWord st 1 23 gd (d ++ a ++ b))
  | .maxuSb st gd d a b => some (slotWord st 2 23 gd (d ++ a ++ b))
  | .clzSa st gd d a => some (slotWord st 1 24 gd (d ++ a ++ (0#6)))
  | .clzSb st gd d a => some (slotWord st 2 24 gd (d ++ a ++ (0#6)))
  | .popcSa st gd d a => some (slotWord st 1 25 gd (d ++ a ++ (0#6)))
  | .popcSb st gd d a => some (slotWord st 2 25 gd (d ++ a ++ (0#6)))
  | .extSa st gd d a i => some (slotWord st 1 26 gd (d ++ a ++ i))
  | .extSb st gd d a i => some (slotWord st 2 26 gd (d ++ a ++ i))
  | .extzSa st gd d a i => some (slotWord st 1 27 gd (d ++ a ++ i))
  | .extzSb st gd d a i => some (slotWord st 2 27 gd (d ++ a ++ i))
  | .movSa st gd d a => some (slotWord st 1 28 gd (d ++ a ++ (0#6)))
  | .movSb st gd d a => some (slotWord st 2 28 gd (d ++ a ++ (0#6)))
  | .moviSa st gd d i => some (slotWord st 1 29 gd (d ++ i))
  | .moviSb st gd d i => some (slotWord st 2 29 gd (d ++ i))
  | .cmpEqSa st gd p a b => some (slotWord st 1 32 gd (p ++ a ++ b))
  | .cmpEqSb st gd p a b => some (slotWord st 2 32 gd (p ++ a ++ b))
  | .cmpNeSa st gd p a b => some (slotWord st 1 33 gd (p ++ a ++ b))
  | .cmpNeSb st gd p a b => some (slotWord st 2 33 gd (p ++ a ++ b))
  | .cmpLtSa st gd p a b => some (slotWord st 1 34 gd (p ++ a ++ b))
  | .cmpLtSb st gd p a b => some (slotWord st 2 34 gd (p ++ a ++ b))
  | .cmpLeSa st gd p a b => some (slotWord st 1 35 gd (p ++ a ++ b))
  | .cmpLeSb st gd p a b => some (slotWord st 2 35 gd (p ++ a ++ b))
  | .cmpLtuSa st gd p a b => some (slotWord st 1 36 gd (p ++ a ++ b))
  | .cmpLtuSb st gd p a b => some (slotWord st 2 36 gd (p ++ a ++ b))
  | .cmpLeuSa st gd p a b => some (slotWord st 1 37 gd (p ++ a ++ b))
  | .cmpLeuSb st gd p a b => some (slotWord st 2 37 gd (p ++ a ++ b))
  | .cmpiEqSa st gd p a i => some (slotWord st 1 38 gd (p ++ a ++ i))
  | .cmpiEqSb st gd p a i => some (slotWord st 2 38 gd (p ++ a ++ i))
  | .cmpiNeSa st gd p a i => some (slotWord st 1 39 gd (p ++ a ++ i))
  | .cmpiNeSb st gd p a i => some (slotWord st 2 39 gd (p ++ a ++ i))
  | .cmpiLtSa st gd p a i => some (slotWord st 1 40 gd (p ++ a ++ i))
  | .cmpiLtSb st gd p a i => some (slotWord st 2 40 gd (p ++ a ++ i))
  | .cmpiLeSa st gd p a i => some (slotWord st 1 41 gd (p ++ a ++ i))
  | .cmpiLeSb st gd p a i => some (slotWord st 2 41 gd (p ++ a ++ i))
  | .cmpiLtuSa st gd p a i => some (slotWord st 1 42 gd (p ++ a ++ i))
  | .cmpiLtuSb st gd p a i => some (slotWord st 2 42 gd (p ++ a ++ i))
  | .cmpiLeuSa st gd p a i => some (slotWord st 1 43 gd (p ++ a ++ i))
  | .cmpiLeuSb st gd p a i => some (slotWord st 2 43 gd (p ++ a ++ i))
  | .pandSa st gd p q => some (slotWord st 1 44 gd (p ++ q ++ (0#4)))
  | .pandSb st gd p q => some (slotWord st 2 44 gd (p ++ q ++ (0#4)))
  | .porSa st gd p q => some (slotWord st 1 45 gd (p ++ q ++ (0#4)))
  | .porSb st gd p q => some (slotWord st 2 45 gd (p ++ q ++ (0#4)))
  | .pxorSa st gd p q => some (slotWord st 1 46 gd (p ++ q ++ (0#4)))
  | .pxorSb st gd p q => some (slotWord st 2 46 gd (p ++ q ++ (0#4)))
  | .pandnSa st gd p q => some (slotWord st 1 47 gd (p ++ q ++ (0#4)))
  | .pandnSb st gd p q => some (slotWord st 2 47 gd (p ++ q ++ (0#4)))
  | .pnotSa st gd p q => some (slotWord st 1 48 gd (p ++ q ++ (0#4)))
  | .pnotSb st gd p q => some (slotWord st 2 48 gd (p ++ q ++ (0#4)))
  | .pmovSa st gd p q => some (slotWord st 1 49 gd (p ++ q ++ (0#4)))
  | .pmovSb st gd p q => some (slotWord st 2 49 gd (p ++ q ++ (0#4)))
  | .psetiSa st gd p b => some (slotWord st 1 50 gd (p ++ (0#10) ++ b))
  | .psetiSb st gd p b => some (slotWord st 2 50 gd (p ++ (0#10) ++ b))
  | .ptosSa st gd d q => some (slotWord st 1 51 gd (d ++ (0#5) ++ q))
  | .ptosSb st gd d q => some (slotWord st 2 51 gd (d ++ (0#5) ++ q))
  | .setpSa st gd p a => some (slotWord st 1 52 gd (p ++ a ++ (0#5)))
  | .setpSb st gd p a => some (slotWord st 2 52 gd (p ++ a ++ (0#5)))
  | .schkSa st gd a b => some (slotWord st 1 53 gd ((0#6) ++ a ++ b))
  | .schkSb st gd a b => some (slotWord st 2 53 gd ((0#6) ++ a ++ b))
  | .vaddF32Va st gd d a b => some (slotWord st 3 0 gd (d ++ a ++ b))
  | .vaddF32Vb st gd d a b => some (slotWord st 4 0 gd (d ++ a ++ b))
  | .vsubF32Va st gd d a b => some (slotWord st 3 1 gd (d ++ a ++ b))
  | .vsubF32Vb st gd d a b => some (slotWord st 4 1 gd (d ++ a ++ b))
  | .vmulF32Va st gd d a b => some (slotWord st 3 2 gd (d ++ a ++ b))
  | .vmulF32Vb st gd d a b => some (slotWord st 4 2 gd (d ++ a ++ b))
  | .vfmaF32Va st gd d a b => some (slotWord st 3 3 gd (d ++ a ++ b))
  | .vfmaF32Vb st gd d a b => some (slotWord st 4 3 gd (d ++ a ++ b))
  | .vfmsF32Va st gd d a b => some (slotWord st 3 4 gd (d ++ a ++ b))
  | .vfmsF32Vb st gd d a b => some (slotWord st 4 4 gd (d ++ a ++ b))
  | .vminF32Va st gd d a b => some (slotWord st 3 5 gd (d ++ a ++ b))
  | .vminF32Vb st gd d a b => some (slotWord st 4 5 gd (d ++ a ++ b))
  | .vmaxF32Va st gd d a b => some (slotWord st 3 6 gd (d ++ a ++ b))
  | .vmaxF32Vb st gd d a b => some (slotWord st 4 6 gd (d ++ a ++ b))
  | .vabsF32Va st gd d a => some (slotWord st 3 7 gd (d ++ a ++ (0#6)))
  | .vabsF32Vb st gd d a => some (slotWord st 4 7 gd (d ++ a ++ (0#6)))
  | .vnegF32Va st gd d a => some (slotWord st 3 8 gd (d ++ a ++ (0#6)))
  | .vnegF32Vb st gd d a => some (slotWord st 4 8 gd (d ++ a ++ (0#6)))
  | .vaddBfVa st gd d a b => some (slotWord st 3 9 gd (d ++ a ++ b))
  | .vaddBfVb st gd d a b => some (slotWord st 4 9 gd (d ++ a ++ b))
  | .vmulBfVa st gd d a b => some (slotWord st 3 10 gd (d ++ a ++ b))
  | .vmulBfVb st gd d a b => some (slotWord st 4 10 gd (d ++ a ++ b))
  | .vfmaBfVa st gd d a b => some (slotWord st 3 11 gd (d ++ a ++ b))
  | .vfmaBfVb st gd d a b => some (slotWord st 4 11 gd (d ++ a ++ b))
  | .vaddHfVa st gd d a b => some (slotWord st 3 12 gd (d ++ a ++ b))
  | .vaddHfVb st gd d a b => some (slotWord st 4 12 gd (d ++ a ++ b))
  | .vmulHfVa st gd d a b => some (slotWord st 3 13 gd (d ++ a ++ b))
  | .vmulHfVb st gd d a b => some (slotWord st 4 13 gd (d ++ a ++ b))
  | .vfmaHfVa st gd d a b => some (slotWord st 3 14 gd (d ++ a ++ b))
  | .vfmaHfVb st gd d a b => some (slotWord st 4 14 gd (d ++ a ++ b))
  | .vaddI32Va st gd d a b => some (slotWord st 3 15 gd (d ++ a ++ b))
  | .vaddI32Vb st gd d a b => some (slotWord st 4 15 gd (d ++ a ++ b))
  | .vsubI32Va st gd d a b => some (slotWord st 3 16 gd (d ++ a ++ b))
  | .vsubI32Vb st gd d a b => some (slotWord st 4 16 gd (d ++ a ++ b))
  | .vmulI32Va st gd d a b => some (slotWord st 3 17 gd (d ++ a ++ b))
  | .vmulI32Vb st gd d a b => some (slotWord st 4 17 gd (d ++ a ++ b))
  | .vminI32Va st gd d a b => some (slotWord st 3 18 gd (d ++ a ++ b))
  | .vminI32Vb st gd d a b => some (slotWord st 4 18 gd (d ++ a ++ b))
  | .vmaxI32Va st gd d a b => some (slotWord st 3 19 gd (d ++ a ++ b))
  | .vmaxI32Vb st gd d a b => some (slotWord st 4 19 gd (d ++ a ++ b))
  | .vandVa st gd d a b => some (slotWord st 3 20 gd (d ++ a ++ b))
  | .vandVb st gd d a b => some (slotWord st 4 20 gd (d ++ a ++ b))
  | .vorVa st gd d a b => some (slotWord st 3 21 gd (d ++ a ++ b))
  | .vorVb st gd d a b => some (slotWord st 4 21 gd (d ++ a ++ b))
  | .vxorVa st gd d a b => some (slotWord st 3 22 gd (d ++ a ++ b))
  | .vxorVb st gd d a b => some (slotWord st 4 22 gd (d ++ a ++ b))
  | .vshlVa st gd d a b => some (slotWord st 3 23 gd (d ++ a ++ b))
  | .vshlVb st gd d a b => some (slotWord st 4 23 gd (d ++ a ++ b))
  | .vshrVa st gd d a b => some (slotWord st 3 24 gd (d ++ a ++ b))
  | .vshrVb st gd d a b => some (slotWord st 4 24 gd (d ++ a ++ b))
  | .vsarVa st gd d a b => some (slotWord st 3 25 gd (d ++ a ++ b))
  | .vsarVb st gd d a b => some (slotWord st 4 25 gd (d ++ a ++ b))
  | .vcmpEqF32Va st gd d a b => some (slotWord st 3 26 gd ((0#3) ++ d ++ a ++ b))
  | .vcmpEqF32Vb st gd d a b => some (slotWord st 4 26 gd ((0#3) ++ d ++ a ++ b))
  | .vcmpLtF32Va st gd d a b => some (slotWord st 3 27 gd ((0#3) ++ d ++ a ++ b))
  | .vcmpLtF32Vb st gd d a b => some (slotWord st 4 27 gd ((0#3) ++ d ++ a ++ b))
  | .vcmpLeF32Va st gd d a b => some (slotWord st 3 28 gd ((0#3) ++ d ++ a ++ b))
  | .vcmpLeF32Vb st gd d a b => some (slotWord st 4 28 gd ((0#3) ++ d ++ a ++ b))
  | .vcmpEqI32Va st gd d a b => some (slotWord st 3 29 gd ((0#3) ++ d ++ a ++ b))
  | .vcmpEqI32Vb st gd d a b => some (slotWord st 4 29 gd ((0#3) ++ d ++ a ++ b))
  | .vcmpLtI32Va st gd d a b => some (slotWord st 3 30 gd ((0#3) ++ d ++ a ++ b))
  | .vcmpLtI32Vb st gd d a b => some (slotWord st 4 30 gd ((0#3) ++ d ++ a ++ b))
  | .vcmpLeI32Va st gd d a b => some (slotWord st 3 31 gd ((0#3) ++ d ++ a ++ b))
  | .vcmpLeI32Vb st gd d a b => some (slotWord st 4 31 gd ((0#3) ++ d ++ a ++ b))
  | .vmandVa st gd d a b => some (slotWord st 3 32 gd ((0#3) ++ d ++ (0#3) ++ a ++ (0#3) ++ b))
  | .vmandVb st gd d a b => some (slotWord st 4 32 gd ((0#3) ++ d ++ (0#3) ++ a ++ (0#3) ++ b))
  | .vmorVa st gd d a b => some (slotWord st 3 33 gd ((0#3) ++ d ++ (0#3) ++ a ++ (0#3) ++ b))
  | .vmorVb st gd d a b => some (slotWord st 4 33 gd ((0#3) ++ d ++ (0#3) ++ a ++ (0#3) ++ b))
  | .vmnotVa st gd d a => some (slotWord st 3 34 gd ((0#3) ++ d ++ (0#3) ++ a ++ (0#6)))
  | .vmnotVb st gd d a => some (slotWord st 4 34 gd ((0#3) ++ d ++ (0#3) ++ a ++ (0#6)))
  | .vmsVa st gd a => some (slotWord st 3 35 gd ((0#9) ++ a ++ (0#6)))
  | .vmsVb st gd a => some (slotWord st 4 35 gd ((0#9) ++ a ++ (0#6)))
  | .vselVa st gd d a b => some (slotWord st 3 36 gd (d ++ a ++ b))
  | .vselVb st gd d a b => some (slotWord st 4 36 gd (d ++ a ++ b))
  | .vpermVa st gd d a b => some (slotWord st 3 37 gd (d ++ a ++ b))
  | .vpermVb st gd d a b => some (slotWord st 4 37 gd (d ++ a ++ b))
  | .vrotVa st gd d a i => some (slotWord st 3 38 gd (d ++ a ++ i))
  | .vrotVb st gd d a i => some (slotWord st 4 38 gd (d ++ a ++ i))
  | .vcvtF32I32Va st gd d a => some (slotWord st 3 39 gd (d ++ a ++ (0#6)))
  | .vcvtF32I32Vb st gd d a => some (slotWord st 4 39 gd (d ++ a ++ (0#6)))
  | .vcvtI32F32Va st gd d a => some (slotWord st 3 40 gd (d ++ a ++ (0#6)))
  | .vcvtI32F32Vb st gd d a => some (slotWord st 4 40 gd (d ++ a ++ (0#6)))
  | .vcvtI32F32zVa st gd d a => some (slotWord st 3 41 gd (d ++ a ++ (0#6)))
  | .vcvtI32F32zVb st gd d a => some (slotWord st 4 41 gd (d ++ a ++ (0#6)))
  | .vpackBfVa st gd d a b => some (slotWord st 3 42 gd (d ++ a ++ b))
  | .vpackBfVb st gd d a b => some (slotWord st 4 42 gd (d ++ a ++ b))
  | .vunpkBfVa st gd d a h => some (slotWord st 3 43 gd (d ++ a ++ (0#5) ++ h))
  | .vunpkBfVb st gd d a h => some (slotWord st 4 43 gd (d ++ a ++ (0#5) ++ h))
  | .vpackHfVa st gd d a b => some (slotWord st 3 44 gd (d ++ a ++ b))
  | .vpackHfVb st gd d a b => some (slotWord st 4 44 gd (d ++ a ++ b))
  | .vunpkHfVa st gd d a h => some (slotWord st 3 45 gd (d ++ a ++ (0#5) ++ h))
  | .vunpkHfVb st gd d a h => some (slotWord st 4 45 gd (d ++ a ++ (0#5) ++ h))
  | .vpack8E4Va st gd d a b => some (slotWord st 3 46 gd (d ++ a ++ b))
  | .vpack8E4Vb st gd d a b => some (slotWord st 4 46 gd (d ++ a ++ b))
  | .vpack8E5Va st gd d a b => some (slotWord st 3 47 gd (d ++ a ++ b))
  | .vpack8E5Vb st gd d a b => some (slotWord st 4 47 gd (d ++ a ++ b))
  | .vmrg8Va st gd d a b => some (slotWord st 3 48 gd (d ++ a ++ b))
  | .vmrg8Vb st gd d a b => some (slotWord st 4 48 gd (d ++ a ++ b))
  | .vunpk8E4Va st gd d a i => some (slotWord st 3 49 gd (d ++ a ++ i))
  | .vunpk8E4Vb st gd d a i => some (slotWord st 4 49 gd (d ++ a ++ i))
  | .vunpk8E5Va st gd d a i => some (slotWord st 3 50 gd (d ++ a ++ i))
  | .vunpk8E5Vb st gd d a i => some (slotWord st 4 50 gd (d ++ a ++ i))
  | .vdot4I8Va st gd d a b => some (slotWord st 3 51 gd (d ++ a ++ b))
  | .vdot4I8Vb st gd d a b => some (slotWord st 4 51 gd (d ++ a ++ b))
  | .vexp2 st gd d a => some (slotWord st 5 0 gd (d ++ a ++ (0#6)))
  | .vlog2 st gd d a => some (slotWord st 5 1 gd (d ++ a ++ (0#6)))
  | .vrcp st gd d a => some (slotWord st 5 2 gd (d ++ a ++ (0#6)))
  | .vrsq st gd d a => some (slotWord st 5 3 gd (d ++ a ++ (0#6)))
  | .vsqrt st gd d a => some (slotWord st 5 4 gd (d ++ a ++ (0#6)))
  | .vdiv st gd d a b => some (slotWord st 5 5 gd (d ++ a ++ b))
  | .vtanh st gd d a => some (slotWord st 5 6 gd (d ++ a ++ (0#6)))
  | .vrsumF32 st gd d a => some (slotWord st 5 8 gd (d ++ a ++ (0#6)))
  | .vrmaxF32 st gd d a => some (slotWord st 5 9 gd (d ++ a ++ (0#6)))
  | .vrminF32 st gd d a => some (slotWord st 5 10 gd (d ++ a ++ (0#6)))
  | .vrsumI32 st gd d a => some (slotWord st 5 11 gd (d ++ a ++ (0#6)))
  | .amaxu st gd d a b => some (slotWord st 5 16 gd (d ++ a ++ b))
  | .aexps st gd d a b => some (slotWord st 5 17 gd (d ++ a ++ b))
  | .aresc st gd d a b => some (slotWord st 5 18 gd (d ++ a ++ b))
  | .anorm st gd d a b => some (slotWord st 5 19 gd (d ++ a ++ b))
  | .amrg st gd d a b => some (slotWord st 5 20 gd (d ++ a ++ b))
  | .vchk st gd a b => some (slotWord st 5 24 gd ((0#6) ++ a ++ b))
  | .xbc st gd d a => some (slotWord st 6 0 gd (d ++ a ++ (0#6)))
  | .xins st gd d a i => some (slotWord st 6 1 gd (d ++ a ++ i))
  | .xmk st gd d a => some (slotWord st 6 2 gd ((0#3) ++ d ++ a ++ (0#6)))
  | .xext st gd d a i => some (slotWord st 7 0 gd (d ++ a ++ i))
  | .xms st gd d a => some (slotWord st 7 1 gd (d ++ (0#3) ++ a ++ (0#6)))
  | .xfst st gd d a => some (slotWord st 7 2 gd (d ++ (0#3) ++ a ++ (0#6)))
  | .ldb st gd n o i => some (slotWord st 8 0 gd (n ++ o ++ i))
  | .ldbz st gd n o i => some (slotWord st 8 1 gd (n ++ o ++ i))
  | .ldh st gd n o i => some (slotWord st 8 2 gd (n ++ o ++ i))
  | .ldhz st gd n o i => some (slotWord st 8 3 gd (n ++ o ++ i))
  | .ldw st gd n o i => some (slotWord st 8 4 gd (n ++ o ++ i))
  | .ldwz st gd n o i => some (slotWord st 8 5 gd (n ++ o ++ i))
  | .ldd st gd n o i => some (slotWord st 8 6 gd (n ++ o ++ i))
  | .ldv st gd n o i => some (slotWord st 8 8 gd (n ++ o ++ i))
  | .ldvS st gd n o i => some (slotWord st 8 9 gd (n ++ o ++ i))
  | .ldvg st gd n o v => some (slotWord st 8 10 gd (n ++ o ++ v))
  | .stb st gd n o x => some (slotWord st 8 16 gd (n ++ o ++ x))
  | .sth st gd n o x => some (slotWord st 8 17 gd (n ++ o ++ x))
  | .stw st gd n o x => some (slotWord st 8 18 gd (n ++ o ++ x))
  | .std st gd n o x => some (slotWord st 8 19 gd (n ++ o ++ x))
  | .stv st gd n o x => some (slotWord st 8 20 gd (n ++ o ++ x))
  | .stvS st gd n o x => some (slotWord st 8 21 gd (n ++ o ++ x))
  | .stvm st gd n o x => some (slotWord st 8 22 gd (n ++ o ++ x))
  | .stvs st gd n o v => some (slotWord st 8 23 gd (n ++ o ++ v))
  | .aaddW st gd n o x => some (slotWord st 8 24 gd (n ++ o ++ x))
  | .aaddD st gd n o x => some (slotWord st 8 25 gd (n ++ o ++ x))
  | .aminW st gd n o x => some (slotWord st 8 26 gd (n ++ o ++ x))
  | .amaxW st gd n o x => some (slotWord st 8 27 gd (n ++ o ++ x))
  | .axchgD st gd n o x => some (slotWord st 8 28 gd (n ++ o ++ x))
  | .acasD st gd n o x => some (slotWord st 8 29 gd (n ++ o ++ x))
  | .vjoin st gd n => some (slotWord st 8 32 gd (n ++ (0#12)))
  | .sbind st gd n o => some (slotWord st 8 40 gd (n ++ o ++ (0#6)))
  | .sfree st gd n => some (slotWord st 8 41 gd (n ++ (0#12)))
  | .slen st gd n d => some (slotWord st 8 42 gd (n ++ (0#6) ++ d))
  | .sfmt st gd n d => some (slotWord st 8 43 gd (n ++ (0#6) ++ d))
  | .sshd st gd n => some (slotWord st 8 44 gd (n ++ (0#12)))
  | .spub st gd n => some (slotWord st 8 45 gd (n ++ (0#12)))
  | .spubp st gd n => some (slotWord st 8 46 gd (n ++ (0#12)))
  | .sdisc st gd n => some (slotWord st 8 47 gd (n ++ (0#12)))
  | .kset st gd h a => some (slotWord st 9 0 gd (h ++ a ++ (0#6)))
  | .kclr st gd h => some (slotWord st 9 1 gd (h ++ (0#12)))
  | .kldk st gd h a => some (slotWord st 9 2 gd (h ++ a ++ (0#6)))
  | .kldv st gd h a => some (slotWord st 9 3 gd (h ++ a ++ (0#6)))
  | .kapp st gd h a b => some (slotWord st 9 4 gd (h ++ a ++ b))
  | .klen st gd d h => some (slotWord st 9 5 gd (d ++ h ++ (0#6)))
  | .kmark st gd h => some (slotWord st 9 6 gd (h ++ (0#12)))
  | .ktrunc st gd h a => some (slotWord st 9 7 gd (h ++ a ++ (0#6)))
  | .kivl st gd i a => some (slotWord st 9 8 gd (i ++ a ++ (0#6)))
  | .kcls st gd d a m => some (slotWord st 9 9 gd (d ++ a ++ (0#3) ++ m))
  | .kpf st gd h a => some (slotWord st 9 10 gd (h ++ a ++ (0#6)))
  | .cpyin st gd n a => some (slotWord st 10 0 gd (n ++ a ++ (0#6)))
  | .cpyinSh st gd n a => some (slotWord st 10 1 gd (n ++ a ++ (0#6)))
  | .cpyout st gd n a => some (slotWord st 10 2 gd (n ++ a ++ (0#6)))
  | .cpysg st gd n a => some (slotWord st 10 3 gd (n ++ a ++ (0#6)))
  | .cpymc st gd n a => some (slotWord st 10 4 gd (n ++ a ++ (0#6)))
  | .puts st gd n a => some (slotWord st 10 5 gd (n ++ a ++ (0#6)))
  | .putr st gd q a => some (slotWord st 10 6 gd (q ++ a ++ (0#6)))
  | .gets st gd n a => some (slotWord st 10 7 gd (n ++ a ++ (0#6)))
  | .atadd st gd n a => some (slotWord st 10 8 gd (n ++ a ++ (0#6)))
  | .atcas st gd n a => some (slotWord st 10 9 gd (n ++ a ++ (0#6)))
  | .atxch st gd n a => some (slotWord st 10 10 gd (n ++ a ++ (0#6)))
  | .spawn st gd a => some (slotWord st 10 11 gd ((0#6) ++ a ++ (0#6)))
  | .waitf st gd f i => some (slotWord st 11 0 gd (f ++ i))
  | .postf st gd f i => some (slotWord st 11 1 gd (f ++ i))
  | .postr st gd a => some (slotWord st 11 2 gd ((0#6) ++ a ++ (0#6)))
  | .finit st gd f i => some (slotWord st 11 3 gd (f ++ i))
  | .waitc st gd l t c m => some (slotWord st 11 4 gd ((0#2) ++ l ++ t ++ c ++ m))
  | .frd st gd d f => some (slotWord st 11 5 gd (d ++ (0#6) ++ f))
  | .mwl st gd n o r => some (slotWord st 12 0 gd (n ++ o ++ r))
  | .mwsw st gd => some (slotWord st 12 1 gd ((0#18)))
  | .mga st gd n o v => some (slotWord st 12 2 gd (n ++ o ++ v))
  | .mac st gd a b => some (slotWord st 12 3 gd ((0#6) ++ a ++ b))
  | .macLatch st gd a => some (slotWord st 12 3 gd ((1#6) ++ a ++ (0#6)))
  | .macZ st gd a b => some (slotWord st 12 4 gd ((0#6) ++ a ++ b))
  | .macZLatch st gd a => some (slotWord st 12 4 gd ((1#6) ++ a ++ (0#6)))
  | .mdr st gd q a x f => some (slotWord st 12 5 gd (q ++ a ++ (0#2) ++ x ++ f))
  | .mrot st gd a => some (slotWord st 12 6 gd ((0#6) ++ a ++ (0#6)))
  | .mldh st gd i => some (slotWord st 12 7 gd ((0#6) ++ i))
  | .mset st gd a e => some (slotWord st 12 8 gd (a ++ (0#7) ++ e))
  | .abal st gd d i => some (slotWord st 12 9 gd (d ++ i))
  | .abfr st gd a i => some (slotWord st 12 10 gd (a ++ i))
  | .mmul st gd => some (slotWord st 12 16 gd ((0#18)))
  | .mmulR st gd => some (slotWord st 12 17 gd ((0#18)))
  | .mlu st gd => some (slotWord st 12 18 gd ((0#18)))
  | .mluR st gd => some (slotWord st 12 19 gd ((0#18)))
  | .mchol st gd => some (slotWord st 12 20 gd ((0#18)))
  | .mcholR st gd => some (slotWord st 12 21 gd ((0#18)))
  | .mqr st gd => some (slotWord st 12 22 gd ((0#18)))
  | .mqrR st gd => some (slotWord st 12 23 gd ((0#18)))
  | .mtrs st gd => some (slotWord st 12 24 gd ((0#18)))
  | .mperm st gd => some (slotWord st 12 25 gd ((0#18)))
  | .lit st l => some (st ++ (14#4) ++ l)
  | .pad st => some (st ++ (15#4) ++ (0#27))
  | .resultLanding _ _ => none
  | .waitRetest _ _ => none
  | .lateDatumArrival _ _ => none
  | .delayedCoreAccess _ _ => none
  | .bundleSelection => none
  | .intr _ _ => none
  | .operationFaultDelivery _ _ => none
  | .endComplete _ _ => none
  | .signalApply => none
  | .engineRead _ => none
  | .engineLand _ => none
  | .eComplete _ => none
  | .requestGrant _ => none
  | .seqComplete _ => none
  | .moveBegin _ => none
  | .moveApplied _ => none
  | .kvRowLand _ => none
  | .pageFetchApplied _ => none
  | .roundSize _ => none
  | .seal _ => none
  | .settle _ => none
  | .recordTake _ _ => none
  | .dispatchStep _ => none
  | .tokenAge _ => none
  | .checkpoint _ _ => none
  | .taskStart _ => none
  | .ttPlace _ => none
  | .suspend _ => none
  | .meflagsStop _ _ => none
  | .ilimWrite _ _ => none
  | .eqRemove _ => none
  | .eqSubmit _ => none
  | .rbClear _ _ => none
  | .rbdataWrite _ _ _ => none
  | .registerWrite _ _ _ => none
  | .ringEnable _ _ _ => none
  | .tailWrite _ _ _ => none
  | .tlbWalkDone _ _ => none
  | .lockAcquire _ => none
  | .tlbinv _ _ => none
  | .tlbinvComplete _ => none
  | .migrationStart _ _ => none
  | .migrationFreeze _ => none
  | .migrationSwitch _ => none
  | .hostMemoryAccess _ _ _ _ => none
  | .doorbell _ _ => none
  | .wdctlWrite _ _ => none
  | .wdkick _ => none
  | .watchdogFirstExpiry _ => none
  | .watchdogSecondExpiry _ => none
  | .partitionFreeze _ => none
  | .partitionResume _ => none
  | .partitionKill _ => none
  | .partitionReset _ => none
  | .flitSend _ _ => none
  | .flitReceive _ _ _ _ => none
  | .nak _ _ => none
  | .ack _ _ => none
  | .boot => none
  | .getVersion => none
  | .getCapabilities => none
  | .negotiateAlgorithms _ => none
  | .getDigests => none
  | .getCertificate _ => none
  | .challenge _ => none
  | .getMeasurements _ => none
  | .pldmMonitoring _ => none
  | .pldmFirmwareUpdate _ _ => none
  | .ptpMessage _ => none
  | .schedulerUpdate _ => none
  | .heartbeat => none
  | .heartbeatTimeout => none
  | .setPowerCap _ => none
  | .undervoltage => none
  | .powerRestore => none
  | .thermalThrottle _ => none
  | .thermalShutdown => none
  | .scrub => none
  | .rollback _ _ => none
  | .pseudoChannelDrop _ _ => none
  | .monitorTimerExpiry _ _ => none
  | .debugHaltRequest _ _ => none
  | .storeRetirement _ _ => none
  | .holdover => none
  | .ownerUnreachable _ => none
  | .linkTrained _ => none

/-- The word that the first four bytes hold (R5, R35). -/
def wordOfBytes (l : List Byte) : Word := BitVec.ofNat 32 (bytesNat (l.take 4))

/-- The instruction that stands in the bytes, if they hold a slot that decodes. No literal slot follows. -/
noncomputable def decodeBytes (l : List Byte) : Option Instr :=
  if l.length < 4 then none
  else match decodeSlot (wordOfBytes l) [] with
    | .ok i => some i
    | .error _ => none

/-- The instruction read from the `nbits` low bits of `w`, laid out as the table numbers them. -/
noncomputable def decodeTableWord (nbits w : Nat) : Option Instr :=
  if nbits = 0 then none else decodeBytes (natBytes 4 (w % 2 ^ nbits))

end Sys2Proof
end

