-- ==== Sys2Proof/Machine/Fp.lean ====
section
/-! DEFINITION. Number formats and arithmetic (05): exact values, the one rounding of R111, and the operations whose
result is the rounding of an exact value. -/

namespace Sys2Proof.Machine

/-! ### Sticky status (R26, R115) -/

namespace Fs
def none : Fpst := 0
def invalid : Fpst := 1
def divZero : Fpst := 2
def overflow : Fpst := 4
def underflow : Fpst := 8
def inexact : Fpst := 16
end Fs

/-! ### Formats and exact values -/

/-- A binary format: exponent and fraction bits, bias, and whether it is E4M3 (R109, R110). -/
structure Fmt where
  eb : Nat
  fb : Nat
  bias : Int
  e4 : Bool := false
  deriving DecidableEq, Repr

def Fmt.f32 : Fmt := ⟨8, 23, 127, false⟩
def Fmt.f16 : Fmt := ⟨5, 10, 15, false⟩
def Fmt.bf16 : Fmt := ⟨8, 7, 127, false⟩
def Fmt.e5m2 : Fmt := ⟨5, 2, 15, false⟩
def Fmt.e4m3 : Fmt := ⟨4, 3, 7, true⟩

/-- A value: a NaN, an infinity, or (-1)^s * m * 2^e exactly. -/
inductive Num where
  | nan
  | inf (s : Bool)
  | fin (s : Bool) (m : Nat) (e : Int)
  deriving DecidableEq, Repr

/-- The exponent of the smallest subnormal of a format. -/
def Fmt.emin (f : Fmt) : Int := 1 - f.bias - f.fb

/-- The sign bit of a word of the format. -/
def Fmt.sign (f : Fmt) (w : Nat) : Bool := w.testBit (f.eb + f.fb)

/-- The value of a word (R109, R110). -/
def Fmt.num (f : Fmt) (w : Nat) : Num :=
  let frac := w % 2 ^ f.fb
  let ex := w / 2 ^ f.fb % 2 ^ f.eb
  let s := f.sign w
  if f.e4 then
    if ex = 15 ∧ frac = 7 then .nan
    else if ex = 0 then .fin s frac f.emin else .fin s (frac + 2 ^ f.fb) (f.emin + ex - 1)
  else if ex = 2 ^ f.eb - 1 then (if frac = 0 then .inf s else .nan)
  else if ex = 0 then .fin s frac f.emin
  else .fin s (frac + 2 ^ f.fb) (f.emin + ex - 1)

/-- The canonical NaN of a format (R109). -/
def Fmt.nan (f : Fmt) : Nat :=
  if f.e4 then 0x7F else (2 ^ f.eb - 1) * 2 ^ f.fb + 2 ^ (f.fb - 1)

/-- A magnitude with its sign bit. -/
def Fmt.signed (f : Fmt) (s : Bool) (mag : Nat) : Nat := if s then mag + 2 ^ (f.eb + f.fb) else mag

/-- The infinity of a format; E4M3 has none and saturates (R111). -/
def Fmt.infinity (f : Fmt) (s : Bool) : Nat :=
  f.signed s (if f.e4 then 0x7E else (2 ^ f.eb - 1) * 2 ^ f.fb)

/-- `m / 2^k` to the nearest integer, ties to even, and whether it is exact. -/
def shiftRne (m k : Nat) : Nat × Bool :=
  let q := m / 2 ^ k
  let r := m % 2 ^ k
  let up := decide (2 ^ k < 2 * r) || (decide (2 * r = 2 ^ k) && q % 2 == 1)
  (if up then q + 1 else q, r == 0)

/-- Whether `m * 2^e` exceeds `7 * 2^6`, the largest value of E4M3. -/
def above448 (m : Nat) (e : Int) : Bool :=
  if 6 ≤ e then decide (7 < m * 2 ^ (e - 6).toNat) else decide (7 * 2 ^ (6 - e).toNat < m)

/-- The rounding of R111 of the exact value (-1)^s * m * 2^e, with the status of R115. -/
def Fmt.roundFin (f : Fmt) (s : Bool) (m : Nat) (e : Int) : Nat × Fpst :=
  if m = 0 then (f.signed s 0, Fs.none)
  else
    let top : Int := (Nat.log2 m : Int) + e
    let u : Int := max (top - f.fb) f.emin
    let (n0, exact) := if u ≤ e then (m * 2 ^ (e - u).toNat, true) else shiftRne m (u - e).toNat
    let tiny := decide (top < 1 - f.bias)
    let carry := decide (2 ^ (f.fb + 1) ≤ n0)
    let n := if carry then n0 / 2 else n0
    let v := if carry then u + 1 else u
    let ex : Nat := if n < 2 ^ f.fb then 0 else (v - f.emin + 1).toNat
    let mag := ex * 2 ^ f.fb + n % 2 ^ f.fb
    let big := if f.e4 then above448 m e || decide (0x7E < mag) else decide (2 ^ f.eb - 1 ≤ ex)
    if big then (f.infinity s, Fs.overflow ||| Fs.inexact)
    else (f.signed s mag, if exact then Fs.none else Fs.inexact ||| (if tiny then Fs.underflow else Fs.none))

/-- The rounding of a value (R111, R113). -/
def Fmt.round (f : Fmt) : Num → Nat × Fpst
  | .nan => (f.nan, Fs.none)
  | .inf s => (f.infinity s, if f.e4 then Fs.overflow ||| Fs.inexact else Fs.none)
  | .fin s m e => f.roundFin s m e

/-! ### Exact operations -/

/-- A signed integer at exponent `k` of a finite value whose exponent is at least `k`. -/
def fixAt (s : Bool) (m : Nat) (e k : Int) : Int :=
  let x : Int := (m * 2 ^ (e - k).toNat : Nat)
  if s then -x else x

/-- The finite value `x * 2^k`; a zero is +0. -/
def ofFix (x : Int) (k : Int) : Num := .fin (decide (x < 0)) x.natAbs k

/-- The exact sum (R113, R114), with invalid for ∞ - ∞. -/
def Num.add : Num → Num → Num × Fpst
  | .nan, _ => (.nan, Fs.none)
  | _, .nan => (.nan, Fs.none)
  | .inf s, .inf t => if s = t then (.inf s, Fs.none) else (.nan, Fs.invalid)
  | .inf s, .fin _ _ _ => (.inf s, Fs.none)
  | .fin _ _ _, .inf s => (.inf s, Fs.none)
  | .fin s m e, .fin t n d =>
    if m = 0 ∧ n = 0 then (.fin (s && t) 0 0, Fs.none)
    else let k := min e d; (ofFix (fixAt s m e k + fixAt t n d k) k, Fs.none)

def Num.neg : Num → Num
  | .nan => .nan
  | .inf s => .inf !s
  | .fin s m e => .fin (!s) m e

/-- The exact product, with invalid for 0 × ∞. -/
def Num.mul : Num → Num → Num × Fpst
  | .nan, _ => (.nan, Fs.none)
  | _, .nan => (.nan, Fs.none)
  | .inf s, .inf t => (.inf (s != t), Fs.none)
  | .inf s, .fin t n _ => if n = 0 then (.nan, Fs.invalid) else (.inf (s != t), Fs.none)
  | .fin s m _, .inf t => if m = 0 then (.nan, Fs.invalid) else (.inf (s != t), Fs.none)
  | .fin s m e, .fin t n d => (.fin (s != t) (m * n) (e + d), Fs.none)

/-- The exact a × b + c (R111, R113). -/
def Num.fma (a b c : Num) : Num × Fpst :=
  let (p, f) := a.mul b
  let (r, g) := p.add c
  (r, f ||| g)

/-- Multiplication by a power of two, exact. -/
def Num.scale (x : Num) (k : Int) : Num :=
  match x with
  | .fin s m e => .fin s m (e + k)
  | y => y

def Num.isNan : Num → Bool
  | .nan => true
  | _ => false

def Num.isInf : Num → Bool
  | .inf _ => true
  | _ => false

def Num.isZero : Num → Bool
  | .fin _ 0 _ => true
  | _ => false

/-- The sign of a value that is not a NaN. -/
def Num.neg? : Num → Bool
  | .nan => false
  | .inf s => s
  | .fin s _ _ => s

/-- Whether one finite value is below another in value (no order among NaNs; infinities in their places). -/
def Num.lt : Num → Num → Bool
  | .nan, _ => false
  | _, .nan => false
  | .inf s, .inf t => s && !t
  | .inf s, .fin _ _ _ => s
  | .fin _ _ _, .inf t => !t
  | .fin s m e, .fin t n d => let k := min e d; decide (fixAt s m e k < fixAt t n d k)

/-- Equality in value; no NaN equals anything. -/
def Num.eq (a b : Num) : Bool := !a.isNan && !b.isNan && !a.lt b && !b.lt a

/-- An integer as a value. -/
def Num.ofInt (x : Int) : Num := ofFix x 0

/-! ### Operations that round once (R111, R121) -/

/-- A sum in a format. -/
def Fmt.add (f : Fmt) (a b : Nat) : Nat × Fpst :=
  let (x, i) := (f.num a).add (f.num b)
  let (w, g) := f.round x
  (w, i ||| g)

/-- A difference in a format. -/
def Fmt.sub (f : Fmt) (a b : Nat) : Nat × Fpst :=
  let (x, i) := (f.num a).add (f.num b).neg
  let (w, g) := f.round x
  (w, i ||| g)

/-- A product in a format. -/
def Fmt.mul (f : Fmt) (a b : Nat) : Nat × Fpst :=
  let (x, i) := (f.num a).mul (f.num b)
  let (w, g) := f.round x
  (w, i ||| g)

/-- a × b + c in a format, rounded once. -/
def Fmt.fma (f : Fmt) (a b c : Nat) : Nat × Fpst :=
  let (x, i) := (f.num a).fma (f.num b) (f.num c)
  let (w, g) := f.round x
  (w, i ||| g)

/-- c - a × b in a format, rounded once. -/
def Fmt.fnma (f : Fmt) (a b c : Nat) : Nat × Fpst :=
  let (x, i) := (f.num a).neg.fma (f.num b) (f.num c)
  let (w, g) := f.round x
  (w, i ||| g)

/-- The quotient of finite values as a value that rounds like it: the quotient cut off 64 bits below its top, with one
more bit that says whether anything was cut off. -/
def quotient (s : Bool) (m : Nat) (e : Int) (n : Nat) (d : Int) : Num :=
  let k := 64 + Nat.log2 n
  let q := m * 2 ^ k / n
  let r := m * 2 ^ k % n
  .fin s (2 * q + if r = 0 then 0 else 1) (e - d - k - 1)

/-- The exact quotient (R114, R115), as a value that rounds like it. -/
def Num.div : Num → Num → Num × Fpst
  | .nan, _ => (.nan, Fs.none)
  | _, .nan => (.nan, Fs.none)
  | .inf _, .inf _ => (.nan, Fs.invalid)
  | .inf s, .fin t _ _ => (.inf (s != t), Fs.none)
  | .fin s _ _, .inf t => (.fin (s != t) 0 0, Fs.none)
  | .fin s m e, .fin t n d =>
    if n = 0 then (if m = 0 then (.nan, Fs.invalid) else (.inf (s != t), Fs.divZero))
    else (quotient (s != t) m e n d, Fs.none)

/-- A quotient in a format (R121). -/
def Fmt.div (f : Fmt) (a b : Nat) : Nat × Fpst :=
  let (x, i) := (f.num a).div (f.num b)
  let (w, g) := f.round x
  (w, i ||| g)

/-- The integer square root, found bit by bit from bit `k - 1` down. -/
def isqrtBits (n : Nat) : Nat → Nat → Nat
  | 0, r => r
  | k + 1, r => let t := r + 2 ^ k; isqrtBits n k (if t * t ≤ n then t else r)

/-- The exact square root (R121), as a value that rounds like it. -/
def Num.sqrt : Num → Num × Fpst
  | .nan => (.nan, Fs.none)
  | .inf false => (.inf false, Fs.none)
  | .inf true => (.nan, Fs.invalid)
  | .fin s m e =>
    if m = 0 then (.fin s 0 0, Fs.none)
    else if s then (.nan, Fs.invalid)
    else
      let up : Nat := 80 - Nat.log2 m
      let sh : Nat := if (e - up) % 2 = 0 then up else up + 1
      let n := m * 2 ^ sh
      let r := isqrtBits n 48 0
      (.fin false (2 * r + if r * r = n then 0 else 1) ((e - sh) / 2 - 1), Fs.none)

/-- A square root in a format. -/
def Fmt.sqrt (f : Fmt) (a : Nat) : Nat × Fpst :=
  let (x, i) := (f.num a).sqrt
  let (w, g) := f.round x
  (w, i ||| g)

/-! ### Comparisons, minimum and maximum (R114, R136) -/

/-- The magnitude bits of a word. -/
def Fmt.mag (f : Fmt) (w : Nat) : Nat := w % 2 ^ (f.eb + f.fb)

/-- An integer that orders the words of a format, -0 below +0. -/
def Fmt.key (f : Fmt) (w : Nat) : Int := if f.sign w then -1 - (f.mag w : Int) else f.mag w

/-- The minimum of R114. -/
def Fmt.min (f : Fmt) (a b : Nat) : Nat :=
  if (f.num a).isNan || (f.num b).isNan then f.nan else if f.key b < f.key a then b else a

/-- The maximum of R114. -/
def Fmt.max (f : Fmt) (a b : Nat) : Nat :=
  if (f.num a).isNan || (f.num b).isNan then f.nan else if f.key a < f.key b then b else a

/-! ### Conversions (R116) -/

/-- From one format to another. -/
def Fmt.conv (g f : Fmt) (w : Nat) : Nat × Fpst := f.round (g.num w)

/-- From an integer. -/
def Fmt.ofInt (f : Fmt) (x : Int) : Nat × Fpst := f.round (Num.ofInt x)

/-- The nearest integer, ties to even, and whether it is exact. -/
def Num.nearest (s : Bool) (m : Nat) (e : Int) : Int × Bool :=
  let (n, ex) := if 0 ≤ e then (m * 2 ^ e.toNat, true) else shiftRne m (-e).toNat
  (if s then -(n : Int) else n, ex)

/-- Truncation toward zero. -/
def Num.trunc (s : Bool) (m : Nat) (e : Int) : Int × Bool :=
  let (n, ex) : Nat × Bool :=
    if 0 ≤ e then (m * 2 ^ e.toNat, true) else (m / 2 ^ (-e).toNat, m % 2 ^ (-e).toNat == 0)
  (if s then -(n : Int) else n, ex)

/-- To an integer from `lo` to `hi`, saturating, by the given rounding. -/
def Num.toInt (rnd : Bool → Nat → Int → Int × Bool) (lo hi : Int) : Num → Int × Fpst
  | .nan => (0, Fs.invalid)
  | .inf s => (if s then lo else hi, Fs.invalid)
  | .fin s m e =>
    let (x, ex) := rnd s m e
    if x < lo then (lo, Fs.invalid) else if hi < x then (hi, Fs.invalid)
    else (x, if ex then Fs.none else Fs.inexact)

/-! ### N4Q (R117 to R120) -/

/-- The codebook of R117, in units of 1/256. -/
def n4qLevels : List Int :=
  [-256, -184, -140, -105, -75, -48, -24, 0, 22, 45, 69, 94, 122, 156, 199, 256]

/-- The level of a code. -/
def n4qLevel (n : Nat) : Num := ofFix (n4qLevels.getD n 0) (-8)

/-- The block factor b of R119 and R120: super-scale `s` and scale byte `c`. -/
def n4qFactor (s c : Nat) : Nat × Fpst :=
  let (x, i) := (Fmt.f32.num s).mul (Num.ofInt c)
  let (t, g) := Fmt.f32.round x
  let (b, h) := Fmt.f32.round ((Fmt.f32.num t).scale (-8))
  (b, i ||| g ||| h)

/-- The decoding of R119. -/
def n4qDecode (s c n : Nat) : Nat × Fpst :=
  let (b, f) := n4qFactor s c
  let (x, i) := (n4qLevel n).mul (Fmt.f32.num b)
  let (v, g) := Fmt.f32.round x
  (v, f ||| i ||| g)

/-- The magnitude of a finite value as a fraction of integers at exponent `k`. -/
def magAt (x : Num) (k : Int) : Nat :=
  match x with
  | .fin _ m e => m * 2 ^ (e - k).toNat
  | _ => 0

def Num.exp : Num → Int
  | .fin _ _ e => e
  | _ => 0

/-- The larger magnitude of two values that are not NaNs. -/
def maxMag : Num → Num → Num
  | .inf _, _ => .inf false
  | _, .inf _ => .inf false
  | .fin _ m e, .fin _ n d =>
    let k := min e d
    if m * 2 ^ (e - k).toNat < n * 2 ^ (d - k).toNat then .fin false n d else .fin false m e
  | x, _ => x

/-- The code nearest to x / b, ties to the smaller magnitude, from the levels left to try (R120). -/
def n4qNearest (x b : Int) : List Int → Nat → Nat → Nat → Nat → Nat
  | [], _, best, _, _ => best
  | l :: r, n, best, dist, mag =>
    let d := (256 * x - l * b).natAbs
    if d < dist ∨ (d = dist ∧ l.natAbs < mag) then n4qNearest x b r (n + 1) n d l.natAbs
    else n4qNearest x b r (n + 1) best dist mag

/-- The code of one input (R120), with its status. Where b itself is infinite the spec gives no code for an infinite input:
the model gives 0x0 or 0xF by the input's sign (DESIGN CHOICE, log 46). -/
def n4qCode (b : Num) (x : Num) : Nat × Fpst :=
  match x with
  | .nan => (7, Fs.invalid)
  | .inf s => (if b.isZero then 7 else if s then 0 else 15, Fs.none)
  | .fin s m e =>
    if b.isZero then (7, Fs.none)
    else
      let k := min e b.exp
      let xi := fixAt s m e k
      let bi : Int := magAt b k
      (n4qNearest xi bi (n4qLevels.drop 1) 1 0 (256 * xi + 256 * bi).natAbs 256, Fs.none)

/-- The scale byte c of R120 and whether it saturates: ceil(A * 256 / S). -/
def n4qScale (a s : Num) : Nat × Bool :=
  match a, s with
  | .fin _ m e, .fin _ n d =>
    let k := min (e + 8) d
    let num := m * 2 ^ (e + 8 - k).toNat
    let den := n * 2 ^ (d - k).toNat
    let c := (num + den - 1) / den
    if 255 < c then (255, true) else (c, false)
  | _, _ => (255, true)

/-- The encoding of R120: scale byte, codes and status for 64 FP32 inputs under super-scale `s`. The spec does not say
whether a NaN counts as a nonzero input for underflow, nor whether −0 differs from the +0 it decodes to: the model leaves NaNs
out and compares by value, so that neither sets a condition (DESIGN CHOICE, log 46). -/
def n4qEncode (s : Nat) (xs : List Nat) : Nat × List Nat × Fpst :=
  let sv := Fmt.f32.num s
  if sv.isNan || sv.isInf || sv.isZero || sv.neg? then (0, xs.map fun _ => 7, Fs.invalid)
  else
    let vs := xs.map Fmt.f32.num
    let a := vs.foldl (fun a x => if x.isNan then a else maxMag a x) (.fin false 0 0)
    let (c, sat) := n4qScale a sv
    let b := Fmt.f32.num (n4qFactor s c).1
    let codes := vs.map (n4qCode b)
    let changed := (vs.zip codes).any fun (x, n, _) =>
      !x.isNan && !(Num.eq x (Fmt.f32.num (n4qDecode s c n).1))
    let lost := b.isZero && vs.any fun x => !x.isNan && !x.isZero
    (c, codes.map (·.1),
      codes.foldl (fun f p => f ||| p.2) Fs.none ||| (if sat then Fs.overflow else Fs.none) |||
      (if changed then Fs.inexact else Fs.none) ||| (if lost then Fs.underflow else Fs.none))

/-! ### Summation orders (R128) -/

/-- One level of the pairwise tree. -/
def pairLevel (op : Nat → Nat → Nat × Fpst) : List Nat → List Nat × Fpst
  | a :: b :: r =>
    let (x, f) := op a b
    let (l, g) := pairLevel op r
    (x :: l, f ||| g)
  | l => (l, Fs.none)

/-- `n` levels of the pairwise tree. -/
def pairTree (op : Nat → Nat → Nat × Fpst) : Nat → List Nat → Nat × Fpst
  | 0, l => (l.headD 0, Fs.none)
  | n + 1, l =>
    let (m, f) := pairLevel op l
    let (x, g) := pairTree op n m
    (x, f ||| g)

end Sys2Proof.Machine
end

