-- ==== Sys2Proof/Config.lean ====
section
/-! DEFINITION. What the part fixes (R1), and the values the spec leaves open. -/

namespace Sys2Proof.Config

/-- Frames of a tile's store that may hold segments (R238). -/
def frames : Nat := 32736

/-- Budgets of one tile add up to at most this many KiB (R240). -/
def storeKiB : Nat := 8184

/-- Capability register of HF2-2048 after reset (R1, R23): 2048 tiles, 256 pseudo-channels, links, remote KV pages,
architecture version 1. -/
def capsReset : BitVec 64 := 0x0000_0001_0700_0800#64

/-- Bytes of GDDR-7 of a part with `tiles` tiles (R1). -/
def gddrBytes (tiles : Nat) : Nat := tiles * 2 ^ 27

/-- A duration that the spec does not architect (R245, R276, R349 and others), in core cycles. It has no body: a
statement about it holds for every value. The argument is the State's counter of free values (log 9). -/
opaque freeDur : Nat → Nat

/-- A word that the spec leaves open where a machine goes on; the argument is the State's counter (log 9). -/
opaque freeWord : Nat → BitVec 64

/-- An answer of the management port whose bytes the spec leaves open (R376); the argument is the State's counter
(log 9). -/
opaque freeBytes : Nat → List (BitVec 8)

/-- What a walker or the dispatch complex reads at a GDDR-7 address outside its partition's range: the request is
refused (R355), and the spec gives no word there (log 9). -/
opaque refusedWord : Nat → BitVec 64

/-- The low bits of the argument word that gives a task its kernel passes where its record ignores that word (R307, R308):
the spec gives no number; the argument is the record's number (log 50). -/
opaque freeArg : Nat → BitVec 64

/-- The message in the payload of a flit (R373), whose layout the spec does not give: operation, source module, tile,
segment, offset, length, flag word, bytes (log 33). -/
opaque fabricMessage : List (BitVec 8) → Option (Nat × Nat × Nat × Nat × Nat × Nat × Nat × List (BitVec 8))

/-- The Pennant port of what a source tile sends to a module: a hash of the pair that the spec does not give (R373). -/
opaque fabricPort : Nat → Nat → Nat

/-- The header of a flit (R372) and its CRC-32, of which the spec gives neither the layout nor the polynomial: the arguments
are the flit's number and payload, and the bytes before the CRC (log 33). -/
opaque flitHeader : Nat → List (BitVec 8) → BitVec 64
opaque flitCrc : List (BitVec 8) → BitVec 32

/-- The payloads of the flits that carry traffic to another module, in their order; the spec does not give their layout
(log 33). The arguments are the fields of what is sent. -/
opaque fabricFlits : Nat × Nat × Nat × Nat × Nat × Nat × Nat × List (BitVec 8) → List (List (BitVec 8))

/-- Whether the signature of an image verifies (R375 step 2): SHA-256 and RSASSA-PSS with a key that the spec does not
give. -/
opaque verifies : List (BitVec 8) → Bool
/-- The version in an image's header (R375). -/
opaque imageVersion : List (BitVec 8) → Nat
/-- The SHA-256 digest of an image (R375, R376). -/
opaque digest : List (BitVec 8) → List (BitVec 8)
/-- Whether a scheduler image can read the hand-over structure of the old one (R378). -/
opaque readsHandOver : List (BitVec 8) → Bool

end Sys2Proof.Config
end

