-- ==== Sys2Proof/Machine/State.lean ====
section
/-! DEFINITION. The state of the module as plain data, the reasons a step can stop, and the state after reset.
Every field cites the rule that names it; a field of the model's own says so. -/

namespace Sys2Proof.Machine

/-! ### Memory -/

/-- Bytes by address, strictly rising, no entry equal to what an unlisted address reads as. -/
abbrev Memory := List Host.Cell

/-- What an unlisted address reads as (log 4, log 5). -/
def Memory.blank : Byte := 0

/-- The canonical form: strictly rising addresses, and no listed byte that reads like an unlisted one. -/
def Memory.wf : Memory → Bool
  | [] => true
  | [(_, b)] => b != Memory.blank
  | (a, b) :: (c, d) :: r => b != Memory.blank && decide (a < c) && Memory.wf ((c, d) :: r)

/-- An event order: for each agent the highest of its ticks that has happened before (R258, log 10). -/
abbrev Clock := List (Nat × Nat)

/-! ### Results in flight (R27, R30) and the replay buffer (R32, R331) -/

/-- What a result does when it lands, by the destinations of R331. -/
inductive Payload where
  /-- A push into scalar queue `c`: 0 to 27, 28 sld, 32 to 35 the supervisor's s24 to s27 (R325). -/
  | scalar (c : Nat) (v : Dword)
  /-- A push into vector queue `c`: 0 to 23, 28 vld, 29 kld. -/
  | vector (c : Nat) (v : Vec)
  /-- A push into a result queue (R163). -/
  | row (q : Nat) (v : Vec)
  /-- Rows pushed into the operand latch (R161). -/
  | latch (rows : List Vec)
  /-- A predicate (R97). -/
  | pred (p : Nat) (b : Bool)
  /-- A lane mask (R136). -/
  | mask (m : Nat) (v : Dword)
  /-- One bit of a lane mask (R149). -/
  | maskBit (m : Nat) (i : Nat) (b : Bool)
  /-- The select-mask index (R137). -/
  | select (m : BitVec 3)
  /-- The tree values of a beat, for its first `n` lanes of accumulator row `r` (R162, R173): they replace the
  lanes (`z`), or are added to them as INT32 (`int`) or FP32. An MROT replaces its row (R167). -/
  | beat (r : Nat) (z int : Bool) (n : Nat) (v : Vec)
  /-- A weight row with its tag (R158, R159): FP32 weights in N4Q mode, else its 16 words as read. -/
  | weight (plane r tag : Nat) (ws : List Word)
  /-- The rows that MLDH loads (R166): order 16, 32 or 64. -/
  | hadamard (plane order : Nat)
  /-- The exchange of the weight planes (R160). -/
  | planes
  /-- A system register write (R94). -/
  | sys (n : Nat) (v : Dword)
  /-- An engine register write (R155). -/
  | me (n : Nat) (v : Dword)
  /-- A guard window (R92). -/
  | window (w : Nat) (p : BitVec 7) (e : Bool)
  /-- A loop set (R83). -/
  | loop (n : Nat) (count : BitVec 32) (ls le : Dword) (sup : Bool)
  /-- A carry-out register (R233). -/
  | carry (k : Nat) (v : Dword)
  /-- A mismatch found by SCHK or VCHK (R65). -/
  | check (detail : Dword)
  /-- Sticky status alone (R206). -/
  | status
  deriving DecidableEq, Repr

/-- A result in flight: issued cycles until it lands, producing slot and bundle, sticky status raised at landing,
whether its landing lowers ol, and the delayed access that still has to supply its datum (R28). -/
structure Res where
  rem : Nat
  slot : Nat
  pc : Dword
  fp : Fpst := 0
  ol : Bool := false
  await : Option Nat := none
  /-- The pool frame whose page the row comes from: pinned until the result lands (R277). -/
  frame : Option Nat := none
  /-- The number of the bundle that gives it: results of one landing cycle land in this order (R52). -/
  seq : Nat := 0
  pay : Payload
  deriving DecidableEq, Repr

/-- What a captured access waits for (R28). -/
inductive Obstacle where
  /-- A residency request (R248), by its number. -/
  | absent (req : Nat)
  /-- A pending range of the scoreboard (R202). -/
  | range
  /-- A page of a stream being fetched (R226): key or value page, by stream index and page number. -/
  | page (stream pageNo : Nat) (value : Bool)
  /-- The rows of an append that have not landed (R225), or that an earlier lane has yet to append (R234). -/
  | append (stream pos : Nat)
  /-- The walk of page tables after a miss in a copy engine's TLB (R349). -/
  | walk
  deriving DecidableEq, Repr

/-- What an access keeps from its issue when it is made later (R199, R207, R225, R248, R271): the segment that its name
bound before its bundle, the lane mask selected then, BMODE and GSTRIDE, the plane that was idle, the bundle number, what
had happened before it, its place in the order of issue, and for a K slot the root table of its stream and the fetch that
it waits for. -/
structure Origin where
  seg : Nat := 0
  lanes : Dword := 0
  bmode : Dword := 0
  stride : Dword := 0
  plane : Nat := 0
  tick : Nat := 0
  clock : Clock := []
  order : Nat := 0
  root : Nat := 0
  fetch : Nat := 0
  /-- The append whose rows a load waits for (R225, R232); 0 while the lane that is to make it has not. -/
  app : Nat := 0
  /-- The row that a load waiting for an append or for a page has got, and the frame that it came from, which stays pinned until
  it lands (R232, R277, R281). -/
  row : Option Vec := none
  frame : Option Nat := none
  deriving DecidableEq, Repr

/-- An entry of the replay buffer: descriptor word and data words (R331), and what the capture keeps with a
result or an operation beyond them (log 12). -/
structure REnt where
  desc : Dword
  data : List Dword
  pay : Option Payload := none
  fp : Fpst := 0
  pc : Dword := 0
  ol : Bool := false
  await : Option Nat := none
  lits : List (BitVec 27) := []
  frame : Option Nat := none
  seq : Nat := 0
  /-- What a captured access waits for: a page or a recall that the hardware services (R334). -/
  why : Option Obstacle := none
  /-- What a captured access keeps from its issue. -/
  org : Origin := {}
  deriving DecidableEq, Repr

/-! ### The state of a context (R14) -/

/-- A loop set (R85). -/
structure LoopSet where
  count : BitVec 32 := 0
  sup : Bool := false
  ls : Dword := 0
  le : Dword := 0
  deriving DecidableEq, Repr

/-- The registers of R14 that a context image holds (R337). -/
structure Regs where
  /-- s0 to s27, and sld as 28. -/
  sq : Vector (List Dword) 29 := Vector.replicate 29 []
  vq : Vector (List Vec) 24 := Vector.replicate 24 []
  vld : List Vec := []
  kld : List Vec := []
  /-- p0 to p95; p0 is read as 1 whatever bit 0 holds (R17). -/
  pred : BitVec 96 := 1
  /-- w0 is not used; w1 to w7 (R40). -/
  win : Vector (BitVec 7 × Bool) 8 := Vector.replicate 8 (0, false)
  /-- m0 is read as all ones whatever entry 0 holds (R17). -/
  mask : Vector Dword 8 := (Vector.replicate 8 0).set 0 (BitVec.allOnes 64)
  sel : BitVec 3 := 0
  loops : Vector LoopSet 2 := Vector.replicate 2 {}
  segmap : Vector (Option (BitVec 32)) 64 := Vector.replicate 64 none
  kh : Vector (Bool × Dword) 8 := Vector.replicate 8 (false, 0)
  ki : Vector (BitVec 32 × BitVec 32) 4 := Vector.replicate 4 (0, 0)
  ci : Vector Dword 8 := Vector.replicate 8 0
  co : Vector Dword 8 := Vector.replicate 8 0
  /-- Engine registers: active and shadow sets (R155). -/
  me : Vector Dword 32 := Vector.replicate 32 0
  meShadow : Vector Dword 32 := Vector.replicate 32 0
  perm : Vector (BitVec 6) 64 := Vector.ofFn fun i => BitVec.ofNat 6 i.val
  grow : BitVec 32 := 0
  mestep : BitVec 7 := 0
  meflags : BitVec 2 := 0
  mestat : BitVec 64 := 0
  fpst : Fpst := 0
  cyc : Dword := 0
  frzc : Dword := 0
  deriving DecidableEq, Repr

/-- A branch target still to be taken; `chk` says whether R77 checks the loop sets against it. -/
structure Target where
  addr : Dword
  chk : Bool
  deriving DecidableEq, Repr

/-- The issue position of a context (R76, R80, R87): the next bundle, the targets forced onto the positions after
it (the third only from a frame a handler has written), and the annulled bundles still due. -/
structure Pos where
  pc : Dword := 0
  t1 : Option Target := none
  t2 : Option Target := none
  t3 : Option Target := none
  annul : Nat := 0
  /-- The next bundle was reached by an entry of R49, not in sequence. -/
  entry : Bool := false
  deriving DecidableEq, Repr

/-- The trap frame and the mode (R22, R24, R25). ECAUSE has 11 bits. -/
structure Frame where
  cause : BitVec 11 := 0
  epc : Dword := 0
  einfo : Dword := 0
  edt0 : Dword := 0
  edt1 : Dword := 0
  escr : Dword := 0
  mode : Bool := false
  pmode : Bool := false
  ie : Bool := true
  ctx : Bool := false
  ds : BitVec 2 := 0
  dleft : BitVec 2 := 0
  anul : Bool := false
  frozen : Bool := false
  /-- Which map of its cause EINFO follows, where several serve one (log 37): 1 R172, 2 R182, 3 R185, 4 R204; 0 not
  known. -/
  emap : Nat := 0
  deriving DecidableEq, Repr

/-- The conditions on which a context waits (R102, R105). -/
inductive WaitFor where
  | flag (f : Nat) (k : Nat)
  | counters (l s c m : Nat)
  deriving DecidableEq, Repr

/-- A captured slot: its word, the literal bits behind it, its place, and the operand words it had read (R32). -/
structure SlotRec where
  word : Word
  lits : List (BitVec 27)
  slot : Nat
  pc : Dword
  ops : List Dword := []
  deriving DecidableEq, Repr

/-- An access captured at its slot and made when its obstacle clears; `id` names the result that takes its
datum. -/
structure Delayed where
  cap : SlotRec
  why : Obstacle
  id : Nat
  /-- The context freezes at once, not from the landing cycle of the result (R28 causes 1 and 2, R202). -/
  stops : Bool
  /-- The core cycle at which a walk ends (R349). -/
  due : Nat := 0
  /-- The clock of the operations whose ranges it waits for (R258). -/
  after : Clock := []
  /-- What it keeps from its issue. -/
  org : Origin := {}
  deriving DecidableEq, Repr

/-- A cause to be taken before a later bundle: the fault of an operation (R196, R250, R263), in the order of
issue, or TRAP (R89). -/
structure OpFault where
  order : Nat
  cause : Nat
  slot : Nat := 0
  einfo : Dword
  deriving DecidableEq, Repr

/-- Interrupt sources pending for a context (R326, R330). -/
structure Irq where
  timer : Bool := false
  host : Bool := false
  wdog : Bool := false
  halt : Bool := false
  swout : Bool := false
  swin : Bool := false
  saveId : BitVec 32 := 0
  deriving DecidableEq, Repr

/-- Where a context stands in its task. -/
inductive Life where
  /-- No task. -/
  | idle
  /-- Placed; its template is being recalled (R241). -/
  | starting
  | running
  /-- Has issued END with this word; its counters have not all fallen (R91). -/
  | ended (word : Dword)
  /-- Stopped by a fault; the task ends faulted with this cause (R319, R328). -/
  | faulted (cause : Nat)
  deriving DecidableEq, Repr

/-- An operation held to the acceptance of a lane (R296): the tile that issued it, its slot word and operand words. -/
structure Deferred where
  tile : Nat
  word : Word
  ops : List Dword
  /-- The segment that its name bound at issue. -/
  seg : Nat
  /-- The handle of a KAPP. -/
  stream : Option Dword := none
  deriving DecidableEq, Repr

/-- A context's place in a guessed-carry loop (R290 to R301). The contexts of one lane, on the tiles of its group, hold
the same record (R288). -/
structure Lane where
  loop : Nat
  lane : Nat
  /-- 1 in the guess routine (R291). -/
  guess : Bool := false
  spec : Bool := false
  mism : Bool := false
  poisoned : Bool := false
  /-- Has read a zero row of an earlier lane that did not append (R292). -/
  zero : Bool := false
  /-- The streams, by table index, that the lane has appended to (R234). -/
  appended : List Nat := []
  deferred : List Deferred := []
  deriving DecidableEq, Repr

/-- What a task runs at present (R309). -/
inductive Pass where
  | prologue
  | kernel (k : Nat)
  | epilogue
  deriving DecidableEq, Repr

/-- A copy-in of a phase (R358): its slot word and packet words, and the open shadow that it fills, none once that is
published. -/
structure CopyIn where
  word : Word
  packet : List Dword
  shadow : Option Nat := none
  deriving DecidableEq, Repr

/-- What a phase commit saves (R357, R358). -/
structure Snapshot where
  regs : Regs
  pos : Pos
  frame : Frame
  inflight : List Res
  /-- The copy-ins of the phase before, or none when there were more than 28. -/
  log : Option (List CopyIn)
  /-- Number of the bundle that marked the commit (the model's own). -/
  tick : Nat := 0
  /-- The number from which operations of later bundles are numbered (the model's own). -/
  made : Nat := 0
  /-- The pass in progress, and the next pass index (R309, R337). -/
  pass : Option Pass := none
  next : Nat := 0
  deriving DecidableEq, Repr

/-- The buffer phase of a context (R357 to R363). -/
structure Phase where
  snap : Option Snapshot := none
  unrepairable : Bool := false
  failures : Nat := 0
  /-- Copy-ins issued since the last commit (R358). -/
  copyIns : List CopyIn := []
  /-- Shadows opened since the last commit (R361). -/
  opened : List Nat := []
  /-- A rollback has begun and waits for the operations that it lets complete (R361). -/
  rolling : Bool := false
  deriving DecidableEq, Repr

/-- A context of a tile. -/
structure Ctx where
  regs : Regs := {}
  /-- The supervisor's s24 to s27 (R325). -/
  sup : Vector (List Dword) 4 := Vector.replicate 4 []
  /-- Outstanding counters (R18). -/
  ol : BitVec 8 := 0
  os : BitVec 8 := 0
  oc : BitVec 6 := 0
  om : BitVec 2 := 0
  frame : Frame := {}
  pos : Pos := {}
  inflight : List Res := []
  replay : List REnt := []
  /-- Checks in flight when the trap was taken; they are no results, and count on after the return (log 12). -/
  checks : List Res := []
  rbsel : BitVec 18 := 0
  /-- Captured operations to be made again with the first resumed bundle (R333). -/
  remake : List REnt := []
  /-- Issued cycles for which the division stages of SA and SB stay busy (R48). -/
  divA : Nat := 0
  divB : Nat := 0
  wait : Option (WaitFor × SlotRec) := none
  delayed : List Delayed := []
  faults : List OpFault := []
  /-- Later-point causes that a trap has left pending; they are taken after the return (R327). -/
  kept : List OpFault := []
  irq : Irq := {}
  life : Life := .idle
  /-- The running task, by its number in the partition (R309). -/
  task : Option Nat := none
  /-- Address space of the task (R346). -/
  asid : Nat := 0
  lane : Option Lane := none
  phase : Phase := {}
  /-- G stores, local atomics and scatters made and not yet retired (R201): the core cycle each retires, its
  bundle number. -/
  stores : List (Nat × Nat) := []
  /-- Number of the bundle last issued, for program order (R258, log 10). -/
  tick : Nat := 1
  /-- What has happened before its next bundle (R258, log 10). -/
  clock : Clock := []
  /-- Segments protected for the accesses of the last bundle (R242, R248). -/
  held : List Nat := []
  /-- Its fault has been counted among the faults of its record in their order in time (R320). -/
  noted : Bool := false
  deriving DecidableEq, Repr

/-! ### Segments (R235 to R239, R203, R212, R255) -/

/-- Where a segment is (R237). -/
inductive Place where
  | resident
  | lateral
  | backed
  | moving
  deriving DecidableEq, Repr

/-- An access in a line's history (R255): agent, its tick, whether it was a local atomic, and whether it has been
reported (R263). -/
structure Access where
  agent : Nat
  tick : Nat
  atomic : Bool := false
  told : Bool := false
  deriving DecidableEq, Repr

/-- The history of one 64-byte line (R255): last write, reads since, and the clock of the publish that wrote it
last (R258). -/
structure LineHist where
  line : Nat
  write : Option Access := none
  reads : List Access := []
  pub : Option Clock := none
  deriving DecidableEq, Repr

/-- An open shadow (R212): its hidden entry, first frame, the lines written and their bytes. -/
structure Shadow where
  id : Nat
  base : Nat
  lines : List Nat := []
  bytes : Memory := []
  deriving DecidableEq, Repr

/-- A core write that has not retired (R201, R203): its agent, the core cycle in which it retires and its bundle number,
its lines and view, and whether a VJOIN of the other context has come since. -/
structure Unretired where
  agent : Nat
  due : Nat
  tick : Nat
  lines : List Nat
  swz : Bool
  joined : Bool := false
  deriving DecidableEq, Repr

/-- A directory entry (R235) with the bytes of its segment. -/
structure Seg where
  id : Nat
  len : Nat
  fmt : Nat := 0
  swz : Bool := false
  place : Place := .backed
  valid : Bool := true
  zero : Bool := false
  pins : Nat := 0
  base : Nat := 0
  owner : Nat := 0
  owned : Bool := false
  host : Nat := 0
  back : Nat := 0
  shadow : Option Shadow := none
  touch : Nat := 0
  /-- Created by SBIND (R209): private to this task. -/
  priv : Option Nat := none
  /-- Charged to this residency group, the launch record's number (R239); none while idle (R385). -/
  group : Option Nat := none
  /-- The tile whose channel has to push it to backing before anything else (R209, R240, R385): until then it is
  moving. -/
  evict : Option Nat := none
  /-- The live segment that a replica of a speculative lane copies, and the lines the lane has written (R295). -/
  live : Option Nat := none
  wrote : List Nat := []
  /-- Lines published on a replica with their bytes: they replace the live lines at acceptance (R295). -/
  pubs : List (Nat × List Byte) := []
  /-- Why no recall can be serviced (R250): 2 the backing copy holds an error beyond repair, 3 a lateral copy is lost. -/
  lost : Nat := 0
  /-- The backing copy holds an error that nothing repairs; the next recall meets it (R250, R365). -/
  bad : Bool := false
  bytes : Memory := []
  /-- Lines whose last write has not been joined, with its view: 1 swizzled (R203). -/
  marks : List (Nat × Bool) := []
  /-- Core writes that have not retired, for the marks that a VJOIN of the other context leaves to them (R203). -/
  unretired : List Unretired := []
  /-- Operations numbered below this were submitted before the last VJOIN and leave no mark (R203). -/
  joined : Nat := 0
  hist : List LineHist := []
  /-- The release clock of each 8-byte word that a local atomic has reached (R259). -/
  atoms : List (Nat × Clock) := []
  deriving DecidableEq, Repr

/-- A pending range of the scoreboard (R202): the operation, the segment, its bytes, and whether it is the
destination of a direct write. -/
structure Range where
  op : Nat
  seg : Nat
  lo : Nat
  hi : Nat
  dest : Bool
  deriving DecidableEq, Repr

/-- A residency request (R242, R243), with its age ticket: tickets are given in the order of the core cycle, the tile, the
context and the slot position, and within these of the counter. -/
structure Req where
  id : Nat
  ticket : Nat
  tile : Nat
  cx : Cx
  /-- 0 a core access, 1 a sequence operation, 2 an E operation. -/
  kind : Nat
  op : Nat
  members : List Nat
  lane : Nat := 0
  made : Nat
  /-- The core cycle in which it was made, and the slot position. -/
  cycle : Nat := 0
  slot : Nat := 0
  deriving DecidableEq, Repr

/-- The kinds of move (R245). -/
inductive MoveKind where
  | recall
  | lateral (host : Nat)
  | back
  | compact
  deriving DecidableEq, Repr

/-- A move in progress on a tile's channel (R245): it is applied in step 2 of cycle `due`. -/
structure Move where
  seg : Nat
  kind : MoveKind
  base : Nat
  due : Nat
  /-- The state the segment was in before the move. -/
  was : Place
  deriving DecidableEq, Repr

/-! ### Operations (R175, R213) -/

/-- An operation of the copy engines (R256), or a POSTR (R104). -/
structure EOp where
  id : Nat
  tile : Nat
  cx : Cx
  /-- Opcode of class E, or 64 for POSTR. -/
  op : Nat
  df : Nat
  packet : List Dword
  asid : Nat
  /-- 0 awaiting its grant, 1 awaiting translation, 2 granted, 3 all lines landed (R340). -/
  stage : Nat
  slot : Nat
  /-- Local segment, and destination or source segment of this module: id and tile. -/
  seg : Nat := 0
  far : Option (Nat × Nat) := none
  /-- Row that a PUTR popped. -/
  row : Option Vec := none
  /-- Bytes read so far, and how many bytes have landed. -/
  data : List Byte := []
  landed : Nat := 0
  /-- The next core cycle at which it may take a step of its own. -/
  next : Nat := 0
  /-- Stores of its context issued before it that it waits for (R201): the bundle number. -/
  after : Nat := 0
  /-- The pages of its virtual range as it has translated them (R351): page address, size, leaf word. -/
  pages : List (Nat × Nat × Dword) := []
  /-- Segments it has pinned (R242). -/
  pinned : List Nat := []
  /-- Race found on the way (R263): of the lowest line (R264). -/
  race : Option Dword := none
  /-- The publishes and hand-overs that its steps have met: they come before its end, not before its other steps (R258). -/
  learned : Clock := []
  /-- The core cycle of its submission, which its ticket goes by (R243, R351). -/
  cycle : Nat := 0
  /-- Recall of a member could not be serviced (R250). -/
  sega : Option Dword := none
  agent : Nat := 0
  clock : Clock := []
  order : Nat := 0
  /-- Its context has left the tile (R342). -/
  orphan : Bool := false
  deriving DecidableEq, Repr

/-- A sequence operation in the run slot or the wait slot (R175, R176). -/
structure SeqOp where
  id : Nat
  cx : Cx
  op : Nat
  /-- The image of me8 to me12 and REPORT taken at issue (R175). -/
  image : List Dword
  report : Bool
  step : Nat
  /-- MESTEP as the engine-queue registers have submitted it with the entry (R340). -/
  start : Option Nat := none
  /-- Segment ids of the operands, in set order. -/
  segs : List Nat
  /-- The byte range of each operand: segment, first byte, end (R177). -/
  spans : List (Nat × Nat × Nat) := []
  /-- PERM and GROW as its grant has read them (R190, R195). -/
  perm : Vector (BitVec 6) 64 := Vector.replicate 64 0
  grow : BitVec 32 := 0
  slot : Nat
  spec : Bool := false
  laneNo : Nat := 0
  after : Nat := 0
  /-- The core cycle of its grant. -/
  grant : Option Nat := none
  /-- A STOP or a kill has reached it (R183, R198), in this core cycle. -/
  stop : Bool := false
  stopAt : Nat := 0
  sega : Option Dword := none
  agent : Nat := 0
  clock : Clock := []
  order : Nat := 0
  /-- Its context has left the tile (R198, R342). -/
  orphan : Bool := false
  deriving DecidableEq, Repr

/-- A counting flag (R19, R20), with the clock released to it (R259). -/
structure Flag where
  value : BitVec 32 := 0
  gen : BitVec 8 := 0
  clock : Clock := []
  deriving DecidableEq, Repr

/-- A residency group's budget on a tile (R239, R240): launch record, KiB, tasks. -/
structure Group where
  launch : Nat
  kib : Nat
  tasks : Nat
  deriving DecidableEq, Repr

/-- A row of a weight plane (R153, R158): its tag, and 16 words as read or the 128 decoded FP32 weights of N4Q. -/
structure WRow where
  tag : Nat := 0
  ws : List Word := []
  deriving DecidableEq, Repr

/-- The state of a tile (R19). -/
structure Tile where
  p : Ctx := {}
  s : Ctx := { frame := { ctx := true } }
  flags : Vector Flag 16 := Vector.replicate 16 {}
  rq : Vector (List Vec) 4 := Vector.replicate 4 []
  /-- Accumulator rows that differ from the reset value (log 6), by rising row number. -/
  acc : List (Nat × Vec) := []
  /-- Owner of each bank (R21). -/
  banks : Vector (Option Cx) 128 := Vector.replicate 128 none
  /-- Weight rows that have been written, by rising row number; the others are NONE (R158). -/
  planes : Vector (List (Nat × WRow)) 2 := Vector.replicate 2 []
  active : Nat := 0
  latch : List Vec := []
  /-- Weights of the last 63 core cycles, newest first (R72, R75). -/
  window : List Nat := List.replicate 63 0
  /-- Weight of the present core cycle: the bundles chosen, and the engine's (R72). -/
  weight : Nat := 0
  ilim : BitVec 16 := 0x1400
  evec : Dword := 0
  flate : Dword := 0
  eqsel : BitVec 20 := 0
  /-- Staging entry of the engine-queue registers (R339). -/
  staging : Vector Dword 8 := Vector.replicate 8 0
  /-- The tile monitor's bindings of g60 to g63 (R325). -/
  monitor : Vector (Option (BitVec 32)) 4 := Vector.replicate 4 none
  seqRun : Option SeqOp := none
  seqWait : Option SeqOp := none
  ranges : List Range := []
  move : Option Move := none
  groups : List Group := []
  /-- Classes of the bundles chosen for the present core cycle (R29, R383). -/
  classes : List Nat := []
  /-- Clock of the accesses of contexts that have left the tile (R258). -/
  handover : Clock := []
  /-- The spare, by its number in the die, that stands behind the coordinate after a move (R363); none while the
  mapping of the reset stands (R364). -/
  phys : Option Nat := none
  /-- Out of placement: its die had no spare left (R363). -/
  retired : Bool := false
  deriving DecidableEq, Repr

/-! ### Clusters and partitions -/

/-- A translation held by a TLB of the cluster's copy engines (R349): address space, page address, page size as a
power of two, leaf word. -/
structure Tlb where
  asid : Nat
  va : Nat
  size : Nat
  leaf : Dword
  deriving DecidableEq, Repr

/-- A page lock (R351): page, its size and leaf word as they are fixed while it is held, and the operations that
hold it. -/
structure Lock where
  asid : Nat
  va : Nat
  size : Nat
  leaf : Dword
  ops : List Nat
  deriving DecidableEq, Repr

structure Cluster where
  tickets : Nat := 0
  reqs : List Req := []
  tlb : List Tlb := []
  locks : List Lock := []
  deriving DecidableEq, Repr

/-- A launch ring (R305, R345). -/
structure Ring where
  en : Bool := false
  err : Bool := false
  base : Nat := 0
  nrec : BitVec 16 := 0
  head : BitVec 16 := 0
  tail : BitVec 16 := 0
  asid : Nat := 0
  deriving DecidableEq, Repr

/-- A launch record that has been taken (R307, R320). -/
structure Launch where
  id : Nat
  /-- The sixteen words of the record. -/
  words : List Dword
  asid : Nat
  /-- Units not yet ended. -/
  left : Nat
  nfault : Nat := 0
  nkill : Nat := 0
  fcause : Nat := 0
  /-- The cause of the first fault of its units in time (R320). -/
  first : Option Nat := none
  value : BitVec 32 := 0
  rstat : Nat := 0
  /-- Units placed so far, with their tiles (R312). -/
  placed : List (Nat × Nat) := []
  /-- What happened before the launch, and before the ends of its units (R258). -/
  base : Clock := []
  joins : Clock := []
  /-- Of units that another module has sent here: that module, and the record's number there (R312, log 33). -/
  home : Option (Nat × Nat) := none
  /-- The modules to which units of the record have gone (R312, R319). -/
  away : List Nat := []
  deriving DecidableEq, Repr

/-- A waiting level-0 block (R311, R314): its first unit and how many, tokens at `since`, and what a restored or
requeued unit keeps (R317, R321). -/
structure Block where
  launch : Nat
  unit : Nat
  count : Nat
  /-- Successive blocks of one record that wait alike, this one the first. -/
  reps : Nat := 1
  /-- The task-type entry and the loop record, as they were read (R308, R286). -/
  tt : List Dword
  lw : List Dword
  tokens : Nat
  since : Nat
  order : Nat
  late : Bool := false
  /-- Save segment of a checkpointed or suspended context (R336), and the pass that it resumes or starts with. -/
  image : Option Nat := none
  pass : Option Pass := none
  /-- What has happened before the unit left its tile (R258). -/
  clock : Clock := []
  /-- The replay entries behind the image (log 12). -/
  replay : List REnt := []
  /-- Loop state of a checkpointed guessed-carry task (R302): base, round, carries. -/
  loop : Option (Nat × Nat × List Dword) := none
  deriving DecidableEq, Repr

/-- A task that has been placed (R309, R316). -/
structure Task where
  id : Nat
  launch : Nat
  unit : Nat
  tt : List Dword
  lw : List Dword
  tile : Nat
  cx : Cx
  /-- Tiles occupied: the lane groups of a guessed-carry task (R288). -/
  span : Nat := 1
  tokens : Nat
  dispatched : Nat
  pass : Pass
  passes : Nat
  quota : Nat
  banks : Nat
  rqdem : Nat
  /-- 0 not marked, 1 drain, 2 checkpoint, 3 kill (R317). -/
  mark : Nat := 0
  /-- Asked to leave its tile (R336): 1 at a kernel-iteration boundary, 2 at a bundle. -/
  asked : Nat := 0
  /-- Earliest start: the not-before time of a time-triggered unit (R318). -/
  notBefore : Nat := 0
  loop : Option Nat := none
  result : Dword := 0
  order : Nat := 0
  image : Option Nat := none
  replay : List REnt := []
  restart : Option (Nat × Nat × List Dword) := none
  clock : Clock := []
  /-- Segments to be recalled before the first bundle, by rising name (R241). -/
  recalls : List Nat := []
  /-- The names of the template are bound. -/
  bound : Bool := false
  /-- The core cycle from which its first bundle may issue, and whether its first pass has begun (R383). -/
  ready : Option Nat := none
  started : Bool := false
  /-- The map template: name and segment (R308). -/
  tmap : List (Nat × Nat) := []
  deriving DecidableEq, Repr

/-- The phases of a round (R289). -/
inductive RoundPhase where
  | size
  | guess
  | seal
  | run
  | settle
  | wait
  deriving DecidableEq, Repr

/-- A guessed-carry loop in progress (R286 to R294). -/
structure GLoop where
  id : Nat
  task : Nat
  cluster : Nat
  guess : Dword
  trips : Nat
  nc : Nat
  lanes : Nat
  /-- Tiles per lane group as a power of two (R286). -/
  lgs : Nat
  handles : List Dword
  fbase : Nat
  fcnt : Nat
  base : Nat := 0
  round : Nat := 0
  n : Nat := 0
  carries : List Dword
  /-- Guesses posted: lane, carry, value, last first (R233). -/
  posts : List (Nat × Nat × Dword) := []
  phase : RoundPhase := .size
  /-- Cr of each named stream (R234). -/
  cr : List Nat := []
  /-- END words of the lanes that have ended. -/
  words : List (Nat × Dword) := []
  /-- Carry-out of the lanes that have ended. -/
  outs : List (Nat × List Dword) := []
  result : Dword := 0
  /-- The fault with which lane 0 or the guess routine has ended (R298). -/
  fault : Option Nat := none
  /-- What happened in earlier rounds and in the launch (R299). -/
  clock : Clock := []
  deriving DecidableEq, Repr

/-- A page fetch of a KV walker (R276). -/
structure Fetch where
  id : Nat
  stream : Nat
  pageNo : Nat
  value : Bool
  /-- The page word as the fetch found it: spilled or remote; none where an append waits for a frame (R275, R277). -/
  word : Dword
  due : Nat
  /-- A truncation has freed the page (R278, R281). -/
  freed : Bool := false
  /-- The root table of the stream, as the access found it (R271). -/
  root : Nat := 0
  deriving DecidableEq, Repr

/-- An append whose rows have not landed (R227). -/
structure Append where
  id : Nat
  tile : Nat
  cx : Cx
  stream : Nat
  pos : Nat
  key : Vec
  value : Vec
  due : Nat
  /-- A truncation has discarded it (R228); its context has left the tile. -/
  dropped : Bool := false
  orphan : Bool := false
  /-- The root table of the stream at its issue (R271). -/
  root : Nat := 0
  deriving DecidableEq, Repr

/-- A KV page last used at a time, for the spill order of R277. -/
structure PageUse where
  frame : Nat
  used : Nat
  deriving DecidableEq, Repr

/-- The phases of a page migration (R353, R354). -/
structure Migration where
  src : Dword := 0
  dst : Dword := 0
  phase : Nat := 0
  err : Bool := false
  /-- The page as the start found it: its leaf word, its size as a power of two, the address of its table entry. -/
  leaf : Dword := 0
  size : Nat := 16
  entry : Nat := 0
  /-- What the registers named at the start: address space, virtual page, new page. -/
  asid : Nat := 0
  va : Nat := 0
  target : Nat := 0
  /-- Lines copied so far and lines marked dirty. -/
  copied : Nat := 0
  dirty : List Nat := []
  deriving DecidableEq, Repr

/-- The watchdog of a partition (R369, R370). -/
structure Watchdog where
  period : Nat := 0
  action : Nat := 0
  stage1 : Bool := false
  fired : Bool := false
  last : Nat := 0
  /-- The period runs, after a first expiry in `second`, until the PTP time `due`. -/
  running : Bool := false
  second : Bool := false
  due : Nat := 0
  deriving DecidableEq, Repr

/-- A partition (R322): dispatch registers, directory, KV space, scheduling state. -/
structure Part where
  clusters : List Nat := []
  /-- GDDR-7 range: first byte and length (R355). -/
  lo : Nat := 0
  len : Nat := 0
  ttbl : Nat := 0
  ttcnt : Nat := 0
  drainmax : Nat := 0x4E20
  ttlead : Nat := 0x2710
  ttres : Vector Dword 4 := Vector.replicate 4 0
  rings : Vector Ring 64 := Vector.replicate 64 {}
  astbl : Nat := 0
  ascnt : Nat := 0
  tlbinv : Dword := 0
  /-- Operations that an invalidation in progress waits for; none when BUSY = 0 (R352). -/
  tlbWait : Option (List Nat) := none
  mig : Migration := {}
  doorbell : Dword := 0
  wd : Watchdog := {}
  frozen : Bool := false
  suspended : Bool := false
  /-- Suspended for a channel drop, which waits for the contexts to leave (R366). -/
  dropping : Bool := false
  /-- The pseudo-channels still to be dropped, the one in progress first (R366). -/
  drops : List Nat := []
  /-- Segment directory (R235): size, the GDDR-7 addresses of its table and of the backing region, and the entries as
  the residency controllers hold them. -/
  dirSize : Nat := 0
  dirBase : Nat := 0
  backBase : Nat := 0
  dir : List Seg := []
  /-- Handle table, pool, spill region and owner directory (R270, R277, R279). -/
  ktBase : Nat := 0
  ktCount : Nat := 0
  poolFree : List Nat := []
  spillBase : Nat := 0
  spillFree : List Nat := []
  ownerBase : Nat := 0
  ownerCount : Nat := 0
  fetches : List Fetch := []
  appends : List Append := []
  uses : List PageUse := []
  /-- Frames that a truncation returns once their pins clear, with the appends in flight that land in them (R278). -/
  returning : List (Nat × List Nat) := []
  launches : List Launch := []
  blocks : List Block := []
  tasks : List Task := []
  loops : List GLoop := []
  /-- Records held by the time-triggered unit (R318). -/
  held : List Block := []
  /-- SPAWN records that have arrived and not been taken (R306): spawning context's space, operation, words. -/
  arrived : List (Nat × Nat × List Dword) := []
  /-- Rings still to be visited in the present round of taking (R306). -/
  round : List Nat := []
  /-- Modules of the partition's list, and its link groups (R374). -/
  modules : List Nat := []
  linkGroups : List (List Nat) := []
  deriving DecidableEq, Repr

/-! ### Links, the Ensign controller -/

/-- A port of the Pennant fabric (R373). -/
structure Port where
  trained : Bool := true
  nextSend : BitVec 12 := 0
  nextRecv : BitVec 12 := 0
  /-- Unacknowledged flits, oldest first, and the flits sent so far in their order. -/
  replay : List (BitVec 12 × List Byte) := []
  wire : List (BitVec 12 × List Byte) := []
  /-- New flits that wait for room among the unacknowledged, oldest first. -/
  waiting : List (List Byte) := []
  received : List (List Byte) := []
  /-- Answers that the receiver owes: 1 a NAK, 0 an acknowledgement, with the expected number. -/
  owed : List (Bool × BitVec 12) := []
  deriving DecidableEq, Repr

/-- A firmware image in a flash slot (R375): version, and whether its signature verifies. -/
structure Image where
  version : Nat := 0
  valid : Bool := false
  digest : List Byte := []
  deriving DecidableEq, Repr

/-- The progress of a live scheduler update (R378). -/
inductive Update where
  | none
  /-- Taking of records has stopped; the new image has been started at this PTP time. -/
  | started (at_ : Nat)
  deriving DecidableEq, Repr

/-- The Ensign controller (R375 to R381). -/
structure Ensign where
  booted : Bool := false
  failed : Bool := false
  slotA : Image := {}
  slotB : Image := {}
  rollback : Nat := 0
  measure : Vector (List Byte) 5 := Vector.replicate 5 []
  sched : Image := {}
  /-- The staged scheduler image (R378), and the tile monitor's (R375). -/
  schedNew : Image := {}
  monitorImg : Image := {}
  update : Update := .none
  ptpState : Nat := 0
  /-- PTP time at which the present holdover began. -/
  hold : Nat := 0
  coreOn : Bool := false
  cap : Nat := 10000
  /-- The core rails are on and the tiles have still to pass their tests, which end in this core cycle (R379). -/
  testing : Option Nat := none
  /-- The core cycle from which the controller adjusts ILIM and the islands to the cap again (R380). -/
  adjust : Nat := 0
  /-- The link of the host port is trained (R365). -/
  hostLink : Bool := true
  /-- MHz of the islands that differ from 700 (R379 to R381). -/
  islands : List (Nat × Nat) := []
  /-- The module's configuration (R364, R366, R372, R374, R375): the repair mode, the partitions to create, the module
  identifier, and the physical tiles that fail their test. -/
  repairDrop : Bool := false
  plan : List (Nat × Part) := []
  planModid : BitVec 12 := 0
  broken : List Nat := []
  /-- The steps of R375 that fail for a reason of the hardware: 1 the headers, 4 the hubs or the training of GDDR-7, 6 the
  link. -/
  stepFails : List Nat := []
  /-- Rows pending for post-package repair, and those fused (R366). -/
  rows : List Nat := []
  fused : List Nat := []
  spares : Vector Nat 8 := Vector.replicate 8 16
  /-- Answers given over the management port and the host port: the number of the rule, and the bytes (R368, R376). -/
  answers : List (Nat × List Byte) := []
  /-- The log: PTP time, kind of event, place (R367). -/
  log : List (Nat × Nat × Nat) := []
  deriving DecidableEq, Repr

/-- Traffic to another module (R214, R217, R279): the operation, the source tile, and the module, tile, segment, offset,
flag word and bytes it names. What the dispatch complex and the KV walkers send has the source 2048. -/
structure Sent where
  op : Nat
  src : Nat
  node : Nat
  tile : Nat
  seg : Nat
  off : Nat
  flag : Nat
  data : List Byte
  deriving DecidableEq, Repr

/-- A signal in transit to a flag of this module (R104, R218), with the clock it releases (R259). -/
structure Signal where
  tile : Nat
  part : Nat
  flag : Nat
  gen : BitVec 8
  delta : BitVec 16
  clock : Clock
  /-- The operation that completes once the signal has been applied. -/
  op : Nat
  due : Nat
  deriving DecidableEq, Repr

/-! ### The bundle in progress, and the work of a core cycle (the model's own, log 2) -/

/-- A cause raised at a slot (R323), with the captured slot. -/
structure Raised where
  cause : Nat
  einfo : Dword
  cap : SlotRec
  /-- For SEGA and KVP: the count of its landing that the captured slot keeps (R333). -/
  rem : Nat := 0
  deriving DecidableEq, Repr

/-- A bundle whose slots are being executed one by one. -/
structure Issue where
  tile : Nat
  cx : Cx
  addr : Dword
  /-- The words of the bundle. -/
  words : List Word
  /-- The slot to be executed next. -/
  pos : Nat := 0
  annulled : Bool := false
  /-- Captured operations still to be made again before the slots (R333). -/
  remake : List REnt := []
  /-- om as it stood before the bundle (R40, R93). -/
  om : BitVec 2 := 0
  /-- Operand words that the present slot has read. -/
  reads : List Dword := []
  /-- Pops: vector file, register code, entries. They take effect when the bundle has been executed (R15). -/
  pops : List (Bool × Nat × Nat) := []
  out : List Res := []
  raised : List Raised := []
  /-- The name whose binding the bundle's G slot has changed, and its binding before (R199). -/
  rebound : Option (Nat × Option (BitVec 32)) := none
  /-- A taken branch (R76): its target onto position + 3. -/
  target : Option Target := none
  /-- The next two positions are annulled (R78, R83). -/
  annulNext : Bool := false
  /-- A RETI has been executed (R88). -/
  reti : Bool := false
  endWord : Option (Dword × SlotRec) := none
  trap : Option (Nat × Dword) := none
  wait : Option (WaitFor × SlotRec) := none
  delayed : List Delayed := []
  /-- Segments whose request the bundle's accesses make (R242). -/
  absent : List Nat := []
  commit : Bool := false
  /-- What the bundle's own accesses have learned (R258). -/
  acquire : Clock := []
  /-- The number from which the operations of the bundle are numbered, and the flags that it has posted or initialised: they
  release what its accesses have learned too (R258). -/
  base : Nat := 0
  posted : List Nat := []
  divA : Bool := false
  divB : Bool := false
  deriving DecidableEq, Repr

/-- The order of a core cycle (R31): step 2 of it, then issue. -/
inductive Stage where
  | system
  | issue
  deriving DecidableEq, Repr

/-- What a bundle brings to the choice of a core cycle (R29, R72): its classes and its weight. -/
structure Bid where
  classes : List Nat := []
  weight : Nat := 0
  deriving DecidableEq, Repr

/-- What is left to do in the issue stage of a core cycle (R31, R383). -/
inductive Work where
  /-- Results land in step 1, for a bundle about to issue. -/
  | land (tile : Nat) (cx : Cx)
  /-- The results that step 1 has left land just before the bundle, which stands behind a delayed access or a wait of the
  same core cycle; the queues in `full` were full in step 1. -/
  | landLate (tile : Nat) (cx : Cx) (full : List (Bool × Nat))
  /-- A wait is tested again (R102, R105). -/
  | retest (tile : Nat) (cx : Cx)
  /-- A delayed access is made (R201, R248). -/
  | delayed (tile : Nat) (cx : Cx)
  /-- A fault of an operation is delivered (R196, R250, R263). -/
  | fault (tile : Nat) (cx : Cx)
  | interrupt (tile : Nat) (cx : Cx)
  /-- The next bundle is decoded and begun; what it has brought to the choice. -/
  | begin (tile : Nat) (cx : Cx) (bid : Bid)
  deriving DecidableEq, Repr

/-- The state of the module. -/
structure State where
  /-- The tiles that differ from their reset state, by rising virtual coordinate. -/
  tiles : List (Nat × Tile)
  clusters : List (Nat × Cluster)
  parts : List (Nat × Part)
  code : Memory
  gddr : Memory
  /-- Host memory by bus address (R348). -/
  host : Memory
  caps : Dword
  modid : BitVec 12
  ptime : Dword
  /-- Sevenths of a nanosecond beyond PTIME: it rises by 10 ns in 7 core cycles at 700 MHz (R10). -/
  ptick : Nat
  eops : List EOp
  signals : List Signal
  sent : List Sent
  /-- What happened before the traffic sent to other modules so far (R261; the model's own, log 33). -/
  abroad : Clock
  ports : Vector Port 8
  ensign : Ensign
  /-- Core cycles since reset (the model's own). -/
  now : Nat
  stage : Stage
  work : List Work
  issue : Option Issue
  /-- Events from outside the module that have arrived and not been taken (log 3). -/
  inputs : List Instr
  /-- Counter of free values used (log 9). -/
  free : Nat
  /-- Next number for an operation, request, access or agent. Contexts are the agents below 8192 (log 10). -/
  fresh : Nat
  /-- The system events that the present step 2 has taken already, by kind and subject (log 2). -/
  taken : List (Nat × Nat)
  deriving DecidableEq, Repr

/-- Why the machine stops: the spec lets nothing stop it, a bad access being refused, trapped or logged. -/
inductive Fault where
  /-- Raised by no step: every arm of `exec` answers a next state. Safe. -/
  | never
  deriving DecidableEq, Repr

/-- Why an instruction is refused. -/
inductive Refusal where
  /-- The model gives this instruction no meaning. Raised by no arm of Dispatch.lean at present; safe: the model stops. -/
  | notModelled (mnemonic : String)
  deriving DecidableEq, Repr

/-- The module right after reset: every field as the spec states it, or as logs 4 to 9 name it. -/
def State.reset : State where
  tiles := []
  clusters := []
  parts := []
  code := []
  gddr := []
  host := []
  caps := Config.capsReset
  modid := 0
  ptime := 0
  ptick := 0
  eops := []
  signals := []
  sent := []
  abroad := []
  ports := Vector.replicate 8 {}
  ensign := {}
  now := 0
  stage := .system
  work := []
  issue := none
  inputs := []
  free := 0
  fresh := 8192
  taken := []

end Sys2Proof.Machine
end

