-- ==== Sys2Proof/Machine/Mem.lean ====
section
/-! DEFINITION. The operations on memory: one byte, and values of several bytes in little-endian order (R5). -/

namespace Sys2Proof.Machine

/-- The byte at an address. -/
def Memory.read : Memory → Nat → Byte
  | [], _ => Memory.blank
  | (k, b) :: r, a => if a = k then b else Memory.read r a

/-- The memory with the byte at an address replaced; the canonical form is kept. -/
def Memory.write : Memory → Nat → Byte → Memory
  | [], a, x => if x = Memory.blank then [] else [(a, x)]
  | (k, b) :: r, a, x =>
    if a < k then (if x = Memory.blank then (k, b) :: r else (a, x) :: (k, b) :: r)
    else if a = k then (if x = Memory.blank then r else (k, x) :: r)
    else (k, b) :: Memory.write r a x

/-- `n` bytes from an address on. -/
def Memory.bytes (m : Memory) (a : Nat) : Nat → List Byte
  | 0 => []
  | n + 1 => m.read a :: Memory.bytes m (a + 1) n

/-- The memory with bytes stored from an address on. -/
def Memory.store (m : Memory) (a : Nat) : List Byte → Memory
  | [] => m
  | b :: r => Memory.store (m.write a b) (a + 1) r

/-- The value of `n` bytes at an address (R5). -/
def Memory.nat (m : Memory) (a n : Nat) : Nat := bytesNat (m.bytes a n)

/-- The 64-bit word at an address (R5). -/
def Memory.dword (m : Memory) (a : Nat) : Dword := BitVec.ofNat 64 (m.nat a 8)

/-- The memory with a value of `n` bytes stored at an address (R5). -/
def Memory.storeNat (m : Memory) (a n v : Nat) : Memory := m.store a (natBytes n v)

/-- The 32-bit word at a code address (R35), modulo 2^64. -/
def Memory.codeWord (m : Memory) (a : Dword) : Word := BitVec.ofNat 32 (m.nat a.toNat 4)

/-- `n` words from a code address on. -/
def Memory.codeWords (m : Memory) (a : Dword) : Nat → List Word
  | 0 => []
  | n + 1 => m.codeWord a :: Memory.codeWords m (a + 4) n

end Sys2Proof.Machine
end

