-- ==== Sys2Proof/Machine/Ops.lean ====
section
/-! DEFINITION. The named operations over the state: its parts, the queues, landing (R27, R30, R52), the replay
buffer (R331 to R333), taking a trap (R324) and returning from one (R88). -/

namespace Sys2Proof.Machine

/-! ### Parts of the state -/

/-- The value that a list of numbered values holds for a number, or `d`. -/
def aget {α : Type} : List (Nat × α) → Nat → α → α
  | [], _, d => d
  | (k, v) :: r, n, d => if k = n then v else aget r n d

/-- The list with the value of a number replaced in its place; a new number goes where rising numbers stay rising. -/
def aput {α : Type} : List (Nat × α) → Nat → α → List (Nat × α)
  | [], n, x => [(n, x)]
  | (k, v) :: r, n, x =>
    if k = n then (n, x) :: r
    else if n < k ∧ r.all (fun y => y.1 != n) then (n, x) :: (k, v) :: r
    else (k, v) :: aput r n x

def State.tile (s : State) (t : Nat) : Tile := aget s.tiles t {}
def State.putTile (s : State) (t : Nat) (x : Tile) : State := { s with tiles := aput s.tiles t x }
def State.modTile (s : State) (t : Nat) (f : Tile → Tile) : State := s.putTile t (f (s.tile t))

def Tile.ctx (t : Tile) : Cx → Ctx
  | .p => t.p
  | .s => t.s
def Tile.putCtx (t : Tile) (cx : Cx) (c : Ctx) : Tile :=
  match cx with
  | .p => { t with p := c }
  | .s => { t with s := c }
def Tile.modCtx (t : Tile) (cx : Cx) (f : Ctx → Ctx) : Tile := t.putCtx cx (f (t.ctx cx))

def State.ctx (s : State) (t : Nat) (cx : Cx) : Ctx := (s.tile t).ctx cx
def State.putCtx (s : State) (t : Nat) (cx : Cx) (c : Ctx) : State := s.putTile t ((s.tile t).putCtx cx c)
def State.modCtx (s : State) (t : Nat) (cx : Cx) (f : Ctx → Ctx) : State := s.putCtx t cx (f (s.ctx t cx))

/-- The cluster of a tile: 8 tiles each (11 R243). -/
def clusterOf (t : Nat) : Nat := t / 8
def State.cluster (s : State) (k : Nat) : Cluster := aget s.clusters k {}
def State.modCluster (s : State) (k : Nat) (f : Cluster → Cluster) : State :=
  { s with clusters := aput s.clusters k (f (s.cluster k)) }

def State.part (s : State) (p : Nat) : Part := aget s.parts p {}
def State.modPart (s : State) (p : Nat) (f : Part → Part) : State :=
  { s with parts := aput s.parts p (f (s.part p)) }
/-- The partition that holds the tile's cluster; 0 where none does. -/
def State.partOf (s : State) (t : Nat) : Nat :=
  match s.parts.find? fun p => p.2.clusters.contains (clusterOf t) with
  | some p => p.1
  | none => 0

/-- A new number, and the state that will not give it again. -/
def State.next (s : State) : Nat × State := (s.fresh, { s with fresh := s.fresh + 1 })
/-- A duration that the spec leaves open (log 9). -/
def State.duration (s : State) : Nat × State := (Config.freeDur s.free, { s with free := s.free + 1 })
/-- A word that the spec leaves open (log 9). -/
def State.freeWord (s : State) : Dword × State := (Config.freeWord s.free, { s with free := s.free + 1 })

/-- An entry of the Ensign controller's log: kind of event and place (R367). -/
def State.logEvent (s : State) (kind place : Nat) : State :=
  { s with ensign := { s.ensign with log := s.ensign.log ++ [(s.ptime.toNat, kind, place)] } }

def Ctx.mapRegs (c : Ctx) (f : Regs → Regs) : Ctx := { c with regs := f c.regs }

/-! ### Queues (R15) -/

/-- Codes 24 to 27 of supervisor code name the supervisor's own queues, held under 32 to 35 (R325). -/
def scalarCode (sup : Bool) (code : Nat) : Nat := if sup && decide (24 ≤ code) && decide (code < 28) then code + 8 else code

/-- A scalar queue: 0 to 27, sld as 28, the supervisor's as 32 to 35. -/
def Ctx.squeue (c : Ctx) (code : Nat) : List Dword :=
  if code < 32 then rd c.regs.sq code [] else rd c.sup (code - 32) []
def Ctx.putSqueue (c : Ctx) (code : Nat) (q : List Dword) : Ctx :=
  if code < 32 then { c with regs := { c.regs with sq := wr c.regs.sq code q } }
  else { c with sup := wr c.sup (code - 32) q }

/-- A vector queue: v0 to v23, rq0 to rq3 as 24 to 27, vld 28, kld 29, the operand latch 30 (R37, R330). -/
def Tile.vqueue (t : Tile) (cx : Cx) (code : Nat) : List Vec :=
  if code < 24 then rd (t.ctx cx).regs.vq code []
  else if code < 28 then rd t.rq (code - 24) []
  else if code = 28 then (t.ctx cx).regs.vld
  else if code = 29 then (t.ctx cx).regs.kld
  else t.latch
def Tile.putVqueue (t : Tile) (cx : Cx) (code : Nat) (q : List Vec) : Tile :=
  if code < 24 then t.modCtx cx (·.mapRegs fun r => { r with vq := wr r.vq code q })
  else if code < 28 then { t with rq := wr t.rq (code - 24) q }
  else if code = 28 then t.modCtx cx (·.mapRegs fun r => { r with vld := q })
  else if code = 29 then t.modCtx cx (·.mapRegs fun r => { r with kld := q })
  else { t with latch := q }

/-- Entries of a queue, by file and code. -/
def Tile.held (t : Tile) (cx : Cx) (vec : Bool) (code : Nat) : Nat :=
  if vec then (t.vqueue cx code).length else ((t.ctx cx).squeue code).length

/-- The depth of a queue (R14, R19, R153). -/
def depth (vec : Bool) (code : Nat) : Nat :=
  if vec then (if code < 24 then 4 else 8) else if code = 28 then 16 else 4

/-- The detail word of QOVF and QUND (R330). -/
def queueInfo (vec : Bool) (code n : Nat) : Dword :=
  BitVec.ofNat 64 ((if code < 32 then code else code - 8) + (if vec then 32 else 0) + n % 256 * 256)

/-- Removes the `n` oldest entries of a queue (R15). -/
def Tile.pop (t : Tile) (cx : Cx) (vec : Bool) (code n : Nat) : Tile :=
  if vec then t.putVqueue cx code ((t.vqueue cx code).drop n)
  else t.modCtx cx fun c => c.putSqueue code ((c.squeue code).drop n)

/-! ### Lanes with sticky status -/

/-- The value whose 32-bit digits are the first components of `f`, and the union of the conditions raised. -/
def lanesFs (f : Nat → Nat × Fpst) : Nat → Nat × Fpst
  | 0 => (0, 0)
  | k + 1 =>
    let a := lanesFs f k
    let x := f k
    (a.1 + (x.1 % 2 ^ 32) <<< (32 * k), a.2 ||| x.2)

/-- A vector of lanes with the conditions raised (R26). -/
def ofLanesFs (f : Nat → Nat × Fpst) : Vec × Fpst :=
  let a := lanesFs f 64
  (BitVec.ofNat 2048 a.1, a.2)

/-- The lanes `k` to 63 of `v` and the lanes below `k` of `u`. -/
def lowLanes (k : Nat) (u v : Vec) : Vec :=
  BitVec.ofNat 2048 (u.toNat % 2 ^ (32 * k) + v.toNat / 2 ^ (32 * k) * 2 ^ (32 * k))

/-- The 64-bit words of a vector, lowest first (R331). -/
def vecWords (v : Vec) : List Dword := (List.range 32).map fun k => v.extractLsb' (64 * k) 64

/-- The value of a list of 64-bit words, lowest first. -/
def wordsNat : List Dword → Nat
  | [] => 0
  | w :: r => w.toNat + wordsNat r <<< 64

def vecOfWords (ws : List Dword) : Vec := BitVec.ofNat 2048 (wordsNat (ws.take 32))

/-! ### Registers that a result writes -/

/-- An accumulator row. -/
def Tile.accRow (t : Tile) (r : Nat) : Vec := aget t.acc r 0
def Tile.putAcc (t : Tile) (r : Nat) (v : Vec) : Tile := { t with acc := aput t.acc r v }

/-- A beat's landing (R162, R163, R167, R173): the row after it, and the conditions of its additions. -/
def beatLand (old : Vec) (z int : Bool) (n : Nat) (v : Vec) : Vec × Fpst :=
  let new := if z then (v, 0)
    else if int then (ofLanes fun i => lane v i + lane old i, 0)
    else ofLanesFs fun i => if i < n then Fmt.f32.add (lane v i).toNat (lane old i).toNat else (0, 0)
  (lowLanes n new.1 old, new.2)

def loopSet (n : Nat) (f : LoopSet → LoopSet) (r : Regs) : Regs :=
  { r with loops := wr r.loops n (f (rd r.loops n {})) }

/-- Writes the predicate (R53, R98); p0 keeps its value (R17). -/
def Regs.putPred (r : Regs) (p : Nat) (b : Bool) : Regs :=
  if p = 0 ∨ 96 ≤ p then r
  else { r with pred := if b then r.pred ||| (1#96 <<< p) else r.pred &&& ~~~(1#96 <<< p) }

/-- A predicate as a source: p0 reads 1 (R17). -/
def Regs.getPred (r : Regs) (p : Nat) : Bool := p = 0 || bit r.pred p

/-- A lane mask as a source: m0 reads all ones (R17). -/
def Regs.getMask (r : Regs) (m : Nat) : Dword := if m = 0 then BitVec.allOnes 64 else rd r.mask m 0
def Regs.putMask (r : Regs) (m : Nat) (v : Dword) : Regs := if m = 0 then r else { r with mask := wr r.mask m v }

/-- The writable fields of engine register `n` (R156, R157, R180, R181); the others have none (R155, R179). -/
def meMask (n : Nat) : Dword :=
  match n with
  | 0 => 0x3F
  | 1 | 3 | 4 => 0xFFFFFFFF
  | 2 => 0x3
  | 8 | 9 | 10 => 0x00000FFF3FFFFF3F
  | 11 => 0x3F3F3F3F
  | 12 => 0x37
  | _ => 0

/-- MSET's write: the beat registers into both sets, the others into the shadow set (R155, R168, R179). -/
def Regs.putMe (r : Regs) (n : Nat) (v : Dword) : Regs :=
  let v := v &&& meMask n
  if n < 8 then { r with me := wr r.me n v, meShadow := wr r.meShadow n v }
  else { r with meShadow := wr r.meShadow n v }

/-- ILIM with its floor (R74). -/
def ilimOf (v : Dword) : BitVec 16 := if (fld v 0 16).toNat < 256 then 256 else fld v 0 16

/-- A slot of a store or a local atomic, which counts in os (R18). -/
def SlotRec.isStore (h : SlotRec) : Bool := decide (slotClass h.word = 8) && decide (16 ≤ slotOp h.word) && decide (slotOp h.word < 30)

/-- Entries leave the replay buffer without being re-injected: what they count in ol and os goes with them (log 12). -/
def Ctx.uncount (c : Ctx) (es : List REnt) : Ctx :=
  { c with ol := c.ol - BitVec.ofNat 8 (es.filter (·.ol)).length
           os := c.os - BitVec.ofNat 8 (es.filter fun e => e.why.isSome &&
             SlotRec.isStore { word := (e.data.headD 0).setWidth 32, lits := [], slot := 0, pc := 0 }).length }

/-- RBSEL.CLR: every entry becomes empty (R332, R334). -/
def Ctx.clearReplay (c : Ctx) : Ctx := { c.uncount c.replay with replay := [], checks := [] }

/-- The descriptor's number of data words (R331). -/
def descNw (d : Dword) : Nat := (fld d 32 9).toNat

/-- A list with entry `k` replaced, padded up to it. -/
def putAt {α : Type} (d : α) : List α → Nat → α → List α
  | [], 0, x => [x]
  | [], k + 1, x => d :: putAt d [] k x
  | _ :: r, 0, x => x :: r
  | a :: r, k + 1, x => a :: putAt d r k x

/-- RBDATA as a read: the selected word, 0 beyond NW (R332). -/
def Ctx.rbRead (c : Ctx) : Dword :=
  match c.replay[(fld c.rbsel 0 7).toNat]? with
  | none => 0
  | some e =>
    match (fld c.rbsel 8 9).toNat with
    | 0 => e.desc
    | w + 1 => if w < descNw e.desc then e.data.getD w 0 else 0

/-- A write of RBDATA (R332): what the capture held beside the entry no longer stands for it. -/
def Ctx.rbWrite (c : Ctx) (v : Dword) : Ctx :=
  let k := (fld c.rbsel 0 7).toNat
  if 96 ≤ k then c
  else
    let e : REnt := c.replay.getD k { desc := 0, data := [] }
    let e := match (fld c.rbsel 8 9).toNat with
      | 0 => { e with desc := v &&& 0x1FF7FFFFFFF#64, pay := none, await := none, why := none, org := {} }
      | w + 1 => if w < 256 then { e with data := putAt 0 e.data w v, pay := none, await := none, why := none, org := {} } else e
    { c with replay := putAt { desc := 0, data := [] } c.replay k e }

/-- Entries held: those whose KIND is not 0 (R332). -/
def Ctx.rbCount (c : Ctx) : Nat := (c.replay.filter fun e => fld e.desc 0 4 != 0).length

/-- The bits of EINFO that the map of a cause gives a field (R51, R91, R172, R182, R185, R196, R204, R222, R249, R330, R350);
`site` says which of several maps the trap has followed. Where that is not known, the bits that any of them gives one
(log 37). -/
def einfoMask (cause site : Nat) : Dword :=
  let several : Dword := match site with
    | 1 => 0x00000000003F3F7F
    | 2 => 0x0000000000000F1F
    | 3 => 0x0000000000001FFF
    | 4 => 0x0000FFFFFFFFFF7F
    | _ => if cause = 0x11 then 0x0000FFFFFFFFFFFF else 0x0000FFFFFFFFFF7F
  match cause with
  | 0x01 | 0x02 => 0x0000FFFFFFFFFFFF
  | 0x03 | 0x04 => 0x000000000000FF3F
  | 0x05 | 0x06 | 0x07 | 0x08 | 0x09 | 0x0A | 0x11 => several
  | 0x0B | 0x0C | 0x15 => 0x0000FFFFFFFF0F07
  | 0x0D => 0x0003FFFFFFFFFFFF
  | 0x0E | 0x0F | 0x10 => 0x000000000000FF3F
  | 0x16 => 0x000000000000000F
  | 0x17 => 0x0000001FFFFFFFFF
  | 0x18 => 0x0000000000001FFF
  | 0x20 => 0xFFFFFFFF0000003F
  | 0x21 => 0x000000000000FF0F
  | _ => 0xFFFFFFFFFFFFFFFF

/-- The map of EINFO that a cause raised by a slot follows (R172, R182, R185, R204). -/
def einfoSite (cause : Nat) (w : Word) : Nat :=
  if slotClass w = 12 then
    if 16 ≤ slotOp w then (if [0x06, 0x07, 0x08, 0x11].contains cause then 2 else 4)
    else if cause = 0x08 then 1 else 4
  else if slotClass w = 0 then 3
  else 4

/-- The write of a system register (R94): the fields that its map gives it (R12). What EQSEL and MEFLAGS command
beyond the tile's own registers is done by those who land the result. -/
def Tile.sysWrite (t : Tile) (cx : Cx) (n : Nat) (v : Dword) : Tile :=
  let reg (f : Regs → Regs) : Tile := t.modCtx cx (·.mapRegs f)
  let frame (f : Frame → Frame) : Tile := t.modCtx cx fun c => { c with frame := f c.frame }
  if 0x100 ≤ n ∧ n < 0x140 then reg fun r => { r with perm := wr r.perm (n - 0x100) (fld v 0 6) }
  else match n with
  | 0x002 => { t with ilim := ilimOf v }
  | 0x006 => reg fun r => { r with fpst := r.fpst &&& ~~~(fld v 0 5) }
  | 0x010 => frame fun f => { f with cause := fld v 0 11, emap := if fld v 0 8 = fld f.cause 0 8 then f.emap else 0 }
  | 0x011 => frame fun f => { f with epc := v }
  | 0x012 => frame fun f => { f with einfo := v &&& einfoMask (f.cause.toNat % 256) f.emap }
  | 0x013 => frame fun f => { f with mode := bit v 0, pmode := bit v 1, ie := bit v 2, ds := fld v 4 2,
                                     dleft := fld v 6 2, anul := bit v 8, frozen := bit v 9 }
  | 0x014 => { t with evec := v }
  | 0x015 => frame fun f => { f with escr := v }
  | 0x016 => frame fun f => { f with edt0 := v }
  | 0x017 => frame fun f => { f with edt1 := v }
  | 0x020 => reg (loopSet 0 fun l => { l with count := fld v 0 32, sup := bit v 32 })
  | 0x021 => reg (loopSet 0 fun l => { l with ls := v &&& ~~~3 })
  | 0x022 => reg (loopSet 0 fun l => { l with le := v &&& ~~~3 })
  | 0x023 => reg (loopSet 1 fun l => { l with count := fld v 0 32, sup := bit v 32 })
  | 0x024 => reg (loopSet 1 fun l => { l with ls := v &&& ~~~3 })
  | 0x025 => reg (loopSet 1 fun l => { l with le := v &&& ~~~3 })
  | 0x030 => reg fun r => { r with grow := fld v 0 32 }
  | 0x031 => reg fun r => { r with mestep := fld v 0 7 }
  | 0x032 => reg fun r => { r with meflags := fld v 0 2 }
  | 0x060 => { t with flate := v }
  | 0x200 => { t with eqsel := fld v 0 20 &&& 0xCFF03#20 }
  | 0x201 => { t with staging := wr t.staging (fld t.eqsel 13 3).toNat v }
  | 0x210 => t.modCtx cx fun c =>
      let c := { c with rbsel := fld v 0 18 &&& 0x1FF7F#18 }
      if bit v 17 then c.clearReplay else c
  | 0x211 => t.modCtx cx (·.rbWrite v)
  | _ => t

/-! ### Landing (R27, R30, R52) -/

/-- The queue that a result pushes into. -/
def Payload.queue : Payload → Option (Bool × Nat)
  | .scalar c _ => some (false, c)
  | .vector c _ => some (true, c)
  | .row q _ => some (true, 24 + q)
  | .latch _ => some (true, 30)
  | _ => none

/-- The effect of a result on the tile, and the conditions its landing raises. -/
def Tile.apply (t : Tile) (cx : Cx) (p : Payload) : Tile × Fpst :=
  let reg (f : Regs → Regs) : Tile × Fpst := (t.modCtx cx (·.mapRegs f), 0)
  match p with
  | .scalar c v => (t.modCtx cx fun x => x.putSqueue c (x.squeue c ++ [v]), 0)
  | .vector c v => (t.putVqueue cx c (t.vqueue cx c ++ [v]), 0)
  | .row q v => ({ t with rq := wr t.rq q (rd t.rq q [] ++ [v]) }, 0)
  | .latch rows => ({ t with latch := t.latch ++ rows }, 0)
  | .pred n b => reg (·.putPred n b)
  | .mask m v => reg (·.putMask m v)
  | .maskBit m i b => reg fun r => r.putMask m
      (if b then r.getMask m ||| (1#64 <<< i) else r.getMask m &&& ~~~(1#64 <<< i))
  | .select m => reg fun r => { r with sel := m }
  | .beat r z int n v =>
    let a := beatLand (t.accRow r) z int n v
    (t.putAcc r a.1, a.2)
  | .weight pl r tag ws => ({ t with planes := wr t.planes pl (aput (rd t.planes pl []) r ⟨tag, ws⟩) }, 0)
  | .hadamard pl order =>
    let tag := if order = 16 then 0x10 else if order = 32 then 0x11 else 0x12
    ({ t with planes := wr t.planes pl ((List.range 64).map fun r => (r, ⟨tag, []⟩)) }, 0)
  | .planes => ({ t with active := 1 - t.active }, 0)
  | .sys n v => (t.sysWrite cx n v, 0)
  | .me n v => reg (·.putMe n v)
  | .window w p e => reg fun r => { r with win := wr r.win w (p, e) }
  | .loop n count ls le sup => reg (loopSet n fun _ => ⟨count, sup, ls, le⟩)
  | .carry k v => reg fun r => { r with co := wr r.co k v }
  | .check _ => (t, 0)
  | .status => (t, 0)

/-- What the landings of one issued cycle have done so far: the tile, the pushes held by QOVF, the queues found
full, the cause's detail (R52), the checks that differ, the commands of R340 and R183 that have landed. -/
structure Landing where
  tile : Tile
  held : List Res := []
  full : List (Bool × Nat) := []
  qovf : Option (Res × Dword) := none
  checks : List Res := []
  late : List (Nat × Dword) := []
  deriving DecidableEq, Repr

/-- Raises a result's sticky status (R26) and lowers ol where the result counts there (R18). -/
def Landing.finish (l : Landing) (cx : Cx) (r : Res) (fp : Fpst) : Landing :=
  { l with tile := l.tile.modCtx cx fun c =>
      { c with regs := { c.regs with fpst := c.regs.fpst ||| r.fp ||| fp }, ol := if r.ol then c.ol - 1 else c.ol } }

def Landing.hold (l : Landing) (cx : Cx) (q : Bool × Nat) (r : Res) : Landing :=
  { l with held := l.held ++ [{ r with rem := 0 }], full := q :: l.full,
           qovf := l.qovf.or (some (r, queueInfo q.1 q.2 (l.tile.held cx q.1 q.2))) }

/-- One result lands (R16, R52, R161). -/
def Landing.one (l : Landing) (cx : Cx) (r : Res) : Landing :=
  match r.pay with
  | .check _ => { l with checks := l.checks ++ [r] }
  | .latch rows =>
    let room := if l.full.contains (true, 30) then 0 else 8 - l.tile.latch.length
    let l := { l with tile := { l.tile with latch := l.tile.latch ++ rows.take room } }
    if rows.length ≤ room then l.finish cx r 0
    else l.hold cx (true, 30) { r with pay := .latch (rows.drop room) }
  | p =>
    match p.queue with
    | some q =>
      if l.full.contains q || decide (depth q.1 q.2 ≤ l.tile.held cx q.1 q.2) then l.hold cx q r
      else
        let a := l.tile.apply cx p
        Landing.finish { l with tile := a.1 } cx r a.2
    | none =>
      let a := l.tile.apply cx p
      let late := match p with
        | .sys 0x200 v => l.late ++ [(0x200, v)]
        | .sys 0x032 v => l.late ++ [(0x032, v)]
        | _ => l.late
      Landing.finish { l with tile := a.1, late := late } cx r a.2

/-- The landings of a context's next issued cycle: every result in flight comes one cycle nearer, and those that
are due land in the order of R52; no push enters a queue of `full`. -/
def Tile.land (t : Tile) (cx : Cx) (full : List (Bool × Nat) := []) : Landing :=
  let c := t.ctx cx
  let due := c.inflight.filter fun r => r.rem ≤ 1
  let rest := (c.inflight.filter fun r => 1 < r.rem).map fun r => { r with rem := r.rem - 1 }
  due.foldl (fun l r => l.one cx r) { tile := t.putCtx cx { c with inflight := rest }, full := full }

/-- Some of the due results of a context land ahead of the others: the landing, and the results still in flight, those that
have found their queue full with count 0. -/
def Tile.landSome (t : Tile) (cx : Cx) (now : Res → Bool) : Landing × List Res :=
  (t.ctx cx).inflight.foldl (fun (l, kept) r =>
    if r.rem ≤ 1 && now r then
      let k := l.one cx r
      (k, kept ++ k.held.drop l.held.length)
    else (l, kept ++ [r])) ({ tile := t }, [])

/-- A datum is late: a result due in the next issued cycle still waits for it (R28 cause 1). -/
def Ctx.late (c : Ctx) : Bool := c.inflight.any fun r => decide (r.rem ≤ 1) && r.await.isSome

/-! ### The replay buffer (R331 to R333) -/

/-- A descriptor word (R331). -/
def descWord (kind rem dkind dnum slot nw : Nat) : Dword :=
  BitVec.ofNat 64 (kind + rem % 256 * 16 + dkind * 2 ^ 12 + dnum % 4096 * 2 ^ 16 + slot % 8 * 2 ^ 28 + nw * 2 ^ 32)

/-- The first data word of an array result, which says its form (R173, log 12): the kind of its landing and two
parameters. -/
def formWord (kind a b : Nat) : Dword := BitVec.ofNat 64 (kind + 256 * a + 65536 * b)

/-- DKIND, DNUM and the data words of a result (R331, R173). -/
def Payload.entry : Payload → Nat × Nat × List Dword
  | .scalar c v => (0, if c < 32 then c else c - 8, [v])
  | .vector c v => (1, c, vecWords v)
  | .row q v => (2, q, vecWords v)
  | .latch rows => (3, 0, rows.flatMap vecWords)
  | .pred p b => (4, p, [BitVec.ofNat 64 (b2n b)])
  | .mask m v => (5, m, [v])
  | .maskBit m i b => (5, m, [BitVec.ofNat 64 (b2n b), BitVec.ofNat 64 i])
  | .select m => (5, 8, [BitVec.ofNat 64 m.toNat])
  | .beat r z int n v => (6, r, formWord (b2n z + 2 * b2n int) n 0 :: (vecWords v).take (n / 2))
  | .weight pl r tag ws => (7, r, formWord 0 pl tag :: ws.map fun w => w.setWidth 64)
  | .hadamard pl order => (7, 0, [formWord 1 pl order])
  | .planes => (7, 0, [formWord 2 0 0])
  | .sys n v => (8, n, [v])
  | .me n v => (9, n, [v])
  | .window w p e => (10, w, [BitVec.ofNat 64 (p.toNat + b2n e * 128)])
  | .loop n count ls le sup =>
    (8, 0x20 + 3 * n, [BitVec.ofNat 64 (count.toNat + b2n sup * 2 ^ 32), ls, le])
  | .carry k v => (11, k, [v])
  | .check d => (8, 0x012, [d])
  | .status => (8, 0x006, [])

/-- The entry of a result in flight (R331). -/
def Res.toEntry (r : Res) : REnt :=
  let (k, n, d) := r.pay.entry
  { desc := descWord 2 r.rem k n r.slot d.length, data := d, pay := some r.pay, fp := r.fp, pc := r.pc, ol := r.ol,
    await := r.await, frame := r.frame, seq := r.seq }

/-- The entry of a captured operation (R331): its slot word and the operand words it had read. -/
def SlotRec.toEntry (c : SlotRec) (rem : Nat) : REnt :=
  { desc := descWord 4 rem 0 0 c.slot (1 + c.ops.length), data := c.word.setWidth 64 :: c.ops, lits := c.lits, pc := c.pc }

/-- The captured operation that an entry holds. -/
def REnt.toSlot (e : REnt) : SlotRec where
  word := (e.data.headD 0).setWidth 32
  lits := e.lits
  slot := (fld e.desc 28 3).toNat
  pc := e.pc
  ops := (e.data.drop 1).take (descNw e.desc - 1)

/-- What a result entry does when it lands: what the capture kept, or what its words say. -/
def REnt.payload (e : REnt) : Payload :=
  match e.pay with
  | some p => p
  | none =>
    let n := (fld e.desc 16 12).toNat
    let d := e.data.take (descNw e.desc)
    let v := d.headD 0
    match (fld e.desc 12 4).toNat with
    | 0 => .scalar n v
    | 1 => .vector n (vecOfWords d)
    | 2 => .row n (vecOfWords d)
    | 3 => .latch ((List.range (d.length / 32)).map fun k => vecOfWords (d.drop (32 * k)))
    | 4 => .pred n (bit v 0)
    | 5 =>
      if d.length = 2 then .maskBit n (d.getD 1 0).toNat (bit v 0)
      else if n = 8 then .select (fld v 0 3) else .mask n v
    | 6 => .beat (n % 1024) (bit v 0) (bit v 1) (fld v 8 8).toNat (vecOfWords (d.drop 1))
    | 7 => match (fld v 0 8).toNat with
      | 0 => .weight (fld v 8 1).toNat (n % 64) (fld v 16 4).toNat ((d.drop 1).map fun w => w.setWidth 32)
      | 1 => .hadamard (fld v 8 1).toNat (fld v 16 8).toNat
      | _ => .planes
    | 8 =>
      if d.length = 3 then .loop (if n = 0x20 then 0 else 1) (fld v 0 32) (d.getD 1 0) (d.getD 2 0) (bit v 32)
      else .sys n v
    | 9 => .me n v
    | 10 => .window n (fld v 0 7) (bit v 7)
    | 11 => .carry n v
    | _ => .status

/-- Results in the order in which they land; results of one cycle keep their order (R331). -/
def insertRes (r : Res) : List Res → List Res
  | [] => [r]
  | a :: l => if r.rem < a.rem then r :: a :: l else a :: insertRes r l
def sortRes (l : List Res) : List Res := l.foldl (fun acc r => insertRes r acc) []

/-- Entries by rising slot. -/
def insertSlot (e : REnt) : List REnt → List REnt
  | [] => [e]
  | a :: l => if fld e.desc 28 3 < fld a.desc 28 3 then e :: a :: l else a :: insertSlot e l

def Payload.isCheck : Payload → Bool
  | .check _ => true
  | _ => false

/-- An obstacle whose wait is a restartable fault that the hardware services: SEGA or KVP (R25, R334). -/
def Obstacle.serviced : Obstacle → Bool
  | .absent _ | .page _ _ _ => true
  | .append _ _ | .range | .walk => false

/-- The entry of a delayed access (R280, R333): it keeps the remaining count of its landing. -/
def Delayed.toEntry (d : Delayed) (l : List Res) : REnt :=
  match l.find? fun r => r.await == some d.id with
  | some r => { d.cap.toEntry r.rem with pay := some r.pay, fp := r.fp, ol := r.ol, await := some d.id,
                                         seq := r.seq, why := some d.why, org := d.org }
  | none => { d.cap.toEntry 0 with await := some d.id, why := some d.why, org := d.org }

/-- The entry of a slot that raises a cause (R331). -/
def Raised.toEntry (r : Raised) : REnt := r.cap.toEntry r.rem

/-! ### Taking a trap (R324) and returning from one (R88) -/

/-- DS, DLEFT, ANUL, EDT0 and EDT1 of the position that issues next (R87). -/
def Pos.frame (p : Pos) (f : Frame) : Frame :=
  let ts := [p.t1, p.t2].filterMap id
  { f with
    ds := BitVec.ofNat 2 ts.length
    edt0 := (ts[0]?.map (·.addr)).getD 0
    edt1 := (ts[1]?.map (·.addr)).getD 0
    dleft := if p.t1.isSome then 1 else if p.t2.isSome then 2 else BitVec.ofNat 2 (min p.annul 2)
    anul := p.annul ≠ 0 }

/-- What is captured beside the faulting operations: the results in flight as they stand for the position at which
issue continues, waits and serviced accesses (R32, R107, R280). -/
def Ctx.captured (c : Ctx) (ops : List REnt) (flight : List Res) : List REnt × List Res :=
  let serviced := c.delayed.filter fun d => d.why.serviced
  let waits := match c.wait with
    | some w => [w.2.toEntry 0]
    | none => []
  let own := (c.remake ++ ops ++ waits ++ serviced.map fun d => d.toEntry flight).foldl (fun l e => insertSlot e l) []
  (own,
   sortRes (flight.filter fun r => !r.pay.isCheck && !serviced.any fun d => r.await == some d.id))

/-- Trap entry (R324). `ops` are the faulting operations, `flight` the results in flight with the remaining counts
of R333, `pos` of the context is position j. -/
def Ctx.enter (c : Ctx) (cx : Cx) (evec : Dword) (cause slot : Nat) (einfo epc : Dword) (ops : List REnt)
    (flight : List Res) : Ctx :=
  let (own, results) := c.captured ops flight
  let site := (ops.find? fun e => fld e.desc 28 3 == BitVec.ofNat 3 slot).map fun e => einfoSite cause ((e.data.headD 0).setWidth 32)
  let frozen := c.wait.isSome || c.delayed.any fun d => d.why.serviced
  { c with
    replay := { desc := descWord 1 0 0 0 0 1, data := [c.pos.pc] } :: own ++ results.map Res.toEntry
    checks := c.checks ++ flight.filter fun r => r.pay.isCheck
    inflight := []
    remake := []
    wait := none
    delayed := c.delayed.filter fun d => !d.why.serviced
    kept := c.kept ++ c.faults
    faults := []
    frame := { c.pos.frame c.frame with
      cause := BitVec.ofNat 11 (cause % 256 + slot % 8 * 256)
      einfo := einfo
      epc := epc
      pmode := c.frame.mode
      mode := true
      ie := false
      ctx := cx = .s
      frozen := frozen
      emap := site.getD 4 }
    pos := { pc := evec, entry := true } }

/-- The causes of R329 by their codes. -/
def Cause.illi : Nat := 0x01
def Cause.illb : Nat := 0x02
def Cause.qovf : Nat := 0x03
def Cause.qund : Nat := 0x04
def Cause.sega : Nat := 0x05
def Cause.segb : Nat := 0x06
def Cause.segu : Nat := 0x07
def Cause.fmt : Nat := 0x08
def Cause.race : Nat := 0x09
def Cause.view : Nat := 0x0A
def Cause.kvh : Nat := 0x0B
def Cause.kvp : Nat := 0x0C
def Cause.xlat : Nat := 0x0D
def Cause.zpiv : Nat := 0x0E
def Cause.npd : Nat := 0x0F
def Cause.zdiag : Nat := 0x10
def Cause.ebusy : Nat := 0x11
def Cause.abheld : Nat := 0x12
def Cause.resid : Nat := 0x13
def Cause.chk : Nat := 0x14
def Cause.specfx : Nat := 0x15
def Cause.unit : Nat := 0x16
def Cause.setbig : Nat := 0x17
def Cause.priv : Nat := 0x18
def Cause.trap : Nat := 0x19
def Cause.brk : Nat := 0x1A
def Cause.intr : Nat := 0x20
def Cause.mchk : Nat := 0x21

/-- The task ends faulted with a cause once its counters have fallen (R319): the context issues nothing more, and its
accesses that have not been made leave os. -/
def Ctx.fail (c : Ctx) (cause : Nat) : Ctx :=
  let c := c.uncount c.replay
  { c with life := .faulted cause, inflight := [], replay := [], wait := none, delayed := [], remake := []
           os := c.os - BitVec.ofNat 8 (c.delayed.filter fun d => d.cap.isStore).length }

/-- MCHK (R328, R360, R363): the task ends faulted; the log holds the detail word of R330 over the cause. -/
def State.mchk (s : State) (t : Nat) (cx : Cx) (src inner : Nat) : State :=
  (s.modCtx t cx (·.fail Cause.mchk)).logEvent (Cause.mchk + 256 * (src + 256 * inner)) (t * 2 + cx.num)

/-- A cause poisons a speculative lane (R298): it issues nothing more until the settle, and no other fault of it is
delivered. -/
def Ctx.poison (c : Ctx) : Ctx :=
  { c with lane := c.lane.map fun l => { l with poisoned := true }, inflight := [], wait := none, delayed := [],
           remake := [], faults := [], kept := [] }

/-- The context belongs to a lane (R288). -/
def Ctx.inLane (c : Ctx) (l : Lane) : Bool := c.lane.any fun x => x.loop == l.loop && x.lane == l.lane && x.guess == l.guess

/-- The record of a lane changes for all its contexts (R288). -/
def State.modLane (s : State) (l : Lane) (f : Lane → Lane) : State :=
  { s with tiles := s.tiles.map fun x => if x.2.p.inLane l then (x.1, { x.2 with p := { x.2.p with lane := x.2.p.lane.map f } }) else x }

/-- Every context of a speculative lane stops with the one that met the fault, and the cause is logged (R298). -/
def State.poisonLane (s : State) (l : Lane) (cause t : Nat) : State :=
  State.logEvent { s with tiles := s.tiles.map fun x => if x.2.p.inLane l then (x.1, { x.2 with p := x.2.p.poison }) else x }
    0x298 (cause * 4096 + t)

/-- A cause of a context: a trap (R324); in supervisor mode the end of the task (R328); in a speculative lane its
poison (R298). -/
def State.trap (s : State) (t : Nat) (cx : Cx) (cause slot : Nat) (einfo epc : Dword) (ops : List REnt)
    (flight : List Res) : State :=
  let c := s.ctx t cx
  let spec := if cause = Cause.intr then none else c.lane.filter fun l => l.spec
  match spec with
  | some l => s.poisonLane l cause t
  | none =>
    if c.frame.mode && cause ≠ Cause.intr then
      s.mchk t cx 2 cause
    else s.putCtx t cx (c.enter cx (s.tile t).evec cause slot einfo epc ops flight)

/-- The landings, the tests and the bundle planned for a context; its delayed accesses are none of these. -/
def Work.of (t : Nat) (cx : Cx) : Work → Bool
  | .land a b | .landLate a b _ | .retest a b | .fault a b | .interrupt a b | .begin a b _ => a == t && b == cx
  | .delayed _ _ => false

def Work.bid : Work → Bid
  | .begin _ _ b => b
  | _ => {}

/-- A bundle that was chosen does not issue: its classes and its weight are none of the core cycle's (R72). -/
def Tile.unbid (x : Tile) (b : Bid) : Tile :=
  { x with classes := x.classes.filter fun c => !b.classes.contains c, weight := x.weight - b.weight }

/-- The work still planned for a context in this core cycle is dropped. -/
def State.dropWork (s : State) (t : Nat) (cx : Cx) : State :=
  State.modTile { s with work := s.work.filter fun w => !w.of t cx } t fun x =>
    (s.work.filter (·.of t cx)).foldl (fun x w => x.unbid w.bid) x

/-- A cause that an access meets after its bundle (R248 to R250, R280, R349): the trap at its slot, or, once the context has
issued END, the fault of its task (R91). What was planned for the context in the core cycle does not come. -/
def State.lateTrap (s : State) (t : Nat) (cx : Cx) (cause slot : Nat) (einfo : Dword) (ops : List REnt) : State :=
  let s := s.dropWork t cx
  let c := s.ctx t cx
  match c.life with
  | .ended _ => if c.frame.mode then s.mchk t cx 2 cause else s.modCtx t cx (·.fail cause)
  | .faulted k => s.modCtx t cx (·.fail k)
  | _ => s.trap t cx cause slot einfo c.pos.pc ops c.inflight

/-- A fault of an operation, or of an access made late, reaches its context (R196, R197, R250, R263): before a later bundle,
or as the fault of a task that has ended. That of a poisoned lane reaches nobody (R298). -/
def Ctx.opFault (c : Ctx) (f : OpFault) : Ctx :=
  if c.lane.any (·.poisoned) then c
  else match c.life with
  | .ended _ => { c with life := .faulted f.cause }
  | .faulted _ => c
  | _ => { c with faults := c.faults ++ [f] }

/-- The position after RETI (R88): EPC, then DLEFT bundles counted from EPC, then the targets of DS. R25 lists 0 to 2 for
DS and DLEFT; a handler can write 3 (R334), and the spec does not say what RETI then does. DESIGN CHOICE (log 38): DS = 3
stands for two targets and DLEFT = 3 for two bundles. -/
def Frame.resume (f : Frame) : Pos :=
  let a : Target := ⟨f.edt0, true⟩
  let b : Target := ⟨f.edt1, true⟩
  let n := f.dleft.toNat
  let base : Pos := { pc := f.epc, entry := true, annul := if f.anul then min n 2 else 0 }
  if f.ds = 0 then base
  else if n ≤ 1 then { base with t1 := some a, t2 := if 2 ≤ f.ds.toNat then some b else none }
  else { base with t2 := some a, t3 := if 2 ≤ f.ds.toNat then some b else none }

/-- The wait that a captured WAITF or WAITC stands for (R107). -/
def SlotRec.waitFor (c : SlotRec) : WaitFor :=
  if slotOp c.word = 0 then .flag (fld c.word 12 4).toNat (immU 12 (fld c.word 0 12).toNat c.lits).toNat
  else .counters (fld c.word 12 4).toNat (fld c.word 8 4).toNat (fld c.word 4 4).toNat (fld c.word 0 4).toNat

def SlotRec.isWait (c : SlotRec) : Bool := decide (slotClass c.word = 11) && (slotOp c.word == 0 || slotOp c.word == 4)

/-- A result takes its place in the order of landing: before the first of its landing cycle that a later bundle has given
(R52). -/
def placeRes (r : Res) : List Res → List Res
  | [] => [r]
  | a :: l => if r.rem = a.rem ∧ r.seq < a.seq then r :: a :: l else a :: placeRes r l

/-- RETI's re-injection of the replay buffer (R333, R334), on a context whose other state already is that of the
return. -/
def Ctx.reinject (c : Ctx) (frozen : Bool) : Ctx :=
  let ents := c.replay.filter fun e => fld e.desc 0 4 != 0
  let res := (ents.filter fun e => fld e.desc 0 4 == 2).map fun e : REnt =>
    ({ rem := (fld e.desc 4 8).toNat, slot := (fld e.desc 28 3).toNat, pc := e.pc, fp := e.fp, ol := e.ol,
       await := e.await, frame := e.frame, seq := e.seq, pay := e.payload } : Res)
  let ops := ents.filter fun e => fld e.desc 0 4 == 4
  let waits := ops.filter fun e => e.why.isNone && e.toSlot.isWait
  let late := ops.filter fun e => e.why.isSome
  let again := ops.filter fun e => e.why.isNone && !e.toSlot.isWait
  let lateRes := late.filterMap fun e => e.pay.map fun p =>
    ({ rem := (fld e.desc 4 8).toNat, slot := (fld e.desc 28 3).toNat, pc := e.pc, fp := e.fp, ol := e.ol,
       await := e.await, seq := e.seq, pay := p } : Res)
  { c with
    inflight := lateRes.foldl (fun l r => placeRes r l) res ++ c.checks ++ c.inflight
    delayed := c.delayed ++ late.map fun e => ⟨e.toSlot, e.why.getD .range, e.await.getD 0, true, 0, [], e.org⟩
    wait := if frozen then waits.head?.map fun e => (e.toSlot.waitFor, e.toSlot) else none
    remake := again
    replay := []
    checks := []
    faults := if c.frame.pmode then c.faults else c.kept ++ c.faults
    kept := if c.frame.pmode then c.kept else [] }

/-- RETI (R88): the mode, the position and the results in flight of the frame. -/
def Ctx.reti (c : Ctx) : Ctx :=
  { c.reinject c.frame.frozen with
    frame := { c.frame with mode := c.frame.pmode, ie := true }
    pos := c.frame.resume }

end Sys2Proof.Machine
end

