-- ==== Sys2Proof/Machine/Flags.lean ====
section
/-! DEFINITION. Guards (R40), conditions and predicates (R97, R98), counting flags (R20, R102 to R106). -/

namespace Sys2Proof.Machine

/-- Whether a slot executes: the predicate of its window differs from the window's sense (R40). -/
def Regs.guard (r : Regs) (gd : BitVec 3) : Bool :=
  gd = 0 || (let w := rd r.win gd.toNat (0, false); r.getPred w.1.toNat != w.2)

/-- The conditions of CMP and CMPI (R97). -/
inductive Cc where
  | eq
  | ne
  | lt
  | le
  | ltu
  | leu
  deriving DecidableEq, Repr

def Cc.holds (k : Cc) (a b : Dword) : Bool :=
  match k with
  | .eq => a == b
  | .ne => a != b
  | .lt => a.slt b
  | .le => a.sle b
  | .ltu => a.ult b
  | .leu => a.ule b

/-- Whether CMPI extends its immediate with its sign (R63). -/
def Cc.signed : Cc → Bool
  | .ltu | .leu => false
  | _ => true

/-- POSTF and a signal of matching generation: the value plus a signed amount, modulo 2^32 (R103, R104). -/
def Flag.post (f : Flag) (k : BitVec 32) : Flag := { f with value := f.value + k }

/-- FINIT (R103). -/
def Flag.init (f : Flag) (v : BitVec 32) : Flag := { f with value := v, gen := f.gen + 1 }

/-- The flag word of R20. -/
def Flag.word (f : Flag) : Dword := 0#24 ++ f.gen ++ f.value

/-- The test of WAITF (R102). -/
def Flag.ready (f : Flag) (k : Nat) : Bool := (BitVec.ofNat 32 k).sle f.value

/-- The decrement of WAITF's success (R102). -/
def Flag.take (f : Flag) (k : Nat) : Flag := { f with value := f.value - BitVec.ofNat 32 k }

def Tile.flag (t : Tile) (n : Nat) : Flag := rd t.flags n {}
def Tile.putFlag (t : Tile) (n : Nat) (f : Flag) : Tile := { t with flags := wr t.flags n f }

/-- The test of WAITC (R105). -/
def Ctx.counted (c : Ctx) (l s o m : Nat) : Bool :=
  decide (c.ol.toNat ≤ l) && decide (c.os.toNat ≤ s) && decide (c.oc.toNat ≤ o) && decide (c.om.toNat ≤ m)

end Sys2Proof.Machine
end

