-- ==== Sys2Proof/Machine/Operands.lean ====
section
/-! DEFINITION. The execution of one slot of the bundle in progress: its guard (R41), its operands (R15, R37), what
it pushes (R27), and the causes it raises (R323). -/

namespace Sys2Proof.Machine

/-- An operand that a slot reads: file, code, whether it pops, how many successive entries (R37, R213). -/
structure Rd where
  vec : Bool
  code : Nat
  pop : Bool
  n : Nat
  deriving DecidableEq, Repr

/-- A scalar source field with its keep bit. -/
def srcS (f : BitVec 6) : Rd := ⟨false, f.toNat % 32, !bit f 5, 1⟩
/-- `n` successive entries of a scalar source. -/
def srcSn (f : BitVec 6) (n : Nat) : Rd := ⟨false, f.toNat % 32, !bit f 5, n⟩
/-- The B field of CMP: always popped (R97). -/
def srcB (f : BitVec 5) : Rd := ⟨false, f.toNat, true, 1⟩
def srcV (f : BitVec 6) : Rd := ⟨true, f.toNat % 32, !bit f 5, 1⟩
def srcVn (f : BitVec 6) (n : Nat) : Rd := ⟨true, f.toNat % 32, !bit f 5, n⟩
/-- The operand latch: popped by the latch forms of MAC (R162). -/
def srcLatch : Rd := ⟨true, 30, true, 1⟩
/-- The result queue that PUTR pops (R217). -/
def srcRq (q : BitVec 6) : Rd := ⟨true, 24 + q.toNat % 4, true, 1⟩

/-- The operand values of a slot: scalars, vectors, and all of them as words in the order they were read (R331). -/
structure Opnds where
  s : List Dword := []
  v : List Vec := []
  words : List Dword := []
  deriving DecidableEq, Repr

def Opnds.s0 (o : Opnds) : Dword := o.s.headD 0
def Opnds.s1 (o : Opnds) : Dword := o.s.getD 1 0
def Opnds.s2 (o : Opnds) : Dword := o.s.getD 2 0
def Opnds.v0 (o : Opnds) : Vec := o.v.headD 0
def Opnds.v1 (o : Opnds) : Vec := o.v.getD 1 0
def Opnds.v2 (o : Opnds) : Vec := o.v.getD 2 0

def Opnds.addS (o : Opnds) (l : List Dword) : Opnds := { o with s := o.s ++ l, words := o.words ++ l }
def Opnds.addV (o : Opnds) (l : List Vec) : Opnds := { o with v := o.v ++ l, words := o.words ++ l.flatMap vecWords }

/-- The entries a source reads; none when the queue is too short (R15). z and vz read zeros. -/
def Rd.read (r : Rd) (t : Tile) (cx : Cx) (o : Opnds) : Option Opnds :=
  if r.vec then
    if r.code = 31 then some (o.addV (List.replicate r.n 0))
    else
      let q := t.vqueue cx r.code
      if q.length < r.n then none else some (o.addV (q.take r.n))
  else
    if r.code = 31 then some (o.addS (List.replicate r.n 0))
    else
      let c := t.ctx cx
      let q := c.squeue (scalarCode c.frame.mode r.code)
      if q.length < r.n then none else some (o.addS (q.take r.n))

/-- All operands of a slot in order, or the first source that finds its queue short (R323). -/
def readAll (t : Tile) (cx : Cx) : List Rd → Opnds → Except Rd Opnds
  | [], o => .ok o
  | r :: rs, o =>
    match r.read t cx o with
    | none => .error r
    | some o => readAll t cx rs o

/-- The operands of a captured operation, from the words it had read (R32). -/
def fromWords : List Rd → List Dword → Opnds → Opnds
  | [], _, o => o
  | r :: rs, ws, o =>
    if r.vec then
      fromWords rs (ws.drop (32 * r.n)) (o.addV ((List.range r.n).map fun k => vecOfWords (ws.drop (32 * k))))
    else fromWords rs (ws.drop r.n) (o.addS (ws.take r.n))

/-- The pops that the sources make (R15): file, code and entries. -/
def popsOf (sup : Bool) (rs : List Rd) : List (Bool × Nat × Nat) :=
  (rs.filter fun r => r.pop && r.code != 31).map fun r =>
    (r.vec, if r.vec then r.code else scalarCode sup r.code, r.n)

def State.modIssue (s : State) (f : Issue → Issue) : State := { s with issue := s.issue.map f }

/-- The slot in hand: the head of the operations to be made again, or the next slot of the bundle. -/
def Issue.here (i : Issue) : SlotRec :=
  match i.remake with
  | e :: _ => e.toSlot
  | [] => { word := i.words.getD i.pos 0, lits := leadLits (i.words.drop (i.pos + 1)), slot := i.pos, pc := i.addr }

/-- The detail word of a queue found short (R330). -/
def Rd.info (r : Rd) (t : Tile) (cx : Cx) : Dword :=
  let code := if r.vec then r.code else scalarCode (t.ctx cx).frame.mode r.code
  queueInfo r.vec code (t.held cx r.vec code)

/-- A cause of the bundle itself, taken before it issues (R323). Its results have landed: the others come one position
later for the first resumed bundle. -/
def State.trapBefore (s : State) (t : Nat) (cx : Cx) (cause slot : Nat) (einfo : Dword) : State :=
  let c := s.ctx t cx
  { s.trap t cx cause slot einfo c.pos.pc [] (c.inflight.map fun r => { r with rem := r.rem + 1 }) with issue := none }

/-- The results that an operation made again has given beyond the first `n`, and the causes of SEGA or KVP that it has raised
beyond the first `m`, keep the remaining count `r` of their original landing, counted from the bundle they are made with; 0
stands for their full latency (R280, R333). -/
def State.keepRem (s : State) (n m r : Nat) : State :=
  if r = 0 then s
  else s.modIssue fun i => { i with
    out := i.out.take n ++ (i.out.drop n).map fun x => { x with rem := r - 1 }
    raised := i.raised.take m ++ (i.raised.drop m).map fun x => if x.rem = 0 then x else { x with rem := max 1 (r - 1) } }

/-- One slot of the bundle in progress, with its guard and its sources; `f` gives its effect from the slot and its
operands. Without a bundle in progress there is nothing to do. -/
def runSlot (gd : BitVec 3) (src : List Rd) (f : SlotRec → Opnds → State → State) (s : State) :
    Host.Outcome State Fault Refusal :=
  match s.issue with
  | none => .next s
  | some i =>
    let t := s.tile i.tile
    let h := i.here
    match i.remake with
    | e :: rest =>
      .next ((f h (fromWords src h.ops {}) { s with issue := some { i with remake := rest } }).keepRem i.out.length i.raised.length
        (fld e.desc 4 8).toNat)
    | [] =>
      let i' := { i with pos := i.pos + 1 }
      if i.annulled || !(t.ctx i.cx).regs.guard gd then .next { s with issue := some i' }
      else
        match readAll t i.cx src {} with
        | .error r => .next (s.trapBefore i.tile i.cx Cause.qund i.pos (r.info t i.cx))
        | .ok o =>
          .next (f { h with ops := o.words } o
            { s with issue := some { i' with pops := i.pops ++ popsOf (t.ctx i.cx).frame.mode src } })

/-- Tile and context of the bundle in progress. -/
def State.here (s : State) : Nat × Cx :=
  match s.issue with
  | some i => (i.tile, i.cx)
  | none => (0, .p)
def State.curTile (s : State) : Tile := s.tile s.here.1
def State.cur (s : State) : Ctx := s.ctx s.here.1 s.here.2
/-- om before the bundle in progress (R40, R93). -/
def State.omBefore (s : State) : BitVec 2 := (s.issue.map (·.om)).getD 0
def State.modCur (s : State) (f : Ctx → Ctx) : State := s.modCtx s.here.1 s.here.2 f
def State.modCurTile (s : State) (f : Tile → Tile) : State := s.modTile s.here.1 f

/-- A result of latency `l` (R27). -/
def State.push (s : State) (h : SlotRec) (l : Nat) (p : Payload) (fp : Fpst := 0) : State :=
  s.modIssue fun i => { i with out := i.out ++ [{ rem := l, slot := h.slot, pc := h.pc, fp := fp, pay := p }] }

/-- push_at into the scalar destination `d`; code 31 discards the result (R15). -/
def State.pushS (s : State) (h : SlotRec) (d : BitVec 6) (l : Nat) (v : Dword) : State :=
  if d.toNat % 32 = 31 then s else s.push h l (.scalar (scalarCode s.cur.frame.mode (d.toNat % 32)) v)

/-- push_at into the vector destination `d`, with the conditions its landing raises (R26). A discarded vector
still raises them. -/
def State.pushV (s : State) (h : SlotRec) (d : BitVec 6) (l : Nat) (v : Vec × Fpst) : State :=
  if d.toNat % 32 = 31 then (if v.2 = 0 then s else s.push h l .status v.2)
  else s.push h l (.vector (d.toNat % 32) v.1) v.2

/-- A cause raised at the slot (R323): the slot has no effect and is captured. -/
def State.raise (s : State) (h : SlotRec) (cause : Nat) (einfo : Dword) : State :=
  s.modIssue fun i => { i with raised := i.raised ++ [{ cause := cause, einfo := einfo, cap := h }] }

/-- SEGA or KVP escalated at the slot: the captured slot keeps the count of its landing (R280, R333). -/
def State.raiseLate (s : State) (h : SlotRec) (cause : Nat) (einfo : Dword) (rem : Nat) : State :=
  s.modIssue fun i => { i with raised := i.raised ++ [⟨cause, einfo, h, rem⟩] }

/-- An arithmetic immediate without sign, with its LIT extension (R42). -/
def SlotRec.immU (h : SlotRec) (w f : Nat) : Dword := Sys2Proof.immU w f h.lits
/-- An arithmetic immediate with sign, with its LIT extension (R42). -/
def SlotRec.immS (h : SlotRec) (w f : Nat) : Dword := Sys2Proof.immS w f h.lits

end Sys2Proof.Machine
end

