-- ==== Sys2Proof/Machine/Race.lean ====
section
/-! DEFINITION. Happens-before as vector clocks, the history of a line, and the race check (12 R254 to R265). -/

namespace Sys2Proof.Machine

/-- The highest tick of an agent that a clock has seen; 0 for none. -/
def clockGet (c : Clock) (a : Nat) : Nat := aget c a 0

/-- The union of two clocks. -/
def clockJoin (c d : Clock) : Clock := d.foldl (fun c x => if clockGet c x.1 < x.2 then aput c x.1 x.2 else c) c

/-- The agent number of a context (R256). -/
def agentOf (t : Nat) (cx : Cx) : Nat := 2 * t + cx.num + 1

/-- The place of an access among those of its context (R258): the bundle's G slot (`op` below 64), then its M slot. -/
def accessTick (bundle op : Nat) : Nat := 2 * bundle + (if 64 ≤ op then 1 else 0)

/-- A release (R258): what happened before the context's present bundle, and all of the bundle's own accesses. What they learn
joins it when the bundle has executed. -/
def Ctx.releases (c : Ctx) (t : Nat) (cx : Cx) : Clock := clockJoin c.clock [(agentOf t cx, accessTick c.tick 64)]

/-! ### Functions and ports (R261, R368, R372, R373) -/

/-- What a driver does reaches a partition that exists: the host port presents a function for no other (R368). -/
def State.atFunction (s : State) (p : Nat) (t : State) : State := if s.parts.any fun x => x.1 == p then t else s

def State.port (s : State) (n : Nat) : Port := rd s.ports n {}
def State.modPort (s : State) (n : Nat) (f : Port → Port) : State :=
  if bit s.caps 25 then { s with ports := wr s.ports n (f (s.port n)) } else s

/-- The 252 bytes of a flit before its CRC-32 (R372): the header and 244 bytes of payload, zeros after its last. -/
def flitBody (sq : BitVec 12) (data : List Byte) : List Byte :=
  natBytes 8 (Config.flitHeader sq.toNat data).toNat ++ (List.range 244).map fun k => data.getD k 0

/-- A flit of 256 bytes (R372). -/
def flit (sq : BitVec 12) (data : List Byte) : List Byte := flitBody sq data ++ natBytes 4 (Config.flitCrc (flitBody sq data)).toNat

/-- Whether bytes are a flit that passes its CRC (R372, R373), and its payload. -/
def flitOk (bs : List Byte) : Bool := decide (bs.length = 256) && bs.drop 252 == natBytes 4 (Config.flitCrc (bs.take 252)).toNat
def flitPayload (bs : List Byte) : List Byte := (bs.drop 8).take 244

/-- A flit goes out: it is numbered, and kept until it is acknowledged. -/
def Port.send (p : Port) (data : List Byte) : Port :=
  let f := (p.nextSend, flit p.nextSend data)
  { p with nextSend := p.nextSend + 1, replay := p.replay ++ [f], wire := p.wire ++ [f] }

/-- The flits of a list go out while the link is trained and fewer than 1024 are unacknowledged; the others wait. -/
def Port.fill (p : Port) : List (List Byte) → Port
  | [] => { p with waiting := [] }
  | d :: r => if p.trained && decide (p.replay.length < 1024) then (p.send d).fill r else { p with waiting := d :: r }

/-- Waiting flits go out as far as there is room. -/
def Port.pump (p : Port) : Port := p.fill p.waiting

/-- New flits come after those that wait. -/
def Port.queue (p : Port) (ds : List (List Byte)) : Port := Port.pump { p with waiting := p.waiting ++ ds }

/-- Traffic to another module leaves, with what happened before it (R261), over the port of its source tile and module. -/
def State.sendOut (s : State) (m : Sent) (k : Clock) : State :=
  State.modPort { s with sent := s.sent ++ [m], abroad := clockJoin s.abroad k } (Config.fabricPort m.src m.node % 8) fun p =>
    p.queue (Config.fabricFlits (m.op, m.src, m.node, m.tile, m.seg, m.off, m.flag, m.data))

/-- What an access of the bundle has learned: it comes before the bundles after it and before what the bundle releases
(R258). -/
def State.acquire (s : State) (k : Clock) : State := s.modIssue fun i => { i with acquire := clockJoin i.acquire k }

/-- Whether access `x` conflicts unordered with an access of `agent` at `clock` (R262, R263). -/
def Access.races (x : Access) (agent : Nat) (clock : Clock) (atomic : Bool) : Bool :=
  x.agent != agent && !(x.atomic && atomic) && !x.told && decide (clockGet clock x.agent < x.tick)

/-- An access as it enters a history: the agent, its clock and tick, whether it writes, whether it is a local
atomic. -/
structure Acc where
  agent : Nat
  tick : Nat
  clock : Clock
  write : Bool
  atomic : Bool := false
  deriving DecidableEq, Repr

/-- The clock of an access to a line: the publish that wrote the line happens before it (R258). -/
def LineHist.clock (l : LineHist) (a : Acc) : Clock := clockJoin a.clock (l.pub.getD [])

/-- Whether the access is a race with the line's history (R263). -/
def LineHist.race (l : LineHist) (a : Acc) : Bool :=
  let k := l.clock a
  (l.write.any fun x => x.races a.agent k a.atomic) ||
    a.write && l.reads.any fun x => x.races a.agent k a.atomic

/-- Marks the partners reported (R263). -/
def LineHist.tell (l : LineHist) (a : Acc) : LineHist :=
  let k := l.clock a
  let mark (x : Access) : Access := if x.races a.agent k a.atomic then { x with told := true } else x
  { l with write := l.write.map mark, reads := if a.write then l.reads.map mark else l.reads }

/-- The line with the access entered: the last write, and every read since it (R255). Of the reads of one agent the last in
its program order stands for all: who comes after it comes after the others. -/
def LineHist.add (l : LineHist) (a : Acc) : LineHist :=
  let x : Access := { agent := a.agent, tick := a.tick, atomic := a.atomic }
  if a.write then { l with write := some x, reads := [] }
  else if l.reads.any fun y => y.agent == a.agent && decide (a.tick < y.tick) && !y.told then l
  else { l with reads := x :: l.reads.filter fun y => y.agent != a.agent || decide (a.tick < y.tick) }

/-- The history of a line of a segment. -/
def Seg.line (g : Seg) (n : Nat) : LineHist := (g.hist.find? fun l => l.line == n).getD { line := n }

/-- The histories with one line replaced; the lines rise. -/
def putLine (x : LineHist) : List LineHist → List LineHist
  | [] => [x]
  | l :: r => if x.line < l.line then x :: l :: r else if l.line = x.line then x :: r else l :: putLine x r

/-- The lowest line at which the access races. -/
def Seg.race (g : Seg) (lines : List Nat) (a : Acc) : Option Nat :=
  (lines.filter fun n => (g.line n).race a).min?

/-- The segment with the access entered on its lines, and what the access now knows of earlier publishes (R258). -/
def Seg.enter (g : Seg) (lines : List Nat) (a : Acc) : Seg × Clock :=
  lines.foldl (fun (g, k) n =>
    let l := g.line n
    ({ g with hist := putLine ((l.tell a).add a) g.hist }, clockJoin k (l.pub.getD []))) (g, [])

/-- A clock with the publishes of the lines of one access, which is ordered after each of them as a whole (R258). -/
def Seg.publishers (g : Seg) (lines : List Nat) (k : Clock) : Clock :=
  lines.foldl (fun k n => clockJoin k ((g.line n).pub.getD [])) k

/-- Of two races of an operation, the one of the lower line (R264). -/
def lowerRace (a b : Option Dword) : Option Dword :=
  match a, b with
  | some x, some y => if (fld y 16 32).toNat < (fld x 16 32).toNat then b else a
  | _, _ => a.or b

/-- The publish step on lines (R258): a write of each, whose clock later accesses acquire; it is itself ordered after the
earlier publishes of these lines. -/
def Seg.published (g : Seg) (lines : List Nat) (a : Acc) : Seg :=
  let k := clockJoin (g.publishers lines a.clock) [(a.agent, a.tick)]
  lines.foldl (fun g n => { g with hist := putLine { (g.line n).add a with pub := some k } g.hist }) g

end Sys2Proof.Machine
end

