-- ==== Sys2Proof/Machine/Control.lean ====
section
/-! DEFINITION. Branches, loops, traps and guards (04 R76 to R92), transfers (R100, R101) and the flag and wait
instructions (R102 to R106). -/

namespace Sys2Proof.Machine

/-! ### Bundles in code memory -/

/-- The address of the bundle after the one at `a`: behind its first slot with S = 1, at most eight slots on
(R35). -/
def Memory.nextBundle (m : Memory) (a : Dword) : Dword :=
  a + BitVec.ofNat 64 (4 * (frameWords 8 (m.codeWords a 8)).length)

/-- Whether an address is a bundle start (R49): the word before it ends a bundle. The boundary word of a region is
such a word. -/
def Memory.bundleStart (m : Memory) (a : Dword) : Bool := fld a 0 2 = 0 && slotStop (m.codeWord (a - 4))

/-- The target at a distance in words from the bundle (R78, R82, R83). -/
def farWords (a off : Dword) : Dword := a + 4 * off

/-! ### Branches (R76 to R82) -/

/-- Whether the bundle in hand is a delay bundle of another taken branch (R81). -/
def State.inDelay (s : State) : Bool := let p := s.cur.pos; p.t1.isSome || p.t2.isSome || p.t3.isSome

/-- A taken branch (R76): its target onto position k + 3; the delay bundles annulled unless R81 applies. -/
def State.branch (s : State) (target : Dword) (chk annul : Bool) : State :=
  let d := s.inDelay
  s.modIssue fun i => { i with target := some ⟨target, chk⟩, annulNext := annul && !d }

def offTarget (i : BitVec 18) (h : SlotRec) : Dword := farWords h.pc (h.immS 18 i.toNat)

/-- BR (R78). -/
def execBr (gd : BitVec 3) (i : BitVec 18) (s : State) : Host.Outcome State Fault Refusal :=
  runSlot gd [] (fun h _ s => s.branch (offTarget i h) true false) s

/-- BR.nt annuls its delay bundles when it is taken (R78). -/
def execBrNt (gd : BitVec 3) (i : BitVec 18) (s : State) : Host.Outcome State Fault Refusal :=
  runSlot gd [] (fun h _ s => s.branch (offTarget i h) true true) s

/-- The one effect a slot has when its guard is false: BR.na annuls the delay bundles (R78, R81). -/
def State.annulNotTaken (s : State) (gd : BitVec 3) : State :=
  match s.issue with
  | none => s
  | some i =>
    if i.annulled || (s.ctx i.tile i.cx).regs.guard gd || s.inDelay || !i.remake.isEmpty then s
    else { s with issue := some { i with annulNext := true } }

/-- BR.na (R78). -/
def execBrNa (gd : BitVec 3) (i : BitVec 18) (s : State) : Host.Outcome State Fault Refusal :=
  runSlot gd [] (fun h _ s => s.branch (offTarget i h) true false) (s.annulNotTaken gd)

/-- BRI (R79). -/
def execBri (gd : BitVec 3) (a : BitVec 6) (s : State) : Host.Outcome State Fault Refusal :=
  runSlot gd [srcS a] (fun _ o s => s.branch o.s0 true false) s

/-- CALL (R82): its target is not checked against the loop sets (R77). -/
def execCall (gd : BitVec 3) (d : BitVec 6) (i : BitVec 12) (s : State) : Host.Outcome State Fault Refusal :=
  runSlot gd [] (fun h _ s =>
    let m := s.code
    (s.pushS h d 1 (m.nextBundle (m.nextBundle (m.nextBundle h.pc)))).branch
      (farWords h.pc (h.immS 12 i.toNat)) false false) s

/-! ### Loops (R83) -/

/-- The effect of LOOPn and LOOPIn with a count. -/
def State.loop (s : State) (n : Nat) (count : BitVec 32) (i : BitVec 12) (h : SlotRec) : State :=
  let le := farWords h.pc (h.immS 12 i.toNat)
  let s' := s.push h 1 (.loop n count (s.code.nextBundle h.pc) le s.cur.frame.mode)
  if count = 0 then s'.branch (s.code.nextBundle le) true true else s'

/-- LOOP0 (R83). -/
def execLoop0 (gd : BitVec 3) (a : BitVec 6) (i : BitVec 12) (s : State) : Host.Outcome State Fault Refusal :=
  runSlot gd [srcS a] (fun h o s => s.loop 0 (fld o.s0 0 32) i h) s

/-- LOOP1 (R83). -/
def execLoop1 (gd : BitVec 3) (a : BitVec 6) (i : BitVec 12) (s : State) : Host.Outcome State Fault Refusal :=
  runSlot gd [srcS a] (fun h o s => s.loop 1 (fld o.s0 0 32) i h) s

/-- LOOPI0 (R83). -/
def execLoopi0 (gd : BitVec 3) (c : BitVec 6) (i : BitVec 12) (s : State) : Host.Outcome State Fault Refusal :=
  runSlot gd [] (fun h _ s => s.loop 0 (c.setWidth 32) i h) s

/-- LOOPI1 (R83). -/
def execLoopi1 (gd : BitVec 3) (c : BitVec 6) (i : BitVec 12) (s : State) : Host.Outcome State Fault Refusal :=
  runSlot gd [] (fun h _ s => s.loop 1 (c.setWidth 32) i h) s

/-! ### END, TRAP, RETI, BRK, GMAP (R88 to R92) -/

/-- END takes the result word; its checks are made after every pop of the bundle (R91). -/
def execEndTask (gd : BitVec 3) (a : BitVec 6) (s : State) : Host.Outcome State Fault Refusal :=
  runSlot gd [srcS a] (fun h o s => s.modIssue fun i => { i with endWord := some (o.s0, h) }) s

/-- TRAP lets its bundle issue (R89). -/
def execTrap (gd : BitVec 3) (i : BitVec 12) (s : State) : Host.Outcome State Fault Refusal :=
  runSlot gd [] (fun h _ s => s.modIssue fun x => { x with trap := some (h.slot, h.immU 12 i.toNat) }) s

/-- RETI (R88): PRIV in user mode, EINFO.RETI set (R330). -/
def execReti (gd : BitVec 3) (s : State) : Host.Outcome State Fault Refusal :=
  runSlot gd [] (fun h _ s =>
    if s.cur.frame.mode then s.modIssue fun i => { i with reti := true } else s.raise h Cause.priv 4096) s

/-- BRK stops its bundle from issuing (R90). -/
def execBrk (gd : BitVec 3) (i : BitVec 12) (s : State) : Host.Outcome State Fault Refusal :=
  runSlot gd [] (fun h _ s =>
    if s.issue.isSome then s.trapBefore s.here.1 s.here.2 Cause.brk h.slot (h.immU 12 i.toNat) else s) s

/-- GMAP (R92). -/
def execGmap (gd : BitVec 3) (w : BitVec 3) (p : BitVec 7) (e : BitVec 1) (s : State) :
    Host.Outcome State Fault Refusal :=
  runSlot gd [] (fun h _ s => s.push h 1 (.window w.toNat p (e == 1))) s

/-! ### Transfers between the clusters (R100, R101) -/

/-- XBC (R100). -/
def execXbc (gd : BitVec 3) (d a : BitVec 6) (s : State) : Host.Outcome State Fault Refusal :=
  runSlot gd [srcS a] (fun h o s => s.pushV h d 3 (ofLanes fun _ => fld o.s0 0 32, 0)) s

/-- XINS pops vd always (R100). -/
def execXins (gd : BitVec 3) (d a i : BitVec 6) (s : State) : Host.Outcome State Fault Refusal :=
  runSlot gd [⟨true, d.toNat % 32, true, 1⟩, srcS a] (fun h o s =>
    s.pushV h d 3 (ofLanes fun k => if k = (h.immU 6 i.toNat).toNat then fld o.s0 0 32 else lane o.v0 k, 0)) s

/-- XMK (R100). -/
def execXmk (gd : BitVec 3) (d : BitVec 3) (a : BitVec 6) (s : State) : Host.Outcome State Fault Refusal :=
  runSlot gd [srcS a] (fun h o s => s.push h 3 (.mask d.toNat o.s0)) s

/-- XEXT (R101). -/
def execXext (gd : BitVec 3) (d a i : BitVec 6) (s : State) : Host.Outcome State Fault Refusal :=
  runSlot gd [srcV a] (fun h o s => s.pushS h d 3 ((lane o.v0 (h.immU 6 i.toNat).toNat).setWidth 64)) s

/-- XMS (R101). -/
def execXms (gd : BitVec 3) (d : BitVec 6) (a : BitVec 3) (s : State) : Host.Outcome State Fault Refusal :=
  runSlot gd [] (fun h _ s => s.pushS h d 3 (s.cur.regs.getMask a.toNat)) s

/-- The index of the lowest set bit, or 64 (R101). -/
def firstSet (m : Dword) : Dword := BitVec.ofNat 64 (((List.range 64).find? fun i => bit m i).getD 64)

/-- XFST (R101). -/
def execXfst (gd : BitVec 3) (d : BitVec 6) (a : BitVec 3) (s : State) : Host.Outcome State Fault Refusal :=
  runSlot gd [] (fun h _ s => s.pushS h d 3 (firstSet (s.cur.regs.getMask a.toNat))) s

/-! ### Flags and waits (R102 to R106) -/

/-- WAITF lets its bundle issue; the test is made then (R102). -/
def execWaitf (gd : BitVec 3) (f : BitVec 6) (i : BitVec 12) (s : State) : Host.Outcome State Fault Refusal :=
  runSlot gd [] (fun h _ s => s.modIssue fun x =>
    { x with wait := some (.flag f.toNat (h.immU 12 i.toNat).toNat, h) }) s

/-- A release of the present bundle on a flag (R259); it is kept, for what the bundle's accesses learn (R258). -/
def State.releaseFlag (s : State) (n : Nat) (f : Flag → Flag) : State :=
  let k := s.cur.releases s.here.1 s.here.2
  (s.modCurTile fun t => t.putFlag n (let x := f (t.flag n); { x with clock := clockJoin x.clock k })).modIssue fun i =>
    { i with posted := n :: i.posted }

/-- The flag is outside the window of the context's speculative lane (R297). -/
def State.flagOutside (s : State) (t : Nat) (cx : Cx) (f : Nat) : Bool :=
  match (s.ctx t cx).lane with
  | some l => l.spec && (match (s.part (s.partOf t)).loops.find? fun g => g.id == l.loop with
    | some g => !(decide (g.fbase ≤ f) && decide (f < g.fbase + g.fcnt))
    | none => false)
  | none => false

/-- POSTF and FINIT: SPECFX with WHY 3 outside the window (R103, R297). -/
def State.flagSlot (s : State) (h : SlotRec) (n : Nat) (f : Flag → Flag) : State :=
  if s.flagOutside s.here.1 s.here.2 n then
    s.raise h Cause.specfx (BitVec.ofNat 64 (3 * 256 + n % 16 * 2 ^ 16))
  else s.releaseFlag n f

/-- POSTF (R103). -/
def execPostf (gd : BitVec 3) (f : BitVec 6) (i : BitVec 12) (s : State) : Host.Outcome State Fault Refusal :=
  runSlot gd [] (fun h _ s => s.flagSlot h f.toNat (·.post (fld (h.immS 12 i.toNat) 0 32))) s

/-- FINIT (R103). -/
def execFinit (gd : BitVec 3) (f : BitVec 6) (i : BitVec 12) (s : State) : Host.Outcome State Fault Refusal :=
  runSlot gd [] (fun h _ s => s.flagSlot h f.toNat (·.init (fld (h.immS 12 i.toNat) 0 32))) s

/-- WAITC lets its bundle issue; the test is made then (R105). -/
def execWaitc (gd : BitVec 3) (l t c m : BitVec 4) (s : State) : Host.Outcome State Fault Refusal :=
  runSlot gd [] (fun h _ s => s.modIssue fun x =>
    { x with wait := some (.counters l.toNat t.toNat c.toNat m.toNat, h) }) s

/-- FRD (R106). -/
def execFrd (gd : BitVec 3) (d f : BitVec 6) (s : State) : Host.Outcome State Fault Refusal :=
  runSlot gd [] (fun h _ s => s.pushS h d 2 (s.curTile.flag (h.immU 6 f.toNat).toNat).word) s

/-- One test of a wait (R102, R105): on success the decrement and the acquire (R259), and whether it succeeded. -/
def State.testWait (s : State) (t : Nat) (cx : Cx) (w : WaitFor) : State × Bool × Clock :=
  match w with
  | .flag f k =>
    let x := (s.tile t).flag f
    if x.ready k then (s.modTile t (·.putFlag f (x.take k)), true, x.clock) else (s, false, [])
  | .counters l o c m => (s, (s.ctx t cx).counted l o c m, [])

end Sys2Proof.Machine
end

