-- ==== Sys2Proof/Machine/Segm.lean ====
section
/-! DEFINITION. Segments (11 R235 to R240), names (09 R199), core accesses (R200 to R208), binding and shadows
(R209 to R212). -/

namespace Sys2Proof.Machine

/-! ### The directory -/

def State.seg? (s : State) (p id : Nat) : Option Seg := (s.part p).dir.find? fun g => g.id == id && g.valid

/-- The entries with one replaced or entered; ids rise. -/
def putEntry (g : Seg) : List Seg → List Seg
  | [] => [g]
  | x :: r => if g.id < x.id then g :: x :: r else if x.id = g.id then g :: r else x :: putEntry g r

def State.putSeg (s : State) (p : Nat) (g : Seg) : State := s.modPart p fun x => { x with dir := putEntry g x.dir }
def State.modSeg (s : State) (p id : Nat) (f : Seg → Seg) : State :=
  s.modPart p fun x => { x with dir := x.dir.map fun g => if g.id = id then f g else g }
def State.dropSeg (s : State) (p id : Nat) : State :=
  s.modPart p fun x => { x with dir := x.dir.filter fun g => g.id != id }

/-- The lowest id from `k` on that no entry of a rising list has (R209). -/
def lowestFree : Nat → List Seg → Nat
  | k, [] => k
  | k, g :: r => if g.id = k then lowestFree (k + 1) r else if g.id < k then lowestFree k r else k

/-- The length in bytes (R235). -/
def Seg.bytesLen (g : Seg) : Nat := g.len * 256
/-- Not resident, so that a core access freezes (R199, R237). -/
def Seg.absent (g : Seg) : Bool := g.place != .resident || g.evict.isSome
/-- The charge in frames: twice the length while a shadow is open (R239). -/
def Seg.charge (g : Seg) : Nat := if g.shadow.isSome then 2 * g.len else g.len

/-! ### Frames and budgets (R238 to R240) -/

/-- The tile whose store holds the segment, if one does. -/
def Seg.holder (g : Seg) : Option Nat :=
  let t := g.evict.getD g.owner
  match g.place with
  | .resident => some t
  | .lateral => some (clusterOf t * 8 + g.host)
  | _ => none

/-- The move that a segment is on, with the tile whose channel makes it (R245). -/
def State.moveAt (s : State) (p id : Nat) : Option (Nat × Move) :=
  s.tiles.findSome? fun x => if s.partOf x.1 = p then (x.2.move.filter fun m => m.seg == id).map fun m => (x.1, m) else none
def State.moveOf (s : State) (p id : Nat) : Option Move := (s.moveAt p id).map (·.2)

/-- The store that a move on the channel of tile `t` takes its segment from. -/
def Move.source (m : Move) (t : Nat) (g : Seg) : Option Nat :=
  match m.was with
  | .resident => some t
  | .lateral => some (clusterOf t * 8 + g.host)
  | _ => none
/-- The store that a move on the channel of tile `t` brings its segment to. -/
def Move.target (m : Move) (t : Nat) : Option Nat :=
  match m.kind with
  | .lateral h => some (clusterOf t * 8 + h)
  | .recall | .compact => some t
  | .back => none

/-- Frames that a segment and its shadow occupy where they stand. -/
def Seg.frames (g : Seg) : List (Nat × Nat) := (g.base, g.len) :: (g.shadow.map fun h => (h.base, g.len)).toList

/-- Frames in use in a tile's store: first frame and length. A moving segment occupies those it leaves until its move is
applied, and those it goes to. -/
def State.occupied (s : State) (p t : Nat) : List (Nat × Nat) :=
  ((s.part p).dir.filter fun g => g.holder == some t).flatMap (·.frames)
  ++ (s.tiles.flatMap fun x => match x.2.move with
    | some m => if s.partOf x.1 ≠ p then [] else match s.seg? p m.seg with
      | some g => (if m.source x.1 g = some t then g.frames else []) ++ (if m.target x.1 = some t then [(m.base, g.charge)] else [])
      | none => []
    | none => [])

/-- Whether the frames from `b` on, `n` of them, are free. -/
def runFree (occ : List (Nat × Nat)) (b n : Nat) : Bool :=
  decide (b + n ≤ Config.frames) && occ.all fun x => decide (b + n ≤ x.1) || decide (x.1 + x.2 ≤ b)

/-- The lowest run of `n` free frames. -/
def freeRun (occ : List (Nat × Nat)) (n : Nat) : Option Nat :=
  ((0 :: occ.map fun x => x.1 + x.2).filter fun b => runFree occ b n).min?

/-- The residency group of a context's task: its launch record (R239). -/
def State.groupOf (s : State) (t : Nat) (cx : Cx) : Option Nat :=
  (s.ctx t cx).task.bind fun k => ((s.part (s.partOf t)).tasks.find? fun x => x.id == k).map (·.launch)

/-- The budget of a group on a tile, in frames; 0 without a group. -/
def State.budget (s : State) (t : Nat) (grp : Option Nat) : Nat :=
  match grp with
  | none => 0
  | some l => (((s.tile t).groups.find? fun g => g.launch == l).map (·.kib)).getD 0 * 4

/-- A segment that is resident in its owner's store or moving into or out of it: no guest, nor on its way from the store
of an earlier owner (R239). -/
def State.inStore (s : State) (p : Nat) (g : Seg) : Bool :=
  g.evict.isNone && (match g.place with
    | .resident => true
    | .moving => (s.moveOf p g.id).any fun m => m.was == .resident || m.kind == .recall
    | _ => false)

/-- The use of a group on a tile (R239), in frames. -/
def State.use (s : State) (p t : Nat) (grp : Option Nat) : Nat :=
  (((s.part p).dir.filter fun g => g.group == grp && grp.isSome && g.owner == t && s.inStore p g).map (·.charge)).sum

/-- A guest of a tile's store (R240): a segment that lies there for another tile, is on its way there, or is moved
within it. -/
def State.guestOf (s : State) (p t : Nat) (g : Seg) : Bool :=
  match g.place with
  | .lateral => g.holder == some t
  | .moving => (s.moveAt p g.id).any fun x => x.2.kind != .recall && x.2.target x.1 == some t && (x.1 != t || x.2.was == .lateral)
  | _ => false

/-- A tile's spare in frames (R240), by budgets and guests. -/
def State.spare (s : State) (p t : Nat) : Int :=
  (Config.frames : Int) - ((s.tile t).groups.map (·.kib)).sum * 4 -
    (((s.part p).dir.filter (s.guestOf p t)).map (·.charge)).sum

/-! ### GDDR-7 as the masters of a partition reach it (R355) -/

/-- Whether the range table admits an access of the partition's masters (R355). -/
def State.admits (s : State) (p a n : Nat) : Bool :=
  decide ((s.part p).lo ≤ a) && decide (a + n ≤ (s.part p).lo + (s.part p).len)

/-- Requests of a walker at the given addresses: those refused are logged (R355). -/
def State.logReads (s : State) (p : Nat) (as : List Nat) : State :=
  as.foldl (fun s a => if s.admits p a 8 then s else s.logEvent 0x355 a) s

/-- A word that a walker or the dispatch complex reads: those of the partition's range are admitted (R355, log 28). -/
def State.partWord (s : State) (p a : Nat) : Dword := if s.admits p a 8 then s.gddr.dword a else Config.refusedWord a

/-- Bytes that a master of the partition reads: those of its range are admitted (R355, log 28). -/
def State.partBytes (s : State) (p a n : Nat) : List Byte :=
  if s.admits p a n then s.gddr.bytes a n
  else (List.range n).map fun k => if s.admits p (a + k) 1 then s.gddr.read (a + k) else (Config.refusedWord (a + k)).setWidth 8

/-- A write of a master of the partition: it is made, or refused and logged (R355). -/
def State.partStore (s : State) (p a : Nat) (bs : List Byte) : State :=
  if s.admits p a bs.length then { s with gddr := s.gddr.store a bs } else s.logEvent 0x355 a

/-! ### The directory's entries in GDDR-7 (R235, R236) -/

/-- STATE of a descriptor word (R211, R235). -/
def Seg.stateCode (x : Seg) : Nat :=
  if x.evict.isSome then 3
  else match x.place with
    | .resident => 0
    | .lateral => 1
    | .backed => 2
    | .moving => 3

/-- The words of an entry (R235). -/
def Seg.words (g : Seg) : List Dword :=
  [BitVec.ofNat 64 (g.id % 2 ^ 32 + g.len % 2 ^ 15 * 2 ^ 32 + g.fmt % 16 * 2 ^ 47 + b2n g.swz * 2 ^ 51 + g.stateCode * 2 ^ 52 +
     b2n g.valid * 2 ^ 54 + b2n g.zero * 2 ^ 55 + g.pins % 256 * 2 ^ 56),
   BitVec.ofNat 64 (g.base % 2 ^ 15 + g.owner % 2 ^ 11 * 2 ^ 16 + b2n g.owned * 2 ^ 27 + g.host % 8 * 2 ^ 28),
   BitVec.ofNat 64 (g.back % 2 ^ 30 + ((g.shadow.map (·.id)).getD 0) % 2 ^ 32 * 2 ^ 32),
   BitVec.ofNat 64 g.touch]

/-- The address of an entry, and word `k` of it as it stands in GDDR-7. -/
def Part.entryAddr (x : Part) (id : Nat) : Nat := x.dirBase + 32 * id
def State.entryWord (s : State) (p id k : Nat) : Dword := s.partWord p ((s.part p).entryAddr id + 8 * k)

/-- The controller writes an entry back (R236); a replica has none (R295). -/
def State.writeEntry (s : State) (p : Nat) (g : Seg) : State :=
  if g.live.isSome || (s.part p).dirSize < g.id then s
  else s.partStore p ((s.part p).entryAddr g.id) (g.words.flatMap fun w => natBytes 8 w.toNat)

/-- The address of a segment's backing location (R235). -/
def Part.backAddr (x : Part) (g : Seg) : Nat := x.backBase + 256 * g.back

/-- The segment that an entry describes as system software has written it (R236): backed, with the contents of its
backing location, or zeros while ZERO = 1. What the hardware writes stays as `old` has it. -/
def State.readEntry (s : State) (p id : Nat) (old : Option Seg) : Seg :=
  let w := s.entryWord p id 0
  let g : Seg := old.getD { id := id, len := 0 }
  let g := { g with len := (fld w 32 15).toNat, fmt := (fld w 47 4).toNat, swz := bit w 51, zero := bit w 55
                    back := (fld (s.entryWord p id 2) 0 30).toNat }
  if g.place = .backed then
    { g with bytes := if g.zero then [] else Memory.store [] 0 (s.partBytes p ((s.part p).backAddr g) g.bytesLen) }
  else g

/-- System software has written an entry (R236): it creates, changes or removes a segment with OWNED = 0, and has no
effect on one with OWNED = 1. -/
def State.hostEntry (s : State) (p id : Nat) : State :=
  let old := (s.part p).dir.find? fun g => g.id == id
  if old.any (·.owned) then s
  else if bit (s.entryWord p id 0) 54 then s.putSeg p { s.readEntry p id old with valid := true }
  else s.dropSeg p id

/-- System software has written the bytes from `a` on, `n` of them, of the GDDR-7 range: entries there are read again, and
backed segments hold what their backing locations hold (R236, R237). -/
def State.hostWrote (s : State) (p a n : Nat) : State :=
  let x := s.part p
  let ids := ((List.range x.dirSize).map (· + 1)).filter fun i => decide (x.entryAddr i < a + n) && decide (a < x.entryAddr i + 32)
  let s := ids.foldl (fun s i => s.hostEntry p i) s
  s.modPart p fun x => { x with dir := x.dir.map fun g =>
    if g.place = .backed ∧ g.zero = false ∧ g.live = none ∧ x.backAddr g < a + n ∧ a < x.backAddr g + g.bytesLen then
      { g with bytes := Memory.store [] 0 (s.partBytes p (x.backAddr g) g.bytesLen) }
    else g }

/-- The backing copy of a segment is written (R237). -/
def State.writeBack (s : State) (p : Nat) (g : Seg) : State :=
  if g.live.isSome then s else s.partStore p ((s.part p).backAddr g) (g.bytes.bytes 0 g.bytesLen)

/-- The segment with bytes that an agent has written outside its tile's store: those of a backed one go to its backing
location, which is then written (R237). -/
def State.putBytes (s : State) (p : Nat) (g : Seg) : State :=
  if g.place = .backed then State.writeBack (s.putSeg p { g with zero := false }) p g else s.putSeg p g

/-! ### Names (R199, R325) -/

/-- The detail word of R204. -/
def segInfo (name why off : Nat) (byId : Bool := false) (pword : Nat := 0) : Dword :=
  BitVec.ofNat 64 ((if byId then 64 else name % 64) + why % 16 * 256 + pword % 16 * 4096 + off % 2 ^ 32 * 65536)

/-- The segment id that a name binds for a context; supervisor code reaches the tile monitor's g60 to g63. -/
def State.binding (s : State) (t : Nat) (cx : Cx) (g : Nat) : Option Nat :=
  let c := s.ctx t cx
  ((if c.frame.mode && decide (60 ≤ g) then rd (s.tile t).monitor (g - 60) none else rd c.regs.segmap g none)).map (·.toNat)

def State.setBinding (s : State) (t : Nat) (cx : Cx) (g : Nat) (b : Option Nat) : State :=
  let v := b.map (BitVec.ofNat 32)
  if (s.ctx t cx).frame.mode && decide (60 ≤ g) then s.modTile t fun x => { x with monitor := wr x.monitor (g - 60) v }
  else s.modCtx t cx (·.mapRegs fun r => { r with segmap := wr r.segmap g v })

/-- The map as it stood before the bundle, for an E or M slot (R199). -/
def State.bindingBefore (s : State) (t : Nat) (cx : Cx) (g : Nat) : Option Nat :=
  match s.issue.bind (·.rebound) with
  | some (n, b) => if n = g then b.map (·.toNat) else s.binding t cx g
  | none => s.binding t cx g

/-- Whether any name on a tile binds the segment (R209). -/
def State.named (s : State) (t id : Nat) : Bool :=
  let x := s.tile t
  let has (l : List (Option (BitVec 32))) : Bool := l.any fun b => b.map (·.toNat) == some id
  has x.p.regs.segmap.toList || has x.s.regs.segmap.toList || has x.monitor.toList

/-! ### The range scoreboard (R202) -/

/-- Operations whose pending range overlaps one of the byte ranges: direct writes, and for writes also copy
sources. -/
def Tile.pending (t : Tile) (seg : Nat) (rs : List (Nat × Nat)) (write : Bool) : List Nat :=
  (t.ranges.filter fun r => r.seg == seg && (r.dest || write) &&
    rs.any fun x => decide (x.1 < r.hi) && decide (r.lo < x.1 + x.2)).map (·.op)

/-! ### Core accesses (R199 to R208) -/

/-- A core access in hand: its operation (the opcode of class G; 64 MWL, 65 MGA), its name, its immediate (of MWL the
row), its slot, its operands, and what it keeps from its issue. -/
structure GOp where
  op : Nat
  name : Nat
  imm : Dword
  h : SlotRec
  o : Opnds
  org : Origin := {}
  deriving DecidableEq, Repr

/-- Bytes that an access reads and writes, and its view (R200, R203). -/
structure Touch where
  reads : List (Nat × Nat) := []
  writes : List (Nat × Nat) := []
  swz : Bool := false
  atomic : Bool := false
  deriving DecidableEq, Repr

def Touch.all (x : Touch) : List (Nat × Nat) := x.reads ++ x.writes

/-- A number entered into a rising list without repeats. -/
def insertNat (n : Nat) : List Nat → List Nat
  | [] => [n]
  | a :: r => if n < a then n :: a :: r else if n = a then a :: r else a :: insertNat n r
/-- The numbers of a list, rising, without repeats. -/
def sortNat (l : List Nat) : List Nat := l.foldl (fun acc n => insertNat n acc) []

/-- The 64-byte lines of byte ranges, rising, without repeats. -/
def linesOf (rs : List (Nat × Nat)) : List Nat :=
  let ls := rs.flatMap fun x => if x.2 = 0 then [] else (List.range ((x.1 + x.2 - 1) / 64 + 1 - x.1 / 64)).map (x.1 / 64 + ·)
  sortNat ls

/-- Where the parts of an N4Q block lie (R118): header, scale byte, element bytes. -/
def n4qAt (e : Nat) : Nat × Nat × Nat :=
  let base := 8464 * (e / 16384)
  let j := e % 16384 / 64
  (base, base + 16 + j, base + 272 + 32 * j)

/-- A format matches when it is raw or the one named (R159, R161, R214). -/
def fmtMatch (f g : Nat) : Bool := f == 0 || g == 0 || f == g

/-- The effective offset (R199). -/
def GOp.eo (x : GOp) : Nat := (x.o.s0 + x.imm).toNat

/-- Bytes that a scalar form moves (R205, R208). -/
def gSize : Nat → Nat
  | 0 | 1 | 16 => 1
  | 2 | 3 | 17 => 2
  | 4 | 5 | 18 | 24 | 26 | 27 => 4
  | _ => 8

/-- The first failing check of R384 on ranges that must be aligned to `al`: WHY and the offset. -/
def rangeWhy (len al : Nat) (rs : List (Nat × Nat)) : Option (Nat × Nat) :=
  match rs.find? fun x => x.1 % al != 0 with
  | some x => some (2, x.1)
  | none => (rs.find? fun x => decide (len < x.1 + x.2)).map fun x => (1, x.1)

/-- The check of N4Q blocks: element offsets that are multiples of 64, and whole blocks inside the segment. -/
def n4qWhy (len : Nat) (es : List Nat) : Option (Nat × Nat) :=
  match es.find? fun e => e % 64 != 0 with
  | some e => some (2, e)
  | none =>
    match es.find? fun e => decide (len < (n4qAt e).2.1 + 1) with
    | some e => some (1, e)
    | none => (es.find? fun e => decide (len < (n4qAt e).2.2 + 32)).map fun e => (3, e)

/-- Lanes of a gathered or scattered access with their offsets (R207). -/
def laneOffs (sel : Dword) (base : Dword) (v : Vec) : List (Nat × Nat) :=
  ((List.range 64).filter fun i => bit sel i).map fun i => (i, (base + (lane v i).setWidth 64).toNat)

/-- The array mode, activation format and weight format of a BMODE word (R154, R156): codes not listed act as 0. -/
def bmodeOf (w : Dword) : Nat × Nat × Nat :=
  let m := (fld w 0 2).toNat
  let a := (fld w 2 2).toNat
  let f := (fld w 4 2).toNat
  let cap (n x : Nat) : Nat := if n < x then 0 else x
  match m with
  | 0 => (0, cap 2 a, cap 2 f)
  | 1 => (1, cap 2 a, 0)
  | 2 => (2, cap 1 a, cap 1 f)
  | _ => (3, 0, 0)

/-- BMODE of a context. -/
def Regs.bmode (r : Regs) : Nat × Nat × Nat := bmodeOf (rd r.me 0 0)

/-- The segment format that a number format of BMODE corresponds to (R159, R161, R209). -/
def bmodeFmt (m f : Nat) : Nat :=
  match m with
  | 0 | 1 => if f = 0 then 1 else if f = 1 then 6 else 7
  | 2 => if f = 0 then 5 else 4
  | _ => 3

/-- Rows that an MGA gathers: lane and address (R161). -/
def mgaRows (base : Dword) (stride : Nat) (v : Vec) : List (Nat × Nat) :=
  ((List.range 8).takeWhile fun j => !bit (lane v j) 31).map fun j => (j, base.toNat + (lane v j).toNat * stride)

/-- What an access touches, or the cause and detail that its checks of format, alignment and bounds give (R200,
R206, R207, R159, R161, R384). R172 gives the FMT of an MGA a lane, and no lane disagrees where the segment's format does:
the model reports lane 0 (DESIGN CHOICE, log 39). -/
def GOp.touch (x : GOp) (g : Seg) : Except (Nat × Dword) Touch :=
  let len := g.bytesLen
  let sel := x.org.lanes
  let e := x.eo
  let fmtErr : Except (Nat × Dword) Touch := .error (Cause.fmt, segInfo x.name 2 e)
  let chk (y : Option (Nat × Nat)) (z : Touch) : Except (Nat × Dword) Touch :=
    match y with
    | some w => .error (Cause.segb, segInfo x.name w.1 w.2)
    | none => .ok z
  let n := gSize x.op
  match x.op with
  | 0 | 1 | 2 | 3 | 4 | 5 | 6 => chk (rangeWhy len n [(e, n)]) { reads := [(e, n)] }
  | 16 | 17 | 18 | 19 => chk (rangeWhy len n [(e, n)]) { writes := [(e, n)] }
  | 24 | 25 | 26 | 27 | 28 | 29 =>
    chk (rangeWhy len n [(e, n)]) { reads := [(e, n)], writes := [(e, n)], atomic := true }
  | 8 =>
    if g.fmt = 8 then
      let a := n4qAt e
      chk (n4qWhy len [e]) { reads := [(a.1, 16), (a.2.1, 1), (a.2.2, 32)] }
    else chk (rangeWhy len 4 [(e, 256)]) { reads := [(e, 256)] }
  | 9 => if g.fmt = 8 then fmtErr else chk (rangeWhy len 256 [(e, 256)]) { reads := [(e, 256)], swz := true }
  | 20 =>
    if g.fmt = 8 then
      let a := n4qAt e
      chk (n4qWhy len [e]) { reads := [(a.1, 16)], writes := [(a.2.1, 1), (a.2.2, 32)] }
    else chk (rangeWhy len 4 [(e, 256)]) { writes := [(e, 256)] }
  | 21 => if g.fmt = 8 then fmtErr else chk (rangeWhy len 256 [(e, 256)]) { writes := [(e, 256)], swz := true }
  | 22 =>
    if g.fmt = 8 then fmtErr
    else
      let rs := ((List.range 64).filter fun i => bit sel i).map fun i => (e + 4 * i, 4)
      if rs.isEmpty then .ok {}
      else chk (if e % 4 ≠ 0 then some (2, e) else rangeWhy len 4 rs) { writes := rs }
  | 10 =>
    if g.fmt = 8 then fmtErr
    else
      let rs := (laneOffs sel x.o.s0 x.o.v0).map fun y => (y.2, 4)
      chk (rangeWhy len 4 rs) { reads := rs }
  | 23 =>
    if g.fmt = 8 then fmtErr
    else
      let rs := (laneOffs sel x.o.s0 x.o.v0).map fun y => (y.2, 4)
      chk (rangeWhy len 4 rs) { writes := rs }
  | 64 =>
    let (m, _, wf) := bmodeOf x.org.bmode
    let row := (fld x.imm 0 6).toNat
    let bad : Except (Nat × Dword) Touch := .error (Cause.fmt, BitVec.ofNat 64 (row + 64))
    let a := x.o.s0.toNat
    if m = 1 then
      if g.fmt ≠ 8 then bad
      else
        let y := n4qAt a
        let z := n4qAt (a + 64)
        chk ((n4qWhy len [a, a + 64]).map fun w => (w.1, a))
          { reads := [(y.1, 16), (z.1, 16), (y.2.1, 1), (z.2.1, 1), (y.2.2, 32), (z.2.2, 32)], swz := g.swz }
    else if !fmtMatch g.fmt (bmodeFmt m wf) then bad
    else chk (rangeWhy len (if g.swz then 64 else 4) [(a, 64)]) { reads := [(a, 64)], swz := g.swz }
  | 65 =>
    let (m, af, _) := bmodeOf x.org.bmode
    let rb := if m = 1 then 128 else 64
    let rows := (mgaRows x.o.s0 (fld x.org.stride 0 32).toNat x.o.v0).map fun y => (y.2, rb)
    if !fmtMatch g.fmt (bmodeFmt m af) then .error (Cause.fmt, 64)
    else chk (rangeWhy len (if g.swz then 64 else 4) rows) { reads := rows, swz := g.swz }
  | _ => .ok {}

/-- The bytes of a segment as a little-endian number. -/
def Seg.nat (g : Seg) (a n : Nat) : Nat := g.bytes.nat a n

/-- The two codes of each byte of an N4Q block, element 0 first (R118). -/
def nibbles (bs : List Byte) : List Nat := bs.flatMap fun b => [b.toNat % 16, b.toNat / 16]

/-- The 64 decoded FP32 values of a block (R119). -/
def Seg.n4qBlock (g : Seg) (e : Nat) : List (Nat × Fpst) :=
  let a := n4qAt e
  let sc := g.nat a.1 4
  let c := g.nat a.2.1 1
  (nibbles (g.bytes.bytes a.2.2 32)).map fun n => n4qDecode sc c n

/-- Pairs of codes as bytes. -/
def packNibbles : List Nat → List Byte
  | a :: b :: r => BitVec.ofNat 8 (a % 16 + b % 16 * 16) :: packNibbles r
  | [a] => [BitVec.ofNat 8 (a % 16)]
  | [] => []

/-- The new value of a local atomic (R208). -/
def atomicNew (op : Nat) (old : Nat) (d e : Dword) : Nat :=
  let o := BitVec.ofNat 32 old
  let w := fld d 0 32
  match op with
  | 24 => (o + w).toNat
  | 25 => (BitVec.ofNat 64 old + d).toNat
  | 26 => (if o.sle w then o else w).toNat
  | 27 => (if o.sle w then w else o).toNat
  | 28 => d.toNat
  | _ => if BitVec.ofNat 64 old = d then e.toNat else old

/-- A loaded number, extended as its form says (R205). -/
def loadExt (op x : Nat) : Dword :=
  match op with
  | 0 => (BitVec.ofNat 8 x).signExtend 64
  | 2 => (BitVec.ofNat 16 x).signExtend 64
  | 4 => (BitVec.ofNat 32 x).signExtend 64
  | _ => BitVec.ofNat 64 x

/-- The effect of an access on the segment's bytes, and what it delivers with its sticky status (R205 to R208, R159,
R161). A store that is not in the form of R206 writes the bytes it is given, those of an n4q header included: that R118
has every write of a header write bytes 4 to 15 as zero is taken of those who write headers as headers (DEDUCED,
log 40). -/
def GOp.act (x : GOp) (g : Seg) : Memory × Option (Payload × Fpst) :=
  let sel := x.org.lanes
  let idle := x.org.plane
  let e := x.eo
  let n := gSize x.op
  match x.op with
  | 0 | 1 | 2 | 3 | 4 | 5 | 6 => (g.bytes, some (.scalar 28 (loadExt x.op (g.nat e n)), 0))
  | 16 | 17 | 18 | 19 => (g.bytes.storeNat e n x.o.s1.toNat, none)
  | 24 | 25 | 26 | 27 | 28 | 29 =>
    let old := g.nat e n
    (g.bytes.storeNat e n (atomicNew x.op old x.o.s1 x.o.s2),
      some (.scalar 28 (if n = 4 then (BitVec.ofNat 32 old).signExtend 64 else BitVec.ofNat 64 old), 0))
  | 8 =>
    if g.fmt = 8 then
      let l := g.n4qBlock e
      let v := ofLanesFs fun i => l.getD i (0, 0)
      (g.bytes, some (.vector 28 v.1, v.2))
    else (g.bytes, some (.vector 28 (BitVec.ofNat 2048 (g.nat e 256)), 0))
  | 9 => (g.bytes, some (.vector 28 (BitVec.ofNat 2048 (g.nat e 256)), 0))
  | 20 =>
    if g.fmt = 8 then
      let a := n4qAt e
      let z := n4qEncode (g.nat a.1 4) ((List.range 64).map fun i => (lane x.o.v0 i).toNat)
      ((g.bytes.storeNat a.2.1 1 z.1).store a.2.2 (packNibbles z.2.1), if z.2.2 = 0 then none else some (.status, z.2.2))
    else (g.bytes.storeNat e 256 x.o.v0.toNat, none)
  | 21 => (g.bytes.storeNat e 256 x.o.v0.toNat, none)
  | 22 => (((List.range 64).filter fun i => bit sel i).foldl
      (fun m i => m.storeNat (e + 4 * i) 4 (lane x.o.v0 i).toNat) g.bytes, none)
  | 10 =>
    let offs := laneOffs sel x.o.s0 x.o.v0
    (g.bytes, some (.vector 28 (ofLanes fun i => match offs.find? fun y => y.1 == i with
      | some y => BitVec.ofNat 32 (g.nat y.2 4)
      | none => 0), 0))
  | 23 => ((laneOffs sel x.o.s0 x.o.v0).foldl (fun m y => m.storeNat y.2 4 (lane x.o.v1 y.1).toNat) g.bytes, none)
  | 64 =>
    let (m, _, wf) := bmodeOf x.org.bmode
    let row := (fld x.imm 0 6).toNat
    let a := x.o.s0.toNat
    if m = 1 then
      let l := g.n4qBlock a ++ g.n4qBlock (a + 64)
      (g.bytes, some (.weight idle row 4 (l.map fun y => BitVec.ofNat 32 y.1), l.foldl (fun f y => f ||| y.2) 0))
    else
      let tag := if m = 0 then 1 + wf else if m = 2 then 5 + wf else 7
      (g.bytes, some (.weight idle row tag ((List.range 16).map fun k => BitVec.ofNat 32 (g.nat (a + 4 * k) 4)), 0))
  | 65 =>
    let rb := if (bmodeOf x.org.bmode).1 = 1 then 128 else 64
    let rows := mgaRows x.o.s0 (fld x.org.stride 0 32).toNat x.o.v0
    (g.bytes, some (.latch (rows.map fun y => BitVec.ofNat 2048 (g.nat y.2 rb)), 0))
  | _ => (g.bytes, none)

/-- The first line that a read meets marked with the other view (R203). -/
def Seg.viewClash (g : Seg) (lines : List Nat) (swz : Bool) : Option Nat :=
  lines.find? fun n => g.marks.any fun m => m.1 == n && m.2 != swz

/-- The reads of engines and of sequence operations join their lines themselves (R203). -/
def Seg.joinLines (g : Seg) (lines : List Nat) : Seg := { g with marks := g.marks.filter fun m => !lines.contains m.1 }

/-- Lines marked with the view of a write (R203). -/
def Seg.mark (g : Seg) (lines : List Nat) (swz : Bool) : Seg :=
  { g with marks := g.marks.filter (fun m => !lines.contains m.1) ++ lines.map fun n => (n, swz) }

/-- What a context knows from now on (R258): with its bundle, or at once for an access made later. -/
def State.learn (s : State) (t : Nat) (cx : Cx) (k : Clock) : State :=
  match s.issue with
  | some _ => s.acquire k
  | none => s.modCtx t cx fun c => { c with clock := clockJoin c.clock k }

/-- An access that counts in os (R18). -/
def gStores (op : Nat) : Bool := decide (16 ≤ op) && decide (op < 30)

/-- A store or atomic of bundle `tick` that has been made retires a free time later (R201, log 9); until then its lines
are kept for the marks of a VJOIN (R203). -/
def State.willRetire (s : State) (t : Nat) (cx : Cx) (tick id : Nat) (lines : List Nat) (swz : Bool) : State :=
  let (d, s) := s.duration
  let s := s.modCtx t cx fun c => { c with stores := c.stores ++ [(s.now + 1 + d, tick)] }
  s.modSeg (s.partOf t) id fun g =>
    { g with unretired := g.unretired ++ [⟨agentOf t cx, s.now + 1 + d, tick, lines, swz, false⟩] }

/-- A core write retires (R201, R203): where the other context's VJOIN has come since it was made, the write marks those
of its lines that no later write has marked. -/
def Seg.retire (g : Seg) (agent : Nat) (x : Nat × Nat) : Seg :=
  match g.unretired.find? fun u => u.agent == agent && u.due == x.1 && u.tick == x.2 with
  | none => g
  | some u =>
    let g := { g with unretired := g.unretired.erase u }
    if u.joined then g.mark (u.lines.filter fun n => !g.marks.any fun m => m.1 == n) u.swz else g

/-- The access is made (R201): the race check and its entry in the history, the view check, the effect; a write then
waits for its retirement. It is ordered as an access of its own bundle, whenever it is made (R258); a local atomic comes after
the one before it on its word (R260), and releases all accesses of its bundle. -/
def State.gMake (s : State) (t : Nat) (cx : Cx) (x : GOp) (after : Clock) :
    State × Except (Nat × Dword) (Option (Payload × Fpst)) :=
  let p := s.partOf t
  let id := x.org.seg
  match s.seg? p id with
  | none => (s, .error (Cause.segu, segInfo x.name 1 0))
  | some g =>
    if g.absent && g.lost != 0 then (s, .error (Cause.sega, segInfo 0 g.lost id true)) else
    match x.touch g with
    | .error e => (s, .error e)
    | .ok w =>
      let rl := linesOf w.reads
      let wl := linesOf w.writes
      let word := x.eo / 8
      let prior := if w.atomic then aget g.atoms word [] else []
      let know := g.publishers (rl ++ wl) (clockJoin after (s.tile t).handover)
      let clock := clockJoin (clockJoin x.org.clock know) prior
      let a : Acc := { agent := agentOf t cx, tick := accessTick x.org.tick x.op, clock := clock, write := false }
      let b : Acc := { a with write := true, atomic := w.atomic }
      let rd := if w.atomic then [] else rl
      let bad := ((g.race rd a).toList ++ (g.race wl b).toList).min?
      let g2 := { ((g.enter rd a).1.enter wl b).1 with touch := s.now }
      let s := s.learn t cx know
      match bad with
      | some n => (s.putSeg p g2, .error (Cause.race, segInfo x.name 0 (64 * n)))
      | none =>
        match g2.viewClash rl w.swz with
        | some n => (s.putSeg p g2, .error (Cause.view, segInfo x.name 0 (64 * n)))
        | none =>
          let y := x.act g2
          let g3 := { g2.mark wl w.swz with bytes := y.1 }
          let g4 := if g3.live.isSome then { g3 with wrote := sortNat (g3.wrote ++ wl) } else g3
          let k' := clockJoin clock [(agentOf t cx, accessTick x.org.tick 64)]
          let s := if w.atomic then (s.putSeg p { g4 with atoms := aput g4.atoms word k' }).learn t cx prior
            else s.putSeg p g4
          (if gStores x.op then s.willRetire t cx x.org.tick id wl w.swz else s, .ok y.2)

/-- The payload that stands for a datum that has not been read yet: what the access would deliver of empty bytes. -/
def GOp.place (x : GOp) : Payload := ((x.act { id := 0, len := 0 }).2.map (·.1)).getD .status

/-- Whether an access delivers a result, and whether its landing lowers ol (R18, R159, R161). -/
def gResult (op : Nat) : Bool := decide (op < 16) || (decide (24 ≤ op) && decide (op < 30)) || decide (64 ≤ op)
def gLoads (op : Nat) : Bool := decide (op < 16) || decide (64 ≤ op)

/-- The charge of a set of segments, in frames (R239). -/
def State.chargeOf (s : State) (p : Nat) (ids : List Nat) : Nat :=
  (ids.map fun i => ((s.seg? p i).map (·.charge)).getD 0).sum

/-- The detail word of SETBIG (R249). -/
def setbigInfo (need budget count : Nat) : Dword :=
  BitVec.ofNat 64 (need % 2 ^ 18 + budget % 2 ^ 16 * 2 ^ 18 + count % 8 * 2 ^ 34)

/-- What the slot in hand keeps from its issue, its name binding the segment `id`. -/
def State.origin (s : State) (id : Nat) : Origin :=
  let c := s.cur
  { seg := id, lanes := c.regs.getMask c.regs.sel.toNat, bmode := rd c.regs.me 0 0, stride := rd c.regs.me 1 0
    plane := 1 - s.curTile.active, tick := c.tick, clock := c.clock }

/-- Registers an access that is made later, with the result that awaits its datum (R28, R202, R248). -/
def State.gDelay (s : State) (x : GOp) (l : Nat) (why : Obstacle) (stops : Bool) (after : Clock) : State :=
  let (id, s) := s.next
  let s := s.modIssue fun i => { i with delayed := i.delayed ++ [⟨x.h, why, id, stops, 0, after, { x.org with order := id }⟩] }
  if gResult x.op then
    s.modIssue fun i => { i with out := i.out ++ [{ rem := l, slot := x.h.slot, pc := x.h.pc, ol := gLoads x.op,
                                                      await := some id, pay := x.place }] }
  else s

/-- Operations whose pending ranges an access overlaps (R202). -/
def Tile.waitsFor (t : Tile) (id : Nat) (w : Touch) : List Nat := t.pending id w.reads false ++ t.pending id w.writes true

/-- A core access at its slot (R199 to R208): its checks, its wait for an absent segment or a pending range, or the
access itself; `l` is the latency of what it delivers. -/
def State.gAccess (s : State) (x : GOp) (l : Nat) (m : Bool) : State :=
  let (t, cx) := s.here
  let p := s.partOf t
  match if m then s.bindingBefore t cx x.name else s.binding t cx x.name with
  | none => s.raise x.h Cause.segu (segInfo x.name 1 0)
  | some id =>
    match s.seg? p id with
    | none => s.raiseLate x.h Cause.sega (segInfo 0 1 id true) l
    | some g =>
      let x := { x with org := s.origin id }
      match x.touch g with
      | .error e => s.raise x.h e.1 e.2
      | .ok w =>
        let count (s : State) : State := s.modCur fun c =>
          if gStores x.op then { c with os := c.os + 1 } else { c with ol := c.ol + 1 }
        if w.all.isEmpty then
          if x.op = 10 then
            count (s.modIssue fun i => { i with out := i.out ++
              [{ rem := l, slot := x.h.slot, pc := x.h.pc, ol := true, pay := x.place }] })
          else s
        else
          if g.absent then
            if g.lost ≠ 0 then s.raiseLate x.h Cause.sega (segInfo 0 g.lost id true) l
            else
              let prior := (s.issue.map (·.absent)).getD []
              let set := if prior.contains id then prior else if m then prior ++ [id] else id :: prior
              let grp := s.groupOf t cx
              let need := s.chargeOf p set
              if s.budget t grp < need then
                s.raise x.h Cause.setbig (setbigInfo need (s.budget t grp) set.length)
              else
                (count (s.gDelay x l (.absent 0) true [])).modIssue fun i => { i with absent := set }
          else
            let ops := (s.tile t).waitsFor id w
            if ops ≠ [] then count (s.gDelay x l .range (gStores x.op) [])
            else
              match s.gMake t cx x [] with
              | (s, .error e) => s.raise x.h e.1 e.2
              | (s, .ok y) =>
                let s := count s
                match y with
                | none => s
                | some (pay, fp) =>
                  let ol := gLoads x.op
                  let lat := match pay with
                    | .status => 1
                    | _ => l
                  s.modIssue fun i => { i with out := i.out ++ [{ rem := lat, slot := x.h.slot, pc := x.h.pc, fp := fp,
                                                                    ol := ol, pay := pay }] }

/-- The access that a captured slot stands for, with what it keeps from its issue. -/
def SlotRec.gop (h : SlotRec) (org : Origin) : GOp :=
  let op := slotOp h.word
  let name := (fld h.word 12 6).toNat
  if slotClass h.word = 8 then
    let imm := if op < 10 then h.immS 6 (fld h.word 0 6).toNat else 0
    let src : List Rd :=
      if op < 10 then [srcS 0]
      else if op = 10 then [srcS 0, srcV 0]
      else if op = 23 then [srcS 0, srcVn 0 2]
      else if 20 ≤ op ∧ op < 23 then [srcS 0, srcV 0]
      else if op = 29 then [srcS 0, srcSn 0 2]
      else [srcS 0, srcS 0]
    ⟨op, name, imm, h, fromWords src h.ops {}, org⟩
  else if op = 0 then ⟨64, name, (fld h.word 0 6).setWidth 64, h, fromWords [srcS 0] h.ops {}, org⟩
  else ⟨65, name, 0, h, fromWords [srcS 0, srcV 0] h.ops {}, org⟩

/-- The access of a delayed slot. -/
def Delayed.gop (d : Delayed) : GOp := d.cap.gop d.org

/-- The result takes the datum that it waited for, and the frame of its page. -/
def Res.fill (id : Nat) (pay : Payload) (fp : Fpst) (frame : Option Nat) (r : Res) : Res :=
  if r.await = some id then { r with await := none, pay := pay, fp := r.fp ||| fp, frame := frame } else r

/-- A result that waited for its datum takes it, in flight, in the replay buffer or in the snapshot of the phase. -/
def Ctx.fill (c : Ctx) (id : Nat) (pay : Payload) (fp : Fpst) (frame : Option Nat := none) : Ctx :=
  { c with
    inflight := c.inflight.map (Res.fill id pay fp frame)
    phase := { c.phase with snap := c.phase.snap.map fun x =>
      { x with inflight := x.inflight.map (Res.fill id pay fp frame) } }
    replay := c.replay.map fun e =>
      if e.await = some id && e.why.isNone then
        { (Res.toEntry { rem := (fld e.desc 4 8).toNat, slot := (fld e.desc 28 3).toNat, pc := e.pc, ol := e.ol,
                         frame := frame, pay := pay }) with fp := e.fp ||| fp }
      else e }

/-- A delayed access will not be made: the result that awaited it goes with it, in flight or in the replay buffer. -/
def Ctx.forget (c : Ctx) (id : Nat) : Ctx :=
  let gone := (c.inflight.any fun r => r.await == some id && r.ol) || c.replay.any fun e => e.await == some id && e.ol
  { c with inflight := c.inflight.filter fun r => r.await != some id
           replay := c.replay.filter fun e => e.await != some id
           ol := if gone then c.ol - 1 else c.ol
           delayed := c.delayed.filter fun y => y.id != id }

/-- Operations whose pending ranges on the tile `x` a delayed access overlaps (R202). -/
def State.gPendingOn (s : State) (x : Tile) (p : Nat) (d : Delayed) : List Nat :=
  match (s.seg? p d.org.seg).map fun g => d.gop.touch g with
  | some (.ok w) => x.waitsFor d.org.seg w
  | _ => []
def State.gPending (s : State) (t : Nat) (d : Delayed) : List Nat := s.gPendingOn (s.tile t) (s.partOf t) d

/-- Ranges of an operation leave the scoreboard of a tile (R177, R202): a captured access that waits for one of them comes
after every step of the operation, whose clock is `k` (R258). -/
def State.clearRanges (s : State) (t op : Nat) (gone : Range → Bool) (k : Clock) : State :=
  let out (r : Range) : Bool := r.op == op && gone r
  let y := { s.tile t with ranges := (s.tile t).ranges.filter out }
  let note (c : Ctx) : Ctx := { c with delayed := c.delayed.map fun d =>
    if d.why == .range && !(s.gPendingOn y (s.partOf t) d).isEmpty then { d with after := clockJoin d.after k } else d }
  s.modTile t fun x => { x with ranges := x.ranges.filter (fun r => !out r), p := note x.p, s := note x.s }

/-- A delayed core access is made on a segment that is there (R201, R248). A race or a view found now is taken before a
later bundle, in the order of the access's issue, and the access is not made: its result never lands (R263, R327,
log 41). -/
def State.gLater (s : State) (t : Nat) (cx : Cx) (d : Delayed) : State :=
  let x := d.gop
  let s := s.modCtx t cx fun c => { c with delayed := c.delayed.filter fun y => y.id != d.id }
  let ops := s.gPending t d
  if ops ≠ [] then
    s.modCtx t cx fun c => { c with delayed := c.delayed ++ [{ d with why := .range, stops := gStores x.op }] }
  else
    match s.gMake t cx x d.after with
    | (s, .error e) =>
      let s := s.modCtx t cx fun c => (c.forget d.id).opFault ⟨d.org.order, e.1, d.cap.slot, e.2⟩
      if gStores x.op then s.modCtx t cx fun c => { c with os := c.os - 1 } else s
    | (s, .ok y) =>
      match y with
      | some (.status, fp) => s.modCtx t cx fun c =>
          { c with inflight := c.inflight ++ [{ rem := 1, slot := d.cap.slot, pc := d.cap.pc, fp := fp, pay := .status }] }
      | some (pay, fp) => s.modCtx t cx fun c => c.fill d.id pay fp
      | none => s

/-- A captured store or atomic of a bundle before `n` that has still to be made. -/
def SlotRec.storeOf (h : SlotRec) (org : Origin) (n : Nat) : Bool :=
  slotClass h.word == 8 && gStores (slotOp h.word) && decide (org.tick < n)

/-- A store or atomic of a context issued before bundle `n` has not retired, or has not been made: it waits, or a trap has
captured it while it waited (R176, R201). -/
def Ctx.storesBefore (c : Ctx) (n : Nat) : Bool :=
  (c.stores.any fun x => decide (x.2 < n)) || (c.delayed.any fun d => d.cap.storeOf d.org n) ||
  c.replay.any fun e => e.why.isSome && e.toSlot.storeOf e.org n

end Sys2Proof.Machine
end

