-- ==== Sys2Proof/Machine/Resid.lean ====
section
/-! DEFINITION. The residency controller: requests, grants, victims and moves (11 R240 to R251, R385). -/

namespace Sys2Proof.Machine

/-! ### Requests (R242, R243) -/

/-- A new request of a cluster with its age ticket, that of core cycle `cycle`; `made` is the core cycle whose step 2 is the
last that does not consider it. -/
def State.request (s : State) (t : Nat) (cx : Cx) (kind op : Nat) (members : List Nat) (lane made slot : Nat)
    (cycle : Nat := s.now) : Nat × State :=
  let (id, s) := s.next
  let k := clusterOf t
  (id, s.modCluster k fun c =>
    { c with tickets := c.tickets + 1, reqs := c.reqs ++ [⟨id, c.tickets, t, cx, kind, op, members, lane, made, cycle, slot⟩] })

/-- The rank of a request (R243), least first: requests of speculative lanes come last, by lane; then by ticket: the core
cycle, the tile, step 2 before the issue, the context, the slot position. -/
def Req.rank (a : Req) : List Nat := [a.lane, a.cycle, a.tile, a.made, a.cx.num, a.slot, a.ticket]

/-- The order of two keys of one length. -/
def keyBelow : List Nat → List Nat → Bool
  | a :: r, b :: q => decide (a < b) || a == b && keyBelow r q
  | _, _ => false

/-- Whether a request ranks above another (R243). -/
def Req.above (a b : Req) : Bool := keyBelow a.rank b.rank

/-- Requests in rank order. -/
def insertReq (q : Req) : List Req → List Req
  | [] => [q]
  | a :: r => if q.above a then q :: a :: r else a :: insertReq q r
def ranked (l : List Req) : List Req := l.foldl (fun acc q => insertReq q acc) []

/-- Requests of a tile that the present step 2 considers, in rank order. -/
def State.waiting (s : State) (t : Nat) : List Req :=
  ranked ((s.cluster (clusterOf t)).reqs.filter fun q => q.tile == t && decide (q.made < s.now))

/-- The heads of a tile's groups in rank order (R243). -/
def State.heads (s : State) (t : Nat) : List Req :=
  ((s.waiting t).foldl (fun (acc : List Req × List (Option Nat)) q =>
    let g := s.groupOf q.tile q.cx
    if acc.2.contains g then acc else (acc.1 ++ [q], g :: acc.2)) ([], [])).1

/-- A member whose recall cannot be serviced (R250): the WHY code. -/
def State.unserviced (s : State) (p id : Nat) : Nat :=
  match s.seg? p id with
  | none => 1
  | some g => if g.absent then g.lost else 0

def State.absentSeg (s : State) (p id : Nat) : Bool := (s.seg? p id).any (·.absent)
def State.residentSeg (s : State) (p id : Nat) : Bool := ((s.seg? p id).map fun g => !g.absent).getD false

/-! ### Victims (R246) -/

/-- Segments by oldest stamp, then lower id. -/
def insertSeg (x : Seg) : List Seg → List Seg
  | [] => [x]
  | a :: r => if x.touch < a.touch ∨ x.touch = a.touch ∧ x.id < a.id then x :: a :: r else a :: insertSeg x r
def byStamp (l : List Seg) : List Seg := l.foldl (fun acc x => insertSeg x acc) []

/-- The shortest prefix whose charge covers `need`, or the whole list; and whether it covers it. -/
def covering : Nat → List Seg → List Seg × Bool
  | 0, _ => ([], true)
  | _, [] => ([], false)
  | n + 1, g :: r =>
    let x := covering (n + 1 - g.charge) r
    (g :: x.1, x.2)

/-- The frames a head still needs (R244): a member on its way in counts in the use of its group already. -/
def State.need (s : State) (h : Req) : Nat :=
  let p := s.partOf h.tile
  let g := s.groupOf h.tile h.cx
  s.chargeOf p (h.members.filter fun i => !s.residentSeg p i && !(s.moveOf p i).any fun m => m.kind == .recall) +
    s.use p h.tile g - s.budget h.tile g

/-- The frames that a push in progress on the tile's channel will free for a group. -/
def State.leaving (s : State) (p t : Nat) (grp : Option Nat) : Nat :=
  match (s.tile t).move with
  | some m => match s.seg? p m.seg with
    | some g => if m.was = .resident ∧ m.kind ≠ .compact ∧ g.group = grp ∧ g.evict = none then g.charge else 0
    | none => 0
  | none => 0

/-- The victim list of a head (R244, R246), and whether it covers the need; the victim on its way out counts first. -/
def State.victims (s : State) (h : Req) : List Seg × Bool :=
  let p := s.partOf h.tile
  let g := s.groupOf h.tile h.cx
  let kept := (s.heads h.tile).flatMap fun q => q.members
  covering (s.need h - s.leaving p h.tile g) (byStamp ((s.part p).dir.filter fun x => x.group == g && g.isSome &&
    x.owner == h.tile && x.valid && !x.absent && x.pins == 0 && !kept.contains x.id))

/-! ### Grants (R244) -/

/-- Whether a request is granted now: every member resident, none on a victim list of a head. A member whose recall
cannot be serviced ends the wait too (R250). No sequence operation is granted while STOP = 1 (R183). -/
def State.grantable (s : State) (q : Req) : Bool :=
  let p := s.partOf q.tile
  decide (q.made < s.now) && !(q.kind == 1 && bit (s.ctx q.tile q.cx).regs.meflags 1) &&
  ((q.members.any fun i => s.unserviced p i != 0) ||
    (q.members.all fun i => s.residentSeg p i) &&
      (s.heads q.tile).all fun h => (s.victims h).1.all fun x => !q.members.contains x.id)

/-- The members of a grant are pinned and stamped (R246). -/
def State.pin (s : State) (p : Nat) (ids : List Nat) : State :=
  ids.foldl (fun s i => s.modSeg p i fun g => { g with pins := g.pins + 1, touch := s.now }) s
def State.unpin (s : State) (p : Nat) (ids : List Nat) : State :=
  ids.foldl (fun s i => s.modSeg p i fun g => { g with pins := g.pins - 1 }) s

/-- The request with a number, if it waits. -/
def State.req? (s : State) (id : Nat) : Option Req := s.clusters.findSome? fun c => c.2.reqs.find? fun q => q.id == id

def State.dropReq (s : State) (t id : Nat) : State :=
  s.modCluster (clusterOf t) fun c => { c with reqs := c.reqs.filter fun q => q.id != id }

/-- A grant (R244, R242): the members are pinned and stamped; whoever asked goes on. -/
def State.grant (s : State) (q : Req) : State :=
  let p := s.partOf q.tile
  let bad := (q.members.map fun i => (i, s.unserviced p i)).find? fun x => x.2 != 0
  let s := s.dropReq q.tile q.id
  let s := if bad.isSome then s else s.pin p q.members
  let sega := bad.map fun x => segInfo 0 x.2 x.1 true
  let pinned := if bad.isSome then [] else q.members
  match q.kind with
  | 0 => s.modCtx q.tile q.cx fun c => { c with held := c.held ++ pinned }
  | 1 =>
    let r := (s.ctx q.tile q.cx).regs
    s.modTile q.tile fun t => match t.seqRun with
      | some o =>
        if o.id = q.op then
          { t with
            seqRun := some { o with grant := some s.now, sega := sega, perm := r.perm, grow := r.grow,
                                    step := if o.op % 2 = 1 ∧ o.op < 0x18 then o.start.getD r.mestep.toNat else 0 }
            ranges := if bad.isSome then t.ranges else t.ranges ++ o.spans.map fun x => ⟨o.id, x.1, x.2.1, x.2.2, true⟩ }
        else t
      | none => t
  | _ => { s with eops := s.eops.map fun o =>
      if o.id = q.op then { o with stage := 2, pinned := pinned, sega := sega, next := s.now + 1 } else o }

/-- The row requestGrant (R244). -/
def execRequestGrant (req : Nat) (s : State) : Host.Outcome State Fault Refusal :=
  .next (match s.req? req with
    | some q => if s.grantable q then s.grant q else s
    | none => s)

/-- The requests of a context are withdrawn (R251); `kind` narrows it to one kind when given. -/
def State.withdraw (s : State) (t : Nat) (cx : Cx) (kind : Option Nat) : State :=
  s.modCluster (clusterOf t) fun c =>
    { c with reqs := c.reqs.filter fun q => !(q.tile == t && q.cx == cx && (kind.isNone || kind == some q.kind)) }

/-! ### Moves (R245 to R247, R385) -/

/-- Where a victim goes (R246): the tile of the cluster with the largest spare that takes it, or backing. -/
def State.pushTo (s : State) (p t : Nat) (x : Seg) : MoveKind × Nat :=
  let k := clusterOf t
  let fit := (List.range 8).filterMap fun i =>
    let u := k * 8 + i
    if u = t ∨ u ≥ (fld s.caps 0 16).toNat then none
    else
      let sp := s.spare p u
      match if (x.charge : Int) ≤ sp then freeRun (s.occupied p u) x.charge else none with
      | some b => some (i, sp, b)
      | none => none
  match fit.foldl (fun (best : Option (Nat × Int × Nat)) y => match best with
      | none => some y
      | some z => if z.2.1 < y.2.1 then some y else some z) none with
  | some (i, _, b) => (.lateral i, b)
  | none => (.back, 0)

/-- Segments by rising BASE. -/
def insertBase (x : Seg) : List Seg → List Seg
  | [] => [x]
  | a :: r => if x.base < a.base then x :: a :: r else a :: insertBase x r

/-- The compaction move that R247 makes next: the first unpinned segment by rising BASE that has a lower place. -/
def State.compactMove (s : State) (p t : Nat) : Option (Nat × MoveKind × Nat) :=
  let inStore := ((s.part p).dir.filter fun g => g.holder == some t).foldl (fun acc g => insertBase g acc) []
  inStore.findSome? fun g =>
    if g.pins ≠ 0 then none
    else
      let occ := (s.occupied p t).filter fun x => !(x.1 == g.base || (g.shadow.map (·.base)) == some x.1)
      match freeRun occ g.charge with
      | some b => if b < g.base then some (g.id, .compact, b) else none
      | none => none

/-- A segment at the end of its move (R237, R245); the recall of a backing copy with an error beyond repair cannot be
serviced (R250). -/
def Seg.arrive (g : Seg) (m : Move) : Seg :=
  let sh (b : Nat) : Option Shadow := g.shadow.map fun x => { x with base := b + g.len }
  match m.kind with
  | .recall =>
    if g.bad && m.was == .backed && !g.zero then { g with place := .backed, lost := 2 }
    else { g with place := .resident, base := m.base, shadow := sh m.base }
  | .lateral h => { g with place := .lateral, host := h, base := m.base, shadow := sh m.base }
  | .back => { g with place := .backed, zero := false, bad := false, evict := none }
  | .compact => { g with place := m.was, base := m.base, shadow := sh m.base }

/-- Whether at most `k` compaction moves give a run of `n` frames (R247). -/
def State.compacts (p t n : Nat) : Nat → State → Bool
  | 0, s => (freeRun (s.occupied p t) n).isSome
  | k + 1, s => (freeRun (s.occupied p t) n).isSome || match s.compactMove p t with
    | none => false
    | some (id, kind, b) => State.compacts p t n k (s.modSeg p id fun g => g.arrive ⟨id, kind, b, 0, g.place⟩)

/-- The idle segment that gives way next (R385). -/
def State.idlePush (s : State) (p t : Nat) : Option (Nat × MoveKind × Nat) :=
  match byStamp ((s.part p).dir.filter fun g => g.holder == some t && g.place == .resident && g.group.isNone &&
      !g.owned && g.priv.isNone && g.pins == 0) with
  | g :: _ => let k := s.pushTo p t g; some (g.id, k.1, k.2)
  | [] => none

/-- The move that the recall of an unpinned segment of the tile needs next (R247, R385): the recall itself, a compaction where
that gives a run, or the push of an idle segment. -/
def State.recallMove (s : State) (p t : Nat) (g : Seg) : Option (Nat × MoveKind × Nat) :=
  if g.owner ≠ t || g.pins ≠ 0 || g.place == .moving || g.evict.isSome then none
  else match freeRun (s.occupied p t) g.charge with
    | some b => some (g.id, .recall, b)
    | none =>
      if State.compacts p t g.charge (2 * (s.part p).dir.length) s then s.compactMove p t else s.idlePush p t

/-- Segments that the tile's channel must push to backing first (R209, R240, R385). -/
def State.evictMove (s : State) (p t : Nat) : Option (Nat × MoveKind × Nat) :=
  ((s.part p).dir.find? fun g => g.evict == some t && g.pins == 0 && g.place != .moving).map fun g => (g.id, .back, 0)

/-- The guests that a tile whose spare is below zero gives up (R240), in victim order. -/
def State.surplus (s : State) (p t : Nat) : List Seg :=
  (covering (0 - s.spare p t).toNat (byStamp ((s.part p).dir.filter fun g => s.guestOf p t g && g.place == .lateral &&
    g.pins == 0 && g.evict.isNone))).1

/-- The guest of another tile that the channel of its owner `t` pushes to backing (R240, R246). -/
def State.guestMove (s : State) (p t : Nat) : Option (Nat × MoveKind × Nat) :=
  ((List.range 8).findSome? fun i => (s.surplus p (clusterOf t * 8 + i)).find? fun g => g.owner == t).map fun g => (g.id, .back, 0)

/-- Guest pushes come before the recalls of a template (R240): the spare is below zero, or a guest is on its way out. -/
def State.guestsLeave (s : State) (p t : Nat) : Bool :=
  decide (s.spare p t < 0) || s.tiles.any fun x => x.2.move.any fun m => m.kind == .back && m.was == .lateral &&
    s.partOf x.1 == p && (s.seg? p m.seg).any fun g => m.source x.1 g == some t

/-- The next recall of a starting task on the tile, with the task's group (R241): a segment that does not fit the budget is
skipped, and one that another tile owns is none of its recalls (R245). -/
def State.templateRecall (s : State) (p t : Nat) : Option (Seg × Nat) :=
  ((s.part p).tasks.filter fun k => k.tile == t && !k.recalls.isEmpty).findSome? fun k =>
    k.recalls.findSome? fun i => match s.seg? p i with
      | none => none
      | some g =>
        if g.owner == t && g.absent && g.place != .moving && g.evict.isNone && g.lost == 0 &&
            decide (s.use p t (some k.launch) + g.charge ≤ s.budget t (some k.launch))
        then some (g, k.launch) else none
def State.templateSeg (s : State) (p t : Nat) : Option Seg := (s.templateRecall p t).map (·.1)

/-- The head of a tile that needs a move (R244). -/
def State.movingHead (s : State) (p t : Nat) : Option Req :=
  (s.heads t).find? fun h => h.members.any fun i => !s.residentSeg p i && s.unserviced p i == 0

/-- The move for a tile's heads (R244): a push of the first victim, or the recall of the first member that is not
resident. -/
def State.headMove (s : State) (p t : Nat) : Option (Nat × MoveKind × Nat) :=
  match s.movingHead p t with
  | none => none
  | some h =>
    if 0 < s.need h then
      match s.victims h with
      | (g :: _, true) => let k := s.pushTo p t g; some (g.id, k.1, k.2)
      | _ => none
    else
      ((h.members.filterMap fun i => s.seg? p i).find? (·.absent)).bind (s.recallMove p t)

/-- What an idle channel begins (R240, R241, R244, R245). -/
def State.moveChoice (s : State) (t : Nat) : Option (Nat × MoveKind × Nat) :=
  let p := s.partOf t
  match (s.evictMove p t).or (s.guestMove p t) with
  | some m => some m
  | none =>
    match if s.guestsLeave p t then none else s.templateSeg p t with
    | some g => s.recallMove p t g
    | none => s.headMove p t

/-- The group that the tile's next recall is for. -/
def State.recallGroup (s : State) (t : Nat) : Option Nat :=
  match if s.guestsLeave (s.partOf t) t then none else s.templateRecall (s.partOf t) t with
  | some x => some x.2
  | none => (s.movingHead (s.partOf t) t).bind fun h => s.groupOf h.tile h.cx

/-- The row moveBegin (R244, R245): the segment is moving from now on; the duration is free (log 9). A recall charges the group
that it is made for: which of two groups whose tasks bind one segment is charged for it the spec does not say (DESIGN CHOICE,
log 57). -/
def execMoveBegin (tile : Nat) (s : State) : Host.Outcome State Fault Refusal :=
  .next (match (s.tile tile).move, s.moveChoice tile with
    | none, some (id, k, b) =>
      let p := s.partOf tile
      match s.seg? p id with
      | some g =>
        let (d, s) := s.duration
        (s.modTile tile fun t => { t with move := some ⟨id, k, b, s.now + d + 1, g.place⟩ }).modSeg p id
          fun g => { g with place := .moving, group := if k = .recall then (s.recallGroup tile).or g.group else g.group }
      | none => s
    | _, _ => s)

/-- The row moveApplied (R245): a push to backing writes the backing copy (R237). -/
def execMoveApplied (tile : Nat) (s : State) : Host.Outcome State Fault Refusal :=
  .next (match (s.tile tile).move with
    | none => s
    | some m =>
      if m.due ≤ s.now then
        let p := s.partOf tile
        let s := match m.kind, s.seg? p m.seg with
          | .back, some g => s.writeBack p g
          | _, _ => s
        (s.modTile tile fun t => { t with move := none }).modSeg p m.seg fun g => g.arrive m
      else s)

/-! ### Accesses that meet an absent segment again (R248) -/

/-- The captured core accesses of a context that wait for no request and whose segment is absent: a handler has run
between the grant and the access, or a move has begun since the range cleared. -/
def State.absentAgain (s : State) (t : Nat) (cx : Cx) : List Delayed :=
  (s.ctx t cx).delayed.filter fun d => slotClass d.cap.word != 9 &&
    (match d.why with
      | .absent r => (s.req? r).isNone
      | .range => true
      | _ => false) && s.absentSeg (s.partOf t) d.org.seg

/-- The members of their request: the G slot's segment, then the M slot's (R244). -/
def askSet (l : List Delayed) : List Nat :=
  ((l.filter fun d => slotClass d.cap.word == 8) ++ l.filter fun d => slotClass d.cap.word != 8).map (·.org.seg) |>.dedup

/-- They ask for residency again, together (R242). -/
def State.askAgain (s : State) (t : Nat) (cx : Cx) (l : List Delayed) : State :=
  let c := s.ctx t cx
  let (id, s) := s.request t cx 0 0 (askSet l) ((c.lane.map fun x => if x.spec then x.lane + 1 else 0).getD 0) s.now
    ((l.map (·.cap.slot)).min?.getD 0)
  s.modCtx t cx fun c => { c with delayed := c.delayed.map fun d =>
    if (l.any fun y => y.id == d.id) then { d with why := .absent id, stops := true } else d }

end Sys2Proof.Machine
end

