-- ==== Sys2Proof/Machine/Transl.lean ====
section
/-! DEFINITION. Address translation, page locks, invalidation and page migration (17 R345 to R355). -/

namespace Sys2Proof.Machine

/-! ### The walk (R345 to R349) -/

/-- Bytes of GDDR-7 of the module (R1). -/
def State.gddrSize (s : State) : Nat := Config.gddrBytes (fld s.caps 0 16).toNat

/-- A mapped page: its leaf word and its size as a power of two. -/
structure Leaf where
  word : Dword
  size : Nat
  deriving DecidableEq, Repr

/-- The physical address of a page (R348). -/
def Leaf.addr (l : Leaf) : Nat := l.word.toNat % 2 ^ 63 / 2 ^ l.size * 2 ^ l.size
def Leaf.host (l : Leaf) : Bool := bit l.word 63
def Leaf.fmt (l : Leaf) : Nat := (fld l.word 4 4).toNat

/-- The lowest address bit that the index of a level starts at (R347). -/
def levelShift : Nat → Nat
  | 0 => 16
  | 1 => 21
  | 2 => 30
  | _ => 39

/-- The index of a level in a virtual address (R347). -/
def levelIndex (lv va : Nat) : Nat :=
  match lv with
  | 0 => va / 2 ^ 16 % 32
  | 1 => va / 2 ^ 21 % 512
  | 2 => va / 2 ^ 30 % 512
  | _ => va / 2 ^ 39 % 2 ^ 18

/-- The size of a table that an entry of a level names, as a power of two (R347). -/
def tableShift : Nat → Nat
  | 3 => 12
  | 2 => 12
  | _ => 8

/-- A malformed entry (R348). -/
def malformed (lv : Nat) (w : Dword) : Bool :=
  let leaf := bit w 1
  let addr := w.toNat % 2 ^ 63 / 256 * 256
  if leaf then
    lv == 3 || decide (8 < (fld w 4 4).toNat) || addr % 2 ^ levelShift lv != 0
  else lv == 0 || bit w 63 || addr % 2 ^ tableShift lv != 0

/-- The addresses that a walk reads from a level down. -/
def walkReads (word : Nat → Dword) (va : Nat) : Nat → Nat → List Nat
  | lv, tbl =>
    let a := tbl + 8 * levelIndex lv va
    let w := word a
    a :: (if !bit w 0 || malformed lv w || bit w 1 then [] else match lv with
      | 0 => []
      | k + 1 => walkReads word va k (w.toNat % 2 ^ 63 / 256 * 256))

/-- The walk from a level down, by the words it reads: the level and KIND of the failure, or the leaf (R349). -/
def walkFrom (word : Nat → Dword) (va : Nat) : Nat → Nat → Except (Nat × Nat) Leaf
  | lv, tbl =>
    let w := word (tbl + 8 * levelIndex lv va)
    if !bit w 0 then .error (lv, 0)
    else if malformed lv w then .error (lv, 2)
    else if bit w 1 then .ok ⟨w, levelShift lv⟩
    else match lv with
      | 0 => .error (0, 2)
      | k + 1 => walkFrom word va k (w.toNat % 2 ^ 63 / 256 * 256)

/-- The root table of an address space, and whether there is one (R345, R346). -/
def State.rootOf (s : State) (p asid : Nat) : Option Nat :=
  let x := s.part p
  let e := s.partWord p (x.astbl + 16 * asid)
  if x.ascnt ≤ asid || !bit e 0 then none else some (e.toNat / 4096 * 4096)

/-- The walk of a page in an address space (R346, R349). -/
def State.walk (s : State) (p asid va : Nat) : Except (Nat × Nat) Leaf :=
  match s.rootOf p asid with
  | none => .error (3, 2)
  | some a => walkFrom (s.partWord p) va 3 a

/-- The addresses that the walk of a page reads. -/
def State.walkAddrs (s : State) (p asid va : Nat) : List Nat :=
  (if (s.part p).ascnt ≤ asid then [] else [(s.part p).astbl + 16 * asid]) ++
    (match s.rootOf p asid with
      | none => []
      | some a => walkReads (s.partWord p) va 3 a)

/-- A translation that the cluster's TLB holds. -/
def State.tlbHit (s : State) (k asid va : Nat) : Option Leaf :=
  ((s.cluster k).tlb.find? fun t => t.asid == asid && t.va / 2 ^ t.size == va / 2 ^ t.size).map fun t => ⟨t.leaf, t.size⟩

/-- Translation by the TLB or by a walk. -/
def State.translate (s : State) (p k asid va : Nat) : Except (Nat × Nat) Leaf :=
  match s.tlbHit k asid va with
  | some l => .ok l
  | none => s.walk p asid va

/-- The pages that a virtual range touches, by their 64 KiB units, rising. -/
def rangeUnits (va len : Nat) : List Nat :=
  if len = 0 then [] else (List.range ((va + len - 1) / 65536 + 1 - va / 65536)).map fun i => (va / 65536 + i) * 65536

/-- Their 57-bit addresses. -/
def rangePages (va len : Nat) : List Nat := (rangeUnits va len).map fun u => u % 2 ^ 57

/-- Whether a translation matches TLBINV's scope (R352). -/
def tlbMatch (v : Dword) (asid va size : Nat) : Bool :=
  match (fld v 11 2).toNat with
  | 0 => asid == (fld v 0 11).toNat && va / 2 ^ size == v.toNat % 2 ^ 57 / 2 ^ size
  | 1 => asid == (fld v 0 11).toNat
  | 2 => true
  | _ => false

/-- The walks of the pages of a range that the TLB does not hold: their refused reads are logged (R355), and the TLB takes
every translation found (R348, R349), but for those of an invalidation in progress (R352). -/
def State.fillTlb (s : State) (p k asid : Nat) (vas : List Nat) : State :=
  vas.foldl (fun s va =>
    match s.tlbHit k asid va with
    | some _ => s
    | none =>
      let s := s.logReads p (s.walkAddrs p asid va)
      match s.walk p asid va with
      | .ok l =>
        let v := va / 2 ^ l.size * 2 ^ l.size
        if (s.part p).tlbWait.isSome && tlbMatch (s.part p).tlbinv asid v l.size then s
        else s.modCluster k fun c => { c with tlb := c.tlb ++ [⟨asid, v, l.size, l.word⟩] }
      | .error _ => s) s

/-- The refusal of an access to a translated page (R349): KIND 1 or 3. -/
def State.refusedPage (s : State) (p : Nat) (l : Leaf) (write atomic : Bool) : Option Nat :=
  let rdOk := bit l.word 2
  let wrOk := bit l.word 3
  let x := s.part p
  if (if atomic then !rdOk || !wrOk || l.host else if write then !wrOk else !rdOk) then some 1
  else if !l.host && !(decide (x.lo ≤ l.addr) && decide (l.addr + 2 ^ l.size ≤ x.lo + x.len)) then some 3
  else none

/-- The detail word of XLAT (R350). -/
def xlatInfo (pword level kind : Nat) (write : Bool) (va : Nat) : Dword :=
  BitVec.ofNat 64 (pword % 16 + level % 4 * 16 + kind % 4 * 64 + b2n write * 256 + va / 65536 % 2 ^ 41 * 512)

/-- The first page of a range that fails, with the detail word (R350). -/
def State.xlatFault (s : State) (p k asid va len pword : Nat) (write atomic : Bool) : Option Dword :=
  (rangeUnits va len).findSome? fun u =>
    let u := u % 2 ^ 57
    match s.translate p k asid u with
    | .error e => some (xlatInfo pword e.1 e.2 write u)
    | .ok l => (s.refusedPage p l write atomic).map fun kind => xlatInfo pword (if l.size = 16 then 0 else if l.size = 21 then 1 else 2) kind write u

/-- The formats of the pages of a range that translate, each with the first address of the range in it (R214 check 5). -/
def State.pageFmts (s : State) (p k asid va len : Nat) : List (Nat × Nat) :=
  (rangeUnits va len).filterMap fun u => match s.translate p k asid (u % 2 ^ 57) with
    | .ok l => some (max va u, l.fmt)
    | .error _ => none

/-! ### Virtual memory -/

/-- The translation of an address for an operation: the one of its page lock while it holds one (R351). -/
def State.leafFor (s : State) (p k asid op va : Nat) : Option Leaf :=
  match (s.cluster k).locks.find? fun l => l.asid == asid && l.va / 2 ^ l.size == va / 2 ^ l.size && l.ops.contains op with
  | some l => some ⟨l.leaf, l.size⟩
  | none => match s.translate p k asid va with
    | .ok l => some l
    | .error _ => none

/-- The range table refuses a byte of a translated page (R355): a page that an operation has found again may lie outside. -/
def State.refuses (s : State) (p : Nat) (l : Leaf) (va : Nat) : Bool := !l.host && !s.admits p (l.addr + va % 2 ^ l.size) 1

/-- A byte of virtual memory as an operation reads it; the blank byte where no page is. -/
def State.vread (s : State) (p k asid op va : Nat) : Byte :=
  match s.leafFor p k asid op (va % 2 ^ 57) with
  | some l =>
    let a := l.addr + va % 2 ^ l.size
    if s.refuses p l va then (Config.refusedWord a).setWidth 8 else (if l.host then s.host else s.gddr).read a
  | none => Memory.blank

/-- An access at `va` that the range table refuses is logged (R355). -/
def State.logRefusal (s : State) (p k asid op va : Nat) : State :=
  match s.leafFor p k asid op (va % 2 ^ 57) with
  | some l => if s.refuses p l va then s.logEvent 0x355 (l.addr + va % 2 ^ l.size) else s
  | none => s

/-- Marks the line of a page under migration that a write has reached by the old translation (R354). -/
def State.markDirty (s : State) (p addr : Nat) (leaf : Leaf) (asid va : Nat) : State :=
  let m := (s.part p).mig
  if m.phase = 0 then s
  else if asid = m.asid ∧ leaf.size = m.size ∧ leaf.addr = (Leaf.mk m.leaf m.size).addr ∧
      m.va / 2 ^ leaf.size = va / 2 ^ leaf.size then
    s.modPart p fun x => { x with mig := { x.mig with dirty := insertNat (addr % 2 ^ leaf.size / 64) x.mig.dirty } }
  else s

/-- A byte written to virtual memory; one that the range table refuses is discarded (R355). -/
def State.vwrite (s : State) (p k asid op va : Nat) (b : Byte) : State :=
  let va := va % 2 ^ 57
  match s.leafFor p k asid op va with
  | some l =>
    let a := l.addr + va % 2 ^ l.size
    if s.refuses p l va then s
    else if l.host then { s with host := s.host.write a b }
    else State.markDirty { s with gddr := s.gddr.write a b } p a l asid va
  | none => s

def State.vbytes (s : State) (p k asid op va : Nat) : Nat → List Byte
  | 0 => []
  | n + 1 => s.vread p k asid op va :: State.vbytes s p k asid op (va + 1) n

def State.vstore (s : State) (p k asid op va : Nat) : List Byte → State
  | [] => s
  | b :: r => State.vstore (s.vwrite p k asid op va b) p k asid op (va + 1) r

/-! ### Page locks (R351, R354) -/

/-- A page with its translation, as the locks name it. -/
abbrev LPage := Nat × Nat × Dword

/-- The pages of a range with their translations; where a page translates no longer, the translation of `old` stands (log
44). -/
def State.pagesOf (s : State) (p k asid va len : Nat) (old : List LPage) : List LPage :=
  ((rangeUnits va len).filterMap fun u =>
    let u := u % 2 ^ 57
    match s.translate p k asid u with
    | .ok l => some (u / 2 ^ l.size * 2 ^ l.size, l.size, l.word)
    | .error _ => old.find? fun x => x.1 / 2 ^ x.2.1 == u / 2 ^ x.2.1).dedup

def Lock.is (l : Lock) (asid : Nat) (x : LPage) : Bool :=
  l.asid == asid && l.va == x.1 && l.size == x.2.1 && l.leaf == x.2.2

/-- A page whose migration stands at its freeze (R354). -/
def State.pageFrozen (s : State) (p asid va : Nat) (size : Nat) : Bool :=
  let m := (s.part p).mig
  m.phase == 2 && asid == m.asid && m.va / 2 ^ size == va / 2 ^ size

/-- Whether an operation's locks can all be taken now (R351): the table has 512 entries. -/
def State.canLock (s : State) (p k asid : Nat) (pages : List LPage) : Bool :=
  let ls := (s.cluster k).locks
  let new := pages.filter fun x => !ls.any fun l => l.is asid x
  decide (ls.length + new.length ≤ 512) && pages.all fun x => !s.pageFrozen p asid x.1 x.2.1

def State.takeLocks (s : State) (k asid op : Nat) (pages : List LPage) : State :=
  pages.foldl (fun s x => s.modCluster k fun c =>
    if (c.locks.any fun l => l.is asid x) then
      { c with locks := c.locks.map fun l => if l.is asid x then { l with ops := op :: l.ops } else l }
    else { c with locks := c.locks ++ [⟨asid, x.1, x.2.1, x.2.2, [op]⟩] }) s

def State.freeLocks (s : State) (k op : Nat) : State :=
  s.modCluster k fun c =>
    let ls := c.locks.map fun l => { l with ops := l.ops.filter (· != op) }
    { c with locks := ls.filter fun l => !l.ops.isEmpty }

/-! ### Invalidation (R352) -/

/-- Clusters of a partition. -/
def State.clustersOf (s : State) (p : Nat) : List Nat := (s.part p).clusters

/-- TLBINV with its writable fields (R352). -/
def tlbinvField (v : Dword) : Dword := v &&& 0x01FFFFFFFFFF1FFF#64

/-- The row tlbinv: the TLBs drop what matches; the operations that hold a matching lock are waited for. -/
def execTlbinv (part : Nat) (v : BitVec 64) (s : State) : Host.Outcome State Fault Refusal :=
  .next (s.atFunction part <|
    let x := s.part part
    if x.tlbWait.isSome then s
    else
      let w := tlbinvField v
      let ks := s.clustersOf part
      let ops := ks.flatMap fun k => (s.cluster k).locks.flatMap fun l =>
        if tlbMatch w l.asid l.va l.size then l.ops else []
      let s := ks.foldl (fun s k => s.modCluster k fun c =>
        { c with tlb := c.tlb.filter fun t => !tlbMatch w t.asid t.va t.size }) s
      s.modPart part fun x => { x with tlbinv := w, tlbWait := some ops })

/-- Whether no TLB of the partition holds a match and no operation waited for is left (R352). -/
def State.tlbinvDone (s : State) (p : Nat) : Bool :=
  match (s.part p).tlbWait with
  | none => false
  | some ops =>
    !(s.eops.any fun o => ops.contains o.id) &&
    (s.clustersOf p).all fun k => !(s.cluster k).tlb.any fun t => tlbMatch (s.part p).tlbinv t.asid t.va t.size

/-- The row tlbinvComplete: BUSY clears (R352). -/
def execTlbinvComplete (part : Nat) (s : State) : Host.Outcome State Fault Refusal :=
  .next (if s.tlbinvDone part then s.modPart part fun x => { x with tlbWait := none } else s)

/-! ### Migration (R353, R354) -/

/-- The address of the leaf that a walk from a level down finds. -/
def leafAt (word : Nat → Dword) (va : Nat) : Nat → Nat → Nat
  | lv, tbl =>
    let a := tbl + 8 * levelIndex lv va
    let w := word a
    if bit w 1 then a
    else match lv with
      | 0 => a
      | k + 1 => leafAt word va k (w.toNat % 2 ^ 63 / 256 * 256)

def migVa (w : Dword) : Nat := w.toNat % 2 ^ 57 / 65536 * 65536
def migAddr (w : Dword) : Nat := w.toNat % 2 ^ 63 / 65536 * 65536

/-- The row migrationStart: a write of MIGCTL (R353). The migration goes by the registers as the start finds them. -/
def execMigrationStart (part : Nat) (v : BitVec 64) (s : State) : Host.Outcome State Fault Refusal :=
  .next (s.atFunction part <|
    let x := s.part part
    if !bit v 0 || x.mig.phase ≠ 0 then s
    else
      let asid := (fld x.mig.src 0 11).toNat
      let va := migVa x.mig.src
      let s := s.logReads part (s.walkAddrs part asid va)
      let bad : State := s.modPart part fun x => { x with mig := { x.mig with err := true } }
      match s.walk part asid va with
      | .error _ => bad
      | .ok l =>
        let d := migAddr x.mig.dst
        if l.host || !s.admits part d (2 ^ l.size) || d % 2 ^ l.size ≠ 0 then bad
        else s.modPart part fun x => { x with mig := { x.mig with
          phase := 1, err := false, copied := 0, dirty := [], leaf := l.word, size := l.size, asid := asid, va := va, target := d
          entry := leafAt (s.partWord part) va 3 ((s.rootOf part asid).getD 0) } })

/-- The old page of a migration. -/
def Migration.old (m : Migration) : Nat := (Leaf.mk m.leaf m.size).addr

/-- A migration copies line `n`; a read outside the partition's range is refused and logged, and the line is not written
(R355). -/
def State.copyLine (s : State) (p n : Nat) : State :=
  let m := (s.part p).mig
  if s.admits p (m.old + 64 * n) 64 then s.partStore p (m.target + 64 * n) (s.gddr.bytes (m.old + 64 * n) 64)
  else s.logEvent 0x355 (m.old + 64 * n)

/-- Lines of the page under migration. -/
def Migration.lines (m : Migration) : Nat := 2 ^ m.size / 64

/-- The row migrationFreeze: the next lines are copied in address order, a free number of them (log 9); once every line has
been, no new lock on the page is granted (R354). -/
def execMigrationFreeze (part : Nat) (s : State) : Host.Outcome State Fault Refusal :=
  .next (
    let m := (s.part part).mig
    if m.phase ≠ 1 then s
    else
      let (d, s) := s.duration
      let k := min (m.lines - m.copied) (d + 1)
      let s := (List.range k).foldl (fun s i => s.copyLine part (m.copied + i)) s
      s.modPart part fun x => { x with mig := { x.mig with
        copied := m.copied + k, phase := if m.lines ≤ m.copied + k then 2 else 1 } })

/-- The locks on the page under migration. -/
def State.migLocks (s : State) (p : Nat) : Bool :=
  let m := (s.part p).mig
  (s.clustersOf p).any fun k => (s.cluster k).locks.any fun l => l.asid == m.asid && l.va / 2 ^ m.size == m.va / 2 ^ m.size

/-- An operation that the freeze has held back still waits for its locks on the page (R354). -/
def State.migWaiting (s : State) (p : Nat) : Bool :=
  let m := (s.part p).mig
  s.eops.any fun o => o.stage == 1 && s.partOf o.tile == p && o.asid == m.asid &&
    o.pages.any fun x => x.1 / 2 ^ m.size == m.va / 2 ^ m.size

/-- The row migrationSwitch: with the lock count at zero the dirty lines are copied again, the leaf's ADDR is written and
the TLBs drop the page; once the operations that waited have their locks on the new page, PHASE returns to 0 (R354). -/
def execMigrationSwitch (part : Nat) (s : State) : Host.Outcome State Fault Refusal :=
  .next (
    let m := (s.part part).mig
    if m.phase = 3 then
      (if s.migWaiting part then s else s.modPart part fun x => { x with mig := { x.mig with phase := 0 } })
    else if m.phase ≠ 2 || s.migLocks part then s
    else
      let s := m.dirty.foldl (fun s n => s.copyLine part n) s
      let w := s.gddr.dword m.entry
      let word := w.toNat % 2 ^ 8 + m.target + b2n (bit w 63) * 2 ^ 63
      let s := s.partStore part m.entry (natBytes 8 word)
      let s := (s.clustersOf part).foldl (fun s k => s.modCluster k fun c =>
        { c with tlb := c.tlb.filter fun t => !(t.asid == m.asid && t.va / 2 ^ m.size == m.va / 2 ^ m.size) }) s
      s.modPart part fun x => { x with mig := { x.mig with phase := 3, dirty := [] } })

end Sys2Proof.Machine
end

