-- ==== Sys2Proof/Machine/Kv.lean ====
section
/-! DEFINITION. The K unit: handles, rows, appends, truncation, intervals, the walkers and the page pool (10 R221 to
R232, R234; 13 R270 to R281). -/

namespace Sys2Proof.Machine

/-! ### Handles and the handle table (R221, R270) -/

def hBound (h : Dword) : Nat := (fld h 0 20).toNat
def hIndex (h : Dword) : Nat := (fld h 20 20).toNat
def hGen (h : Dword) : BitVec 12 := fld h 40 12
def hTenant (h : Dword) : BitVec 12 := fld h 52 12

/-- The detail word of R222. -/
def kInfo (kh why pos : Nat) : Dword := BitVec.ofNat 64 (kh % 8 + why * 256 + pos % 2 ^ 32 * 2 ^ 16)

def State.kAddr (s : State) (p i : Nat) : Nat := (s.part p).ktBase + 32 * i
def State.kWord (s : State) (p i k : Nat) : Dword := s.partWord p (s.kAddr p i + 8 * k)
/-- Length L and committed mark C of a stream. -/
def State.kLen (s : State) (p i : Nat) : Nat := (fld (s.kWord p i 0) 32 32).toNat
def State.kMark (s : State) (p i : Nat) : Nat := (fld (s.kWord p i 1) 0 32).toNat
def State.kPages (s : State) (p i : Nat) : Nat := (fld (s.kWord p i 1) 32 32).toNat
def State.kRoot (s : State) (p i : Nat) : Nat := (s.kWord p i 2).toNat / 8192 * 8192
/-- A write of a KV walker or a K unit: outside the partition's range it is refused and logged (R355). -/
def State.kPoke (s : State) (p a n v : Nat) : State :=
  if s.admits p a n then { s with gddr := s.gddr.storeNat a n v } else s.logEvent 0x355 a
def State.kSetLen (s : State) (p i v : Nat) : State := s.kPoke p (s.kAddr p i + 4) 4 v
def State.kSetMark (s : State) (p i v : Nat) : State := s.kPoke p (s.kAddr p i + 8) 4 v
/-- PAGES of a stream changes, while its entry still names the root table (R271). -/
def State.kAddPages (s : State) (p i root : Nat) (d : Int) : State :=
  if s.kRoot p i = root then s.kPoke p (s.kAddr p i + 12) 4 ((s.kPages p i : Int) + d).toNat else s

/-- The checks of a handle against the table, WHY 2 to 4 (R222). -/
def State.kCheck (s : State) (p : Nat) (h : Dword) : Option Nat :=
  let w := s.kWord p (hIndex h) 0
  if (s.part p).ktCount ≤ hIndex h || !bit w 24 then some 2
  else if hTenant h ≠ fld w 0 12 then some 3
  else if hGen h ≠ fld w 12 12 then some 4
  else none

/-- The handle in a register, or the first failing check, WHY 1 to 4. -/
def State.kHandle (s : State) (t : Nat) (cx : Cx) (k : Nat) : Except Nat Dword :=
  let r := rd (s.ctx t cx).regs.kh k (false, 0)
  if !r.1 then .error 1
  else match s.kCheck (s.partOf t) r.2 with
    | some w => .error w
    | none => .ok r.2

/-! ### The round's view of a stream (R234) -/

/-- The loop, the stream's place in it and the lane of a context, for a stream that the record names. -/
def State.kNamed (s : State) (t : Nat) (cx : Cx) (i : Nat) : Option (GLoop × Nat × Lane) :=
  match (s.ctx t cx).lane with
  | none => none
  | some l =>
    match (s.part (s.partOf t)).loops.find? fun g => g.id == l.loop with
    | none => none
    | some g => ((List.range g.handles.length).find? fun k => hIndex (g.handles.getD k 0) == i).map fun k => (g, k, l)

/-- The same inside a round: the guess routine's appends come before it (R291). -/
def State.kLane (s : State) (t : Nat) (cx : Cx) (i : Nat) : Option (GLoop × Nat × Lane) :=
  (s.kNamed t cx i).filter fun x => !x.2.2.guess

/-- Whether a context is in a lane of a round, the guess routine excepted. -/
def Ctx.inRound (c : Ctx) : Bool := c.lane.any fun l => !l.guess

/-- The length that a context sees (R225, R234). -/
def State.kSeen (s : State) (t : Nat) (cx : Cx) (i : Nat) : Nat :=
  match s.kLane t cx i with
  | some (g, k, l) => g.cr.getD k 0 + l.lane + b2n (l.appended.contains i)
  | none => s.kLen (s.partOf t) i

/-- The contexts of a lane, with their tiles. -/
def State.laneCtxs (s : State) (g : GLoop) (lane : Nat) : List (Nat × Ctx) :=
  (s.tiles.filter fun x => clusterOf x.1 == g.cluster).filterMap fun x =>
    match x.2.p.lane with
    | some l => if l.loop = g.id ∧ l.lane = lane ∧ l.guess = false then some (x.1, x.2.p) else none
    | none => none

/-- A lane may still append: one of its contexts runs. -/
def State.laneRuns (s : State) (g : GLoop) (lane : Nat) : Bool :=
  (s.laneCtxs g lane).any fun x => (x.2.life == .running || x.2.life == .starting) && !(x.2.lane.any (·.poisoned))

/-! ### Pages (R272 to R274) -/

/-- The address of a page word by the root table of its stream, or none where the root entry has V = 0. -/
def State.kSlot (s : State) (p root n : Nat) (value : Bool) : Option Nat :=
  let r := s.partWord p (root + 8 * (n / 256))
  if bit r 0 then some (r.toNat / 4096 * 4096 + 16 * (n % 256) + 8 * b2n value) else none

/-- A page word; 0, which is none, where there is no leaf. -/
def State.kPage (s : State) (p root n : Nat) (value : Bool) : Dword :=
  match s.kSlot p root n value with
  | some a => s.partWord p a
  | none => 0
def pageState (w : Dword) : Nat := (fld w 0 2).toNat
/-- The address of a present page, the offset of a spilled one. -/
def pageLoc (w : Dword) : Nat := w.toNat / 2 ^ 14 * 2 ^ 14

/-- The contexts of a partition. -/
def State.partCtxs (s : State) (p : Nat) : List (Nat × Cx × Ctx) :=
  (s.tiles.filter fun x => s.partOf x.1 == p).flatMap fun x => [(x.1, .p, x.2.p), (x.1, .s, x.2.s)]

/-- The accesses of a partition that are captured: they wait in a context, in its replay buffer, or in the image of one that has
left its tile. -/
def State.captured (s : State) (p : Nat) : List (SlotRec × Obstacle × Origin) :=
  let ents (l : List REnt) : List (SlotRec × Obstacle × Origin) := l.filterMap fun e => e.why.map fun w => (e.toSlot, w, e.org)
  ((s.partCtxs p).flatMap fun x => (x.2.2.delayed.map fun d => (d.cap, d.why, d.org)) ++ ents x.2.2.replay) ++
  ((s.part p).blocks.flatMap fun b => ents b.replay) ++ (s.part p).tasks.flatMap fun k => ents k.replay

/-- What the captured accesses of a partition keep changes by `f`. -/
def State.mapCaptured (s : State) (p : Nat) (f : SlotRec → Obstacle → Origin → Origin) : State :=
  let ent (e : REnt) : REnt := match e.why with
    | some w => { e with org := f e.toSlot w e.org }
    | none => e
  let ctx (c : Ctx) : Ctx := { c with
    delayed := c.delayed.map fun d => { d with org := f d.cap d.why d.org }
    replay := c.replay.map ent }
  State.modPart { s with tiles := s.tiles.map fun x => if s.partOf x.1 = p then (x.1, { x.2 with p := ctx x.2.p, s := ctx x.2.s }) else x } p
    fun x => { x with blocks := x.blocks.map fun b => { b with replay := b.replay.map ent }
                      tasks := x.tasks.map fun k => { k with replay := k.replay.map ent } }

/-- A frame is the source of a row that has not landed (R277). -/
def State.framePinned (s : State) (p f : Nat) : Bool :=
  let ents (l : List REnt) : Bool := l.any fun e => e.frame == some f
  (s.partCtxs p).any (fun x => x.2.2.inflight.any (fun r => r.frame == some f) || ents x.2.2.replay) ||
  (s.part p).blocks.any (fun b => ents b.replay) || (s.part p).tasks.any (fun k => ents k.replay) ||
  (s.captured p).any fun x => x.2.2.frame == some f

/-- A captured K slot waits for a page of a stream, or for rows of an append in it. -/
def Obstacle.waitsPage (w : Obstacle) (value : Bool) (i n : Nat) (v : Bool) : Bool :=
  match w with
  | .page j q u => j == i && q == n && u == v
  | .append j q => j == i && q / 64 == n && value == v
  | _ => false

/-- A page is pinned (R277): a row of it is in flight, an append to it has not landed, a captured slot waits for it. -/
def State.kPinned (s : State) (p i n : Nat) (v : Bool) (f : Nat) : Bool :=
  s.framePinned p f || ((s.part p).appends.any fun a => a.stream == i && a.pos / 64 == n) ||
  (s.captured p).any fun x => x.2.1.waitsPage (slotOp x.1.word == 3) i n v

/-- A page was read or written in this core cycle (R277). -/
def State.kUse (s : State) (p f : Nat) : State :=
  s.modPart p fun x => { x with uses := ⟨f, s.now⟩ :: x.uses.filter fun u => u.frame != f }

def State.kUsed (s : State) (p f : Nat) : Nat := (((s.part p).uses.find? fun u => u.frame == f).map (·.used)).getD 0

/-- Frames of truncated pages go back to the pool once their pins have cleared and the appends to them have landed (R228,
R278). -/
def State.kSweep (s : State) (p : Nat) : State :=
  let busy (f : Nat × List Nat) : Bool := s.framePinned p f.1 || f.2.any fun id => (s.part p).appends.any fun a => a.id == id
  s.modPart p fun x =>
    { x with poolFree := (x.returning.filter fun f => !busy f).foldl (fun l f => insertNat f.1 l) x.poolFree
             returning := x.returning.filter busy }

/-- The present pages of a partition: stream, page number, value page, frame. -/
def State.kPresent (s : State) (p : Nat) : List (Nat × Nat × Bool × Nat) :=
  ((List.range (s.part p).ktCount).filter fun i => bit (s.kWord p i 0) 24).flatMap fun i =>
    ((List.range 1024).filter fun r => bit (s.partWord p (s.kRoot p i + 8 * r)) 0).flatMap fun r =>
      (List.range 256).flatMap fun e => [false, true].filterMap fun v =>
        let w := s.kPage p (s.kRoot p i) (256 * r + e) v
        if pageState w = 1 then some (i, 256 * r + e, v, pageLoc w) else none

/-- The page that is spilled next: least recently used, then the lower address (R277); `own` is the stream and page number
whose pages a walker is bringing for an append that has issued. -/
def State.kVictim (s : State) (p : Nat) (own : Option (Nat × Nat)) : Option (Nat × Nat × Bool × Nat) :=
  ((s.kPresent p).filter fun x => own != some (x.1, x.2.1) && !s.kPinned p x.1 x.2.1 x.2.2.1 x.2.2.2).foldl (fun best x =>
    match best with
    | none => some x
    | some b =>
      let u := s.kUsed p x.2.2.2
      let v := s.kUsed p b.2.2.2
      if u < v ∨ u = v ∧ x.2.2.2 < b.2.2.2 then some x else some b) none

/-- Bytes of a page. -/
def pageBytes : Nat := 16384

/-- A page is spilled and its frame freed (R277). -/
def State.kSpill (s : State) (p : Nat) (own : Option (Nat × Nat)) : Option State :=
  match s.kVictim p own, (s.part p).spillFree with
  | some (i, n, v, f), slot :: rest =>
    match s.kSlot p (s.kRoot p i) n v with
    | some a =>
      let s := s.partStore p ((s.part p).spillBase + slot) (s.partBytes p f pageBytes)
      let s := s.kPoke p a 8 (slot + 2)
      let s := s.kAddPages p i (s.kRoot p i) (-1)
      some (s.modPart p fun x => { x with spillFree := rest, poolFree := insertNat f x.poolFree })
    | none => none
  | _, _ => none

/-- The free frame of lowest address, after a spill where none is free (R277). -/
def State.kTake (s : State) (p : Nat) (own : Option (Nat × Nat)) : Option (Nat × State) :=
  let s := s.kSweep p
  let take (s : State) : Option (Nat × State) :=
    match (s.part p).poolFree with
    | f :: r => some (f, s.modPart p fun x => { x with poolFree := r })
    | [] => none
  match take s with
  | some r => some r
  | none => (s.kSpill p own).bind take

/-- A page word set to present, counted in PAGES. -/
def State.kMap (s : State) (p i root n : Nat) (value : Bool) (f : Nat) : State :=
  match s.kSlot p root n value with
  | some a => ((s.kPoke p a 8 (f + 1)).kAddPages p i root 1).kUse p f
  | none => s

/-- A page that is none gets a frame, and first its leaf when there is none (R275). -/
def State.kFresh (s : State) (p i root n : Nat) (value : Bool) : Option State :=
  let leaf : Option State :=
    if (s.kSlot p root n value).isSome then some s
    else (s.kTake p (some (i, n))).map fun (f, s) =>
      let s := s.partStore p f (List.replicate 4096 0)
      let s := s.kPoke p (root + 8 * (n / 256)) 8 (f + 1)
      s.kAddPages p i root 1
  leaf.bind fun s => (s.kTake p (some (i, n))).map fun (f, s) => s.kMap p i root n value f

/-- A fetch is started unless one is running (R276, R281): its number. -/
def State.kFetch (s : State) (p i root n : Nat) (value : Bool) : Nat × State :=
  match (s.part p).fetches.find? fun f => f.stream == i && f.root == root && f.pageNo == n && f.value == value && !f.freed with
  | some f => (f.id, s)
  | none =>
    let w := s.kPage p root n value
    let (id, s) := s.next
    let (d, s) := s.duration
    (id, s.modPart p fun x => { x with fetches := x.fetches ++ [⟨id, i, n, value, w, s.now + 1 + d, false, root⟩] })

/-- The fetch that an obstacle waits for, started where it needs one. -/
def State.kSeek (s : State) (p root : Nat) (why : Obstacle) : Nat × State :=
  match why with
  | .page i n v => s.kFetch p i root n v
  | _ => (0, s)

/-! ### Reading a row (R225, R226, R234) -/

/-- What a row access finds. -/
inductive KRow where
  | row (v : Vec) (frame : Option Nat)
  /-- A zero row of an earlier lane that did not append (R234). -/
  | skipped
  | wait (why : Obstacle) (stops : Bool)
  | fault (cause : Nat) (einfo : Dword)
  deriving DecidableEq, Repr

/-- An append of a position whose rows have not landed. -/
def State.kLanding (s : State) (p i pos : Nat) : Bool :=
  (s.part p).appends.any fun a => a.stream == i && a.pos == pos && !a.dropped

/-- The address of the row of a position in a page. -/
def rowAddr (page pos : Nat) : Nat := page + 256 * (pos % 64)

/-- A row of a page, by the words that the walker's port admits (R355). -/
def State.kRowAt (s : State) (p a : Nat) : Vec := vecOfWords ((List.range 32).map fun k => s.partWord p (a + 8 * k))

/-- The page of a position as a load finds it (R275). -/
def State.kLoadPage (s : State) (p i root pos kh : Nat) (value : Bool) : KRow :=
  let n := pos / 64
  let w := s.kPage p root n value
  match pageState w with
  | 1 => .row (s.kRowAt p (rowAddr (pageLoc w) pos)) (some (pageLoc w))
  | 0 => .fault Cause.kvp (kInfo kh 3 pos)
  | st => if st = 3 && !bit s.caps 26 then .fault Cause.unit 2 else .wait (.page i n value) true

/-- The row at a position as a context sees it, by the root table that its check has found. The length is that of the
entry while it still names this root table (R271). -/
def State.kRow (s : State) (t : Nat) (cx : Cx) (i root pos kh : Nat) (value : Bool) : KRow :=
  let p := s.partOf t
  if s.kRoot p i = root ∧ s.kSeen t cx i ≤ pos then .row 0 none
  else
    let early : Option KRow := match s.kLane t cx i with
      | some (g, k, l) =>
        let cr := g.cr.getD k 0
        if cr ≤ pos ∧ pos < cr + l.lane then
          let j := pos - cr
          if (s.laneCtxs g j).any fun x => x.2.lane.any fun y => y.appended.contains i then none
          else if s.laneRuns g j then some (.wait (.append i pos) false)
          else some .skipped
        else none
      | none => none
    match early with
    | some r => r
    | none => if s.kLanding p i pos then .wait (.append i pos) false else s.kLoadPage p i root pos kh value

/-- The reads of a walker for a position: those refused are logged (R355). -/
def State.kTrace (s : State) (p i root pos : Nat) (value : Bool) : State :=
  s.logReads p ([s.kAddr p i, root + 8 * (pos / 64 / 256)] ++ (s.kSlot p root (pos / 64) value).toList)

/-- The read of a row, logged where it is refused (R355); its page is used now (R277). -/
def State.kTakeRow (s : State) (p page pos : Nat) : State :=
  (if s.admits p (rowAddr page pos) 256 then s else s.logEvent 0x355 (rowAddr page pos)).kUse p page

/-- The append that a load waits for. -/
def State.kAwaited (s : State) (p root : Nat) (why : Obstacle) : Nat :=
  match why with
  | .append i pos => (((s.part p).appends.find? fun a => a.stream == i && a.pos == pos && a.root == root && !a.dropped).map (·.id)).getD 0
  | _ => 0

/-- The lane has read a zero row of an earlier lane (R234, R292). -/
def State.markZero (s : State) (t : Nat) (cx : Cx) : State :=
  match (s.ctx t cx).lane with
  | some l => s.modLane l fun l => { l with zero := true }
  | none => s

/-- KLDK and KLDV at their slot (R225). -/
def State.kLoad (s : State) (h : SlotRec) (kh : Nat) (a : Dword) (value : Bool) : State :=
  let (t, cx) := s.here
  let pos := a.toNat
  match s.kHandle t cx kh with
  | .error w => s.raise h Cause.kvh (kInfo kh w pos)
  | .ok hd =>
    if 16 * hBound hd ≤ pos then s.raise h Cause.kvh (kInfo kh 5 pos)
    else
      let i := hIndex hd
      let p := s.partOf t
      let root := s.kRoot p i
      let put (s : State) (v : Vec) (f : Option Nat) : State :=
        (s.modCur fun c => { c with ol := c.ol + 1 }).modIssue fun x => { x with out := x.out ++
          [{ rem := 24, slot := h.slot, pc := h.pc, ol := true, frame := f, pay := .vector 29 v }] }
      match s.kRow t cx i root pos kh value with
      | .row v none => put s v none
      | .row v (some g) => put ((s.kTrace p i root pos value).kTakeRow p g pos) v (some g)
      | .skipped => put (s.markZero t cx) 0 none
      | .fault c e => if c = Cause.kvp then s.raiseLate h c e 24 else s.raise h c e
      | .wait why stops =>
        let (fetch, s) := (s.kTrace p i root pos value).kSeek p root why
        let org := { s.origin 0 with root := root, fetch := fetch, app := s.kAwaited p root why }
        let (id, s) := s.next
        let res : Res := { rem := 24, slot := h.slot, pc := h.pc, ol := true, await := some id, pay := .vector 29 0 }
        (s.modCur fun c => { c with ol := c.ol + 1 }).modIssue fun x =>
          { x with delayed := x.delayed ++ [⟨h, why, id, stops, 0, [], { org with order := id }⟩], out := x.out ++ [res] }

/-! ### Appending (R227) -/

/-- A frame for a page that is none, and one for its leaf where there is none (R275): free frames are taken at once. Where a page
has to be spilled for them, the walker does so from the next step 2 on (R281), and the rows land once the page is there; none
where there is nothing to spill. -/
def State.kPageFor (s : State) (p i root n : Nat) (value : Bool) : Option State :=
  let free := ((s.kSweep p).part p).poolFree.length
  (s.kFresh p i root n value).map fun s' =>
    if 1 + b2n (s.kSlot p root n value).isNone ≤ free then s' else (s.kFetch p i root n value).2

/-- The pages of an append: taken where they are none, fetched where they are away (R275); the page that it waits for, with
its fetch. -/
def State.kAppendPages (s : State) (p i root pos kh : Nat) : Except (Nat × Dword) (State × Option (Obstacle × Nat)) :=
  let n := pos / 64
  let one (s : State) (v : Bool) : Except (Nat × Dword) (State × Option (Obstacle × Nat)) :=
    let s := s.kTrace p i root pos v
    let w := s.kPage p root n v
    match pageState w with
    | 1 => .ok (s.kUse p (pageLoc w), none)
    | 0 => match s.kPageFor p i root n v with
      | some s => .ok (s, none)
      | none => .error (Cause.kvp, kInfo kh 2 pos)
    | st => if st = 3 && !bit s.caps 26 then .error (Cause.unit, 2)
      else
        let (id, s) := s.kFetch p i root n v
        .ok (s, some (.page i n v, id))
  match one s false with
  | .error e => .error e
  | .ok (s, a) => match one s true with
    | .error e => .error e
    | .ok (s, b) => .ok (s, a.or b)

/-- The position is reserved and its rows are on their way (R227): the length outside a round and in the guess routine, the
lane's own view for a named stream inside one (R234, R291). -/
def State.kReserve (s : State) (t : Nat) (cx : Cx) (i root pos : Nat) (key value : Vec) : Nat × State :=
  let p := s.partOf t
  let (id, s') := s.next
  let (d, s') := s'.duration
  let s' : State := match s.kNamed t cx i with
    | some (_, _, l) =>
      let s' := s'.modLane l fun l => { l with appended := i :: l.appended }
      if l.guess then s'.kSetLen p i (pos + 1) else s'
    | none => s'.kSetLen p i (pos + 1)
  let s' := s'.modCtx t cx fun c => { c with os := c.os + 1 }
  (id, s'.modPart p fun x => { x with appends := x.appends ++ [⟨id, t, cx, i, pos, key, value, s'.now + 1 + d, false, false, root⟩] })

/-- KAPP at its slot (R227, R234, R291, R296). -/
def State.kAppend (s : State) (h : SlotRec) (kh : Nat) (key value : Vec) : State :=
  let (t, cx) := s.here
  match s.kHandle t cx kh with
  | .error w => s.raise h Cause.kvh (kInfo kh w 0)
  | .ok hd =>
    let i := hIndex hd
    let p := s.partOf t
    let root := s.kRoot p i
    let pos := s.kSeen t cx i
    if (s.kNamed t cx i).any fun x => x.2.2.appended.contains i then s.raise h Cause.specfx (kInfo kh 2 pos)
    else if 16 * hBound hd < pos + 1 then s.raise h Cause.kvh (kInfo kh 5 pos)
    else match (s.cur.lane.filter fun l => l.spec && (s.kNamed t cx i).isNone) with
      | some l =>
        if 32 ≤ l.deferred.length then s.raise h Cause.ebusy (segInfo 0 1 0)
        else s.modLane l fun l => { l with deferred := l.deferred ++ [⟨t, h.word, h.ops, 0, some hd⟩] }
      | none =>
        match s.kAppendPages p i root pos kh with
        | .error e => s.raise h e.1 e.2
        | .ok (s, why) =>
          let (id, s) := s.kReserve t cx i root pos key value
          match why with
          | none => s
          | some (w, fetch) =>
            let org := { s.origin 0 with root := root, fetch := fetch, order := id }
            s.modIssue fun x => { x with delayed := x.delayed ++ [⟨h, w, id, true, 0, [], org⟩] }

/-- A page of a position is present. -/
def State.kHere (s : State) (p root pos : Nat) (value : Bool) : Bool := pageState (s.kPage p root (pos / 64) value) == 1

/-- The loads that have waited for an append get its row (R225), also where a truncation has discarded it since: they have found
the position reserved at their issue (R232). -/
def State.kDeliver (s : State) (p : Nat) (a : Append) : State :=
  s.mapCaptured p fun h w o => match w with
    | .append i pos =>
      let value := slotOp h.word == 3
      if i = a.stream ∧ pos = a.pos ∧ (o.app = a.id ∨ o.app = 0) ∧ o.root = a.root then
        { o with row := some (if value then a.value else a.key)
                 frame := if a.dropped then none else some (pageLoc (s.kPage p a.root (a.pos / 64) value)) }
      else o
    | _ => o

/-- The row kvRowLand (R227): the rows land in their pages, or are discarded by a truncation (R228); os falls. -/
def execKvRowLand (id : Nat) (s : State) : Host.Outcome State Fault Refusal :=
  .next (match s.parts.findSome? fun p => (p.2.appends.find? fun a => a.id == id).map fun a => (p.1, a) with
    | none => s
    | some (p, a) =>
      let ready := a.dropped || s.kHere p a.root a.pos false && s.kHere p a.root a.pos true
      if s.now < a.due || !ready then s
      else
        let put (s : State) (value : Bool) (v : Vec) : State :=
          let f := pageLoc (s.kPage p a.root (a.pos / 64) value)
          (s.kPoke p (rowAddr f a.pos) 256 v.toNat).kUse p f
        let s := (if a.dropped then s else put (put s false a.key) true a.value).kDeliver p a
        let s := s.modPart p fun x => { x with appends := x.appends.filter fun y => y.id != id }
        let s := if a.orphan then s else s.modCtx a.tile a.cx fun c => { c with os := c.os - 1 }
        s.kSweep p)

/-! ### Truncation (R228, R278) -/

/-- Pages of a stream from a page number on whose word is not none: number, value page, word. -/
def State.kPagesFrom (s : State) (p root n0 : Nat) : List (Nat × Bool × Dword) :=
  ((List.range 1024).filter fun r => bit (s.partWord p (root + 8 * r)) 0).flatMap fun r =>
    (List.range 256).flatMap fun e => [false, true].filterMap fun v =>
      let n := 256 * r + e
      let w := s.kPage p root n v
      if n0 ≤ n ∧ pageState w ≠ 0 then some (n, v, w) else none

/-- A captured load of a page that goes keeps its row, and with it the page's frame: the page is freed after the row has landed
(R281). -/
def State.kKeepRows (s : State) (p i root n : Nat) (v : Bool) (frame : Nat) : State :=
  s.mapCaptured p fun h w o => match w with
    | .page j q u => if j = i ∧ q = n ∧ u = v ∧ o.root = root ∧ slotOp h.word ≠ 4 ∧ o.row = none then
        { o with row := some (s.kRowAt p (rowAddr frame (h.ops.headD 0).toNat)), frame := some frame } else o
    | _ => o

/-- The pages at and beyond a new length go (R278): a frame with the appends that are still to land in it. -/
def State.kFree (s : State) (p i len : Nat) : State :=
  let root := s.kRoot p i
  let n0 := (len + 63) / 64
  let s := s.modPart p fun x => { x with fetches := x.fetches.map fun f =>
    if f.stream = i ∧ f.root = root ∧ n0 ≤ f.pageNo ∧ pageState f.word = 0 then { f with freed := true } else f }
  (s.kPagesFrom p root n0).foldl (fun s (n, v, w) =>
    let s := if pageState w = 1 then s.kKeepRows p i root n v (pageLoc w) else s
    let s := match s.kSlot p root n v with
      | some a => s.kPoke p a 8 0
      | none => s
    let fetching := (s.part p).fetches.any fun f => f.stream == i && f.pageNo == n && f.value == v && !f.freed
    let late := ((s.part p).appends.filter fun a => a.stream == i && a.pos / 64 == n).map (·.id)
    match pageState w with
    | 1 => (s.kAddPages p i root (-1)).modPart p fun x => { x with returning := x.returning ++ [(pageLoc w, late)] }
    | _ =>
      if fetching then s.modPart p fun x => { x with fetches := x.fetches.map fun f =>
        if f.stream = i ∧ f.pageNo = n ∧ f.value = v then { f with freed := true } else f }
      else if pageState w = 2 then s.modPart p fun x => { x with spillFree := insertNat (pageLoc w) x.spillFree }
      else s) s

/-- A stream is cut to a length below its own (R228). -/
def State.kCut (s : State) (p i len : Nat) : State :=
  let s := s.kSetLen p i len
  let s := s.modPart p fun x => { x with appends := x.appends.map fun a =>
    if a.stream = i ∧ len ≤ a.pos then { a with dropped := true } else a }
  (s.kFree p i len).kSweep p

/-! ### The instructions -/

/-- KSET (R224). -/
def execKset (gd : BitVec 3) (h a : BitVec 6) (s : State) : Host.Outcome State Fault Refusal :=
  runSlot gd [srcS a] (fun r o s =>
    match s.kCheck (s.partOf s.here.1) o.s0 with
    | some w => s.raise r Cause.kvh (kInfo h.toNat w 0)
    | none => s.modCur (·.mapRegs fun x => { x with kh := wr x.kh h.toNat (true, o.s0) })) s

/-- KCLR (R224). -/
def execKclr (gd : BitVec 3) (h : BitVec 6) (s : State) : Host.Outcome State Fault Refusal :=
  runSlot gd [] (fun _ _ s => s.modCur (·.mapRegs fun x =>
    { x with kh := wr x.kh h.toNat (false, (rd x.kh h.toNat (false, 0)).2) })) s

/-- KLDK (R225). -/
def execKldk (gd : BitVec 3) (h a : BitVec 6) (s : State) : Host.Outcome State Fault Refusal :=
  runSlot gd [srcS a] (fun r o s => s.kLoad r h.toNat o.s0 false) s

/-- KLDV (R225). -/
def execKldv (gd : BitVec 3) (h a : BitVec 6) (s : State) : Host.Outcome State Fault Refusal :=
  runSlot gd [srcS a] (fun r o s => s.kLoad r h.toNat o.s0 true) s

/-- KAPP (R227). -/
def execKapp (gd : BitVec 3) (h a b : BitVec 6) (s : State) : Host.Outcome State Fault Refusal :=
  runSlot gd [srcV a, srcV b] (fun r o s => s.kAppend r h.toNat o.v0 o.v1) s

/-- An operation on the stream of a handle register: KVH for a handle that fails its checks, with the position or length
that the slot names. -/
def State.onStream (s : State) (r : SlotRec) (kh pos : Nat) (f : Nat → State) : State :=
  match s.kHandle s.here.1 s.here.2 kh with
  | .error w => s.raise r Cause.kvh (kInfo kh w pos)
  | .ok hd => f (hIndex hd)

/-- KLEN (R228). -/
def execKlen (gd : BitVec 3) (d h : BitVec 6) (s : State) : Host.Outcome State Fault Refusal :=
  runSlot gd [] (fun r _ s => s.onStream r h.toNat 0 fun i =>
    s.pushS r d 2 (BitVec.ofNat 64 (s.kSeen s.here.1 s.here.2 i))) s

/-- KMARK (R228, R234). -/
def execKmark (gd : BitVec 3) (h : BitVec 6) (s : State) : Host.Outcome State Fault Refusal :=
  runSlot gd [] (fun r _ s => s.onStream r h.toNat 0 fun i =>
    let p := s.partOf s.here.1
    if s.cur.inRound then s.raise r Cause.specfx (kInfo h.toNat 1 0) else s.kSetMark p i (s.kLen p i)) s

/-- KTRUNC (R228, R234, R278). -/
def execKtrunc (gd : BitVec 3) (h a : BitVec 6) (s : State) : Host.Outcome State Fault Refusal :=
  runSlot gd [srcS a] (fun r o s => s.onStream r h.toNat o.s0.toNat fun i =>
    let p := s.partOf s.here.1
    let n := o.s0.toNat
    if s.cur.inRound then s.raise r Cause.specfx (kInfo h.toNat 1 n)
    else if n < s.kMark p i then s.raise r Cause.kvh (kInfo h.toNat 6 n)
    else if s.kLen p i ≤ n then s
    else s.kCut p i n) s

/-- KIVL (R229). -/
def execKivl (gd : BitVec 3) (i a : BitVec 6) (s : State) : Host.Outcome State Fault Refusal :=
  runSlot gd [srcSn a 2] (fun _ o s => s.modCur (·.mapRegs fun x =>
    { x with ki := wr x.ki i.toNat (fld o.s0 0 32, fld o.s1 0 32) })) s

/-- Bit `j` of a tile's mask (R230). -/
def kclsBit (ki : List (BitVec 32 × BitVec 32)) (len t j : Nat) : Bool :=
  let q := t + j
  decide (q < len) && decide (q < 2 ^ 32) && ki.any fun x => decide (x.1.toNat ≤ q) && decide (q < x.2.toNat)

/-- KCLS (R230). The KVH of kh0 reports POS 0: its operand is the first position of a tile, and R222 does not say whether it
counts as the slot's position (DESIGN CHOICE, log 60). -/
def execKcls (gd : BitVec 3) (d a : BitVec 6) (m : BitVec 3) (s : State) : Host.Outcome State Fault Refusal :=
  runSlot gd [srcS a] (fun r o s =>
    let (t, cx) := s.here
    let rg := s.cur.regs
    let go (len : Nat) : State :=
      let bits := ofMask (kclsBit rg.ki.toList len (fld o.s0 0 32).toNat)
      let cls : Dword := if bits = 0 then 0 else if bits = BitVec.allOnes 64 then 2 else 1
      (s.push r 4 (.mask m.toNat bits)).pushS r d 4 cls
    if !(rd rg.kh 0 (false, 0)).1 then go (2 ^ 32)
    else match s.kHandle t cx 0 with
      | .error w => s.raise r Cause.kvh (kInfo 0 w 0)
      | .ok hd => go (s.kSeen t cx (hIndex hd))) s

/-- KPF (R231): a prefetch that can fail in no way. -/
def execKpf (gd : BitVec 3) (h a : BitVec 6) (s : State) : Host.Outcome State Fault Refusal :=
  runSlot gd [srcS a] (fun _ o s =>
    let (t, cx) := s.here
    let p := s.partOf t
    match s.kHandle t cx h.toNat with
    | .error _ => s
    | .ok hd =>
      let i := hIndex hd
      let pos := o.s0.toNat
      if 16 * hBound hd ≤ pos ∨ s.kSeen t cx i ≤ pos then s
      else [false, true].foldl (fun s v =>
        let root := s.kRoot p i
        let s := s.kTrace p i root pos v
        let st := pageState (s.kPage p root (pos / 64) v)
        if st = 2 ∨ st = 3 ∧ bit s.caps 26 = true then (s.kFetch p i root (pos / 64) v).2 else s) s) s

/-! ### Captured K slots (R226, R276, R280) -/

/-- The handle register of a captured K slot. -/
def SlotRec.khNum (h : SlotRec) : Nat := (fld h.word 12 3).toNat

/-- The stream of an obstacle. -/
def Obstacle.stream : Obstacle → Nat
  | .page i _ _ | .append i _ => i
  | _ => 0

/-- A captured K slot may run again: it has its row, its fetch is over, or the append that it waited for is no longer under
way. What it found at its issue is not looked up again (R271). -/
def State.kReady (s : State) (t : Nat) (cx : Cx) (d : Delayed) : Bool :=
  d.org.row.isSome || match d.why with
  | .page _ _ _ => !(s.part (s.partOf t)).fetches.any fun f => f.id == d.org.fetch
  | .append i pos => if d.org.app ≠ 0 then !(s.part (s.partOf t)).appends.any fun a => a.id == d.org.app
    else match s.kRow t cx i d.org.root pos d.cap.khNum (slotOp d.cap.word == 3) with
    | .wait (.append _ _) _ => false
    | _ => true
  | _ => true

/-- An append whose slot will be made anew, or whose page cannot be had where no trap captures it, is undone. The spec does not say
what becomes of the position: it is given back while it is still the last and no committed mark has passed it (DESIGN CHOICE,
log 48; C ≤ L, R221). -/
def State.kUndo (s : State) (t : Nat) (cx : Cx) (id : Nat) : State :=
  let p := s.partOf t
  match (s.part p).appends.find? fun a => a.id == id with
  | none => s
  | some a =>
    let back (s : State) : State := if s.kRoot p a.stream = a.root ∧ s.kLen p a.stream = a.pos + 1 ∧ s.kMark p a.stream ≤ a.pos then s.kSetLen p a.stream a.pos else s
    let s : State := match s.kNamed t cx a.stream with
      | some (_, _, l) =>
        let s := s.modLane l fun l => { l with appended := l.appended.filter (· != a.stream) }
        if l.guess then back s else s
      | none => back s
    let s := s.modPart p fun x => { x with appends := x.appends.filter fun y => y.id != id }
    s.modCtx t cx fun c => { c with os := c.os - 1 }

/-- A trap of the context captures its operations: it has not ended, runs no supervisor code and is no speculative lane. -/
def Ctx.captures (c : Ctx) : Bool := c.life == .running && !c.frame.mode && !c.lane.any (·.spec)

/-- A captured K slot's escalated fault: a trap at the slot. After KVP the slot goes on waiting for its page, and keeps the
count of its landing (R280, R333); after UNIT it is made anew. Where no trap captures it, its append is undone. -/
def State.kEscalate (s : State) (t : Nat) (cx : Cx) (d : Delayed) (cause : Nat) (einfo : Dword) : State :=
  let s := if slotOp d.cap.word = 4 ∧ (s.ctx t cx).captures = false then s.kUndo t cx d.id else s
  if cause = Cause.kvp then
    let n := (fld einfo 16 32).toNat / 64
    let why : Obstacle := match d.why with
      | .page i n v => .page i n v
      | w => .page w.stream n (slotOp d.cap.word == 3)
    let s := s.modCtx t cx fun c => { c with delayed := c.delayed.map fun y => if y.id = d.id then { y with why := why } else y }
    s.lateTrap t cx cause d.cap.slot einfo []
  else
    let s := (s.kUndo t cx d.id).modCtx t cx (·.forget d.id)
    s.lateTrap t cx cause d.cap.slot einfo [d.cap.toEntry 0]

/-- A captured K slot runs again (R226): its row goes to the result that awaits it. -/
def State.kLater (s : State) (t : Nat) (cx : Cx) (d : Delayed) : State :=
  let p := s.partOf t
  let kh := d.cap.khNum
  let root := d.org.root
  let again (s : State) (why : Obstacle) (stops : Bool) (fetch : Nat) : State := s.modCtx t cx fun c =>
    { c with delayed := c.delayed.map fun y =>
        if y.id = d.id then { y with why := why, stops := stops,
                                     org := { y.org with fetch := fetch, app := s.kAwaited p root why } } else y }
  let drop (s : State) : State := s.modCtx t cx fun c => { c with delayed := c.delayed.filter fun y => y.id != d.id }
  if slotOp d.cap.word = 4 then
    match (s.part p).appends.find? fun a => a.id == d.id with
    | none => drop s
    | some a =>
      if a.dropped then drop s
      else match s.kAppendPages p a.stream root a.pos kh with
        | .error e => s.kEscalate t cx d e.1 e.2
        | .ok (s, none) => drop s
        | .ok (s, some (w, fetch)) => again s w true fetch
  else
    let pos := (d.cap.ops.headD 0).toNat
    let value := slotOp d.cap.word == 3
    let i := d.why.stream
    let fill (s : State) (v : Vec) (f : Option Nat) : State := (drop s).modCtx t cx fun c => c.fill d.id (.vector 29 v) 0 f
    let go (r : KRow) : State := match r with
      | .row v none => fill s v none
      | .row v (some g) => fill ((s.kTrace p i root pos value).kTakeRow p g pos) v (some g)
      | .skipped => fill (s.markZero t cx) 0 none
      | .fault c e => s.kEscalate t cx d c e
      | .wait why stops => let (fetch, s) := s.kSeek p root why; again s why stops fetch
    match d.org.row, d.why with
    | some v, _ => fill (match d.org.frame with
        | some g => s.kTakeRow p g pos
        | none => s) v d.org.frame
    | none, .page _ _ _ => go (s.kLoadPage p i root pos kh value)
    | none, _ => go (s.kRow t cx i root pos kh value)

/-! ### The walkers (R276, R277, R279) -/

/-- The owner directory's entry for a pool page id: the module and the address there (R279). -/
def State.ownerOf (s : State) (p id : Nat) : Option (Nat × Nat) :=
  let x := s.part p
  if x.ownerCount = 0 then none
  else
    let a := x.ownerBase + 16 * (id % x.ownerCount)
    let w := s.partWord p a
    if bit w 63 && (fld w 0 50).toNat == id then some ((fld w 50 12).toNat, (s.partWord p (a + 8)).toNat) else none

/-- Free bytes that stand for the data of another module (R279, log 9). -/
def State.anyBytes (s : State) : Nat → List Byte × State
  | 0 => ([], s)
  | n + 1 =>
    let (b, s) := s.freeWord
    let (r, s) := State.anyBytes s n
    (b.setWidth 8 :: r, s)

/-- Captured K slots of running contexts that wait for a fetch. -/
def State.kWaiting (s : State) (p fetch : Nat) : List (Nat × Cx × Delayed) :=
  (s.partCtxs p).flatMap fun x => (x.2.2.delayed.filter fun d => d.org.fetch == fetch && (match d.why with
    | .page _ _ _ => true
    | _ => false)).map fun d => (x.1, x.2.1, d)

/-- A KAPP is still captured: its slot can meet the failure of a fetch. -/
def State.kCaptured (s : State) (p id : Nat) : Bool :=
  (s.partCtxs p).any fun x => (x.2.2.delayed.any fun d => d.id == id) || x.2.2.replay.any fun e => e.await == some id

/-- A fetch fails: the contexts frozen on it take KVP with a reason (R222, R277, R279). A spill slot that a truncation has freed
meanwhile goes back with it (R278). The rows of an append whose context
has gone on without it are discarded (log 48). -/
def State.kFail (s : State) (p : Nat) (f : Fetch) (why : Nat) : State :=
  let freed := (s.part p).fetches.any fun y => y.id == f.id && y.freed
  let s := s.modPart p fun x => { x with
    fetches := x.fetches.filter fun y => y.id != f.id
    spillFree := if freed && pageState f.word == 2 then insertNat (pageLoc f.word) x.spillFree else x.spillFree }
  let s := s.modPart p fun x => { x with appends := x.appends.map fun a =>
    if a.stream = f.stream ∧ a.root = f.root ∧ a.pos / 64 = f.pageNo ∧ s.kCaptured p a.id = false then { a with dropped := true } else a }
  (s.kWaiting p f.id).foldl (fun s (t, cx, d) =>
    let pos := if slotOp d.cap.word = 4
      then (((s.part p).appends.find? fun a => a.id == d.id).map (·.pos)).getD 0 else (d.cap.ops.headD 0).toNat
    s.kEscalate t cx d Cause.kvp (kInfo d.cap.khNum why pos)) s

/-- The fetched bytes of a page, and the state that has used up what it took to get them. -/
def State.kSource (s : State) (p : Nat) (f : Fetch) : Option (List Byte × State) :=
  if pageState f.word = 2 then some (s.partBytes p ((s.part p).spillBase + pageLoc f.word) pageBytes, s)
  else match s.ownerOf p (f.word.toNat / 2 ^ 14) with
    | some (node, a) =>
      let (bs, s) := s.anyBytes pageBytes
      some (bs, s.sendOut ⟨67, 2048, node, 0, 0, a, 0, []⟩ [])
    | none => none

/-- A fetch of a page that a truncation has freed meanwhile: the frozen loads get their rows (R281). -/
def State.kGive (s : State) (p : Nat) (f : Fetch) (bs : List Byte) : State :=
  let row (pos : Nat) : Vec := BitVec.ofNat 2048 (bytesNat ((bs.drop (256 * (pos % 64))).take 256))
  let s := (s.kWaiting p f.id).foldl (fun s (t, cx, d) =>
    s.modCtx t cx fun c => { c.fill d.id (.vector 29 (row (d.cap.ops.headD 0).toNat)) 0 with
      delayed := c.delayed.filter fun y => y.id != d.id }) s
  s.mapCaptured p fun h _ o => if o.fetch = f.id ∧ o.row = none then { o with row := some (row (h.ops.headD 0).toNat) } else o

/-- A frame for an append's page that is none: taken after a spill (R277); where every page is pinned just then, the walker tries
again in the next core cycle (DESIGN CHOICE, log 48). -/
def State.kFreshApplied (s : State) (p : Nat) (f : Fetch) : State :=
  let gone (s : State) : State := s.modPart p fun x => { x with fetches := x.fetches.filter fun y => y.id != f.id }
  if f.freed || pageState (s.kPage p f.root f.pageNo f.value) ≠ 0 then gone s
  else match s.kFresh p f.stream f.root f.pageNo f.value with
    | some s => gone s
    | none => s.modPart p fun x => { x with fetches := x.fetches.map fun y => if y.id = f.id then { y with due := s.now + 1 } else y }

/-- The row pageFetchApplied (R276): the page is present from this step on. Whether what is read holds an error beyond
repair, which is KVP with WHY 3 (R222), is free (log 48). -/
def execPageFetchApplied (id : Nat) (s : State) : Host.Outcome State Fault Refusal :=
  .next (match s.parts.findSome? fun p => (p.2.fetches.find? fun f => f.id == id).map fun f => (p.1, f) with
    | none => s
    | some (p, f) =>
      if s.now < f.due then s
      else if pageState f.word = 0 then s.kFreshApplied p f
      else match s.kSource p f with
        | none => s.kFail p f 1
        | some (bs, s) =>
          let (w, s) := s.freeWord
          let done (s : State) : State := s.modPart p fun x =>
            { x with fetches := x.fetches.filter fun y => y.id != f.id
                     spillFree := if pageState f.word = 2 then insertNat (pageLoc f.word) x.spillFree else x.spillFree }
          if bit w 0 then s.kFail p f 3
          else if f.freed then done (s.kGive p f bs)
          else match s.kTake p none with
            | none => s.kFail p f 2
            | some (fr, s) =>
              done ((s.partStore p fr bs).kMap p f.stream f.root f.pageNo f.value fr))

/-- The row ownerUnreachable (R279): the owner of a page does not answer. -/
def execOwnerUnreachable (id : Nat) (s : State) : Host.Outcome State Fault Refusal :=
  .next (match s.parts.findSome? fun p => (p.2.fetches.find? fun f => f.id == id).map fun f => (p.1, f) with
    | none => s
    | some (p, f) => if pageState f.word = 3 then s.kFail p f 1 else s)

end Sys2Proof.Machine
end

