-- ==== Sys2Proof/Machine/SegmOps.lean ====
section
/-! DEFINITION. The meanings of class G: loads, stores, atomics, binding, shadows (09 R203 to R212). -/

namespace Sys2Proof.Machine

/-! ### Binding (R209, R210) -/

/-- Whether SFREE's check finds the segment in use (R210): a pending range, a pin, a request, an operation still
counted. -/
def State.inUse (s : State) (p t id : Nat) : Bool :=
  let x := s.tile t
  let sq := [x.seqRun, x.seqWait].filterMap fun o => o
  (x.ranges.any fun r => r.seg == id) || (((s.seg? p id).map (·.pins)).getD 0 != 0) ||
  ((s.cluster (clusterOf t)).reqs.any fun r => r.members.contains id) ||
  (s.eops.any fun o => o.tile == t && (o.seg == id || o.far == some (id, t))) ||
  (sq.any fun o => o.segs.contains id)

/-- A deferred operation of the tile's lane names the segment (R296): it stays until the lane's effects have been made. -/
def State.keptDeferred (s : State) (t id : Nat) : Bool := (s.ctx t .p).lane.any fun l => l.deferred.any fun d => d.seg == id

/-- A binding ends (R210): where the tile owns the segment, an open shadow is discarded, and with the last name on the tile a
private segment dies; another keeps its bytes and loses its history (R265), and its entry, no longer owned, is written back
(R236). A replica keeps what its lane has written until the settle (R295). -/
def State.release (s : State) (t : Nat) (cx : Cx) (g id : Nat) : State :=
  let p := s.partOf t
  let s := s.setBinding t cx g none
  match s.seg? p id with
  | none => s
  | some x =>
    if x.owner ≠ t then s
    else
      let x := { x with shadow := none }
      if s.named t id || x.live.isSome || x.priv.isSome && s.keptDeferred t id then s.putSeg p x
      else if x.priv.isSome then (s.dropSeg p id).writeEntry p { x with valid := false, owned := false }
      else
        let y := { x with owned := false, hist := [] }
        (s.putSeg p y).writeEntry p y

/-- A segment that a name on its tile binds fits the budget of the group it joins (R385); one that the group is charged for
already fits. -/
def State.joinsIn (s : State) (p t : Nat) (grp : Option Nat) (x : Seg) : Bool :=
  !s.inStore p x || grp.isSome && x.group == grp || decide (s.use p t grp + x.charge ≤ s.budget t grp)

/-- An existing segment joins a tile and the group of the binding task (R209, R385), whichever group was charged for it
before (DESIGN CHOICE, log 57). -/
def State.adopt (s : State) (p t : Nat) (grp : Option Nat) (x : Seg) : Seg :=
  if x.owned then x
  else
    let y := { x with owned := true, owner := t, group := grp }
    if x.owner = t then
      if x.evict.isNone && !s.joinsIn p t grp x then { y with evict := some t } else y
    else if x.place = .resident || x.place = .lateral || x.place = .moving then { y with evict := some (x.evict.getD x.owner) }
    else y

/-- SBIND (R209): the state with the name bound, or the fault. -/
def State.sbind (s : State) (t : Nat) (cx : Cx) (g : Nat) (w : Dword) : Except (Nat × Dword) State :=
  let p := s.partOf t
  let old := s.binding t cx g
  let grp := s.groupOf t cx
  let busy (o : Option Nat) : Bool := match o with
    | some i => s.inUse p t i
    | none => false
  let drop (s : State) : State := match old with
    | some i => s.release t cx g i
    | none => s
  if bit w 63 then
    let len := (fld w 32 15).toNat
    let fmt := (fld w 47 4).toNat
    if len = 0 ∨ 16384 < len then .error (Cause.segb, segInfo g 5 0)
    else if 8 < fmt then .error (Cause.fmt, segInfo g 3 0)
    else if busy old then .error (Cause.ebusy, segInfo g 4 0)
    else
      let s := drop s
      let id := lowestFree 1 ((s.part p).dir.filter (·.valid))
      if (s.part p).dirSize < id then .error (Cause.segu, segInfo g 4 0)
      else
        let x : Seg := { id := id, len := len, fmt := fmt, swz := bit w 51, place := .backed, zero := true, owner := t,
                         owned := true, back := (fld (s.entryWord p id 2) 0 30).toNat,
                         priv := (s.ctx t cx).task.or (some 0), group := grp }
        .ok (((s.putSeg p x).writeEntry p x).setBinding t cx g (some id))
  else
    let id := (fld w 0 32).toNat
    if old = some id then .ok s
    else match s.seg? p id with
    | none => .error (Cause.segu, segInfo g 2 id)
    | some x =>
      if x.owned && x.owner ≠ t then .error (Cause.segu, segInfo g 3 id)
      else if busy old then .error (Cause.ebusy, segInfo g 4 0)
      else
        let s := drop s
        .ok ((s.modSeg p id (s.adopt p t grp)).setBinding t cx g (some id))

/-- The binding of a name as it stood before the bundle is kept for its E and M slots (R199). -/
def State.keepOld (s : State) (g : Nat) (old : Option Nat) : State :=
  s.modIssue fun i => { i with rebound := some (g, old.map (BitVec.ofNat 32)) }

/-- SBIND. -/
def execSbind (gd : BitVec 3) (n o : BitVec 6) (s : State) : Host.Outcome State Fault Refusal :=
  runSlot gd [srcS o] (fun h x s =>
    let (t, cx) := s.here
    let g := n.toNat
    match s.sbind t cx g x.s0 with
    | .error e => s.raise h e.1 e.2
    | .ok s' => s'.keepOld g (s.binding t cx g)) s

/-- An operation on the segment that a name binds: SEGU without one (R204). -/
def onName (gd : BitVec 3) (n : BitVec 6) (f : SlotRec → Nat → Seg → State → State) (s : State) :
    Host.Outcome State Fault Refusal :=
  runSlot gd [] (fun h _ s =>
    let (t, cx) := s.here
    match s.binding t cx n.toNat with
    | none => s.raise h Cause.segu (segInfo n.toNat 1 0)
    | some id =>
      match s.seg? (s.partOf t) id with
      | none => s.raise h Cause.sega (segInfo 0 1 id true)
      | some x => f h id x s) s

/-- SFREE (R210). -/
def execSfree (gd : BitVec 3) (n : BitVec 6) (s : State) : Host.Outcome State Fault Refusal :=
  onName gd n (fun h id _ s =>
    let (t, cx) := s.here
    if s.inUse (s.partOf t) t id then s.raise h Cause.ebusy (segInfo n.toNat 4 0)
    else (s.release t cx n.toNat id).keepOld n.toNat (some id)) s

/-- VJOIN clears every mark of the segment (R203). An unretired write of the other context marks its lines again when it
retires; one of the own context, or of an engine's operation submitted before, leaves no mark. -/
def execVjoin (gd : BitVec 3) (n : BitVec 6) (s : State) : Host.Outcome State Fault Refusal :=
  onName gd n (fun _ id _ s =>
    let own := agentOf s.here.1 s.here.2
    s.modSeg (s.partOf s.here.1) id fun x =>
      { x with marks := [], joined := s.fresh
               unretired := (x.unretired.filter fun u => u.agent != own).map fun u => { u with joined := true } }) s

/-- SLEN (R211). -/
def execSlen (gd : BitVec 3) (n d : BitVec 6) (s : State) : Host.Outcome State Fault Refusal :=
  onName gd n (fun h _ x s => s.pushS h d 2 (BitVec.ofNat 64 x.bytesLen)) s

/-- The descriptor word of R211. -/
def Seg.descriptor (x : Seg) : Dword :=
  BitVec.ofNat 64 (x.fmt % 16 + b2n x.swz * 16 + x.stateCode * 32 + b2n x.shadow.isSome * 128 +
    (x.live.getD x.id) % 2 ^ 32 * 2 ^ 32)

/-- SFMT (R211). -/
def execSfmt (gd : BitVec 3) (n d : BitVec 6) (s : State) : Host.Outcome State Fault Refusal :=
  onName gd n (fun h _ x s => s.pushS h d 2 x.descriptor) s

/-! ### Shadows (R212) -/

/-- The base of a new shadow's frames (R238), where the store that holds the segment, its group's budget or its host's
spare has room for them; none where the segment goes to backing first and is recalled with its shadow. -/
def State.shadowBase (s : State) (p t : Nat) (x : Seg) : Option Nat :=
  match x.place with
  | .resident =>
    if s.use p t x.group + x.len ≤ s.budget t x.group then freeRun (s.occupied p t) x.len else none
  | .lateral =>
    if (x.len : Int) ≤ s.spare p (x.holder.getD t) then freeRun (s.occupied p (x.holder.getD t)) x.len else none
  | .backed => some 0
  | .moving => if (s.moveOf p x.id).any fun m => m.kind == .back then some 0 else none

/-- SSHD opens a shadow. It needs frames of its own in the store (R238): where there are none, the segment first goes to
backing and is recalled with its shadow (log 13). -/
def execSshd (gd : BitVec 3) (n : BitVec 6) (s : State) : Host.Outcome State Fault Refusal :=
  onName gd n (fun h _ x s =>
    let t := s.here.1
    let p := s.partOf t
    if x.shadow.isSome then s.raise h Cause.ebusy (segInfo n.toNat 3 0)
    else
      let (k, s) := s.next
      let base := s.shadowBase p t x
      let y := { x with shadow := some { id := k, base := base.getD x.base } }
      let s := s.modCur fun c => { c with phase := { c.phase with opened := k :: c.phase.opened } }
      s.putSeg p (if base.isNone && x.evict.isNone then { y with evict := some t } else y)) s

/-- An engine write into the shadow is outstanding (R204, EBUSY WHY 2). -/
def State.shadowBusy (s : State) (t id : Nat) : Bool := s.eops.any fun o => o.tile == t && o.op == 1 && o.seg == id

/-- The bytes of the written shadow lines over those of the segment (R212). A line that CPYIN.sh has written in part counts as
written whole, its other bytes as 0: the spec is silent (DESIGN CHOICE, log 58). -/
def publishLines (g : Seg) (sh : Shadow) : Memory :=
  sh.lines.foldl (fun m n =>
    let k := min 64 (g.bytesLen - 64 * n)
    m.store (64 * n) (sh.bytes.bytes (64 * n) k)) g.bytes

/-- The copy-ins of a phase that have filled a shadow stand in the front version once it is published (R361). -/
def Phase.published (x : Phase) (k : Nat) : Phase :=
  { x with copyIns := x.copyIns.map fun e => if e.shadow = some k then { e with shadow := none } else e }
def Tile.published (x : Tile) (k : Nat) : Tile :=
  { x with p := { x.p with phase := x.p.phase.published k }, s := { x.s with phase := x.s.phase.published k } }
def State.copied (s : State) (k : Nat) : State := { s with tiles := s.tiles.map fun x => (x.1, x.2.published k) }

/-- SPUB and SPUBP on an open shadow: one step, unless it is a race (R212, R263). -/
def State.publish (s : State) (h : SlotRec) (name id : Nat) (g : Seg) (sh : Shadow) : State :=
  let (t, cx) := s.here
  let p := s.partOf t
  let c := s.cur
  let know := g.publishers sh.lines (clockJoin c.clock (s.tile t).handover)
  let a : Acc := { agent := agentOf t cx, tick := accessTick c.tick 0, clock := know, write := true }
  if s.shadowBusy t id then s.raise h Cause.ebusy (segInfo name 2 0)
  else
    match g.race sh.lines a with
    | some n => s.raise h Cause.race (segInfo name 0 (64 * n))
    | none =>
      let g1 := if g.live.isSome
        then { g with pubs := g.pubs ++ sh.lines.map fun k => (k, sh.bytes.bytes (64 * k) (min 64 (g.bytesLen - 64 * k))) }
        else g
      ((s.acquire know).putSeg p { (g1.published sh.lines a).mark sh.lines g.swz with bytes := publishLines g sh, shadow := none }).copied sh.id

/-- SPUB (R212). -/
def execSpub (gd : BitVec 3) (n : BitVec 6) (s : State) : Host.Outcome State Fault Refusal :=
  onName gd n (fun h id x s =>
    match x.shadow with
    | none => s.raise h Cause.ebusy (segInfo n.toNat 5 0)
    | some sh => s.publish h n.toNat id x sh) s

/-- SPUBP also marks a phase commit, alone when no shadow is open (R212, R357). -/
def execSpubp (gd : BitVec 3) (n : BitVec 6) (s : State) : Host.Outcome State Fault Refusal :=
  onName gd n (fun h id x s =>
    let commit (s : State) : State := s.modIssue fun i => { i with commit := true }
    match x.shadow with
    | none => commit s
    | some sh =>
      let s' := s.publish h n.toNat id x sh
      if (s'.issue.map (·.raised.length)) = (s.issue.map (·.raised.length)) then commit s' else s') s

/-- SDISC (R212). -/
def execSdisc (gd : BitVec 3) (n : BitVec 6) (s : State) : Host.Outcome State Fault Refusal :=
  onName gd n (fun h id x s =>
    let t := s.here.1
    if x.shadow.isNone then s.raise h Cause.ebusy (segInfo n.toNat 5 0)
    else if s.shadowBusy t id then s.raise h Cause.ebusy (segInfo n.toNat 2 0)
    else s.modSeg (s.partOf t) id fun y => { y with shadow := none }) s

/-! ### Loads, stores and atomics -/

/-- A GL form: a scalar offset and an immediate (R199). -/
def gLoad (op l : Nat) (gd : BitVec 3) (n o i : BitVec 6) (s : State) : Host.Outcome State Fault Refusal :=
  runSlot gd [srcS o] (fun h x s => s.gAccess ⟨op, n.toNat, h.immS 6 i.toNat, h, x, {}⟩ l false) s

/-- A GS or GV form with its data sources. -/
def gData (op l : Nat) (src : List Rd) (gd : BitVec 3) (n o : BitVec 6) (s : State) : Host.Outcome State Fault Refusal :=
  runSlot gd (srcS o :: src) (fun h x s => s.gAccess ⟨op, n.toNat, 0, h, x, {}⟩ l false) s

/-- LDB (R205). -/
def execLdb (gd : BitVec 3) (n o i : BitVec 6) (s : State) : Host.Outcome State Fault Refusal :=
  gLoad 0 8 gd n o i s

/-- LDBZ (R205). -/
def execLdbz (gd : BitVec 3) (n o i : BitVec 6) (s : State) : Host.Outcome State Fault Refusal :=
  gLoad 1 8 gd n o i s

/-- LDH (R205). -/
def execLdh (gd : BitVec 3) (n o i : BitVec 6) (s : State) : Host.Outcome State Fault Refusal :=
  gLoad 2 8 gd n o i s

/-- LDHZ (R205). -/
def execLdhz (gd : BitVec 3) (n o i : BitVec 6) (s : State) : Host.Outcome State Fault Refusal :=
  gLoad 3 8 gd n o i s

/-- LDW (R205). -/
def execLdw (gd : BitVec 3) (n o i : BitVec 6) (s : State) : Host.Outcome State Fault Refusal :=
  gLoad 4 8 gd n o i s

/-- LDWZ (R205). -/
def execLdwz (gd : BitVec 3) (n o i : BitVec 6) (s : State) : Host.Outcome State Fault Refusal :=
  gLoad 5 8 gd n o i s

/-- LDD (R205). -/
def execLdd (gd : BitVec 3) (n o i : BitVec 6) (s : State) : Host.Outcome State Fault Refusal :=
  gLoad 6 8 gd n o i s

/-- LDV (R206). -/
def execLdv (gd : BitVec 3) (n o i : BitVec 6) (s : State) : Host.Outcome State Fault Refusal :=
  gLoad 8 10 gd n o i s

/-- LDV.s (R206). -/
def execLdvS (gd : BitVec 3) (n o i : BitVec 6) (s : State) : Host.Outcome State Fault Refusal :=
  gLoad 9 10 gd n o i s

/-- LDVG (R207). -/
def execLdvg (gd : BitVec 3) (n o v : BitVec 6) (s : State) : Host.Outcome State Fault Refusal :=
  gData 10 14 [srcV v] gd n o s

/-- STB (R205). -/
def execStb (gd : BitVec 3) (n o x : BitVec 6) (s : State) : Host.Outcome State Fault Refusal :=
  gData 16 0 [srcS x] gd n o s

/-- STH (R205). -/
def execSth (gd : BitVec 3) (n o x : BitVec 6) (s : State) : Host.Outcome State Fault Refusal :=
  gData 17 0 [srcS x] gd n o s

/-- STW (R205). -/
def execStw (gd : BitVec 3) (n o x : BitVec 6) (s : State) : Host.Outcome State Fault Refusal :=
  gData 18 0 [srcS x] gd n o s

/-- STD (R205). -/
def execStd (gd : BitVec 3) (n o x : BitVec 6) (s : State) : Host.Outcome State Fault Refusal :=
  gData 19 0 [srcS x] gd n o s

/-- STV (R206). -/
def execStv (gd : BitVec 3) (n o x : BitVec 6) (s : State) : Host.Outcome State Fault Refusal :=
  gData 20 0 [srcV x] gd n o s

/-- STV.s (R206). -/
def execStvS (gd : BitVec 3) (n o x : BitVec 6) (s : State) : Host.Outcome State Fault Refusal :=
  gData 21 0 [srcV x] gd n o s

/-- STVM (R206). -/
def execStvm (gd : BitVec 3) (n o x : BitVec 6) (s : State) : Host.Outcome State Fault Refusal :=
  gData 22 0 [srcV x] gd n o s

/-- STVS (R207). -/
def execStvs (gd : BitVec 3) (n o v : BitVec 6) (s : State) : Host.Outcome State Fault Refusal :=
  gData 23 0 [srcVn v 2] gd n o s

/-- AADD.w (R208). -/
def execAaddW (gd : BitVec 3) (n o x : BitVec 6) (s : State) : Host.Outcome State Fault Refusal :=
  gData 24 12 [srcS x] gd n o s

/-- AADD.d (R208). -/
def execAaddD (gd : BitVec 3) (n o x : BitVec 6) (s : State) : Host.Outcome State Fault Refusal :=
  gData 25 12 [srcS x] gd n o s

/-- AMIN.w (R208). -/
def execAminW (gd : BitVec 3) (n o x : BitVec 6) (s : State) : Host.Outcome State Fault Refusal :=
  gData 26 12 [srcS x] gd n o s

/-- AMAX.w (R208). -/
def execAmaxW (gd : BitVec 3) (n o x : BitVec 6) (s : State) : Host.Outcome State Fault Refusal :=
  gData 27 12 [srcS x] gd n o s

/-- AXCHG.d (R208). -/
def execAxchgD (gd : BitVec 3) (n o x : BitVec 6) (s : State) : Host.Outcome State Fault Refusal :=
  gData 28 12 [srcS x] gd n o s

/-- ACAS.d (R208). -/
def execAcasD (gd : BitVec 3) (n o x : BitVec 6) (s : State) : Host.Outcome State Fault Refusal :=
  gData 29 12 [srcSn x 2] gd n o s

end Sys2Proof.Machine
end

