-- ==== Sys2Proof/Machine/Engine.lean ====
section
/-! DEFINITION. The copy engines: the packets of class E and POSTR, their checks, their steps, their signals
(04 R104, 09 R213 to R220, 12 R257, 17 R349 to R351). -/

namespace Sys2Proof.Machine

/-! ### Packets (R213) -/

/-- A packet in hand: the opcode of class E (64 for POSTR), the D field, its words and the row of a PUTR. -/
structure Packet where
  op : Nat
  df : Nat
  w : List Dword
  row : Option Vec := none
  deriving DecidableEq, Repr

/-- Word `k` of a packet, counted from 1. -/
def Packet.word (x : Packet) (k : Nat) : Dword := x.w.getD (k - 1) 0

/-- Words of a packet. -/
def packetWords (op : Nat) : Nat :=
  match op with
  | 5 | 7 | 9 => 4
  | 11 => 2
  | 64 => 1
  | _ => 3

def Packet.isVirtual (x : Packet) : Bool := decide (x.op < 3) || decide (8 ≤ x.op) && decide (x.op < 11)
def Packet.isAtomic (x : Packet) : Bool := decide (8 ≤ x.op) && decide (x.op < 11)
/-- Puts and gets: the target may be on another module. -/
def Packet.mayLeave (x : Packet) : Bool := decide (5 ≤ x.op) && decide (x.op < 8)
/-- Whether D names a segment. -/
def Packet.hasLocal (x : Packet) : Bool := decide (x.op < 6) || decide (7 ≤ x.op) && decide (x.op < 11)

/-- The virtual address of a packet: 57 bits (R347). -/
def Packet.va (x : Packet) : Nat := (x.word (if x.isAtomic then 1 else 2)).toNat % 2 ^ 57
/-- Length in bytes. -/
def Packet.len (x : Packet) : Nat :=
  match x.op with
  | 0 | 1 | 2 => (x.word 3).toNat
  | 3 | 4 | 5 | 7 => (fld (x.word 3) 32 32).toNat
  | 6 => 256
  | 8 | 9 | 10 => 8
  | 11 => 128
  | _ => 0
/-- Offset of the bytes written into a segment. -/
def Packet.dst (x : Packet) : Nat :=
  match x.op with
  | 0 | 1 => (x.word 1).toNat
  | 3 | 5 | 6 => (x.word 2).toNat
  | 4 => (fld (x.word 2) 0 32).toNat
  | 7 => (fld (x.word 3) 0 32).toNat
  | 9 => (x.word 4).toNat
  | _ => (x.word 3).toNat
/-- Offset of the bytes read from a segment. -/
def Packet.src (x : Packet) : Nat :=
  match x.op with
  | 2 => (x.word 1).toNat
  | 7 | 11 => (x.word 2).toNat
  | _ => (fld (x.word 3) 0 32).toNat
/-- The flag word: DELTA, FLAG, GEN. -/
def Packet.flagWord (x : Packet) : Nat :=
  match x.op with
  | 4 => (fld (x.word 2) 32 28).toNat
  | 5 | 7 => (fld (x.word 4) 0 28).toNat
  | 6 => (fld (x.word 3) 0 28).toNat
  | 64 => (fld (x.word 1) 0 28).toNat
  | _ => 0
def Packet.tgtId (x : Packet) : Nat := (fld (x.word 1) 0 32).toNat
def Packet.tgtTile (x : Packet) : Nat := (fld (x.word 1) (if x.op = 64 then 28 else 32) 11).toNat
def Packet.node (x : Packet) : BitVec 12 := fld (x.word 1) (if x.op = 64 then 39 else 43) 12
def Packet.loc (x : Packet) : Bool := bit (x.word 1) (if x.op = 64 then 51 else 55)
/-- The target is on another module. -/
def Packet.remote (x : Packet) (modid : BitVec 12) : Bool :=
  (x.mayLeave || x.op == 64) && !x.loc && x.node != modid
/-- The segments of this module that a packet writes by id, with their tiles, or that it reads by id. -/
def Packet.targets (x : Packet) (t : Nat) (modid : BitVec 12) : List (Nat × Nat) :=
  match x.op with
  | 3 => [(x.tgtId, x.tgtTile)]
  | 4 => ((List.range 8).filter fun i => (x.word 1).getLsbD (32 + i)).map fun i =>
      ((x.tgtId + i) % 2 ^ 32, clusterOf t * 8 + i)
  | 5 | 6 | 7 => if x.remote modid then [] else [(x.tgtId, x.tgtTile)]
  | _ => []

/-- The packet of an operation in progress. -/
def EOp.pkt (o : EOp) : Packet := ⟨o.op, o.df, o.packet, o.row⟩

/-! ### The checks of R214 -/

/-- A value of a packet that has to be aligned, and the range that it begins (R214 check 6). -/
structure PVal where
  pword : Nat
  value : Nat
  al : Nat
  name : Nat
  byId : Bool
  /-- The segment's length in bytes, when the value is the offset of a range. -/
  room : Option Nat := none
  deriving DecidableEq, Repr

/-- The values of a packet in the order of R384. -/
def Packet.values (x : Packet) (loc : Option Seg) (tgt : List Seg) : List PVal :=
  let size := loc.bind fun g => if g.valid then some g.bytesLen else none
  let own (k v al : Nat) : PVal := ⟨k, v, al, x.df, false, size⟩
  let far (k v al : Nat) : List PVal := tgt.map fun g => ⟨k, v, al, 0, true, some g.bytesLen⟩
  let num (k v al : Nat) : PVal := ⟨k, v, al, x.df, false, none⟩
  match x.op with
  | 0 | 1 | 2 => [own 1 (x.word 1).toNat 4, num 2 (x.word 2).toNat 4, num 3 x.len 4]
  | 4 => ⟨2, x.dst, 4, 0, true, none⟩ :: far 2 x.dst 4 ++ [own 3 x.src 4, num 3 x.len 4]
  | 3 | 5 => far 2 x.dst 4 ++ [own 3 x.src 4, num 3 x.len 4]
  | 6 => far 2 x.dst 4
  | 7 => far 2 x.src 4 ++ [own 3 x.dst 4, num 3 x.len 4]
  | 8 | 10 => [num 1 (x.word 1).toNat 8, own 3 x.dst 8]
  | 9 => [num 1 (x.word 1).toNat 8, own 4 x.dst 8]
  | 11 => far 2 x.src 128
  | _ => []

/-- The SEGB detail that a packet's values give (R384). -/
def Packet.segb (x : Packet) (loc : Option Seg) (tgt : List Seg) : Option Dword :=
  let vs := x.values loc tgt
  let n := x.len
  match vs.find? fun v => v.value % v.al != 0 with
  | some v => some (segInfo v.name 2 v.value v.byId v.pword)
  | none =>
    match vs.find? fun v => n != 0 && (v.room.any fun r => decide (r < v.value + n)) with
    | some v => some (segInfo v.name 1 v.value v.byId v.pword)
    | none =>
      match loc with
      | some g =>
        let a := if x.op = 7 then x.dst else x.src
        let b := if x.op = 7 then x.src else x.dst
        if (tgt.any fun f => f.id == g.id) && n != 0 && decide (a < b + n) && decide (b < a + n) then
          some (segInfo 0 4 b true 2)
        else none
      | none => none

/-- Checks 3 and 4 of R214: the local segment and the targets, or the fault. A segment whose directory entry has VALID = 0 stands
without a length: its recall cannot be serviced, and the operation completes with SEGA (R250). -/
def State.eNames (s : State) (t : Nat) (loc? : Option Nat) (x : Packet) :
    Except (Nat × Dword) (Option Seg × List Seg) :=
  let p := s.partOf t
  if x.remote s.modid && !bit s.caps 25 then .error (Cause.unit, 1)
  else
    let own : Except (Nat × Dword) (Option Seg) :=
      if !x.hasLocal then .ok none
      else match loc? with
        | none => .error (Cause.segu, segInfo x.df 1 0)
        | some i => match s.seg? p i with
          | none => .ok (some { id := i, len := 0, valid := false })
          | some g =>
            if x.op = 1 && g.shadow.isNone then .error (Cause.ebusy, segInfo x.df 5 0) else .ok (some g)
    match own with
    | .error e => .error e
    | .ok loc =>
      if x.op = 11 then
        match s.seg? p x.tgtId with
        | none => .error (Cause.segu, segInfo 0 2 x.tgtId true 1)
        | some g => .ok (loc, [g])
      else
        let ts := x.targets t s.modid
        match ts.find? fun y => match s.seg? p y.1 with
            | none => true
            | some g => !(g.owned && g.owner == y.2) with
        | some y => .error (Cause.segu, segInfo 0 (if (s.seg? p y.1).isNone then 2 else 3) y.1 true 1)
        | none => .ok (loc, ts.filterMap fun y => s.seg? p y.1)

/-- Check 5 of R214. R204 leaves open which operand of a mismatch is the failing one (DESIGN CHOICE, log 43): of a copy with
virtual memory the address, the first whose page disagrees with an earlier one, or the first of the range; of a copy
between segments, a put or a get the segment that D names with its offset; of a SPAWN the segment with its offset. -/
def State.eFormats (s : State) (t asid : Nat) (x : Packet) (loc : Option Seg) (tgt : List Seg) : Option Dword :=
  let lf := (loc.map (·.fmt)).getD 0
  if x.op < 3 then
    let fs := s.pageFmts (s.partOf t) (clusterOf t) asid x.va x.len
    let f := (fs.map (·.2)).headD 0
    match fs.find? fun g => g.2 != f with
    | some g => some (segInfo x.df 1 g.1 false 2)
    | none => if !fs.isEmpty && !fmtMatch lf f then some (segInfo x.df 1 x.va false 2) else none
  else if x.isAtomic then (if lf ≠ 0 then some (segInfo x.df 2 x.dst false (if x.op = 9 then 4 else 3)) else none)
  else if x.op = 11 then
    if tgt.any fun g => g.fmt != 0 then some (segInfo 0 2 x.src true 2) else none
  else if x.op = 6 then none
  else if tgt.any fun g => !fmtMatch lf g.fmt then some (segInfo x.df 1 (if x.op = 7 then x.dst else x.src) false 3) else none

/-- The members of an operation's residency set (R242): its local segment, and its destination on the issuing tile. The
shadow of a CPYIN.sh target has the state, the store and the pins of its segment (R238), whose number stands for both. -/
def Packet.members (x : Packet) (t : Nat) (loc : Option Seg) (tgt : List Seg) : List Nat :=
  let own := (loc.map (·.id)).toList
  let dst := if x.op = 7 ∨ x.op = 11 then [] else (tgt.filter fun g => g.owner == t).map (·.id)
  own ++ dst.filter fun i => !own.contains i

/-- How many members the set has, the shadow of a CPYIN.sh target counted (R242, R249). -/
def Packet.setSize (x : Packet) (ms : List Nat) : Nat := ms.length + b2n (x.op == 1)

/-- Checks 6 to 8 of R214 on a packet whose names and formats have passed. -/
def State.eBounds (s : State) (t : Nat) (cx : Cx) (x : Packet) (loc : Option Seg) (tgt : List Seg) :
    Option (Nat × Dword) :=
  let p := s.partOf t
  match x.segb loc tgt with
  | some d => some (Cause.segb, d)
  | none =>
    let ms := x.members t loc tgt
    let need := s.chargeOf p ms
    let have_ := s.budget t (s.groupOf t cx)
    if have_ < need then some (Cause.setbig, setbigInfo need have_ (x.setSize ms))
    else if x.isVirtual then
      (s.xlatFault p (clusterOf t) (s.ctx t cx).asid x.va x.len (if x.isAtomic then 1 else 2)
        (x.op == 2 || x.isAtomic) x.isAtomic).map fun d => (Cause.xlat, d)
    else none

/-- Operations that a speculative lane defers to its acceptance (R296). -/
def deferred (op : Nat) : Bool := decide (2 ≤ op) && decide (op < 12)

/-- The checks of R214 in their order, without the translation's wait, for a name that binds `loc?`. -/
def State.eCheck (s : State) (t : Nat) (cx : Cx) (x : Packet) (loc? : Option Nat) : Except (Nat × Dword) (Option Seg × List Seg) :=
  let c := s.ctx t cx
  let full := match c.lane with
    | some l => if l.spec && deferred x.op then decide (32 ≤ l.deferred.length) else c.oc == 32
    | none => c.oc == 32
  if full then .error (Cause.ebusy, segInfo 0 1 0)
  else
    match s.eNames t loc? x with
    | .error e => .error e
    | .ok (loc, tgt) =>
      match s.eFormats t c.asid x loc tgt with
      | some d => .error (Cause.fmt, d)
      | none =>
        match s.eBounds t cx x loc tgt with
        | some e => .error e
        | none => .ok (loc, tgt)

/-! ### Submission -/

/-- The pending ranges that a packet enters at issue (R202, R214, R215): of its local segment, and of the segments on its
own tile that it names by id. -/
def Packet.ranges (x : Packet) (id t : Nat) (loc : Option Seg) (far : List (Nat × Nat)) : List Range :=
  if x.len = 0 then []
  else
    let own : List Range := match loc with
      | none => []
      | some g =>
        if x.op = 1 then []
        else if x.op = 0 ∨ x.op = 7 ∨ x.isAtomic then [⟨id, g.id, x.dst, x.dst + x.len, true⟩]
        else [⟨id, g.id, x.src, x.src + x.len, false⟩]
    own ++ (far.filter fun y => y.2 == t).map fun y =>
      if x.op = 7 ∨ x.op = 11 then ⟨id, y.1, x.src, x.src + x.len, false⟩ else ⟨id, y.1, x.dst, x.dst + x.len, true⟩

/-- The packet moves nothing and completes at once: a CPYMC whose mask is 0 (R216). -/
def Packet.idle (x : Packet) : Bool := x.op == 4 && fld (x.word 1) 32 8 == 0

/-- A context's place in the ranking of R243: 0, or 1 and its lane while it is speculative. -/
def Ctx.laneRank (c : Ctx) : Nat := (c.lane.map fun l => if l.spec then l.lane + 1 else 0).getD 0

def State.eop? (s : State) (id : Nat) : Option EOp := s.eops.find? fun o => o.id == id
def State.modEop (s : State) (id : Nat) (f : EOp → EOp) : State :=
  { s with eops := s.eops.map fun o => if o.id = id then f o else o }

/-- The pages that a waiting operation locks: its range translated again, so that one that a migration has held back finds
the new page (R354). -/
def State.pagesNow (s : State) (o : EOp) : List LPage :=
  s.pagesOf (s.partOf o.tile) (clusterOf o.tile) o.asid o.pkt.va o.pkt.len o.pages

/-- The ticket of an operation (R243): the core cycle of its submission, the tile, the context, the slot position. -/
def EOp.ticket (o : EOp) : List Nat := [o.cycle, o.tile, o.cx.num, o.slot, o.id]

/-- Whether an operation that needs locks takes them now: one with an earlier ticket that waits keeps the entries it needs
(R351). -/
def State.canAcquire (s : State) (o : EOp) : Bool :=
  let k := clusterOf o.tile
  let p := s.partOf o.tile
  let older := s.eops.filter fun q => q.stage == 1 && clusterOf q.tile == k && keyBelow q.ticket o.ticket
  let want := (older ++ [o]).map fun q => (s.pagesNow q).length
  o.stage == 1 && s.canLock p k o.asid (s.pagesNow o) &&
    (older.isEmpty || decide ((s.cluster k).locks.length + want.sum ≤ 512))

/-- An operation takes all its locks at once, and asks for residency with the ticket of its submission (R242, R243, R351). -/
def State.acquireLocks (s : State) (o : EOp) : State :=
  let k := clusterOf o.tile
  let pages := s.pagesNow o
  let s := s.fillTlb (s.partOf o.tile) k o.asid (rangePages o.pkt.va o.pkt.len)
  let s := s.takeLocks k o.asid o.id pages
  let s := s.modEop o.id fun o => { o with stage := 0, pages := pages }
  (s.request o.tile o.cx 2 o.id [o.seg] (s.ctx o.tile o.cx).laneRank o.cycle o.slot o.cycle).2

/-- The row lockAcquire (R351). -/
def execLockAcquire (op : Nat) (s : State) : Host.Outcome State Fault Refusal :=
  .next (match s.eop? op with
    | some o => if s.canAcquire o then s.acquireLocks o else s
    | none => s)

/-- The operation is queued (R214): oc rises, its ranges enter the scoreboard, it takes its page locks or waits for them, and
asks for residency (R242). `clock` and `tick` are those of the context's bundle. -/
def State.eSubmit (s : State) (t : Nat) (cx : Cx) (slot : Nat) (x : Packet) (loc : Option Seg) (tgt : List Seg)
    (clock : Clock) (tick : Nat) : State :=
  let p := s.partOf t
  let k := clusterOf t
  let c := s.ctx t cx
  let (id, s) := s.next
  let s := if x.isVirtual then s.fillTlb p k c.asid (rangePages x.va x.len) else s
  let far := tgt.map fun g => (g.id, g.owner)
  let pages := if x.isVirtual then s.pagesOf p k c.asid x.va x.len [] else []
  let ms := x.members t loc tgt
  let stage := if x.idle then 3 else if !pages.isEmpty then 1 else if ms.isEmpty then 2 else 0
  let o : EOp :=
    { id := id, tile := t, cx := cx, op := x.op, df := x.df, packet := x.w, asid := c.asid, stage := stage, slot := slot
      seg := ((if x.op = 11 then tgt.head? else loc).map (·.id)).getD 0
      far := if x.op = 4 then far.find? fun y => y.2 == t else far.head?
      row := x.row
      data := match x.row with
        | some v => natBytes 256 v.toNat
        | none => []
      after := tick, pages := pages, agent := id, clock := clock, order := id, cycle := s.now }
  let s := { s with eops := s.eops ++ [o] }
  let s := s.modTile t fun y => { y with ranges := y.ranges ++ if x.idle then [] else x.ranges id t loc far }
  let s := s.modCtx t cx fun c => { c with oc := c.oc + 1 }
  if stage = 0 then (s.request t cx 2 id ms c.laneRank s.now slot).2
  else if s.canAcquire o then s.acquireLocks o
  else s

/-- A packet that has passed its checks: queued, or held to the acceptance of a speculative lane (R296); a copy-in
is entered in the phase's log (R358). -/
def State.eAccept (s : State) (t : Nat) (cx : Cx) (h : SlotRec) (x : Packet) (loc : Option Seg) (tgt : List Seg)
    (clock : Clock) (tick : Nat) : State :=
  let c := s.ctx t cx
  if (c.lane.any fun l => l.spec) && deferred x.op then
    match c.lane with
    | some l => s.modLane l fun l => { l with deferred := l.deferred ++ [⟨t, h.word, h.ops, (loc.map (·.id)).getD 0, none⟩] }
    | none => s
  else
    let s := s.eSubmit t cx h.slot x loc tgt clock tick
    let sh : Option Nat := if x.op = 1 then (loc.bind (·.shadow)).map (·.id) else none
    if x.op < 2 then s.modCtx t cx fun c => { c with phase := { c.phase with copyIns := c.phase.copyIns ++ [⟨h.word, x.w, sh⟩] } }
    else s

/-- Whether a page of the packet's range is not in the cluster's TLB, so that a walk has to decide (R349). -/
def State.eMiss (s : State) (t asid : Nat) (x : Packet) : Bool :=
  x.isVirtual && (rangePages x.va x.len).any fun u => (s.tlbHit (clusterOf t) asid u).isNone

/-- The slot waits for the walk of page tables; it keeps the segment that its name bound before its bundle (R199, R349). -/
def State.eWalk (s : State) (h : SlotRec) (loc? : Option Nat) : State :=
  let clock := s.cur.releases s.here.1 s.here.2
  let (id, s) := s.next
  let (d, s) := s.duration
  s.modIssue fun i => { i with delayed := i.delayed ++
    [⟨h, .walk, id, true, s.now + 1 + d, clock, { s.origin (loc?.getD 0) with order := id }⟩] }

/-- An E slot at issue (R214): on a miss in the TLB its context freezes until the walk has decided (R349). -/
def State.eSlot (s : State) (h : SlotRec) (x : Packet) : State :=
  let (t, cx) := s.here
  let c := s.cur
  let loc? := if x.hasLocal then s.bindingBefore t cx x.df else none
  let miss := s.eMiss t c.asid x
  match s.eCheck t cx x loc? with
  | .error e =>
    if miss && (e.1 == Cause.fmt || e.1 == Cause.segb || e.1 == Cause.setbig || e.1 == Cause.xlat) then s.eWalk h loc?
    else s.raise h e.1 e.2
  | .ok (loc, tgt) =>
    if miss then s.eWalk h loc? else s.eAccept t cx h x loc tgt (c.releases t cx) c.tick

/-- The packet that a captured slot stands for. -/
def SlotRec.packet (h : SlotRec) : Packet :=
  let op := slotOp h.word
  let df := (fld h.word 12 6).toNat
  if op = 6 then ⟨6, df, h.ops.drop 32, some (vecOfWords h.ops)⟩ else ⟨op, df, h.ops, none⟩

/-- The walk has decided (R349): the slot is performed as in its own bundle, or its fault is given. -/
def State.eWalked (s : State) (t : Nat) (cx : Cx) (d : Delayed) : Except (Nat × Dword) State :=
  let x := d.cap.packet
  match s.eCheck t cx x (if d.org.seg = 0 then none else some d.org.seg) with
  | .error e => .error e
  | .ok (loc, tgt) => .ok (s.eAccept t cx d.cap x loc tgt d.after d.org.tick)

/-- A form with a name and a packet. -/
def eForm (op : Nat) (gd : BitVec 3) (n a : BitVec 6) (s : State) : Host.Outcome State Fault Refusal :=
  runSlot gd [srcSn a (packetWords op)] (fun h o s => s.eSlot h ⟨op, n.toNat, o.s, none⟩) s

/-- CPYIN (R216). -/
def execCpyin (gd : BitVec 3) (n a : BitVec 6) (s : State) : Host.Outcome State Fault Refusal := eForm 0 gd n a s
/-- CPYIN.sh (R216). -/
def execCpyinSh (gd : BitVec 3) (n a : BitVec 6) (s : State) : Host.Outcome State Fault Refusal := eForm 1 gd n a s
/-- CPYOUT (R216). -/
def execCpyout (gd : BitVec 3) (n a : BitVec 6) (s : State) : Host.Outcome State Fault Refusal := eForm 2 gd n a s
/-- CPYSG (R216). -/
def execCpysg (gd : BitVec 3) (n a : BitVec 6) (s : State) : Host.Outcome State Fault Refusal := eForm 3 gd n a s
/-- CPYMC (R216). -/
def execCpymc (gd : BitVec 3) (n a : BitVec 6) (s : State) : Host.Outcome State Fault Refusal := eForm 4 gd n a s
/-- PUTS (R217). -/
def execPuts (gd : BitVec 3) (n a : BitVec 6) (s : State) : Host.Outcome State Fault Refusal := eForm 5 gd n a s
/-- PUTR pops a row of a result queue (R217). -/
def execPutr (gd : BitVec 3) (q a : BitVec 6) (s : State) : Host.Outcome State Fault Refusal :=
  runSlot gd [srcRq q, srcSn a 3] (fun h o s => s.eSlot h ⟨6, q.toNat, o.s, some o.v0⟩) s
/-- GETS (R217). -/
def execGets (gd : BitVec 3) (n a : BitVec 6) (s : State) : Host.Outcome State Fault Refusal := eForm 7 gd n a s
/-- ATADD (R219). -/
def execAtadd (gd : BitVec 3) (n a : BitVec 6) (s : State) : Host.Outcome State Fault Refusal := eForm 8 gd n a s
/-- ATCAS (R219). -/
def execAtcas (gd : BitVec 3) (n a : BitVec 6) (s : State) : Host.Outcome State Fault Refusal := eForm 9 gd n a s
/-- ATXCH (R219). -/
def execAtxch (gd : BitVec 3) (n a : BitVec 6) (s : State) : Host.Outcome State Fault Refusal := eForm 10 gd n a s
/-- SPAWN (R220). -/
def execSpawn (gd : BitVec 3) (a : BitVec 6) (s : State) : Host.Outcome State Fault Refusal := eForm 11 gd 0 a s

/-- SPECFX of a POSTR in a speculative lane (R297): outside the lane group or the window of flags. -/
def State.postrOutside (s : State) (t : Nat) (cx : Cx) (x : Packet) : Bool :=
  match (s.ctx t cx).lane with
  | some l =>
    l.spec && (match (s.part (s.partOf t)).loops.find? fun g => g.id == l.loop with
      | some g =>
        let f := x.flagWord / 2 ^ 16 % 16
        x.remote s.modid || clusterOf x.tgtTile != g.cluster ||
          x.tgtTile % 8 / 2 ^ g.lgs != t % 8 / 2 ^ g.lgs ||
          !(decide (g.fbase ≤ f) && decide (f < g.fbase + g.fcnt))
      | none => false)
  | none => false

/-- POSTR (R104): the signal leaves once the stores of the bundles up to its own have retired. -/
def execPostr (gd : BitVec 3) (a : BitVec 6) (s : State) : Host.Outcome State Fault Refusal :=
  runSlot gd [srcS a] (fun h o s =>
    let (t, cx) := s.here
    let c := s.cur
    let x : Packet := ⟨64, 0, [o.s0], none⟩
    if c.oc = 32 then s.raise h Cause.ebusy (segInfo 0 1 0)
    else if x.remote s.modid && !bit s.caps 25 then s.raise h Cause.unit 1
    else if s.postrOutside t cx x then
      s.raise h Cause.specfx (BitVec.ofNat 64 (4 * 256 + (x.flagWord / 2 ^ 16 % 16 + x.tgtTile * 16) * 2 ^ 16))
    else s.eSubmit t cx h.slot x none [] (c.releases t cx) (c.tick + 1)) s

/-! ### The steps of an operation (R257) -/

/-- Bytes that an operation reads before it writes. -/
def EOp.need (o : EOp) : Nat := if o.op = 64 then 0 else o.pkt.len
/-- The segments that an operation's bytes land in, with their tiles. -/
def EOp.dests (o : EOp) (modid : BitVec 12) : List (Nat × Nat) :=
  match o.op with
  | 0 | 1 | 7 | 8 | 9 | 10 => [(o.seg, o.tile)]
  | 3 | 4 | 5 | 6 => o.pkt.targets o.tile modid
  | _ => []
/-- Bytes that an operation lands in all. -/
def EOp.total (o : EOp) (modid : BitVec 12) : Nat :=
  if o.op = 2 then o.pkt.len else o.pkt.len * (o.dests modid).length

/-- The segment that an operation reads, with the tile it was named on. -/
def EOp.source (o : EOp) : Option (Nat × Nat) :=
  match o.op with
  | 2 | 3 | 4 | 5 | 11 => some (o.seg, o.tile)
  | 7 => o.far
  | _ => none

/-- What comes before whatever is ordered after all steps of an operation (R258): what came before it, what its steps have met,
and its steps. -/
def EOp.steps (o : EOp) : Clock := clockJoin (clockJoin o.clock o.learned) [(o.agent, 1)]

/-- The ranges of an operation leave the scoreboard of a tile (R202). -/
def State.leaveRanges (s : State) (o : EOp) (t : Nat) (gone : Range → Bool) : State :=
  s.clearRanges t o.id gone ((s.eop? o.id).getD o).steps

/-- The earlier stores of its context have retired, where it reads a segment of its tile (R201, R104). -/
def State.storesRetired (s : State) (o : EOp) : Bool :=
  let local_ := o.op == 64 || (match o.source with
    | some x => ((s.seg? (s.partOf o.tile) x.1).map fun g => g.owner == o.tile).getD true
    | none => false)
  !local_ || o.orphan || !(s.ctx o.tile o.cx).storesBefore o.after

/-- A segment of another tile that is moving holds the data back until the operation has pinned it (R242). -/
def State.settled (s : State) (o : EOp) (id : Nat) : Bool := o.pinned.contains id || match s.seg? (s.partOf o.tile) id with
  | some g => g.place != .moving && g.evict.isNone
  | none => true

/-- Length of the piece of `n` bytes at `a` that stays within a 64-byte line. -/
def pieceLen (a n : Nat) : Nat := min n (64 - a % 64)

/-- An operation pins a segment of another tile at its first data (R242); that is no grant, and gives no stamp (R246). -/
def State.pinFar (s : State) (o : EOp) (id : Nat) : State :=
  if o.pinned.contains id then s
  else (s.modSeg (s.partOf o.tile) id fun g => { g with pins := g.pins + 1 }).modEop o.id fun o => { o with pinned := id :: o.pinned }

/-- An engine access to lines of a front version: the race check and the history (R262, R263), and the clock of the
publishes it has met. It comes after the accesses of the contexts that have left the segment's tile (R258). A replica has a
history of its own, in which only its lane's accesses meet (R299). A read joins its lines (R203). -/
def State.eTouch (s : State) (o : EOp) (id : Nat) (lines : List Nat) (write : Bool) : State :=
  let p := s.partOf o.tile
  match s.seg? p id with
  | none => s
  | some g =>
    let know := clockJoin o.clock (s.tile g.owner).handover
    let a : Acc := { agent := o.agent, tick := 1, clock := know, write := write }
    let bad := g.race lines a
    let (g1, k) := g.enter lines a
    (s.putSeg p (if write then g1 else g1.joinLines lines)).modEop o.id fun o => { o with
      learned := clockJoin o.learned (clockJoin (s.tile g.owner).handover k)
      race := lowerRace o.race (bad.map fun n => segInfo 0 0 (64 * n) true) }

/-- Whether the operation may take its next read. -/
def State.canRead (s : State) (o : EOp) : Bool :=
  o.stage == 2 && o.sega.isNone && decide (o.next ≤ s.now) && decide (o.data.length < o.need) && s.storesRetired o &&
    (match o.source with
      | some x => s.settled o x.1
      | none => true)

/-- The new value of a virtual atomic (R219). -/
def vAtomic (x : Packet) (old : Dword) : Dword :=
  match x.op with
  | 8 => old + x.word 2
  | 10 => x.word 2
  | _ => if old = x.word 2 then x.word 3 else old

/-- Free bytes that stand for the data of another module (R217, log 9). -/
def State.freeBytes (s : State) : Nat → List Byte × State
  | 0 => ([], s)
  | n + 1 =>
    let (b, s) := s.freeWord
    let (r, s) := State.freeBytes s n
    (b.setWidth 8 :: r, s)

/-- A read, or the indivisible action of a virtual atomic (R219). -/
def State.eRead (s : State) (o : EOp) : State :=
  let p := s.partOf o.tile
  let k := clusterOf o.tile
  let x := o.pkt
  let got := o.data.length
  let (d, s) := s.duration
  let done (s : State) (bs : List Byte) : State :=
    let s := s.modEop o.id fun o => { o with data := o.data ++ bs, next := s.now + 1 + d }
    if o.need ≤ got + bs.length then s.leaveRanges o o.tile (fun r => !r.dest) else s
  if x.isAtomic then
    let s := s.logRefusal p k o.asid o.id x.va
    let old := s.vbytes p k o.asid o.id x.va 8
    done (s.vstore p k o.asid o.id x.va (natBytes 8 (vAtomic x (BitVec.ofNat 64 (bytesNat old))).toNat)) old
  else if x.isVirtual && x.op != 2 then
    let a := x.va + got
    done (s.logRefusal p k o.asid o.id a) (s.vbytes p k o.asid o.id a (pieceLen a (o.need - got)))
  else match o.source with
    | some (id, _) =>
      let a := x.src + got
      let n := pieceLen a (o.need - got)
      let s := if ((s.seg? p id).map fun g => g.owner == o.tile).getD true && o.op != 7 then s else s.pinFar o id
      let s := s.eTouch o id [a / 64] false
      done s (((s.seg? p id).map fun g => g.bytes.bytes a n).getD [])
    | none =>
      let a := x.src + got
      let r := s.freeBytes (pieceLen a (o.need - got))
      done r.2 r.1

/-- The row engineRead (R257). -/
def execEngineRead (op : Nat) (s : State) : Host.Outcome State Fault Refusal :=
  .next (match s.eop? op with
    | some o => if s.canRead o then s.eRead o else s
    | none => s)

/-- The destination of the next byte to land: index, segment, tile. -/
def EOp.nextDest (o : EOp) (modid : BitVec 12) : Option (Nat × Nat) := (o.dests modid)[o.landed / o.pkt.len]?

/-- Whether the operation may land its next line, or end when it has none left. -/
def State.canLand (s : State) (o : EOp) : Bool :=
  o.stage == 2 && o.sega.isNone && decide (o.next ≤ s.now) && decide (o.need ≤ o.data.length) &&
    (o.op != 64 || s.storesRetired o) &&
    (if o.landed < o.total s.modid then
      match o.nextDest s.modid with
      | some x => s.settled o x.1
      | none => true
    else true)

/-- A signal that the operation queues when its last byte has landed (R215, R218); DELTA 0 sends none (R213). -/
def State.queueSignal (s : State) (o : EOp) (tile fw : Nat) : State :=
  if fw % 2 ^ 16 = 0 ∧ o.op ≠ 64 then s
  else
    let (d, s) := s.duration
    let g : Signal :=
      { tile := tile, part := s.partOf o.tile, flag := fw / 2 ^ 16 % 16, gen := BitVec.ofNat 8 (fw / 2 ^ 20)
        delta := BitVec.ofNat 16 fw
        clock := if o.op = 64 then o.clock else o.steps
        op := o.id, due := s.now + d }
    { s with signals := s.signals ++ [g] }

/-- A put or a get on another module: whether its acknowledgement carries a race, and of which line, is free (R263,
log 33). -/
def State.farRace (s : State) (o : EOp) : State :=
  if (o.op == 5 || o.op == 6 || o.op == 7) && o.pkt.remote s.modid then
    let (w, s) := s.freeWord
    if bit w 63 then s.modEop o.id fun o => { o with race := lowerRace o.race (some (segInfo 0 0 (64 * (w.toNat % 2 ^ 26)) true)) } else s
  else s

/-- The last byte has landed: the pending ranges leave, and the signals are queued, or the traffic to another
module and the record of a SPAWN are handed on. -/
def State.eEnd (s : State) (o : EOp) : State :=
  let x := o.pkt
  let (d, s) := s.duration
  let s := (s.modEop o.id fun o => { o with stage := 3, next := s.now + d }).farRace o
  let known := o.steps
  let s := (o.tile :: (o.dests s.modid).map (·.2)).foldl (fun s t => s.leaveRanges o t fun _ => true) s
  match o.op with
  | 4 => (x.targets o.tile s.modid).foldl (fun s y => s.queueSignal o y.2 x.flagWord) s
  | 5 | 6 =>
    if x.remote s.modid then
      s.sendOut ⟨o.op, o.tile, x.node.toNat, x.tgtTile, x.tgtId, x.dst, x.flagWord, o.data⟩ known
    else s.queueSignal o x.tgtTile x.flagWord
  | 7 =>
    let s := if x.remote s.modid then s.sendOut ⟨7, o.tile, x.node.toNat, x.tgtTile, x.tgtId, x.src, 0, []⟩ known else s
    s.queueSignal o o.tile x.flagWord
  | 11 =>
    let ws := (List.range 16).map fun k => BitVec.ofNat 64 (bytesNat ((o.data.drop (8 * k)).take 8))
    s.modPart (s.partOf o.tile) fun p => { p with arrived := p.arrived ++ [(o.asid, o.id, ws)] }
  | 64 =>
    if x.remote s.modid then s.sendOut ⟨64, o.tile, x.node.toNat, x.tgtTile, 0, 0, x.flagWord, []⟩ o.clock
    else s.queueSignal o x.tgtTile x.flagWord
  | _ => s

/-- The shadow with bytes of a CPYIN.sh (R212). -/
def Shadow.put (h : Shadow) (a : Nat) (bs : List Byte) : Shadow :=
  { h with lines := insertNat (a / 64) h.lines, bytes := h.bytes.store a bs }

/-- One line lands (R257): in virtual memory, in a back version, or in a front version, in its store or its backing
location (R242), whose destination range enters the scoreboard of another tile with the first data (R202). R202 has a range
leave when the operation's last byte has landed: the range of a CPYMC on one tile leaves with that tile's own last byte
(DESIGN CHOICE, log 47). -/
def State.eLand (s : State) (o : EOp) : State :=
  let p := s.partOf o.tile
  let x := o.pkt
  let (d, s) := s.duration
  let len := x.len
  let step (s : State) (n : Nat) : State :=
    let s := s.modEop o.id fun o => { o with landed := o.landed + n, next := s.now + 1 + d }
    match s.eop? o.id with
    | some o' => if o'.total s.modid ≤ o'.landed then s.eEnd o' else s
    | none => s
  if o.op = 2 then
    let a := x.va + o.landed
    let n := pieceLen a (len - o.landed)
    let k := clusterOf o.tile
    step ((s.logRefusal p k o.asid o.id a).vstore p k o.asid o.id a ((o.data.drop o.landed).take n)) n
  else
    match o.nextDest s.modid with
    | none => s.eEnd o
    | some (id, t) =>
      let off := o.landed % len
      let a := x.dst + off
      let n := pieceLen a (len - off)
      let bs := (o.data.drop off).take n
      let s :=
        if off = 0 ∧ t ≠ o.tile then
          (s.pinFar o id).modTile t fun y => { y with ranges := y.ranges ++ [⟨o.id, id, x.dst, x.dst + len, true⟩] }
        else s
      if o.op = 1 then
        step (s.modSeg p id fun g => { g with shadow := g.shadow.map fun h => h.put a bs }) n
      else
        let s := s.eTouch o id [a / 64] true
        let s := match s.seg? p id with
          | some g =>
            let g := { g with bytes := g.bytes.store a bs }
            let g := if g.live.isSome then { g with wrote := insertNat (a / 64) g.wrote } else g
            s.putBytes p (if o.id < g.joined then g else g.mark [a / 64] g.swz)
          | none => s
        let s := if off + n = len then s.leaveRanges o t (fun r => r.dest && r.seg == id) else s
        step s n

/-- The row engineLand (R257). -/
def execEngineLand (op : Nat) (s : State) : Host.Outcome State Fault Refusal :=
  .next (match s.eop? op with
    | some o => if s.canLand o then (if o.landed < o.total s.modid then s.eLand o else s.eEnd o) else s
    | none => s)

/-! ### Signals (R104, R218) -/

/-- An earlier put of the same context to the same tile whose signal is still to be applied (R217). -/
def State.earlierPut (s : State) (g : Signal) : Bool :=
  match s.eop? g.op with
  | some o => (o.op == 5 || o.op == 6) && s.eops.any fun q =>
      decide (q.id < o.id) && (q.op == 5 || q.op == 6) && q.tile == o.tile && q.cx == o.cx && !q.pkt.remote s.modid &&
      q.pkt.tgtTile == g.tile && q.pkt.flagWord % 2 ^ 16 != 0 &&
      (decide (q.stage < 3) || s.signals.any fun h => h.op == q.id)
  | none => false

def State.signalReady (s : State) (g : Signal) : Bool := decide (g.due ≤ s.now) && !s.earlierPut g

/-- A signal reaches its flag: it is applied, dropped for its generation, or refused by the tile's access table
(R104, R218, R355). -/
def State.deliver (s : State) (g : Signal) : State :=
  if (fld s.caps 0 16).toNat ≤ g.tile ∨ s.partOf g.tile ≠ g.part then s.logEvent 0x355 g.tile
  else s.modTile g.tile fun t =>
    let f := t.flag g.flag
    if f.gen = g.gen then t.putFlag g.flag { f.post (g.delta.signExtend 32) with clock := clockJoin f.clock g.clock }
    else { t with flate := t.flate + 1 }

/-- A list without its first element that satisfies `f`. -/
def dropFirst {α : Type} (f : α → Bool) : List α → List α
  | [] => []
  | a :: r => if f a then r else a :: dropFirst f r

/-- The row signalApply (R218): the first signal that has arrived. -/
def execSignalApply (s : State) : Host.Outcome State Fault Refusal :=
  .next (match s.signals.find? s.signalReady with
    | some g => State.deliver { s with signals := dropFirst (fun x => s.signalReady x) s.signals } g
    | none => s)

/-! ### Completion (R215) -/

/-- Whether the operation may complete. -/
def State.canComplete (s : State) (o : EOp) : Bool :=
  o.stage == 2 && o.sega.isSome || o.stage == 4 && decide (o.next ≤ s.now) ||
  o.stage == 3 && decide (o.next ≤ s.now) && !(s.signals.any fun g => g.op == o.id) &&
    !((s.part (s.partOf o.tile)).arrived.any fun r => r.2.1 == o.id)

/-- The operation completes: its pins, ranges and locks are released, oc falls, and what it has found is delivered. -/
def State.eDone (s : State) (o : EOp) : State :=
  let s := s.unpin (s.partOf o.tile) o.pinned
  let s := (o.tile :: (o.dests s.modid).map (·.2)).foldl (fun s t => s.leaveRanges o t fun _ => true) s
  let s := s.freeLocks (clusterOf o.tile) o.id
  let s := { s with eops := s.eops.filter fun q => q.id != o.id }
  if o.orphan then s
  else if o.stage = 4 then s.modCtx o.tile o.cx fun c =>
    if o.op = 65 then { c with om := c.om - 1 } else { c with oc := c.oc - 1 }
  else s.modCtx o.tile o.cx fun c =>
    let c := { c with oc := c.oc - 1, clock := clockJoin c.clock o.steps }
    match o.sega, o.race with
    | some e, _ => c.opFault ⟨o.order, Cause.sega, 0, e⟩
    | none, some e => c.opFault ⟨o.order, Cause.race, 0, e⟩
    | none, none => c

/-- The row eComplete (R215). -/
def execEComplete (op : Nat) (s : State) : Host.Outcome State Fault Refusal :=
  .next (match s.eop? op with
    | some o => if s.canComplete o then s.eDone o else s
    | none => s)

/-! ### Walks -/

/-- The row tlbWalkDone (R349, R350): the frozen slot is performed, or takes its fault precisely at the slot. -/
def execTlbWalkDone (tile : Nat) (cx : Cx) (s : State) : Host.Outcome State Fault Refusal :=
  .next (
    let c := s.ctx tile cx
    match c.delayed.find? fun d => d.why == .walk && decide (d.due ≤ s.now) with
    | none => s
    | some d =>
      let x := d.cap.packet
      let s := s.modCtx tile cx fun c => { c with delayed := c.delayed.filter fun y => y.id != d.id }
      let s := s.fillTlb (s.partOf tile) (clusterOf tile) c.asid (rangePages x.va x.len)
      match s.eWalked tile cx d with
      | .ok s => s
      | .error e =>
        s.lateTrap tile cx e.1 d.cap.slot e.2 [d.cap.toEntry 0])

end Sys2Proof.Machine
end

