-- ==== Sys2Proof/Machine/FpFunc.lean ====
section
/-! DEFINITION. The architected procedures of VEXP2, VLOG2, VRCP, VRSQ and VTANH (R122 to R127), step by step. -/

namespace Sys2Proof.Machine

/-! ### Tables (R122), each entry the FP32 word nearest to the real named -/

/-- Entries 0 to 15 of table T (R122). -/
def tableT0 : List Nat :=
  [0x3F800000, 0x3F8164D2, 0x3F82CD87, 0x3F843A29,
   0x3F85AAC3, 0x3F871F62, 0x3F88980F, 0x3F8A14D5,
   0x3F8B95C2, 0x3F8D1ADF, 0x3F8EA43A, 0x3F9031DC,
   0x3F91C3D3, 0x3F935A2B, 0x3F94F4F0, 0x3F96942D]

/-- Entries 16 to 31 of table T (R122). -/
def tableT1 : List Nat :=
  [0x3F9837F0, 0x3F99E046, 0x3F9B8D3A, 0x3F9D3EDA,
   0x3F9EF532, 0x3FA0B051, 0x3FA27043, 0x3FA43516,
   0x3FA5FED7, 0x3FA7CD94, 0x3FA9A15B, 0x3FAB7A3A,
   0x3FAD583F, 0x3FAF3B79, 0x3FB123F6, 0x3FB311C4]

/-- Entries 32 to 47 of table T (R122). -/
def tableT2 : List Nat :=
  [0x3FB504F3, 0x3FB6FD92, 0x3FB8FBAF, 0x3FBAFF5B,
   0x3FBD08A4, 0x3FBF179A, 0x3FC12C4D, 0x3FC346CD,
   0x3FC5672A, 0x3FC78D75, 0x3FC9B9BE, 0x3FCBEC15,
   0x3FCE248C, 0x3FD06334, 0x3FD2A81E, 0x3FD4F35B]

/-- Entries 48 to 63 of table T (R122). -/
def tableT3 : List Nat :=
  [0x3FD744FD, 0x3FD99D16, 0x3FDBFBB8, 0x3FDE60F5,
   0x3FE0CCDF, 0x3FE33F89, 0x3FE5B907, 0x3FE8396A,
   0x3FEAC0C7, 0x3FED4F30, 0x3FEFE4BA, 0x3FF28177,
   0x3FF5257D, 0x3FF7D0DF, 0x3FFA83B3, 0x3FFD3E0C]

/-- T[j] = fl32(2^(j/64)) (R122). -/
def tableT (j : Nat) : Nat :=
  (match j / 16 with
    | 0 => tableT0
    | 1 => tableT1
    | 2 => tableT2
    | _ => tableT3).getD (j % 16) 0

/-- Entries 0 to 15 of table V (R122). -/
def tableV0 : List Nat :=
  [0x3F7E03F8, 0x3F7A232D, 0x3F76603E, 0x3F72B9D6,
   0x3F6F2EB7, 0x3F6BBDB3, 0x3F6865AC, 0x3F652598,
   0x3F61FC78, 0x3F5EE95C, 0x3F5BEB62, 0x3F5901B2,
   0x3F562B81, 0x3F53680D, 0x3F50B6A0, 0x3F4E168A]

/-- Entries 16 to 31 of table V (R122). -/
def tableV1 : List Nat :=
  [0x3F4B8728, 0x3F4907DA, 0x3F46980C, 0x3F443730,
   0x3F41E4BC, 0x3F3FA030, 0x3F3D6910, 0x3F3B3EE7,
   0x3F392144, 0x3F370FBB, 0x3F3509E7, 0x3F330F63,
   0x3F311FD4, 0x3F2F3ADE, 0x3F2D602B, 0x3F2B8F6A]

/-- Entries 32 to 47 of table V (R122). -/
def tableV2 : List Nat :=
  [0x3F29C84A, 0x3F280A81, 0x3F2655C4, 0x3F24A9CF,
   0x3F23065E, 0x3F216B31, 0x3F1FD80A, 0x3F1E4CAD,
   0x3F1CC8E1, 0x3F1B4C70, 0x3F19D723, 0x3F1868C8,
   0x3F17012E, 0x3F15A025, 0x3F144581, 0x3F12F114]

/-- Entries 48 to 63 of table V (R122). -/
def tableV3 : List Nat :=
  [0x3F11A2B4, 0x3F105A38, 0x3F0F177A, 0x3F0DDA52,
   0x3F0CA29C, 0x3F0B7034, 0x3F0A42F8, 0x3F091AC7,
   0x3F07F781, 0x3F06D905, 0x3F05BF37, 0x3F04A9FA,
   0x3F039930, 0x3F028CC0, 0x3F01848E, 0x3F008081]

/-- V[j] = fl32(1 / c_j) (R122). -/
def tableV (j : Nat) : Nat :=
  (match j / 16 with
    | 0 => tableV0
    | 1 => tableV1
    | 2 => tableV2
    | _ => tableV3).getD (j % 16) 0

/-- Entries 0 to 15 of table L (R122). -/
def tableL0 : List Nat :=
  [0x3C37F286, 0x3D08E68F, 0x3D626FD6, 0x3D9D517F,
   0x3DC8C50B, 0x3DF39761, 0x3E0EE68D, 0x3E23B550,
   0x3E383A17, 0x3E4C76E8, 0x3E606DB6, 0x3E74205F,
   0x3E83C857, 0x3E8D602E, 0x3E96D888, 0x3EA03232]

/-- Entries 16 to 31 of table L (R122). -/
def tableL1 : List Nat :=
  [0x3EA96DF0, 0x3EB28C7F, 0x3EBB8E96, 0x3EC474E4,
   0x3ECD4012, 0x3ED5F0C4, 0x3EDE8797, 0x3EE70525,
   0x3EEF69FF, 0x3EF7B6B4, 0x3EFFEBCD, 0x3F0404E8,
   0x3F08089E, 0x3F0C0146, 0x3F0FEF1F, 0x3F13D260]

/-- Entries 32 to 47 of table L (R122). -/
def tableL2 : List Nat :=
  [0x3F17AB44, 0x3F1B7A00, 0x3F1F3ECA, 0x3F22F9D5,
   0x3F26AB53, 0x3F2A5374, 0x3F2DF268, 0x3F31885C,
   0x3F35157D, 0x3F3899F5, 0x3F3C15EE, 0x3F3F8991,
   0x3F42F506, 0x3F465872, 0x3F49B3FB, 0x3F4D07C7]

/-- Entries 48 to 63 of table L (R122). -/
def tableL3 : List Nat :=
  [0x3F5053F7, 0x3F5398AF, 0x3F56D60F, 0x3F5A0C3A,
   0x3F5D3B4E, 0x3F60636A, 0x3F6384AD, 0x3F669F35,
   0x3F69B31E, 0x3F6CC083, 0x3F6FC781, 0x3F72C832,
   0x3F75C2B0, 0x3F78B714, 0x3F7BA578, 0x3F7E8DF2]

/-- L[j] = fl32(log2 c_j) (R122). -/
def tableL (j : Nat) : Nat :=
  (match j / 16 with
    | 0 => tableL0
    | 1 => tableL1
    | 2 => tableL2
    | _ => tableL3).getD (j % 16) 0

/-- Entries 0 to 15 of table P (R122). -/
def tableP0 : List Nat :=
  [0x3F7C0FC1, 0x3F74898D, 0x3F6D7304, 0x3F66C2B4,
   0x3F607038, 0x3F5A740E, 0x3F54C77B, 0x3F4F6475,
   0x3F4A4588, 0x3F4565C8, 0x3F40C0C1, 0x3F3C5264,
   0x3F381703, 0x3F340B41, 0x3F302C0B, 0x3F2C7692]

/-- Entries 16 to 31 of table P (R122). -/
def tableP1 : List Nat :=
  [0x3F28E83F, 0x3F257EB5, 0x3F2237C3, 0x3F1F1166,
   0x3F1C09C1, 0x3F191F1A, 0x3F164FDA, 0x3F139A86,
   0x3F10FDBC, 0x3F0E7835, 0x3F0C08C1, 0x3F09AE41,
   0x3F0767AB, 0x3F053408, 0x3F03126F, 0x3F010204]

/-- Entries 32 to 47 of table P (R122). -/
def tableP2 : List Nat :=
  [0x3EFC0FC1, 0x3EF4898D, 0x3EED7304, 0x3EE6C2B4,
   0x3EE07038, 0x3EDA740E, 0x3ED4C77B, 0x3ECF6475,
   0x3ECA4588, 0x3EC565C8, 0x3EC0C0C1, 0x3EBC5264,
   0x3EB81703, 0x3EB40B41, 0x3EB02C0B, 0x3EAC7692]

/-- Entries 48 to 63 of table P (R122). -/
def tableP3 : List Nat :=
  [0x3EA8E83F, 0x3EA57EB5, 0x3EA237C3, 0x3E9F1166,
   0x3E9C09C1, 0x3E991F1A, 0x3E964FDA, 0x3E939A86,
   0x3E90FDBC, 0x3E8E7835, 0x3E8C08C1, 0x3E89AE41,
   0x3E8767AB, 0x3E853408, 0x3E83126F, 0x3E810204]

/-- P[j] = fl32(1 / d_j) (R122). -/
def tableP (j : Nat) : Nat :=
  (match j / 16 with
    | 0 => tableP0
    | 1 => tableP1
    | 2 => tableP2
    | _ => tableP3).getD (j % 16) 0

/-- Entries 0 to 15 of table Q (R122). -/
def tableQ0 : List Nat :=
  [0x3F7E05EC, 0x3F7A33F9, 0x3F768CDC, 0x3F730D8A,
   0x3F6FB345, 0x3F6C7B90, 0x3F69642A, 0x3F666B02,
   0x3F638E39, 0x3F60CC16, 0x3F5E2305, 0x3F5B9193,
   0x3F59166B, 0x3F56B051, 0x3F545E22, 0x3F521ED0]

/-- Entries 16 to 31 of table Q (R122). -/
def tableQ1 : List Nat :=
  [0x3F4FF162, 0x3F4DD4ED, 0x3F4BC89B, 0x3F49CBA2,
   0x3F47DD45, 0x3F45FCD6, 0x3F4429AF, 0x3F426337,
   0x3F40A8DE, 0x3F3EFA1C, 0x3F3D5671, 0x3F3BBD67,
   0x3F3A2E8C, 0x3F38A975, 0x3F372DBF, 0x3F35BB09]

/-- Entries 32 to 47 of table Q (R122). -/
def tableQ2 : List Nat :=
  [0x3F339F19, 0x3F30EB96, 0x3F2E565C, 0x3F2BDD46,
   0x3F297E62, 0x3F2737F0, 0x3F250855, 0x3F22EE1D,
   0x3F20E7F5, 0x3F1EF4A4, 0x3F1D130E, 0x3F1B422C,
   0x3F19810C, 0x3F17CED0, 0x3F162AA9, 0x3F1493D9]

/-- Entries 48 to 63 of table Q (R122). -/
def tableQ3 : List Nat :=
  [0x3F1309AF, 0x3F118B87, 0x3F1018C6, 0x3F0EB0E0,
   0x3F0D534F, 0x3F0BFF97, 0x3F0AB544, 0x3F0973E8,
   0x3F083B1E, 0x3F070A87, 0x3F05E1C7, 0x3F04C08B,
   0x3F03A682, 0x3F029362, 0x3F0186E2, 0x3F0080C1]

/-- Q[j] = fl32(1 / sqrt d_j) (R122). -/
def tableQ (j : Nat) : Nat :=
  (match j / 16 with
    | 0 => tableQ0
    | 1 => tableQ1
    | 2 => tableQ2
    | _ => tableQ3).getD (j % 16) 0

/-! ### Steps -/

/-- One rounding by fl32 (R122): the value and its status. -/
def fl32 (x : Num) : Num × Fpst :=
  let (w, f) := Fmt.f32.round x
  (Fmt.f32.num w, f)

/-- An FP32 constant. -/
def k32 (w : Nat) : Num := Fmt.f32.num w

/-- fma of R122. -/
def fmaStep (a b c : Num) : Num × Fpst := fl32 (a.fma b c).1

/-- A product step. -/
def mulStep (a b : Num) : Num × Fpst := fl32 (a.mul b).1

/-- A sum step. -/
def addStep (a b : Num) : Num × Fpst := fl32 (a.add b).1

/-- Status of a step before the last: only inexact counts (R122). -/
def inner (f : Fpst) : Fpst := f &&& Fs.inexact

/-- A finite nonzero value as m * 2^e with 2^23 <= m < 2^24, the 24-bit significand of R122. -/
def normal24 (m : Nat) (e : Int) : Nat × Int :=
  let l := Nat.log2 m
  if 23 ≤ l then (m / 2 ^ (l - 23), e + (l - 23 : Nat)) else (m * 2 ^ (23 - l), e - (23 - l : Nat))

/-- EXP2 (R123) for an argument that is no special case. -/
def exp2Steps (x : Num) : Num × Fpst :=
  match x with
  | .fin s m e =>
    let (k, _) := Num.nearest s m (e + 6)
    let n := k / 64
    let j := (k % 64).toNat
    let g := (x.add (ofFix (-k) (-6))).1
    let t := k32 (tableT j)
    let (u, f1) := fmaStep (k32 0x3D635847) g (k32 0x3E75FDF0)
    let (u, f2) := fmaStep u g (k32 0x3F317218)
    let (u, f3) := mulStep u g
    let (y, f4) := fmaStep t u t
    let (r, f5) := fl32 (y.scale n)
    (r, inner (f1 ||| f2 ||| f3 ||| f4) ||| f5)
  | y => (y, Fs.none)

/-- VEXP2 of one lane (R123). -/
def vexp2 (w : Nat) : Nat × Fpst :=
  let x := Fmt.f32.num w
  match x with
  | .nan => (Fmt.f32.nan, Fs.none)
  | .inf false => (Fmt.f32.infinity false, Fs.none)
  | .inf true => (0, Fs.none)
  | _ =>
    if !(x.lt (Num.ofInt 128)) then (Fmt.f32.infinity false, Fs.overflow ||| Fs.inexact)
    else if x.lt (Num.ofInt (-150)) then (0, Fs.underflow ||| Fs.inexact)
    else let (r, f) := exp2Steps x; ((Fmt.f32.round r).1, f)

/-- The centre c_j of R122. -/
def centreC (j : Nat) : Num := ofFix (128 + 2 * j + 1) (-7)

/-- VLOG2 of one lane (R124). -/
def vlog2 (w : Nat) : Nat × Fpst :=
  match Fmt.f32.num w with
  | .nan => (Fmt.f32.nan, Fs.none)
  | .inf true => (Fmt.f32.nan, Fs.invalid)
  | .inf false => (Fmt.f32.infinity false, Fs.none)
  | .fin s m e =>
    if m = 0 then (Fmt.f32.infinity true, Fs.divZero)
    else if s then (Fmt.f32.nan, Fs.invalid)
    else
      let (m24, e0) := normal24 m e
      let ex := e0 + 23
      if m24 = 2 ^ 23 then Fmt.f32.round (Num.ofInt ex)
      else
        let j := m24 / 2 ^ 17 % 64
        let f := ((Num.fin false m24 (-23)).add (centreC j).neg).1
        let (z, f1) := mulStep f (k32 (tableV j))
        let (u, f2) := fmaStep (k32 0x3EF6384F) z (k32 0xBF38AA3B)
        let (u, f3) := fmaStep u z (k32 0x3FB8AA3B)
        let (q, f4) := mulStep u z
        let (t, f5) := addStep (Num.ofInt ex) (k32 (tableL j))
        let (r, f6) := Fmt.f32.round (t.add q).1
        (r, inner (f1 ||| f2 ||| f3 ||| f4 ||| f5) ||| f6)

/-- The steps of R125 on a finite nonzero value. -/
def rcpSteps (s : Bool) (m : Nat) (e : Int) : Num × Fpst :=
  let (m24, e0) := normal24 m e
  let ex := e0 + 23
  if m24 = 2 ^ 23 then fl32 (.fin s 1 (-ex))
  else
    let j := m24 / 2 ^ 17 % 64
    let f := ((Num.fin false m24 (-23)).add (centreC j).neg).1
    let (z, f1) := mulStep f (k32 (tableV j))
    let (a, f2) := addStep (Num.ofInt 1) z.neg
    let (a, f3) := fmaStep a z (Num.ofInt (-1))
    let (a, f4) := fmaStep a z (Num.ofInt 1)
    let (y, f5) := mulStep (k32 (tableV j)) a
    let (r, f6) := fl32 (y.scale (-ex))
    (if s then r.neg else r, inner (f1 ||| f2 ||| f3 ||| f4 ||| f5) ||| f6)

/-- VRCP of one lane (R125). -/
def vrcp (w : Nat) : Nat × Fpst :=
  match Fmt.f32.num w with
  | .nan => (Fmt.f32.nan, Fs.none)
  | .inf s => (Fmt.f32.signed s 0, Fs.none)
  | .fin s m e =>
    if m = 0 then (Fmt.f32.infinity s, Fs.divZero)
    else let (r, f) := rcpSteps s m e; ((Fmt.f32.round r).1, f)

/-- The centre d_j of R122. -/
def centreD (j : Nat) : Num :=
  if j < 32 then ofFix (64 + 2 * j + 1) (-6) else ofFix (2 * (64 + 2 * j - 63)) (-6)

/-- VRSQ of one lane (R126). -/
def vrsq (w : Nat) : Nat × Fpst :=
  match Fmt.f32.num w with
  | .nan => (Fmt.f32.nan, Fs.none)
  | .inf true => (Fmt.f32.nan, Fs.invalid)
  | .inf false => (0, Fs.none)
  | .fin s m e =>
    if m = 0 then (Fmt.f32.infinity s, Fs.divZero)
    else if s then (Fmt.f32.nan, Fs.invalid)
    else
      let (m24, e0) := normal24 m e
      let ex := e0 + 23
      let odd := ex % 2 ≠ 0
      let e2 := if odd then ex - 1 else ex
      let j := m24 / 2 ^ 18 % 32 + if odd then 32 else 0
      let mm : Num := if odd then .fin false m24 (-22) else .fin false m24 (-23)
      if m24 = 2 ^ 23 ∧ ¬ odd then Fmt.f32.round (.fin false 1 (-(e2 / 2)))
      else
        let f := (mm.add (centreD j).neg).1
        let (z, f1) := mulStep f (k32 (tableP j))
        let (a, f2) := fmaStep (k32 0xBEA00000) z (k32 0x3EC00000)
        let (a, f3) := fmaStep a z (k32 0xBF000000)
        let (a, f4) := fmaStep a z (Num.ofInt 1)
        let (y, f5) := mulStep (k32 (tableQ j)) a
        let (r, f6) := Fmt.f32.round (y.scale (-(e2 / 2)))
        (r, inner (f1 ||| f2 ||| f3 ||| f4 ||| f5) ||| f6)

/-- The reciprocal within VTANH: the steps of R125 on a value that is finite and nonzero. -/
def rcpOf (x : Num) : Num :=
  match x with
  | .fin s m e => if m = 0 then .inf s else (rcpSteps s m e).1
  | .inf s => .fin s 0 0
  | .nan => .nan

/-- VTANH of one lane (R127). The exact tanh of a finite nonzero FP32 value is no FP32 value, so every such lane
sets inexact. -/
def vtanh (w : Nat) : Nat × Fpst :=
  let x := Fmt.f32.num w
  match x with
  | .nan => (Fmt.f32.nan, Fs.none)
  | .inf s => (Fmt.f32.signed s 0x3F800000, Fs.none)
  | .fin s m e =>
    if m = 0 then (Fmt.f32.signed s 0, Fs.none)
    else
      let ax : Num := .fin false m e
      if !(ax.lt (Num.ofInt 9)) then (Fmt.f32.signed s 0x3F800000, Fs.inexact)
      else if ax.lt (.fin false 1 (-3)) then
        let (q, _) := mulStep x x
        let (u, _) := fmaStep (k32 0xBD5D0DD1) q (k32 0x3E088889)
        let (u, _) := fmaStep u q (k32 0xBEAAAAAB)
        let (u, _) := mulStep u q
        ((Fmt.f32.round (u.fma x x).1).1, Fs.inexact)
      else
        let (a, _) := mulStep ax (k32 0x4038AA3B)
        let (v, _) := exp2Steps a
        let (d, _) := addStep v (Num.ofInt 1)
        let q := rcpOf d
        let (t, _) := addStep (Num.ofInt 1) (q.scale 1).neg
        let r := (Fmt.f32.round t).1
        (Fmt.f32.signed s (Fmt.f32.mag r), Fs.inexact)

end Sys2Proof.Machine
end

