-- ==== Sys2Proof/Machine/Vector.lean ====
section
/-! DEFINITION. The meanings of the vector classes VA, VB and VF (06 R130 to R152). -/

namespace Sys2Proof.Machine

/-! ### Lanes and elements (R130, R131) -/

/-- Lane `i` as a number. -/
def laneN (v : Vec) (i : Nat) : Nat := (lane v i).toNat

/-- The select mask (R17, R131). -/
def Ctx.select (c : Ctx) : Dword := c.regs.getMask c.regs.sel.toNat

/-- A masked form: lanes that are not selected are those of `base` and raise nothing (R131). -/
def masked (sel : Dword) (base : Vec) (f : Nat → Nat × Fpst) : Vec × Fpst :=
  ofLanesFs fun i => if bit sel i then f i else (laneN base i, 0)

/-- The two 16-bit elements of a lane (R130). -/
def halves (f : Nat → Nat × Fpst) : Nat × Fpst :=
  let l := f 0
  let h := f 1
  (l.1 + h.1 * 65536, l.2 ||| h.2)

/-- Element `h` of the two in a lane word. -/
def half (w h : Nat) : Nat := w / 65536 ^ h % 65536

/-- Byte `t` of a lane word. -/
def byteOf (w t : Nat) : Nat := w / 256 ^ t % 256

/-- The four bytes of a lane (R130). -/
def quads (f : Nat → Nat × Fpst) : Nat × Fpst :=
  let a := f 0
  let b := f 1
  let c := f 2
  let d := f 3
  (a.1 + b.1 * 256 + c.1 * 65536 + d.1 * 16777216, a.2 ||| b.2 ||| c.2 ||| d.2)

/-- A byte as a signed number (R108). -/
def signed8 (x : Nat) : Int := (BitVec.ofNat 8 x).toInt

/-! ### Results of the lane forms -/

/-- An integer lane form (R135): it raises nothing. -/
def intLane (f : Word → Word → Word) (x y : Nat) : Nat × Fpst := ((f (BitVec.ofNat 32 x) (BitVec.ofNat 32 y)).toNat, 0)
def minI (a b : Word) : Word := if a.sle b then a else b
def maxI (a b : Word) : Word := if a.sle b then b else a
def shlI (a b : Word) : Word := a <<< (b.toNat % 32)
def shrI (a b : Word) : Word := a >>> (b.toNat % 32)
def sarI (a b : Word) : Word := a.sshiftRight (b.toNat % 32)

/-- A 16-bit form on the two elements of a lane (R133). -/
def on16 (f : Nat → Nat → Nat × Fpst) (x y : Nat) : Nat × Fpst := halves fun h => f (half x h) (half y h)
/-- A fused 16-bit form on the two elements of a lane (R134). -/
def fused16 (f : Nat → Nat → Nat → Nat × Fpst) (x y c : Nat) : Nat × Fpst :=
  halves fun h => f (half x h) (half y h) (half c h)

/-- VABS and VNEG change the sign bit alone (R133). -/
def absF (x : Nat) : Nat × Fpst := (x % 2 ^ 31, 0)
def negF (x : Nat) : Nat × Fpst := (if x.testBit 31 then x - 2 ^ 31 else x + 2 ^ 31, 0)

/-- Comparisons of FP32 values (R136): false with a NaN. -/
def eqF (x y : Nat) : Bool := (Fmt.f32.num x).eq (Fmt.f32.num y)
def ltF (x y : Nat) : Bool := (Fmt.f32.num x).lt (Fmt.f32.num y)
def leF (x y : Nat) : Bool := ltF x y || eqF x y
def eqI (x y : Nat) : Bool := x == y
def ltI (x y : Nat) : Bool := (BitVec.ofNat 32 x).slt (BitVec.ofNat 32 y)
def leI (x y : Nat) : Bool := (BitVec.ofNat 32 x).sle (BitVec.ofNat 32 y)

/-- INT32 to FP32 (R139). -/
def cvtF (x : Nat) : Nat × Fpst := Fmt.f32.ofInt (BitVec.ofNat 32 x).toInt
/-- FP32 to INT32 by a rounding, saturating (R116). -/
def cvtI (rnd : Bool → Nat → Int → Int × Bool) (x : Nat) : Nat × Fpst :=
  let r := (Fmt.f32.num x).toInt rnd (-2 ^ 31) (2 ^ 31 - 1)
  ((BitVec.ofInt 32 r.1).toNat, r.2)

/-- VPACK.bf and VPACK.hf (R140). -/
def pack16 (f : Fmt) (a b : Vec) : Vec × Fpst :=
  ofLanesFs fun i => halves fun h =>
    Fmt.f32.conv f (if i < 32 then laneN a (2 * i + h) else laneN b (2 * (i - 32) + h))

/-- VUNPK.bf and VUNPK.hf (R140): exact. -/
def unpack16 (f : Fmt) (a : Vec) (h : Nat) : Vec × Fpst :=
  ofLanesFs fun i => let j := 64 * h + i; ((f.conv Fmt.f32 (half (laneN a (j / 2)) (j % 2))).1, 0)

/-- VPACK8 (R141). -/
def pack8 (f : Fmt) (a b : Vec) : Vec × Fpst :=
  ofLanesFs fun i =>
    if i < 16 then quads fun t => Fmt.f32.conv f (laneN a (4 * i + t))
    else if i < 32 then quads fun t => Fmt.f32.conv f (laneN b (4 * (i - 16) + t))
    else (0, 0)

/-- VMRG8 (R141). -/
def merge8 (a b : Vec) : Vec := lowLanes 32 a (b <<< 1024)

/-- VUNPK8 (R141): exact. -/
def unpack8 (f : Fmt) (a : Vec) (q : Nat) : Vec × Fpst :=
  ofLanesFs fun i => let j := 64 * q + i; ((f.conv Fmt.f32 (byteOf (laneN a (j / 4)) (j % 4))).1, 0)

/-- VDOT4.i8 on a lane (R142). -/
def dot4 (x y c : Nat) : Nat × Fpst :=
  let s (t : Nat) : Int := signed8 (byteOf x t) * signed8 (byteOf y t)
  ((BitVec.ofInt 32 ((c : Int) + s 0 + s 1 + s 2 + s 3)).toNat, 0)

/-! ### Reductions (R144) and attention (R145 to R150) -/

/-- A reduction over the lanes, those not selected entering as `e`; the result in every lane. -/
def reduce (op : Nat → Nat → Nat × Fpst) (e : Nat) (sel : Dword) (a : Vec) : Vec × Fpst :=
  let r := pairTree op 6 ((List.range 64).map fun i => if bit sel i then laneN a i else e)
  (ofLanes fun _ => BitVec.ofNat 32 r.1, r.2)

/-- The maximum and minimum of R114, which raise nothing. -/
def maxOp (a b : Nat) : Nat × Fpst := (Fmt.f32.max a b, 0)
def minOp (a b : Nat) : Nat × Fpst := (Fmt.f32.min a b, 0)

def one32 : Nat := 0x3F800000
def negInf32 : Nat := 0xFF800000

/-- A state vector (R145). -/
def stateVec (m c d r : Nat) : Vec :=
  ofLanes fun i => BitVec.ofNat 32 (if i = 0 then m else if i = 1 then c else if i = 2 then d else if i = 3 then r % 64 else 0)

/-- EXP2(fl32(a - b)) (R123). -/
def expDiff (a b : Nat) : Nat × Fpst :=
  let d := Fmt.f32.sub a b
  let e := vexp2 d.1
  (e.1, d.2 ||| e.2)

/-- AMAXU (R146). -/
def attnMax (sel : Dword) (a b : Vec) : Vec × Fpst :=
  let m := laneN b 0
  let ls := (List.range 64).filter fun i => bit sel i
  let x := ls.foldl (fun x i => Fmt.f32.max x (laneN a i)) m
  let c := if x = m then (one32, 0) else expDiff m x
  (stateVec x c.1 (if ls.isEmpty then 0 else one32) (laneN b 3), c.2)

/-- AEXPS (R147). -/
def attnExp (sel : Dword) (a b : Vec) : Vec × Fpst :=
  let x := laneN b 0
  ofLanesFs fun i => if bit sel i && x != negInf32 then expDiff (laneN a i) x else (0, 0)

/-- ARESC (R148). -/
def attnRescale (u w st : Vec) : Vec × Fpst :=
  let c := laneN st 1
  let d := laneN st 2
  if c = one32 ∧ d = 0 then (u, 0)
  else if c = 0 ∧ d = one32 then (w, 0)
  else ofLanesFs fun i =>
    let p := Fmt.f32.mul (laneN w i) d
    let r := Fmt.f32.fma (laneN u i) c p.1
    (r.1, p.2 ||| r.2)

/-- ANORM (R149): the vector, and the bit of m7 with its place. -/
def attnNorm (o st sums : Vec) : (Vec × Fpst) × Nat × Bool :=
  let r := laneN st 3 % 64
  if laneN st 0 = negInf32 then ((0, 0), r, true)
  else
    let s := pairTree Fmt.f32.add 6 ((List.range 64).map (laneN sums))
    let q := ofLanesFs fun i => Fmt.f32.div (laneN o i) s.1
    ((q.1, q.2 ||| s.2), r, false)

/-- AMRG (R150). -/
def attnMerge (a b : Vec) : Vec × Fpst :=
  let ma := laneN a 0
  let mb := laneN b 0
  let x := Fmt.f32.max ma mb
  if ma = negInf32 ∧ mb = negInf32 then (stateVec x one32 0 (laneN a 3), 0)
  else
    let c := if ma = x then (one32, 0) else expDiff ma x
    let d := if mb = x then (one32, 0) else expDiff mb x
    (stateVec x c.1 d.1 (laneN a 3), c.2 ||| d.2)

/-- The detail word of VCHK (R152). -/
def vchkInfo (a b : Vec) : Dword :=
  let ds := (List.range 64).filter fun i => lane a i != lane b i
  let k := ds.headD 0
  BitVec.ofNat 64 ((lane a k ^^^ lane b k).toNat + k * 2 ^ 32 + ds.length * 2 ^ 38)

/-! ### Shapes -/

/-- A masked form of two sources. -/
def vec2 (f : Nat → Nat → Nat × Fpst) (l : Nat) (gd : BitVec 3) (d a b : BitVec 6) (s : State) :
    Host.Outcome State Fault Refusal :=
  runSlot gd [srcV a, srcV b] (fun h o s =>
    s.pushV h d l (masked s.cur.select o.v0 fun i => f (laneN o.v0 i) (laneN o.v1 i))) s

/-- A masked form of one source. -/
def vec1 (f : Nat → Nat × Fpst) (l : Nat) (gd : BitVec 3) (d a : BitVec 6) (s : State) :
    Host.Outcome State Fault Refusal :=
  runSlot gd [srcV a] (fun h o s => s.pushV h d l (masked s.cur.select o.v0 fun i => f (laneN o.v0 i))) s

/-- A fused form: its addend is popped or peeked from vd (R134, R142). -/
def vecF (f : Nat → Nat → Nat → Nat × Fpst) (gd : BitVec 3) (d a b : BitVec 6) (s : State) :
    Host.Outcome State Fault Refusal :=
  runSlot gd [srcV d, srcV a, srcV b] (fun h o s =>
    s.pushV h d 4 (masked s.cur.select o.v0 fun i => f (laneN o.v1 i) (laneN o.v2 i) (laneN o.v0 i))) s

/-- A compare into a mask (R136). -/
def vecCmp (f : Nat → Nat → Bool) (gd : BitVec 3) (d : BitVec 3) (a b : BitVec 6) (s : State) :
    Host.Outcome State Fault Refusal :=
  runSlot gd [srcV a, srcV b] (fun h o s => s.push h 2 (.mask d.toNat
    (ofMask fun i => bit s.cur.select i && f (laneN o.v0 i) (laneN o.v1 i)))) s

/-- A mask operation (R137). -/
def maskOp (f : Dword → Dword → Dword) (gd : BitVec 3) (d a b : BitVec 3) (s : State) :
    Host.Outcome State Fault Refusal :=
  runSlot gd [] (fun h _ s => s.push h 1 (.mask d.toNat
    (f (s.cur.regs.getMask a.toNat) (s.cur.regs.getMask b.toNat)))) s

def maskSelect (gd : BitVec 3) (a : BitVec 3) (s : State) : Host.Outcome State Fault Refusal :=
  runSlot gd [] (fun h _ s => s.push h 1 (.select a)) s

/-- A form on two whole vectors. -/
def whole2 (f : Vec → Vec → Vec × Fpst) (l : Nat) (gd : BitVec 3) (d a b : BitVec 6) (s : State) :
    Host.Outcome State Fault Refusal :=
  runSlot gd [srcV a, srcV b] (fun h o s => s.pushV h d l (f o.v0 o.v1)) s

/-- A form on a whole vector and a number. -/
def wholeI (f : Vec → Nat → Vec × Fpst) (l w : Nat) (gd : BitVec 3) (d a : BitVec 6) (i : Nat) (s : State) :
    Host.Outcome State Fault Refusal :=
  runSlot gd [srcV a] (fun h o s => s.pushV h d l (f o.v0 (h.immU w i).toNat)) s

/-- A form on two whole vectors under the select mask. -/
def sel2 (f : Dword → Vec → Vec → Vec × Fpst) (l : Nat) (gd : BitVec 3) (d a b : BitVec 6) (s : State) :
    Host.Outcome State Fault Refusal :=
  runSlot gd [srcV a, srcV b] (fun h o s => s.pushV h d l (f s.cur.select o.v0 o.v1)) s

/-- A form on one whole vector under the select mask. -/
def sel1 (f : Dword → Vec → Vec × Fpst) (l : Nat) (gd : BitVec 3) (d a : BitVec 6) (s : State) :
    Host.Outcome State Fault Refusal :=
  runSlot gd [srcV a] (fun h o s => s.pushV h d l (f s.cur.select o.v0)) s

/-- VSEL, VPERM and VROT (R138). -/
def vsel (sel : Dword) (a b : Vec) : Vec × Fpst := (ofLanes fun i => if bit sel i then lane a i else lane b i, 0)
def vperm (a b : Vec) : Vec × Fpst := (ofLanes fun i => lane a (laneN b i % 64), 0)
def vrot (a : Vec) (k : Nat) : Vec × Fpst := (ofLanes fun i => lane a ((i + k) % 64), 0)

/-! ### One meaning per instruction -/

/-- vaddF32 in VA (R133). -/
def execVaddF32Va (gd : BitVec 3) (d : BitVec 6) (a : BitVec 6) (b : BitVec 6) (s : State) : Host.Outcome State Fault Refusal :=
  vec2 Fmt.f32.add 4 gd d a b s

/-- vsubF32 in VA (R133). -/
def execVsubF32Va (gd : BitVec 3) (d : BitVec 6) (a : BitVec 6) (b : BitVec 6) (s : State) : Host.Outcome State Fault Refusal :=
  vec2 Fmt.f32.sub 4 gd d a b s

/-- vmulF32 in VA (R133). -/
def execVmulF32Va (gd : BitVec 3) (d : BitVec 6) (a : BitVec 6) (b : BitVec 6) (s : State) : Host.Outcome State Fault Refusal :=
  vec2 Fmt.f32.mul 4 gd d a b s

/-- vminF32 in VA (R133). -/
def execVminF32Va (gd : BitVec 3) (d : BitVec 6) (a : BitVec 6) (b : BitVec 6) (s : State) : Host.Outcome State Fault Refusal :=
  vec2 minOp 4 gd d a b s

/-- vmaxF32 in VA (R133). -/
def execVmaxF32Va (gd : BitVec 3) (d : BitVec 6) (a : BitVec 6) (b : BitVec 6) (s : State) : Host.Outcome State Fault Refusal :=
  vec2 maxOp 4 gd d a b s

/-- vaddBf in VA (R133). -/
def execVaddBfVa (gd : BitVec 3) (d : BitVec 6) (a : BitVec 6) (b : BitVec 6) (s : State) : Host.Outcome State Fault Refusal :=
  vec2 (on16 Fmt.bf16.add) 4 gd d a b s

/-- vmulBf in VA (R133). -/
def execVmulBfVa (gd : BitVec 3) (d : BitVec 6) (a : BitVec 6) (b : BitVec 6) (s : State) : Host.Outcome State Fault Refusal :=
  vec2 (on16 Fmt.bf16.mul) 4 gd d a b s

/-- vaddHf in VA (R133). -/
def execVaddHfVa (gd : BitVec 3) (d : BitVec 6) (a : BitVec 6) (b : BitVec 6) (s : State) : Host.Outcome State Fault Refusal :=
  vec2 (on16 Fmt.f16.add) 4 gd d a b s

/-- vmulHf in VA (R133). -/
def execVmulHfVa (gd : BitVec 3) (d : BitVec 6) (a : BitVec 6) (b : BitVec 6) (s : State) : Host.Outcome State Fault Refusal :=
  vec2 (on16 Fmt.f16.mul) 4 gd d a b s

/-- vfmaF32 in VA (R134). -/
def execVfmaF32Va (gd : BitVec 3) (d : BitVec 6) (a : BitVec 6) (b : BitVec 6) (s : State) : Host.Outcome State Fault Refusal :=
  vecF Fmt.f32.fma gd d a b s

/-- vfmsF32 in VA (R134). -/
def execVfmsF32Va (gd : BitVec 3) (d : BitVec 6) (a : BitVec 6) (b : BitVec 6) (s : State) : Host.Outcome State Fault Refusal :=
  vecF Fmt.f32.fnma gd d a b s

/-- vfmaBf in VA (R134). -/
def execVfmaBfVa (gd : BitVec 3) (d : BitVec 6) (a : BitVec 6) (b : BitVec 6) (s : State) : Host.Outcome State Fault Refusal :=
  vecF (fused16 Fmt.bf16.fma) gd d a b s

/-- vfmaHf in VA (R134). -/
def execVfmaHfVa (gd : BitVec 3) (d : BitVec 6) (a : BitVec 6) (b : BitVec 6) (s : State) : Host.Outcome State Fault Refusal :=
  vecF (fused16 Fmt.f16.fma) gd d a b s

/-- VDOT4.i8 in VA (R142). -/
def execVdot4I8Va (gd : BitVec 3) (d : BitVec 6) (a : BitVec 6) (b : BitVec 6) (s : State) : Host.Outcome State Fault Refusal :=
  vecF dot4 gd d a b s

/-- vabsF32 in VA (R133). -/
def execVabsF32Va (gd : BitVec 3) (d : BitVec 6) (a : BitVec 6) (s : State) : Host.Outcome State Fault Refusal :=
  vec1 absF 4 gd d a s

/-- vnegF32 in VA (R133). -/
def execVnegF32Va (gd : BitVec 3) (d : BitVec 6) (a : BitVec 6) (s : State) : Host.Outcome State Fault Refusal :=
  vec1 negF 4 gd d a s

/-- vaddI32 in VA (R135). -/
def execVaddI32Va (gd : BitVec 3) (d : BitVec 6) (a : BitVec 6) (b : BitVec 6) (s : State) : Host.Outcome State Fault Refusal :=
  vec2 (intLane (· + ·)) 2 gd d a b s

/-- vsubI32 in VA (R135). -/
def execVsubI32Va (gd : BitVec 3) (d : BitVec 6) (a : BitVec 6) (b : BitVec 6) (s : State) : Host.Outcome State Fault Refusal :=
  vec2 (intLane (· - ·)) 2 gd d a b s

/-- vmulI32 in VA (R135). -/
def execVmulI32Va (gd : BitVec 3) (d : BitVec 6) (a : BitVec 6) (b : BitVec 6) (s : State) : Host.Outcome State Fault Refusal :=
  vec2 (intLane (· * ·)) 2 gd d a b s

/-- vminI32 in VA (R135). -/
def execVminI32Va (gd : BitVec 3) (d : BitVec 6) (a : BitVec 6) (b : BitVec 6) (s : State) : Host.Outcome State Fault Refusal :=
  vec2 (intLane minI) 2 gd d a b s

/-- vmaxI32 in VA (R135). -/
def execVmaxI32Va (gd : BitVec 3) (d : BitVec 6) (a : BitVec 6) (b : BitVec 6) (s : State) : Host.Outcome State Fault Refusal :=
  vec2 (intLane maxI) 2 gd d a b s

/-- vand in VA (R135). -/
def execVandVa (gd : BitVec 3) (d : BitVec 6) (a : BitVec 6) (b : BitVec 6) (s : State) : Host.Outcome State Fault Refusal :=
  vec2 (intLane (· &&& ·)) 2 gd d a b s

/-- vor in VA (R135). -/
def execVorVa (gd : BitVec 3) (d : BitVec 6) (a : BitVec 6) (b : BitVec 6) (s : State) : Host.Outcome State Fault Refusal :=
  vec2 (intLane (· ||| ·)) 2 gd d a b s

/-- vxor in VA (R135). -/
def execVxorVa (gd : BitVec 3) (d : BitVec 6) (a : BitVec 6) (b : BitVec 6) (s : State) : Host.Outcome State Fault Refusal :=
  vec2 (intLane (· ^^^ ·)) 2 gd d a b s

/-- vshl in VA (R135). -/
def execVshlVa (gd : BitVec 3) (d : BitVec 6) (a : BitVec 6) (b : BitVec 6) (s : State) : Host.Outcome State Fault Refusal :=
  vec2 (intLane shlI) 2 gd d a b s

/-- vshr in VA (R135). -/
def execVshrVa (gd : BitVec 3) (d : BitVec 6) (a : BitVec 6) (b : BitVec 6) (s : State) : Host.Outcome State Fault Refusal :=
  vec2 (intLane shrI) 2 gd d a b s

/-- vsar in VA (R135). -/
def execVsarVa (gd : BitVec 3) (d : BitVec 6) (a : BitVec 6) (b : BitVec 6) (s : State) : Host.Outcome State Fault Refusal :=
  vec2 (intLane sarI) 2 gd d a b s

/-- VCMP.EQ.f32 in VA (R136). -/
def execVcmpEqF32Va (gd : BitVec 3) (d : BitVec 3) (a : BitVec 6) (b : BitVec 6) (s : State) : Host.Outcome State Fault Refusal :=
  vecCmp eqF gd d a b s

/-- VCMP.EQ.i32 in VA (R136). -/
def execVcmpEqI32Va (gd : BitVec 3) (d : BitVec 3) (a : BitVec 6) (b : BitVec 6) (s : State) : Host.Outcome State Fault Refusal :=
  vecCmp eqI gd d a b s

/-- VCMP.LT.f32 in VA (R136). -/
def execVcmpLtF32Va (gd : BitVec 3) (d : BitVec 3) (a : BitVec 6) (b : BitVec 6) (s : State) : Host.Outcome State Fault Refusal :=
  vecCmp ltF gd d a b s

/-- VCMP.LT.i32 in VA (R136). -/
def execVcmpLtI32Va (gd : BitVec 3) (d : BitVec 3) (a : BitVec 6) (b : BitVec 6) (s : State) : Host.Outcome State Fault Refusal :=
  vecCmp ltI gd d a b s

/-- VCMP.LE.f32 in VA (R136). -/
def execVcmpLeF32Va (gd : BitVec 3) (d : BitVec 3) (a : BitVec 6) (b : BitVec 6) (s : State) : Host.Outcome State Fault Refusal :=
  vecCmp leF gd d a b s

/-- VCMP.LE.i32 in VA (R136). -/
def execVcmpLeI32Va (gd : BitVec 3) (d : BitVec 3) (a : BitVec 6) (b : BitVec 6) (s : State) : Host.Outcome State Fault Refusal :=
  vecCmp leI gd d a b s

/-- VMAND in VA (R137). -/
def execVmandVa (gd : BitVec 3) (d : BitVec 3) (a : BitVec 3) (b : BitVec 3) (s : State) : Host.Outcome State Fault Refusal :=
  maskOp (· &&& ·) gd d a b s

/-- VMOR in VA (R137). -/
def execVmorVa (gd : BitVec 3) (d : BitVec 3) (a : BitVec 3) (b : BitVec 3) (s : State) : Host.Outcome State Fault Refusal :=
  maskOp (· ||| ·) gd d a b s

/-- VMNOT in VA (R137). -/
def execVmnotVa (gd : BitVec 3) (d : BitVec 3) (a : BitVec 3) (s : State) : Host.Outcome State Fault Refusal :=
  maskOp (fun x _ => ~~~x) gd d a a s

/-- VMS in VA (R137). -/
def execVmsVa (gd : BitVec 3) (a : BitVec 3) (s : State) : Host.Outcome State Fault Refusal :=
  maskSelect gd a s

/-- VSEL in VA (R138). -/
def execVselVa (gd : BitVec 3) (d : BitVec 6) (a : BitVec 6) (b : BitVec 6) (s : State) : Host.Outcome State Fault Refusal :=
  sel2 vsel 2 gd d a b s

/-- VPERM in VA (R138). -/
def execVpermVa (gd : BitVec 3) (d : BitVec 6) (a : BitVec 6) (b : BitVec 6) (s : State) : Host.Outcome State Fault Refusal :=
  whole2 vperm 3 gd d a b s

/-- VROT in VA (R138). -/
def execVrotVa (gd : BitVec 3) (d : BitVec 6) (a : BitVec 6) (i : BitVec 6) (s : State) : Host.Outcome State Fault Refusal :=
  wholeI vrot 2 6 gd d a i.toNat s

/-- VCVT.f32.i32 in VA (R139). -/
def execVcvtF32I32Va (gd : BitVec 3) (d : BitVec 6) (a : BitVec 6) (s : State) : Host.Outcome State Fault Refusal :=
  vec1 cvtF 3 gd d a s

/-- VCVT.i32.f32 in VA (R139). -/
def execVcvtI32F32Va (gd : BitVec 3) (d : BitVec 6) (a : BitVec 6) (s : State) : Host.Outcome State Fault Refusal :=
  vec1 (cvtI Num.nearest) 3 gd d a s

/-- VCVT.i32.f32z in VA (R139). -/
def execVcvtI32F32zVa (gd : BitVec 3) (d : BitVec 6) (a : BitVec 6) (s : State) : Host.Outcome State Fault Refusal :=
  vec1 (cvtI Num.trunc) 3 gd d a s

/-- VPACK.bf in VA (R140). -/
def execVpackBfVa (gd : BitVec 3) (d : BitVec 6) (a : BitVec 6) (b : BitVec 6) (s : State) : Host.Outcome State Fault Refusal :=
  whole2 (pack16 Fmt.bf16) 3 gd d a b s

/-- VUNPK.bf in VA (R140). -/
def execVunpkBfVa (gd : BitVec 3) (d : BitVec 6) (a : BitVec 6) (h : BitVec 1) (s : State) : Host.Outcome State Fault Refusal :=
  runSlot gd [srcV a] (fun x o s => s.pushV x d 3 (unpack16 Fmt.bf16 o.v0 h.toNat)) s

/-- VPACK.hf in VA (R140). -/
def execVpackHfVa (gd : BitVec 3) (d : BitVec 6) (a : BitVec 6) (b : BitVec 6) (s : State) : Host.Outcome State Fault Refusal :=
  whole2 (pack16 Fmt.f16) 3 gd d a b s

/-- VUNPK.hf in VA (R140). -/
def execVunpkHfVa (gd : BitVec 3) (d : BitVec 6) (a : BitVec 6) (h : BitVec 1) (s : State) : Host.Outcome State Fault Refusal :=
  runSlot gd [srcV a] (fun x o s => s.pushV x d 3 (unpack16 Fmt.f16 o.v0 h.toNat)) s

/-- VPACK8.e4 in VA (R141). -/
def execVpack8E4Va (gd : BitVec 3) (d : BitVec 6) (a : BitVec 6) (b : BitVec 6) (s : State) : Host.Outcome State Fault Refusal :=
  whole2 (pack8 Fmt.e4m3) 3 gd d a b s

/-- VUNPK8.e4 in VA (R141). -/
def execVunpk8E4Va (gd : BitVec 3) (d : BitVec 6) (a : BitVec 6) (i : BitVec 6) (s : State) : Host.Outcome State Fault Refusal :=
  wholeI (unpack8 Fmt.e4m3) 3 6 gd d a i.toNat s

/-- VPACK8.e5 in VA (R141). -/
def execVpack8E5Va (gd : BitVec 3) (d : BitVec 6) (a : BitVec 6) (b : BitVec 6) (s : State) : Host.Outcome State Fault Refusal :=
  whole2 (pack8 Fmt.e5m2) 3 gd d a b s

/-- VUNPK8.e5 in VA (R141). -/
def execVunpk8E5Va (gd : BitVec 3) (d : BitVec 6) (a : BitVec 6) (i : BitVec 6) (s : State) : Host.Outcome State Fault Refusal :=
  wholeI (unpack8 Fmt.e5m2) 3 6 gd d a i.toNat s

/-- VMRG8 in VA (R141). -/
def execVmrg8Va (gd : BitVec 3) (d : BitVec 6) (a : BitVec 6) (b : BitVec 6) (s : State) : Host.Outcome State Fault Refusal :=
  whole2 (fun x y => (merge8 x y, 0)) 3 gd d a b s

/-- vaddF32 in VB (R133). -/
def execVaddF32Vb (gd : BitVec 3) (d : BitVec 6) (a : BitVec 6) (b : BitVec 6) (s : State) : Host.Outcome State Fault Refusal :=
  vec2 Fmt.f32.add 4 gd d a b s

/-- vsubF32 in VB (R133). -/
def execVsubF32Vb (gd : BitVec 3) (d : BitVec 6) (a : BitVec 6) (b : BitVec 6) (s : State) : Host.Outcome State Fault Refusal :=
  vec2 Fmt.f32.sub 4 gd d a b s

/-- vmulF32 in VB (R133). -/
def execVmulF32Vb (gd : BitVec 3) (d : BitVec 6) (a : BitVec 6) (b : BitVec 6) (s : State) : Host.Outcome State Fault Refusal :=
  vec2 Fmt.f32.mul 4 gd d a b s

/-- vminF32 in VB (R133). -/
def execVminF32Vb (gd : BitVec 3) (d : BitVec 6) (a : BitVec 6) (b : BitVec 6) (s : State) : Host.Outcome State Fault Refusal :=
  vec2 minOp 4 gd d a b s

/-- vmaxF32 in VB (R133). -/
def execVmaxF32Vb (gd : BitVec 3) (d : BitVec 6) (a : BitVec 6) (b : BitVec 6) (s : State) : Host.Outcome State Fault Refusal :=
  vec2 maxOp 4 gd d a b s

/-- vaddBf in VB (R133). -/
def execVaddBfVb (gd : BitVec 3) (d : BitVec 6) (a : BitVec 6) (b : BitVec 6) (s : State) : Host.Outcome State Fault Refusal :=
  vec2 (on16 Fmt.bf16.add) 4 gd d a b s

/-- vmulBf in VB (R133). -/
def execVmulBfVb (gd : BitVec 3) (d : BitVec 6) (a : BitVec 6) (b : BitVec 6) (s : State) : Host.Outcome State Fault Refusal :=
  vec2 (on16 Fmt.bf16.mul) 4 gd d a b s

/-- vaddHf in VB (R133). -/
def execVaddHfVb (gd : BitVec 3) (d : BitVec 6) (a : BitVec 6) (b : BitVec 6) (s : State) : Host.Outcome State Fault Refusal :=
  vec2 (on16 Fmt.f16.add) 4 gd d a b s

/-- vmulHf in VB (R133). -/
def execVmulHfVb (gd : BitVec 3) (d : BitVec 6) (a : BitVec 6) (b : BitVec 6) (s : State) : Host.Outcome State Fault Refusal :=
  vec2 (on16 Fmt.f16.mul) 4 gd d a b s

/-- vfmaF32 in VB (R134). -/
def execVfmaF32Vb (gd : BitVec 3) (d : BitVec 6) (a : BitVec 6) (b : BitVec 6) (s : State) : Host.Outcome State Fault Refusal :=
  vecF Fmt.f32.fma gd d a b s

/-- vfmsF32 in VB (R134). -/
def execVfmsF32Vb (gd : BitVec 3) (d : BitVec 6) (a : BitVec 6) (b : BitVec 6) (s : State) : Host.Outcome State Fault Refusal :=
  vecF Fmt.f32.fnma gd d a b s

/-- vfmaBf in VB (R134). -/
def execVfmaBfVb (gd : BitVec 3) (d : BitVec 6) (a : BitVec 6) (b : BitVec 6) (s : State) : Host.Outcome State Fault Refusal :=
  vecF (fused16 Fmt.bf16.fma) gd d a b s

/-- vfmaHf in VB (R134). -/
def execVfmaHfVb (gd : BitVec 3) (d : BitVec 6) (a : BitVec 6) (b : BitVec 6) (s : State) : Host.Outcome State Fault Refusal :=
  vecF (fused16 Fmt.f16.fma) gd d a b s

/-- VDOT4.i8 in VB (R142). -/
def execVdot4I8Vb (gd : BitVec 3) (d : BitVec 6) (a : BitVec 6) (b : BitVec 6) (s : State) : Host.Outcome State Fault Refusal :=
  vecF dot4 gd d a b s

/-- vabsF32 in VB (R133). -/
def execVabsF32Vb (gd : BitVec 3) (d : BitVec 6) (a : BitVec 6) (s : State) : Host.Outcome State Fault Refusal :=
  vec1 absF 4 gd d a s

/-- vnegF32 in VB (R133). -/
def execVnegF32Vb (gd : BitVec 3) (d : BitVec 6) (a : BitVec 6) (s : State) : Host.Outcome State Fault Refusal :=
  vec1 negF 4 gd d a s

/-- vaddI32 in VB (R135). -/
def execVaddI32Vb (gd : BitVec 3) (d : BitVec 6) (a : BitVec 6) (b : BitVec 6) (s : State) : Host.Outcome State Fault Refusal :=
  vec2 (intLane (· + ·)) 2 gd d a b s

/-- vsubI32 in VB (R135). -/
def execVsubI32Vb (gd : BitVec 3) (d : BitVec 6) (a : BitVec 6) (b : BitVec 6) (s : State) : Host.Outcome State Fault Refusal :=
  vec2 (intLane (· - ·)) 2 gd d a b s

/-- vmulI32 in VB (R135). -/
def execVmulI32Vb (gd : BitVec 3) (d : BitVec 6) (a : BitVec 6) (b : BitVec 6) (s : State) : Host.Outcome State Fault Refusal :=
  vec2 (intLane (· * ·)) 2 gd d a b s

/-- vminI32 in VB (R135). -/
def execVminI32Vb (gd : BitVec 3) (d : BitVec 6) (a : BitVec 6) (b : BitVec 6) (s : State) : Host.Outcome State Fault Refusal :=
  vec2 (intLane minI) 2 gd d a b s

/-- vmaxI32 in VB (R135). -/
def execVmaxI32Vb (gd : BitVec 3) (d : BitVec 6) (a : BitVec 6) (b : BitVec 6) (s : State) : Host.Outcome State Fault Refusal :=
  vec2 (intLane maxI) 2 gd d a b s

/-- vand in VB (R135). -/
def execVandVb (gd : BitVec 3) (d : BitVec 6) (a : BitVec 6) (b : BitVec 6) (s : State) : Host.Outcome State Fault Refusal :=
  vec2 (intLane (· &&& ·)) 2 gd d a b s

/-- vor in VB (R135). -/
def execVorVb (gd : BitVec 3) (d : BitVec 6) (a : BitVec 6) (b : BitVec 6) (s : State) : Host.Outcome State Fault Refusal :=
  vec2 (intLane (· ||| ·)) 2 gd d a b s

/-- vxor in VB (R135). -/
def execVxorVb (gd : BitVec 3) (d : BitVec 6) (a : BitVec 6) (b : BitVec 6) (s : State) : Host.Outcome State Fault Refusal :=
  vec2 (intLane (· ^^^ ·)) 2 gd d a b s

/-- vshl in VB (R135). -/
def execVshlVb (gd : BitVec 3) (d : BitVec 6) (a : BitVec 6) (b : BitVec 6) (s : State) : Host.Outcome State Fault Refusal :=
  vec2 (intLane shlI) 2 gd d a b s

/-- vshr in VB (R135). -/
def execVshrVb (gd : BitVec 3) (d : BitVec 6) (a : BitVec 6) (b : BitVec 6) (s : State) : Host.Outcome State Fault Refusal :=
  vec2 (intLane shrI) 2 gd d a b s

/-- vsar in VB (R135). -/
def execVsarVb (gd : BitVec 3) (d : BitVec 6) (a : BitVec 6) (b : BitVec 6) (s : State) : Host.Outcome State Fault Refusal :=
  vec2 (intLane sarI) 2 gd d a b s

/-- VCMP.EQ.f32 in VB (R136). -/
def execVcmpEqF32Vb (gd : BitVec 3) (d : BitVec 3) (a : BitVec 6) (b : BitVec 6) (s : State) : Host.Outcome State Fault Refusal :=
  vecCmp eqF gd d a b s

/-- VCMP.EQ.i32 in VB (R136). -/
def execVcmpEqI32Vb (gd : BitVec 3) (d : BitVec 3) (a : BitVec 6) (b : BitVec 6) (s : State) : Host.Outcome State Fault Refusal :=
  vecCmp eqI gd d a b s

/-- VCMP.LT.f32 in VB (R136). -/
def execVcmpLtF32Vb (gd : BitVec 3) (d : BitVec 3) (a : BitVec 6) (b : BitVec 6) (s : State) : Host.Outcome State Fault Refusal :=
  vecCmp ltF gd d a b s

/-- VCMP.LT.i32 in VB (R136). -/
def execVcmpLtI32Vb (gd : BitVec 3) (d : BitVec 3) (a : BitVec 6) (b : BitVec 6) (s : State) : Host.Outcome State Fault Refusal :=
  vecCmp ltI gd d a b s

/-- VCMP.LE.f32 in VB (R136). -/
def execVcmpLeF32Vb (gd : BitVec 3) (d : BitVec 3) (a : BitVec 6) (b : BitVec 6) (s : State) : Host.Outcome State Fault Refusal :=
  vecCmp leF gd d a b s

/-- VCMP.LE.i32 in VB (R136). -/
def execVcmpLeI32Vb (gd : BitVec 3) (d : BitVec 3) (a : BitVec 6) (b : BitVec 6) (s : State) : Host.Outcome State Fault Refusal :=
  vecCmp leI gd d a b s

/-- VMAND in VB (R137). -/
def execVmandVb (gd : BitVec 3) (d : BitVec 3) (a : BitVec 3) (b : BitVec 3) (s : State) : Host.Outcome State Fault Refusal :=
  maskOp (· &&& ·) gd d a b s

/-- VMOR in VB (R137). -/
def execVmorVb (gd : BitVec 3) (d : BitVec 3) (a : BitVec 3) (b : BitVec 3) (s : State) : Host.Outcome State Fault Refusal :=
  maskOp (· ||| ·) gd d a b s

/-- VMNOT in VB (R137). -/
def execVmnotVb (gd : BitVec 3) (d : BitVec 3) (a : BitVec 3) (s : State) : Host.Outcome State Fault Refusal :=
  maskOp (fun x _ => ~~~x) gd d a a s

/-- VMS in VB (R137). -/
def execVmsVb (gd : BitVec 3) (a : BitVec 3) (s : State) : Host.Outcome State Fault Refusal :=
  maskSelect gd a s

/-- VSEL in VB (R138). -/
def execVselVb (gd : BitVec 3) (d : BitVec 6) (a : BitVec 6) (b : BitVec 6) (s : State) : Host.Outcome State Fault Refusal :=
  sel2 vsel 2 gd d a b s

/-- VPERM in VB (R138). -/
def execVpermVb (gd : BitVec 3) (d : BitVec 6) (a : BitVec 6) (b : BitVec 6) (s : State) : Host.Outcome State Fault Refusal :=
  whole2 vperm 3 gd d a b s

/-- VROT in VB (R138). -/
def execVrotVb (gd : BitVec 3) (d : BitVec 6) (a : BitVec 6) (i : BitVec 6) (s : State) : Host.Outcome State Fault Refusal :=
  wholeI vrot 2 6 gd d a i.toNat s

/-- VCVT.f32.i32 in VB (R139). -/
def execVcvtF32I32Vb (gd : BitVec 3) (d : BitVec 6) (a : BitVec 6) (s : State) : Host.Outcome State Fault Refusal :=
  vec1 cvtF 3 gd d a s

/-- VCVT.i32.f32 in VB (R139). -/
def execVcvtI32F32Vb (gd : BitVec 3) (d : BitVec 6) (a : BitVec 6) (s : State) : Host.Outcome State Fault Refusal :=
  vec1 (cvtI Num.nearest) 3 gd d a s

/-- VCVT.i32.f32z in VB (R139). -/
def execVcvtI32F32zVb (gd : BitVec 3) (d : BitVec 6) (a : BitVec 6) (s : State) : Host.Outcome State Fault Refusal :=
  vec1 (cvtI Num.trunc) 3 gd d a s

/-- VPACK.bf in VB (R140). -/
def execVpackBfVb (gd : BitVec 3) (d : BitVec 6) (a : BitVec 6) (b : BitVec 6) (s : State) : Host.Outcome State Fault Refusal :=
  whole2 (pack16 Fmt.bf16) 3 gd d a b s

/-- VUNPK.bf in VB (R140). -/
def execVunpkBfVb (gd : BitVec 3) (d : BitVec 6) (a : BitVec 6) (h : BitVec 1) (s : State) : Host.Outcome State Fault Refusal :=
  runSlot gd [srcV a] (fun x o s => s.pushV x d 3 (unpack16 Fmt.bf16 o.v0 h.toNat)) s

/-- VPACK.hf in VB (R140). -/
def execVpackHfVb (gd : BitVec 3) (d : BitVec 6) (a : BitVec 6) (b : BitVec 6) (s : State) : Host.Outcome State Fault Refusal :=
  whole2 (pack16 Fmt.f16) 3 gd d a b s

/-- VUNPK.hf in VB (R140). -/
def execVunpkHfVb (gd : BitVec 3) (d : BitVec 6) (a : BitVec 6) (h : BitVec 1) (s : State) : Host.Outcome State Fault Refusal :=
  runSlot gd [srcV a] (fun x o s => s.pushV x d 3 (unpack16 Fmt.f16 o.v0 h.toNat)) s

/-- VPACK8.e4 in VB (R141). -/
def execVpack8E4Vb (gd : BitVec 3) (d : BitVec 6) (a : BitVec 6) (b : BitVec 6) (s : State) : Host.Outcome State Fault Refusal :=
  whole2 (pack8 Fmt.e4m3) 3 gd d a b s

/-- VUNPK8.e4 in VB (R141). -/
def execVunpk8E4Vb (gd : BitVec 3) (d : BitVec 6) (a : BitVec 6) (i : BitVec 6) (s : State) : Host.Outcome State Fault Refusal :=
  wholeI (unpack8 Fmt.e4m3) 3 6 gd d a i.toNat s

/-- VPACK8.e5 in VB (R141). -/
def execVpack8E5Vb (gd : BitVec 3) (d : BitVec 6) (a : BitVec 6) (b : BitVec 6) (s : State) : Host.Outcome State Fault Refusal :=
  whole2 (pack8 Fmt.e5m2) 3 gd d a b s

/-- VUNPK8.e5 in VB (R141). -/
def execVunpk8E5Vb (gd : BitVec 3) (d : BitVec 6) (a : BitVec 6) (i : BitVec 6) (s : State) : Host.Outcome State Fault Refusal :=
  wholeI (unpack8 Fmt.e5m2) 3 6 gd d a i.toNat s

/-- VMRG8 in VB (R141). -/
def execVmrg8Vb (gd : BitVec 3) (d : BitVec 6) (a : BitVec 6) (b : BitVec 6) (s : State) : Host.Outcome State Fault Refusal :=
  whole2 (fun x y => (merge8 x y, 0)) 3 gd d a b s

/-- VEXP2 (R143). -/
def execVexp2 (gd : BitVec 3) (d : BitVec 6) (a : BitVec 6) (s : State) : Host.Outcome State Fault Refusal :=
  vec1 vexp2 8 gd d a s

/-- VLOG2 (R143). -/
def execVlog2 (gd : BitVec 3) (d : BitVec 6) (a : BitVec 6) (s : State) : Host.Outcome State Fault Refusal :=
  vec1 vlog2 8 gd d a s

/-- VRCP (R143). -/
def execVrcp (gd : BitVec 3) (d : BitVec 6) (a : BitVec 6) (s : State) : Host.Outcome State Fault Refusal :=
  vec1 vrcp 8 gd d a s

/-- VRSQ (R143). -/
def execVrsq (gd : BitVec 3) (d : BitVec 6) (a : BitVec 6) (s : State) : Host.Outcome State Fault Refusal :=
  vec1 vrsq 8 gd d a s

/-- VSQRT (R143). -/
def execVsqrt (gd : BitVec 3) (d : BitVec 6) (a : BitVec 6) (s : State) : Host.Outcome State Fault Refusal :=
  vec1 Fmt.f32.sqrt 12 gd d a s

/-- VTANH (R143). -/
def execVtanh (gd : BitVec 3) (d : BitVec 6) (a : BitVec 6) (s : State) : Host.Outcome State Fault Refusal :=
  vec1 vtanh 10 gd d a s

/-- VDIV (R143). -/
def execVdiv (gd : BitVec 3) (d : BitVec 6) (a : BitVec 6) (b : BitVec 6) (s : State) : Host.Outcome State Fault Refusal :=
  vec2 Fmt.f32.div 12 gd d a b s

/-- vrsumF32 (R144). -/
def execVrsumF32 (gd : BitVec 3) (d : BitVec 6) (a : BitVec 6) (s : State) : Host.Outcome State Fault Refusal :=
  sel1 (reduce Fmt.f32.add 0x80000000) 6 gd d a s

/-- vrmaxF32 (R144). -/
def execVrmaxF32 (gd : BitVec 3) (d : BitVec 6) (a : BitVec 6) (s : State) : Host.Outcome State Fault Refusal :=
  sel1 (reduce maxOp 0xFF800000) 6 gd d a s

/-- vrminF32 (R144). -/
def execVrminF32 (gd : BitVec 3) (d : BitVec 6) (a : BitVec 6) (s : State) : Host.Outcome State Fault Refusal :=
  sel1 (reduce minOp 0x7F800000) 6 gd d a s

/-- vrsumI32 (R144). -/
def execVrsumI32 (gd : BitVec 3) (d : BitVec 6) (a : BitVec 6) (s : State) : Host.Outcome State Fault Refusal :=
  sel1 (reduce (intLane (· + ·)) 0) 6 gd d a s

/-- AMAXU (R146). -/
def execAmaxu (gd : BitVec 3) (d : BitVec 6) (a : BitVec 6) (b : BitVec 6) (s : State) : Host.Outcome State Fault Refusal :=
  sel2 attnMax 8 gd d a b s

/-- AEXPS (R147). -/
def execAexps (gd : BitVec 3) (d : BitVec 6) (a : BitVec 6) (b : BitVec 6) (s : State) : Host.Outcome State Fault Refusal :=
  sel2 attnExp 8 gd d a b s

/-- ARESC (R148). -/
def execAresc (gd : BitVec 3) (d : BitVec 6) (a : BitVec 6) (b : BitVec 6) (s : State) : Host.Outcome State Fault Refusal :=
  runSlot gd [srcVn a 2, srcV b] (fun h o s => s.pushV h d 8 (attnRescale o.v0 o.v1 o.v2)) s

/-- ANORM (R149). -/
def execAnorm (gd : BitVec 3) (d : BitVec 6) (a : BitVec 6) (b : BitVec 6) (s : State) : Host.Outcome State Fault Refusal :=
  runSlot gd [srcV a, srcVn b 2] (fun h o s =>
    let r := attnNorm o.v0 o.v1 o.v2
    (s.pushV h d 8 r.1).push h 8 (.maskBit 7 r.2.1 r.2.2)) s

/-- AMRG (R150). -/
def execAmrg (gd : BitVec 3) (d : BitVec 6) (a : BitVec 6) (b : BitVec 6) (s : State) : Host.Outcome State Fault Refusal :=
  whole2 attnMerge 8 gd d a b s

/-- VCHK (R152). -/
def execVchk (gd : BitVec 3) (a : BitVec 6) (b : BitVec 6) (s : State) : Host.Outcome State Fault Refusal :=
  runSlot gd [srcV a, srcV b] (fun h o s => if o.v0 = o.v1 then s else s.push h 2 (.check (vchkInfo o.v0 o.v1))) s

end Sys2Proof.Machine
end

