-- ==== Sys2Proof/Machine/Matrix.lean ====
section
/-! DEFINITION. The matrix array: loading weights, gathering rows, beats, draining, the rotation, engine registers and
banks (07 R153 to R174). -/

namespace Sys2Proof.Machine

/-! ### Planes and tags (R158) -/

/-- A row of a weight plane. -/
def Tile.weightRow (t : Tile) (plane n : Nat) : WRow := aget (rd t.planes plane []) n {}

/-- The tag that a beat accepts beside NONE (R158, R159). -/
def beatTag (m wf : Nat) : Nat :=
  match m with
  | 0 => 1 + wf
  | 1 => 4
  | 2 => 5 + wf
  | _ => 7

/-- Output lanes and elements of a mode (R154). -/
def modeLanes (m : Nat) : Nat := if m = 3 then 16 else 64
def modeElems (m : Nat) : Nat :=
  match m with
  | 0 => 64
  | 1 => 128
  | 2 => 32
  | _ => 16

/-- The detail word of a plane tag that disagrees (R172). -/
def tagInfo (row found want : Nat) : Dword := BitVec.ofNat 64 (row + found * 256 + want * 65536)

/-! ### Beats (R129, R162) -/

/-- Element `k` of a row of bytes held as a vector, `n` bits wide. -/
def elemAt (v : Nat) (n k : Nat) : Nat := v / 2 ^ (n * k) % 2 ^ n

/-- An 8-bit element as a value: INT8, E4M3 or E5M2 (R156). -/
def elem8 (f x : Nat) : Num :=
  match f with
  | 0 => Num.ofInt (signed8 x)
  | 1 => Fmt.e4m3.num x
  | _ => Fmt.e5m2.num x

/-- A 16-bit element as a value: BF16 or FP16. -/
def elem16 (f x : Nat) : Num := if f = 0 then Fmt.bf16.num x else Fmt.f16.num x

/-- Activation `k` of an A row (R154, R156). -/
def activation (m af : Nat) (x : Nat) (k : Nat) : Num :=
  match m with
  | 0 | 1 => elem8 af (elemAt x 8 k)
  | 2 => elem16 af (elemAt x 16 k)
  | _ => Fmt.f32.num (elemAt x 32 k)

/-- The number whose 32-bit digits are the words of a row as read. -/
def rowNat : List Word → Nat
  | [] => 0
  | w :: r => w.toNat + rowNat r <<< 32

/-- Weight `k` of a row; a NONE row holds zeros (R158). -/
def weightAt (m wf : Nat) (ws : List Word) (k : Nat) : Num :=
  match m with
  | 0 => elem8 wf (elemAt (rowNat ws) 8 k)
  | 1 => Fmt.f32.num (ws.getD k 0).toNat
  | 2 => elem16 wf (elemAt (rowNat ws) 16 k)
  | _ => Fmt.f32.num (ws.getD k 0).toNat

/-- A product, exact and rounded once (R129 step 1). -/
def product (a b : Num) : Nat × Fpst :=
  let (x, i) := a.mul b
  let (w, g) := Fmt.f32.round x
  (w, i ||| g)

/-- The tree value of an output lane (R129). -/
def beatLane (m af wf : Nat) (x : Nat) (ws : List Word) : Nat × Fpst :=
  let ps := (List.range (modeElems m)).map fun k => product (activation m af x k) (weightAt m wf ws k)
  let t := pairTree Fmt.f32.add (Nat.log2 (modeElems m)) (ps.map (·.1))
  (t.1, ps.foldl (fun f p => f ||| p.2) t.2)

/-- The tree value of an output lane of an integer beat (R129). -/
def beatInt (x : Nat) (ws : List Word) : Nat :=
  (BitVec.ofInt 32 (((List.range 64).map fun k => signed8 (elemAt x 8 k) * signed8 (elemAt (rowNat ws) 8 k)).sum)).toNat

/-- MAC and MAC.z on an A row (R162). -/
def State.beat (s : State) (h : SlotRec) (z : Bool) (a : Dword) (x : Vec) : State :=
  let t := s.curTile
  let (m, af, wf) := s.cur.regs.bmode
  let row := (fld a 0 10).toNat
  let n := modeLanes m
  let want := beatTag m wf
  match (List.range n).find? fun i => let g := (t.weightRow t.active i).tag; g != 0 && g != want with
  | some i => s.raise h Cause.fmt (tagInfo i (t.weightRow t.active i).tag want)
  | none =>
    let xs := x.toNat
    let ws (i : Nat) : List Word := (t.weightRow t.active i).ws
    if m = 0 ∧ af = 0 ∧ wf = 0 then
      s.push h 6 (.beat row z true 64 (ofLanes fun i => BitVec.ofNat 32 (beatInt xs (ws i))))
    else
      let v := ofLanesFs fun i => if i < n then beatLane m af wf xs (ws i) else (0, 0)
      s.push h 6 (.beat row z false n v.1) v.2

/-- MAC (R162). -/
def execMac (gd : BitVec 3) (a b : BitVec 6) (s : State) : Host.Outcome State Fault Refusal :=
  runSlot gd [srcS a, srcV b] (fun h o s => s.beat h false o.s0 o.v0) s
/-- MAC with its row from the latch (R162). -/
def execMacLatch (gd : BitVec 3) (a : BitVec 6) (s : State) : Host.Outcome State Fault Refusal :=
  runSlot gd [srcS a, srcLatch] (fun h o s => s.beat h false o.s0 o.v0) s
/-- MAC.z (R162). -/
def execMacZ (gd : BitVec 3) (a b : BitVec 6) (s : State) : Host.Outcome State Fault Refusal :=
  runSlot gd [srcS a, srcV b] (fun h o s => s.beat h true o.s0 o.v0) s
/-- MAC.z with its row from the latch (R162). -/
def execMacZLatch (gd : BitVec 3) (a : BitVec 6) (s : State) : Host.Outcome State Fault Refusal :=
  runSlot gd [srcS a, srcLatch] (fun h o s => s.beat h true o.s0 o.v0) s

/-! ### Loading and gathering (R159 to R161, R166) -/

/-- MWL (R159). -/
def execMwl (gd : BitVec 3) (n o r : BitVec 6) (s : State) : Host.Outcome State Fault Refusal :=
  runSlot gd [srcS o] (fun h x s => s.gAccess ⟨64, n.toNat, r.setWidth 64, h, x, {}⟩ 4 true) s
/-- MWSW (R160). -/
def execMwsw (gd : BitVec 3) (s : State) : Host.Outcome State Fault Refusal :=
  runSlot gd [] (fun h _ s => s.push h 1 .planes) s
/-- MGA (R161). -/
def execMga (gd : BitVec 3) (n o v : BitVec 6) (s : State) : Host.Outcome State Fault Refusal :=
  runSlot gd [srcS o, srcV v] (fun h x s => s.gAccess ⟨65, n.toNat, 0, h, x, {}⟩ 14 true) s
/-- MLDH (R166). -/
def execMldh (gd : BitVec 3) (i : BitVec 12) (s : State) : Host.Outcome State Fault Refusal :=
  runSlot gd [] (fun h _ s => s.push h 8 (.hadamard (1 - s.curTile.active) i.toNat)) s

/-! ### Draining (R164, R165) -/

/-- The format codes of MDR (R71). -/
def mdrFmt (f : Nat) : Fmt :=
  match f with
  | 1 => .bf16
  | 2 => .f16
  | 3 => .e4m3
  | _ => .e5m2

/-- The value of a drained lane as FP32: an INT32 is rounded, the scale of the .s forms is applied (R164). -/
def drainF32 (int sc : Bool) (scale x : Nat) : Nat × Fpst :=
  let a := if int then Fmt.f32.ofInt (BitVec.ofNat 32 x).toInt else (x, 0)
  if sc then
    let b := Fmt.f32.mul a.1 scale
    (b.1, a.2 ||| b.2)
  else a

/-- An element of a drained row, with its conditions (R165). -/
def drainElem (f : Nat) (int sc : Bool) (scale x : Nat) : Nat × Fpst :=
  if f = 5 then
    let r : Int × Fpst :=
      if int && !sc then
        let v := (BitVec.ofNat 32 x).toInt
        if v < -128 then (-128, Fs.invalid) else if 127 < v then (127, Fs.invalid) else (v, 0)
      else
        let a := drainF32 int sc scale x
        let r := (Fmt.f32.num a.1).toInt Num.nearest (-128) 127
        (r.1, a.2 ||| r.2)
    ((BitVec.ofInt 8 r.1).toNat, r.2)
  else
    let a := drainF32 int sc scale x
    let r := Fmt.f32.conv (mdrFmt f) a.1
    (r.1, a.2 ||| r.2)

/-- A list of numbers as digits of `n` bits. -/
def digits (n : Nat) : List Nat → Nat
  | [] => 0
  | x :: r => x + digits n r <<< n

/-- The drained row of R164 and R165, with its conditions. -/
def drainRow (f : Nat) (sc raw int : Bool) (scale sup : Nat) (v : Vec) : Vec × Fpst :=
  let xs := (List.range 64).map fun i => (lane v i).toNat
  if f = 0 then
    if raw && !sc then (v, 0)
    else
      let ys := xs.map (drainF32 int sc scale)
      (BitVec.ofNat 2048 (digits 32 (ys.map (·.1))), ys.foldl (fun g y => g ||| y.2) 0)
  else if f = 6 then
    let ys := xs.map (drainF32 int sc scale)
    let e := n4qEncode sup (ys.map (·.1))
    (BitVec.ofNat 2048 (digits 4 e.2.1 + e.1 * 2 ^ 256), ys.foldl (fun g y => g ||| y.2) e.2.2)
  else
    let ys := xs.map (drainElem f int sc scale)
    (BitVec.ofNat 2048 (digits (if f < 3 then 16 else 8) (ys.map (·.1))), ys.foldl (fun g y => g ||| y.2) 0)

/-- MDR (R164). -/
def execMdr (gd : BitVec 3) (q a : BitVec 6) (x : BitVec 1) (f : BitVec 3) (s : State) :
    Host.Outcome State Fault Refusal :=
  runSlot gd [srcS a] (fun h o s =>
    let r := s.cur.regs
    let ctl := rd r.me 2 0
    let y := drainRow f.toNat (x == 1) (bit ctl 1) (bit ctl 0) (fld (rd r.me 3 0) 0 32).toNat
      (fld (rd r.me 4 0) 0 32).toNat (s.curTile.accRow (fld o.s0 0 10).toNat)
    s.push h 8 (.row q.toNat y.1) y.2) s

/-! ### The rotation (R166, R167) -/

/-- Whether the number of ones of `n` is odd, over its low `k` bits. -/
def oddOnes (n : Nat) : Nat → Bool
  | 0 => false
  | k + 1 => n.testBit k != oddOnes n k

/-- Lane `n` of a rotated row (R167): a sign change is exact, and keeps a NaN a NaN. -/
def rotLane (q : Nat) (v : Vec) (n : Nat) : Nat × Fpst :=
  let g := n / q
  let j := n % q
  pairTree Fmt.f32.add (Nat.log2 q) ((List.range q).map fun i =>
    let x := (lane v (g * q + i)).toNat
    if oddOnes (i &&& j) 7 then (negF x).1 else x)

/-- MROT (R167). Where row 0 of the active plane carries no Hadamard tag, R172 gives no tag that was wanted: the model reports
row 0 with its own tag as FOUND and as WANT (DESIGN CHOICE, log 45). -/
def execMrot (gd : BitVec 3) (a : BitVec 6) (s : State) : Host.Outcome State Fault Refusal :=
  runSlot gd [srcS a] (fun h o s =>
    let t := s.curTile
    let tag (i : Nat) : Nat := (t.weightRow t.active i).tag
    let want := tag 0
    let row := (fld o.s0 0 10).toNat
    if want < 16 then s.raise h Cause.fmt (tagInfo 0 want want)
    else
      match (List.range 64).find? fun i => tag i != want with
      | some i => s.raise h Cause.fmt (tagInfo i (tag i) want)
      | none =>
        let v := ofLanesFs (rotLane (2 ^ (want - 12)) (t.accRow row))
        s.push h 6 (.beat row true false 64 v.1) v.2) s

/-! ### Engine registers and banks (R168 to R170) -/

/-- MSET (R168). -/
def execMset (gd : BitVec 3) (a : BitVec 6) (e : BitVec 5) (s : State) : Host.Outcome State Fault Refusal :=
  runSlot gd [srcS a] (fun h o s => s.push h 1 (.me e.toNat o.s0)) s

/-- The bank demand of the context's task (R169). -/
def State.bankDemand (s : State) (t : Nat) (cx : Cx) : Nat :=
  (((s.ctx t cx).task.bind fun k => (s.part (s.partOf t)).tasks.find? fun x => x.id == k).map (·.banks)).getD 0

def Tile.bankOf (t : Tile) (b : Nat) : Option Cx := rd t.banks b none
def Tile.banksHeld (t : Tile) (cx : Cx) : Nat := ((List.range 128).filter fun b => t.bankOf b == some cx).length
def Tile.setBanks (t : Tile) (b n : Nat) (o : Option Cx) : Tile :=
  { t with banks := ((List.range n).map (b + ·)).foldl (fun v i => wr v i o) t.banks }

/-- ABAL (R169). -/
def execAbal (gd : BitVec 3) (d : BitVec 6) (i : BitVec 12) (s : State) : Host.Outcome State Fault Refusal :=
  runSlot gd [] (fun h _ s =>
    let (t, cx) := s.here
    let x := s.curTile
    let n := i.toNat
    let first := (List.range (129 - n)).find? fun b => (List.range n).all fun k => (x.bankOf (b + k)).isNone
    match if s.bankDemand t cx < x.banksHeld cx + n then none else first with
    | none => s.pushS h d 2 (BitVec.allOnes 64)
    | some b => (s.modCurTile (·.setBanks b n (some cx))).pushS h d 2 (BitVec.ofNat 64 b)) s

/-- ABFR (R170). -/
def execAbfr (gd : BitVec 3) (a : BitVec 6) (i : BitVec 12) (s : State) : Host.Outcome State Fault Refusal :=
  runSlot gd [srcS a] (fun h o s =>
    let cx := s.here.2
    let x := s.curTile
    let n := i.toNat
    let b := (fld o.s0 0 7).toNat
    match ((List.range n).map (b + ·)).find? fun k => decide (128 ≤ k) || x.bankOf k != some cx with
    | some k => s.raise h Cause.abheld (BitVec.ofNat 64 (n % 256 + k % 128 * 256 + 2 ^ 15))
    | none => s.modCurTile (·.setBanks b n none)) s

end Sys2Proof.Machine
end

