-- ==== Sys2Proof/Machine/Seq.lean ====
section
/-! DEFINITION. The sequence engine: submission, the operations step by step, durations, STOP and completion (08 R175
to R198). -/

namespace Sys2Proof.Machine

/-! ### Operands (R180 to R182) -/

/-- An operand of an operation: 0 A, 1 B, 2 C; its rows and columns, element size, the format it accepts beside raw,
and whether it is written. -/
structure SqOperand where
  which : Nat
  rows : Nat
  cols : Nat
  size : Nat
  fmt : Nat
  written : Bool
  deriving DecidableEq, Repr

/-- The base form's opcode minus 0x10 (R182). -/
def sqBase (op : Nat) : Nat := if op < 0x18 then (op - 0x10) / 2 * 2 else op - 0x10
/-- A .r form (R188). -/
def sqResumes (op : Nat) : Bool := decide (op < 0x18) && op % 2 == 1

/-- Words of the image: me8 to me12. -/
def imgOperand (img : List Dword) (k : Nat) : Dword := img.getD k 0
def imgDim (img : List Dword) : Dword := img.getD 3 0
def imgCtl (img : List Dword) : Dword := img.getD 4 0

def sqN (img : List Dword) : Nat := (fld (imgDim img) 0 6).toNat + 1
def sqM (img : List Dword) : Nat := (fld (imgDim img) 8 6).toNat + 1
def sqK (img : List Dword) : Nat := (fld (imgDim img) 16 6).toNat + 1
def sqR (img : List Dword) : Nat := (fld (imgDim img) 24 6).toNat + 1
def sqUpper (img : List Dword) : Bool := bit (imgCtl img) 0
def sqUnit (img : List Dword) : Bool := bit (imgCtl img) 1
def sqAcc (img : List Dword) : Bool := bit (imgCtl img) 2
def sqType (img : List Dword) : Nat := (fld (imgCtl img) 4 2).toNat

/-- The operands that an operation uses (R182). -/
def sqOperands (op : Nat) (img : List Dword) : List SqOperand :=
  let n := sqN img
  match sqBase op with
  | 0 =>
    let ty := sqType img
    let f := if ty = 0 then 3 else if ty = 1 then 5 else if ty = 2 then 4 else 1
    let e := if ty = 0 then 4 else if ty = 3 then 1 else 2
    [⟨0, sqM img, sqK img, e, f, false⟩, ⟨1, sqK img, n, e, f, false⟩,
     ⟨2, sqM img, n, 4, if ty = 3 then 2 else 3, true⟩]
  | 6 => [⟨0, n, n, 4, 3, true⟩, ⟨2, 1, n, 4, 3, true⟩]
  | 8 => [⟨0, n, n, 4, 3, false⟩, ⟨1, n, sqR img, 4, 3, true⟩]
  | 9 => [⟨1, n, sqR img, 4, 3, true⟩]
  | _ => [⟨0, n, n, 4, 3, true⟩]

def sqName (img : List Dword) (x : SqOperand) : Nat := (fld (imgOperand img x.which) 0 6).toNat
def sqOff (img : List Dword) (x : SqOperand) : Nat := (fld (imgOperand img x.which) 8 22).toNat
def sqLdField (img : List Dword) (x : SqOperand) : Nat := (fld (imgOperand img x.which) 32 12).toNat
/-- The row stride in elements (R180). -/
def sqLd (img : List Dword) (x : SqOperand) : Nat := let l := sqLdField img x; if l = 0 then x.cols else l
/-- The end of an operand's byte range. -/
def sqEnd (img : List Dword) (x : SqOperand) : Nat := sqOff img x + x.size * ((x.rows - 1) * sqLd img x + x.cols)
/-- The byte address of element (i, j) (R178). -/
def sqAt (img : List Dword) (x : SqOperand) (i j : Nat) : Nat := sqOff img x + x.size * (i * sqLd img x + j)

/-- The detail word of R182. -/
def sqInfo (op opnd : Nat) (ldx ovl prm : Bool) : Dword :=
  BitVec.ofNat 64 (opnd + b2n ldx * 4 + b2n ovl * 8 + b2n prm * 16 + sqBase op * 256)

/-- Check 3 of R182. Where several parts of it fail, OPND goes by the first operand in the order of the table with its offset, its
stride and its extent in this order, and then by the first written operand that overlaps another, so that an MQR whose A and C
overlap names A; the range that may not overlap is all of it from OFF to the operand's end, the bytes between its rows with it:
the spec does not say (DESIGN CHOICE, log 59). -/
def sqSegb (op : Nat) (img : List Dword) (xs : List (SqOperand × Seg)) : Option Dword :=
  match xs.findSome? fun x =>
    if sqOff img x.1 % 4 ≠ 0 then some (sqInfo op x.1.which false false false)
    else if sqLdField img x.1 ≠ 0 ∧ sqLdField img x.1 < x.1.cols then some (sqInfo op x.1.which true false false)
    else if x.2.valid && x.2.bytesLen < sqEnd img x.1 then some (sqInfo op x.1.which false false false)
    else none with
  | some d => some d
  | none =>
    (xs.find? fun x => x.1.written && xs.any fun y => y.1.which != x.1.which && y.2.id == x.2.id &&
      decide (sqOff img y.1 < sqEnd img x.1) && decide (sqOff img x.1 < sqEnd img y.1)).map fun x =>
        sqInfo op x.1.which false true false

/-- Numbers without repeats, in their order. -/
def distinct (l : List Nat) : List Nat := l.foldl (fun acc x => if acc.contains x then acc else acc ++ [x]) []

/-- The submission checks (R175, R182): the operands with their segments, or the fault. A segment whose directory entry has
VALID = 0 stands without a length: its recall cannot be serviced, and the operation completes with SEGA (R250). -/
def State.sqCheck (s : State) (t : Nat) (cx : Cx) (op : Nat) (img : List Dword) :
    Except (Nat × Dword) (List (SqOperand × Seg)) :=
  let p := s.partOf t
  let os := sqOperands op img
  let bound := os.map fun x => (x, (s.bindingBefore t cx (sqName img x)))
  match bound.find? fun y => y.2.isNone with
  | some y => .error (Cause.segu, sqInfo op y.1.which false false false)
  | none =>
    let xs := bound.map fun y => (y.1, (s.seg? p (y.2.getD 0)).getD { id := y.2.getD 0, len := 0, valid := false })
    match xs.find? fun x => x.2.fmt != 0 && x.2.fmt != x.1.fmt with
    | some x => .error (Cause.fmt, sqInfo op x.1.which false false false)
    | none =>
      match sqSegb op img xs with
      | some d => .error (Cause.segb, d)
      | none =>
        let ids := distinct (xs.map fun x => x.2.id)
        let need := s.chargeOf p ids
        let have_ := s.budget t (s.groupOf t cx)
        if have_ < need then .error (Cause.setbig, setbigInfo need have_ ids.length)
        else if (s.tile t).seqRun.isSome && (s.tile t).seqWait.isSome then
          .error (Cause.ebusy, sqInfo op 0 false false false)
        else .ok xs

/-- Reserved fields and registers read as zero in the image; me8 to me12 of a shadow set. -/
def Regs.image (r : Regs) : List Dword := (List.range 5).map fun k => rd r.meShadow (8 + k) 0

/-- The shadow set becomes the active set for me8 to me31 (R175). -/
def Regs.activate (r : Regs) : Regs :=
  { r with me := ((List.range 24).map (8 + ·)).foldl (fun m k => wr m k (rd r.meShadow k 0)) r.me }

/-- A checked operation enters the run slot, or the wait slot behind it (R175). The range that R177 holds pending for an
operand is all of it from OFF to its end, with the bytes between its rows and the triangle that an operation leaves alone
(DESIGN CHOICE, log 47). -/
def State.seqPut (s : State) (t : Nat) (cx : Cx) (slot op : Nat) (img : List Dword) (report : Bool)
    (xs : List (SqOperand × Seg)) (after : Nat) (start : Option Nat) : State :=
  let c := s.ctx t cx
  let (id, s) := s.next
  let o : SeqOp :=
    { id := id, cx := cx, op := op, image := img, report := report, step := 0, start := start
      segs := distinct (xs.map fun x => x.2.id)
      spans := xs.map fun x => (x.2.id, sqOff img x.1, sqEnd img x.1)
      slot := slot, spec := c.lane.any fun l => l.spec, laneNo := (c.lane.map fun l => l.lane).getD 0
      after := after, agent := id, clock := c.releases t cx, order := id }
  (s.modCtx t cx fun c => { c with om := c.om + 1 }).modTile t fun x =>
    if x.seqRun.isNone then { x with seqRun := some o } else { x with seqWait := some o }

/-- A sequence operation at its slot (R175). Its request is made when its bundle has issued. -/
def State.sqSlot (s : State) (h : SlotRec) (op : Nat) : State :=
  let (t, cx) := s.here
  let c := s.cur
  let img := c.regs.image
  match s.sqCheck t cx op img with
  | .error e => s.raise h e.1 e.2
  | .ok xs =>
    (s.seqPut t cx h.slot op img (bit c.regs.meflags 0) xs (c.tick + 1) none).modCur (·.mapRegs (·.activate))

/-- A form of R186. -/
def sqForm (op : Nat) (gd : BitVec 3) (s : State) : Host.Outcome State Fault Refusal :=
  runSlot gd [] (fun h _ s => s.sqSlot h op) s

/-- MMUL (R189). -/
def execMmul (gd : BitVec 3) (s : State) : Host.Outcome State Fault Refusal := sqForm 0x10 gd s
/-- MMUL.r (R189). -/
def execMmulR (gd : BitVec 3) (s : State) : Host.Outcome State Fault Refusal := sqForm 0x11 gd s
/-- MLU (R190). -/
def execMlu (gd : BitVec 3) (s : State) : Host.Outcome State Fault Refusal := sqForm 0x12 gd s
/-- MLU.r (R190). -/
def execMluR (gd : BitVec 3) (s : State) : Host.Outcome State Fault Refusal := sqForm 0x13 gd s
/-- MCHOL (R192). -/
def execMchol (gd : BitVec 3) (s : State) : Host.Outcome State Fault Refusal := sqForm 0x14 gd s
/-- MCHOL.r (R192). -/
def execMcholR (gd : BitVec 3) (s : State) : Host.Outcome State Fault Refusal := sqForm 0x15 gd s
/-- MQR (R193). -/
def execMqr (gd : BitVec 3) (s : State) : Host.Outcome State Fault Refusal := sqForm 0x16 gd s
/-- MQR.r (R193). -/
def execMqrR (gd : BitVec 3) (s : State) : Host.Outcome State Fault Refusal := sqForm 0x17 gd s
/-- MTRS (R194). -/
def execMtrs (gd : BitVec 3) (s : State) : Host.Outcome State Fault Refusal := sqForm 0x18 gd s
/-- MPERM (R195). -/
def execMperm (gd : BitVec 3) (s : State) : Host.Outcome State Fault Refusal := sqForm 0x19 gd s

/-- An operation in the run slot asks for its grant once the stores of its bundle and of those before have retired
(R176). -/
def State.seqAsk (s : State) (t made : Nat) : State :=
  match (s.tile t).seqRun with
  | none => s
  | some o =>
    if o.grant.isSome || o.stop || (s.req? o.id).isSome ||
        (s.cluster (clusterOf t)).reqs.any (fun q => q.kind == 1 && q.op == o.id) ||
        (s.ctx t o.cx).storesBefore o.after then s
    else (s.request t o.cx 1 o.id o.segs (if o.spec then o.laneNo + 1 else 0) made o.slot).2

/-! ### Durations (R187) -/

def ceilDiv (a b : Nat) : Nat := (a + b - 1) / b

/-- Products per group of MMUL (R187). -/
def sqGroup (ty : Nat) : Nat := if ty = 0 then 16 else if ty = 3 then 64 else 32

/-- The step count N, the fixed part C and the cost D (R187). -/
def sqCost (op : Nat) (img : List Dword) : Nat × Nat × Nat :=
  let n := sqN img
  let b := ceilDiv n 16
  match sqBase op with
  | 0 => (sqM img, 8, ceilDiv (sqK img) (sqGroup (sqType img)))
  | 2 => (n, 16, 6 + b * b)
  | 4 => (n, 16, 8 + b * b)
  | 6 => (n, 16, 14 + 2 * (b * b))
  | 8 => (n, 12, 4 + ceilDiv (sqR img) 16 * b)
  | _ => (1, 8 + n * ceilDiv (sqR img) 16, 0)

/-! ### The operations (R189 to R195) -/

/-- A matrix by rows. -/
abbrev Mat := List (List Nat)

def Mat.get (m : Mat) (i j : Nat) : Nat := (List.getD m i []).getD j 0
def setAt {α : Type} : List α → Nat → α → List α
  | [], _, _ => []
  | _ :: r, 0, x => x :: r
  | a :: r, k + 1, x => a :: setAt r k x
def Mat.put (m : Mat) (i j v : Nat) : Mat := setAt m i (setAt (List.getD m i []) j v)

/-- What an operation has done so far: operands A, B and C, PERM, and the conditions raised. -/
structure SqWork where
  a : Mat
  b : Mat
  c : Mat
  perm : List Nat
  fp : Fpst := 0
  deriving DecidableEq, Repr

/-- A numeric fault: cause, step or row, detail (R196). -/
abbrev SqFault := Nat × Nat × Nat
/-- A step ends in the work after it, or in a fault with the conditions that it had raised by then (R115). -/
abbrev SqStep := Except (SqFault × Fpst) SqWork

def magOf (x : Nat) : Nat := x % 2 ^ 31
def isNanW (x : Nat) : Bool := decide (0x7F800000 < magOf x)

/-- One level of a tree over exact values: each node rounds once (R189). -/
def exactLevel : List Num → List Nat × Fpst
  | a :: b :: r =>
    let (x, i) := a.add b
    let (w, g) := Fmt.f32.round x
    let (l, f) := exactLevel r
    (w :: l, i ||| g ||| f)
  | [a] => let (w, g) := Fmt.f32.round a; ([w], g)
  | [] => ([], 0)

/-- An element of A or B as a value, by TYPE (R189). -/
def sqElem (ty x : Nat) : Num := if ty = 0 then Fmt.f32.num x else if ty = 1 then Fmt.bf16.num x else Fmt.f16.num x

/-- The groups of one element of C (R189), from group `q` on: `left` groups are left. -/
def mmulGroups (ty k : Nat) (arow bcol : List Nat) : Nat → Nat → Option Nat → Nat × Fpst
  | 0, _, acc => (acc.getD 0, 0)
  | left + 1, q, acc =>
    let g := sqGroup ty
    let xs := (List.range g).map fun e =>
      let i := q * g + e
      if i < k then (sqElem ty (arow.getD i 0)).mul (sqElem ty (bcol.getD i 0)) else (.fin false 0 0, 0)
    let l1 := exactLevel (xs.map (·.1))
    let t := pairTree Fmt.f32.add (Nat.log2 g - 1) l1.1
    let f := xs.foldl (fun f x => f ||| x.2) (l1.2 ||| t.2)
    let new := match acc with
      | none => (t.1, 0)
      | some v => Fmt.f32.add t.1 v
    let r := mmulGroups ty k arow bcol left (q + 1) (some new.1)
    (r.1, f ||| new.2 ||| r.2)

/-- One element of C in the integer type (R189). -/
def mmulInt (k : Nat) (arow bcol : List Nat) (c0 : Nat) : Nat :=
  (BitVec.ofInt 32 (((List.range k).map fun i => signed8 (arow.getD i 0) * signed8 (bcol.getD i 0)).sum + (c0 : Int))).toNat

/-- Step i of MMUL: row i of C (R189). -/
def mmulStep (img : List Dword) (w : SqWork) (i : Nat) : SqWork :=
  let ty := sqType img
  let k := sqK img
  let row := (List.range (sqN img)).map fun j =>
    let ar := List.getD w.a i []
    let bc := (List.range k).map fun e => w.b.get e j
    let c0 := w.c.get i j
    if ty = 3 then (mmulInt k ar bc (if sqAcc img then c0 else 0), 0)
    else mmulGroups ty k ar bc (ceilDiv k (sqGroup ty)) 0 (if sqAcc img then some c0 else none)
  { w with c := setAt w.c i (row.map (·.1)), fp := row.foldl (fun f x => f ||| x.2) w.fp }

/-- The smallest row from `k` on whose entry in column `k` has the largest magnitude (R190). -/
def pivotRow (a : Mat) (n k : Nat) : Nat :=
  ((List.range n).filter fun i => decide (k < i)).foldl (fun p i => if magOf (a.get p k) < magOf (a.get i k) then i else p) k

/-- Exchange of two entries. -/
def swapAt {α : Type} (d : α) (l : List α) (i j : Nat) : List α := setAt (setAt l i (l.getD j d)) j (l.getD i d)

/-- Step k of MLU (R190). -/
def mluStep (n : Nat) (w : SqWork) (k : Nat) : SqStep :=
  let col := ((List.range n).filter fun i => decide (k ≤ i)).map fun i => w.a.get i k
  if col.any isNanW then .error ((Cause.zpiv, k, 1), 0)
  else
    let p := pivotRow w.a n k
    if magOf (w.a.get p k) = 0 then .error ((Cause.zpiv, k, 0), 0)
    else
      let a := swapAt [] w.a p k
      let prow := List.getD a k []
      let rows := (List.range n).map fun i =>
        let r := List.getD a i []
        if i ≤ k then (r, (0 : Fpst))
        else
          let l := Fmt.f32.div (r.getD k 0) (prow.getD k 0)
          let es := (List.range n).map fun j =>
            if j < k then (r.getD j 0, (0 : Fpst)) else if j = k then l
            else Fmt.f32.fnma l.1 (prow.getD j 0) (r.getD j 0)
          (es.map (·.1), es.foldl (fun f x => f ||| x.2) 0)
      .ok { w with a := rows.map (·.1), perm := swapAt 0 w.perm p k, fp := rows.foldl (fun f x => f ||| x.2) w.fp }

/-- fl32(x - y_t * z_t) over a list of pairs, in order (R192, R194). -/
def fusedDown (x : Nat) (ps : List (Nat × Nat)) : Nat × Fpst :=
  ps.foldl (fun acc p => let v := Fmt.f32.fnma p.1 p.2 acc.1; (v.1, acc.2 ||| v.2)) (x, 0)

/-- fl32(y_t * z_t + x) over a list of pairs, in order (R193). -/
def fusedUp (x : Nat) (ps : List (Nat × Nat)) : Nat × Fpst :=
  ps.foldl (fun acc p => let v := Fmt.f32.fma p.1 p.2 acc.1; (v.1, acc.2 ||| v.2)) (x, 0)

/-- Step j of MCHOL (R192). -/
def mcholStep (n : Nat) (w : SqWork) (j : Nat) : SqStep :=
  let l (i t : Nat) : Nat := w.a.get i t
  let d := fusedDown (l j j) ((List.range j).map fun t => (l j t, l j t))
  if isNanW d.1 then .error ((Cause.npd, j, 2), d.2)
  else if magOf d.1 = 0 then .error ((Cause.npd, j, 0), d.2)
  else if d.1.testBit 31 then .error ((Cause.npd, j, 1), d.2)
  else
    let ljj := Fmt.f32.sqrt d.1
    let below := ((List.range n).filter fun i => decide (j < i)).map fun i =>
      let x := fusedDown (l i j) ((List.range j).map fun t => (l i t, l j t))
      let y := Fmt.f32.div x.1 ljj.1
      (i, y.1, x.2 ||| y.2)
    let a := below.foldl (fun (a : Mat) y => a.put y.1 j y.2.1) (w.a.put j j ljj.1)
    .ok { w with a := a, fp := below.foldl (fun f y => f ||| y.2.2) (w.fp ||| d.2 ||| ljj.2) }

/-- Step k of MQR (R193). -/
def mqrStep (n : Nat) (w : SqWork) (k : Nat) : SqWork :=
  let a := w.a
  let below := (List.range n).filter fun i => decide (k < i)
  let al := a.get k k
  let sg := fusedUp 0 (below.map fun i => (a.get i k, a.get i k))
  if magOf sg.1 = 0 then { w with c := w.c.put 0 k 0, fp := w.fp ||| sg.2 }
  else
    let q := Fmt.f32.fma al al sg.1
    let nrm := Fmt.f32.sqrt q.1
    let neg := al.testBit 31 && magOf al != 0
    let be := if neg then nrm.1 else if isNanW nrm.1 then nrm.1 else (negF nrm.1).1
    let d1 := Fmt.f32.sub be al
    let tau := Fmt.f32.div d1.1 be
    let g := Fmt.f32.sub al be
    let vs := below.map fun i => (i, Fmt.f32.div (a.get i k) g.1)
    let a1 := vs.foldl (fun (a : Mat) v => a.put v.1 k v.2.1) (a.put k k be)
    let f1 := vs.foldl (fun f v => f ||| v.2.2) (w.fp ||| sg.2 ||| q.2 ||| nrm.2 ||| d1.2 ||| tau.2 ||| g.2)
    let r := below.foldl (fun (acc : Mat × Fpst) j =>
      let a := acc.1
      let w1 := fusedUp (a.get k j) (below.map fun i => (a.get i k, a.get i j))
      let w2 := Fmt.f32.mul tau.1 w1.1
      let akj := Fmt.f32.sub (a.get k j) w2.1
      let us := below.map fun i => (i, Fmt.f32.fnma (a.get i k) w2.1 (a.get i j))
      (us.foldl (fun (a : Mat) u => a.put u.1 j u.2.1) (a.put k j akj.1),
        us.foldl (fun f u => f ||| u.2.2) (acc.2 ||| w1.2 ||| w2.2 ||| akj.2))) (a1, f1)
    { w with a := r.1, c := w.c.put 0 k tau.1, fp := r.2 }

/-- Step `i` of MTRS: one row solved (R194). -/
def mtrsStep (img : List Dword) (w : SqWork) (step : Nat) : SqStep :=
  let n := sqN img
  let up := sqUpper img
  let i := if up then n - 1 - step else step
  let unit := sqUnit img
  let aii := w.a.get i i
  if !unit && magOf aii == 0 then .error ((Cause.zdiag, i, 0), 0)
  else
    let ts := (List.range n).filter fun t => if up then decide (i < t) else decide (t < i)
    let row := (List.range (sqR img)).map fun c =>
      let x := fusedDown (w.b.get i c) (ts.map fun t => (w.a.get i t, w.b.get t c))
      if unit then x
      else
        let y := Fmt.f32.div x.1 aii
        (y.1, x.2 ||| y.2)
    .ok { w with b := setAt w.b i (row.map (·.1)), fp := row.foldl (fun f x => f ||| x.2) w.fp }

/-- Step `i` of an operation. -/
def sqStep (op : Nat) (img : List Dword) (w : SqWork) (i : Nat) : SqStep :=
  match sqBase op with
  | 0 => .ok (mmulStep img w i)
  | 2 => mluStep (sqN img) w i
  | 4 => mcholStep (sqN img) w i
  | 6 => .ok (mqrStep (sqN img) w i)
  | 8 => mtrsStep img w i
  | _ => .ok { w with b := (List.range (sqN img)).map fun k => List.getD w.b (w.perm.getD k 0) [] }

/-- Steps from `i` on, at most `left`: the work, the step count reached, and the fault met. -/
def sqRun (op : Nat) (img : List Dword) : Nat → SqWork → Nat → SqWork × Nat × Option SqFault
  | 0, w, i => (w, i, none)
  | left + 1, w, i =>
    match sqStep op img w i with
    | .error (f, fp) => ({ w with fp := w.fp ||| fp }, i, some f)
    | .ok w => sqRun op img left w (i + 1)

/-- The elements of an operand as stored. -/
def Seg.matrix (g : Seg) (img : List Dword) (x : SqOperand) : Mat :=
  (List.range x.rows).map fun i => (List.range x.cols).map fun j => g.nat (sqAt img x i j) x.size

/-- An operand's elements stored back. -/
def Seg.putMatrix (g : Seg) (img : List Dword) (x : SqOperand) (m : Mat) : Seg :=
  { g with bytes := (List.range x.rows).foldl (fun b i => (List.range x.cols).foldl
      (fun b j => b.storeNat (sqAt img x i j) x.size (m.get i j)) b) g.bytes }

/-- The largest magnitude among entries that are no NaNs (R190). -/
def maxAbs (l : List Nat) : Nat := l.foldl (fun m x => if isNanW x then m else max m (magOf x)) 0

/-- The operands of an operation in progress, with their segments. -/
def SeqOp.operands (o : SeqOp) : List (SqOperand × Nat) :=
  (sqOperands o.op o.image).zip (o.spans.map (·.1))

/-- The work at the grant (R190, R195). -/
def State.sqStart (s : State) (t : Nat) (o : SeqOp) : SqWork :=
  let p := s.partOf t
  let get (k : Nat) : Mat := match o.operands.find? fun x => x.1.which == k with
    | some x => ((s.seg? p x.2).map fun g => g.matrix o.image x.1).getD []
    | none => []
  { a := get 0, b := get 1, c := get 2
    perm := if o.op = 0x12 then List.range 64 else o.perm.toList.map (·.toNat) }

/-- PERM holds a value that is not below n (R195). -/
def SeqOp.badPerm (o : SeqOp) : Bool :=
  o.op == 0x19 && (o.perm.toList.take (sqN o.image)).any fun x => decide (sqN o.image ≤ x.toNat)

/-- The steps at whose boundary a STOP ends a granted operation (R183, R187); MTRS and MPERM have no such boundary. -/
def SeqOp.stopStep (o : SeqOp) (g : Nat) : Option Nat :=
  let (_, c, d) := sqCost o.op o.image
  if o.stop && sqBase o.op < 8 then some (o.step + ceilDiv (o.stopAt - (g + c)) d) else none

/-- How an operation ends. -/
structure SqEnd where
  work : SqWork
  e : Nat
  fault : Option SqFault := none
  stopped : Bool := false
  bad : Bool := false
  /-- Core cycles that the engine runs. -/
  t : Nat
  deriving DecidableEq, Repr

/-- The run of a granted operation (R187, R188). -/
def State.sqEnd (s : State) (t : Nat) (o : SeqOp) (g : Nat) : SqEnd :=
  let (n, c, d) := sqCost o.op o.image
  let w := s.sqStart t o
  if o.badPerm then { work := w, e := 0, bad := true, t := c }
  else
    let last := match o.stopStep g with
      | some k => min k n
      | none => n
    let (w', e, f) := sqRun o.op o.image (last - o.step) w o.step
    let stopped := f.isNone && o.stopStep g == some e && decide (e < n)
    { work := w', e := e, fault := f, stopped := stopped, t := c + (e - o.step) * d }

/-! ### STOP and kill (R183, R198) -/

/-- STOP reaches the context's operation in the run slot (R183); its request is withdrawn (R251). -/
def State.seqStop (s : State) (t : Nat) (cx : Cx) : State :=
  match (s.tile t).seqRun with
  | some o =>
    if o.cx = cx ∧ o.stop = false then
      let s := s.modTile t fun x => { x with seqRun := some { o with stop := true, stopAt := s.now } }
      if o.grant.isNone then
        s.modCluster (clusterOf t) fun c => { c with reqs := c.reqs.filter fun q => !(q.kind == 1 && q.op == o.id) }
      else s
    else s
  | none => s

/-- The row meflagsStop (R183). -/
def execMeflagsStop (tile : Nat) (cx : Cx) (s : State) : Host.Outcome State Fault Refusal :=
  .next (if bit (s.ctx tile cx).regs.meflags 1 then s.seqStop tile cx else s)

/-- A kill or a rollback ends the context's operations (R198, R361): a waiting one at once. -/
def State.seqKill (s : State) (t : Nat) (cx : Cx) : State :=
  let s := s.seqStop t cx
  let s := s.modTile t fun x => { x with
    seqRun := x.seqRun.map fun o => if o.cx = cx then { o with orphan := true } else o
    seqWait := match x.seqWait with
      | some o => if o.cx = cx then none else x.seqWait
      | none => none }
  s

/-! ### Completion (R176, R184, R196) -/

/-- MESTAT (R184). -/
def mestat (cause k detail op : Nat) (stopped done : Bool) : Dword :=
  BitVec.ofNat 64 (cause + k % 64 * 2 ^ 8 + detail * 2 ^ 16 + sqBase op * 2 ^ 20 + b2n stopped * 2 ^ 24 + b2n done * 2 ^ 25)

/-- What decides which elements a step reads and writes: its number, the pivot row of an MLU, whether a numeric fault stops it,
and whether an MQR finds its column below the diagonal zero. -/
structure SqSeen where
  step : Nat
  pivot : Nat
  stops : Bool
  idle : Bool
  deriving DecidableEq, Repr

/-- The steps that an operation has begun, from `i` on. -/
def sqSeen (op : Nat) (img : List Dword) : Nat → SqWork → Nat → List SqSeen
  | 0, _, _ => []
  | left + 1, w, i =>
    let n := sqN img
    let below := (List.range n).filter fun r => decide (i < r)
    let seen (stops : Bool) : SqSeen :=
      { step := i, pivot := if sqBase op = 2 then pivotRow w.a n i else i, stops := stops
        idle := sqBase op == 6 && magOf (fusedUp 0 (below.map fun r => (w.a.get r i, w.a.get r i))).1 == 0 }
    match sqStep op img w i with
    | .error _ => [seen true]
    | .ok w' => seen false :: sqSeen op img left w' (i + 1)

/-- The row that a step of MTRS solves (R194). -/
def mtrsRow (img : List Dword) (step : Nat) : Nat := if sqUpper img then sqN img - 1 - step else step

/-- Whether a step reads element (i, j) of operand `x` (R189 to R195). -/
def SqSeen.reads (y : SqSeen) (op : Nat) (img : List Dword) (perm : List Nat) (x i j : Nat) : Bool :=
  let q := y.step
  match sqBase op, x with
  | 0, 1 => true
  | 0, 2 => sqAcc img && i == q
  | 0, _ => i == q
  | 2, _ => decide (q ≤ i) && (if y.stops then j == q else decide (q ≤ j)) ||
      !y.stops && y.pivot != q && (i == y.pivot || i == q)
  | 4, _ => decide (j ≤ q) && (if y.stops then i == q else decide (q ≤ i))
  | 6, 0 => decide (q ≤ i) && (if y.idle then j == q else decide (q ≤ j))
  | 6, _ => false
  | 8, 0 =>
    let r := mtrsRow img q
    i == r && (j == r && !sqUnit img || !y.stops && (if sqUpper img then decide (r < j) else decide (j < r)))
  | 8, _ =>
    let r := mtrsRow img q
    !y.stops && (if sqUpper img then decide (r ≤ i) else decide (i ≤ r))
  | _, _ => (perm.take (sqN img)).contains i

/-- Whether a step writes element (i, j) of operand `x` (R189 to R195). -/
def SqSeen.writes (y : SqSeen) (op : Nat) (img : List Dword) (x i j : Nat) : Bool :=
  let q := y.step
  !y.stops && match sqBase op, x with
  | 0, _ => x == 2 && i == q
  | 2, _ => decide (q < i) && decide (q ≤ j) || y.pivot != q && (i == y.pivot || i == q)
  | 4, _ => j == q && decide (q ≤ i)
  | 6, 0 => !y.idle && decide (q ≤ i) && decide (q ≤ j)
  | 6, _ => j == q
  | 8, _ => x == 1 && i == mtrsRow img q
  | _, _ => true

/-- The lines of the elements of an operand that `f` picks. -/
def sqLinesOf (img : List Dword) (x : SqOperand) (f : Nat → Nat → Bool) : List Nat :=
  linesOf ((List.range x.rows).flatMap fun i =>
    ((List.range x.cols).filter (f i)).map fun j => (sqAt img x i j, x.size))

/-- All lines of an operand: a written operand's count as written (R262). -/
def sqAll (img : List Dword) (x : SqOperand) : List Nat := sqLinesOf img x fun _ _ => true

/-- The lower of two line numbers, where there are any. -/
def minLine (a b : Option Nat) : Option Nat := (a.toList ++ b.toList).min?

/-- The operand enters the histories (R262, R263): the segment, the lowest racing line, the clock of publishes. -/
def Seg.sqEnter (g : Seg) (o : SeqOp) (ls : List Nat) (write : Bool) (clock : Clock) : Seg × Option Nat × Clock :=
  let a : Acc := { agent := o.agent, tick := 1, clock := clock, write := write }
  let (g1, k) := g.enter ls a
  (g1, g.race ls a, k)

/-- Whether an operation reads element (i, j) of an operand (R262): in the steps it has begun; the whole matrix at the grant of an
MLU, and the upper triangle for GROW after its last step (R190). -/
def sqReads (o : SeqOp) (l : List SqSeen) (done : Bool) (x : SqOperand) (i j : Nat) : Bool :=
  o.op == 0x12 || sqBase o.op == 2 && done && decide (i ≤ j) ||
    l.any fun y => y.reads o.op o.image (o.perm.toList.map (·.toNat)) x.which i j

/-- The accesses of an operation: histories, and, where a step has been completed, marks and bytes. They come after those of
the contexts that have left the tile (R258). Its reads join their lines; a write of an operation submitted before the last
VJOIN leaves no mark (R203). -/
def State.sqCommit (s : State) (t : Nat) (o : SeqOp) (w : SqWork) (l : List SqSeen) (done : Bool) : State × Option Dword × Clock :=
  let p := s.partOf t
  let know := (s.tile t).handover
  let clock := clockJoin o.clock know
  let r := o.operands.foldl (fun (acc : State × Option Nat × Clock) y =>
    let (s, bad, k) := acc
    let x := y.1
    match s.seg? p y.2 with
    | none => acc
    | some g =>
      let m := if x.which = 0 then w.a else if x.which = 1 then w.b else w.c
      let put := x.written && l.any fun y => !y.stops
      let rl := sqLinesOf o.image x (sqReads o l done x)
      let (g1, b1, k1) := g.sqEnter o rl false clock
      let g1 := g1.joinLines rl
      let (g2, b2, k2) := if put then g1.sqEnter o (sqAll o.image x) true clock else (g1, none, [])
      let g3 := if put then
          let ls := sqLinesOf o.image x fun i j => l.any fun y => y.writes o.op o.image x.which i j
          let g3 := g2.putMatrix o.image x m
          let g3 := if o.id < g3.joined then g3 else g3.mark ls g2.swz
          if g3.live.isSome then { g3 with wrote := sortNat (g3.wrote ++ ls) } else g3
        else g2
      (s.putSeg p g3, minLine bad (minLine b1 b2), clockJoin k (clockJoin k1 k2)))
    (s, none, know)
  (r.1, r.2.1.map fun n => segInfo 0 0 (64 * n) true, r.2.2)

/-- The operation leaves the run slot, and its successor moves up and may ask in the same step (R176). One context's
operations follow one another (R258). -/
def State.sqLeave (s : State) (t : Nat) (o : SeqOp) (k : Clock) : State :=
  let s := if o.grant.isSome && o.sega.isNone then s.unpin (s.partOf t) o.segs else s
  let all := clockJoin k [(o.agent, 1)]
  let s := (s.clearRanges t o.id (fun _ => true) all).modTile t fun x => { x with
    seqRun := x.seqWait.map fun w => if w.cx = o.cx ∧ !o.orphan then { w with clock := clockJoin w.clock all } else w
    seqWait := none }
  let s := if o.orphan then s
    else s.modCtx t o.cx fun c => { c with om := c.om - 1, clock := clockJoin c.clock all }
  s.seqAsk t (s.now - 1)

/-- The status registers of a completed operation (R184, R185). A .r form whose MESTEP is beyond N runs no step (R187) and leaves
MESTEP as it is (DESIGN CHOICE, log 61). -/
def Ctx.sqStatus (c : Ctx) (o : SeqOp) (e : SqEnd) (grow : BitVec 32) : Ctx :=
  let (n, _, _) := sqCost o.op o.image
  let done := e.fault.isNone && !e.stopped && !e.bad && decide (n ≤ e.e)
  let (cause, k, detail) := match e.fault with
    | some f => f
    | none => (0, if done then 0 else e.e, 0)
  let r := c.regs
  let r := { r with
    mestat := mestat cause k detail o.op e.stopped done
    mestep := if e.bad then r.mestep else BitVec.ofNat 7 e.e
    fpst := r.fpst ||| e.work.fp }
  let r := if sqBase o.op = 2 ∧ o.grant.isSome ∧ o.sega.isNone then
      { r with grow := grow, perm := Vector.ofFn fun i => BitVec.ofNat 6 (e.work.perm.getD i.val 0) }
    else r
  { c with regs := r }

/-- GROW after an MLU (R190): the division after the loop is made by an MLU.r that runs no step too (DEDUCED, log 23). -/
def sqGrow (o : SeqOp) (a0 : Mat) (e : SqEnd) : BitVec 32 :=
  let n := sqN o.image
  let g0 := if o.op = 0x12 then maxAbs ((a0.take n).flatMap id) else o.grow.toNat
  let u := (List.range n).flatMap fun i => ((List.range n).filter fun j => decide (i ≤ j)).map fun j => e.work.a.get i j
  BitVec.ofNat 32 (if e.fault.isNone && !e.stopped && decide (n ≤ e.e)
    then (Fmt.f32.div (maxAbs u) g0).1 else g0)

/-- Faults of a completed operation (R195, R196, R263). -/
def sqFaults (o : SeqOp) (e : SqEnd) (race : Option Dword) : List OpFault :=
  (race.map fun d => ⟨o.order, Cause.race, 0, d⟩).toList ++
  (match e.fault with
    | some (c, k, d) => if o.report then [] else [⟨o.order, c, 0, BitVec.ofNat 64 (k % 64 + sqBase o.op * 256 + d * 4096)⟩]
    | none => []) ++
  (if e.bad then [⟨o.order, Cause.segb, 0, sqInfo o.op 1 false false true⟩] else [])

/-- Whether the operation in the run slot completes in this step. -/
def State.seqDue (s : State) (t : Nat) (o : SeqOp) : Bool :=
  match o.grant with
  | none => o.stop
  | some g =>
    if o.sega.isSome then decide (g < s.now)
    else decide (g + (sqCost o.op o.image).2.1 < s.now) && decide (g + (s.sqEnd t o g).t < s.now)

/-- The row seqComplete (R176). -/
def execSeqComplete (tile : Nat) (s : State) : Host.Outcome State Fault Refusal :=
  .next (match (s.tile tile).seqRun with
    | none => s
    | some o =>
      if !s.seqDue tile o then s
      else
        let w0 := s.sqStart tile o
        match o.grant, o.sega with
        | none, _ =>
          let k := if sqResumes o.op then o.start.getD (s.ctx tile o.cx).regs.mestep.toNat else 0
          let s := if o.orphan then s else s.modCtx tile o.cx fun c =>
            c.sqStatus o { work := w0, e := k, stopped := true, t := 0 } 0
          s.sqLeave tile o o.clock
        | some _, some d =>
          let s := if o.orphan then s else s.modCtx tile o.cx fun c =>
            (c.sqStatus o { work := w0, e := o.step, bad := true, t := 0 } 0).opFault ⟨o.order, Cause.sega, 0, d⟩
          s.sqLeave tile o o.clock
        | some g, none =>
          let e := s.sqEnd tile o g
          let (n, _, _) := sqCost o.op o.image
          let done := e.fault.isNone && !e.stopped && !e.bad && decide (n ≤ e.e)
          let l := sqSeen o.op o.image (e.e - o.step + b2n e.fault.isSome) w0 o.step
          let (s, race, k) := s.sqCommit tile o e.work l done
          let s := if o.orphan then s else s.modCtx tile o.cx fun c =>
            (sqFaults o e race).foldl (fun c f => c.opFault f) (c.sqStatus o e (sqGrow o w0.a e))
          s.sqLeave tile o (clockJoin o.clock k))

end Sys2Proof.Machine
end

