-- ==== Sys2Proof/Machine/Context.lean ====
section
/-! DEFINITION. Contexts as wholes: their state at a task's start (R14, R309), leaving a tile (R171, R342, R385), kills,
and context images (16 R336 to R342). -/

namespace Sys2Proof.Machine

/-! ### Starting (R14, R309) -/

/-- The state of R14 with argument words as single entries of their queues; from a previous pass, what R309 carries
over. -/
def startRegs (prev : Option Regs) (args : List (Nat × Dword)) : Regs :=
  let base : Regs := match prev with
    | none => {}
    | some r => { segmap := r.segmap, kh := r.kh, ki := r.ki, me := r.me, meShadow := r.meShadow, perm := r.perm
                  grow := r.grow, mestep := r.mestep, meflags := r.meflags, fpst := r.fpst, cyc := r.cyc, frzc := r.frzc }
  { base with sq := args.foldl (fun q x => wr q x.1 [x.2]) base.sq }

/-- A context without a task. What belongs to the tile monitor stays: its queues and the trap registers. R91 checks queues
and results in flight towards them; of array results in flight when END completes (beats, weight rows, latch rows, MLDH)
the spec says nothing, and the model drops them with the context (DESIGN CHOICE, log 49). -/
def Ctx.blank (c : Ctx) : Ctx :=
  { sup := c.sup, tick := c.tick + 1, frame := { c.frame with mode := false, pmode := false, ie := true, ds := 0, dleft := 0,
                                                              anul := false, frozen := false } }

/-- A context begins to run at an address (R49). -/
def Ctx.begin (c : Ctx) (r : Regs) (entry : Dword) : Ctx :=
  { c with regs := r, pos := { pc := entry, entry := true }, life := .running, inflight := [], remake := [], wait := none
           delayed := [], replay := [], checks := [], divA := 0, divB := 0
           frame := { c.frame with mode := false, pmode := false, ie := true } }

/-! ### Banks, names, groups -/

/-- The banks of a context are freed. -/
def Tile.freeBanks (t : Tile) (cx : Cx) : Tile := { t with banks := t.banks.map fun b => if b = some cx then none else b }

/-- Every binding of a context ends as by SFREE (R210). -/
def State.unbindAll (s : State) (t : Nat) (cx : Cx) : State :=
  let s := s.modCtx t cx fun c => { c with frame := { c.frame with mode := false } }
  (List.range 64).foldl (fun s g => match s.binding t cx g with
    | some id => s.release t cx g id
    | none => s) s

/-- A task joins the residency group of its launch record on a tile (R239). -/
def Tile.joinGroup (t : Tile) (launch kib : Nat) : Tile :=
  if t.groups.any (fun g => g.launch == launch) then
    { t with groups := t.groups.map fun g => if g.launch = launch then { g with tasks := g.tasks + 1 } else g }
  else { t with groups := t.groups ++ [⟨launch, kib, 1⟩] }

/-- A segment whose group has left the tile becomes idle (R385). Of one that the tile's other task binds the spec says
nothing: the model charges it to that task's group, and pushes it to backing first where that budget has no room for it
(DESIGN CHOICE, log 57). -/
def State.passOn (s : State) (p t : Nat) (other : Option Nat) (g : Seg) : State :=
  let grp := if s.named t g.id then other else none
  let stays := grp.isNone || g.evict.isSome || s.joinsIn p t grp { g with group := none }
  s.modSeg p g.id fun g => { g with group := grp, evict := if stays then g.evict else some t }

/-- A task leaves its group; with its last task the group leaves the tile (R385). -/
def State.leaveGroup (s : State) (p t launch : Nat) (other : Option Nat) : State :=
  let s := s.modTile t fun x => { x with groups := (x.groups.map fun g =>
    if g.launch = launch then { g with tasks := g.tasks - 1 } else g).filter fun g => g.tasks != 0 }
  if (s.tile t).groups.any (fun g => g.launch == launch) then s
  else ((s.part p).dir.filter fun g => g.group == some launch && g.owner == t).foldl (fun s g => s.passOn p t other g) s

/-! ### Operations of a context that leaves (R198, R251, R342) -/

/-- An E operation that may leave its queue (R340). -/
def EOp.removable (o : EOp) : Bool := decide (o.stage < 2) && o.op != 6

/-- An operation leaves its queue before its grant (R340): pins, locks, ranges and ticket go. -/
def State.eRemove (s : State) (o : EOp) : State :=
  let s := s.unpin (s.partOf o.tile) o.pinned
  let s := s.clearRanges o.tile o.id (fun _ => true) []
  let s := s.freeLocks (clusterOf o.tile) o.id
  let s := s.modCluster (clusterOf o.tile) fun c => { c with reqs := c.reqs.filter fun q => !(q.kind == 2 && q.op == o.id) }
  { s with eops := s.eops.filter fun q => q.id != o.id }

/-- A context's operations when it is discarded (R342): removable ones go, and a PUTR that has not been granted goes with
its request (R251; DEDUCED, log 42); a running sequence operation stops, its core requests are withdrawn, granted operations
complete without it. -/
def State.cancelOps (s : State) (t : Nat) (cx : Cx) : State :=
  let p := s.partOf t
  let s : State := (s.eops.filter fun o => o.tile == t && o.cx == cx && !o.orphan && decide (o.stage < 2)).foldl (fun s o => s.eRemove o) s
  let s : State := { s with eops := s.eops.map fun o => if o.tile = t ∧ o.cx = cx then { o with orphan := true } else o }
  let s : State := (s.seqKill t cx).withdraw t cx (some 0)
  let s := s.unpin p (s.ctx t cx).held
  let s := s.modCtx t cx fun c => { c with held := [], ol := 0, os := 0, oc := 0, om := 0, stores := [], faults := [], kept := [] }
  s.modPart p fun x => { x with appends := x.appends.map fun a => if a.tile = t ∧ a.cx = cx then { a with orphan := true } else a }

/-- What a context has done happens before what later runs on its tile (R258). -/
def State.handOver (s : State) (t : Nat) (cx : Cx) : State :=
  let k := (s.ctx t cx).releases t cx
  s.modTile t fun x => { x with handover := clockJoin x.handover k }

/-- A context is emptied and released; when the tile's other context holds no task, the result queues and the latch
are emptied too (R171). -/
def State.releaseCtx (s : State) (t : Nat) (cx : Cx) : State :=
  let s := (s.cancelOps t cx).handOver t cx
  let s := s.unbindAll t cx
  let s := s.modTile t fun x => (x.freeBanks cx).modCtx cx (·.blank)
  if (s.ctx t cx.other).task.isNone then s.modTile t fun x => { x with rq := Vector.replicate 4 [], latch := [] } else s

/-! ### Context images (R336, R337) -/

/-- One field of an image: offset, bytes, value. -/
structure ImgField where
  at_ : Nat
  size : Nat
  value : Nat
  deriving DecidableEq, Repr

def imgWords (a : Nat) (l : List Dword) : List ImgField := (List.range l.length).map fun k => ⟨a + 8 * k, 8, (l.getD k 0).toNat⟩
def imgVecs (a : Nat) (l : List Vec) : List ImgField := (List.range l.length).map fun k => ⟨a + 256 * k, 256, (l.getD k 0).toNat⟩
def imgBytes (a : Nat) (l : List Nat) : List ImgField := (List.range l.length).map fun k => ⟨a + k, 1, l.getD k 0⟩

/-- The loop registers as words (R85). -/
def LoopSet.words (l : LoopSet) : List Dword := [BitVec.ofNat 64 (l.count.toNat + b2n l.sup * 2 ^ 32), l.ls, l.le]

/-- The banks that a context holds, rising. -/
def Tile.bankList (t : Tile) (cx : Cx) : List Nat := (List.range 128).filter fun b => t.bankOf b == some cx

/-- The packed words of the replay buffer (R337). -/
def replayWords (l : List REnt) : List Dword := l.flatMap fun e => e.desc :: (List.range (descNw e.desc)).map fun k => e.data.getD k 0

/-- Bytes 0x0000 to 0x0A7F of the layout of R337: KIND, next pass index, NEXTPC and the registers. The places of the windows
and masks within 0x0100 to 0x017F are log 26's. -/
def imageFront (r : Regs) (f : Frame) (banks kind pass : Nat) (next : Dword) : List ImgField :=
  [⟨0, 8, 1 + kind * 2 ^ 16 + pass % 2 ^ 32 * 2 ^ 32⟩, ⟨8, 8, next.toNat⟩, ⟨0x10, 8, r.cyc.toNat⟩, ⟨0x18, 8, r.frzc.toNat⟩,
   ⟨0x20, 8, r.fpst.toNat + r.sel.toNat * 256⟩,
   ⟨0x28, 8, f.ds.toNat * 16 + f.dleft.toNat * 64 + b2n f.anul * 256 + b2n f.frozen * 512⟩,
   ⟨0x30, 8, f.edt0.toNat⟩, ⟨0x38, 8, f.edt1.toNat⟩] ++
  imgWords 0x40 (r.loops.toList.flatMap (·.words)) ++
  imgWords 0x70 [r.meflags.setWidth 64, r.mestat, r.mestep.setWidth 64, r.grow.setWidth 64] ++
  imgBytes 0x90 ((List.range 29).map (fun k => (rd r.sq k []).length) ++ [r.vld.length, r.kld.length]) ++
  imgBytes 0xB0 (r.vq.toList.map (·.length)) ++
  [⟨0xD0, 16, banks⟩] ++
  [⟨0x100, 12, r.pred.toNat⟩] ++
  imgBytes 0x10C ((r.win.toList.drop 1).map fun w => w.1.toNat + b2n w.2 * 128) ++
  imgWords 0x140 r.mask.toList ++
  imgWords 0x180 (r.ci.toList ++ r.co.toList) ++
  (List.range 64).map (fun g => ⟨0x200 + 4 * g, 4, ((rd r.segmap g none).map (·.toNat)).getD 0⟩) ++
  imgWords 0x300 (r.kh.toList.map (·.2)) ++
  imgWords 0x340 (r.ki.toList.map fun k => BitVec.ofNat 64 (k.1.toNat + k.2.toNat * 2 ^ 32)) ++
  [⟨0x360, 1, maskNat (fun k => (rd r.kh k (false, 0)).1) 8⟩] ++
  imgWords 0x380 (r.me.toList ++ r.meShadow.toList) ++
  imgBytes 0x580 (r.perm.toList.map (·.toNat)) ++
  (List.range 28).flatMap (fun k => imgWords (0x600 + 32 * k) (rd r.sq k [])) ++
  imgWords 0xA00 (rd r.sq 28 [])

/-- Registers whose queues are empty (R337: at a kernel-iteration boundary). -/
def Regs.drained (r : Regs) : Regs :=
  { r with sq := Vector.replicate 29 [], vq := Vector.replicate 24 [], vld := [], kld := [] }

/-- The image of a context (R337); of kind 0 it holds no queue entry, and the argument words of the next pass come with
its start (R309, R341). The engine area is the monitor's (R338). -/
def Tile.image (t : Tile) (cx : Cx) (kind pass : Nat) (next : Dword) : List ImgField :=
  let c := t.ctx cx
  let c := if kind = 0 then { c with regs := c.regs.drained, replay := [] } else c
  imageFront c.regs c.frame (maskNat (fun b => t.bankOf b == some cx) 128) kind pass next ++
  (List.range 24).flatMap (fun k => imgVecs (0x1000 + 1024 * k) (rd c.regs.vq k [])) ++
  imgVecs 0x7000 c.regs.vld ++ imgVecs 0x7800 c.regs.kld ++
  imgWords 0x8000 (replayWords c.replay) ++
  imgVecs 0x15000 ((t.bankList cx).flatMap fun b => (List.range 8).map fun k => t.accRow (8 * b + k))

/-- Length of an image in bytes (R336). -/
def imageLen (banks : Nat) : Nat := 84 * 1024 + 2048 * banks

/-- The save segment that the monitor creates (R336): raw, linear, in the backing region, charged to no budget. It takes
the lowest free entry of the directory, whose backing location it keeps (R235), and the entry is written. In a directory
without a free entry there is none: the spec is silent (DESIGN CHOICE, log 62). -/
def State.saveSegment (s : State) (p t banks : Nat) : Option (Nat × State) :=
  let id := lowestFree 1 ((s.part p).dir.filter (·.valid))
  let g : Seg := { id := id, len := imageLen banks / 256, place := .backed, owner := t, back := (fld (s.entryWord p id 2) 0 30).toNat }
  if (s.part p).dirSize < id then none else some (id, (s.putSeg p g).writeEntry p g)

/-- An image is written into its segment: its bytes and the backing copy (R237, R338), and the entry, whose ZERO falls. -/
def State.writeImage (s : State) (p id : Nat) (fs : List ImgField) : State :=
  match s.seg? p id with
  | none => s
  | some g =>
    let g := { g with bytes := fs.foldl (fun m f => m.storeNat f.at_ f.size f.value) g.bytes, zero := false }
    (s.putBytes p g).writeEntry p g

/-- The replay entries in packed words; `hidden` gives what the capture kept with an entry whose words still stand
(log 12). -/
def unpackReplay : Nat → List Dword → List REnt → List REnt
  | 0, _, _ => []
  | _, [], _ => []
  | k + 1, d :: ws, hidden =>
    if fld d 0 4 = 0 then []
    else
      let n := descNw d
      let e : REnt := { desc := d, data := ws.take n }
      let e := match hidden with
        | h :: _ => if h.desc = d ∧ (h.data.take n = e.data) then h else e
        | [] => e
      e :: unpackReplay k (ws.drop n) (hidden.drop 1)

/-- The registers of an image. -/
def Seg.imageRegs (g : Seg) : Regs :=
  let w (a : Nat) : Dword := BitVec.ofNat 64 (g.nat a 8)
  let by_ (a : Nat) : Nat := g.nat a 1
  let vecs (a n : Nat) : List Vec := (List.range n).map fun k => BitVec.ofNat 2048 (g.nat (a + 256 * k) 256)
  let words (a n : Nat) : List Dword := (List.range n).map fun k => w (a + 8 * k)
  let set (a : Nat) : LoopSet := ⟨fld (w a) 0 32, bit (w a) 32, w (a + 8), w (a + 16)⟩
  { sq := Vector.ofFn fun i => if i.val = 28 then words 0xA00 (min 16 (by_ (0x90 + 28))) else words (0x600 + 32 * i.val) (min 4 (by_ (0x90 + i.val)))
    vq := Vector.ofFn fun i => vecs (0x1000 + 1024 * i.val) (min 4 (by_ (0xB0 + i.val)))
    vld := vecs 0x7000 (min 8 (by_ 0xAD))
    kld := vecs 0x7800 (min 8 (by_ 0xAE))
    pred := BitVec.ofNat 96 (g.nat 0x100 12)
    win := Vector.ofFn fun i => if i.val = 0 then (0, false) else
      (BitVec.ofNat 7 (by_ (0x10B + i.val)), (by_ (0x10B + i.val)).testBit 7)
    mask := Vector.ofFn fun i => w (0x140 + 8 * i.val)
    sel := fld (w 0x20) 8 3
    loops := Vector.ofFn fun i => set (0x40 + 24 * i.val)
    segmap := Vector.ofFn fun i => let v := g.nat (0x200 + 4 * i.val) 4; if v = 0 then none else some (BitVec.ofNat 32 v)
    kh := Vector.ofFn fun i => ((by_ 0x360).testBit i.val, w (0x300 + 8 * i.val))
    ki := Vector.ofFn fun i => (fld (w (0x340 + 8 * i.val)) 0 32, fld (w (0x340 + 8 * i.val)) 32 32)
    ci := Vector.ofFn fun i => w (0x180 + 8 * i.val)
    co := Vector.ofFn fun i => w (0x1C0 + 8 * i.val)
    me := Vector.ofFn fun i => w (0x380 + 8 * i.val)
    meShadow := Vector.ofFn fun i => w (0x480 + 8 * i.val)
    perm := Vector.ofFn fun i => BitVec.ofNat 6 (by_ (0x580 + i.val))
    grow := fld (w 0x88) 0 32
    mestep := fld (w 0x80) 0 7
    meflags := fld (w 0x70) 0 2
    mestat := w 0x78
    fpst := fld (w 0x20) 0 5
    cyc := w 0x10
    frzc := w 0x18 }

/-- The banks of an image, and whether a tile can give them back (R341). -/
def Seg.imageBanks (g : Seg) : List Nat := (List.range 128).filter fun b => (g.nat 0xD0 16).testBit b
def Tile.banksFor (t : Tile) (bs : List Nat) : Option (List Nat) :=
  let n := bs.length
  if bs.all fun b => (t.bankOf b).isNone then some bs
  else ((List.range 128).find? fun b => decide (b + n ≤ 128) && (List.range n).all fun k => (t.bankOf (b + k)).isNone).map
    fun b => (List.range n).map (b + ·)

/-- The interrupt with which a context enters the monitor (R326, R330). -/
def intrInfo (i : Irq) : Dword :=
  BitVec.ofNat 64 (b2n i.timer + b2n i.host * 2 + b2n i.wdog * 4 + b2n i.halt * 8 + b2n i.swout * 16 + b2n i.swin * 32 +
    (if i.swout || i.swin then i.saveId.toNat else 0) * 2 ^ 32)

def Irq.any (i : Irq) : Bool := i.timer || i.host || i.wdog || i.halt || i.swout || i.swin

/-- INTR taken by a context (R326): every pending source appears and is cleared. -/
def State.takeIntr (s : State) (t : Nat) (cx : Cx) : State :=
  let c := s.ctx t cx
  let s := s.putCtx t cx { c with irq := {} }
  s.trap t cx Cause.intr 0 (intrInfo c.irq) c.pos.pc [] c.inflight

/-- The position of an image whose KIND is 1 (R341). -/
def Seg.imageFrame (g : Seg) (f : Frame) : Frame :=
  let w := BitVec.ofNat 64 (g.nat 0x28 8)
  { f with ds := fld w 4 2, dleft := fld w 6 2, anul := bit w 8, frozen := bit w 9
           edt0 := BitVec.ofNat 64 (g.nat 0x30 8), edt1 := BitVec.ofNat 64 (g.nat 0x38 8) }

/-- A suspended context is rebuilt from its image and enters the monitor with SWIN (R341). Its counters hold what the replay
buffer holds of outstanding loads, stores and appends (R18). -/
def State.switchIn (s : State) (t : Nat) (cx : Cx) (g : Seg) (hidden : List REnt) : State :=
  let next := BitVec.ofNat 64 (g.nat 8 8)
  let bs := g.imageBanks
  let s := s.modTile t fun x =>
    let own := (x.banksFor bs).getD []
    let x := { x with banks := own.foldl (fun v b => wr v b (some cx)) x.banks }
    (List.range (own.length * 8)).foldl (fun x k =>
      x.putAcc (8 * own.getD (k / 8) 0 + k % 8) (BitVec.ofNat 2048 (g.nat (0x15000 + 256 * k) 256))) x
  let s := s.modCtx t cx fun c =>
    let c := c.begin g.imageRegs next
    { c with irq := { c.irq with swin := true, saveId := BitVec.ofNat 32 g.id } }
  let s := s.takeIntr t cx
  let ws := (List.range 6144).map fun k => BitVec.ofNat 64 (g.nat (0x8000 + 8 * k) 8)
  let es := unpackReplay 96 ws hidden
  let kapp (a : Append) : Bool := es.any fun e => e.await == some a.id && slotClass e.toSlot.word == 9
  let back := (((s.part (s.partOf t)).appends.filter kapp).length)
  let take (a : Append) : Append := if kapp a then { a with tile := t, cx := cx, orphan := false } else a
  let s := s.modPart (s.partOf t) fun x => { x with appends := x.appends.map take }
  s.modCtx t cx fun c => { c with
    frame := g.imageFrame c.frame
    replay := es
    ol := BitVec.ofNat 8 (es.filter (·.ol)).length
    os := BitVec.ofNat 8 ((es.filter fun e => e.why.isSome && e.toSlot.isStore).length + back) }

end Sys2Proof.Machine
end

