-- ==== Sys2Proof/Machine/Spec.lean ====
section
/-! DEFINITION. Guessed-carry loops: the carry instructions (10 R233), lanes and rounds (14 R286 to R304). -/

namespace Sys2Proof.Machine

/-! ### Records as words (R286, R307, R308) -/

def wd (l : List Dword) (k : Nat) : Dword := l.getD k 0
def wf (l : List Dword) (k lo n : Nat) : Nat := (fld (wd l k) lo n).toNat

/-- Argument words of a launch record, with the replacements of XIDX and XITER (R309). -/
def argWords (rec_ tt : List Dword) (unit pass : Nat) : List (Nat × Dword) :=
  let xidx := bit (wd tt 5) 62
  let xiter := bit (wd tt 5) 63
  (((List.range (min 8 (wf rec_ 0 24 4))).filter fun i => !(i == 7 && xidx) && !(i == 6 && xiter)).map fun i => (i, wd rec_ (8 + i))) ++
  (if xiter then [(6, BitVec.ofNat 64 pass)] else []) ++ (if xidx then [(7, BitVec.ofNat 64 unit)] else [])

def State.task? (s : State) (p id : Nat) : Option Task := (s.part p).tasks.find? fun t => t.id == id
def State.modTask (s : State) (p id : Nat) (f : Task → Task) : State :=
  s.modPart p fun x => { x with tasks := x.tasks.map fun t => if t.id = id then f t else t }
def State.launch? (s : State) (p id : Nat) : Option Launch := (s.part p).launches.find? fun l => l.id == id
def State.modLaunch (s : State) (p id : Nat) (f : Launch → Launch) : State :=
  s.modPart p fun x => { x with launches := x.launches.map fun l => if l.id = id then f l else l }
def State.loop? (s : State) (p id : Nat) : Option GLoop := (s.part p).loops.find? fun g => g.id == id
def State.modLoop (s : State) (p id : Nat) (f : GLoop → GLoop) : State :=
  s.modPart p fun x => { x with loops := x.loops.map fun g => if g.id = id then f g else g }

/-- The loop that a task runs, with its partition. -/
def State.loopOf (s : State) (task : Nat) : Option (Nat × GLoop) :=
  s.parts.findSome? fun p => (p.2.loops.find? fun g => g.task == task).map fun g => (p.1, g)

/-- The tiles of a lane group, the carry tile first (R288). -/
def GLoop.tiles (g : GLoop) (k : Nat) : List Nat := (List.range (2 ^ g.lgs)).map fun j => g.cluster * 8 + k * 2 ^ g.lgs + j
/-- Every tile of a loop's lane groups. -/
def GLoop.allTiles (g : GLoop) : List Nat := (List.range g.lanes).flatMap g.tiles

/-- Carry `k` of lane `j`: the last guess posted for it, else the real carry; lane 0 the real carry (R290). -/
def GLoop.carryIn (g : GLoop) (j k : Nat) : Dword :=
  if g.nc ≤ k then 0
  else if j = 0 then g.carries.getD k 0
  else ((g.posts.find? fun p => p.1 == j && p.2.1 == k).map (·.2.2)).getD (g.carries.getD k 0)

/-- The loop of the bundle in progress, with its lane. -/
def State.curLoop (s : State) : Option (GLoop × Lane) :=
  match s.cur.lane with
  | none => none
  | some l => (s.loop? (s.partOf s.here.1) l.loop).map fun g => (g, l)

/-! ### The carry instructions (R233) -/

/-- CGET. -/
def execCget (gd : BitVec 3) (d : BitVec 6) (k : BitVec 3) (s : State) : Host.Outcome State Fault Refusal :=
  runSlot gd [] (fun h _ s => s.pushS h d 2 (rd s.cur.regs.ci k.toNat 0)) s

/-- CSET; ignored on the other tiles of a lane group (R288). -/
def execCset (gd : BitVec 3) (a : BitVec 6) (k : BitVec 3) (s : State) : Host.Outcome State Fault Refusal :=
  runSlot gd [srcS a] (fun h o s =>
    let aside := match s.curLoop with
      | some (g, l) => !l.guess && s.here.1 % 8 % 2 ^ g.lgs != 0
      | none => false
    if aside then s else s.push h 1 (.carry k.toNat o.s0)) s

/-- ACMP (R233, R290, R291). -/
def execAcmp (gd : BitVec 3) (a : BitVec 6) (k : BitVec 3) (s : State) : Host.Outcome State Fault Refusal :=
  runSlot gd [srcS a] (fun _ o s => match s.curLoop with
    | none => s
    | some (g, l) =>
      if l.guess || decide (g.n ≤ l.lane + 1) || decide (g.nc ≤ k.toNat) || o.s0 == g.carryIn (l.lane + 1) k.toNat then s
      else s.modLane l fun l => { l with mism := true }) s

/-- CGSET (R233, R290). -/
def execCgset (gd : BitVec 3) (a : BitVec 6) (l k : BitVec 3) (s : State) : Host.Outcome State Fault Refusal :=
  runSlot gd [srcS a] (fun _ o s => match s.curLoop with
    | none => s
    | some (g, x) =>
      if !x.guess || decide (g.n ≤ l.toNat) || decide (g.nc ≤ k.toNat) then s
      else s.modLoop (s.partOf s.here.1) g.id fun g => { g with posts := (l.toNat, k.toNat, o.s0) :: g.posts }) s

/-- SPST (R300); 0 outside a loop. -/
def State.spst (s : State) (t : Nat) (cx : Cx) : Dword :=
  match (s.ctx t cx).lane with
  | none => 0
  | some l => match s.loop? (s.partOf t) l.loop with
    | none => 0
    | some g => BitVec.ofNat 64 (l.lane % 8 + b2n l.spec * 8 + (g.lanes - 1) % 8 * 16 + 128 + b2n l.mism * 256 +
        l.deferred.length % 64 * 512 + b2n l.guess * 32768)

/-- SPRND (R301); 0 outside a loop. -/
def State.sprnd (s : State) (t : Nat) (cx : Cx) : Dword :=
  match (s.ctx t cx).lane with
  | none => 0
  | some l => match s.loop? (s.partOf t) l.loop with
    | none => 0
    | some g => BitVec.ofNat 64 (g.round % 2 ^ 32 + (g.base + l.lane) % 2 ^ 32 * 2 ^ 32)

/-- SLANE (R233). -/
def execSlane (gd : BitVec 3) (d : BitVec 6) (s : State) : Host.Outcome State Fault Refusal :=
  runSlot gd [] (fun h _ s => s.pushS h d 1 (s.spst s.here.1 s.here.2 &&& 255)) s

/-! ### Starting lanes (R288 to R291, R295) -/

/-- A copy of a template segment, on a lane's tile (R295). -/
def State.replica (s : State) (p t task : Nat) (grp : Option Nat) (id : Nat) : Option (Nat × State) :=
  (s.seg? p id).map fun g =>
    let (k, s) := s.next
    let run := freeRun (s.occupied p t) g.len
    let fits := decide (s.use p t grp + g.len ≤ s.budget t grp) && run.isSome
    let r : Seg := { g with
      id := 2 ^ 31 + k, live := some id, wrote := [], pubs := [], shadow := none, pins := 0, owner := t, owned := true
      group := grp, priv := some task, place := if fits then .resident else .backed, base := run.getD 0, evict := none
      touch := s.now, hist := [], atoms := [], lost := 0 }
    (r.id, s.putSeg p r)

/-- The replicas of a lane: live segment and replica. -/
def State.replicas (s : State) (p t task : Nat) (grp : Option Nat) (ids : List Nat) : List (Nat × Nat) × State :=
  ids.foldl (fun (l, s) id => match s.replica p t task grp id with
    | some (r, s) => (l ++ [(id, r)], s)
    | none => (l, s)) ([], s)

/-- A segment map by names. -/
def bindMap (l : List (Nat × Nat)) : Vector (Option (BitVec 32)) 64 :=
  l.foldl (fun v x => wr v x.1 (some (BitVec.ofNat 32 x.2))) (Vector.replicate 64 none)

/-- One context of a round starts (R14, R288, R291). -/
def State.startLane (s : State) (t : Nat) (g : GLoop) (k : Task) (asid : Nat) (lane : Nat) (guess : Bool)
    (names : List (Nat × Nat)) (args : List (Nat × Dword)) (ci : List Dword) : State :=
  let entry := if guess then g.guess else wd k.tt 0
  let r := { startRegs none args with segmap := bindMap names, ci := Vector.ofFn fun i => ci.getD i.val 0 }
  s.modCtx t .p fun c =>
    { (c.blank.begin r entry) with
      task := some k.id, asid := asid, clock := g.clock
      lane := some { loop := g.id, lane := lane, guess := guess, spec := decide (0 < lane) && !guess } }

/-- The clock of all that the lanes have done (R299). -/
def State.roundClock (s : State) (g : GLoop) : Clock :=
  g.allTiles.foldl (fun k t => let c := s.ctx t .p; if c.lane.isSome then clockJoin k (c.releases t .p) else k) g.clock

/-- The row seal (R289): marks, replicas, and the start of every lane. A guess routine that has ended with a fault
ends the loop in the next size phase (R298). -/
def execSeal (task : Nat) (s : State) : Host.Outcome State Fault Refusal :=
  .next (match s.loopOf task with
    | none => s
    | some (p, g) =>
      let t0 := g.cluster * 8
      let quiet := (s.ctx t0 .p).life == .idle
      if !(g.phase == .seal || g.phase == .guess && quiet) then s
      else if g.fault.isSome then s.modLoop p g.id fun g => { g with phase := .wait, n := 0 }
      else match s.task? p task with
        | none => s
        | some k =>
          let idx := g.handles.map hIndex
          let s := idx.foldl (fun s i => s.kSetMark p i (s.kLen p i)) s
          let cr := idx.map fun i => s.kLen p i
          let k0 := s.roundClock g
          let s := s.modLoop p g.id fun g => { g with phase := .run, cr := cr, words := [], outs := [], clock := k0 }
          let words := ((s.launch? p k.launch).map (·.words)).getD []
          let asid := ((s.launch? p k.launch).map (·.asid)).getD 0
          (List.range g.n).foldl (fun s j =>
            let ts := g.tiles j
            let (reps, s) := if j = 0 then ([], s)
              else s.replicas p (ts.headD 0) task (some k.launch) ((k.tmap.map (·.2)).dedup)
            let names := k.tmap.map fun x => (x.1, ((reps.find? fun y => y.1 == x.2).map (·.2)).getD x.2)
            let ci := (List.range 8).map (g.carryIn j)
            ts.foldl (fun s t => s.startLane t { g with clock := k0 } k asid j false names (argWords words k.tt k.unit (g.base + j)) ci) s) s)

/-! ### The end of a lane (R288, R292) -/

/-- What a context of a lane has bound beside its template, and its shadows, go (R288, R293, R295); a private segment that a
deferred operation names stays until the lane's effects have completed. -/
def State.unbindLane (s : State) (p t : Nat) (tmap : List (Nat × Nat)) : State :=
  (List.range 64).foldl (fun s g => match s.binding t .p g with
    | some id =>
      let replica := ((s.seg? p id).map fun x => x.live.isSome).getD false
      if tmap.contains (g, id) || replica || !((s.seg? p id).any fun x => x.priv.isSome) && s.keptDeferred t id then s
      else s.release t .p g id
    | none => s) s

/-- Private segments that lanes have left to their deferred effects (R295). -/
def State.dropPrivate (s : State) (p : Nat) (g : GLoop) (ts : List Nat) : State :=
  ((s.part p).dir.filter fun x => x.priv == some g.task && x.live.isNone && ts.contains x.owner && !s.named x.owner x.id).foldl
    (fun s x => (s.dropSeg p x.id).writeEntry p { x with valid := false, owned := false }) s

/-- Nothing of what the lanes on some tiles have bound beside the template stays. -/
def State.clearLanes (s : State) (p : Nat) (g : GLoop) (ts : List Nat) : State :=
  let tmap := ((s.task? p g.task).map (·.tmap)).getD []
  (ts.foldl (fun s t => if (s.ctx t .p).lane.any (fun l => l.loop == g.id)
    then (s.modCtx t .p fun c => { c with frame := { c.frame with mode := false } }).unbindLane p t tmap else s) s).dropPrivate p g ts

/-- A context of a lane has ended and its counters have fallen. -/
def State.laneEnd (s : State) (p t : Nat) (g : GLoop) (l : Lane) (word : Option Dword) (cause : Nat) : State :=
  let tmap := ((s.task? p g.task).map (·.tmap)).getD []
  let co := (s.ctx t .p).regs.co.toList
  let carry := t % 8 % 2 ^ g.lgs == 0
  let s := (s.modCtx t .p fun c => { c with frame := { c.frame with mode := false } }).unbindLane p t tmap
  let s := s.modTile t fun x => x.freeBanks .p
  let s := s.modCtx t .p fun c => { c with life := .idle }
  match word with
  | some w =>
    if l.guess || !carry then s
    else s.modLoop p g.id fun g => { g with words := (l.lane, w) :: g.words, outs := (l.lane, co) :: g.outs }
  | none =>
    if l.spec then s.poisonLane l cause t
    else s.modLoop p g.id fun g => { g with fault := g.fault.or (some cause) }

/-- Every context of a lane has ended or the lane is poisoned (R292, R298). -/
def State.laneOver (s : State) (g : GLoop) (j : Nat) : Bool :=
  (g.tiles j).all fun t => let c := s.ctx t .p; c.life == .idle || c.lane.any (·.poisoned)

/-! ### Settling (R292, R293) -/

def State.laneHas (s : State) (g : GLoop) (j : Nat) (f : Lane → Bool) : Bool :=
  (g.tiles j).any fun t => (s.ctx t .p).lane.any f

/-- Whether a lane is accepted after those before it (R292). -/
def State.laneOk (s : State) (g : GLoop) (j : Nat) : Bool :=
  !(s.laneHas g (j - 1) (·.mism)) && !(s.laneHas g j (·.poisoned)) && !(s.laneHas g j (·.zero)) &&
  g.handles.all fun h =>
    let i := hIndex h
    !(s.laneHas g j fun l => l.appended.contains i) ||
      (List.range j).all fun q => s.laneHas g q fun l => l.appended.contains i

/-- The number of accepted lanes (R292). -/
def State.accepted (s : State) (g : GLoop) : Nat :=
  if g.fault.isSome then 0
  else ((List.range g.n).takeWhile fun j => j == 0 || s.laneOk g j).length

/-- Lines into a live segment (R293, R295): the last one is cut at the segment's end. -/
def Seg.putLines (g : Seg) (ls : List (Nat × List Byte × Bool)) : Seg :=
  let g : Seg := { g with bytes := ls.foldl (fun m (x : Nat × List Byte × Bool) => m.store (64 * x.1) (x.2.1.take (g.bytesLen - 64 * x.1))) g.bytes
                          zero := g.zero && g.place != .backed }
  ls.foldl (fun g x => g.mark [x.1] x.2.2) g

/-- The lines that a lane wrote, and then those that it published, whose clock later accesses acquire (R258). -/
def Seg.takeLines (g : Seg) (wrote pubs : List (Nat × List Byte × Bool)) (a : Acc) : Seg :=
  let g := ((g.putLines wrote).enter (sortNat (wrote.map (·.1))) a).1
  (g.putLines pubs).published (sortNat (pubs.map (·.1))) a

/-- The effects that a lane's replicas have on the live segments (R293 step 1). -/
def State.applyReplicas (s : State) (p : Nat) (ts : List Nat) (a : Acc) : State :=
  let reps := (s.part p).dir.filter fun g => g.live.isSome && ts.contains g.owner
  reps.foldl (fun s r =>
    let view (n : Nat) : Bool := ((r.marks.find? fun m => m.1 == n).map (·.2)).getD r.swz
    let wrote := r.wrote.map fun n => (n, r.bytes.bytes (64 * n) 64, view n)
    let pubs := r.pubs.map fun x => (x.1, x.2, r.swz)
    let id := r.live.getD 0
    let s := s.modSeg p id fun g => g.takeLines wrote pubs a
    match s.seg? p id with
    | some g => if g.place = .backed ∧ !(wrote ++ pubs).isEmpty then s.writeBack p g else s
    | none => s) s

/-- A deferred operation is made as if issued now (R296). One that no longer passes its checks is dropped and logged. -/
def State.makeDeferred (s : State) (p t : Nat) (d : Deferred) : State :=
  let h : SlotRec := { word := d.word, lits := [], slot := 0, pc := 0, ops := d.ops }
  let c := s.ctx t .p
  let clock := c.releases t .p
  match d.stream with
  | some hd =>
    let i := hIndex hd
    let pos := s.kLen p i
    let root := s.kRoot p i
    if (s.kCheck p hd).isSome || decide (16 * hBound hd < pos + 1) then s.logEvent 0x296 t
    else match s.kAppendPages p i root pos 0 with
      | .error _ => s.logEvent 0x296 t
      | .ok (s, _) => (s.kReserve t .p i root pos (vecOfWords d.ops) (vecOfWords (d.ops.drop 32))).2
  | none =>
    let x := h.packet
    let id := ((s.seg? p d.seg).map fun g => g.live.getD g.id).getD d.seg
    match s.eNames t (some id) x with
    | .error _ => s.logEvent 0x296 t
    | .ok (loc, tgt) => s.eSubmit t .p 0 x loc tgt clock c.tick

/-- Operations that a lane has deferred, in the order in which it issued them (R296). -/
def State.laneDeferred (s : State) (g : GLoop) (j : Nat) : List Deferred :=
  (((g.tiles j).findSome? fun t => (s.ctx t .p).lane).map (·.deferred)).getD []

/-- The effects of one accepted lane (R293 step 1). -/
def State.acceptLane (s : State) (p : Nat) (g : GLoop) (j : Nat) (a : Acc) : State :=
  let ts := g.tiles j
  let ds := s.laneDeferred g j
  let s := if j = 0 then s else s.applyReplicas p ts a
  let s := ts.foldl (fun s t => s.modCtx t .p fun c => { c with lane := c.lane.map fun l => { l with spec := false } }) s
  let s := ds.foldl (fun s d => s.makeDeferred p d.tile d) s
  ts.foldl (fun s t => s.modCtx t .p fun c => { c with lane := c.lane.map fun l => { l with deferred := [] } }) s

/-- What a rejected lane held is discarded (R251, R293 step 3): operations, banks, names, shadows, private segments. -/
def State.rejectLane (s : State) (p : Nat) (g : GLoop) (j : Nat) : State :=
  let s := (g.tiles j).foldl (fun s t =>
    let s := s.cancelOps t .p
    (s.modTile t fun x => x.freeBanks .p).modCtx t .p fun c =>
      { c with life := .idle, inflight := [], replay := [], delayed := [], lane := c.lane.map fun l => { l with deferred := [], spec := false } }) s
  s.clearLanes p g (g.tiles j)

/-- The replicas of a loop go. -/
def State.dropReplicas (s : State) (p : Nat) (g : GLoop) : State :=
  s.modPart p fun x => { x with dir := x.dir.filter fun r => !(r.live.isSome && g.allTiles.contains r.owner) }

/-- The row settle (R292, R293): steps 1 to 4 in one step. -/
def execSettle (task : Nat) (s : State) : Host.Outcome State Fault Refusal :=
  .next (match s.loopOf task with
    | none => s
    | some (p, g) =>
      if !(g.phase == .run && (List.range g.n).all (s.laneOver g)) then s
      else
        let acc := s.accepted g
        let k := s.roundClock g
        let (id, s) := s.next
        let a : Acc := { agent := id, tick := 1, clock := k, write := true }
        let took := g.handles.map fun h => ((List.range acc).filter fun j => s.laneHas g j fun l => l.appended.contains (hIndex h)).length
        let s := (List.range acc).foldl (fun s j => s.acceptLane p g j a) s
        let s := ((List.range g.n).drop acc).foldl (fun s j => s.rejectLane p g j) s
        let s := (List.range g.handles.length).foldl (fun s q =>
          s.kCut p (hIndex (g.handles.getD q 0)) (g.cr.getD q 0 + took.getD q 0)) s
        let s := s.dropReplicas p g
        let last := acc - 1
        let co := ((g.outs.find? fun x => x.1 == last).map (·.2)).getD []
        let word := ((g.words.find? fun x => x.1 == last).map (·.2)).getD 0
        s.modLoop p g.id fun g =>
          { g with phase := .wait, clock := clockJoin k [(id, 1)]
                   carries := if acc = 0 then g.carries else (List.range 8).map fun i => if i < g.nc then co.getD i 0 else 0
                   result := if acc = 0 then g.result else word
                   base := g.base + acc, round := if acc = 0 then g.round else g.round + 1 })

/-- Every deferred effect has completed, and no context of the loop has anything outstanding (R293 step 5). -/
def State.roundQuiet (s : State) (g : GLoop) : Bool :=
  g.allTiles.all fun t =>
    let c := s.ctx t .p
    !c.lane.any (fun l => l.loop == g.id) || (c.os == 0 && c.oc == 0 && c.om == 0)

/-- A kill of the loop (R302): the round in progress is rejected, and the named streams are cut to Cr. -/
def State.loopKill (s : State) (p : Nat) (g : GLoop) : State :=
  let s := (List.range g.lanes).foldl (fun s j => s.rejectLane p g j) s
  let s := if g.phase == .run then (List.range g.handles.length).foldl (fun s q =>
      s.kCut p (hIndex (g.handles.getD q 0)) (g.cr.getD q 0)) s else s
  s.dropReplicas p g

end Sys2Proof.Machine
end

