-- ==== Sys2Proof/Machine/Place.lean ====
section
/-! DEFINITION. Launch records: their checks (15 R307 to R310), levels (R311, R312) and placement (R313). -/

namespace Sys2Proof.Machine

/-! ### Levels (R307, R312) -/

/-- Levels of a record. -/
def recLevels (r : List Dword) : Nat := wf r 0 28 3 + 1
/-- A field of level `i`. -/
def levelField (r : List Dword) (i lo n : Nat) : Nat := wf r (4 + i / 2) (32 * (i % 2) + lo) n
def levelCount (r : List Dword) (i : Nat) : Nat := levelField r i 0 16
def levelDomain (r : List Dword) (i : Nat) : Nat := levelField r i 16 3
def levelScope (r : List Dword) (i : Nat) : Nat := levelField r i 19 3
def levelShare (r : List Dword) (i : Nat) : Nat := levelField r i 22 2

/-- Work units of a record (R310). -/
def recUnits (r : List Dword) : Nat := ((List.range (recLevels r)).map (levelCount r)).foldl (· * ·) 1

/-- Tiles of an instance of a domain within a module (R312). -/
def domainSize : Nat → Nat
  | 0 => 1
  | 1 => 2
  | 2 => 8
  | 3 => 256
  | _ => 2048

/-- The instance of a domain that a tile lies in. A partition, and what is wider, is one instance here. -/
def instanceOf (d t : Nat) : Nat := if d < 4 then t / domainSize d else 0

/-- The instances of DOMAIN within one MSCOPE (R312); none where the fabric bounds them. -/
def domainLimit (d m share : Nat) : Option Nat :=
  let k := if d = 0 ∧ share = 2 then 2 else 1
  if d = 4 then some 1
  else if d = m then some k
  else if m < 6 then some (domainSize m / domainSize d * k)
  else none

/-- The level rules of R310 check 1 and R312. -/
def levelsOk (r : List Dword) : Bool :=
  let n := recLevels r
  (List.range 8).all fun i =>
    if n ≤ i then levelField r i 0 32 == 0
    else
      let c := levelCount r i
      let d := levelDomain r i
      let m := levelScope r i
      let sh := levelShare r i
      levelField r i 24 8 == 0 && !(m == 1 || m == 4 || m == 6) && sh != 3 && (i == 0 || sh == 0) && decide (d ≤ m) &&
      (i == 0 || decide (levelScope r (i - 1) ≤ d)) && !(decide (1 < c) && d == 4) &&
      (match domainLimit d m sh with
        | some k => decide (c ≤ k)
        | none => true)

/-- The indices of a unit, level 0 first (R309). -/
def unitIndex (r : List Dword) (u : Nat) : List Nat :=
  ((List.range (recLevels r)).foldl (fun (acc : List Nat × Nat) i =>
    let c := levelCount r i
    (acc.1 ++ [acc.2 % c], acc.2 / c)) ([], u)).1

/-! ### The checks of R310 -/

/-- A loop record as malformed (R287, R309). -/
def loopBad (w : List Dword) : Bool :=
  if bit (wd w 2) 0 then
    let nc := wf w 2 1 4
    let wm := wf w 2 5 3
    decide (8 < nc) || wm == 0 || decide (4 < wf w 2 10 3) || decide (16 < wf w 2 13 4 + wf w 2 17 5) ||
    decide (8 < (wm + 1) * 2 ^ wf w 2 8 2) || wf w 1 32 32 != 0 || wf w 2 22 42 != 0 || wd w 3 != 0
  else (List.range 16).any fun k => if k = 1 then wf w 1 32 32 != 0 else wd w k != 0

def Memory.dwords (m : Memory) (a n : Nat) : List Dword := (List.range n).map fun k => m.dword (a + 8 * k)
/-- Words of a table that the dispatch complex reads (R355). -/
def State.partWords (s : State) (p a n : Nat) : List Dword := (List.range n).map fun k => s.partWord p (a + 8 * k)

/-- The task-type entry and loop record of a type, or the status of checks 2 and 3 (R310). -/
def State.taskType (s : State) (p t : Nat) : Except Nat (List Dword × List Dword) :=
  let x := s.part p
  let tt := s.partWords p (x.ttbl + 64 * t) 8
  if x.ttcnt ≤ t || bit (wd tt 6) 5 then .error 2
  else
    let src := wf tt 6 0 2
    let lw := if wd tt 3 = 0 then [] else s.partWords p (wd tt 3).toNat 16
    if wf tt 6 6 58 != 0 || wd tt 7 != 0 || src == 3 || src == 1 && wd tt 3 == 0 || decide (8184 < wf tt 5 32 16) ||
        decide (128 < wf tt 5 48 8) || !lw.isEmpty && loopBad lw then .error 1
    else .ok (tt, lw)

/-- The loop record describes a guessed-carry loop. -/
def isLoop (lw : List Dword) : Bool := !lw.isEmpty && bit (wd lw 2) 0
/-- Tiles of a unit: the lane groups of a guessed-carry task (R288, R312). -/
def spanOf (lw : List Dword) : Nat := if isLoop lw then (wf lw 2 5 3 + 1) * 2 ^ wf lw 2 8 2 else 1
/-- Kernel passes (R308). An argument word at or beyond NARGS is ignored (R307): the number that it would have given is free
(DESIGN CHOICE, log 50). -/
def passesOf (launch : Nat) (r tt lw : List Dword) : Nat :=
  match wf tt 6 0 2 with
  | 1 => wf lw 1 0 32
  | 2 => if wf tt 6 2 3 < wf r 0 24 4 then wf r (8 + wf tt 6 2 3) 0 32 else (fld (Config.freeArg launch) 0 32).toNat
  | _ => 1

/-! ### Placement (R312, R313) -/

/-- A context in use: by a task, or by a unit of the placement in hand. -/
structure Slot where
  tile : Nat
  cx : Cx
  launch : Nat
  quota : Nat
  banks : Nat
  rqdem : Nat
  deriving DecidableEq, Repr

/-- What a unit asks of a tile. -/
structure Want where
  launch : Nat
  tt : List Dword
  lw : List Dword
  timed : Bool
  /-- Banks that a restored context has to get back (R341). -/
  back : List Nat := []
  deriving DecidableEq, Repr

def Want.quota (w : Want) : Nat := wf w.tt 5 32 16
def Want.banks (w : Want) : Nat := wf w.tt 5 48 8
def Want.rqdem (w : Want) : Nat := wf w.tt 5 56 4
def Want.slot (w : Want) (t : Nat) (cx : Cx) : Slot := ⟨t, cx, w.launch, w.quota, w.banks, w.rqdem⟩

/-- The contexts that tasks occupy, those of `gone` left out. -/
def State.slots (s : State) (p : Nat) (gone : List Nat) : List Slot :=
  ((s.part p).tasks.filter fun k => !gone.contains k.id).flatMap fun k =>
    (List.range k.span).map fun j => ⟨k.tile + j, if k.span = 1 then k.cx else .p, k.launch, k.quota, k.banks, k.rqdem⟩

/-- The tiles of a partition, rising. -/
def State.tilesOf (s : State) (p : Nat) : List Nat :=
  ((sortNat (s.part p).clusters).flatMap fun k => (List.range 8).map fun j => 8 * k + j).filter fun t =>
    decide (t < (fld s.caps 0 16).toNat)

/-- TTRES reserves the tile's cluster (R305). -/
def State.reserved (s : State) (p t : Nat) : Bool := bit (rd (s.part p).ttres (clusterOf t / 64) 0) (clusterOf t % 64)

/-- The context of a tile that takes a unit (R313); `live` is false for the empty partition of R310 check 7. -/
def State.accepts (s : State) (p t : Nat) (occ : List Slot) (w : Want) (live : Bool) : Option Cx :=
  let mine := occ.filter fun x => x.tile == t
  let cx := [Cx.p, Cx.s].find? fun c => !mine.any fun x => x.cx == c
  let kib (x : Slot) : Nat :=
    if live then (((s.tile t).groups.find? fun g => g.launch == x.launch).map (·.kib)).getD x.quota else x.quota
  let all := mine ++ [w.slot t .p]
  let groups := distinct (all.map (·.launch))
  let sum := (groups.map fun l => ((all.find? fun x => x.launch == l).map kib).getD 0).sum
  let fits := (s.reserved p t == w.timed) && !(s.tile t).retired && decide (sum ≤ Config.storeKiB) &&
    decide ((mine.map (·.banks)).sum + w.banks ≤ 128) && (mine.all fun x => x.rqdem &&& w.rqdem == 0) &&
    (w.back.isEmpty || ((s.tile t).banksFor w.back).isSome)
  if fits then cx else none

/-- A placement: unit, tile, context. -/
abbrev Spot := Nat × Nat × Cx

/-- The level-i blocks of a record keep to distinct domains and one scope (R312), beside the units placed before: at level 0
those of the same block, when a unit of it is placed again. -/
def levelsHold (r : List Dword) (where_ : List (Nat × Nat)) (u t : Nat) : Bool :=
  let xs := unitIndex r u
  let d0 := levelDomain r 0
  let per := if d0 = 0 ∧ levelShare r 0 = 2 then 2 else 1
  let twins := where_.filter fun v => (unitIndex r v.1).drop 1 == xs.drop 1 && instanceOf d0 v.2 == instanceOf d0 t
  (decide (4 ≤ d0) || decide (twins.length < per)) &&
  where_.all fun v =>
    let ys := unitIndex r v.1
    (List.range (recLevels r)).all fun i =>
      if xs.drop (i + 1) != ys.drop (i + 1) then true
      else
        instanceOf (levelScope r i) t == instanceOf (levelScope r i) v.2 &&
        (i == 0 || (instanceOf (levelDomain r i) t == instanceOf (levelDomain r i) v.2) == (xs.getD i 0 == ys.getD i 0) ||
          decide (4 < levelDomain r i))

/-- One unit goes to the accepted tile of lowest coordinate. -/
def State.placeUnit (s : State) (p : Nat) (r : List Dword) (w : Want) (live : Bool) (here : List Nat)
    (acc : List Spot × List Slot × List Nat) (u : Nat) : Option (List Spot × List Slot × List Nat) :=
  let d := levelDomain r 0
  let per := if d = 0 ∧ levelShare r 0 = 2 then 2 else 1
  let n := spanOf w.lw
  here.findSome? fun t =>
    if per ≤ (acc.2.2.filter (· == instanceOf d t)).length && decide (d < 4) then none
    else if isLoop w.lw then
      let ts := (List.range n).map (t + ·)
      if t % 8 = 0 && ts.all fun x => here.contains x && s.accepts p x acc.2.1 w live == some .p then
        some (acc.1 ++ [(u, t, .p)], acc.2.1 ++ ts.map (fun x => w.slot x .p), instanceOf d t :: acc.2.2)
      else none
    else match s.accepts p t acc.2.1 w live with
      | some cx => some (acc.1 ++ [(u, t, cx)], acc.2.1 ++ [w.slot t cx], instanceOf d t :: acc.2.2)
      | none => none

/-- A level-0 block whole, or not at all (R313): instances of its scope in increasing number. -/
def State.placeBlock (s : State) (p : Nat) (r : List Dword) (w : Want) (live : Bool) (where_ : List (Nat × Nat))
    (occ : List Slot) (units : List Nat) : Option (List Spot × List Slot) :=
  let ts := s.tilesOf p
  let m := levelScope r 0
  (distinct (ts.map (instanceOf m))).findSome? fun k =>
    let here := ts.filter fun t => instanceOf m t == k && levelsHold r where_ (units.headD 0) t
    ((units.foldl (fun (acc : Option (List Spot × List Slot × List Nat)) u =>
      acc.bind fun a => s.placeUnit p r w live here a u) (some ([], occ, []))).map fun a => (a.1, a.2.1))

/-! ### Elements on other modules (R312, R374) -/

/-- The index of a unit at the level whose domain is module (5) or link group (6); of several such levels at most one has
more than one element (R312). -/
def elementAt (r : List Dword) (u d : Nat) : Option Nat :=
  let xs := unitIndex r u
  let ls := (List.range (recLevels r)).filter fun i => levelDomain r i == d
  ((ls.find? fun i => decide (1 < levelCount r i)).or ls.head?).map fun i => xs.getD i 0

/-- Where a unit runs: `some none` here, `some (some m)` on module `m`, `none` when the lists are too short. A part without
links has no such choice (R382). -/
def State.unitModule (s : State) (p : Nat) (r : List Dword) (u : Nat) : Option (Option Nat) :=
  let x := s.part p
  let group := elementAt r u 6
  let list := match group with
    | some g => x.linkGroups[g]?
    | none => some x.modules
  match elementAt r u 5, group with
  | none, none => some none
  | k, _ =>
    if !bit s.caps 25 then some none
    else (list.bind fun l => l[k.getD 0]?).map fun m => if m = s.modid.toNat then none else some m

/-- Whether every element of a record finds its module (R374). -/
def State.modulesOk (s : State) (p : Nat) (r : List Dword) : Bool :=
  let x := s.part p
  let cnt (d : Nat) : Nat := (((List.range (recLevels r)).filter fun i => levelDomain r i == d).map (levelCount r)).foldl max 0
  !bit s.caps 25 ||
  (decide (cnt 6 ≤ x.linkGroups.length) &&
  (if 0 < cnt 6 then (x.linkGroups.take (cnt 6)).all fun l => decide (max 1 (cnt 5) ≤ l.length)
    else decide (cnt 5 ≤ x.modules.length)))

/-- The units of a range that run on this module. -/
def State.unitsHere (s : State) (p : Nat) (r : List Dword) (u n : Nat) : List Nat :=
  ((List.range n).map (u + ·)).filter fun u => s.unitModule p r u == some none

/-- Every level-0 block of a record at once (R310 check 7, R318). -/
def State.planAll (s : State) (p : Nat) (r : List Dword) (w : Want) (live : Bool) : Option (List (Nat × List Spot)) :=
  let c0 := levelCount r 0
  let blocks := recUnits r / c0
  let room := 2 * (s.tilesOf p).length
  let fabric := (List.range (recLevels r)).any fun i => decide (4 < levelDomain r i)
  if room < recUnits r && !fabric then none
  else
    ((List.range blocks).foldl (fun (acc : Option (List (Nat × List Spot) × List (Nat × Nat) × List Slot)) b =>
      acc.bind fun a =>
        (s.placeBlock p r w live a.2.1 a.2.2 (s.unitsHere p r (b * c0) c0)).map fun x =>
          (a.1 ++ [(b, x.1)], a.2.1 ++ x.1.map (fun y => (y.1, y.2.1)), x.2))
      (some ([], [], if live then s.slots p [] else []))).map (·.1)

/-- A guessed-carry task asks for a memory scope of a cluster or wider (R312). -/
def scopeHolds (r lw : List Dword) : Bool := !isLoop lw || decide (2 ≤ levelScope r 0)

/-- The addresses of a type's entry and loop record that the checks read (R310). -/
def State.typeReads (s : State) (p t : Nat) : List Nat :=
  let x := s.part p
  if x.ttcnt ≤ t then []
  else
    let a := x.ttbl + 64 * t
    let w := (s.partWord p (a + 24)).toNat
    (List.range 8).map (fun k => a + 8 * k) ++ (if w = 0 then [] else (List.range 16).map fun k => w + 8 * k)

/-- The status of a record that completes when it is taken, or its type (R310). -/
def State.recordCheck (s : State) (p : Nat) (r : List Dword) : Except Nat (List Dword × List Dword) :=
  if wf r 0 56 8 != 0 || wf r 2 32 32 != 0 || decide (8 < wf r 0 24 4) || decide (2 ≤ wf r 0 34 2) || !levelsOk r then .error 1
  else match s.taskType p (wf r 0 0 16) with
    | .error e => .error e
    | .ok (tt, lw) =>
      let c (i : Nat) : Bool := decide (1 < levelCount r i) && (decide (5 ≤ levelDomain r i) || decide (5 ≤ levelScope r i))
      if !scopeHolds r lw then .error 1
      else if 2 ^ 32 ≤ recUnits r then .error 3
      else if recUnits r = 0 then .error 0
      else if (List.range (recLevels r)).any c && !bit s.caps 25 then .error 4
      else if !s.modulesOk p r ||
          (s.planAll p r { launch := 0, tt := tt, lw := lw, timed := bit (wd r 0) 31 } false).isNone then .error 5
      else if bit (wd r 0) 31 && decide ((wd r 3).toNat < s.ptime.toNat + (s.part p).ttlead) && !bit (wd r 0) 32 then .error 6
      else .ok (tt, lw)

end Sys2Proof.Machine
end

