-- ==== Sys2Proof/Machine/Sched.lean ====
section
/-! DEFINITION. The dispatch complex: taking records, starting tasks and passes, their ends, joins, pre-emption, ageing,
time-triggered launch (15 R305 to R321), checkpoints and suspension (16 R336 to R341), the rounds' ends (14 R289). -/

namespace Sys2Proof.Machine

/-! ### Joins (R320) -/

/-- The join status of a record. -/
def Launch.status (l : Launch) : List Dword :=
  [BitVec.ofNat 64 (min l.nfault 65535 + min l.nkill 65535 * 2 ^ 16 + l.fcause % 256 * 2 ^ 32 + l.rstat % 16 * 2 ^ 40),
   BitVec.ofNat 64 l.value.toNat]

/-- The join status is written and the parent's flag signalled (R320), or the event is logged; on a part without links
none goes to another module (R382). Units that another module has sent here are joined there. -/
def State.join (s : State) (p : Nat) (l : Launch) : State :=
  if l.home.isSome || !bit (wd l.words 0) 33 then s
  else
    let w := wd l.words 1
    let joff := wf l.words 2 0 32
    let seg := (fld w 0 32).toNat
    let tile := (fld w 32 11).toNat
    let flagNo := wf l.words 0 44 4
    let gen := wf l.words 0 36 8
    let bytes := l.status.flatMap fun x => natBytes 8 x.toNat
    if !bit w 55 && fld w 43 12 != s.modid then
      if joff % 16 ≠ 0 || !bit s.caps 25 then s.logEvent 0x320 seg
      else s.sendOut ⟨69, 2048, (fld w 43 12).toNat, tile, seg, joff, 1 + flagNo * 2 ^ 16 + gen * 2 ^ 20, bytes⟩ l.joins
    else match s.seg? p seg with
      | none => s.logEvent 0x320 seg
      | some g =>
        if joff % 16 ≠ 0 || decide (g.bytesLen < joff + 16) || s.partOf tile ≠ p || decide ((fld s.caps 0 16).toNat ≤ tile) then
          s.logEvent 0x320 seg
        else
          let (id, s) := s.next
          let a : Acc := { agent := id, tick := 1, clock := l.joins, write := true }
          let lines := linesOf [(joff, 16)]
          let g := (({ g with bytes := g.bytes.store joff bytes }).mark lines g.swz)
          let s := s.putBytes p (g.enter lines a).1
          s.deliver { tile := tile, part := p, flag := flagNo, gen := BitVec.ofNat 8 gen, delta := 1
                      clock := clockJoin l.joins [(id, 1)], op := id, due := s.now }

/-- A record completes (R310, R320). -/
def State.complete (s : State) (p : Nat) (l : Launch) : State :=
  (s.modPart p fun x => { x with launches := x.launches.filter fun y => y.id != l.id }).join p l

/-! ### The end of a unit (R319) -/

/-- How a unit ends. -/
inductive UnitEnd where
  | normal (word : Dword)
  | faulted (cause : Nat)
  | killed
  /-- It leaves its tile and waits again (R317, R321, R338). -/
  | again (b : Block)
  deriving DecidableEq, Repr

/-- The contexts of a task. -/
def Task.contexts (k : Task) : List (Nat × Cx) :=
  (List.range k.span).map fun j => (k.tile + j, if k.span = 1 then k.cx else .p)

/-- The task leaves its tiles: its loop, contexts, groups. -/
def State.leaveTask (s : State) (p : Nat) (k : Task) : State :=
  let clock := k.contexts.foldl (fun c x => clockJoin c ((s.ctx x.1 x.2).releases x.1 x.2)) []
  let clock := match k.loop.bind (s.loop? p) with
    | some g => clockJoin clock g.clock
    | none => clock
  let s := s.modPart p fun x => { x with loops := x.loops.filter fun g => g.task != k.id, tasks := x.tasks.filter fun y => y.id != k.id }
  let s := k.contexts.foldl (fun s x =>
    let s := s.releaseCtx x.1 x.2
    let other := ((s.ctx x.1 x.2.other).task.bind (s.task? p)).map (·.launch)
    s.leaveGroup p x.1 k.launch other) s
  s.modLaunch p k.launch fun l => { l with joins := clockJoin l.joins clock }

/-- Every context of the module. -/
def State.allCtxs (s : State) : List (Nat × Cx) := s.tiles.flatMap fun x => [(x.1, .p), (x.1, .s)]

/-- How a unit ends, for the module that has sent it: 0 with its result word, 1 with the cause of its fault, 2 killed, with
the number of units (R312, R320, log 33). -/
def State.tellHome (s : State) (p launch unit kind value : Nat) : State :=
  match s.launch? p launch with
  | some l => match l.home with
    | some (m, id) => s.sendOut ⟨71, 2048, m, p, id, unit, kind, natBytes 8 value⟩ l.joins
    | none => s
  | none => s

/-- The blocks of a record that have not been placed count as killed (R319). -/
def State.dropBlocks (s : State) (p launch : Nat) : State :=
  let mine := (s.part p).blocks.filter fun b => b.launch == launch
  let n := (mine.map fun b => b.count * b.reps).sum
  let s := s.modPart p fun x => { x with blocks := x.blocks.filter fun b => b.launch != launch }
  let s := s.modLaunch p launch fun l => { l with left := l.left - n, nkill := l.nkill + n }
  if n = 0 then s else s.tellHome p launch 0 2 n

/-- A task is killed (R342, R302); what it was comes off its tiles. -/
def State.discard (s : State) (p : Nat) (k : Task) : State :=
  let s := match k.loop.bind (s.loop? p) with
    | some g => s.loopKill p g
    | none => s
  (k.contexts.foldl (fun s x => s.cancelOps x.1 x.2) s).leaveTask p k

/-- A fault of a unit: FCAUSE keeps the first in time (R320). -/
def Launch.noteFault (l : Launch) (c : Nat) : Launch := { l with first := l.first.or (some c), fcause := l.first.getD c }

/-- The fault of a context that has not been noted yet; that of a speculative lane is none of its record (R298). -/
def Ctx.newFault (c : Ctx) : Option Nat :=
  match c.life with
  | .faulted k => if c.noted || c.lane.any (·.spec) then none else some k
  | _ => none

/-- The faults of a core cycle are noted, by rising tile and then primary before secondary (R320). -/
def State.noteFaults (s : State) : State :=
  s.allCtxs.foldl (fun s x => match (s.ctx x.1 x.2).newFault with
    | none => s
    | some k =>
      let s := match (s.ctx x.1 x.2).task.bind (s.task? (s.partOf x.1)) with
        | some t => s.modLaunch (s.partOf x.1) t.launch fun l => l.noteFault k
        | none => s
      s.modCtx x.1 x.2 fun c => { c with noted := true }) s

/-- One unit of a record is counted as ended, with its record's module told of it. -/
def State.countEnd (s : State) (p : Nat) (k : Task) (e : UnitEnd) : State :=
  let s := s.modLaunch p k.launch fun l => match e with
    | .normal w => { l with left := l.left - 1, value := if k.unit = 0 then fld w 0 32 else l.value }
    | .faulted c => { l.noteFault c with left := l.left - 1, nfault := l.nfault + 1 }
    | .killed => { l with left := l.left - 1, nkill := l.nkill + 1 }
    | .again _ => { l with placed := l.placed.filter fun y => y.1 != k.unit }
  match e with
  | .normal w => s.tellHome p k.launch k.unit 0 w.toNat
  | .faulted c => s.tellHome p k.launch k.unit 1 c
  | .killed => s.tellHome p k.launch k.unit 2 1
  | .again _ => s

/-- A record whose last unit has ended completes. -/
def State.finish (s : State) (p launch : Nat) : State :=
  match s.launch? p launch with
  | some l => if l.left = 0 then s.complete p l else s
  | none => s

/-- A unit is killed by FPOL abort, a watchdog or the host (R319). -/
def State.killUnit (s : State) (p : Nat) (k : Task) : State := (s.discard p k).countEnd p k .killed

/-- Every unit of a record on this module is killed, and its waiting blocks are dropped. -/
def State.killRecord (s : State) (p launch : Nat) : State :=
  (((s.part p).tasks.filter fun k => k.launch == launch).foldl (fun s k => s.killUnit p k) s).dropBlocks p launch

/-- The first fault under FPOL = 1 kills the record's other units and drops its waiting blocks (R319), on the modules that
have units of it too; the module that took the record decides this (log 33). -/
def State.abort (s : State) (p launch : Nat) : State :=
  match s.launch? p launch with
  | none => s
  | some l =>
    if l.home.isSome ∨ wf l.words 0 34 2 ≠ 1 ∨ l.rstat = 8 then s
    else
      let s := (s.modLaunch p launch fun l => { l with rstat := 8 }).killRecord p launch
      l.away.foldl (fun s m => s.sendOut ⟨72, 2048, m, p, launch, 0, 0, []⟩ l.joins) s

/-- A unit ends (R319, R321). -/
def State.unitEnd (s : State) (p : Nat) (k : Task) (e : UnitEnd) : State :=
  let s := (s.leaveTask p k).countEnd p k e
  match e with
  | .again b => s.modPart p fun x => { x with blocks := x.blocks ++ [b] }
  | .faulted _ => (s.abort p k.launch).finish p k.launch
  | _ => s.finish p k.launch

/-- The block in which a task's unit waits again (R317, R321). -/
def State.blockOf (s : State) (k : Task) : Block :=
  { launch := k.launch, unit := k.unit, count := 1, tt := k.tt, lw := k.lw, tokens := k.tokens, since := s.now, order := k.order }

/-! ### Passes (R309) -/

/-- The pass after `x` of a task, by its kinds; none when it was the last. -/
def Task.after (k : Task) (x : Option Pass) : Option Pass :=
  let epi : Option Pass := if wd k.tt 2 = 0 then none else some .epilogue
  let ker : Option Pass := if 0 < k.passes then some (.kernel 0) else epi
  match x with
  | none => if wd k.tt 1 = 0 then ker else some .prologue
  | some .prologue => ker
  | some (.kernel n) => if n + 1 < k.passes then some (.kernel (n + 1)) else epi
  | some .epilogue => none

/-- Where a pass starts and its pass index. -/
def Task.entry (k : Task) : Pass → Dword × Nat
  | .prologue => (wd k.tt 1, 0)
  | .kernel n => (wd k.tt 0, n)
  | .epilogue => (wd k.tt 2, 0)

/-- The index of the pass after the one in progress, 0 where none follows (R309, R337; log 26). -/
def Task.nextIndex (k : Task) : Nat := ((k.after (some k.pass)).map fun x => (k.entry x).2).getD 0

/-- A kernel-iteration boundary lies between two passes (R309). -/
def boundary (a b : Pass) : Bool :=
  match a, b with
  | .kernel _, .kernel _ => true
  | _, _ => false

/-- The interrupt that begins a switch-out (R338): of kind 1 at a kernel-iteration boundary, of kind 2 at a bundle (R336). -/
def State.askOut (s : State) (p : Nat) (k : Task) (kind : Nat) : State :=
  match s.saveSegment p k.tile ((s.tile k.tile).banksHeld k.cx) with
  | none => s.logEvent 0x336 k.tile
  | some (id, s) => (s.modTask p k.id fun k => { k with asked := kind }).modCtx k.tile k.cx fun c =>
    { c with irq := { c.irq with swout := true, saveId := BitVec.ofNat 32 id } }

/-- The context is set up for a pass (R14, R309); it issues at once, or waits for its checkpoint; in a suspended partition it
is asked out before its first bundle (R336). -/
def State.startPass (s : State) (p : Nat) (k : Task) (x : Pass) (life : Life) : State :=
  let words := ((s.launch? p k.launch).map (·.words)).getD []
  let e := k.entry x
  let s := s.modTask p k.id fun k => { k with pass := x, started := true }
  let s := s.modCtx k.tile k.cx fun c =>
    { (c.begin (startRegs (some c.regs) (argWords words k.tt k.unit e.2)) e.1) with life := life }
  if life == .running && (s.part p).suspended then s.askOut p k 2 else s

/-- The loop of a guessed-carry task begins (R287), or the task ends with KVH. -/
def State.startLoop (s : State) (p : Nat) (k : Task) : State :=
  let w := k.lw
  let hs := (List.range (wf w 2 10 3)).map fun i => wd w (4 + i)
  let (id, s) := s.next
  let (base, round, carries) := k.restart.getD (0, 0, (List.range 8).map fun i => if i < wf w 2 1 4 then wd w (8 + i) else 0)
  let g : GLoop :=
    { id := id, task := k.id, cluster := clusterOf k.tile, guess := wd w 0, trips := wf w 1 0 32, nc := wf w 2 1 4
      lanes := wf w 2 5 3 + 1, lgs := wf w 2 8 2, handles := hs, fbase := wf w 2 13 4, fcnt := wf w 2 17 5
      base := base, round := round, carries := carries
      clock := clockJoin (((s.launch? p k.launch).map (·.base)).getD []) ((s.ctx k.tile k.cx).releases k.tile k.cx) }
  if g.trips != 0 && hs.any fun h => (s.kCheck p h).isSome then s.unitEnd p k (.faulted Cause.kvh)
  else
    let s := s.modTask p k.id fun k => { k with loop := some id, started := true }
    s.modPart p fun x => { x with loops := x.loops ++ [g] }

/-- The first pass of a task, or what it resumes (R309, R341): a suspended context goes on in the pass that its block names. -/
def State.firstPass (s : State) (p : Nat) (k : Task) : State :=
  match k.image.bind (s.seg? p) with
  | some g =>
    if (g.nat 0 8) / 2 ^ 16 % 2 = 1 then
      (s.modTask p k.id fun k => { k with started := true }).switchIn k.tile k.cx g k.replay
    else if isLoop k.lw then s.startLoop p k
    else
      let s := s.modCtx k.tile k.cx fun c => { c with regs := g.imageRegs }
      let s := s.startPass p k (.kernel (g.nat 4 4)) .running
      let s := s.modCtx k.tile k.cx fun c => { c with irq := { c.irq with swin := true, saveId := BitVec.ofNat 32 g.id } }
      s.takeIntr k.tile k.cx
  | none =>
    if isLoop k.lw then
      if wd k.tt 1 = 0 then s.startLoop p k else s.startPass p k .prologue .running
    else match k.after none with
      | some x => s.startPass p k x .running
      | none => s.unitEnd p k (.normal 0)

/-- What comes after a pass that has ended normally (R309, R317). -/
def State.passEnd (s : State) (p : Nat) (k : Task) (word : Dword) : State :=
  if isLoop k.lw && k.pass == .prologue then
    (if (s.part p).suspended then s.modTask p k.id fun k => { k with mark := 2, asked := 2 } else s).startLoop p k
  else match if isLoop k.lw then none else k.after (some k.pass) with
    | none => s.unitEnd p k (.normal word)
    | some x => s.startPass p k x (if k.mark = 2 && boundary k.pass x then .starting else .running)

/-- END with RQ = 1 (R321). -/
def State.requeue (s : State) (p : Nat) (k : Task) (word : Dword) : State :=
  let ty := (fld word 32 16).toNat
  let s := s.logReads p (s.typeReads p ty)
  match s.taskType p ty with
  | .error _ => s.unitEnd p k (.faulted 0)
  | .ok (tt, lw) =>
    if scopeHolds (((s.launch? p k.launch).map (·.words)).getD []) lw then s.unitEnd p k (.again { s.blockOf k with tt := tt, lw := lw })
    else s.unitEnd p k (.faulted 0)

/-- END in supervisor mode with SWOUT in the frame (R338): the image is written, and the unit waits again. The next pass is
the one that the image's context begins with (R341), or, of one within a pass, the one after it; where none follows, the
index is 0 (DEDUCED, log 26). -/
def State.switchOut (s : State) (t : Nat) (cx : Cx) : State :=
  let p := s.partOf t
  let c := s.ctx t cx
  let id := (fld c.frame.einfo 32 32).toNat
  match c.task.bind (s.task? p) with
  | none => s.releaseCtx t cx
  | some k =>
    let index := if k.asked = 1 then (k.entry k.pass).2 else k.nextIndex
    let s := s.writeImage p id ((s.tile t).image cx (k.asked - 1) index c.frame.epc)
    s.unitEnd p k (.again { s.blockOf k with image := some id, pass := some k.pass, replay := c.replay, clock := c.releases t cx })

/-- Whether an END has no more to wait for: the accesses of its bundle have been made, and os, oc and om have fallen (R91);
an END that switches out waits for no counter (R338). A rollback in progress comes first (R361). -/
def Ctx.over (c : Ctx) : Bool :=
  !c.phase.rolling && c.delayed.isEmpty && (match c.life with
    | .ended _ => c.frame.mode || c.os == 0 && c.oc == 0 && c.om == 0
    | .faulted _ => c.os == 0 && c.oc == 0 && c.om == 0
    | _ => false)

/-- The row endComplete (R91, R309, R319, R321): a context that has ended has no more to wait for. -/
def execEndComplete (tile : Nat) (cx : Cx) (s : State) : Host.Outcome State Fault Refusal :=
  .next (
    let s := s.noteFaults
    let c := s.ctx tile cx
    let p := s.partOf tile
    if !c.over then s
    else
      let wrap (word : Option Dword) (cause : Nat) : State :=
        match c.lane.bind fun l => (s.loop? p l.loop).map fun g => (g, l) with
        | some (g, l) => s.laneEnd p tile g l word cause
        | none => match c.task.bind (s.task? p) with
          | none => s.releaseCtx tile cx
          | some k => match word with
            | some w => if bit w 63 then s.requeue p k w else s.passEnd p k w
            | none => s.unitEnd p k (.faulted cause)
      match c.life with
      | .ended w => if c.frame.mode then s.switchOut tile cx else wrap (some w) 0
      | .faulted cause => wrap none cause
      | _ => s)

/-! ### Starting a task (R241) -/

/-- The names of a task's map template (R308): two of its 4-byte entries stand in a word. -/
def State.template (s : State) (p : Nat) (tt : List Dword) : List (Nat × Nat) :=
  let a := (wd tt 4).toNat
  if a = 0 then []
  else (List.range 64).filterMap fun g => let id := (s.partWord p (a + 8 * (g / 2))).toNat / 2 ^ (32 * (g % 2)) % 2 ^ 32; if id = 0 then none else some (g, id)

/-- The names of an image (R337). -/
def Seg.names (g : Seg) : List (Nat × Nat) :=
  (List.range 64).filterMap fun n => let id := g.nat (0x200 + 4 * n) 4; if id = 0 then none else some (n, id)

/-- The names are bound and their segments entered for recall; the segments of the tile carry the stamp of the task's
start. -/
def State.bindTemplate (s : State) (p : Nat) (k : Task) : State :=
  let image := k.image.bind (s.seg? p)
  let s := if image.isNone && wd k.tt 4 != 0 then s.logReads p ((List.range 32).map fun j => (wd k.tt 4).toNat + 8 * j) else s
  let names : List (Nat × Nat) := match image with
    | some g => (g.names).filter fun x => (s.seg? p x.2).isSome
    | none => s.template p k.tt
  if names.any (fun x => (s.seg? p x.2).isNone) then s.unitEnd p k (.faulted Cause.segu)
  else
    let ids := names.map (·.2)
    let touch (g : Seg) : Seg := if g.owner = k.tile then { g with touch := s.now } else g
    let s := ids.foldl (fun s id => s.modSeg p id fun g => touch (s.adopt p k.tile (some k.launch) g)) s
    let s := s.modCtx k.tile k.cx (·.mapRegs fun r => { r with segmap := bindMap names })
    s.modTask p k.id fun k => { k with bound := true, tmap := names, recalls := distinct ids }

/-- Every recall that fits has been applied (R241). -/
def State.recalled (s : State) (p : Nat) (k : Task) : Bool :=
  !(k.contexts.any fun x => s.guestsLeave p x.1) && k.recalls.all fun i => match s.seg? p i with
    | none => true
    | some g =>
      g.owner != k.tile || !g.absent || g.lost != 0 ||
        (g.place != .moving && g.evict.isNone && decide (s.budget k.tile (some k.launch) < s.use p k.tile (some k.launch) + g.charge))

/-- The row taskStart (R241, R318, R383). A task that has not started when its partition is suspended waits again (R336). -/
def execTaskStart (task : Nat) (s : State) : Host.Outcome State Fault Refusal :=
  .next (match s.parts.findSome? fun p => (p.2.tasks.find? fun k => k.id == task).map fun k => (p.1, k) with
    | none => s
    | some (p, k) =>
      if k.started then s
      else if (s.part p).suspended then
        s.unitEnd p k (.again { s.blockOf k with
          image := k.image, pass := k.image.map fun _ => k.pass, replay := k.replay, loop := k.restart, clock := k.clock })
      else if !k.bound then s.bindTemplate p k
      else match k.ready with
        | none => if s.recalled p k then s.modTask p task fun k => { k with ready := some (s.now + 1), recalls := [] } else s
        | some n => if s.now < n || s.ptime.toNat < k.notBefore then s else s.firstPass p k)

/-- A unit is placed (R313): its task, contexts and groups. -/
def State.placeTask (s : State) (p : Nat) (b : Block) (x : Spot) (tokens notBefore : Nat) : State :=
  match s.launch? p b.launch with
  | none => s
  | some l =>
    let (id, s) := s.next
    let w : Want := { launch := b.launch, tt := b.tt, lw := b.lw, timed := false }
    let k : Task :=
      { id := id, launch := b.launch, unit := x.1, tt := b.tt, lw := b.lw, tile := x.2.1, cx := x.2.2, span := spanOf b.lw
        tokens := tokens, dispatched := s.now, pass := b.pass.getD .prologue, passes := passesOf b.launch l.words b.tt b.lw
        quota := w.quota, banks := w.banks, rqdem := w.rqdem, notBefore := notBefore, order := b.order
        image := b.image, replay := b.replay, restart := b.loop, clock := b.clock }
    let s := s.modPart p fun y => { y with tasks := y.tasks ++ [k] }
    let s := s.modLaunch p b.launch fun l => { l with placed := l.placed ++ [(x.1, x.2.1)] }
    k.contexts.foldl (fun s y =>
      s.modTile y.1 fun t => (t.joinGroup b.launch w.quota).modCtx y.2 fun c =>
        { c with task := some id, asid := l.asid, clock := clockJoin l.base b.clock, life := if k.span = 1 then .starting else .idle }) s

/-- The units of a block that other modules run (R312): the record travels there with the units, together where one module
runs the whole block. -/
def State.sendUnits (s : State) (p : Nat) (l : Launch) (us : List Nat) : State :=
  if l.home.isSome then s
  else
    let dest (u : Nat) : Option Nat := (s.unitModule p l.words u).join
    let m0 := dest (us.headD 0)
    let send (s : State) (m u n : Nat) : State :=
      (s.sendOut ⟨68, 2048, m, p, l.id, u, l.asid + n * 2 ^ 16, l.words.flatMap fun w => natBytes 8 w.toNat⟩ l.base).modLaunch p l.id
        fun l => { l with away := if l.away.contains m then l.away else l.away ++ [m] }
    match m0 with
    | some m => if us.all fun u => dest u == m0 then send s m (us.headD 0) us.length
        else us.foldl (fun s u => match dest u with | some m => send s m u 1 | none => s) s
    | none => us.foldl (fun s u => match dest u with | some m => send s m u 1 | none => s) s

/-- Units that another module has sent to a partition wait here as a block of a record of their own (R312); where the
partition or the task type is absent they end as killed (log 33). A time-triggered one keeps its NBT (R318). -/
def State.farLaunch (s : State) (node p id unit count asid : Nat) (ws : List Dword) : State :=
  let (new, s) := s.next
  let l : Launch := ((s.part p).launches.find? fun l => l.home == some (node, id)).getD
    { id := new, words := ws, asid := asid, left := 0, base := s.abroad, joins := s.abroad, home := some (node, id) }
  let here := s.parts.any fun x => x.1 == p
  let s := if here then s.logReads p (s.typeReads p (wf ws 0 0 16)) else s
  match (if here then s.taskType p (wf ws 0 0 16) else Except.error 5) with
  | .error _ => s.sendOut ⟨71, 2048, node, p, id, unit, 2, natBytes 8 count⟩ s.abroad
  | .ok (tt, lw) =>
    let b : Block := { launch := l.id, unit := unit, count := count, tt := tt, lw := lw, tokens := wf ws 0 16 8, since := s.now
                       order := l.id }
    let l := { l with left := l.left + count }
    s.modPart p fun x => { x with
      launches := (x.launches.filter fun y => y.id != l.id) ++ [l]
      blocks := x.blocks ++ [b] }

/-- A unit sent to another module has ended there (R320), after all that this module has sent out (log 33). -/
def State.farEnd (s : State) (p id unit kind value : Nat) : State :=
  let n := if kind = 2 then value else 1
  let s := s.modLaunch p id fun l =>
    let l := { l with left := l.left - n, joins := clockJoin l.joins s.abroad }
    match kind with
    | 0 => { l with value := if unit = 0 then BitVec.ofNat 32 value else l.value }
    | 1 => { l.noteFault value with nfault := l.nfault + 1 }
    | _ => { l with nkill := l.nkill + n }
  (if kind = 1 then s.abort p id else s).finish p id

/-- The module that took a record ends its units here (R319). -/
def State.farAbort (s : State) (node p id : Nat) : State :=
  match (s.part p).launches.find? fun l => l.home == some (node, id) with
  | some l => (s.killRecord p l.id).finish p l.id
  | none => s

/-! ### Taking records (R306, R310) -/

/-- A record waits at a ring, or from SPAWN (number 64). -/
def State.recordAt (s : State) (p ring : Nat) : Bool :=
  let x := s.part p
  if ring < 64 then
    let r := rd x.rings ring {}
    r.en && r.head != r.tail && decide (x.held.length < 64)
  else match x.arrived with
    | [] => false
    | a :: _ => !(bit (wd a.2.2 0) 31) || decide (x.held.length < 64)

/-- The ring from which the next record is taken, and those still to be visited in the round (R306). -/
def State.takeTurn (s : State) (p : Nat) : Option (Nat × List Nat) :=
  let pick (l : List Nat) : Option (Nat × List Nat) :=
    match l.dropWhile fun r => !s.recordAt p r with
    | [] => none
    | r :: rest => some (r, if r = 64 then [64] else rest)
  (pick (s.part p).round).or (pick (List.range 65))

/-- Records are taken: no freeze (R371), suspension or scheduler update (R378) stops it. -/
def State.taking (s : State) (p : Nat) : Bool :=
  let x := s.part p
  !x.frozen && !x.suspended && s.ensign.update == .none && s.ensign.coreOn

/-- A record's words, address space and what happened before it, and the state without it. -/
def State.pullRecord (s : State) (p ring : Nat) : List Dword × Nat × Clock × State :=
  let x := s.part p
  if ring < 64 then
    let r := rd x.rings ring {}
    let words := s.gddr.dwords (r.base + 128 * r.head.toNat) 16
    let head := BitVec.ofNat 16 ((r.head.toNat + 1) % r.nrec.toNat)
    (words, r.asid, [], s.modPart p fun x => { x with rings := wr x.rings ring { r with head := head } })
  else match x.arrived with
    | [] => ([], 0, [], s)
    | (asid, op, ws) :: rest =>
      let clock := match s.eop? op with
        | some o => clockJoin o.clock [(o.agent, 1)]
        | none => []
      (ws, asid, clock, s.modPart p fun x => { x with arrived := rest })

/-- The row recordTake (R306, R310). -/
def execRecordTake (part ring : Nat) (s : State) : Host.Outcome State Fault Refusal :=
  .next (match s.takeTurn part with
    | none => s
    | some (r, round) =>
      if r ≠ ring || !s.taking part then s
      else
        let (ws, asid, clock, s) := s.pullRecord part ring
        let s := s.modPart part fun x => { x with round := round }
        let (id, s) := s.next
        let l : Launch := { id := id, words := ws, asid := asid, left := recUnits ws, base := clock, joins := clock }
        let s := s.logReads part (s.typeReads part (wf ws 0 0 16))
        match s.recordCheck part ws with
        | .error e => s.join part { l with rstat := e }
        | .ok (tt, lw) =>
          let c0 := levelCount ws 0
          let b : Block := { launch := id, unit := 0, count := c0, reps := recUnits ws / c0, tt := tt, lw := lw
                             tokens := wf ws 0 16 8, since := s.now, order := id }
          let s := s.modPart part fun x => { x with launches := x.launches ++ [l] }
          if bit (wd ws 0) 31 then s.modPart part fun x => { x with held := x.held ++ [b] }
          else s.modPart part fun x => { x with blocks := x.blocks ++ [b] })

/-! ### Who runs next (R314) -/

/-- Whether a block ranks above another. -/
def Block.above (a b : Block) : Bool :=
  if a.late != b.late then a.late
  else if a.late then decide (a.order < b.order)
  else if a.tokens ≠ b.tokens then decide (b.tokens < a.tokens)
  else if a.order ≠ b.order then decide (a.order < b.order)
  else decide (a.unit < b.unit)

def insertBlock (b : Block) : List Block → List Block
  | [] => [b]
  | a :: r => if b.above a then b :: a :: r else a :: insertBlock b r

def State.blockWant (s : State) (p : Nat) (b : Block) : Want :=
  { launch := b.launch, tt := b.tt, lw := b.lw, timed := ((s.launch? p b.launch).map fun l => bit (wd l.words 0) 31).getD false
    back := ((b.image.bind (s.seg? p)).map (·.imageBanks)).getD [] }

/-- A placement of the first of a block's level-0 blocks, with the tasks of `gone` away. -/
def State.blockSpots (s : State) (p : Nat) (b : Block) (gone : List Nat) : Option (List Spot) :=
  (s.launch? p b.launch).bind fun l =>
    let us := if l.home.isSome then (List.range b.count).map (b.unit + ·) else s.unitsHere p l.words b.unit b.count
    (s.placeBlock p l.words (s.blockWant p b) true l.placed (s.slots p gone) us).map (·.1)

/-! ### Pre-emption (R316, R317) -/

/-- Kernel passes not yet ended; a guessed-carry task counts rounds (R302, R317). -/
def State.passesLeft (s : State) (p : Nat) (k : Task) : Nat :=
  if isLoop k.lw then
    if k.pass = .epilogue then 0
    else
      let b := ((k.loop.bind (s.loop? p)).map (·.base)).getD ((k.restart.map (·.1)).getD 0)
      ceilDiv (wf k.lw 1 0 32 - b) (wf k.lw 2 5 3 + 1)
  else match k.pass with
    | .prologue => k.passes
    | .kernel n => k.passes - n
    | .epilogue => 0

/-- What is done with a victim (R317): 1 drain, 2 checkpoint, 3 kill. -/
def State.victimMark (s : State) (p : Nat) (k : Task) : Nat :=
  let left := s.passesLeft p k
  if wf k.tt 5 0 32 * left ≤ (s.part p).drainmax then 1
  else if bit (wd k.tt 5) 60 && decide (1 < left) then 2
  else if bit (wd k.tt 5) 61 then 3
  else 1

/-- Order of victims: lowest tokens, latest dispatch, highest tile, secondary first (R316). -/
def Task.before (a b : Task) : Bool :=
  if a.tokens ≠ b.tokens then decide (a.tokens < b.tokens)
  else if a.dispatched ≠ b.dispatched then decide (b.dispatched < a.dispatched)
  else if a.tile ≠ b.tile then decide (b.tile < a.tile)
  else decide (b.cx.num < a.cx.num)
def insertTask (x : Task) : List Task → List Task
  | [] => [x]
  | a :: r => if x.before a then x :: a :: r else a :: insertTask x r

/-- The victims of a head, when some set of candidates suffices. -/
def State.chooseVictims (s : State) (p : Nat) (b : Block) : List Task → List Task → List Nat → Option (List Task)
  | [], acc, gone => if (s.blockSpots p b gone).isSome then some acc else none
  | k :: r, acc, gone =>
    if (s.blockSpots p b gone).isSome then some acc else s.chooseVictims p b r (acc ++ [k]) (k.id :: gone)

/-- A victim is marked, and killed at once where R317 says so. -/
def State.markVictim (s : State) (p : Nat) (k : Task) : State :=
  let m := s.victimMark p k
  let s := s.modTask p k.id fun k => { k with mark := m }
  if m = 3 then
    let b := s.blockOf k
    let s := (s.discard p k).countEnd p k (.again b)
    s.modPart p fun x => { x with blocks := x.blocks ++ [b] }
  else s

/-- R316 applied to the head. -/
def State.preempt (s : State) (p : Nat) (b : Block) : State :=
  let ts := (s.part p).tasks
  let marked := (ts.filter fun k => k.mark != 0).map (·.id)
  let pmask (k : Task) : Bool := ((s.launch? p k.launch).map fun l => bit (wd l.words 0) (48 + b.tokens / 32 % 8)).getD false
  let cands := (ts.filter fun k => k.mark == 0 && decide (k.tokens + 8 ≤ b.tokens) && pmask k).foldl (fun acc k => insertTask k acc) []
  match s.chooseVictims p b cands [] marked with
  | none => s
  | some l => l.foldl (fun s k => s.markVictim p k) s

/-- A pass over the waiting blocks: the state; whether no block has failed yet, so that the next is the head; whether the
reserved clusters, or all of them, are closed until the head has been placed; and the blocks that go on waiting. -/
structure Scan where
  s : State
  head : Bool := true
  shut : Bool := false
  halt : Bool := false
  left : List Block := []

/-- A level-0 block is placed at some spots; one that another module has sent starts no earlier than its NBT. -/
def State.placeAt (s : State) (p : Nat) (b : Block) (spots : List Spot) : State :=
  let from_ := match s.launch? p b.launch with
    | some l => if l.home.isSome && bit (wd l.words 0) 31 then (wd l.words 3).toNat else 0
    | none => 0
  let s := spots.foldl (fun s x => s.placeTask p b x b.tokens from_) s
  match s.launch? p b.launch with
  | some l => s.sendUnits p l ((List.range b.count).map (b.unit + ·))
  | none => s

/-- Level-0 blocks go on waiting, as part of the blocks of their record before them where these wait alike. -/
def Scan.wait (z : Scan) (b : Block) : Scan :=
  match z.left.getLast? with
  | some a =>
    if a = { b with unit := a.unit, reps := a.reps } ∧ a.unit + a.count * a.reps = b.unit then
      { z with left := z.left.dropLast ++ [{ a with reps := a.reps + b.reps }] }
    else { z with left := z.left ++ [b] }
  | none => { z with left := [b] }

/-- One level-0 block in its turn (R314): placed if R313 allows it; the head after R316 where not. -/
def Scan.one (p : Nat) (b : Block) (z : Scan) : Scan :=
  let timed := (z.s.blockWant p b).timed
  if z.halt || z.shut && timed then z.wait b
  else match z.s.blockSpots p b [] with
    | some spots => { z with s := z.s.placeAt p b spots }
    | none =>
      if !z.head then z.wait b
      else
        let s := z.s.preempt p b
        match s.blockSpots p b [] with
        | some spots => { z with s := s.placeAt p b spots }
        | none =>
          let full := decide (255 ≤ b.tokens)
          { z with s := s, head := false, shut := full && timed, halt := full && !timed }.wait b

/-- Every context of a partition is taken, so that no further block can be placed. -/
def State.full (s : State) (p : Nat) : Bool := decide (2 * (s.tilesOf p).length ≤ (s.slots p []).length)

/-- The level-0 blocks of a waiting block, in rising unit index. -/
def Scan.reps (p : Nat) (b : Block) : Nat → Scan → Scan
  | 0, z => z
  | n + 1, z =>
    let here := { b with unit := b.unit + b.count * (b.reps - (n + 1)) }
    if z.halt || !z.head && z.s.full p then z.wait { here with reps := n + 1 }
    else Scan.reps p b n (z.one p { here with reps := 1 })

/-- The row dispatchStep (R314). -/
def execDispatchStep (part : Nat) (s : State) : Host.Outcome State Fault Refusal :=
  .next (
    let x := s.part part
    if x.frozen || x.suspended || !s.ensign.coreOn then s
    else
      let bs := x.blocks.foldl (fun acc b => insertBlock b acc) []
      let z : Scan := bs.foldl (fun (z : Scan) b => Scan.reps part b b.reps z) { s := s.modPart part fun x => { x with blocks := [] } }
      z.s.modPart part fun x => { x with blocks := z.left ++ x.blocks })

/-- A block has waited 65,536 reference cycles since it last gained a token (R314). -/
def Block.ages (b : Block) (now : Nat) : Bool := decide (b.tokens < 255) && decide (b.since + 65536 ≤ now)

def Block.age (now : Nat) (b : Block) : Block :=
  if b.ages now then { b with tokens := b.tokens + 1, since := b.since + 65536 } else b

/-- The row tokenAge (R314). -/
def execTokenAge (part : Nat) (s : State) : Host.Outcome State Fault Refusal :=
  .next (s.modPart part fun x => { x with blocks := x.blocks.map (Block.age s.now) })

/-! ### Time-triggered launch (R318) -/

/-- A held record has come to NBT - TTLEAD. -/
def State.timely (s : State) (p : Nat) (b : Block) : Bool :=
  match s.launch? p b.launch with
  | some l => decide ((wd l.words 3).toNat ≤ s.ptime.toNat + (s.part p).ttlead)
  | none => true

/-- The row ttPlace (R318): a record whose NBT has passed, during an update, takes its late path (R378). -/
def execTtPlace (part : Nat) (s : State) : Host.Outcome State Fault Refusal :=
  .next (match (s.part part).held.find? (s.timely part) with
    | none => s
    | some b =>
      if (s.part part).frozen || (s.part part).suspended || s.ensign.update != .none || !s.ensign.coreOn then s
      else
        let s := s.modPart part fun x => { x with held := x.held.filter fun y => y.launch != b.launch }
        match s.launch? part b.launch with
        | none => s
        | some l =>
          match (if (wd l.words 3).toNat < s.ptime.toNat then none else s.planAll part l.words (s.blockWant part b) true) with
          | some plan => plan.foldl (fun s x =>
              let s := x.2.foldl (fun s y => s.placeTask part b y b.tokens (wd l.words 3).toNat) s
              s.sendUnits part l ((List.range b.count).map (x.1 * b.count + ·))) s
          | none =>
            if bit (wd l.words 0) 32 then
              let s := s.modLaunch part l.id fun l => { l with rstat := 7 }
              s.modPart part fun x => { x with blocks := x.blocks ++ [{ b with tokens := 255, late := true }] }
            else s.complete part { l with rstat := 6 })

/-! ### Checkpoint and suspension (R317, R336, R338) -/

/-- A guessed-carry task is saved between two rounds (R302): version and base in the header, the carries at ci0 to
ci7, the round in the carry-outs. -/
def State.saveLoop (s : State) (p : Nat) (k : Task) (g : GLoop) : State :=
  match s.saveSegment p k.tile 0 with
  | none => (s.modTask p k.id fun k => { k with mark := 0, asked := 0 }).logEvent 0x336 k.tile
  | some (id, s) =>
  let s := s.writeImage p id ([⟨0, 8, 1 + g.base % 2 ^ 32 * 2 ^ 32⟩] ++ imgWords 0x180 (g.carries.take 8) ++ [⟨0x1C0, 8, g.round⟩] ++
    k.tmap.map fun x => ⟨0x200 + 4 * x.1, 4, x.2⟩)
  s.unitEnd p k (.again { s.blockOf k with image := some id, clock := s.roundClock g, loop := some (g.base, g.round, g.carries) })

/-- A loop between two rounds that is to be checkpointed; one that is suspended may stand before its first (R336). -/
def GLoop.atCheckpoint (g : GLoop) (k : Task) : Bool :=
  k.mark == 2 && g.phase == .size && (decide (0 < g.round) || k.asked == 2) && decide (g.base < g.trips)

/-- The row checkpoint (R317). -/
def execCheckpoint (tile : Nat) (cx : Cx) (s : State) : Host.Outcome State Fault Refusal :=
  .next (
    let p := s.partOf tile
    let c := s.ctx tile cx
    match c.task.bind (s.task? p) with
    | none => s
    | some k =>
      if k.mark ≠ 2 ∨ !k.started then s
      else match k.loop.bind (s.loop? p) with
        | some g => if g.atCheckpoint k && k.tile == tile then s.saveLoop p k g else s
        | none =>
          if c.life == .starting then
            (s.askOut p k 1).modCtx tile cx fun c => { c with life := .running }
          else s)

/-- The row suspend (R336): every context of the partition that runs is asked out; a loop leaves after its round
(R302); one between two passes or not yet started leaves before it issues. -/
def execSuspend (part : Nat) (s : State) : Host.Outcome State Fault Refusal :=
  .next (s.atFunction part <|
    let s := s.modPart part fun x => { x with suspended := true }
    (s.part part).tasks.foldl (fun s k =>
      if k.loop.isSome then s.modTask part k.id fun k => { k with mark := 2, asked := 2 }
      else if k.started && (s.ctx k.tile k.cx).life == .running && k.asked == 0 then s.askOut part k 2
      else s) s)

/-! ### Rounds (R289, R294) -/

/-- The fault of a deferred effect that has reached a context of the loop. -/
def State.loopFault (s : State) (g : GLoop) : Option Nat :=
  g.fault.or (g.allTiles.findSome? fun t =>
    let c := s.ctx t .p
    if c.lane.any (fun l => l.loop == g.id) then c.faults.head?.map (·.cause) else none)

/-- The loop has ended (R294): its marks, then the epilogue or the end of the task. -/
def State.loopEnd (s : State) (p : Nat) (k : Task) (g : GLoop) : State :=
  let s := g.handles.foldl (fun s h => s.kSetMark p (hIndex h) (s.kLen p (hIndex h))) s
  let word := g.result &&& 0x7FFFFFFFFFFFFFFF#64
  if wd k.tt 2 = 0 then s.unitEnd p k (.normal word)
  else
    let s := g.allTiles.foldl (fun s t => s.modCtx t .p fun c => { c with lane := none }) s
    let s := s.modPart p fun x => { x with loops := x.loops.filter fun y => y.id != g.id }
    let s := s.modTask p k.id fun k => { k with loop := none }
    s.startPass p k .epilogue .running

/-- The row roundSize (R289, R291, R293 step 5, R294). -/
def execRoundSize (task : Nat) (s : State) : Host.Outcome State Fault Refusal :=
  .next (match s.loopOf task with
    | none => s
    | some (p, g) =>
      match s.task? p task with
      | none => s
      | some k =>
        if !(g.phase == .size || g.phase == .wait && s.roundQuiet g) || g.atCheckpoint k then s
        else
          let s := if g.phase == .wait then s.clearLanes p g g.allTiles else s
          let s := s.modLoop p g.id fun g => { g with phase := .size, clock := s.roundClock g }
          match s.loopFault g with
          | some c => s.unitEnd p k (.faulted c)
          | none =>
            let n := min g.lanes (g.trips - g.base)
            if n = 0 then s.loopEnd p k g
            else if g.phase == .wait && k.mark == 2 && decide (0 < g.round) then s
            else
              let t0 := g.cluster * 8
              let next : RoundPhase := if 2 ≤ n && g.guess != 0 then .guess else .seal
              let s := s.modLoop p g.id fun g => { g with phase := next, n := n, posts := [] }
              if next = .guess then
                let asid := ((s.launch? p k.launch).map (·.asid)).getD 0
                let g' := (s.loop? p g.id).getD g
                s.startLane t0 g' k asid 0 true k.tmap [] ((List.range 8).map (g'.carryIn 0))
              else s)

end Sys2Proof.Machine
end

