-- ==== Sys2Proof/Machine/System.lean ====
section
/-! DEFINITION. System registers (01 R12, R13, R22 to R26; 04 R93, R94; 08 R185) and the engine-queue registers
(16 R332, R339, R340). -/

namespace Sys2Proof.Machine

/-! ### Engine queues as registers (R339, R340) -/

/-- The E operations of a context's queue, oldest first. POSTR is no entry of it (log 30). -/
def State.eQueue (s : State) (t : Nat) (cx : Cx) : List EOp :=
  s.eops.filter fun o => o.tile == t && o.cx == cx && !o.orphan && decide (o.stage < 4) && decide (o.op < 12)

/-- The sequence operations of a tile: run slot, wait slot. -/
def Tile.seqQueue (t : Tile) : List SeqOp := t.seqRun.toList ++ t.seqWait.toList

/-- The words of an E entry. -/
def EOp.words (o : EOp) : List Dword :=
  BitVec.ofNat 64 (o.op + o.df * 2 ^ 6 + o.cx.num * 2 ^ 12 + min o.stage 2 * 2 ^ 14 + o.packet.length * 2 ^ 16) :: o.packet

/-- The words of a sequence entry; word 6 is the step with which it begins, or that it has reached, `mestep` being the
register that an entry which brings none of its own takes at its grant (R190). -/
def SeqOp.words (o : SeqOp) (mestep : Nat) : List Dword :=
  let st := if o.stop then 3 else if o.grant.isSome then 2 else 0
  BitVec.ofNat 64 (o.op + o.cx.num * 2 ^ 12 + b2n o.report * 2 ^ 13 + st * 2 ^ 14 + 6 * 2 ^ 16) ::
    (o.image ++ [BitVec.ofNat 64 (if o.grant.isSome then o.step else if o.op % 2 = 1 ∧ o.op < 0x18 then o.start.getD mestep else 0)])

/-- The entries of the queue that EQSEL selects. -/
def State.eqEntries (s : State) (t : Nat) : List (List Dword) :=
  match (fld (s.tile t).eqsel 0 2).toNat with
  | 0 => (s.tile t).seqQueue.map fun o => o.words (s.ctx t o.cx).regs.mestep.toNat
  | 1 => (s.eQueue t .p).map (·.words)
  | 2 => (s.eQueue t .s).map (·.words)
  | _ => []

/-- EQSEL.ERR. -/
def State.eqErr (s : State) (t : Nat) (e : Bool) : State :=
  s.modTile t fun x => { x with eqsel := if e then x.eqsel ||| 0x80000#20 else x.eqsel &&& 0x7FFFF#20 }

/-- A counter that falls in step 2 of the next core cycle (R340): the place of a removed operation. -/
def State.owedCount (s : State) (t : Nat) (cx : Cx) (op : Nat) : State :=
  let (id, s) := s.next
  { s with eops := s.eops ++ [{ id := id, tile := t, cx := cx, op := op, df := 0, packet := [], asid := 0, stage := 4, slot := 0,
                                next := s.now + 1, agent := id, order := id }] }

/-- The remove command (R340). -/
def State.eqRemove (s : State) (t : Nat) : State :=
  let x := s.tile t
  let k := (fld x.eqsel 8 5).toNat
  let eRem (cx : Cx) : State := match (s.eQueue t cx)[k]? with
    | some o => if o.removable then ((s.eRemove o).owedCount t cx 0).eqErr t false else s.eqErr t true
    | none => s.eqErr t true
  match (fld x.eqsel 0 2).toNat with
  | 1 => eRem .p
  | 2 => eRem .s
  | 0 =>
    match x.seqQueue[k]? with
    | none => s.eqErr t true
    | some o =>
      if o.grant.isSome || o.stop then s.eqErr t true
      else
        let q := x.seqQueue.filter fun y => y.id != o.id
        let s := s.modTile t fun x => { x with seqRun := q.head?, seqWait := (q.drop 1).head? }
        let s := s.modCluster (clusterOf t) fun c => { c with reqs := c.reqs.filter fun r => !(r.kind == 1 && r.op == o.id) }
        ((s.owedCount t o.cx 65).seqAsk t s.now).eqErr t false
  | _ => s.eqErr t true

/-- The slot word that a deferred operation keeps: class E, opcode and D field (R213). -/
def eWord (op df : Nat) : Word := BitVec.ofNat 32 (df * 2 ^ 12 + op * 2 ^ 21 + 10 * 2 ^ 27)

/-- The submit command (R340): the staged entry is checked as at a slot of CTX, whose own names it uses; a speculative lane
holds what R296 has it hold. -/
def State.eqSubmit (s : State) (t : Nat) : State :=
  let x := s.tile t
  let cx : Cx := if bit x.eqsel 18 then .s else .p
  let w0 := rd x.staging 0 0
  let op := (fld w0 0 6).toNat
  let ws := (List.range 7).map fun k => rd x.staging (k + 1) 0
  let user := s.modCtx t cx fun c => { c with frame := { c.frame with mode := false } }
  let c := s.ctx t cx
  if op < 12 && op != 6 then
    let pk : Packet := ⟨op, (fld w0 6 6).toNat, ws.take (packetWords op), none⟩
    match user.eCheck t cx pk (if pk.hasLocal then user.binding t cx pk.df else none) with
    | .error _ => s.eqErr t true
    | .ok (loc, tgt) =>
      let s := match c.lane.filter fun l => l.spec && deferred op with
        | some l => s.modLane l fun l =>
            { l with deferred := l.deferred ++ [(⟨t, eWord op pk.df, pk.w, (loc.map fun g : Seg => g.id).getD 0, none⟩ : Deferred)] }
        | none => s.eSubmit t cx 0 pk loc tgt (c.releases t cx) c.tick
      s.eqErr t false
  else if 16 ≤ op ∧ op < 26 then
    match user.sqCheck t cx op (ws.take 5) with
    | .error _ => s.eqErr t true
    | .ok xs => ((s.seqPut t cx 0 op (ws.take 5) (bit w0 13) xs c.tick (some (fld (ws.getD 5 0) 0 7).toNat)).seqAsk t s.now).eqErr t false
  else s.eqErr t true

/-- The command of a write of EQSEL (R339). -/
def State.eqCommand (s : State) (t : Nat) (v : Dword) : State :=
  match (fld v 16 2).toNat with
  | 1 => s.eqRemove t
  | 2 => s.eqSubmit t
  | _ => s

/-- The row eqRemove. -/
def execEqRemove (tile : Nat) (s : State) : Host.Outcome State Fault Refusal := .next (s.eqRemove tile)
/-- The row eqSubmit. -/
def execEqSubmit (tile : Nat) (s : State) : Host.Outcome State Fault Refusal := .next (s.eqSubmit tile)
/-- The row ilimWrite (R74). -/
def execIlimWrite (tile : Nat) (v : BitVec 64) (s : State) : Host.Outcome State Fault Refusal :=
  .next (s.modTile tile fun x => { x with ilim := ilimOf v })
/-- The row rbClear (R332). -/
def execRbClear (tile : Nat) (cx : Cx) (s : State) : Host.Outcome State Fault Refusal := .next (s.modCtx tile cx (·.clearReplay))
/-- The row rbdataWrite (R332). -/
def execRbdataWrite (tile : Nat) (cx : Cx) (v : BitVec 64) (s : State) : Host.Outcome State Fault Refusal :=
  .next (s.modCtx tile cx (·.rbWrite v))

/-! ### Access (R12, R13, R22) -/

/-- Registers that only supervisor code reads. -/
def supRead (n : Nat) : Bool :=
  n == 2 || decide (0x10 ≤ n) && decide (n ≤ 0x17) || decide (0x200 ≤ n) && decide (n ≤ 0x202) || decide (0x210 ≤ n) && decide (n ≤ 0x212)

/-- Registers that no SWR writes. -/
def readOnly (n : Nat) : Bool := [0, 1, 3, 4, 5, 7, 8, 0x33, 0x40, 0x50, 0x51, 0x202, 0x212].contains n

/-- Registers of the sequence engine that raise EBUSY while om > 0 (R22, R185). -/
def seqRegister (n : Nat) : Bool := n == 0x30 || n == 0x31 || decide (0x100 ≤ n) && decide (n < 0x140)

/-- ESTAT (R25). -/
def Frame.estat (f : Frame) : Dword :=
  BitVec.ofNat 64 (b2n f.mode + b2n f.pmode * 2 + b2n f.ie * 4 + b2n f.ctx * 8 + f.ds.toNat * 16 + f.dleft.toNat * 64 +
    b2n f.anul * 256 + b2n f.frozen * 512)

/-- The value of a system register (R22). CYC counts the bundle in progress (R93). -/
def State.sysRead (s : State) (t : Nat) (cx : Cx) (n : Nat) : Dword :=
  let x := s.tile t
  let c := s.ctx t cx
  let r := c.regs
  let f := c.frame
  let lp (k : Nat) : List Dword := (rd r.loops k {}).words
  if 0x100 ≤ n ∧ n < 0x140 then (rd r.perm (n - 0x100) 0).setWidth 64
  else match n with
  | 0x000 => r.cyc + BitVec.ofNat 64 (b2n s.issue.isSome)
  | 0x001 => r.frzc
  | 0x002 => x.ilim.setWidth 64
  | 0x003 => BitVec.ofNat 64 t
  | 0x004 => BitVec.ofNat 64 cx.num
  | 0x005 => s.caps
  | 0x006 => r.fpst.setWidth 64
  | 0x007 => BitVec.ofNat 64 (s.partOf t)
  | 0x008 => s.modid.setWidth 64
  | 0x010 => f.cause.setWidth 64
  | 0x011 => f.epc
  | 0x012 => f.einfo
  | 0x013 => f.estat
  | 0x014 => x.evec
  | 0x015 => f.escr
  | 0x016 => f.edt0
  | 0x017 => f.edt1
  | 0x020 => (lp 0).getD 0 0
  | 0x021 => (lp 0).getD 1 0
  | 0x022 => (lp 0).getD 2 0
  | 0x023 => (lp 1).getD 0 0
  | 0x024 => (lp 1).getD 1 0
  | 0x025 => (lp 1).getD 2 0
  | 0x030 => r.grow.setWidth 64
  | 0x031 => r.mestep.setWidth 64
  | 0x032 => r.meflags.setWidth 64
  | 0x033 => r.mestat
  | 0x040 => s.ptime
  | 0x050 => s.spst t cx
  | 0x051 => s.sprnd t cx
  | 0x060 => x.flate
  | 0x200 => x.eqsel.setWidth 64
  | 0x201 => ((s.eqEntries t).getD (fld x.eqsel 8 5).toNat []).getD (fld x.eqsel 13 3).toNat 0
  | 0x202 => BitVec.ofNat 64 (s.eqEntries t).length
  | 0x210 => c.rbsel.setWidth 64
  | 0x211 => c.rbRead
  | 0x212 => BitVec.ofNat 64 c.rbCount
  | _ => 0

/-- The fault of an SRD or SWR: PRIV (R13, R330), EBUSY (R22, R185); `om` is the counter before its bundle (R40, R93). -/
def Ctx.sysFault (c : Ctx) (om : BitVec 2) (n : Nat) (write : Bool) : Option (Nat × Dword) :=
  if write && readOnly n || supRead n && !c.frame.mode then some (Cause.priv, BitVec.ofNat 64 (n % 4096))
  else if seqRegister n && om != 0 then some (Cause.ebusy, BitVec.ofNat 64 (n % 4096 + b2n write * 4096))
  else none

/-- SRD (R93). -/
def execSrd (gd : BitVec 3) (d : BitVec 6) (i : BitVec 12) (s : State) : Host.Outcome State Fault Refusal :=
  runSlot gd [] (fun h _ s =>
    match s.cur.sysFault s.omBefore i.toNat false with
    | some e => s.raise h e.1 e.2
    | none => s.pushS h d 2 (s.sysRead s.here.1 s.here.2 i.toNat)) s

/-- SWR (R94). -/
def execSwr (gd : BitVec 3) (a : BitVec 6) (i : BitVec 12) (s : State) : Host.Outcome State Fault Refusal :=
  runSlot gd [srcS a] (fun h o s =>
    match s.cur.sysFault s.omBefore i.toNat true with
    | some e => s.raise h e.1 e.2
    | none => s.push h 1 (.sys i.toNat o.s0)) s

/-! ### What a landing sets off (R183, R340) -/

/-- The commands that have landed with the results of a context. -/
def State.lateCommands (s : State) (t : Nat) (cx : Cx) (l : List (Nat × Dword)) : State :=
  l.foldl (fun s x =>
    if x.1 = 0x200 then s.eqCommand t x.2
    else if bit x.2 1 then s.seqStop t cx
    else s) s

end Sys2Proof.Machine
end

