-- ==== Sys2Proof/Machine/Reliab.lean ====
section
/-! DEFINITION. Buffer phases, rollback and spares (18 R357 to R364), the scrub (R365) and GDDR-7 repair (R366). -/

namespace Sys2Proof.Machine

/-! ### The phase commit (R357, R358) -/

/-- The destinations that a result in flight may have at a commit (R357). -/
def Payload.commits : Payload → Bool
  | .scalar _ _ | .pred _ _ | .mask _ _ | .maskBit _ _ _ | .select _ | .window _ _ _ | .loop _ _ _ _ _ | .sys _ _ | .me _ _
  | .check _ | .status => true
  | _ => false

/-- The conditions of R357. -/
def Tile.commits (t : Tile) (cx : Cx) : Bool :=
  let c := t.ctx cx
  let r := c.regs
  r.vq.toList.all (·.isEmpty) && (rd r.sq 28 []).isEmpty && r.vld.isEmpty && r.kld.isEmpty &&
  c.inflight.all (fun x => x.pay.commits) && decide ((c.inflight.filter fun x => !x.pay.isCheck).length ≤ 32) &&
  t.banksHeld cx == 0 && c.om == 0

/-- The snapshot of a commit (R358), with NEXTPC the position that issues next; `k` is the context's task. -/
def Ctx.snapshot (c : Ctx) (tick made : Nat) (k : Option Task) : Snapshot where
  regs := c.regs
  pos := c.pos
  frame := c.frame
  inflight := c.inflight.filter fun x => !x.pay.isCheck
  log := if c.phase.copyIns.length ≤ 28 then some c.phase.copyIns else none
  tick := tick
  made := made
  pass := k.map (·.pass)
  next := (k.map fun k => k.nextIndex).getD 0

/-- The layout in which the phase area of a tile holds a snapshot (R358): the primary's from byte 0, the secondary's from byte
0x1000 of frames 32736 on. No program access reaches the area. -/
def Snapshot.area (x : Snapshot) (cx : Cx) : List ImgField :=
  (imageFront x.regs x.frame 0 0 x.next x.pos.pc ++
  (x.inflight.take 32).zipIdx.flatMap (fun r =>
    let e := r.1.toEntry
    imgWords (0xA80 + 16 * r.2) [e.desc, e.data.getD 0 0]) ++
  ((x.log.getD []).zipIdx.flatMap fun e => imgWords (0xC80 + 32 * e.2) (e.1.word.setWidth 64 :: e.1.packet))).map fun f =>
    { f with at_ := f.at_ + 0x1000 * cx.num }

/-- The commit that the SPUBP of bundle `tick` marks, or the log's entry that it marks none (R357). -/
def State.phaseCommit (s : State) (t : Nat) (cx : Cx) (tick : Nat) : State :=
  if (s.tile t).commits cx then
    let k := (s.ctx t cx).task.bind (s.task? (s.partOf t))
    s.modCtx t cx fun c =>
      let x := c.snapshot tick s.fresh k
      { c with phase := { snap := some x, unrepairable := x.log.isNone } }
  else s.logEvent 0x357 (t * 2 + cx.num)

/-- The escapes of R359, by a slot whose guard is true. -/
def SlotRec.escapes (h : SlotRec) : Bool :=
  match slotClass h.word, slotOp h.word with
  | 10, o => decide (2 ≤ o)
  | 8, o => decide (24 ≤ o) && decide (o < 30)
  | 9, o => o == 4 || o == 6 || o == 7
  | 11, o => o == 0 && h.immU 12 (fld h.word 0 12).toNat != 0 || decide (1 ≤ o) && decide (o < 4)
  | _, _ => false

def Ctx.escape (c : Ctx) : Ctx := { c with phase := { c.phase with unrepairable := true } }

def Phase.repairable (p : Phase) : Bool := p.snap.isSome && !p.unrepairable

/-! ### Rollback (R361) -/

/-- Segments of the module that hold a shadow of a set. -/
def State.dropShadows (s : State) (p : Nat) (ids : List Nat) : State :=
  let drop_ (g : Seg) : Seg := if (g.shadow.map fun h => ids.contains h.id) = some true then { g with shadow := none } else g
  s.modPart p fun x => { x with dir := x.dir.map drop_ }

/-- A logged copy-in is performed again (R361 step 5), under the names of the commit: into the shadow that was open then, or
into the front version. One whose shadow has gone since has nothing to write (DEDUCED, log 51). -/
def State.redoCopyIn (s : State) (p t asid : Nat) (r : Regs) (e : CopyIn) : State :=
  let x : Packet := ⟨slotOp e.word, (fld e.word 12 6).toNat, e.packet, none⟩
  match (rd r.segmap x.df none).bind fun id => s.seg? p id.toNat with
  | none => s
  | some g =>
    let bs := s.vbytes p (clusterOf t) asid 0 x.va x.len
    let pieces (f : Nat → List Byte → Shadow → Shadow) (h : Shadow) : Shadow :=
      (List.range (x.len / 64 + 1)).foldl (fun h k => let b := (bs.drop (64 * k)).take 64; if b.isEmpty then h else f (x.dst + 64 * k) b h) h
    match e.shadow, g.shadow with
    | none, _ => s.putBytes p { g with bytes := g.bytes.store x.dst bs }
    | some k, some h => if h.id = k then s.putSeg p { g with shadow := some (pieces (fun a b h => h.put a b) h) } else s
    | some _, none => s

/-- Operations of the phase that have not been granted go; they are issued again. -/
def State.dropPhaseOps (s : State) (t : Nat) (cx : Cx) (tick : Nat) : State :=
  let gone := s.eops.filter fun o => o.tile == t && o.cx == cx && !o.orphan && o.removable && decide (tick < o.after)
  let s := gone.foldl (fun s o => s.eRemove o) s
  s.modCtx t cx fun c => { c with oc := c.oc - BitVec.ofNat 6 gone.length }

/-- The frame after a rollback (R358, R361): the fields that the image layout holds up to offset 0x0A7F. The mode and IE are
those in which the bundle at NEXTPC followed the commit (DEDUCED, log 51). -/
def Frame.rolled (f x : Frame) : Frame :=
  { f with ds := x.ds, dleft := x.dleft, anul := x.anul, frozen := x.frozen, edt0 := x.edt0, edt1 := x.edt1, mode := x.mode, ie := x.ie }

/-- The context as its snapshot has it (R361 step 6), with its failures counted. A fault found since the commit goes with the
phase (R367); one of an operation issued before it is still due. -/
def Ctx.restore (c : Ctx) (x : Snapshot) : Ctx :=
  let c := c.uncount c.replay
  let still := c.delayed.filter fun d => x.inflight.any fun r => r.await == some d.id
  let stores := (c.delayed.filter fun d => d.cap.isStore).length
  { c with
    regs := x.regs, pos := { x.pos with entry := false }, frame := c.frame.rolled x.frame, inflight := x.inflight, replay := []
    checks := [], remake := [], wait := none, delayed := still, divA := 0, divB := 0, life := .running
    faults := (c.kept ++ c.faults).filter fun f => decide (f.order < x.made), kept := []
    os := c.os - BitVec.ofNat 8 stores
    ol := BitVec.ofNat 8 (x.inflight.filter (·.ol)).length
    phase := { c.phase with failures := c.phase.failures + 1, copyIns := [], opened := [], rolling := false } }

/-- Steps 1, 2 and 4 of R361: the context freezes, its operations that are not granted go and its sequence operation ends as
for a kill, and its shadows are discarded. -/
def State.rollStart (s : State) (t : Nat) (cx : Cx) (x : Snapshot) : State :=
  let p := s.partOf t
  let c := s.ctx t cx
  let s : State := (s.seqKill t cx).withdraw t cx (some 0)
  let s := (s.unpin p c.held).modCtx t cx fun c => { c with held := [], om := 0, phase := { c.phase with rolling := true } }
  (s.dropPhaseOps t cx x.tick).dropShadows p c.phase.opened

/-- Steps 2 and 3 of R361 are over: the context's sequence operation has ended, and its granted E operations have
completed. -/
def State.rollReady (s : State) (t : Nat) (cx : Cx) : Bool :=
  !((s.tile t).seqRun.any fun o => o.cx == cx) &&
  !(s.eops.any fun o => o.tile == t && o.cx == cx && !o.orphan && (o.stage == 2 || o.stage == 3) && decide (o.op < 12))

/-- Steps 5 to 7 of R361. -/
def State.rollbackTo (s : State) (t : Nat) (cx : Cx) (x : Snapshot) : State :=
  let asid := (s.ctx t cx).asid
  let s := (x.log.getD []).foldl (fun s e => s.redoCopyIn (s.partOf t) t asid x.regs e) s
  let s := match (s.ctx t cx).task, x.pass with
    | some k, some q => s.modTask (s.partOf t) k fun k => { k with pass := q }
    | _, _ => s
  (s.modCtx t cx (·.restore x)).logEvent 0x361 (t * 2 + cx.num)

/-! ### Spares (R363, R364) -/

/-- Physical tiles of a die that pass their tests. -/
def Ensign.working (e : Ensign) (die : Nat) : List Nat := (List.range 272).filter fun k => !e.broken.contains (272 * die + k)

/-- The die of a virtual tile: coordinates are dense over the dies (R364). -/
def Ensign.dieOf (e : Ensign) (t : Nat) : Nat :=
  ((List.range 8).foldl (fun (a : Nat × Nat) d =>
    let n := min 256 (e.working d).length
    if a.1 < n then a else if a.2 = d then (a.1 - n, d + 1) else a) (t, 0)).2

/-- The other context of a tile that fails is moved with it (R363): checkpointed or killed under R317. -/
def State.moveOther (s : State) (p : Nat) (k : Task) : State :=
  if bit (wd k.tt 5) 60 && decide (1 < s.passesLeft p k) then s.modTask p k.id fun k => { k with mark := 2 }
  else if bit (wd k.tt 5) 61 then
    let b := s.blockOf k
    let s := (s.discard p k).countEnd p k (.again b)
    s.modPart p fun x => { x with blocks := x.blocks ++ [b] }
  else (s.killUnit p k).finish p k.launch

/-- A segment in the store of a tile that has failed (R363): pushed to backing where it can be read, which is free. Of one that
cannot, a lateral copy is replaced by the backing copy, or lost with WHY 3 of R250 where there is none (ZERO = 1); a resident
one is lost with WHY 2 (DESIGN CHOICE, log 52). -/
def State.saveSeg (s : State) (p : Nat) (g : Seg) (guest : Bool) : State :=
  let (w, s) := s.freeWord
  let back (g : Seg) : Seg := { g with place := .backed, evict := none }
  if !bit w 0 then (s.modSeg p g.id fun g => { back g with zero := false, bad := false }).writeBack p g
  else if guest && !g.zero then
    let bs := Memory.store [] 0 (s.partBytes p ((s.part p).backAddr g) g.bytesLen)
    s.modSeg p g.id fun g => { back g with bytes := bs }
  else s.modSeg p g.id fun g => { back g with lost := if guest then 3 else 2 }

/-- A third failure (R363): the coordinate moves to a spare, or the task ends and the tile is retired. -/
def State.moveTile (s : State) (t : Nat) (cx : Cx) : State :=
  let p := s.partOf t
  let e := s.ensign
  let die := e.dieOf t
  let left := rd e.spares die 0
  if left = 0 then (s.mchk t cx 3 0).modTile t fun x => { x with retired := true }
  else
    let w := e.working die
    let s := { s with ensign := { e with spares := wr e.spares die (left - 1) } }
    let s := s.logEvent 0x363 t
    let s := s.modTile t fun x => { x with phys := some (w.getD (w.length - left) 0) }
    let going := ((s.tile t).move.map (·.seg)).toList
    let s := ((s.part p).dir.filter fun g => g.holder == some t || going.contains g.id).foldl
      (fun s g => s.saveSeg p g (g.place == .lateral)) s
    let s := s.modTile t fun x => { x with move := none }
    match (s.ctx t cx.other).task.bind (s.task? p) with
    | some k => s.moveOther p k
    | none => s

/-- The last steps of a rollback, with what its third failure brings (R361, R363). -/
def State.rollEnd (s : State) (t : Nat) (cx : Cx) (x : Snapshot) : State :=
  let s := s.rollbackTo t cx x
  if 3 ≤ (s.ctx t cx).phase.failures then
    (s.modCtx t cx fun c => { c with phase := { c.phase with failures := 0 } }).moveTile t cx
  else s

/-- A rollback (R361): it ends at once where no operation has to complete first. -/
def State.rollback (s : State) (t : Nat) (cx : Cx) (x : Snapshot) : State :=
  let s := s.rollStart t cx x
  if s.rollReady t cx then s.rollEnd t cx x else s

/-- The row rollback (R360): a consumed error that correction has not repaired, in the task of a context or in an operation
that its END waits for; or the end of a rollback that has waited for its operations. -/
def execRollback (tile : Nat) (cx : Cx) (s : State) : Host.Outcome State Fault Refusal :=
  .next (
    let c := s.ctx tile cx
    let lives := match c.life with
      | .running | .ended _ => true
      | _ => c.phase.rolling
    if c.task.isNone || !lives then s
    else match (if c.phase.repairable then c.phase.snap else none) with
      | some x =>
        if c.phase.rolling then (if s.rollReady tile cx then s.rollEnd tile cx x else s) else s.rollback tile cx x
      | none => match c.lane.filter (·.spec) with
        | some l => s.poisonLane l Cause.mchk tile
        | none => s.mchk tile cx 1 0)

/-! ### GDDR-7 repair (R365, R366) -/

/-- A row is entered for post-package repair: up to 256, the others are logged. -/
def State.repairRow (s : State) (row : Nat) : State :=
  if s.ensign.rows.length < 256 then ({ s with ensign := { s.ensign with rows := s.ensign.rows ++ [row] } } : State).logEvent 0x366 row
  else s.logEvent 0x1366 row

/-- The row scrub (R365): what correction repairs is as it was, and the event is logged (R367). What the controller has found in
GDDR-7 since the last is free (log 29): a row with an error is entered for repair, and an error beyond repair in a backing copy
waits for its reader (R250). -/
def execScrub (s : State) : Host.Outcome State Fault Refusal :=
  .next (
    let (w, s) := (s.logEvent 0x365 0).freeWord
    let (row, s) := s.freeWord
    let s := if bit w 63 then s.repairRow row.toNat else s
    let p := (fld w 0 16).toNat
    if bit w 62 then s.atFunction p (s.modSeg p (fld w 16 32).toNat fun g => { g with bad := true }) else s)

/-- The partition's range shrinks by 1 GiB for the first of its drops, and its contexts come back after the last (R366). -/
def State.dropDone (s : State) (p : Nat) : State :=
  let x := s.part p
  let n := (fld s.caps 16 9) - 1
  let s := { s with caps := (s.caps &&& ~~~0x1FF0000#64) ||| (n.setWidth 64 <<< 16) }
  let rest := x.drops.drop 1
  (s.modPart p fun x => { x with drops := rest, dropping := !rest.isEmpty, suspended := !rest.isEmpty, len := x.len - 2 ^ 30 }).logEvent
    0x2366 (x.drops.headD 0)

/-- The row pseudoChannelDrop (R366). A drop first suspends the partition; once no context of it runs, its range
shrinks by 1 GiB and its contexts come back. Further drops of the partition wait for the one in progress; one that would leave
it no range is refused. -/
def execPseudoChannelDrop (part idx : Nat) (s : State) : Host.Outcome State Fault Refusal :=
  .next (
    let x := s.part part
    if x.dropping && x.drops.head? == some idx then (if x.tasks.isEmpty then s.dropDone part else s)
    else if !s.ensign.repairDrop || decide (x.len ≤ 2 ^ 30 * (x.drops.length + 1)) then s.repairRow idx
    else
      let s := (s.modPart part fun x => { x with dropping := true, drops := x.drops ++ [idx] }).logEvent 0x366 idx
      if x.dropping then s
      else match execSuspend part s with
        | .next s => s
        | _ => s)

end Sys2Proof.Machine
end

