-- ==== Sys2Proof/Machine/Mgmt.lean ====
section
/-! DEFINITION. The control window (15 R305, R306; 17 R345, R352, R353; 19 R368, R369), watchdogs and partition actions
(R370, R371), Pennant links (R373), the Ensign controller (R375 to R381) and the interrupt sources of R330. -/

namespace Sys2Proof.Machine

def State.modEnsign (s : State) (f : Ensign → Ensign) : State := { s with ensign := f s.ensign }
/-- An answer over the management port or the host port. -/
def State.answer (s : State) (kind : Nat) (bs : List Byte) : State :=
  s.modEnsign fun e => { e with answers := e.answers ++ [(kind, bs)] }
/-- An answer whose bytes the spec leaves open (log 9). -/
def State.freeAnswer (s : State) (kind : Nat) : State :=
  State.answer { s with free := s.free + 1 } kind (Config.freeBytes s.free)

/-! ### Launch rings (R305, R306) -/

def State.ring (s : State) (p n : Nat) : Ring := rd (s.part p).rings n {}
def State.putRing (s : State) (p n : Nat) (r : Ring) : State := s.modPart p fun x => { x with rings := wr x.rings n r }

/-- Whether a ring may not be enabled (R306). -/
def Ring.refused (r : Ring) (lo len : Nat) : Bool :=
  r.nrec == 0 || decide (r.nrec ≤ r.tail) || !(decide (lo ≤ r.base) && decide (r.base + 128 * r.nrec.toNat ≤ lo + len))

/-- A write of RBASEn (R305, R306). -/
def Ring.writeBase (r : Ring) (lo len : Nat) (v : Dword) : Ring :=
  if r.en then (if bit v 0 then r else { r with en := false })
  else
    let r := { r with base := v.toNat / 128 * 128 }
    if !bit v 0 then r
    else if r.refused lo len then { r with err := true }
    else { r with en := true, err := false }

/-- A write of RCTLn (R305, R306). -/
def Ring.writeCtl (r : Ring) (v : Dword) : Ring :=
  let r := if r.en then r else { r with nrec := fld v 0 16 }
  if fld v 32 16 < r.nrec then { r with tail := fld v 32 16 } else r

/-- The row ringEnable: a write of RBASEn. -/
def execRingEnable (part ring : Nat) (v : BitVec 64) (s : State) : Host.Outcome State Fault Refusal :=
  .next (s.atFunction part (s.putRing part ring ((s.ring part ring).writeBase (s.part part).lo (s.part part).len v)))

/-- The row tailWrite: a write of RCTLn. -/
def execTailWrite (part ring : Nat) (v : BitVec 64) (s : State) : Host.Outcome State Fault Refusal :=
  .next (s.atFunction part (s.putRing part ring ((s.ring part ring).writeCtl v)))

/-! ### Doorbell and watchdog (R369, R370) -/

def State.modIrq (s : State) (t : Nat) (cx : Cx) (f : Irq → Irq) : State := s.modCtx t cx fun c => { c with irq := f c.irq }

/-- The row doorbell (R369). -/
def execDoorbell (part : Nat) (v : BitVec 64) (s : State) : Host.Outcome State Fault Refusal :=
  .next (s.atFunction part <|
    let t := (fld v 0 11).toNat
    if (s.tilesOf part).contains t then
      (s.modPart part fun x => { x with doorbell := fld v 0 12 |>.setWidth 64 }).modIrq t (if bit v 11 then .s else .p) fun i =>
        { i with host := true }
    else s.logEvent 0x369 t)

/-- The period runs from the present PTP time. -/
def Watchdog.start (w : Watchdog) (now : Nat) : Watchdog :=
  { w with running := w.period != 0, second := false, due := now + 1000 * w.period }

/-- A write of WDCTL (R369, R370). -/
def Watchdog.write (w : Watchdog) (v : Dword) (now : Nat) : Watchdog :=
  let a := (fld v 32 2).toNat
  Watchdog.start { w with period := (fld v 0 32).toNat, action := if a = 3 then 0 else a } now

def State.modWd (s : State) (p : Nat) (f : Watchdog → Watchdog) : State := s.modPart p fun x => { x with wd := f x.wd }

/-- The row wdctlWrite (R370). -/
def execWdctlWrite (part : Nat) (v : BitVec 64) (s : State) : Host.Outcome State Fault Refusal :=
  .next (s.atFunction part (s.modWd part fun w => w.write v s.ptime.toNat))

/-- The row wdkick (R370). -/
def execWdkick (part : Nat) (s : State) : Host.Outcome State Fault Refusal :=
  .next (s.atFunction part (s.modWd part fun w => w.start s.ptime.toNat))

/-- The period has passed without a kick (R370). -/
def State.wdExpired (s : State) (p : Nat) (second : Bool) : Bool :=
  let w := (s.part p).wd
  w.running && w.second == second && decide (w.due ≤ s.ptime.toNat)

/-- The row watchdogFirstExpiry (R370). -/
def execWatchdogFirstExpiry (part : Nat) (s : State) : Host.Outcome State Fault Refusal :=
  .next (
    if !s.wdExpired part false then s
    else
      let s := s.modWd part fun w => { w with stage1 := true, second := true, due := w.due + 1000 * w.period }
      ((s.part part).tasks.flatMap (·.contexts)).foldl (fun s x => s.modIrq x.1 x.2 fun i => { i with wdog := true }) s)

/-! ### Partition actions (R371) -/

def State.freeze (s : State) (p : Nat) : State := s.modPart p fun x => { x with frozen := true }

/-- Every task is killed (R319) and its joins reported (R320). -/
def State.killAll (s : State) (p : Nat) : State :=
  (s.part p).tasks.foldl (fun s k => (s.killUnit p k).finish p k.launch) s

/-- A kill; then rings, flags, TLB entries and a freeze in force (R371). -/
def State.resetPart (s : State) (p : Nat) : State :=
  let s := s.killAll p
  let s := s.modPart p fun x => { x with frozen := false, rings := x.rings.map fun r => { r with en := false, head := 0, tail := 0 } }
  let s := (s.tilesOf p).foldl (fun s t => s.modTile t fun x => { x with flags := x.flags.map fun f => f.init 0 }) s
  (s.part p).clusters.foldl (fun s k => s.modCluster k fun c => { c with tlb := [] }) s

/-- The row partitionFreeze (R371). -/
def execPartitionFreeze (part : Nat) (s : State) : Host.Outcome State Fault Refusal :=
  .next (s.atFunction part (s.freeze part))
/-- The row partitionResume (R371); contexts that the host has suspended are placed again (R336). -/
def execPartitionResume (part : Nat) (s : State) : Host.Outcome State Fault Refusal :=
  .next (s.atFunction part (s.modPart part fun x => { x with frozen := false, suspended := x.dropping && x.suspended }))
/-- The row partitionKill (R371). -/
def execPartitionKill (part : Nat) (s : State) : Host.Outcome State Fault Refusal := .next (s.killAll part)
/-- The row partitionReset (R371). -/
def execPartitionReset (part : Nat) (s : State) : Host.Outcome State Fault Refusal :=
  .next (s.atFunction part (s.resetPart part))

/-- The row watchdogSecondExpiry (R370). -/
def execWatchdogSecondExpiry (part : Nat) (s : State) : Host.Outcome State Fault Refusal :=
  .next (
    if !s.wdExpired part true then s
    else
      let a := (s.part part).wd.action
      let s := s.modWd part fun w => { w with fired := true, last := a, running := false, second := false }
      match a with
      | 0 => s.freeze part
      | 1 => s.killAll part
      | _ => s.resetPart part)

/-! ### The other registers of the control window -/

/-- The writable fields of the registers without a row (R305, R345, R353, R369). -/
def Part.writeReg (x : Part) (addr : Nat) (v : Dword) : Part :=
  match addr with
  | 0x000 => { x with ttbl := v.toNat / 64 * 64 }
  | 0x008 => { x with ttcnt := (fld v 0 17).toNat }
  | 0x010 => { x with drainmax := (fld v 0 32).toNat }
  | 0x018 => { x with ttlead := (fld v 0 32).toNat }
  | 0x020 => { x with ttres := wr x.ttres 0 v }
  | 0x028 => { x with ttres := wr x.ttres 1 v }
  | 0x030 => { x with ttres := wr x.ttres 2 v }
  | 0x038 => { x with ttres := wr x.ttres 3 v }
  | 0x800 => { x with astbl := v.toNat / 64 * 64 }
  | 0x818 => { x with mig := { x.mig with src := v &&& 0x01FFFFFFFFFF07FF#64 } }
  | 0x820 => { x with mig := { x.mig with dst := v &&& 0x7FFFFFFFFFFF0000#64 } }
  | 0xA18 => { x with wd := { x.wd with stage1 := x.wd.stage1 && !bit v 0, fired := x.wd.fired && !bit v 1 } }
  | _ =>
    if 0xC00 ≤ addr ∧ addr < 0xE00 ∧ addr % 8 = 0 then
      let n := (addr - 0xC00) / 8
      { x with rings := wr x.rings n { rd x.rings n {} with asid := (fld v 0 11).toNat } }
    else x

/-- The row registerWrite (R12, R368): a register with a row of its own takes that row's effect; an offset without a
register, and a partition that does not exist, take none. -/
def execRegisterWrite (part addr : Nat) (v : BitVec 64) (s : State) : Host.Outcome State Fault Refusal :=
  if 0x100 ≤ addr ∧ addr < 0x500 ∧ addr % 16 = 0 then execRingEnable part ((addr - 0x100) / 16) v s
  else if 0x100 ≤ addr ∧ addr < 0x500 ∧ addr % 16 = 8 then execTailWrite part ((addr - 0x100) / 16) v s
  else if addr = 0x810 then execTlbinv part v s
  else if addr = 0x828 then execMigrationStart part v s
  else if addr = 0xA00 then execDoorbell part v s
  else if addr = 0xA08 then execWdctlWrite part v s
  else if addr = 0xA10 then execWdkick part s
  else .next (s.atFunction part (s.modPart part fun x => x.writeReg addr v))

/-- RBASEn and RCTLn as read (R305). -/
def Ring.baseWord (r : Ring) : Dword := BitVec.ofNat 64 (r.base / 128 * 128 + b2n r.en + b2n r.err * 2)
def Ring.ctlWord (r : Ring) : Dword := BitVec.ofNat 64 (r.nrec.toNat + r.head.toNat * 2 ^ 16 + r.tail.toNat * 2 ^ 32)

/-- Seconds spent in holdover (R369, R377). -/
def State.holdSeconds (s : State) : Nat := if s.ensign.ptpState = 2 then (s.ptime.toNat - s.ensign.hold) / 1000000000 else 0

/-- A register of the control window as the driver reads it: 0 where there is none (R368). -/
def State.windowRead (s : State) (p addr : Nat) : Dword :=
  let x := s.part p
  if 0x100 ≤ addr ∧ addr < 0x500 ∧ addr % 16 = 0 then (s.ring p ((addr - 0x100) / 16)).baseWord
  else if 0x100 ≤ addr ∧ addr < 0x500 ∧ addr % 16 = 8 then (s.ring p ((addr - 0x100) / 16)).ctlWord
  else if 0xC00 ≤ addr ∧ addr < 0xE00 ∧ addr % 8 = 0 then BitVec.ofNat 64 (s.ring p ((addr - 0xC00) / 8)).asid
  else match addr with
  | 0x000 => BitVec.ofNat 64 x.ttbl
  | 0x008 => BitVec.ofNat 64 x.ttcnt
  | 0x010 => BitVec.ofNat 64 x.drainmax
  | 0x018 => BitVec.ofNat 64 x.ttlead
  | 0x020 => rd x.ttres 0 0
  | 0x028 => rd x.ttres 1 0
  | 0x030 => rd x.ttres 2 0
  | 0x038 => rd x.ttres 3 0
  | 0x800 => BitVec.ofNat 64 x.astbl
  | 0x808 => BitVec.ofNat 64 x.ascnt
  | 0x810 => x.tlbinv ||| BitVec.ofNat 64 (b2n x.tlbWait.isSome * 2 ^ 13)
  | 0x818 => x.mig.src
  | 0x820 => x.mig.dst
  | 0x828 => BitVec.ofNat 64 (x.mig.phase * 2 + b2n x.mig.err * 8)
  | 0xA00 => x.doorbell
  | 0xA08 => BitVec.ofNat 64 (x.wd.period + x.wd.action * 2 ^ 32)
  | 0xA18 => BitVec.ofNat 64 (b2n x.wd.stage1 + b2n x.wd.fired * 2 + x.wd.last * 4 + b2n x.frozen * 16)
  | 0xA20 => BitVec.ofNat 64 (s.ensign.ptpState + s.holdSeconds * 2 ^ 32)
  | _ => 0

/-- The row hostMemoryAccess (R355, R368): a write of `data`, or without data a read of `len` bytes, at an offset in the
partition's GDDR-7. What lies outside is refused: all ones, and nothing written. A write of the directory or of the backing
region changes segments (R236). -/
def execHostMemoryAccess (part addr len : Nat) (data : List (BitVec 8)) (s : State) : Host.Outcome State Fault Refusal :=
  .next (
    let x := s.part part
    let n := if data.isEmpty then len else data.length
    let ok := decide (addr + n ≤ x.len)
    if data.isEmpty then
      let s := s.answer 0x368 (if ok then s.gddr.bytes (x.lo + addr) n else List.replicate n 0xFF)
      if ok then s else s.logEvent 0x355 part
    else if ok then State.hostWrote { s with gddr := s.gddr.store (x.lo + addr) data } part (x.lo + addr) n
    else s.logEvent 0x355 part)

/-! ### What comes over Pennant links (R373) -/

/-- Whether a flit that arrives is accepted: it passes its CRC, the receiver has room for it (`room`), and it is the next. -/
def Port.accepts (p : Port) (sq : BitVec 12) (room : Bool) (data : List Byte) : Bool := room && flitOk data && sq == p.nextRecv

/-- A flit arrives: it is taken and acknowledged, or discarded and answered with a NAK. -/
def Port.receive (p : Port) (sq : BitVec 12) (room : Bool) (data : List Byte) : Port :=
  if p.accepts sq room data then
    { p with nextRecv := sq + 1, received := p.received ++ [data], owed := p.owed ++ [(false, sq + 1)] }
  else { p with owed := p.owed ++ [(true, p.nextRecv)] }

/-- The unacknowledged flits from a number on. -/
def Port.from (p : Port) (sq : BitVec 12) : List (BitVec 12 × List Byte) := p.replay.dropWhile fun f => f.1 != sq

def Port.nak (p : Port) (sq : BitVec 12) : Port := { p with wire := p.wire ++ p.from sq }

/-- An acknowledgement names the number expected next: what was sent before it is freed. -/
def Port.ack (p : Port) (sq : BitVec 12) : Port :=
  if sq == p.nextSend then { p with replay := [] }
  else if p.replay.any fun f => f.1 == sq then { p with replay := p.from sq }
  else p

/-- The row flitSend. -/
def execFlitSend (port : Nat) (data : List (BitVec 8)) (s : State) : Host.Outcome State Fault Refusal :=
  .next (s.modPort port (·.queue [data]))

/-- Bytes that another module writes, by a put or the join of a record (R217, R320): into the segment that it names, on the
tile that owns it, inside it, at a multiple of 4 bytes for a put and of 16 for a join; else they are refused and logged (R214,
R320, R355). A race with an earlier access is reported to the other module. -/
def State.farWrite (s : State) (tile seg off unit : Nat) (bs : List Byte) : Option (State × Clock) :=
  let p := s.partOf tile
  match s.seg? p seg with
  | none => none
  | some g =>
    if !(g.owned && g.owner == tile) || off % unit != 0 || decide (g.bytesLen < off + bs.length) then none
    else
      let (id, s) := s.next
      let know := clockJoin s.abroad (s.tile tile).handover
      let lines := linesOf [(off, bs.length)]
      let a : Acc := { agent := id, tick := 1, clock := know, write := true }
      let g := (g.enter lines a).1
      some (s.putBytes p { g.mark lines g.swz with bytes := g.bytes.store off bs }, clockJoin know [(id, 1)])

/-- A message of another module takes effect (R214, R217, R259, R261, R312, R319, R320): a POSTR (64), a put (5, 6) or a join
(69), a get (7), units to be placed here (68), the end of units sent there (71), the abort of a record (72). It is ordered after
all that this module has sent out before (log 33). -/
def State.farMessage (s : State) (m : Nat × Nat × Nat × Nat × Nat × Nat × Nat × List Byte) : State :=
  let (op, node, tile, seg, off, len, fw, bs) := m
  let post (s : State) (k : Clock) : State :=
    if fw % 2 ^ 16 = 0 ∧ op ≠ 64 then s
    else s.deliver { tile := tile, part := s.partOf tile, flag := fw / 2 ^ 16 % 16, gen := BitVec.ofNat 8 (fw / 2 ^ 20)
                     delta := BitVec.ofNat 16 fw, clock := k, op := 0, due := s.now }
  if op = 64 then post s s.abroad
  else if op = 5 ∨ op = 6 ∨ op = 69 then
    match s.farWrite tile seg off (if op = 69 then 16 else 4) bs with
    | some (s, k) => post s k
    | none => s.logEvent (if op = 69 then 0x320 else 0x355) seg
  else if op = 68 then
    s.farLaunch node tile seg off (fw / 2 ^ 16) (fw % 2 ^ 16) ((List.range 16).map fun k => BitVec.ofNat 64 (bytesNat ((bs.drop (8 * k)).take 8)))
  else if op = 71 then s.farEnd tile seg off (fw % 16) (bytesNat (bs.take 8))
  else if op = 72 then s.farAbort node tile seg
  else if op = 7 then
    let p := s.partOf tile
    match s.seg? p seg with
    | none => s.logEvent 0x355 seg
    | some g =>
      if !(g.owned && g.owner == tile) || off % 4 != 0 || decide (g.bytesLen < off + len) then s.logEvent 0x355 seg
      else
        let (id, s) := s.next
        let know := clockJoin s.abroad (s.tile tile).handover
        let g' := (g.enter (linesOf [(off, len)]) { agent := id, tick := 1, clock := know, write := false }).1
        (s.putSeg p g').sendOut ⟨70, tile, node, tile, seg, off, 0, g.bytes.bytes off len⟩ (clockJoin know [(id, 1)])
  else s

/-- The row flitReceive: what arrives in order takes effect as the message of its payload says, whose layout the spec does not
give (log 33); what is discarded is sent again, and that is logged (R365, R367). -/
def execFlitReceive (port : Nat) (sq : BitVec 12) (good : Bool) (data : List (BitVec 8)) (s : State) :
    Host.Outcome State Fault Refusal :=
  .next (
    if !bit s.caps 25 then s
    else
      let taken := (s.port port).accepts sq good data
      let s := s.modPort port fun p => p.receive sq good data
      if !taken then s.logEvent 0x373 port
      else match Config.fabricMessage (flitPayload data) with
        | some m => s.farMessage m
        | none => s)
/-- The row nak: the flits from its number on are sent again, which is logged (R365, R367). -/
def execNak (port : Nat) (sq : BitVec 12) (s : State) : Host.Outcome State Fault Refusal :=
  .next (if bit s.caps 25 then (s.modPort port fun p => p.nak sq).logEvent 0x1373 port else s)
/-- The row ack. -/
def execAck (port : Nat) (sq : BitVec 12) (s : State) : Host.Outcome State Fault Refusal := .next (s.modPort port fun p => (p.ack sq).pump)
/-- The row linkTrained (R365): a link that meets an uncorrectable error retrains, and meanwhile carries nothing new; once
trained, a Pennant port sends again what is unacknowledged, in order. On a link that is trained the row is that error, and else
the end of the training (log 29). Numbers from 8 on stand for the host port. -/
def execLinkTrained (port : Nat) (s : State) : Host.Outcome State Fault Refusal :=
  .next (
    let up := if port < 8 then !(s.port port).trained else !s.ensign.hostLink
    if port < 8 && !bit s.caps 25 then s
    else
    let s := if port < 8 then s.modPort port fun p =>
        if up then Port.pump { p with trained := true, wire := p.wire ++ p.replay } else { p with trained := false }
      else s.modEnsign fun e => { e with hostLink := up }
    s.logEvent 0x365 (2 * port + 1 + b2n up))

/-! ### Boot (R364, R375) -/

/-- An image that may run (R375 step 2). -/
def Ensign.runs (e : Ensign) (i : Image) : Bool := i.valid && decide (e.rollback ≤ i.version)

/-- The image that runs (R375 step 3). -/
def Ensign.chosen (e : Ensign) : Option Image :=
  match e.runs e.slotA, e.runs e.slotB with
  | true, true => if e.slotA.version < e.slotB.version then some e.slotB else some e.slotA
  | true, false => some e.slotA
  | false, true => some e.slotB
  | false, false => none

/-- Dies of the part: 256 tiles each. -/
def State.dies (s : State) : Nat := ((fld s.caps 0 16).toNat + 255) / 256
/-- Tiles that the dies lack (R364). -/
def State.shortfall (s : State) : Nat := ((List.range s.dies).map fun d => 256 - (s.ensign.working d).length).sum

/-- The address spaces of the partitions (R345): 11 bits each, and 2048 in all. -/
def planSpaces : Nat → List (Nat × Part) → List (Nat × Part)
  | _, [] => []
  | n, x :: r =>
    let k := min (min x.2.ascnt 2047) n
    (x.1, { x.2 with ascnt := k }) :: planSpaces (n - k) r

/-- The directories of the partitions, and their backing regions, stand in GDDR-7 (R235, R236). -/
def State.layOut (s : State) : State :=
  s.parts.foldl (fun s x => x.2.dir.foldl (fun s g =>
    let s := s.writeEntry x.1 g
    if g.place = .backed ∧ g.zero = false then s.writeBack x.1 g else s) s) s

/-- The module list of a partition (R374): up to 4095 identifiers, and none on a part without links (R382). -/
def takeGroups : Nat → List (List Nat) → List (List Nat)
  | _, [] => []
  | n, l :: r => l.take n :: takeGroups (n - (l.take n).length) r
def Part.bounded (x : Part) (link : Bool) : Part :=
  if link then { x with modules := x.modules.take 4095, linkGroups := takeGroups 4095 x.linkGroups }
  else { x with modules := [], linkGroups := [] }

/-- Every island at one frequency (R379). -/
def State.allIslands (s : State) (mhz : Nat) : List (Nat × Nat) :=
  if mhz = 700 then [] else (List.range ((fld s.caps 0 16).toNat / 2)).map fun i => (i, mhz)

/-- The core rails come on with every island at 175 MHz; the tests of the tiles end in core cycle `n` (R379). -/
def State.coreRails (s : State) (n : Nat) : State :=
  s.modEnsign fun e => { e with coreOn := true, testing := some n, islands := s.allIslands 175 }

/-- A step of R375 has failed: the host port stays down, and the failure is logged and reported over the management port. -/
def State.bootFails (s : State) (step : Nat) : State :=
  ((s.modEnsign fun e => { e with failed := true }).logEvent 0x375 step).answer 0x375 [BitVec.ofNat 8 step]

/-- Steps 5 and 6 (R375), after the tests of step 4: the islands go to 700 MHz (R379), rows pending for repair have been fused
at this reset (R366), and up to 16 partitions are created (R322). -/
def State.bringUp (s : State) (i : Image) : State :=
  let e := s.ensign
  let rom := Config.freeBytes s.free
  let conf := Config.freeBytes (s.free + 1)
  let tiles := (fld s.caps 0 16).toNat - s.shortfall
  State.layOut { s with
    free := s.free + 2
    caps := (s.caps &&& ~~~0xFFFF#64) ||| BitVec.ofNat 64 tiles
    modid := e.planModid
    parts := planSpaces 2048 ((e.plan.take 16).map fun x => (x.1, x.2.bounded (bit s.caps 25)))
    ensign := { e with
      booted := true
      testing := none
      islands := s.allIslands 700
      spares := Vector.ofFn fun d => (e.working d.val).length - 256
      fused := e.fused ++ e.rows
      rows := []
      measure := #v[rom, i.digest, e.monitorImg.digest, e.sched.digest, conf] } }

/-- The row boot (R375): steps 1 to 3, and the rails of step 4 with every island at 175 MHz (R379); then, with the rails on, the
tests of step 4 and steps 5 and 6; or the failure that leaves the host port down. -/
def execBoot (s : State) : Host.Outcome State Fault Refusal :=
  .next (
    let e := s.ensign
    if e.booted || e.failed then s
    else if e.stepFails.contains 1 then s.bootFails 1
    else match e.chosen with
      | none => s.bootFails 2
      | some i =>
        if !e.coreOn then s.coreRails s.now
        else if e.stepFails.contains 4 then s.bootFails 4
        else if !(e.runs e.monitorImg && e.runs e.sched) then s.bootFails 5
        else if e.stepFails.contains 6 then s.bootFails 6
        else s.bringUp i)

/-! ### SPDM and PLDM (R376) -/

/-- The row getVersion. -/
def execGetVersion (s : State) : Host.Outcome State Fault Refusal := .next (s.answer 0x376 [0x12])
/-- The row getCapabilities. -/
def execGetCapabilities (s : State) : Host.Outcome State Fault Refusal := .next (s.freeAnswer 0x376)
/-- The row negotiateAlgorithms. -/
def execNegotiateAlgorithms (_data : List (BitVec 8)) (s : State) : Host.Outcome State Fault Refusal := .next (s.freeAnswer 0x376)
/-- The row getDigests. -/
def execGetDigests (s : State) : Host.Outcome State Fault Refusal := .next (s.freeAnswer 0x376)
/-- The row getCertificate. -/
def execGetCertificate (_data : List (BitVec 8)) (s : State) : Host.Outcome State Fault Refusal := .next (s.freeAnswer 0x376)
/-- The row challenge. -/
def execChallenge (_data : List (BitVec 8)) (s : State) : Host.Outcome State Fault Refusal := .next (s.freeAnswer 0x376)
/-- The row getMeasurements: the digest of index 1 to 5; an index without a measurement answers nothing. -/
def execGetMeasurements (idx : Nat) (s : State) : Host.Outcome State Fault Refusal :=
  .next (s.answer 0x376 (if idx = 0 then [] else rd s.ensign.measure (idx - 1) []))
/-- The row pldmMonitoring. -/
def execPldmMonitoring (_data : List (BitVec 8)) (s : State) : Host.Outcome State Fault Refusal := .next (s.freeAnswer 0x376)

/-- An image of bytes, as its verification finds it (R375 step 2). -/
def Ensign.image (e : Ensign) (data : List Byte) : Image where
  version := Config.imageVersion data
  valid := Config.verifies data && decide (e.rollback ≤ Config.imageVersion data)
  digest := Config.digest data

/-- The row pldmFirmwareUpdate: an image that verifies goes into flash slot A (index 0) or B. -/
def execPldmFirmwareUpdate (idx : Nat) (data : List (BitVec 8)) (s : State) : Host.Outcome State Fault Refusal :=
  .next (
    let i := s.ensign.image data
    if !i.valid then s.logEvent 0x376 idx
    else s.modEnsign fun e => if idx = 0 then { e with slotA := i } else { e with slotB := i })

/-! ### PTP time (R377) -/

/-- The row ptpMessage: PTIME follows the grandmaster. -/
def execPtpMessage (val : Nat) (s : State) : Host.Outcome State Fault Refusal :=
  .next (State.modEnsign { s with ptime := BitVec.ofNat 64 val, ptick := 0 } fun e => { e with ptpState := 1 })

/-- The row holdover. -/
def execHoldover (s : State) : Host.Outcome State Fault Refusal :=
  .next (s.modEnsign fun e => if e.ptpState = 2 then e else { e with ptpState := 2, hold := s.ptime.toNat })

/-! ### Live scheduler update (R378) -/

/-- The old image runs on from the hand-over structure. -/
def Ensign.oldScheduler (e : Ensign) : Ensign := { e with update := .none, schedNew := {}, measure := wr e.measure 3 e.sched.digest }

/-- The row schedulerUpdate: steps 1 to 4. -/
def execSchedulerUpdate (data : List (BitVec 8)) (s : State) : Host.Outcome State Fault Refusal :=
  .next (
    let i := s.ensign.image data
    if s.ensign.update ≠ .none then s
    else if !i.valid then s.logEvent 0x378 2
    else
      let s := s.modEnsign fun e => { e with schedNew := i, measure := wr e.measure 3 i.digest }
      if Config.readsHandOver data then s.modEnsign fun e => { e with update := .started s.ptime.toNat }
      else (s.modEnsign (·.oldScheduler)).logEvent 0x378 4)

/-- The new image has 2 s for its first heartbeat (R378). -/
def State.heartbeatLate (s : State) : Bool :=
  match s.ensign.update with
  | .started t => decide (t + 2000000000 < s.ptime.toNat)
  | .none => false

/-- The row heartbeat. -/
def execHeartbeat (s : State) : Host.Outcome State Fault Refusal :=
  .next (if s.ensign.update == .none || s.heartbeatLate then s
    else s.modEnsign fun e => { e with update := .none, sched := e.schedNew, schedNew := {} })

/-- The row heartbeatTimeout. -/
def execHeartbeatTimeout (s : State) : Host.Outcome State Fault Refusal :=
  .next (if s.heartbeatLate then (s.modEnsign (·.oldScheduler)).logEvent 0x378 5 else s)

/-! ### Power and cooling (R379 to R381) -/

/-- Islands of two tiles, and their frequency. -/
def State.islandsOf (s : State) : List Nat := List.range ((fld s.caps 0 16).toNat / 2)
def Ensign.islandMHz (e : Ensign) (i : Nat) : Nat := aget e.islands i 700
def Ensign.setIsland (e : Ensign) (i mhz : Nat) : Ensign := { e with islands := aput e.islands i mhz }

/-- ILIM of every tile of a partition, uniformly (R380 step 1): down to a value that none of them is below, or up to one that
none is above. -/
def State.limitPart (s : State) (p : Nat) (v : Dword) (up : Bool) : State :=
  let now := (s.tilesOf p).map fun t => (s.tile t).ilim.toNat
  let w := (ilimOf v).toNat
  let v := if up then now.foldl max w else now.foldl min w
  (s.tilesOf p).foldl (fun s t => s.modTile t fun x => { x with ilim := ilimOf (BitVec.ofNat 64 v) }) s

/-- Every island steps down or up by up to 15 steps of 35 MHz, between 175 and 700 MHz (R380 step 2). -/
def State.stepIslands (s : State) (k : Nat) (up : Bool) : State :=
  s.islandsOf.foldl (fun s i => s.modEnsign fun e =>
    e.setIsland i (if up then min 700 (e.islandMHz i + 35 * k) else max 175 (e.islandMHz i - 35 * k))) s

/-- The controller holds the cap (R380): whether it adjusts, which way and how far is free (log 29). Down, it lowers ILIM, or,
where every partition's is below its reset value, the islands; up, the islands first and then ILIM. -/
def State.adjustPower (s : State) : State :=
  let (w, s) := s.freeWord
  let (d, s) := s.duration
  let s := s.modEnsign fun e => { e with adjust := s.now + 1 + d }
  let ps := s.parts.map (·.1)
  let p := ps.getD ((fld w 16 16).toNat % ps.length) 0
  let up := bit w 62
  let low := ps.all fun p => (s.tilesOf p).all fun t => decide ((s.tile t).ilim.toNat < 0x1400)
  let slow := s.islandsOf.any fun i => decide (s.ensign.islandMHz i < 700)
  if !bit w 63 || ps.isEmpty then s
  else if up then (if slow then s.stepIslands (fld w 32 4).toNat true else s.limitPart p w true)
  else if bit w 61 && low then s.stepIslands (fld w 32 4).toNat false
  else s.limitPart p w false

/-- The row setPowerCap (R380): a cap in the operator's range takes effect, and the controller adjusts to the cap in force, then
and from time to time. -/
def execSetPowerCap (val : Nat) (s : State) : Host.Outcome State Fault Refusal :=
  .next (
    let most := if (fld s.caps 0 16).toNat ≤ 1024 then 5500 else 10000
    if val < 2000 ∨ most < val then s else (s.modEnsign fun e => { e with cap := val }).adjustPower)

/-- Every partition is frozen and the core rails go off (R379). -/
def State.railsOff (s : State) (kind : Nat) : State :=
  let s := (s.parts.map (·.1)).foldl (fun s p => s.freeze p) s
  (s.modEnsign fun e => { e with coreOn := false, testing := none }).logEvent kind 0

/-- The row undervoltage (R379). -/
def execUndervoltage (s : State) : Host.Outcome State Fault Refusal := .next (s.railsOff 0x379)
/-- The tiles have passed the tests that follow their rails. -/
def State.tested (s : State) : Bool := s.ensign.testing.any fun n => decide (n ≤ s.now)

/-- The row powerRestore (R379): the core rails come back with every island at 175 MHz, and the islands go to 700 MHz once the
tiles have passed their tests; a freeze is lifted by a Resume action (R371). -/
def execPowerRestore (s : State) : Host.Outcome State Fault Refusal :=
  .next (
    if !s.ensign.booted then s
    else if !s.ensign.coreOn then
      let (d, s) := s.duration
      s.coreRails (s.now + 1 + d)
    else if s.tested then s.modEnsign fun e => { e with testing := none, islands := s.allIslands 700 }
    else s)
/-- The row thermalThrottle (R381). -/
def execThermalThrottle (idx : Nat) (s : State) : Host.Outcome State Fault Refusal :=
  .next ((s.modEnsign fun e => e.setIsland idx 175).logEvent 0x381 idx)
/-- The row thermalShutdown (R381). -/
def execThermalShutdown (s : State) : Host.Outcome State Fault Refusal := .next (s.railsOff 0x381)

/-! ### The monitor's timer and the debugger (R330) -/

/-- The row monitorTimerExpiry. -/
def execMonitorTimerExpiry (tile : Nat) (cx : Cx) (s : State) : Host.Outcome State Fault Refusal :=
  .next (s.modIrq tile cx fun i => { i with timer := true })
/-- The row debugHaltRequest. -/
def execDebugHaltRequest (tile : Nat) (cx : Cx) (s : State) : Host.Outcome State Fault Refusal :=
  .next (s.modIrq tile cx fun i => { i with halt := true })

end Sys2Proof.Machine
end

