-- ==== Sys2Proof/Machine/Cycle.lean ====
section
/-! DEFINITION. The core cycle (R28, R29, R31, R383): weights and the limiter (03 R72 to R75), the choice of bundles, landings,
waits and deliveries, the commit of a bundle, its next position (04 R76 to R87) and END (R91). -/

namespace Sys2Proof.Machine

/-! ### Slots without an effect of their own (R42, R44) -/

/-- LIT. -/
def execLit (s : State) : Host.Outcome State Fault Refusal := runSlot 0 [] (fun _ _ s => s) s
/-- PAD. -/
def execPad (s : State) : Host.Outcome State Fault Refusal := runSlot 0 [] (fun _ _ s => s) s

/-! ### Weights (R58, R67, R71, R72) -/

/-- The weight of a G slot. -/
def gWeight (op : Nat) : Nat :=
  if op < 7 then 4 else if op < 16 then 8 else if op < 20 then 4 else if op < 24 then 8 else if op < 32 then 4
  else if op = 32 then 8 else 4

/-- The weight of an M slot; a beat's goes by the array mode in force. -/
def mWeight (op mode : Nat) : Nat :=
  match op with
  | 0 => 12
  | 1 => 4
  | 2 => 8
  | 3 | 4 => if mode = 0 then 48 else if mode = 1 then 56 else if mode = 2 then 52 else 40
  | 5 => 10
  | 6 => 40
  | 7 => 12
  | _ => 2

/-- The weight of a slot whose guard is true. -/
def slotWeight (w : Word) (mode : Nat) : Nat :=
  match slotClass w with
  | 0 | 6 | 7 => 1
  | 1 | 2 | 10 => 2
  | 3 | 4 => 6
  | 5 => 9
  | 8 => gWeight (slotOp w)
  | 9 => 8
  | 12 => mWeight (slotOp w) mode
  | _ => 0

/-- The weight of a bundle (R72): a slot whose guard is false weighs 0. -/
def Regs.weigh (r : Regs) (ws : List Word) : Nat :=
  (ws.map fun w => if r.guard (fld w 18 3) then slotWeight w r.bmode.1 else 0).sum

/-- The classes of a bundle, LIT and PAD left out (R29). -/
def classesOf (ws : List Word) : List Nat := (ws.map slotClass).filter fun c => decide (c ≤ 12)

/-- The sequence engine runs in a core cycle (R72): after the cycle of the grant. -/
def Tile.engineRuns (t : Tile) (now : Nat) : Bool := t.seqRun.any fun o => o.grant.any fun g => decide (g < now)

def Tile.engineWeight (t : Tile) (now : Nat) : Nat := if t.engineRuns now then 44 else 0

/-- The weights of the 63 core cycles before this one (R73). -/
def Tile.windowSum (t : Tile) : Nat := (t.window.take 63).sum

/-! ### Freezing (R28) -/

/-- A delayed access may be made now: its obstacle is gone, and its segment is there or will not come (R250). -/
def State.delayedReady (s : State) (t : Nat) (cx : Cx) (d : Delayed) : Bool :=
  let p := s.partOf t
  let there := s.unserviced p d.org.seg != 0 || !s.absentSeg p d.org.seg
  match d.why with
  | .absent r => (s.req? r).isNone && there
  | .range => (s.gPending t d).isEmpty && there
  | .page _ _ _ | .append _ _ => s.kReady t cx d
  | .walk => false

/-- The delayed accesses of a context that may be made now, by their numbers. -/
def State.cleared (s : State) (t : Nat) (cx : Cx) (c : Ctx) : List Nat :=
  (c.delayed.filter fun d => s.delayedReady t cx d).map (·.id)

/-- The context is frozen by causes 1, 2, 5 or 6, those of its delayed accesses in `gone` left out. -/
def Ctx.blocked (c : Ctx) (gone : List Nat) : Bool :=
  (c.delayed.any fun d => d.stops && !gone.contains d.id) ||
  c.inflight.any fun r => decide (r.rem ≤ 1) && r.await.any fun i => !gone.contains i

/-- An interrupt may be taken in that freeze (R326): SEGA and KVP that the hardware services are its only causes. -/
def Ctx.servicedOnly (c : Ctx) : Bool :=
  let serviced (i : Nat) : Bool := c.delayed.any fun d => d.id == i && d.why.serviced
  (c.delayed.any fun d => d.stops && d.why.serviced) && !(c.delayed.any fun d => d.stops && !d.why.serviced) &&
  c.inflight.all fun r => decide (1 < r.rem) || r.await.all serviced

def Ctx.frozenCycle (c : Ctx) : Ctx := { c with regs := { c.regs with frzc := c.regs.frzc + 1 } }

/-! ### Landing (R27, R52, R65, R360) -/

/-- CHK (R65, R360): a rollback in a repairable phase, of a speculative lane too, else the trap, which is logged (R367); EPC is
the checking bundle. -/
def State.takeCheck (s : State) (t : Nat) (cx : Cx) (r : Res) : State :=
  let c := s.ctx t cx
  let c := { c with inflight := c.inflight.erase r }
  let d : Dword := match r.pay with
    | .check d => d
    | _ => 0
  let s := s.putCtx t cx c
  match (if c.phase.repairable then c.phase.snap else none) with
  | some x => s.rollback t cx x
  | none => (s.logEvent 0x360 (t * 2 + cx.num)).trap t cx Cause.chk r.slot d r.pc [] c.inflight

/-- The results of a context land for the bundle about to issue. A push that finds its queue full, or one that step 1 has
found full, raises QOVF (R52), and then a check that differs CHK; a context whose datum is late freezes instead. -/
def State.landCtx (s : State) (t : Nat) (cx : Cx) (full : List (Bool × Nat) := []) : State :=
  let c := s.ctx t cx
  if c.blocked [] then (s.dropWork t cx).modCtx t cx (·.frozenCycle)
  else
    let l := (s.tile t).land cx full
    match l.qovf with
    | some (r, info) =>
      let s := ((s.putTile t l.tile).dropWork t cx).lateCommands t cx l.late
      let rest := (s.ctx t cx).inflight.map fun r => { r with rem := r.rem + 1 }
      s.trap t cx Cause.qovf r.slot info r.pc [] (l.held ++ (l.checks.map fun r => { r with rem := 1 }) ++ rest)
    | none => match l.checks with
      | r :: _ => (s.dropWork t cx).takeCheck t cx r
      | [] => (s.putTile t l.tile).lateCommands t cx l.late

/-- A result that lands in what both contexts of a tile share: the result queues, the accumulator rows, the latch, the weight
planes, the tile's registers. -/
def Payload.shared : Payload → Bool
  | .row _ _ | .latch _ | .beat _ _ _ _ _ | .weight _ _ _ _ | .hadamard _ _ | .planes => true
  | .sys n _ => n == 0x002 || n == 0x014 || n == 0x060 || n == 0x200 || n == 0x201
  | _ => false

/-- Two results with one destination among those. -/
def Payload.meets : Payload → Payload → Bool
  | .weight a _ _ _, .weight b _ _ _ => a == b
  | a, b => a.queue.isSome && a.queue == b.queue

/-- Queues found full in step 1 stay so for the landing just before the bundle. -/
def Work.withFull (t : Nat) (cx : Cx) (full : List (Bool × Nat)) : Work → Work
  | .landLate a b k => if a = t ∧ b = cx then .landLate a b (full ++ k) else .landLate a b k
  | w => w

/-- Those due results of a context that `now` picks land (R31 step 1), and what they command happens. -/
def State.landNow (s : State) (t : Nat) (cx : Cx) (now : Res → Bool) : State :=
  let (l, kept) := (s.tile t).landSome cx now
  let s := (s.putTile t l.tile).modCtx t cx fun c => { c with inflight := kept }
  State.lateCommands { s with work := s.work.map (·.withFull t cx l.full) } t cx l.late

/-- The landings of step 1 of R31 for a context that issues once accesses of the same core cycle have been made, or its wait
has ended in it (R201, R383): those due results land that the other context could meet and that no result still awaited comes
before; the context's own come just before its bundle (log 16). -/
def State.landEarly (s : State) (t : Nat) (cx : Cx) : State :=
  let late := (s.ctx t cx).inflight.filter fun r => decide (r.rem ≤ 1) && r.await.isSome
  s.landNow t cx fun r => r.await.isNone && r.pay.shared && !late.any fun y => y.pay.meets r.pay

/-- The row resultLanding. -/
def execResultLanding (tile : Nat) (cx : Cx) (s : State) : Host.Outcome State Fault Refusal := .next (s.landCtx tile cx)

/-! ### Delayed accesses (R201, R226, R248) -/

/-- The fault SEGA of a recall that cannot be serviced, precise at the captured slot (R248, R250): the access goes on waiting
for its segment, and keeps the count of its landing (R333). -/
def State.segaDelayed (s : State) (t : Nat) (cx : Cx) (d : Delayed) (why : Nat) : State :=
  let s := s.modCtx t cx fun c => { c with delayed := c.delayed.map fun y =>
    if y.id = d.id ∧ y.why = .range then { y with why := .absent 0 } else y }
  s.lateTrap t cx Cause.sega d.cap.slot (segInfo 0 why d.org.seg true) []

/-- Accesses that find their segments absent when they are made ask for residency again (R242, R248); SETBIG where the set
exceeds the budget (R249). -/
def State.accessAgain (s : State) (t : Nat) (cx : Cx) : List Delayed → State
  | [] => s
  | d :: r =>
    let set := askSet (d :: r)
    let need := s.chargeOf (s.partOf t) set
    let budget := s.budget t (s.groupOf t cx)
    if need ≤ budget then s.askAgain t cx (d :: r)
    else
      let s := s.modCtx t cx fun c =>
        let c := c.forget d.id
        if gStores d.gop.op then { c with os := c.os - 1 } else c
      s.lateTrap t cx Cause.setbig d.cap.slot (setbigInfo need budget set.length) [d.cap.toEntry 0]

/-- The row delayedCoreAccess: the first core access of the context whose obstacle has cleared is made, or those whose
segments have gone meanwhile ask again. -/
def execDelayedCoreAccess (tile : Nat) (cx : Cx) (s : State) : Host.Outcome State Fault Refusal :=
  .next (match (s.ctx tile cx).delayed.find? fun d => slotClass d.cap.word != 9 && s.delayedReady tile cx d with
    | none => s.accessAgain tile cx (s.absentAgain tile cx)
    | some d =>
      match s.unserviced (s.partOf tile) d.org.seg with
      | 0 => s.gLater tile cx d
      | w + 1 => s.segaDelayed tile cx d (w + 1))

/-- The row lateDatumArrival: a captured K slot whose page or row has come is made (R226, R276). -/
def execLateDatumArrival (tile : Nat) (cx : Cx) (s : State) : Host.Outcome State Fault Refusal :=
  .next (match (s.ctx tile cx).delayed.find? fun d => slotClass d.cap.word == 9 && s.delayedReady tile cx d with
    | none => s
    | some d => s.kLater tile cx d)

/-! ### Interrupts and delivered faults (R326, R327) -/

/-- The row intr. -/
def execIntr (tile : Nat) (cx : Cx) (s : State) : Host.Outcome State Fault Refusal :=
  .next (
    let c := s.ctx tile cx
    if c.irq.any && c.frame.ie && c.life == .running then (s.dropWork tile cx).takeIntr tile cx else s)

/-- The fault of the operation that issued first. R327 does not name TRAP: the model takes it among these, in the place of its
own bundle (DESIGN CHOICE, log 55). -/
def firstFault : List OpFault → Option OpFault
  | [] => none
  | f :: r => match firstFault r with
    | some g => if g.order < f.order then some g else some f
    | none => some f

/-- The row operationFaultDelivery. -/
def execOperationFaultDelivery (tile : Nat) (cx : Cx) (s : State) : Host.Outcome State Fault Refusal :=
  .next (
    let c := s.ctx tile cx
    match firstFault c.faults with
    | none => s
    | some f =>
      let c := { c with faults := c.faults.erase f }
      ((s.dropWork tile cx).putCtx tile cx c).trap tile cx f.cause f.slot f.einfo c.pos.pc [] c.inflight)

/-! ### The choice of bundles (R29, R73, R383) -/

/-- The queue entries that a slot needs, in the order of its operands, the operand latch last: file, register code, entries
(R15, R37, R161, R162). -/
def slotNeeds (w : Word) : List (Bool × Nat × Nat) :=
  let last (l : List (Bool × Nat × Nat)) : List (Bool × Nat × Nat) := l.filter (·.2.1 != 30) ++ l.filter (·.2.1 == 30)
  last <| (slotFields w).flatMap fun f =>
    let x := f.get w
    let c := x % 32
    match f.kind with
    | .sS n => if c = 31 then [] else [(false, c, n)]
    | .sB => if c = 31 then [] else [(false, c, 1)]
    | .vS n => if c = 31 then [] else [(true, c, n)]
    | .vF | .vX => if c = 31 then [] else [(true, c, 1)]
    | .rq => [(true, 24 + x % 4, 1)]
    | .mac => if x = 1 then [(true, 30, 1)] else []
    | .macB => if (fld w 12 6).toNat = 1 ∨ c = 31 then [] else [(true, c, 1)]
    | _ => []

/-- The detail word of the first queue that a slot finds short (R330). -/
def Tile.short (t : Tile) (cx : Cx) (w : Word) : Option Dword :=
  let sup := (t.ctx cx).frame.mode
  (slotNeeds w).findSome? fun q =>
    let code := if q.1 then q.2.1 else scalarCode sup q.2.1
    let n := t.held cx q.1 code
    if n < q.2.2 then some (queueInfo q.1 code n) else none

/-- BRK or QUND of the lowest slot of a bundle that passes decode (R323): slot, cause, detail word. -/
def Tile.stopAt (t : Tile) (cx : Cx) : Nat → List Word → Option (Nat × Nat × Dword)
  | _, [] => none
  | k, w :: r =>
    let next := Tile.stopAt t cx (k + 1) r
    if !(t.ctx cx).regs.guard (fld w 18 3) then next
    else if slotClass w = 0 ∧ slotOp w = 12 then some (k, Cause.brk, immU 12 (fld w 0 12).toNat (leadLits r))
    else match t.short cx w with
      | some d => some (k, Cause.qund, d)
      | none => next

/-- The words of the bundle at a context's position, or the cause that its decode gives: slot, cause, detail word (R49 to
R51). -/
def Tile.decoded (t : Tile) (m : Memory) (cx : Cx) : Except (Nat × Nat × Dword) (List Word) :=
  let c := t.ctx cx
  let ws := m.codeWords c.pos.pc 8
  if c.pos.entry && !m.bundleStart c.pos.pc then
    .error (0, Cause.illb, (BundleFault.illb 0 .entry 0).einfo (ws.headD 0))
  else match decodeBundle (c.divA != 0) (c.divB != 0) ws with
    | .error f =>
      let cause := match f with
        | .illi _ _ => Cause.illi
        | .illb _ _ _ => Cause.illb
      .error (f.slot, cause, f.einfo (ws.getD f.slot 0))
    | .ok b => .ok b

/-- What stands at a context's position once its results have landed: the words of the bundle, or the cause that is taken
before it (R49 to R51, R323). -/
def Tile.nextBundle (t : Tile) (m : Memory) (cx : Cx) : Except (Nat × Nat × Dword) (List Word) :=
  match t.decoded m cx with
  | .error e => .error e
  | .ok b => match (if (t.ctx cx).pos.annul = 0 then t.stopAt cx 0 b else none) with
    | some e => .error e
    | none => .ok b

/-- What a bundle brings on a tile on which its results have landed; one that cannot issue brings nothing. -/
def Tile.bidOf (t : Tile) (cx : Cx) : Except (Nat × Nat × Dword) (List Word) → Bid
  | .error _ => {}
  | .ok b => ⟨classesOf b, (t.ctx cx).regs.weigh b⟩

def Tile.bid (t : Tile) (m : Memory) (cx : Cx) : Bid := t.bidOf cx (t.nextBundle m cx)

/-- The entries that a slot pops from what both contexts share: the result queues and the operand latch (R19, R153). -/
def sharedPops (w : Word) : List (Nat × Nat) :=
  (slotFields w).flatMap fun f =>
    let n := match f.kind with
      | .vS n => n
      | _ => 1
    ((fieldReads f.kind (f.get w) (fld w 12 6).toNat).filter fun r => r.vec && r.pop && decide (24 ≤ r.code) && decide (r.code < 28)).map
      (fun r => (r.code, n)) ++ (if f.kind = .mac ∧ f.get w = 1 then [(30, 1)] else [])

/-- The slots of a context's next bundle that execute, those made again first (R333). -/
def Tile.nextSlots (t : Tile) (m : Memory) (cx : Cx) : List SlotRec :=
  let c := t.ctx cx
  c.remake.map (·.toSlot) ++ match t.nextBundle m cx with
    | .error _ => []
    | .ok b => if c.pos.annul ≠ 0 then [] else
      ((List.range b.length).map fun k =>
        { word := b.getD k 0, lits := leadLits (b.drop (k + 1)), slot := k, pc := c.pos.pc : SlotRec }).filter
          fun h => c.regs.guard (fld h.word 18 3)

/-- The tile after slots have popped (R31): what the other context then finds in the shared queues. -/
def Tile.popSlots (t : Tile) (cx : Cx) (l : List SlotRec) : Tile :=
  (l.flatMap fun h => sharedPops h.word).foldl (fun t q => t.pop cx true q.1 q.2) t

/-- The tile after a context's next bundle has popped. -/
def Tile.popShared (t : Tile) (m : Memory) (cx : Cx) : Tile :=
  t.popSlots cx ((t.nextSlots m cx).drop (t.ctx cx).remake.length)

/-- What a context does in a core cycle. -/
inductive Turn where
  | idle
  | frozen
  | waits
  /-- A trap is due; `next` says that it comes in place of a bundle that would issue. -/
  | traps (w : Work) (next : Bool)
  | ready
  deriving DecidableEq, Repr

/-- A bundle of the context would issue under R29, a trap that is due left aside: the limiter counts it (R73, R326). -/
def Turn.bids : Turn → Bool
  | .ready | .traps _ true => true
  | _ => false

/-- Bundles may issue on a tile: the core rails are up, and its partition is not frozen (R371, R379). -/
def State.issues (s : State) (t : Nat) : Bool := s.ensign.coreOn && !(s.part (s.partOf t)).frozen

/-- The turn of a context, on the tile `x` as it stands for it. -/
def State.turn (s : State) (t : Nat) (x : Tile) (cx : Cx) : Turn :=
  let c := x.ctx cx
  let intr := c.irq.any && c.frame.ie
  let stuck := c.blocked (s.cleared t cx c)
  if c.life != .running || c.phase.rolling || c.lane.any (·.poisoned) || !s.issues t then .idle
  else if c.wait.isSome then
    if !stuck && !c.faults.isEmpty then .traps (.fault t cx) false
    else if intr && (!stuck || c.servicedOnly) then .traps (.interrupt t cx) false
    else .waits
  else if stuck then (if intr && c.servicedOnly then .traps (.interrupt t cx) false else .frozen)
  else
    let l := x.land cx
    if l.qovf.isSome || !l.checks.isEmpty then .traps (.land t cx) true
    else if !c.faults.isEmpty then .traps (.fault t cx) true
    else if intr then .traps (.interrupt t cx) true
    else .ready

def Bid.meets (a b : Bid) : Bool := a.classes.any fun c => b.classes.contains c
def Bid.add (a b : Bid) : Bid := ⟨a.classes ++ b.classes, a.weight + b.weight⟩

/-- The limiter's comparison (R73), with ILIM as it stands before the landings of the core cycle. The spec does not say which
value it compares with in the cycle in which a write of ILIM lands: this one, though guards and the array mode are those after
the landings, is the model's choice (DESIGN CHOICE, log 53). -/
def Tile.admits (x : Tile) (weight : Nat) : Bool := decide (x.windowSum + weight ≤ x.ilim.toNat)

/-- The delayed accesses of a context that are due, also after its END (R91, R201). -/
def State.dueAccesses (s : State) (t : Nat) (cx : Cx) (c : Ctx) : List Work :=
  let on := match c.life with
    | .running => !c.phase.rolling
    | .ended _ | .faulted _ => true
    | _ => false
  if !on then []
  else ((s.cleared t cx c).map fun _ => Work.delayed t cx) ++ if (s.absentAgain t cx).isEmpty then [] else [.delayed t cx]

/-- A Y slot's change of the tile's flags (R31, R102, R103). -/
def State.flagsAfter (s : State) (t : Nat) (cx : Cx) (x : Tile) (h : SlotRec) : Tile :=
  let n := (fld h.word 12 6).toNat
  let f := x.flag n
  if slotClass h.word ≠ 11 then x
  else match slotOp h.word with
    | 0 => let k := (h.immU 12 (fld h.word 0 12).toNat).toNat; if f.ready k then x.putFlag n (f.take k) else x
    | 1 => if s.flagOutside t cx n then x else x.putFlag n (f.post (fld (h.immS 12 (fld h.word 0 12).toNat) 0 32))
    | 3 => if s.flagOutside t cx n then x else x.putFlag n (f.init (fld (h.immS 12 (fld h.word 0 12).toNat) 0 32))
    | _ => x

/-- The wait of a context succeeds on the tile as it stands for it (R102, R105). -/
def Tile.waitOver (x : Tile) (cx : Cx) : Bool :=
  match (x.ctx cx).wait with
  | some (.flag f k, _) => (x.flag f).ready k
  | some (.counters l o c m, _) => (x.ctx cx).counted l o c m
  | none => false

/-- The flags after a successful wait. -/
def Tile.waited (x : Tile) (cx : Cx) : Tile :=
  match (x.ctx cx).wait with
  | some (.flag f k, _) => x.putFlag f ((x.flag f).take k)
  | _ => x

/-- The choice on one tile (R29, R73, R383): the turns, what the bundles that issue bring, which contexts land results in
step 1, the engine's weight, and whether the limiter holds both bundles or the secondary's alone. -/
structure Choice where
  p : Turn
  q : Turn
  bp : Option Bid
  bq : Option Bid
  landP : Bool
  landQ : Bool
  eng : Nat
  hold : Bool
  holdQ : Bool
  deriving DecidableEq, Repr

/-- The classes and the weight of the core cycle. -/
def Choice.total (c : Choice) : Bid := (c.bp.getD {}).add ((c.bq.getD {}).add ⟨[], c.eng⟩)

/-- A trap at a landing is due, and the other pushes of that landing enter their queues (R52). -/
def Turn.overflows (u : Turn) (l : Landing) : Bool :=
  match u with
  | .traps (.land _ _) _ => l.qovf.isSome
  | _ => false

/-- A waiting context whose wait ends in this core cycle lands in it and issues (R383), or meets QOVF at the landing: the
answer says what its bundle brings, if it issues. The flags are those of `y`, `v` is the tile with its results landed, and
`taken` has been chosen on the tile. -/
def State.joins (s : State) (t : Nat) (x y v : Tile) (l : Landing) (cx : Cx) (b taken : Bid) : Option (Option Bid) :=
  let c := x.ctx cx
  if !y.waitOver cx || c.blocked (s.cleared t cx c) || b.meets taken || !x.admits (taken.weight + b.weight) then none
  else if l.qovf.isSome then some none
  else if !l.checks.isEmpty then none
  else match v.nextBundle s.code cx with
    | .error _ => none
    | .ok _ => some (some b)

/-- The choice where results of the primary land in step 1 (`lp`) and of the secondary (`lq`): each bundle finds the entries
that these landings have brought, the secondary's those that the primary's pops have left (R31). -/
def State.chooseWith (s : State) (t : Nat) (x : Tile) (lp lq : Bool) : Choice :=
  let m := s.code
  let p := s.turn t x .p
  let l := x.land .p
  let xp := if lp then l.tile else x
  let q := s.turn t xp .s
  let k := xp.land .s
  let vp := if lq then (l.tile.land .s).tile else l.tile
  let slots := if lp && (p = .ready || p = .waits && l.qovf.isNone) then vp.nextSlots m .p else []
  let vq := k.tile.popSlots .p (slots.drop (x.ctx .p).remake.length)
  let bp : Bid := if p.bids || p = .waits then vp.bid m .p else {}
  let bq : Bid := if q.bids || q = .waits then vq.bid m .s else {}
  let cp : Bid := if p.bids then bp else {}
  let cq : Bid := if q.bids then bq else {}
  let free := !cp.meets cq
  let eng := if x.seqRun.any (s.seqDue t) then 0 else x.engineWeight s.now
  let hold := (p.bids || q.bids) && !x.admits (cp.weight + (if free then cq.weight else 0) + eng)
  let alone := free || p != .ready && x.admits (cq.weight + eng)
  let goP := p = .ready && !hold
  let goQ := q = .ready && !hold && alone
  let t0 : Bid := Bid.add (if goP then bp else {}) (Bid.add (if goQ then bq else {}) ⟨[], eng⟩)
  let jp := if p = .waits then s.joins t x x vp l .p bp t0 else none
  let y := if p = .waits ∧ x.waitOver .p then x.waited .p else x
  let y := slots.foldl (s.flagsAfter t .p) y
  let jq := if q = .waits then s.joins t xp y vq k .s bq (t0.add (jp.join.getD {})) else none
  { p := p, q := q, bp := if goP then some bp else jp.join, bq := if goQ then some bq else jq.join
    landP := goP || jp.isSome || p.overflows l && !hold, landQ := goQ || jq.isSome || q.overflows k && !hold
    eng := eng, hold := hold, holdQ := hold || q = .ready && p != .ready && !alone }

/-- Whether a context may land results in step 1: the suppositions to be tried. -/
def Turn.mayLand : Turn → List Bool
  | .idle | .frozen => [false]
  | _ => [true, false]

/-- The choice on one tile: the one whose landings are those that it supposes, landings of both contexts tried first. Where
there is none (a landing that each bundle needs of the other context, whose bundle it then keeps from issuing), one context has
its turn alone: the primary, unless only the secondary's bundle is a candidate (DESIGN CHOICE, log 63). -/
def State.chosen (s : State) (t : Nat) (x : Tile) : Choice :=
  let hs := (s.turn t x .p).mayLand.flatMap fun lp => (s.turn t x .s).mayLand.map fun lq => (lp, lq)
  match (hs.map fun h => (h, s.chooseWith t x h.1 h.2)).find? fun c => c.2.landP == c.1.1 && c.2.landQ == c.1.2 with
  | some c => c.2
  | none =>
    let a := s.chooseWith t x true false
    let b := s.chooseWith t x false true
    if a.landP then { a with bq := none, landQ := false } else { b with bp := none, landP := false }

/-- The tile with its classes, weight and frozen cycles, and the work of its issue stage in the order of R31: the landings of
the primary and of the secondary, then for each its delayed accesses, its wait and its bundle. -/
def State.choose (s : State) (t : Nat) (x : Tile) : Tile × List Work :=
  let c := s.chosen t x
  let cold (u : Turn) (hold : Bool) : Bool := u = .frozen || u.bids && hold
  let x' := { x with classes := c.total.classes, weight := c.total.weight }
  let x' := if cold c.p c.hold then x'.modCtx .p (·.frozenCycle) else x'
  let x' := if cold c.q c.holdQ then x'.modCtx .s (·.frozenCycle) else x'
  let land (cx : Cx) (u : Turn) (lands : Bool) : List Work := match u with
    | .traps (.land a b) _ => if c.hold then [] else [.land a b]
    | _ => if lands then [.land t cx] else []
  let body (cx : Cx) (u : Turn) (go : Option Bid) (lands : Bool) : List Work :=
    let behind := u = .waits || (x.ctx cx).blocked []
    s.dueAccesses t cx (x.ctx cx) ++ (if u = .waits then [.retest t cx] else []) ++
    (match u with
      | .traps (.land _ _) _ => if behind && !c.hold then [.landLate t cx []] else []
      | .traps w next => if c.hold && next then [] else [w]
      | _ => if lands && behind then [.landLate t cx []] else []) ++ (go.map fun b => Work.begin t cx b).toList
  (x', land .p c.p c.landP ++ land .s c.q c.landQ ++ body .p c.p c.bp c.landP ++ body .s c.q c.bq c.landQ)

/-- The row bundleSelection. -/
def execBundleSelection (s : State) : Host.Outcome State Fault Refusal :=
  .next (match s.stage with
    | .issue => s
    | .system =>
      let l := s.tiles.map fun x => (x.1, s.choose x.1 x.2)
      { s with tiles := l.map (fun x => (x.1, x.2.1)), work := l.flatMap (fun x => x.2.2), stage := .issue })

/-! ### Waits (R102, R105, R383) -/

/-- A wait has succeeded in a later cycle: the next bundle issues in it if class rule and limiter admit it. Where the choice
has foreseen it, its landings have been made in step 1 and its bundle is planned; else both come now. -/
def State.letIn (s : State) (t : Nat) (cx : Cx) : State :=
  let x := s.tile t
  let l := x.land cx
  let b := l.tile.bid s.code cx
  let own : Bid := if l.qovf.isSome || !l.checks.isEmpty then {} else b
  if s.work.any (·.of t cx) then s
  else if (x.ctx cx).blocked [] then s.modCtx t cx (·.frozenCycle)
  else if b.meets ⟨x.classes, 0⟩ then s
  else if !x.admits (x.weight + b.weight) then s.modCtx t cx (·.frozenCycle)
  else
    State.modTile { s with work := .landLate t cx [] :: .begin t cx own :: s.work } t fun x =>
      { x with classes := x.classes ++ own.classes, weight := x.weight + own.weight }

/-- The row waitRetest. -/
def execWaitRetest (tile : Nat) (cx : Cx) (s : State) : Host.Outcome State Fault Refusal :=
  .next (match (s.ctx tile cx).wait with
    | none => s
    | some (w, _) =>
      let (s, ok, k) := s.testWait tile cx w
      if ok then (s.modCtx tile cx fun c => { c with wait := none, clock := clockJoin c.clock k }).letIn tile cx
      else (s.dropWork tile cx).modCtx tile cx (·.frozenCycle))

/-- The row storeRetirement (R201): the oldest store that is due retires, with the marks that a VJOIN has left to it (R203);
an operation that waited for it may ask. -/
def execStoreRetirement (tile : Nat) (cx : Cx) (s : State) : Host.Outcome State Fault Refusal :=
  .next (match (s.ctx tile cx).stores.find? fun x => decide (x.1 ≤ s.now) with
    | none => s
    | some x =>
      let s := s.modCtx tile cx fun c => { c with stores := c.stores.erase x, os := c.os - 1 }
      let s := s.modPart (s.partOf tile) fun y => { y with dir := y.dir.map fun g => g.retire (agentOf tile cx) x }
      s.seqAsk tile (s.now - 1))

/-! ### The next position (R76, R77, R84) -/

/-- R77: active sets that do not hold the target are deactivated. R77 says every active set; R86 says that a user program's
loops stay unchanged while a handler runs. The model follows R77 whatever SUP is: a branch taken in a handler deactivates the
user's sets too (DESIGN CHOICE, log 56). -/
def Regs.leaveLoops (r : Regs) (a : Dword) : Regs :=
  { r with loops := r.loops.map fun l => if l.count != 0 && !(l.ls.ule a && a.ule l.le) then { l with count := 0 } else l }

/-- The loop-end action at a bundle (R84): the new counts by set, and the redirection. -/
def Regs.loopEnd (r : Regs) (a : Dword) (mode : Bool) : List (Nat × BitVec 32) × Option Dword :=
  let at_ (n : Nat) : Option LoopSet :=
    let l := rd r.loops n {}
    if l.count != 0 && l.le == a && l.sup == mode then some l else none
  let one (n : Nat) (k : List (Nat × BitVec 32) × Option Dword) : List (Nat × BitVec 32) × Option Dword :=
    match at_ n with
    | none => k
    | some l => if 1 < l.count then ([(n, l.count - 1)], some l.ls) else ((n, 0) :: k.1, k.2)
  one 1 (one 0 ([], none))

/-- The position after a bundle: its address, the bundle's own forced target and annulment, and a loop's redirection. -/
def Pos.after (p : Pos) (seq : Dword) (target : Option Target) (annulNext : Bool) (loop : Option Dword) : Pos where
  pc := match p.t1 with
    | some a => a.addr
    | none => loop.getD seq
  t1 := p.t2
  t2 := target.or p.t3
  annul := if annulNext then 2 else p.annul - 1
  entry := p.t1.isSome || loop.isSome

/-! ### END (R91) -/

/-- The detail word of ABHELD. -/
def Tile.heldInfo (t : Tile) (cx : Cx) : Dword :=
  BitVec.ofNat 64 (t.banksHeld cx % 256 + (((List.range 128).find? fun b => t.bankOf b == some cx).getD 0) * 256)

/-- The queue that RESID reports: file, code, and whether it is a result in flight. -/
def Ctx.residue (c : Ctx) : Option (Bool × Nat × Bool) :=
  let codes : List (Bool × Nat) := (List.range 29).map (fun k => (false, k)) ++ (List.range 24).map (fun k => (true, k)) ++ [(true, 28), (true, 29)]
  let full (q : Bool × Nat) : Bool :=
    if q.1 then (if q.2 < 24 then !(rd c.regs.vq q.2 []).isEmpty else if q.2 = 28 then !c.regs.vld.isEmpty else !c.regs.kld.isEmpty)
    else !(rd c.regs.sq q.2 []).isEmpty
  let aimed (q : Bool × Nat) : Bool := c.inflight.any fun r => r.pay.queue == some q
  ((codes.find? full).map fun q => (q.1, q.2, false)).or ((codes.find? aimed).map fun q => (q.1, q.2, true))

/-- The cause of an END whose bundle has made its pops (R91). -/
def Tile.endFault (t : Tile) (cx : Cx) : Option (Nat × Dword) :=
  if t.banksHeld cx != 0 then some (Cause.abheld, t.heldInfo cx)
  else (t.ctx cx).residue.map fun q => (Cause.resid, BitVec.ofNat 64 (q.2.1 + b2n q.1 * 32 + b2n q.2.2 * 64))

/-! ### The commit of a bundle -/

/-- A raised cause by rising slot. -/
def lowestRaised : List Raised → Option Raised
  | [] => none
  | a :: r => match lowestRaised r with
    | some b => if b.cap.slot < a.cap.slot then some b else some a
    | none => some a

/-- The context after its bundle has issued (R8, R9, R15, R27, R48, R76): pops, results, counts and position. A target that a
RETI of the bundle discards is not taken (R81). -/
def Tile.retireBundle (t : Tile) (i : Issue) : Tile :=
  let t := i.pops.foldl (fun t p => t.pop i.cx p.1 p.2.1 p.2.2) t
  t.modCtx i.cx fun c =>
    let le := if c.pos.t1.isSome then ([], none) else c.regs.loopEnd i.addr c.frame.mode
    let loops : List Res := le.1.map fun x =>
      { rem := 1, slot := 0, pc := i.addr, pay := .sys (0x20 + 3 * x.1)
          (BitVec.ofNat 64 (x.2.toNat + b2n (rd c.regs.loops x.1 {}).sup * 2 ^ 32)) }
    let r := match c.pos.t1 with
      | some a => if a.chk && !i.reti then c.regs.leaveLoops a.addr else c.regs
      | none => c.regs
    let busy (b : Bool) (n : Nat) : Nat := if b then 23 else n - 1
    { c with
      regs := { r with cyc := r.cyc + 1 }
      inflight := c.inflight ++ (loops ++ i.out).map fun x => { x with seq := c.tick }
      divA := busy i.divA c.divA
      divB := busy i.divB c.divB
      remake := []
      pos := c.pos.after (i.addr + BitVec.ofNat 64 (4 * i.words.length)) i.target i.annulNext le.2 }

/-- Escapes of R359 among the bundle's slots. -/
def Issue.escapes (i : Issue) (r : Regs) : Bool :=
  !i.annulled && (List.range i.words.length).any fun k =>
    let w := i.words.getD k 0
    r.guard (fld w 18 3) && SlotRec.escapes { word := w, lits := leadLits (i.words.drop (k + 1)), slot := k, pc := i.addr }

/-- The accesses that the bundle has delayed, with the one request that its absent segments make (R242, R243). -/
def State.delayBundle (s : State) (i : Issue) : State :=
  let slot := ((i.delayed.filter fun d => d.why == .absent 0).map (·.cap.slot)).min?.getD 0
  let (id, s) := if i.absent.isEmpty then (0, s)
    else s.request i.tile i.cx 0 0 i.absent (s.ctx i.tile i.cx).laneRank s.now slot
  let patch (d : Delayed) : Delayed := match d.why with
    | .absent 0 => { d with why := .absent id }
    | .walk => { d with after := clockJoin d.after i.acquire }
    | _ => d
  s.modCtx i.tile i.cx fun c => { c with delayed := c.delayed ++ i.delayed.map patch }

/-- What the accesses of the bundle have learned comes before what the bundle has released (R258): the operations that it has
submitted, and its flags. -/
def State.releaseLearned (s : State) (i : Issue) : State :=
  let k := i.acquire
  let op (o : SeqOp) : SeqOp := if o.cx = i.cx ∧ i.base ≤ o.id then { o with clock := clockJoin o.clock k } else o
  State.modTile { s with eops := s.eops.map fun o =>
      if o.tile = i.tile ∧ o.cx = i.cx ∧ i.base ≤ o.id then { o with clock := clockJoin o.clock k } else o } i.tile fun x =>
    i.posted.foldl (fun x n => x.putFlag n { x.flag n with clock := clockJoin (x.flag n).clock k })
      { x with seqRun := x.seqRun.map op, seqWait := x.seqWait.map op }

/-- A walk of the same bundle decides at once where another slot has raised a cause (R349): its own fault joins the
bundle's. -/
def State.walkNow (s : State) (i : Issue) : State × List Raised :=
  (i.delayed.filter fun d => d.why == .walk).foldl (fun (s, l) d =>
    let s := s.modCtx i.tile i.cx fun c => { c with delayed := c.delayed.filter fun y => y.id != d.id }
    match s.eWalked i.tile i.cx d with
    | .ok s => (s, l)
    | .error e => (s, l ++ [⟨e.1, e.2, d.cap, 0⟩])) (s, i.raised)

/-- Causes raised at slots: the trap at the slot (R323, R324); beside an END in user mode the end of the task (log 17). -/
def State.takeRaised (s : State) (i : Issue) (raised : List Raised) : State :=
  match lowestRaised raised with
  | none => s
  | some r =>
    let c := s.ctx i.tile i.cx
    if i.endWord.isSome && !c.frame.mode && !c.lane.any (·.spec) && raised.all (fun y => y.cause != Cause.abheld && y.cause != Cause.resid) then
      s.modCtx i.tile i.cx fun c => { c with life := .faulted r.cause, inflight := [], wait := none }
    else s.trap i.tile i.cx r.cause r.cap.slot r.einfo c.pos.pc (raised.map Raised.toEntry) c.inflight

/-- END has passed its checks (R91, R338): the context issues nothing more; the accesses of its bundle that have been delayed
are still made. A check that differs, of END's own bundle (R99) or a VCHK of the bundle before it (R152), would land in an issued
cycle that never comes for the context, and a wait of END's own bundle that has not succeeded would be tested again: the spec is
silent, and the model raises no CHK and makes no further test (DESIGN CHOICE, log 54). -/
def State.takeEnd (s : State) (i : Issue) (word : Dword) : State :=
  let c := s.ctx i.tile i.cx
  if !c.frame.mode then s.modCtx i.tile i.cx fun c => { c with life := .ended word }
  else if c.frame.cause.toNat % 256 = Cause.intr && bit c.frame.einfo 4 then
    (if c.delayed.isEmpty then s.switchOut i.tile i.cx else s.modCtx i.tile i.cx fun c => { c with life := .ended word })
  else s.modCtx i.tile i.cx (·.fail (c.frame.cause.toNat % 256))

/-- The bundle in progress has executed its last slot. -/
def State.commit (s : State) (i : Issue) : State :=
  let t := i.tile
  let cx := i.cx
  let esc := i.escapes (s.ctx t cx).regs
  let s := { s with issue := none }
  let s := (s.modTile t (·.retireBundle i)).releaseLearned i
  let sup := (s.ctx t cx).frame.mode
  let ended : Option Raised := match i.endWord with
    | some (_, h) => if sup then none else ((s.tile t).endFault cx).map fun e : Nat × Dword => ⟨e.1, e.2, h, 0⟩
    | none => none
  let raised := i.raised ++ ended.toList
  let s := s.modCtx t cx fun c => if esc && c.phase.snap.isSome then c.escape else c
  let s : State := match i.trap with
    | some (slot, v) =>
      let (n, s) := s.next
      s.modCtx t cx fun c => { c with faults := c.faults ++ [⟨n, Cause.trap, slot, v⟩] }
    | none => s
  let (s, k) : State × Clock := match i.wait with
    | some (w, h) =>
      let (s, ok, k) := s.testWait t cx w
      if ok then (s, k) else (s.modCtx t cx fun c => { c with wait := some (w, h) }, [])
    | none => (s, [])
  let s := if i.reti && raised.isEmpty then s.modCtx t cx (·.reti) else s
  let s := s.delayBundle i
  let s := if i.commit then s.phaseCommit t cx (s.ctx t cx).tick else s
  let s := s.modCtx t cx fun c => { c with clock := clockJoin (clockJoin c.clock i.acquire) k }
  let (s, raised) := if raised.isEmpty then (s, raised) else s.walkNow { i with raised := raised }
  let s := s.modCtx t cx fun c => { c with tick := c.tick + 1 }
  let s := s.takeRaised i raised
  let s := match i.endWord with
    | some (w, _) => if raised.isEmpty then s.takeEnd i w else s
    | none => s
  s.seqAsk t s.now

/-! ### The end of a core cycle -/

/-- The limiter's window moves on (R75). -/
def Tile.endCycle (t : Tile) : Tile := { t with window := t.weight :: t.window.take 62, weight := 0, classes := [] }

/-- A core cycle is over (R10): PTIME advances by 10 ns in 7 core cycles. The faults of the cycle are noted (R320). -/
def State.endCycle (s : State) : State :=
  let s := s.noteFaults
  { s with
    tiles := s.tiles.map fun x => (x.1, x.2.endCycle)
    now := s.now + 1
    ptick := (s.ptick + 3) % 7
    ptime := if s.ptick < 4 then s.ptime + 1 else s.ptime + 2
    stage := .system
    taken := [] }

end Sys2Proof.Machine
end

