-- ==== Sys2Proof/Machine/Scalar.lean ====
section
/-! DEFINITION. The meanings of the scalar classes SA and SB (R95 to R99). -/

namespace Sys2Proof.Machine

/-! ### Results (R95, R96) -/

/-- Bits 127 to 64 of the signed product. -/
def mulhS (a b : Dword) : Dword := BitVec.ofInt 64 (a.toInt * b.toInt / 2 ^ 64)
/-- Bits 127 to 64 of the unsigned product. -/
def mulhU (a b : Dword) : Dword := BitVec.ofNat 64 (a.toNat * b.toNat / 2 ^ 64)
/-- The signed quotient, truncated toward zero, with the corners of R96. -/
def divS (a b : Dword) : Dword := if b = 0 then BitVec.allOnes 64 else a.sdiv b
def divU (a b : Dword) : Dword := if b = 0 then BitVec.allOnes 64 else a / b
/-- The signed remainder, with the sign of a (R96). -/
def remS (a b : Dword) : Dword := if b = 0 then a else a.srem b
def remU (a b : Dword) : Dword := if b = 0 then a else a % b
/-- A shift amount from a register: b[5:0] (R95). -/
def sham (b : Dword) : Nat := b.toNat % 64
def shl (a b : Dword) : Dword := a <<< sham b
def shr (a b : Dword) : Dword := a >>> sham b
def sar (a b : Dword) : Dword := a.sshiftRight (sham b)
def minS (a b : Dword) : Dword := if a.sle b then a else b
def maxS (a b : Dword) : Dword := if a.sle b then b else a
def minU (a b : Dword) : Dword := if a.ule b then a else b
def maxU (a b : Dword) : Dword := if a.ule b then b else a
/-- The number of leading zero bits among the low `n`. -/
def clzNat (x : Nat) : Nat → Nat
  | 0 => 0
  | n + 1 => if x.testBit n then 0 else 1 + clzNat x n
def clz (a : Dword) : Dword := BitVec.ofNat 64 (clzNat a.toNat 64)
/-- The number of one bits among the low `n`. -/
def popcNat (x : Nat) : Nat → Nat
  | 0 => 0
  | n + 1 => b2n (x.testBit n) + popcNat x n
def popc (a : Dword) : Dword := BitVec.ofNat 64 (popcNat a.toNat 64)
/-- Bits w to 0 of a, sign-extended (EXT). -/
def extS (a w : Dword) : Dword := (a <<< (63 - sham w)).sshiftRight (63 - sham w)
/-- Bits w to 0 of a, zero-extended (EXTZ). -/
def extU (a w : Dword) : Dword := (a <<< (63 - sham w)) >>> (63 - sham w)

/-! ### Shapes -/

/-- Two scalar sources and a scalar destination. -/
def alu2 (f : Dword → Dword → Dword) (l : Nat) (gd : BitVec 3) (d a b : BitVec 6) (s : State) :
    Host.Outcome State Fault Refusal :=
  runSlot gd [srcS a, srcS b] (fun h o s => s.pushS h d l (f o.s0 o.s1)) s

/-- A scalar source and a signed 6-bit immediate (ADDI). -/
def aluI (f : Dword → Dword → Dword) (gd : BitVec 3) (d a i : BitVec 6) (s : State) :
    Host.Outcome State Fault Refusal :=
  runSlot gd [srcS a] (fun h o s => s.pushS h d 1 (f o.s0 (h.immS 6 i.toNat))) s

/-- A scalar source and an unsigned 6-bit immediate, 0 to 63 (R63). -/
def aluN (f : Dword → Dword → Dword) (gd : BitVec 3) (d a i : BitVec 6) (s : State) :
    Host.Outcome State Fault Refusal :=
  runSlot gd [srcS a] (fun h o s => s.pushS h d 1 (f o.s0 (h.immU 6 i.toNat))) s

/-- One scalar source. -/
def alu1 (f : Dword → Dword) (gd : BitVec 3) (d a : BitVec 6) (s : State) : Host.Outcome State Fault Refusal :=
  runSlot gd [srcS a] (fun h o s => s.pushS h d 1 (f o.s0)) s

/-- The division family: the stage of the unit is busy from now on (R48, R96). -/
def division (sa : Bool) (f : Dword → Dword → Dword) (gd : BitVec 3) (d a b : BitVec 6) (s : State) :
    Host.Outcome State Fault Refusal :=
  runSlot gd [srcS a, srcS b] (fun h o s => (s.pushS h d 24 (f o.s0 o.s1)).modIssue fun i =>
    if sa then { i with divA := true } else { i with divB := true }) s

def movi (gd : BitVec 3) (d : BitVec 6) (i : BitVec 12) (s : State) : Host.Outcome State Fault Refusal :=
  runSlot gd [] (fun h _ s => s.pushS h d 1 (h.immS 12 i.toNat)) s

/-- CMP (R97): b is always popped. -/
def compare (k : Cc) (gd : BitVec 3) (p : BitVec 7) (a : BitVec 6) (b : BitVec 5) (s : State) :
    Host.Outcome State Fault Refusal :=
  runSlot gd [srcS a, srcB b] (fun h o s => s.push h 1 (.pred p.toNat (k.holds o.s0 o.s1))) s

/-- CMPI (R97, R63). -/
def compareI (k : Cc) (gd : BitVec 3) (p : BitVec 7) (a : BitVec 6) (i : BitVec 5) (s : State) :
    Host.Outcome State Fault Refusal :=
  runSlot gd [srcS a] (fun h o s => s.push h 1 (.pred p.toNat
    (k.holds o.s0 (if k.signed then h.immS 5 i.toNat else h.immU 5 i.toNat)))) s

/-- The predicate operations of R98: `f` gives the new pd from pd and pa. -/
def predOp (f : Bool → Bool → Bool) (gd : BitVec 3) (p q : BitVec 7) (s : State) : Host.Outcome State Fault Refusal :=
  runSlot gd [] (fun h _ s => s.push h 1 (.pred p.toNat
    (f (s.cur.regs.getPred p.toNat) (s.cur.regs.getPred q.toNat)))) s

def pseti (gd : BitVec 3) (p : BitVec 7) (b : BitVec 1) (s : State) : Host.Outcome State Fault Refusal :=
  runSlot gd [] (fun h _ s => s.push h 1 (.pred p.toNat (b == 1))) s

def ptos (gd : BitVec 3) (d : BitVec 6) (q : BitVec 7) (s : State) : Host.Outcome State Fault Refusal :=
  runSlot gd [] (fun h _ s => s.pushS h d 1 (BitVec.ofNat 64 (b2n (s.cur.regs.getPred q.toNat)))) s

def setp (gd : BitVec 3) (p : BitVec 7) (a : BitVec 6) (s : State) : Host.Outcome State Fault Refusal :=
  runSlot gd [srcS a] (fun h o s => s.push h 1 (.pred p.toNat (o.s0 != 0))) s

/-- SCHK (R99): CHK is raised at issue + 1 when the operands differ. -/
def scheck (gd : BitVec 3) (a b : BitVec 6) (s : State) : Host.Outcome State Fault Refusal :=
  runSlot gd [srcS a, srcS b] (fun h o s => if o.s0 = o.s1 then s else s.push h 1 (.check (o.s0 ^^^ o.s1))) s

/-! ### One meaning per instruction -/

/-- ADD in SA (R95). -/
def execAddSa (gd : BitVec 3) (d : BitVec 6) (a : BitVec 6) (b : BitVec 6) (s : State) : Host.Outcome State Fault Refusal :=
  alu2 (· + ·) 1 gd d a b s

/-- SUB in SA (R95). -/
def execSubSa (gd : BitVec 3) (d : BitVec 6) (a : BitVec 6) (b : BitVec 6) (s : State) : Host.Outcome State Fault Refusal :=
  alu2 (· - ·) 1 gd d a b s

/-- MUL in SA (R95). -/
def execMulSa (gd : BitVec 3) (d : BitVec 6) (a : BitVec 6) (b : BitVec 6) (s : State) : Host.Outcome State Fault Refusal :=
  alu2 (· * ·) 3 gd d a b s

/-- MULH in SA (R95). -/
def execMulhSa (gd : BitVec 3) (d : BitVec 6) (a : BitVec 6) (b : BitVec 6) (s : State) : Host.Outcome State Fault Refusal :=
  alu2 mulhS 3 gd d a b s

/-- MULHU in SA (R95). -/
def execMulhuSa (gd : BitVec 3) (d : BitVec 6) (a : BitVec 6) (b : BitVec 6) (s : State) : Host.Outcome State Fault Refusal :=
  alu2 mulhU 3 gd d a b s

/-- AND in SA (R95). -/
def execAndSa (gd : BitVec 3) (d : BitVec 6) (a : BitVec 6) (b : BitVec 6) (s : State) : Host.Outcome State Fault Refusal :=
  alu2 (· &&& ·) 1 gd d a b s

/-- OR in SA (R95). -/
def execOrSa (gd : BitVec 3) (d : BitVec 6) (a : BitVec 6) (b : BitVec 6) (s : State) : Host.Outcome State Fault Refusal :=
  alu2 (· ||| ·) 1 gd d a b s

/-- XOR in SA (R95). -/
def execXorSa (gd : BitVec 3) (d : BitVec 6) (a : BitVec 6) (b : BitVec 6) (s : State) : Host.Outcome State Fault Refusal :=
  alu2 (· ^^^ ·) 1 gd d a b s

/-- ANDN in SA (R95). -/
def execAndnSa (gd : BitVec 3) (d : BitVec 6) (a : BitVec 6) (b : BitVec 6) (s : State) : Host.Outcome State Fault Refusal :=
  alu2 (fun a b => a &&& ~~~b) 1 gd d a b s

/-- SHL in SA (R95). -/
def execShlSa (gd : BitVec 3) (d : BitVec 6) (a : BitVec 6) (b : BitVec 6) (s : State) : Host.Outcome State Fault Refusal :=
  alu2 shl 1 gd d a b s

/-- SHR in SA (R95). -/
def execShrSa (gd : BitVec 3) (d : BitVec 6) (a : BitVec 6) (b : BitVec 6) (s : State) : Host.Outcome State Fault Refusal :=
  alu2 shr 1 gd d a b s

/-- SAR in SA (R95). -/
def execSarSa (gd : BitVec 3) (d : BitVec 6) (a : BitVec 6) (b : BitVec 6) (s : State) : Host.Outcome State Fault Refusal :=
  alu2 sar 1 gd d a b s

/-- MIN in SA (R95). -/
def execMinSa (gd : BitVec 3) (d : BitVec 6) (a : BitVec 6) (b : BitVec 6) (s : State) : Host.Outcome State Fault Refusal :=
  alu2 minS 1 gd d a b s

/-- MAX in SA (R95). -/
def execMaxSa (gd : BitVec 3) (d : BitVec 6) (a : BitVec 6) (b : BitVec 6) (s : State) : Host.Outcome State Fault Refusal :=
  alu2 maxS 1 gd d a b s

/-- MINU in SA (R95). -/
def execMinuSa (gd : BitVec 3) (d : BitVec 6) (a : BitVec 6) (b : BitVec 6) (s : State) : Host.Outcome State Fault Refusal :=
  alu2 minU 1 gd d a b s

/-- MAXU in SA (R95). -/
def execMaxuSa (gd : BitVec 3) (d : BitVec 6) (a : BitVec 6) (b : BitVec 6) (s : State) : Host.Outcome State Fault Refusal :=
  alu2 maxU 1 gd d a b s

/-- ADDI in SA (R95). -/
def execAddiSa (gd : BitVec 3) (d : BitVec 6) (a : BitVec 6) (i : BitVec 6) (s : State) : Host.Outcome State Fault Refusal :=
  aluI (· + ·) gd d a i s

/-- SHLI in SA (R95). -/
def execShliSa (gd : BitVec 3) (d : BitVec 6) (a : BitVec 6) (i : BitVec 6) (s : State) : Host.Outcome State Fault Refusal :=
  aluN shl gd d a i s

/-- SHRI in SA (R95). -/
def execShriSa (gd : BitVec 3) (d : BitVec 6) (a : BitVec 6) (i : BitVec 6) (s : State) : Host.Outcome State Fault Refusal :=
  aluN shr gd d a i s

/-- SARI in SA (R95). -/
def execSariSa (gd : BitVec 3) (d : BitVec 6) (a : BitVec 6) (i : BitVec 6) (s : State) : Host.Outcome State Fault Refusal :=
  aluN sar gd d a i s

/-- EXT in SA (R95). -/
def execExtSa (gd : BitVec 3) (d : BitVec 6) (a : BitVec 6) (i : BitVec 6) (s : State) : Host.Outcome State Fault Refusal :=
  aluN extS gd d a i s

/-- EXTZ in SA (R95). -/
def execExtzSa (gd : BitVec 3) (d : BitVec 6) (a : BitVec 6) (i : BitVec 6) (s : State) : Host.Outcome State Fault Refusal :=
  aluN extU gd d a i s

/-- CLZ in SA (R95). -/
def execClzSa (gd : BitVec 3) (d : BitVec 6) (a : BitVec 6) (s : State) : Host.Outcome State Fault Refusal :=
  alu1 clz gd d a s

/-- POPC in SA (R95). -/
def execPopcSa (gd : BitVec 3) (d : BitVec 6) (a : BitVec 6) (s : State) : Host.Outcome State Fault Refusal :=
  alu1 popc gd d a s

/-- MOV in SA (R95). -/
def execMovSa (gd : BitVec 3) (d : BitVec 6) (a : BitVec 6) (s : State) : Host.Outcome State Fault Refusal :=
  alu1 id gd d a s

/-- DIV in SA (R96). -/
def execDivSa (gd : BitVec 3) (d : BitVec 6) (a : BitVec 6) (b : BitVec 6) (s : State) : Host.Outcome State Fault Refusal :=
  division true divS gd d a b s

/-- DIVU in SA (R96). -/
def execDivuSa (gd : BitVec 3) (d : BitVec 6) (a : BitVec 6) (b : BitVec 6) (s : State) : Host.Outcome State Fault Refusal :=
  division true divU gd d a b s

/-- REM in SA (R96). -/
def execRemSa (gd : BitVec 3) (d : BitVec 6) (a : BitVec 6) (b : BitVec 6) (s : State) : Host.Outcome State Fault Refusal :=
  division true remS gd d a b s

/-- REMU in SA (R96). -/
def execRemuSa (gd : BitVec 3) (d : BitVec 6) (a : BitVec 6) (b : BitVec 6) (s : State) : Host.Outcome State Fault Refusal :=
  division true remU gd d a b s

/-- MOVI in SA (R95). -/
def execMoviSa (gd : BitVec 3) (d : BitVec 6) (i : BitVec 12) (s : State) : Host.Outcome State Fault Refusal :=
  movi gd d i s

/-- CMP.EQ in SA (R97). -/
def execCmpEqSa (gd : BitVec 3) (p : BitVec 7) (a : BitVec 6) (b : BitVec 5) (s : State) : Host.Outcome State Fault Refusal :=
  compare .eq gd p a b s

/-- CMPI.EQ in SA (R97). -/
def execCmpiEqSa (gd : BitVec 3) (p : BitVec 7) (a : BitVec 6) (i : BitVec 5) (s : State) : Host.Outcome State Fault Refusal :=
  compareI .eq gd p a i s

/-- CMP.NE in SA (R97). -/
def execCmpNeSa (gd : BitVec 3) (p : BitVec 7) (a : BitVec 6) (b : BitVec 5) (s : State) : Host.Outcome State Fault Refusal :=
  compare .ne gd p a b s

/-- CMPI.NE in SA (R97). -/
def execCmpiNeSa (gd : BitVec 3) (p : BitVec 7) (a : BitVec 6) (i : BitVec 5) (s : State) : Host.Outcome State Fault Refusal :=
  compareI .ne gd p a i s

/-- CMP.LT in SA (R97). -/
def execCmpLtSa (gd : BitVec 3) (p : BitVec 7) (a : BitVec 6) (b : BitVec 5) (s : State) : Host.Outcome State Fault Refusal :=
  compare .lt gd p a b s

/-- CMPI.LT in SA (R97). -/
def execCmpiLtSa (gd : BitVec 3) (p : BitVec 7) (a : BitVec 6) (i : BitVec 5) (s : State) : Host.Outcome State Fault Refusal :=
  compareI .lt gd p a i s

/-- CMP.LE in SA (R97). -/
def execCmpLeSa (gd : BitVec 3) (p : BitVec 7) (a : BitVec 6) (b : BitVec 5) (s : State) : Host.Outcome State Fault Refusal :=
  compare .le gd p a b s

/-- CMPI.LE in SA (R97). -/
def execCmpiLeSa (gd : BitVec 3) (p : BitVec 7) (a : BitVec 6) (i : BitVec 5) (s : State) : Host.Outcome State Fault Refusal :=
  compareI .le gd p a i s

/-- CMP.LTU in SA (R97). -/
def execCmpLtuSa (gd : BitVec 3) (p : BitVec 7) (a : BitVec 6) (b : BitVec 5) (s : State) : Host.Outcome State Fault Refusal :=
  compare .ltu gd p a b s

/-- CMPI.LTU in SA (R97). -/
def execCmpiLtuSa (gd : BitVec 3) (p : BitVec 7) (a : BitVec 6) (i : BitVec 5) (s : State) : Host.Outcome State Fault Refusal :=
  compareI .ltu gd p a i s

/-- CMP.LEU in SA (R97). -/
def execCmpLeuSa (gd : BitVec 3) (p : BitVec 7) (a : BitVec 6) (b : BitVec 5) (s : State) : Host.Outcome State Fault Refusal :=
  compare .leu gd p a b s

/-- CMPI.LEU in SA (R97). -/
def execCmpiLeuSa (gd : BitVec 3) (p : BitVec 7) (a : BitVec 6) (i : BitVec 5) (s : State) : Host.Outcome State Fault Refusal :=
  compareI .leu gd p a i s

/-- PAND in SA (R98). -/
def execPandSa (gd : BitVec 3) (p : BitVec 7) (q : BitVec 7) (s : State) : Host.Outcome State Fault Refusal :=
  predOp (· && ·) gd p q s

/-- POR in SA (R98). -/
def execPorSa (gd : BitVec 3) (p : BitVec 7) (q : BitVec 7) (s : State) : Host.Outcome State Fault Refusal :=
  predOp (· || ·) gd p q s

/-- PXOR in SA (R98). -/
def execPxorSa (gd : BitVec 3) (p : BitVec 7) (q : BitVec 7) (s : State) : Host.Outcome State Fault Refusal :=
  predOp xor gd p q s

/-- PANDN in SA (R98). -/
def execPandnSa (gd : BitVec 3) (p : BitVec 7) (q : BitVec 7) (s : State) : Host.Outcome State Fault Refusal :=
  predOp (fun a b => a && !b) gd p q s

/-- PNOT in SA (R98). -/
def execPnotSa (gd : BitVec 3) (p : BitVec 7) (q : BitVec 7) (s : State) : Host.Outcome State Fault Refusal :=
  predOp (fun _ b => !b) gd p q s

/-- PMOV in SA (R98). -/
def execPmovSa (gd : BitVec 3) (p : BitVec 7) (q : BitVec 7) (s : State) : Host.Outcome State Fault Refusal :=
  predOp (fun _ b => b) gd p q s

/-- PSETI in SA (R98). -/
def execPsetiSa (gd : BitVec 3) (p : BitVec 7) (b : BitVec 1) (s : State) : Host.Outcome State Fault Refusal :=
  pseti gd p b s

/-- PTOS in SA (R98). -/
def execPtosSa (gd : BitVec 3) (d : BitVec 6) (q : BitVec 7) (s : State) : Host.Outcome State Fault Refusal :=
  ptos gd d q s

/-- SETP in SA (R98). -/
def execSetpSa (gd : BitVec 3) (p : BitVec 7) (a : BitVec 6) (s : State) : Host.Outcome State Fault Refusal :=
  setp gd p a s

/-- SCHK in SA (R99). -/
def execSchkSa (gd : BitVec 3) (a : BitVec 6) (b : BitVec 6) (s : State) : Host.Outcome State Fault Refusal :=
  scheck gd a b s

/-- ADD in SB (R95). -/
def execAddSb (gd : BitVec 3) (d : BitVec 6) (a : BitVec 6) (b : BitVec 6) (s : State) : Host.Outcome State Fault Refusal :=
  alu2 (· + ·) 1 gd d a b s

/-- SUB in SB (R95). -/
def execSubSb (gd : BitVec 3) (d : BitVec 6) (a : BitVec 6) (b : BitVec 6) (s : State) : Host.Outcome State Fault Refusal :=
  alu2 (· - ·) 1 gd d a b s

/-- MUL in SB (R95). -/
def execMulSb (gd : BitVec 3) (d : BitVec 6) (a : BitVec 6) (b : BitVec 6) (s : State) : Host.Outcome State Fault Refusal :=
  alu2 (· * ·) 3 gd d a b s

/-- MULH in SB (R95). -/
def execMulhSb (gd : BitVec 3) (d : BitVec 6) (a : BitVec 6) (b : BitVec 6) (s : State) : Host.Outcome State Fault Refusal :=
  alu2 mulhS 3 gd d a b s

/-- MULHU in SB (R95). -/
def execMulhuSb (gd : BitVec 3) (d : BitVec 6) (a : BitVec 6) (b : BitVec 6) (s : State) : Host.Outcome State Fault Refusal :=
  alu2 mulhU 3 gd d a b s

/-- AND in SB (R95). -/
def execAndSb (gd : BitVec 3) (d : BitVec 6) (a : BitVec 6) (b : BitVec 6) (s : State) : Host.Outcome State Fault Refusal :=
  alu2 (· &&& ·) 1 gd d a b s

/-- OR in SB (R95). -/
def execOrSb (gd : BitVec 3) (d : BitVec 6) (a : BitVec 6) (b : BitVec 6) (s : State) : Host.Outcome State Fault Refusal :=
  alu2 (· ||| ·) 1 gd d a b s

/-- XOR in SB (R95). -/
def execXorSb (gd : BitVec 3) (d : BitVec 6) (a : BitVec 6) (b : BitVec 6) (s : State) : Host.Outcome State Fault Refusal :=
  alu2 (· ^^^ ·) 1 gd d a b s

/-- ANDN in SB (R95). -/
def execAndnSb (gd : BitVec 3) (d : BitVec 6) (a : BitVec 6) (b : BitVec 6) (s : State) : Host.Outcome State Fault Refusal :=
  alu2 (fun a b => a &&& ~~~b) 1 gd d a b s

/-- SHL in SB (R95). -/
def execShlSb (gd : BitVec 3) (d : BitVec 6) (a : BitVec 6) (b : BitVec 6) (s : State) : Host.Outcome State Fault Refusal :=
  alu2 shl 1 gd d a b s

/-- SHR in SB (R95). -/
def execShrSb (gd : BitVec 3) (d : BitVec 6) (a : BitVec 6) (b : BitVec 6) (s : State) : Host.Outcome State Fault Refusal :=
  alu2 shr 1 gd d a b s

/-- SAR in SB (R95). -/
def execSarSb (gd : BitVec 3) (d : BitVec 6) (a : BitVec 6) (b : BitVec 6) (s : State) : Host.Outcome State Fault Refusal :=
  alu2 sar 1 gd d a b s

/-- MIN in SB (R95). -/
def execMinSb (gd : BitVec 3) (d : BitVec 6) (a : BitVec 6) (b : BitVec 6) (s : State) : Host.Outcome State Fault Refusal :=
  alu2 minS 1 gd d a b s

/-- MAX in SB (R95). -/
def execMaxSb (gd : BitVec 3) (d : BitVec 6) (a : BitVec 6) (b : BitVec 6) (s : State) : Host.Outcome State Fault Refusal :=
  alu2 maxS 1 gd d a b s

/-- MINU in SB (R95). -/
def execMinuSb (gd : BitVec 3) (d : BitVec 6) (a : BitVec 6) (b : BitVec 6) (s : State) : Host.Outcome State Fault Refusal :=
  alu2 minU 1 gd d a b s

/-- MAXU in SB (R95). -/
def execMaxuSb (gd : BitVec 3) (d : BitVec 6) (a : BitVec 6) (b : BitVec 6) (s : State) : Host.Outcome State Fault Refusal :=
  alu2 maxU 1 gd d a b s

/-- ADDI in SB (R95). -/
def execAddiSb (gd : BitVec 3) (d : BitVec 6) (a : BitVec 6) (i : BitVec 6) (s : State) : Host.Outcome State Fault Refusal :=
  aluI (· + ·) gd d a i s

/-- SHLI in SB (R95). -/
def execShliSb (gd : BitVec 3) (d : BitVec 6) (a : BitVec 6) (i : BitVec 6) (s : State) : Host.Outcome State Fault Refusal :=
  aluN shl gd d a i s

/-- SHRI in SB (R95). -/
def execShriSb (gd : BitVec 3) (d : BitVec 6) (a : BitVec 6) (i : BitVec 6) (s : State) : Host.Outcome State Fault Refusal :=
  aluN shr gd d a i s

/-- SARI in SB (R95). -/
def execSariSb (gd : BitVec 3) (d : BitVec 6) (a : BitVec 6) (i : BitVec 6) (s : State) : Host.Outcome State Fault Refusal :=
  aluN sar gd d a i s

/-- EXT in SB (R95). -/
def execExtSb (gd : BitVec 3) (d : BitVec 6) (a : BitVec 6) (i : BitVec 6) (s : State) : Host.Outcome State Fault Refusal :=
  aluN extS gd d a i s

/-- EXTZ in SB (R95). -/
def execExtzSb (gd : BitVec 3) (d : BitVec 6) (a : BitVec 6) (i : BitVec 6) (s : State) : Host.Outcome State Fault Refusal :=
  aluN extU gd d a i s

/-- CLZ in SB (R95). -/
def execClzSb (gd : BitVec 3) (d : BitVec 6) (a : BitVec 6) (s : State) : Host.Outcome State Fault Refusal :=
  alu1 clz gd d a s

/-- POPC in SB (R95). -/
def execPopcSb (gd : BitVec 3) (d : BitVec 6) (a : BitVec 6) (s : State) : Host.Outcome State Fault Refusal :=
  alu1 popc gd d a s

/-- MOV in SB (R95). -/
def execMovSb (gd : BitVec 3) (d : BitVec 6) (a : BitVec 6) (s : State) : Host.Outcome State Fault Refusal :=
  alu1 id gd d a s

/-- DIV in SB (R96). -/
def execDivSb (gd : BitVec 3) (d : BitVec 6) (a : BitVec 6) (b : BitVec 6) (s : State) : Host.Outcome State Fault Refusal :=
  division false divS gd d a b s

/-- DIVU in SB (R96). -/
def execDivuSb (gd : BitVec 3) (d : BitVec 6) (a : BitVec 6) (b : BitVec 6) (s : State) : Host.Outcome State Fault Refusal :=
  division false divU gd d a b s

/-- REM in SB (R96). -/
def execRemSb (gd : BitVec 3) (d : BitVec 6) (a : BitVec 6) (b : BitVec 6) (s : State) : Host.Outcome State Fault Refusal :=
  division false remS gd d a b s

/-- REMU in SB (R96). -/
def execRemuSb (gd : BitVec 3) (d : BitVec 6) (a : BitVec 6) (b : BitVec 6) (s : State) : Host.Outcome State Fault Refusal :=
  division false remU gd d a b s

/-- MOVI in SB (R95). -/
def execMoviSb (gd : BitVec 3) (d : BitVec 6) (i : BitVec 12) (s : State) : Host.Outcome State Fault Refusal :=
  movi gd d i s

/-- CMP.EQ in SB (R97). -/
def execCmpEqSb (gd : BitVec 3) (p : BitVec 7) (a : BitVec 6) (b : BitVec 5) (s : State) : Host.Outcome State Fault Refusal :=
  compare .eq gd p a b s

/-- CMPI.EQ in SB (R97). -/
def execCmpiEqSb (gd : BitVec 3) (p : BitVec 7) (a : BitVec 6) (i : BitVec 5) (s : State) : Host.Outcome State Fault Refusal :=
  compareI .eq gd p a i s

/-- CMP.NE in SB (R97). -/
def execCmpNeSb (gd : BitVec 3) (p : BitVec 7) (a : BitVec 6) (b : BitVec 5) (s : State) : Host.Outcome State Fault Refusal :=
  compare .ne gd p a b s

/-- CMPI.NE in SB (R97). -/
def execCmpiNeSb (gd : BitVec 3) (p : BitVec 7) (a : BitVec 6) (i : BitVec 5) (s : State) : Host.Outcome State Fault Refusal :=
  compareI .ne gd p a i s

/-- CMP.LT in SB (R97). -/
def execCmpLtSb (gd : BitVec 3) (p : BitVec 7) (a : BitVec 6) (b : BitVec 5) (s : State) : Host.Outcome State Fault Refusal :=
  compare .lt gd p a b s

/-- CMPI.LT in SB (R97). -/
def execCmpiLtSb (gd : BitVec 3) (p : BitVec 7) (a : BitVec 6) (i : BitVec 5) (s : State) : Host.Outcome State Fault Refusal :=
  compareI .lt gd p a i s

/-- CMP.LE in SB (R97). -/
def execCmpLeSb (gd : BitVec 3) (p : BitVec 7) (a : BitVec 6) (b : BitVec 5) (s : State) : Host.Outcome State Fault Refusal :=
  compare .le gd p a b s

/-- CMPI.LE in SB (R97). -/
def execCmpiLeSb (gd : BitVec 3) (p : BitVec 7) (a : BitVec 6) (i : BitVec 5) (s : State) : Host.Outcome State Fault Refusal :=
  compareI .le gd p a i s

/-- CMP.LTU in SB (R97). -/
def execCmpLtuSb (gd : BitVec 3) (p : BitVec 7) (a : BitVec 6) (b : BitVec 5) (s : State) : Host.Outcome State Fault Refusal :=
  compare .ltu gd p a b s

/-- CMPI.LTU in SB (R97). -/
def execCmpiLtuSb (gd : BitVec 3) (p : BitVec 7) (a : BitVec 6) (i : BitVec 5) (s : State) : Host.Outcome State Fault Refusal :=
  compareI .ltu gd p a i s

/-- CMP.LEU in SB (R97). -/
def execCmpLeuSb (gd : BitVec 3) (p : BitVec 7) (a : BitVec 6) (b : BitVec 5) (s : State) : Host.Outcome State Fault Refusal :=
  compare .leu gd p a b s

/-- CMPI.LEU in SB (R97). -/
def execCmpiLeuSb (gd : BitVec 3) (p : BitVec 7) (a : BitVec 6) (i : BitVec 5) (s : State) : Host.Outcome State Fault Refusal :=
  compareI .leu gd p a i s

/-- PAND in SB (R98). -/
def execPandSb (gd : BitVec 3) (p : BitVec 7) (q : BitVec 7) (s : State) : Host.Outcome State Fault Refusal :=
  predOp (· && ·) gd p q s

/-- POR in SB (R98). -/
def execPorSb (gd : BitVec 3) (p : BitVec 7) (q : BitVec 7) (s : State) : Host.Outcome State Fault Refusal :=
  predOp (· || ·) gd p q s

/-- PXOR in SB (R98). -/
def execPxorSb (gd : BitVec 3) (p : BitVec 7) (q : BitVec 7) (s : State) : Host.Outcome State Fault Refusal :=
  predOp xor gd p q s

/-- PANDN in SB (R98). -/
def execPandnSb (gd : BitVec 3) (p : BitVec 7) (q : BitVec 7) (s : State) : Host.Outcome State Fault Refusal :=
  predOp (fun a b => a && !b) gd p q s

/-- PNOT in SB (R98). -/
def execPnotSb (gd : BitVec 3) (p : BitVec 7) (q : BitVec 7) (s : State) : Host.Outcome State Fault Refusal :=
  predOp (fun _ b => !b) gd p q s

/-- PMOV in SB (R98). -/
def execPmovSb (gd : BitVec 3) (p : BitVec 7) (q : BitVec 7) (s : State) : Host.Outcome State Fault Refusal :=
  predOp (fun _ b => b) gd p q s

/-- PSETI in SB (R98). -/
def execPsetiSb (gd : BitVec 3) (p : BitVec 7) (b : BitVec 1) (s : State) : Host.Outcome State Fault Refusal :=
  pseti gd p b s

/-- PTOS in SB (R98). -/
def execPtosSb (gd : BitVec 3) (d : BitVec 6) (q : BitVec 7) (s : State) : Host.Outcome State Fault Refusal :=
  ptos gd d q s

/-- SETP in SB (R98). -/
def execSetpSb (gd : BitVec 3) (p : BitVec 7) (a : BitVec 6) (s : State) : Host.Outcome State Fault Refusal :=
  setp gd p a s

/-- SCHK in SB (R99). -/
def execSchkSb (gd : BitVec 3) (a : BitVec 6) (b : BitVec 6) (s : State) : Host.Outcome State Fault Refusal :=
  scheck gd a b s

end Sys2Proof.Machine
end

