-- ==== Sys2Proof/Machine/Dispatch.lean ====
section
/-! DEFINITION. The meaning of every instruction, arm by arm. -/

namespace Sys2Proof.Machine

/-- One step of the instruction `i` (the meanings stand in the family files). -/
def exec (i : Instr) (s : State) : Host.Outcome State Fault Refusal :=
  match i with
  | .resultLanding tile cx => Sys2Proof.Machine.execResultLanding tile cx s
  | .waitRetest tile cx => Sys2Proof.Machine.execWaitRetest tile cx s
  | .lateDatumArrival tile cx => Sys2Proof.Machine.execLateDatumArrival tile cx s
  | .delayedCoreAccess tile cx => Sys2Proof.Machine.execDelayedCoreAccess tile cx s
  | .bundleSelection => Sys2Proof.Machine.execBundleSelection s
  | .intr tile cx => Sys2Proof.Machine.execIntr tile cx s
  | .operationFaultDelivery tile cx => Sys2Proof.Machine.execOperationFaultDelivery tile cx s
  | .endComplete tile cx => Sys2Proof.Machine.execEndComplete tile cx s
  | .signalApply => Sys2Proof.Machine.execSignalApply s
  | .engineRead op => Sys2Proof.Machine.execEngineRead op s
  | .engineLand op => Sys2Proof.Machine.execEngineLand op s
  | .eComplete op => Sys2Proof.Machine.execEComplete op s
  | .requestGrant req => Sys2Proof.Machine.execRequestGrant req s
  | .seqComplete tile => Sys2Proof.Machine.execSeqComplete tile s
  | .moveBegin tile => Sys2Proof.Machine.execMoveBegin tile s
  | .moveApplied tile => Sys2Proof.Machine.execMoveApplied tile s
  | .kvRowLand id => Sys2Proof.Machine.execKvRowLand id s
  | .pageFetchApplied id => Sys2Proof.Machine.execPageFetchApplied id s
  | .roundSize task => Sys2Proof.Machine.execRoundSize task s
  | .seal task => Sys2Proof.Machine.execSeal task s
  | .settle task => Sys2Proof.Machine.execSettle task s
  | .recordTake part ring => Sys2Proof.Machine.execRecordTake part ring s
  | .dispatchStep part => Sys2Proof.Machine.execDispatchStep part s
  | .tokenAge part => Sys2Proof.Machine.execTokenAge part s
  | .checkpoint tile cx => Sys2Proof.Machine.execCheckpoint tile cx s
  | .taskStart task => Sys2Proof.Machine.execTaskStart task s
  | .ttPlace part => Sys2Proof.Machine.execTtPlace part s
  | .suspend part => Sys2Proof.Machine.execSuspend part s
  | .meflagsStop tile cx => Sys2Proof.Machine.execMeflagsStop tile cx s
  | .ilimWrite tile v => Sys2Proof.Machine.execIlimWrite tile v s
  | .eqRemove tile => Sys2Proof.Machine.execEqRemove tile s
  | .eqSubmit tile => Sys2Proof.Machine.execEqSubmit tile s
  | .rbClear tile cx => Sys2Proof.Machine.execRbClear tile cx s
  | .rbdataWrite tile cx v => Sys2Proof.Machine.execRbdataWrite tile cx v s
  | .registerWrite part addr v => Sys2Proof.Machine.execRegisterWrite part addr v s
  | .ringEnable part ring v => Sys2Proof.Machine.execRingEnable part ring v s
  | .tailWrite part ring v => Sys2Proof.Machine.execTailWrite part ring v s
  | .tlbWalkDone tile cx => Sys2Proof.Machine.execTlbWalkDone tile cx s
  | .lockAcquire op => Sys2Proof.Machine.execLockAcquire op s
  | .tlbinv part v => Sys2Proof.Machine.execTlbinv part v s
  | .tlbinvComplete part => Sys2Proof.Machine.execTlbinvComplete part s
  | .migrationStart part v => Sys2Proof.Machine.execMigrationStart part v s
  | .migrationFreeze part => Sys2Proof.Machine.execMigrationFreeze part s
  | .migrationSwitch part => Sys2Proof.Machine.execMigrationSwitch part s
  | .hostMemoryAccess part addr len data => Sys2Proof.Machine.execHostMemoryAccess part addr len data s
  | .doorbell part v => Sys2Proof.Machine.execDoorbell part v s
  | .wdctlWrite part v => Sys2Proof.Machine.execWdctlWrite part v s
  | .wdkick part => Sys2Proof.Machine.execWdkick part s
  | .watchdogFirstExpiry part => Sys2Proof.Machine.execWatchdogFirstExpiry part s
  | .watchdogSecondExpiry part => Sys2Proof.Machine.execWatchdogSecondExpiry part s
  | .partitionFreeze part => Sys2Proof.Machine.execPartitionFreeze part s
  | .partitionResume part => Sys2Proof.Machine.execPartitionResume part s
  | .partitionKill part => Sys2Proof.Machine.execPartitionKill part s
  | .partitionReset part => Sys2Proof.Machine.execPartitionReset part s
  | .flitSend port data => Sys2Proof.Machine.execFlitSend port data s
  | .flitReceive port sq good data => Sys2Proof.Machine.execFlitReceive port sq good data s
  | .nak port sq => Sys2Proof.Machine.execNak port sq s
  | .ack port sq => Sys2Proof.Machine.execAck port sq s
  | .boot => Sys2Proof.Machine.execBoot s
  | .getVersion => Sys2Proof.Machine.execGetVersion s
  | .getCapabilities => Sys2Proof.Machine.execGetCapabilities s
  | .negotiateAlgorithms data => Sys2Proof.Machine.execNegotiateAlgorithms data s
  | .getDigests => Sys2Proof.Machine.execGetDigests s
  | .getCertificate data => Sys2Proof.Machine.execGetCertificate data s
  | .challenge data => Sys2Proof.Machine.execChallenge data s
  | .getMeasurements idx => Sys2Proof.Machine.execGetMeasurements idx s
  | .pldmMonitoring data => Sys2Proof.Machine.execPldmMonitoring data s
  | .pldmFirmwareUpdate idx data => Sys2Proof.Machine.execPldmFirmwareUpdate idx data s
  | .ptpMessage val => Sys2Proof.Machine.execPtpMessage val s
  | .schedulerUpdate data => Sys2Proof.Machine.execSchedulerUpdate data s
  | .heartbeat => Sys2Proof.Machine.execHeartbeat s
  | .heartbeatTimeout => Sys2Proof.Machine.execHeartbeatTimeout s
  | .setPowerCap val => Sys2Proof.Machine.execSetPowerCap val s
  | .undervoltage => Sys2Proof.Machine.execUndervoltage s
  | .powerRestore => Sys2Proof.Machine.execPowerRestore s
  | .thermalThrottle idx => Sys2Proof.Machine.execThermalThrottle idx s
  | .thermalShutdown => Sys2Proof.Machine.execThermalShutdown s
  | .scrub => Sys2Proof.Machine.execScrub s
  | .rollback tile cx => Sys2Proof.Machine.execRollback tile cx s
  | .pseudoChannelDrop part idx => Sys2Proof.Machine.execPseudoChannelDrop part idx s
  | .monitorTimerExpiry tile cx => Sys2Proof.Machine.execMonitorTimerExpiry tile cx s
  | .debugHaltRequest tile cx => Sys2Proof.Machine.execDebugHaltRequest tile cx s
  | .storeRetirement tile cx => Sys2Proof.Machine.execStoreRetirement tile cx s
  | .holdover => Sys2Proof.Machine.execHoldover s
  | .ownerUnreachable id => Sys2Proof.Machine.execOwnerUnreachable id s
  | .linkTrained port => Sys2Proof.Machine.execLinkTrained port s
  | .br _ gd imm => Sys2Proof.Machine.execBr gd imm s
  | .brNa _ gd imm => Sys2Proof.Machine.execBrNa gd imm s
  | .brNt _ gd imm => Sys2Proof.Machine.execBrNt gd imm s
  | .bri _ gd a => Sys2Proof.Machine.execBri gd a s
  | .call _ gd d imm => Sys2Proof.Machine.execCall gd d imm s
  | .loop0 _ gd a imm => Sys2Proof.Machine.execLoop0 gd a imm s
  | .loop1 _ gd a imm => Sys2Proof.Machine.execLoop1 gd a imm s
  | .loopi0 _ gd c imm => Sys2Proof.Machine.execLoopi0 gd c imm s
  | .loopi1 _ gd c imm => Sys2Proof.Machine.execLoopi1 gd c imm s
  | .endTask _ gd a => Sys2Proof.Machine.execEndTask gd a s
  | .trap _ gd imm => Sys2Proof.Machine.execTrap gd imm s
  | .reti _ gd => Sys2Proof.Machine.execReti gd s
  | .brk _ gd imm => Sys2Proof.Machine.execBrk gd imm s
  | .gmap _ gd w p e => Sys2Proof.Machine.execGmap gd w p e s
  | .srd _ gd d imm => Sys2Proof.Machine.execSrd gd d imm s
  | .swr _ gd a imm => Sys2Proof.Machine.execSwr gd a imm s
  | .cget _ gd d k => Sys2Proof.Machine.execCget gd d k s
  | .cset _ gd a k => Sys2Proof.Machine.execCset gd a k s
  | .acmp _ gd a k => Sys2Proof.Machine.execAcmp gd a k s
  | .cgset _ gd a l k => Sys2Proof.Machine.execCgset gd a l k s
  | .slane _ gd d => Sys2Proof.Machine.execSlane gd d s
  | .addSa _ gd d a b => Sys2Proof.Machine.execAddSa gd d a b s
  | .addSb _ gd d a b => Sys2Proof.Machine.execAddSb gd d a b s
  | .subSa _ gd d a b => Sys2Proof.Machine.execSubSa gd d a b s
  | .subSb _ gd d a b => Sys2Proof.Machine.execSubSb gd d a b s
  | .addiSa _ gd d a imm => Sys2Proof.Machine.execAddiSa gd d a imm s
  | .addiSb _ gd d a imm => Sys2Proof.Machine.execAddiSb gd d a imm s
  | .mulSa _ gd d a b => Sys2Proof.Machine.execMulSa gd d a b s
  | .mulSb _ gd d a b => Sys2Proof.Machine.execMulSb gd d a b s
  | .mulhSa _ gd d a b => Sys2Proof.Machine.execMulhSa gd d a b s
  | .mulhSb _ gd d a b => Sys2Proof.Machine.execMulhSb gd d a b s
  | .mulhuSa _ gd d a b => Sys2Proof.Machine.execMulhuSa gd d a b s
  | .mulhuSb _ gd d a b => Sys2Proof.Machine.execMulhuSb gd d a b s
  | .divSa _ gd d a b => Sys2Proof.Machine.execDivSa gd d a b s
  | .divSb _ gd d a b => Sys2Proof.Machine.execDivSb gd d a b s
  | .divuSa _ gd d a b => Sys2Proof.Machine.execDivuSa gd d a b s
  | .divuSb _ gd d a b => Sys2Proof.Machine.execDivuSb gd d a b s
  | .remSa _ gd d a b => Sys2Proof.Machine.execRemSa gd d a b s
  | .remSb _ gd d a b => Sys2Proof.Machine.execRemSb gd d a b s
  | .remuSa _ gd d a b => Sys2Proof.Machine.execRemuSa gd d a b s
  | .remuSb _ gd d a b => Sys2Proof.Machine.execRemuSb gd d a b s
  | .andSa _ gd d a b => Sys2Proof.Machine.execAndSa gd d a b s
  | .andSb _ gd d a b => Sys2Proof.Machine.execAndSb gd d a b s
  | .orSa _ gd d a b => Sys2Proof.Machine.execOrSa gd d a b s
  | .orSb _ gd d a b => Sys2Proof.Machine.execOrSb gd d a b s
  | .xorSa _ gd d a b => Sys2Proof.Machine.execXorSa gd d a b s
  | .xorSb _ gd d a b => Sys2Proof.Machine.execXorSb gd d a b s
  | .andnSa _ gd d a b => Sys2Proof.Machine.execAndnSa gd d a b s
  | .andnSb _ gd d a b => Sys2Proof.Machine.execAndnSb gd d a b s
  | .shlSa _ gd d a b => Sys2Proof.Machine.execShlSa gd d a b s
  | .shlSb _ gd d a b => Sys2Proof.Machine.execShlSb gd d a b s
  | .shrSa _ gd d a b => Sys2Proof.Machine.execShrSa gd d a b s
  | .shrSb _ gd d a b => Sys2Proof.Machine.execShrSb gd d a b s
  | .sarSa _ gd d a b => Sys2Proof.Machine.execSarSa gd d a b s
  | .sarSb _ gd d a b => Sys2Proof.Machine.execSarSb gd d a b s
  | .shliSa _ gd d a imm => Sys2Proof.Machine.execShliSa gd d a imm s
  | .shliSb _ gd d a imm => Sys2Proof.Machine.execShliSb gd d a imm s
  | .shriSa _ gd d a imm => Sys2Proof.Machine.execShriSa gd d a imm s
  | .shriSb _ gd d a imm => Sys2Proof.Machine.execShriSb gd d a imm s
  | .sariSa _ gd d a imm => Sys2Proof.Machine.execSariSa gd d a imm s
  | .sariSb _ gd d a imm => Sys2Proof.Machine.execSariSb gd d a imm s
  | .minSa _ gd d a b => Sys2Proof.Machine.execMinSa gd d a b s
  | .minSb _ gd d a b => Sys2Proof.Machine.execMinSb gd d a b s
  | .maxSa _ gd d a b => Sys2Proof.Machine.execMaxSa gd d a b s
  | .maxSb _ gd d a b => Sys2Proof.Machine.execMaxSb gd d a b s
  | .minuSa _ gd d a b => Sys2Proof.Machine.execMinuSa gd d a b s
  | .minuSb _ gd d a b => Sys2Proof.Machine.execMinuSb gd d a b s
  | .maxuSa _ gd d a b => Sys2Proof.Machine.execMaxuSa gd d a b s
  | .maxuSb _ gd d a b => Sys2Proof.Machine.execMaxuSb gd d a b s
  | .clzSa _ gd d a => Sys2Proof.Machine.execClzSa gd d a s
  | .clzSb _ gd d a => Sys2Proof.Machine.execClzSb gd d a s
  | .popcSa _ gd d a => Sys2Proof.Machine.execPopcSa gd d a s
  | .popcSb _ gd d a => Sys2Proof.Machine.execPopcSb gd d a s
  | .extSa _ gd d a imm => Sys2Proof.Machine.execExtSa gd d a imm s
  | .extSb _ gd d a imm => Sys2Proof.Machine.execExtSb gd d a imm s
  | .extzSa _ gd d a imm => Sys2Proof.Machine.execExtzSa gd d a imm s
  | .extzSb _ gd d a imm => Sys2Proof.Machine.execExtzSb gd d a imm s
  | .movSa _ gd d a => Sys2Proof.Machine.execMovSa gd d a s
  | .movSb _ gd d a => Sys2Proof.Machine.execMovSb gd d a s
  | .moviSa _ gd d imm => Sys2Proof.Machine.execMoviSa gd d imm s
  | .moviSb _ gd d imm => Sys2Proof.Machine.execMoviSb gd d imm s
  | .cmpEqSa _ gd p a b => Sys2Proof.Machine.execCmpEqSa gd p a b s
  | .cmpEqSb _ gd p a b => Sys2Proof.Machine.execCmpEqSb gd p a b s
  | .cmpNeSa _ gd p a b => Sys2Proof.Machine.execCmpNeSa gd p a b s
  | .cmpNeSb _ gd p a b => Sys2Proof.Machine.execCmpNeSb gd p a b s
  | .cmpLtSa _ gd p a b => Sys2Proof.Machine.execCmpLtSa gd p a b s
  | .cmpLtSb _ gd p a b => Sys2Proof.Machine.execCmpLtSb gd p a b s
  | .cmpLeSa _ gd p a b => Sys2Proof.Machine.execCmpLeSa gd p a b s
  | .cmpLeSb _ gd p a b => Sys2Proof.Machine.execCmpLeSb gd p a b s
  | .cmpLtuSa _ gd p a b => Sys2Proof.Machine.execCmpLtuSa gd p a b s
  | .cmpLtuSb _ gd p a b => Sys2Proof.Machine.execCmpLtuSb gd p a b s
  | .cmpLeuSa _ gd p a b => Sys2Proof.Machine.execCmpLeuSa gd p a b s
  | .cmpLeuSb _ gd p a b => Sys2Proof.Machine.execCmpLeuSb gd p a b s
  | .cmpiEqSa _ gd p a imm => Sys2Proof.Machine.execCmpiEqSa gd p a imm s
  | .cmpiEqSb _ gd p a imm => Sys2Proof.Machine.execCmpiEqSb gd p a imm s
  | .cmpiNeSa _ gd p a imm => Sys2Proof.Machine.execCmpiNeSa gd p a imm s
  | .cmpiNeSb _ gd p a imm => Sys2Proof.Machine.execCmpiNeSb gd p a imm s
  | .cmpiLtSa _ gd p a imm => Sys2Proof.Machine.execCmpiLtSa gd p a imm s
  | .cmpiLtSb _ gd p a imm => Sys2Proof.Machine.execCmpiLtSb gd p a imm s
  | .cmpiLeSa _ gd p a imm => Sys2Proof.Machine.execCmpiLeSa gd p a imm s
  | .cmpiLeSb _ gd p a imm => Sys2Proof.Machine.execCmpiLeSb gd p a imm s
  | .cmpiLtuSa _ gd p a imm => Sys2Proof.Machine.execCmpiLtuSa gd p a imm s
  | .cmpiLtuSb _ gd p a imm => Sys2Proof.Machine.execCmpiLtuSb gd p a imm s
  | .cmpiLeuSa _ gd p a imm => Sys2Proof.Machine.execCmpiLeuSa gd p a imm s
  | .cmpiLeuSb _ gd p a imm => Sys2Proof.Machine.execCmpiLeuSb gd p a imm s
  | .pandSa _ gd p q => Sys2Proof.Machine.execPandSa gd p q s
  | .pandSb _ gd p q => Sys2Proof.Machine.execPandSb gd p q s
  | .porSa _ gd p q => Sys2Proof.Machine.execPorSa gd p q s
  | .porSb _ gd p q => Sys2Proof.Machine.execPorSb gd p q s
  | .pxorSa _ gd p q => Sys2Proof.Machine.execPxorSa gd p q s
  | .pxorSb _ gd p q => Sys2Proof.Machine.execPxorSb gd p q s
  | .pandnSa _ gd p q => Sys2Proof.Machine.execPandnSa gd p q s
  | .pandnSb _ gd p q => Sys2Proof.Machine.execPandnSb gd p q s
  | .pnotSa _ gd p q => Sys2Proof.Machine.execPnotSa gd p q s
  | .pnotSb _ gd p q => Sys2Proof.Machine.execPnotSb gd p q s
  | .pmovSa _ gd p q => Sys2Proof.Machine.execPmovSa gd p q s
  | .pmovSb _ gd p q => Sys2Proof.Machine.execPmovSb gd p q s
  | .psetiSa _ gd p b => Sys2Proof.Machine.execPsetiSa gd p b s
  | .psetiSb _ gd p b => Sys2Proof.Machine.execPsetiSb gd p b s
  | .ptosSa _ gd d q => Sys2Proof.Machine.execPtosSa gd d q s
  | .ptosSb _ gd d q => Sys2Proof.Machine.execPtosSb gd d q s
  | .setpSa _ gd p a => Sys2Proof.Machine.execSetpSa gd p a s
  | .setpSb _ gd p a => Sys2Proof.Machine.execSetpSb gd p a s
  | .schkSa _ gd a b => Sys2Proof.Machine.execSchkSa gd a b s
  | .schkSb _ gd a b => Sys2Proof.Machine.execSchkSb gd a b s
  | .vaddF32Va _ gd d a b => Sys2Proof.Machine.execVaddF32Va gd d a b s
  | .vaddF32Vb _ gd d a b => Sys2Proof.Machine.execVaddF32Vb gd d a b s
  | .vsubF32Va _ gd d a b => Sys2Proof.Machine.execVsubF32Va gd d a b s
  | .vsubF32Vb _ gd d a b => Sys2Proof.Machine.execVsubF32Vb gd d a b s
  | .vmulF32Va _ gd d a b => Sys2Proof.Machine.execVmulF32Va gd d a b s
  | .vmulF32Vb _ gd d a b => Sys2Proof.Machine.execVmulF32Vb gd d a b s
  | .vfmaF32Va _ gd d a b => Sys2Proof.Machine.execVfmaF32Va gd d a b s
  | .vfmaF32Vb _ gd d a b => Sys2Proof.Machine.execVfmaF32Vb gd d a b s
  | .vfmsF32Va _ gd d a b => Sys2Proof.Machine.execVfmsF32Va gd d a b s
  | .vfmsF32Vb _ gd d a b => Sys2Proof.Machine.execVfmsF32Vb gd d a b s
  | .vminF32Va _ gd d a b => Sys2Proof.Machine.execVminF32Va gd d a b s
  | .vminF32Vb _ gd d a b => Sys2Proof.Machine.execVminF32Vb gd d a b s
  | .vmaxF32Va _ gd d a b => Sys2Proof.Machine.execVmaxF32Va gd d a b s
  | .vmaxF32Vb _ gd d a b => Sys2Proof.Machine.execVmaxF32Vb gd d a b s
  | .vabsF32Va _ gd d a => Sys2Proof.Machine.execVabsF32Va gd d a s
  | .vabsF32Vb _ gd d a => Sys2Proof.Machine.execVabsF32Vb gd d a s
  | .vnegF32Va _ gd d a => Sys2Proof.Machine.execVnegF32Va gd d a s
  | .vnegF32Vb _ gd d a => Sys2Proof.Machine.execVnegF32Vb gd d a s
  | .vaddBfVa _ gd d a b => Sys2Proof.Machine.execVaddBfVa gd d a b s
  | .vaddBfVb _ gd d a b => Sys2Proof.Machine.execVaddBfVb gd d a b s
  | .vmulBfVa _ gd d a b => Sys2Proof.Machine.execVmulBfVa gd d a b s
  | .vmulBfVb _ gd d a b => Sys2Proof.Machine.execVmulBfVb gd d a b s
  | .vfmaBfVa _ gd d a b => Sys2Proof.Machine.execVfmaBfVa gd d a b s
  | .vfmaBfVb _ gd d a b => Sys2Proof.Machine.execVfmaBfVb gd d a b s
  | .vaddHfVa _ gd d a b => Sys2Proof.Machine.execVaddHfVa gd d a b s
  | .vaddHfVb _ gd d a b => Sys2Proof.Machine.execVaddHfVb gd d a b s
  | .vmulHfVa _ gd d a b => Sys2Proof.Machine.execVmulHfVa gd d a b s
  | .vmulHfVb _ gd d a b => Sys2Proof.Machine.execVmulHfVb gd d a b s
  | .vfmaHfVa _ gd d a b => Sys2Proof.Machine.execVfmaHfVa gd d a b s
  | .vfmaHfVb _ gd d a b => Sys2Proof.Machine.execVfmaHfVb gd d a b s
  | .vaddI32Va _ gd d a b => Sys2Proof.Machine.execVaddI32Va gd d a b s
  | .vaddI32Vb _ gd d a b => Sys2Proof.Machine.execVaddI32Vb gd d a b s
  | .vsubI32Va _ gd d a b => Sys2Proof.Machine.execVsubI32Va gd d a b s
  | .vsubI32Vb _ gd d a b => Sys2Proof.Machine.execVsubI32Vb gd d a b s
  | .vmulI32Va _ gd d a b => Sys2Proof.Machine.execVmulI32Va gd d a b s
  | .vmulI32Vb _ gd d a b => Sys2Proof.Machine.execVmulI32Vb gd d a b s
  | .vminI32Va _ gd d a b => Sys2Proof.Machine.execVminI32Va gd d a b s
  | .vminI32Vb _ gd d a b => Sys2Proof.Machine.execVminI32Vb gd d a b s
  | .vmaxI32Va _ gd d a b => Sys2Proof.Machine.execVmaxI32Va gd d a b s
  | .vmaxI32Vb _ gd d a b => Sys2Proof.Machine.execVmaxI32Vb gd d a b s
  | .vandVa _ gd d a b => Sys2Proof.Machine.execVandVa gd d a b s
  | .vandVb _ gd d a b => Sys2Proof.Machine.execVandVb gd d a b s
  | .vorVa _ gd d a b => Sys2Proof.Machine.execVorVa gd d a b s
  | .vorVb _ gd d a b => Sys2Proof.Machine.execVorVb gd d a b s
  | .vxorVa _ gd d a b => Sys2Proof.Machine.execVxorVa gd d a b s
  | .vxorVb _ gd d a b => Sys2Proof.Machine.execVxorVb gd d a b s
  | .vshlVa _ gd d a b => Sys2Proof.Machine.execVshlVa gd d a b s
  | .vshlVb _ gd d a b => Sys2Proof.Machine.execVshlVb gd d a b s
  | .vshrVa _ gd d a b => Sys2Proof.Machine.execVshrVa gd d a b s
  | .vshrVb _ gd d a b => Sys2Proof.Machine.execVshrVb gd d a b s
  | .vsarVa _ gd d a b => Sys2Proof.Machine.execVsarVa gd d a b s
  | .vsarVb _ gd d a b => Sys2Proof.Machine.execVsarVb gd d a b s
  | .vcmpEqF32Va _ gd d a b => Sys2Proof.Machine.execVcmpEqF32Va gd d a b s
  | .vcmpEqF32Vb _ gd d a b => Sys2Proof.Machine.execVcmpEqF32Vb gd d a b s
  | .vcmpLtF32Va _ gd d a b => Sys2Proof.Machine.execVcmpLtF32Va gd d a b s
  | .vcmpLtF32Vb _ gd d a b => Sys2Proof.Machine.execVcmpLtF32Vb gd d a b s
  | .vcmpLeF32Va _ gd d a b => Sys2Proof.Machine.execVcmpLeF32Va gd d a b s
  | .vcmpLeF32Vb _ gd d a b => Sys2Proof.Machine.execVcmpLeF32Vb gd d a b s
  | .vcmpEqI32Va _ gd d a b => Sys2Proof.Machine.execVcmpEqI32Va gd d a b s
  | .vcmpEqI32Vb _ gd d a b => Sys2Proof.Machine.execVcmpEqI32Vb gd d a b s
  | .vcmpLtI32Va _ gd d a b => Sys2Proof.Machine.execVcmpLtI32Va gd d a b s
  | .vcmpLtI32Vb _ gd d a b => Sys2Proof.Machine.execVcmpLtI32Vb gd d a b s
  | .vcmpLeI32Va _ gd d a b => Sys2Proof.Machine.execVcmpLeI32Va gd d a b s
  | .vcmpLeI32Vb _ gd d a b => Sys2Proof.Machine.execVcmpLeI32Vb gd d a b s
  | .vmandVa _ gd d a b => Sys2Proof.Machine.execVmandVa gd d a b s
  | .vmandVb _ gd d a b => Sys2Proof.Machine.execVmandVb gd d a b s
  | .vmorVa _ gd d a b => Sys2Proof.Machine.execVmorVa gd d a b s
  | .vmorVb _ gd d a b => Sys2Proof.Machine.execVmorVb gd d a b s
  | .vmnotVa _ gd d a => Sys2Proof.Machine.execVmnotVa gd d a s
  | .vmnotVb _ gd d a => Sys2Proof.Machine.execVmnotVb gd d a s
  | .vmsVa _ gd a => Sys2Proof.Machine.execVmsVa gd a s
  | .vmsVb _ gd a => Sys2Proof.Machine.execVmsVb gd a s
  | .vselVa _ gd d a b => Sys2Proof.Machine.execVselVa gd d a b s
  | .vselVb _ gd d a b => Sys2Proof.Machine.execVselVb gd d a b s
  | .vpermVa _ gd d a b => Sys2Proof.Machine.execVpermVa gd d a b s
  | .vpermVb _ gd d a b => Sys2Proof.Machine.execVpermVb gd d a b s
  | .vrotVa _ gd d a imm => Sys2Proof.Machine.execVrotVa gd d a imm s
  | .vrotVb _ gd d a imm => Sys2Proof.Machine.execVrotVb gd d a imm s
  | .vcvtF32I32Va _ gd d a => Sys2Proof.Machine.execVcvtF32I32Va gd d a s
  | .vcvtF32I32Vb _ gd d a => Sys2Proof.Machine.execVcvtF32I32Vb gd d a s
  | .vcvtI32F32Va _ gd d a => Sys2Proof.Machine.execVcvtI32F32Va gd d a s
  | .vcvtI32F32Vb _ gd d a => Sys2Proof.Machine.execVcvtI32F32Vb gd d a s
  | .vcvtI32F32zVa _ gd d a => Sys2Proof.Machine.execVcvtI32F32zVa gd d a s
  | .vcvtI32F32zVb _ gd d a => Sys2Proof.Machine.execVcvtI32F32zVb gd d a s
  | .vpackBfVa _ gd d a b => Sys2Proof.Machine.execVpackBfVa gd d a b s
  | .vpackBfVb _ gd d a b => Sys2Proof.Machine.execVpackBfVb gd d a b s
  | .vunpkBfVa _ gd d a h => Sys2Proof.Machine.execVunpkBfVa gd d a h s
  | .vunpkBfVb _ gd d a h => Sys2Proof.Machine.execVunpkBfVb gd d a h s
  | .vpackHfVa _ gd d a b => Sys2Proof.Machine.execVpackHfVa gd d a b s
  | .vpackHfVb _ gd d a b => Sys2Proof.Machine.execVpackHfVb gd d a b s
  | .vunpkHfVa _ gd d a h => Sys2Proof.Machine.execVunpkHfVa gd d a h s
  | .vunpkHfVb _ gd d a h => Sys2Proof.Machine.execVunpkHfVb gd d a h s
  | .vpack8E4Va _ gd d a b => Sys2Proof.Machine.execVpack8E4Va gd d a b s
  | .vpack8E4Vb _ gd d a b => Sys2Proof.Machine.execVpack8E4Vb gd d a b s
  | .vpack8E5Va _ gd d a b => Sys2Proof.Machine.execVpack8E5Va gd d a b s
  | .vpack8E5Vb _ gd d a b => Sys2Proof.Machine.execVpack8E5Vb gd d a b s
  | .vmrg8Va _ gd d a b => Sys2Proof.Machine.execVmrg8Va gd d a b s
  | .vmrg8Vb _ gd d a b => Sys2Proof.Machine.execVmrg8Vb gd d a b s
  | .vunpk8E4Va _ gd d a imm => Sys2Proof.Machine.execVunpk8E4Va gd d a imm s
  | .vunpk8E4Vb _ gd d a imm => Sys2Proof.Machine.execVunpk8E4Vb gd d a imm s
  | .vunpk8E5Va _ gd d a imm => Sys2Proof.Machine.execVunpk8E5Va gd d a imm s
  | .vunpk8E5Vb _ gd d a imm => Sys2Proof.Machine.execVunpk8E5Vb gd d a imm s
  | .vdot4I8Va _ gd d a b => Sys2Proof.Machine.execVdot4I8Va gd d a b s
  | .vdot4I8Vb _ gd d a b => Sys2Proof.Machine.execVdot4I8Vb gd d a b s
  | .vexp2 _ gd d a => Sys2Proof.Machine.execVexp2 gd d a s
  | .vlog2 _ gd d a => Sys2Proof.Machine.execVlog2 gd d a s
  | .vrcp _ gd d a => Sys2Proof.Machine.execVrcp gd d a s
  | .vrsq _ gd d a => Sys2Proof.Machine.execVrsq gd d a s
  | .vsqrt _ gd d a => Sys2Proof.Machine.execVsqrt gd d a s
  | .vdiv _ gd d a b => Sys2Proof.Machine.execVdiv gd d a b s
  | .vtanh _ gd d a => Sys2Proof.Machine.execVtanh gd d a s
  | .vrsumF32 _ gd d a => Sys2Proof.Machine.execVrsumF32 gd d a s
  | .vrmaxF32 _ gd d a => Sys2Proof.Machine.execVrmaxF32 gd d a s
  | .vrminF32 _ gd d a => Sys2Proof.Machine.execVrminF32 gd d a s
  | .vrsumI32 _ gd d a => Sys2Proof.Machine.execVrsumI32 gd d a s
  | .amaxu _ gd d a b => Sys2Proof.Machine.execAmaxu gd d a b s
  | .aexps _ gd d a b => Sys2Proof.Machine.execAexps gd d a b s
  | .aresc _ gd d a b => Sys2Proof.Machine.execAresc gd d a b s
  | .anorm _ gd d a b => Sys2Proof.Machine.execAnorm gd d a b s
  | .amrg _ gd d a b => Sys2Proof.Machine.execAmrg gd d a b s
  | .vchk _ gd a b => Sys2Proof.Machine.execVchk gd a b s
  | .xbc _ gd d a => Sys2Proof.Machine.execXbc gd d a s
  | .xins _ gd d a imm => Sys2Proof.Machine.execXins gd d a imm s
  | .xmk _ gd d a => Sys2Proof.Machine.execXmk gd d a s
  | .xext _ gd d a imm => Sys2Proof.Machine.execXext gd d a imm s
  | .xms _ gd d a => Sys2Proof.Machine.execXms gd d a s
  | .xfst _ gd d a => Sys2Proof.Machine.execXfst gd d a s
  | .ldb _ gd n o imm => Sys2Proof.Machine.execLdb gd n o imm s
  | .ldbz _ gd n o imm => Sys2Proof.Machine.execLdbz gd n o imm s
  | .ldh _ gd n o imm => Sys2Proof.Machine.execLdh gd n o imm s
  | .ldhz _ gd n o imm => Sys2Proof.Machine.execLdhz gd n o imm s
  | .ldw _ gd n o imm => Sys2Proof.Machine.execLdw gd n o imm s
  | .ldwz _ gd n o imm => Sys2Proof.Machine.execLdwz gd n o imm s
  | .ldd _ gd n o imm => Sys2Proof.Machine.execLdd gd n o imm s
  | .ldv _ gd n o imm => Sys2Proof.Machine.execLdv gd n o imm s
  | .ldvS _ gd n o imm => Sys2Proof.Machine.execLdvS gd n o imm s
  | .ldvg _ gd n o v => Sys2Proof.Machine.execLdvg gd n o v s
  | .stb _ gd n o x => Sys2Proof.Machine.execStb gd n o x s
  | .sth _ gd n o x => Sys2Proof.Machine.execSth gd n o x s
  | .stw _ gd n o x => Sys2Proof.Machine.execStw gd n o x s
  | .std _ gd n o x => Sys2Proof.Machine.execStd gd n o x s
  | .stv _ gd n o x => Sys2Proof.Machine.execStv gd n o x s
  | .stvS _ gd n o x => Sys2Proof.Machine.execStvS gd n o x s
  | .stvm _ gd n o x => Sys2Proof.Machine.execStvm gd n o x s
  | .stvs _ gd n o v => Sys2Proof.Machine.execStvs gd n o v s
  | .aaddW _ gd n o x => Sys2Proof.Machine.execAaddW gd n o x s
  | .aaddD _ gd n o x => Sys2Proof.Machine.execAaddD gd n o x s
  | .aminW _ gd n o x => Sys2Proof.Machine.execAminW gd n o x s
  | .amaxW _ gd n o x => Sys2Proof.Machine.execAmaxW gd n o x s
  | .axchgD _ gd n o x => Sys2Proof.Machine.execAxchgD gd n o x s
  | .acasD _ gd n o x => Sys2Proof.Machine.execAcasD gd n o x s
  | .vjoin _ gd n => Sys2Proof.Machine.execVjoin gd n s
  | .sbind _ gd n o => Sys2Proof.Machine.execSbind gd n o s
  | .sfree _ gd n => Sys2Proof.Machine.execSfree gd n s
  | .slen _ gd n d => Sys2Proof.Machine.execSlen gd n d s
  | .sfmt _ gd n d => Sys2Proof.Machine.execSfmt gd n d s
  | .sshd _ gd n => Sys2Proof.Machine.execSshd gd n s
  | .spub _ gd n => Sys2Proof.Machine.execSpub gd n s
  | .spubp _ gd n => Sys2Proof.Machine.execSpubp gd n s
  | .sdisc _ gd n => Sys2Proof.Machine.execSdisc gd n s
  | .kset _ gd h a => Sys2Proof.Machine.execKset gd h a s
  | .kclr _ gd h => Sys2Proof.Machine.execKclr gd h s
  | .kldk _ gd h a => Sys2Proof.Machine.execKldk gd h a s
  | .kldv _ gd h a => Sys2Proof.Machine.execKldv gd h a s
  | .kapp _ gd h a b => Sys2Proof.Machine.execKapp gd h a b s
  | .klen _ gd d h => Sys2Proof.Machine.execKlen gd d h s
  | .kmark _ gd h => Sys2Proof.Machine.execKmark gd h s
  | .ktrunc _ gd h a => Sys2Proof.Machine.execKtrunc gd h a s
  | .kivl _ gd imm a => Sys2Proof.Machine.execKivl gd imm a s
  | .kcls _ gd d a m => Sys2Proof.Machine.execKcls gd d a m s
  | .kpf _ gd h a => Sys2Proof.Machine.execKpf gd h a s
  | .cpyin _ gd n a => Sys2Proof.Machine.execCpyin gd n a s
  | .cpyinSh _ gd n a => Sys2Proof.Machine.execCpyinSh gd n a s
  | .cpyout _ gd n a => Sys2Proof.Machine.execCpyout gd n a s
  | .cpysg _ gd n a => Sys2Proof.Machine.execCpysg gd n a s
  | .cpymc _ gd n a => Sys2Proof.Machine.execCpymc gd n a s
  | .puts _ gd n a => Sys2Proof.Machine.execPuts gd n a s
  | .putr _ gd q a => Sys2Proof.Machine.execPutr gd q a s
  | .gets _ gd n a => Sys2Proof.Machine.execGets gd n a s
  | .atadd _ gd n a => Sys2Proof.Machine.execAtadd gd n a s
  | .atcas _ gd n a => Sys2Proof.Machine.execAtcas gd n a s
  | .atxch _ gd n a => Sys2Proof.Machine.execAtxch gd n a s
  | .spawn _ gd a => Sys2Proof.Machine.execSpawn gd a s
  | .waitf _ gd f imm => Sys2Proof.Machine.execWaitf gd f imm s
  | .postf _ gd f imm => Sys2Proof.Machine.execPostf gd f imm s
  | .postr _ gd a => Sys2Proof.Machine.execPostr gd a s
  | .finit _ gd f imm => Sys2Proof.Machine.execFinit gd f imm s
  | .waitc _ gd l t c m => Sys2Proof.Machine.execWaitc gd l t c m s
  | .frd _ gd d f => Sys2Proof.Machine.execFrd gd d f s
  | .mwl _ gd n o r => Sys2Proof.Machine.execMwl gd n o r s
  | .mwsw _ gd => Sys2Proof.Machine.execMwsw gd s
  | .mga _ gd n o v => Sys2Proof.Machine.execMga gd n o v s
  | .mac _ gd a b => Sys2Proof.Machine.execMac gd a b s
  | .macLatch _ gd a => Sys2Proof.Machine.execMacLatch gd a s
  | .macZ _ gd a b => Sys2Proof.Machine.execMacZ gd a b s
  | .macZLatch _ gd a => Sys2Proof.Machine.execMacZLatch gd a s
  | .mdr _ gd q a x f => Sys2Proof.Machine.execMdr gd q a x f s
  | .mrot _ gd a => Sys2Proof.Machine.execMrot gd a s
  | .mldh _ gd imm => Sys2Proof.Machine.execMldh gd imm s
  | .mset _ gd a e => Sys2Proof.Machine.execMset gd a e s
  | .abal _ gd d imm => Sys2Proof.Machine.execAbal gd d imm s
  | .abfr _ gd a imm => Sys2Proof.Machine.execAbfr gd a imm s
  | .mmul _ gd => Sys2Proof.Machine.execMmul gd s
  | .mmulR _ gd => Sys2Proof.Machine.execMmulR gd s
  | .mlu _ gd => Sys2Proof.Machine.execMlu gd s
  | .mluR _ gd => Sys2Proof.Machine.execMluR gd s
  | .mchol _ gd => Sys2Proof.Machine.execMchol gd s
  | .mcholR _ gd => Sys2Proof.Machine.execMcholR gd s
  | .mqr _ gd => Sys2Proof.Machine.execMqr gd s
  | .mqrR _ gd => Sys2Proof.Machine.execMqrR gd s
  | .mtrs _ gd => Sys2Proof.Machine.execMtrs gd s
  | .mperm _ gd => Sys2Proof.Machine.execMperm gd s
  | .lit _ _ => Sys2Proof.Machine.execLit s
  | .pad _ => Sys2Proof.Machine.execPad s

end Sys2Proof.Machine
end

