-- ==== Sys2Proof/Machine/Run.lean ====
section
/-! DEFINITION. A slot of a bundle is decoded and executed (R50). Lean's compiler cannot build the constructors of Instr
beyond number 244, so a twin of `runWord` that builds none is proved equal to it and stands for it in compiled code. -/

namespace Sys2Proof.Machine

/-- The slot in hand is left without an effect. -/
def Issue.skip (i : Issue) : Issue :=
  match i.remake with
  | _ :: r => { i with remake := r }
  | [] => { i with pos := i.pos + 1 }

/-- Decodes a slot word, with the literal bits behind it, and executes its instruction. A word without one can only be
a captured operation that a handler has rewritten (R332): it is dropped. -/
noncomputable def runWord (w : Word) (lits : List (BitVec 27)) (s : State) : Host.Outcome State Fault Refusal :=
  match decodeSlot w lits with
  | .ok i => exec i s
  | .error _ => .next (s.modIssue (·.skip))

/-- What a slot of class 0 does, by its opcode. -/
def runB (op : Nat) (gd : BitVec 3) (o : BitVec 18) (s : State) : Option (Host.Outcome State Fault Refusal) :=
  match op with
  | 0 => some (execBr gd o s)
  | 1 => some (execBrNa gd o s)
  | 2 => some (execBrNt gd o s)
  | 3 => some (execBri gd (fld o 6 6) s)
  | 4 => some (execCall gd (fld o 12 6) (fld o 0 12) s)
  | 5 => some (execLoop0 gd (fld o 12 6) (fld o 0 12) s)
  | 6 => some (execLoop1 gd (fld o 12 6) (fld o 0 12) s)
  | 7 => some (execLoopi0 gd (fld o 12 6) (fld o 0 12) s)
  | 8 => some (execLoopi1 gd (fld o 12 6) (fld o 0 12) s)
  | 9 => some (execEndTask gd (fld o 6 6) s)
  | 10 => some (execTrap gd (fld o 0 12) s)
  | 11 => some (execReti gd s)
  | 12 => some (execBrk gd (fld o 0 12) s)
  | 13 => some (execGmap gd (fld o 15 3) (fld o 8 7) (fld o 7 1) s)
  | 14 => some (execSrd gd (fld o 12 6) (fld o 0 12) s)
  | 15 => some (execSwr gd (fld o 12 6) (fld o 0 12) s)
  | 16 => some (execCget gd (fld o 12 6) (fld o 0 3) s)
  | 17 => some (execCset gd (fld o 12 6) (fld o 0 3) s)
  | 18 => some (execAcmp gd (fld o 12 6) (fld o 0 3) s)
  | 19 => some (execCgset gd (fld o 12 6) (fld o 3 3) (fld o 0 3) s)
  | 20 => some (execSlane gd (fld o 12 6) s)
  | _ => none

theorem runB_eq (st : BitVec 1) (op : Nat) (h : op < 64) (gd : BitVec 3) (o : BitVec 18) (s : State) :
    (decodeB st op gd o).map (fun i => exec i s) = runB op gd o s := by
  interval_cases op <;> rfl

/-- What a slot of class 1 does, by its opcode. -/
def runSa (op : Nat) (gd : BitVec 3) (o : BitVec 18) (s : State) : Option (Host.Outcome State Fault Refusal) :=
  match op with
  | 0 => some (execAddSa gd (fld o 12 6) (fld o 6 6) (fld o 0 6) s)
  | 1 => some (execSubSa gd (fld o 12 6) (fld o 6 6) (fld o 0 6) s)
  | 2 => some (execAddiSa gd (fld o 12 6) (fld o 6 6) (fld o 0 6) s)
  | 3 => some (execMulSa gd (fld o 12 6) (fld o 6 6) (fld o 0 6) s)
  | 4 => some (execMulhSa gd (fld o 12 6) (fld o 6 6) (fld o 0 6) s)
  | 5 => some (execMulhuSa gd (fld o 12 6) (fld o 6 6) (fld o 0 6) s)
  | 6 => some (execDivSa gd (fld o 12 6) (fld o 6 6) (fld o 0 6) s)
  | 7 => some (execDivuSa gd (fld o 12 6) (fld o 6 6) (fld o 0 6) s)
  | 8 => some (execRemSa gd (fld o 12 6) (fld o 6 6) (fld o 0 6) s)
  | 9 => some (execRemuSa gd (fld o 12 6) (fld o 6 6) (fld o 0 6) s)
  | 10 => some (execAndSa gd (fld o 12 6) (fld o 6 6) (fld o 0 6) s)
  | 11 => some (execOrSa gd (fld o 12 6) (fld o 6 6) (fld o 0 6) s)
  | 12 => some (execXorSa gd (fld o 12 6) (fld o 6 6) (fld o 0 6) s)
  | 13 => some (execAndnSa gd (fld o 12 6) (fld o 6 6) (fld o 0 6) s)
  | 14 => some (execShlSa gd (fld o 12 6) (fld o 6 6) (fld o 0 6) s)
  | 15 => some (execShrSa gd (fld o 12 6) (fld o 6 6) (fld o 0 6) s)
  | 16 => some (execSarSa gd (fld o 12 6) (fld o 6 6) (fld o 0 6) s)
  | 17 => some (execShliSa gd (fld o 12 6) (fld o 6 6) (fld o 0 6) s)
  | 18 => some (execShriSa gd (fld o 12 6) (fld o 6 6) (fld o 0 6) s)
  | 19 => some (execSariSa gd (fld o 12 6) (fld o 6 6) (fld o 0 6) s)
  | 20 => some (execMinSa gd (fld o 12 6) (fld o 6 6) (fld o 0 6) s)
  | 21 => some (execMaxSa gd (fld o 12 6) (fld o 6 6) (fld o 0 6) s)
  | 22 => some (execMinuSa gd (fld o 12 6) (fld o 6 6) (fld o 0 6) s)
  | 23 => some (execMaxuSa gd (fld o 12 6) (fld o 6 6) (fld o 0 6) s)
  | 24 => some (execClzSa gd (fld o 12 6) (fld o 6 6) s)
  | 25 => some (execPopcSa gd (fld o 12 6) (fld o 6 6) s)
  | 26 => some (execExtSa gd (fld o 12 6) (fld o 6 6) (fld o 0 6) s)
  | 27 => some (execExtzSa gd (fld o 12 6) (fld o 6 6) (fld o 0 6) s)
  | 28 => some (execMovSa gd (fld o 12 6) (fld o 6 6) s)
  | 29 => some (execMoviSa gd (fld o 12 6) (fld o 0 12) s)
  | 32 => some (execCmpEqSa gd (fld o 11 7) (fld o 5 6) (fld o 0 5) s)
  | 33 => some (execCmpNeSa gd (fld o 11 7) (fld o 5 6) (fld o 0 5) s)
  | 34 => some (execCmpLtSa gd (fld o 11 7) (fld o 5 6) (fld o 0 5) s)
  | 35 => some (execCmpLeSa gd (fld o 11 7) (fld o 5 6) (fld o 0 5) s)
  | 36 => some (execCmpLtuSa gd (fld o 11 7) (fld o 5 6) (fld o 0 5) s)
  | 37 => some (execCmpLeuSa gd (fld o 11 7) (fld o 5 6) (fld o 0 5) s)
  | 38 => some (execCmpiEqSa gd (fld o 11 7) (fld o 5 6) (fld o 0 5) s)
  | 39 => some (execCmpiNeSa gd (fld o 11 7) (fld o 5 6) (fld o 0 5) s)
  | 40 => some (execCmpiLtSa gd (fld o 11 7) (fld o 5 6) (fld o 0 5) s)
  | 41 => some (execCmpiLeSa gd (fld o 11 7) (fld o 5 6) (fld o 0 5) s)
  | 42 => some (execCmpiLtuSa gd (fld o 11 7) (fld o 5 6) (fld o 0 5) s)
  | 43 => some (execCmpiLeuSa gd (fld o 11 7) (fld o 5 6) (fld o 0 5) s)
  | 44 => some (execPandSa gd (fld o 11 7) (fld o 4 7) s)
  | 45 => some (execPorSa gd (fld o 11 7) (fld o 4 7) s)
  | 46 => some (execPxorSa gd (fld o 11 7) (fld o 4 7) s)
  | 47 => some (execPandnSa gd (fld o 11 7) (fld o 4 7) s)
  | 48 => some (execPnotSa gd (fld o 11 7) (fld o 4 7) s)
  | 49 => some (execPmovSa gd (fld o 11 7) (fld o 4 7) s)
  | 50 => some (execPsetiSa gd (fld o 11 7) (fld o 0 1) s)
  | 51 => some (execPtosSa gd (fld o 12 6) (fld o 0 7) s)
  | 52 => some (execSetpSa gd (fld o 11 7) (fld o 5 6) s)
  | 53 => some (execSchkSa gd (fld o 6 6) (fld o 0 6) s)
  | _ => none

theorem runSa_eq (st : BitVec 1) (op : Nat) (h : op < 64) (gd : BitVec 3) (o : BitVec 18) (s : State) :
    (decodeSa st op gd o).map (fun i => exec i s) = runSa op gd o s := by
  interval_cases op <;> rfl

/-- What a slot of class 2 does, by its opcode. -/
def runSb (op : Nat) (gd : BitVec 3) (o : BitVec 18) (s : State) : Option (Host.Outcome State Fault Refusal) :=
  match op with
  | 0 => some (execAddSb gd (fld o 12 6) (fld o 6 6) (fld o 0 6) s)
  | 1 => some (execSubSb gd (fld o 12 6) (fld o 6 6) (fld o 0 6) s)
  | 2 => some (execAddiSb gd (fld o 12 6) (fld o 6 6) (fld o 0 6) s)
  | 3 => some (execMulSb gd (fld o 12 6) (fld o 6 6) (fld o 0 6) s)
  | 4 => some (execMulhSb gd (fld o 12 6) (fld o 6 6) (fld o 0 6) s)
  | 5 => some (execMulhuSb gd (fld o 12 6) (fld o 6 6) (fld o 0 6) s)
  | 6 => some (execDivSb gd (fld o 12 6) (fld o 6 6) (fld o 0 6) s)
  | 7 => some (execDivuSb gd (fld o 12 6) (fld o 6 6) (fld o 0 6) s)
  | 8 => some (execRemSb gd (fld o 12 6) (fld o 6 6) (fld o 0 6) s)
  | 9 => some (execRemuSb gd (fld o 12 6) (fld o 6 6) (fld o 0 6) s)
  | 10 => some (execAndSb gd (fld o 12 6) (fld o 6 6) (fld o 0 6) s)
  | 11 => some (execOrSb gd (fld o 12 6) (fld o 6 6) (fld o 0 6) s)
  | 12 => some (execXorSb gd (fld o 12 6) (fld o 6 6) (fld o 0 6) s)
  | 13 => some (execAndnSb gd (fld o 12 6) (fld o 6 6) (fld o 0 6) s)
  | 14 => some (execShlSb gd (fld o 12 6) (fld o 6 6) (fld o 0 6) s)
  | 15 => some (execShrSb gd (fld o 12 6) (fld o 6 6) (fld o 0 6) s)
  | 16 => some (execSarSb gd (fld o 12 6) (fld o 6 6) (fld o 0 6) s)
  | 17 => some (execShliSb gd (fld o 12 6) (fld o 6 6) (fld o 0 6) s)
  | 18 => some (execShriSb gd (fld o 12 6) (fld o 6 6) (fld o 0 6) s)
  | 19 => some (execSariSb gd (fld o 12 6) (fld o 6 6) (fld o 0 6) s)
  | 20 => some (execMinSb gd (fld o 12 6) (fld o 6 6) (fld o 0 6) s)
  | 21 => some (execMaxSb gd (fld o 12 6) (fld o 6 6) (fld o 0 6) s)
  | 22 => some (execMinuSb gd (fld o 12 6) (fld o 6 6) (fld o 0 6) s)
  | 23 => some (execMaxuSb gd (fld o 12 6) (fld o 6 6) (fld o 0 6) s)
  | 24 => some (execClzSb gd (fld o 12 6) (fld o 6 6) s)
  | 25 => some (execPopcSb gd (fld o 12 6) (fld o 6 6) s)
  | 26 => some (execExtSb gd (fld o 12 6) (fld o 6 6) (fld o 0 6) s)
  | 27 => some (execExtzSb gd (fld o 12 6) (fld o 6 6) (fld o 0 6) s)
  | 28 => some (execMovSb gd (fld o 12 6) (fld o 6 6) s)
  | 29 => some (execMoviSb gd (fld o 12 6) (fld o 0 12) s)
  | 32 => some (execCmpEqSb gd (fld o 11 7) (fld o 5 6) (fld o 0 5) s)
  | 33 => some (execCmpNeSb gd (fld o 11 7) (fld o 5 6) (fld o 0 5) s)
  | 34 => some (execCmpLtSb gd (fld o 11 7) (fld o 5 6) (fld o 0 5) s)
  | 35 => some (execCmpLeSb gd (fld o 11 7) (fld o 5 6) (fld o 0 5) s)
  | 36 => some (execCmpLtuSb gd (fld o 11 7) (fld o 5 6) (fld o 0 5) s)
  | 37 => some (execCmpLeuSb gd (fld o 11 7) (fld o 5 6) (fld o 0 5) s)
  | 38 => some (execCmpiEqSb gd (fld o 11 7) (fld o 5 6) (fld o 0 5) s)
  | 39 => some (execCmpiNeSb gd (fld o 11 7) (fld o 5 6) (fld o 0 5) s)
  | 40 => some (execCmpiLtSb gd (fld o 11 7) (fld o 5 6) (fld o 0 5) s)
  | 41 => some (execCmpiLeSb gd (fld o 11 7) (fld o 5 6) (fld o 0 5) s)
  | 42 => some (execCmpiLtuSb gd (fld o 11 7) (fld o 5 6) (fld o 0 5) s)
  | 43 => some (execCmpiLeuSb gd (fld o 11 7) (fld o 5 6) (fld o 0 5) s)
  | 44 => some (execPandSb gd (fld o 11 7) (fld o 4 7) s)
  | 45 => some (execPorSb gd (fld o 11 7) (fld o 4 7) s)
  | 46 => some (execPxorSb gd (fld o 11 7) (fld o 4 7) s)
  | 47 => some (execPandnSb gd (fld o 11 7) (fld o 4 7) s)
  | 48 => some (execPnotSb gd (fld o 11 7) (fld o 4 7) s)
  | 49 => some (execPmovSb gd (fld o 11 7) (fld o 4 7) s)
  | 50 => some (execPsetiSb gd (fld o 11 7) (fld o 0 1) s)
  | 51 => some (execPtosSb gd (fld o 12 6) (fld o 0 7) s)
  | 52 => some (execSetpSb gd (fld o 11 7) (fld o 5 6) s)
  | 53 => some (execSchkSb gd (fld o 6 6) (fld o 0 6) s)
  | _ => none

theorem runSb_eq (st : BitVec 1) (op : Nat) (h : op < 64) (gd : BitVec 3) (o : BitVec 18) (s : State) :
    (decodeSb st op gd o).map (fun i => exec i s) = runSb op gd o s := by
  interval_cases op <;> rfl

/-- What a slot of class 3 does, by its opcode. -/
def runVa (op : Nat) (gd : BitVec 3) (o : BitVec 18) (s : State) : Option (Host.Outcome State Fault Refusal) :=
  match op with
  | 0 => some (execVaddF32Va gd (fld o 12 6) (fld o 6 6) (fld o 0 6) s)
  | 1 => some (execVsubF32Va gd (fld o 12 6) (fld o 6 6) (fld o 0 6) s)
  | 2 => some (execVmulF32Va gd (fld o 12 6) (fld o 6 6) (fld o 0 6) s)
  | 3 => some (execVfmaF32Va gd (fld o 12 6) (fld o 6 6) (fld o 0 6) s)
  | 4 => some (execVfmsF32Va gd (fld o 12 6) (fld o 6 6) (fld o 0 6) s)
  | 5 => some (execVminF32Va gd (fld o 12 6) (fld o 6 6) (fld o 0 6) s)
  | 6 => some (execVmaxF32Va gd (fld o 12 6) (fld o 6 6) (fld o 0 6) s)
  | 7 => some (execVabsF32Va gd (fld o 12 6) (fld o 6 6) s)
  | 8 => some (execVnegF32Va gd (fld o 12 6) (fld o 6 6) s)
  | 9 => some (execVaddBfVa gd (fld o 12 6) (fld o 6 6) (fld o 0 6) s)
  | 10 => some (execVmulBfVa gd (fld o 12 6) (fld o 6 6) (fld o 0 6) s)
  | 11 => some (execVfmaBfVa gd (fld o 12 6) (fld o 6 6) (fld o 0 6) s)
  | 12 => some (execVaddHfVa gd (fld o 12 6) (fld o 6 6) (fld o 0 6) s)
  | 13 => some (execVmulHfVa gd (fld o 12 6) (fld o 6 6) (fld o 0 6) s)
  | 14 => some (execVfmaHfVa gd (fld o 12 6) (fld o 6 6) (fld o 0 6) s)
  | 15 => some (execVaddI32Va gd (fld o 12 6) (fld o 6 6) (fld o 0 6) s)
  | 16 => some (execVsubI32Va gd (fld o 12 6) (fld o 6 6) (fld o 0 6) s)
  | 17 => some (execVmulI32Va gd (fld o 12 6) (fld o 6 6) (fld o 0 6) s)
  | 18 => some (execVminI32Va gd (fld o 12 6) (fld o 6 6) (fld o 0 6) s)
  | 19 => some (execVmaxI32Va gd (fld o 12 6) (fld o 6 6) (fld o 0 6) s)
  | 20 => some (execVandVa gd (fld o 12 6) (fld o 6 6) (fld o 0 6) s)
  | 21 => some (execVorVa gd (fld o 12 6) (fld o 6 6) (fld o 0 6) s)
  | 22 => some (execVxorVa gd (fld o 12 6) (fld o 6 6) (fld o 0 6) s)
  | 23 => some (execVshlVa gd (fld o 12 6) (fld o 6 6) (fld o 0 6) s)
  | 24 => some (execVshrVa gd (fld o 12 6) (fld o 6 6) (fld o 0 6) s)
  | 25 => some (execVsarVa gd (fld o 12 6) (fld o 6 6) (fld o 0 6) s)
  | 26 => some (execVcmpEqF32Va gd (fld o 12 3) (fld o 6 6) (fld o 0 6) s)
  | 27 => some (execVcmpLtF32Va gd (fld o 12 3) (fld o 6 6) (fld o 0 6) s)
  | 28 => some (execVcmpLeF32Va gd (fld o 12 3) (fld o 6 6) (fld o 0 6) s)
  | 29 => some (execVcmpEqI32Va gd (fld o 12 3) (fld o 6 6) (fld o 0 6) s)
  | 30 => some (execVcmpLtI32Va gd (fld o 12 3) (fld o 6 6) (fld o 0 6) s)
  | 31 => some (execVcmpLeI32Va gd (fld o 12 3) (fld o 6 6) (fld o 0 6) s)
  | 32 => some (execVmandVa gd (fld o 12 3) (fld o 6 3) (fld o 0 3) s)
  | 33 => some (execVmorVa gd (fld o 12 3) (fld o 6 3) (fld o 0 3) s)
  | 34 => some (execVmnotVa gd (fld o 12 3) (fld o 6 3) s)
  | 35 => some (execVmsVa gd (fld o 6 3) s)
  | 36 => some (execVselVa gd (fld o 12 6) (fld o 6 6) (fld o 0 6) s)
  | 37 => some (execVpermVa gd (fld o 12 6) (fld o 6 6) (fld o 0 6) s)
  | 38 => some (execVrotVa gd (fld o 12 6) (fld o 6 6) (fld o 0 6) s)
  | 39 => some (execVcvtF32I32Va gd (fld o 12 6) (fld o 6 6) s)
  | 40 => some (execVcvtI32F32Va gd (fld o 12 6) (fld o 6 6) s)
  | 41 => some (execVcvtI32F32zVa gd (fld o 12 6) (fld o 6 6) s)
  | 42 => some (execVpackBfVa gd (fld o 12 6) (fld o 6 6) (fld o 0 6) s)
  | 43 => some (execVunpkBfVa gd (fld o 12 6) (fld o 6 6) (fld o 0 1) s)
  | 44 => some (execVpackHfVa gd (fld o 12 6) (fld o 6 6) (fld o 0 6) s)
  | 45 => some (execVunpkHfVa gd (fld o 12 6) (fld o 6 6) (fld o 0 1) s)
  | 46 => some (execVpack8E4Va gd (fld o 12 6) (fld o 6 6) (fld o 0 6) s)
  | 47 => some (execVpack8E5Va gd (fld o 12 6) (fld o 6 6) (fld o 0 6) s)
  | 48 => some (execVmrg8Va gd (fld o 12 6) (fld o 6 6) (fld o 0 6) s)
  | 49 => some (execVunpk8E4Va gd (fld o 12 6) (fld o 6 6) (fld o 0 6) s)
  | 50 => some (execVunpk8E5Va gd (fld o 12 6) (fld o 6 6) (fld o 0 6) s)
  | 51 => some (execVdot4I8Va gd (fld o 12 6) (fld o 6 6) (fld o 0 6) s)
  | _ => none

theorem runVa_eq (st : BitVec 1) (op : Nat) (h : op < 64) (gd : BitVec 3) (o : BitVec 18) (s : State) :
    (decodeVa st op gd o).map (fun i => exec i s) = runVa op gd o s := by
  interval_cases op <;> rfl

/-- What a slot of class 4 does, by its opcode. -/
def runVb (op : Nat) (gd : BitVec 3) (o : BitVec 18) (s : State) : Option (Host.Outcome State Fault Refusal) :=
  match op with
  | 0 => some (execVaddF32Vb gd (fld o 12 6) (fld o 6 6) (fld o 0 6) s)
  | 1 => some (execVsubF32Vb gd (fld o 12 6) (fld o 6 6) (fld o 0 6) s)
  | 2 => some (execVmulF32Vb gd (fld o 12 6) (fld o 6 6) (fld o 0 6) s)
  | 3 => some (execVfmaF32Vb gd (fld o 12 6) (fld o 6 6) (fld o 0 6) s)
  | 4 => some (execVfmsF32Vb gd (fld o 12 6) (fld o 6 6) (fld o 0 6) s)
  | 5 => some (execVminF32Vb gd (fld o 12 6) (fld o 6 6) (fld o 0 6) s)
  | 6 => some (execVmaxF32Vb gd (fld o 12 6) (fld o 6 6) (fld o 0 6) s)
  | 7 => some (execVabsF32Vb gd (fld o 12 6) (fld o 6 6) s)
  | 8 => some (execVnegF32Vb gd (fld o 12 6) (fld o 6 6) s)
  | 9 => some (execVaddBfVb gd (fld o 12 6) (fld o 6 6) (fld o 0 6) s)
  | 10 => some (execVmulBfVb gd (fld o 12 6) (fld o 6 6) (fld o 0 6) s)
  | 11 => some (execVfmaBfVb gd (fld o 12 6) (fld o 6 6) (fld o 0 6) s)
  | 12 => some (execVaddHfVb gd (fld o 12 6) (fld o 6 6) (fld o 0 6) s)
  | 13 => some (execVmulHfVb gd (fld o 12 6) (fld o 6 6) (fld o 0 6) s)
  | 14 => some (execVfmaHfVb gd (fld o 12 6) (fld o 6 6) (fld o 0 6) s)
  | 15 => some (execVaddI32Vb gd (fld o 12 6) (fld o 6 6) (fld o 0 6) s)
  | 16 => some (execVsubI32Vb gd (fld o 12 6) (fld o 6 6) (fld o 0 6) s)
  | 17 => some (execVmulI32Vb gd (fld o 12 6) (fld o 6 6) (fld o 0 6) s)
  | 18 => some (execVminI32Vb gd (fld o 12 6) (fld o 6 6) (fld o 0 6) s)
  | 19 => some (execVmaxI32Vb gd (fld o 12 6) (fld o 6 6) (fld o 0 6) s)
  | 20 => some (execVandVb gd (fld o 12 6) (fld o 6 6) (fld o 0 6) s)
  | 21 => some (execVorVb gd (fld o 12 6) (fld o 6 6) (fld o 0 6) s)
  | 22 => some (execVxorVb gd (fld o 12 6) (fld o 6 6) (fld o 0 6) s)
  | 23 => some (execVshlVb gd (fld o 12 6) (fld o 6 6) (fld o 0 6) s)
  | 24 => some (execVshrVb gd (fld o 12 6) (fld o 6 6) (fld o 0 6) s)
  | 25 => some (execVsarVb gd (fld o 12 6) (fld o 6 6) (fld o 0 6) s)
  | 26 => some (execVcmpEqF32Vb gd (fld o 12 3) (fld o 6 6) (fld o 0 6) s)
  | 27 => some (execVcmpLtF32Vb gd (fld o 12 3) (fld o 6 6) (fld o 0 6) s)
  | 28 => some (execVcmpLeF32Vb gd (fld o 12 3) (fld o 6 6) (fld o 0 6) s)
  | 29 => some (execVcmpEqI32Vb gd (fld o 12 3) (fld o 6 6) (fld o 0 6) s)
  | 30 => some (execVcmpLtI32Vb gd (fld o 12 3) (fld o 6 6) (fld o 0 6) s)
  | 31 => some (execVcmpLeI32Vb gd (fld o 12 3) (fld o 6 6) (fld o 0 6) s)
  | 32 => some (execVmandVb gd (fld o 12 3) (fld o 6 3) (fld o 0 3) s)
  | 33 => some (execVmorVb gd (fld o 12 3) (fld o 6 3) (fld o 0 3) s)
  | 34 => some (execVmnotVb gd (fld o 12 3) (fld o 6 3) s)
  | 35 => some (execVmsVb gd (fld o 6 3) s)
  | 36 => some (execVselVb gd (fld o 12 6) (fld o 6 6) (fld o 0 6) s)
  | 37 => some (execVpermVb gd (fld o 12 6) (fld o 6 6) (fld o 0 6) s)
  | 38 => some (execVrotVb gd (fld o 12 6) (fld o 6 6) (fld o 0 6) s)
  | 39 => some (execVcvtF32I32Vb gd (fld o 12 6) (fld o 6 6) s)
  | 40 => some (execVcvtI32F32Vb gd (fld o 12 6) (fld o 6 6) s)
  | 41 => some (execVcvtI32F32zVb gd (fld o 12 6) (fld o 6 6) s)
  | 42 => some (execVpackBfVb gd (fld o 12 6) (fld o 6 6) (fld o 0 6) s)
  | 43 => some (execVunpkBfVb gd (fld o 12 6) (fld o 6 6) (fld o 0 1) s)
  | 44 => some (execVpackHfVb gd (fld o 12 6) (fld o 6 6) (fld o 0 6) s)
  | 45 => some (execVunpkHfVb gd (fld o 12 6) (fld o 6 6) (fld o 0 1) s)
  | 46 => some (execVpack8E4Vb gd (fld o 12 6) (fld o 6 6) (fld o 0 6) s)
  | 47 => some (execVpack8E5Vb gd (fld o 12 6) (fld o 6 6) (fld o 0 6) s)
  | 48 => some (execVmrg8Vb gd (fld o 12 6) (fld o 6 6) (fld o 0 6) s)
  | 49 => some (execVunpk8E4Vb gd (fld o 12 6) (fld o 6 6) (fld o 0 6) s)
  | 50 => some (execVunpk8E5Vb gd (fld o 12 6) (fld o 6 6) (fld o 0 6) s)
  | 51 => some (execVdot4I8Vb gd (fld o 12 6) (fld o 6 6) (fld o 0 6) s)
  | _ => none

theorem runVb_eq (st : BitVec 1) (op : Nat) (h : op < 64) (gd : BitVec 3) (o : BitVec 18) (s : State) :
    (decodeVb st op gd o).map (fun i => exec i s) = runVb op gd o s := by
  interval_cases op <;> rfl

/-- What a slot of class 5 does, by its opcode. -/
def runVf (op : Nat) (gd : BitVec 3) (o : BitVec 18) (s : State) : Option (Host.Outcome State Fault Refusal) :=
  match op with
  | 0 => some (execVexp2 gd (fld o 12 6) (fld o 6 6) s)
  | 1 => some (execVlog2 gd (fld o 12 6) (fld o 6 6) s)
  | 2 => some (execVrcp gd (fld o 12 6) (fld o 6 6) s)
  | 3 => some (execVrsq gd (fld o 12 6) (fld o 6 6) s)
  | 4 => some (execVsqrt gd (fld o 12 6) (fld o 6 6) s)
  | 5 => some (execVdiv gd (fld o 12 6) (fld o 6 6) (fld o 0 6) s)
  | 6 => some (execVtanh gd (fld o 12 6) (fld o 6 6) s)
  | 8 => some (execVrsumF32 gd (fld o 12 6) (fld o 6 6) s)
  | 9 => some (execVrmaxF32 gd (fld o 12 6) (fld o 6 6) s)
  | 10 => some (execVrminF32 gd (fld o 12 6) (fld o 6 6) s)
  | 11 => some (execVrsumI32 gd (fld o 12 6) (fld o 6 6) s)
  | 16 => some (execAmaxu gd (fld o 12 6) (fld o 6 6) (fld o 0 6) s)
  | 17 => some (execAexps gd (fld o 12 6) (fld o 6 6) (fld o 0 6) s)
  | 18 => some (execAresc gd (fld o 12 6) (fld o 6 6) (fld o 0 6) s)
  | 19 => some (execAnorm gd (fld o 12 6) (fld o 6 6) (fld o 0 6) s)
  | 20 => some (execAmrg gd (fld o 12 6) (fld o 6 6) (fld o 0 6) s)
  | 24 => some (execVchk gd (fld o 6 6) (fld o 0 6) s)
  | _ => none

theorem runVf_eq (st : BitVec 1) (op : Nat) (h : op < 64) (gd : BitVec 3) (o : BitVec 18) (s : State) :
    (decodeVf st op gd o).map (fun i => exec i s) = runVf op gd o s := by
  interval_cases op <;> rfl

/-- What a slot of class 6 does, by its opcode. -/
def runXv (op : Nat) (gd : BitVec 3) (o : BitVec 18) (s : State) : Option (Host.Outcome State Fault Refusal) :=
  match op with
  | 0 => some (execXbc gd (fld o 12 6) (fld o 6 6) s)
  | 1 => some (execXins gd (fld o 12 6) (fld o 6 6) (fld o 0 6) s)
  | 2 => some (execXmk gd (fld o 12 3) (fld o 6 6) s)
  | _ => none

theorem runXv_eq (st : BitVec 1) (op : Nat) (h : op < 64) (gd : BitVec 3) (o : BitVec 18) (s : State) :
    (decodeXv st op gd o).map (fun i => exec i s) = runXv op gd o s := by
  interval_cases op <;> rfl

/-- What a slot of class 7 does, by its opcode. -/
def runXs (op : Nat) (gd : BitVec 3) (o : BitVec 18) (s : State) : Option (Host.Outcome State Fault Refusal) :=
  match op with
  | 0 => some (execXext gd (fld o 12 6) (fld o 6 6) (fld o 0 6) s)
  | 1 => some (execXms gd (fld o 12 6) (fld o 6 3) s)
  | 2 => some (execXfst gd (fld o 12 6) (fld o 6 3) s)
  | _ => none

theorem runXs_eq (st : BitVec 1) (op : Nat) (h : op < 64) (gd : BitVec 3) (o : BitVec 18) (s : State) :
    (decodeXs st op gd o).map (fun i => exec i s) = runXs op gd o s := by
  interval_cases op <;> rfl

/-- What a slot of class 8 does, by its opcode. -/
def runG (op : Nat) (gd : BitVec 3) (o : BitVec 18) (s : State) : Option (Host.Outcome State Fault Refusal) :=
  match op with
  | 0 => some (execLdb gd (fld o 12 6) (fld o 6 6) (fld o 0 6) s)
  | 1 => some (execLdbz gd (fld o 12 6) (fld o 6 6) (fld o 0 6) s)
  | 2 => some (execLdh gd (fld o 12 6) (fld o 6 6) (fld o 0 6) s)
  | 3 => some (execLdhz gd (fld o 12 6) (fld o 6 6) (fld o 0 6) s)
  | 4 => some (execLdw gd (fld o 12 6) (fld o 6 6) (fld o 0 6) s)
  | 5 => some (execLdwz gd (fld o 12 6) (fld o 6 6) (fld o 0 6) s)
  | 6 => some (execLdd gd (fld o 12 6) (fld o 6 6) (fld o 0 6) s)
  | 8 => some (execLdv gd (fld o 12 6) (fld o 6 6) (fld o 0 6) s)
  | 9 => some (execLdvS gd (fld o 12 6) (fld o 6 6) (fld o 0 6) s)
  | 10 => some (execLdvg gd (fld o 12 6) (fld o 6 6) (fld o 0 6) s)
  | 16 => some (execStb gd (fld o 12 6) (fld o 6 6) (fld o 0 6) s)
  | 17 => some (execSth gd (fld o 12 6) (fld o 6 6) (fld o 0 6) s)
  | 18 => some (execStw gd (fld o 12 6) (fld o 6 6) (fld o 0 6) s)
  | 19 => some (execStd gd (fld o 12 6) (fld o 6 6) (fld o 0 6) s)
  | 20 => some (execStv gd (fld o 12 6) (fld o 6 6) (fld o 0 6) s)
  | 21 => some (execStvS gd (fld o 12 6) (fld o 6 6) (fld o 0 6) s)
  | 22 => some (execStvm gd (fld o 12 6) (fld o 6 6) (fld o 0 6) s)
  | 23 => some (execStvs gd (fld o 12 6) (fld o 6 6) (fld o 0 6) s)
  | 24 => some (execAaddW gd (fld o 12 6) (fld o 6 6) (fld o 0 6) s)
  | 25 => some (execAaddD gd (fld o 12 6) (fld o 6 6) (fld o 0 6) s)
  | 26 => some (execAminW gd (fld o 12 6) (fld o 6 6) (fld o 0 6) s)
  | 27 => some (execAmaxW gd (fld o 12 6) (fld o 6 6) (fld o 0 6) s)
  | 28 => some (execAxchgD gd (fld o 12 6) (fld o 6 6) (fld o 0 6) s)
  | 29 => some (execAcasD gd (fld o 12 6) (fld o 6 6) (fld o 0 6) s)
  | 32 => some (execVjoin gd (fld o 12 6) s)
  | 40 => some (execSbind gd (fld o 12 6) (fld o 6 6) s)
  | 41 => some (execSfree gd (fld o 12 6) s)
  | 42 => some (execSlen gd (fld o 12 6) (fld o 0 6) s)
  | 43 => some (execSfmt gd (fld o 12 6) (fld o 0 6) s)
  | 44 => some (execSshd gd (fld o 12 6) s)
  | 45 => some (execSpub gd (fld o 12 6) s)
  | 46 => some (execSpubp gd (fld o 12 6) s)
  | 47 => some (execSdisc gd (fld o 12 6) s)
  | _ => none

theorem runG_eq (st : BitVec 1) (op : Nat) (h : op < 64) (gd : BitVec 3) (o : BitVec 18) (s : State) :
    (decodeG st op gd o).map (fun i => exec i s) = runG op gd o s := by
  interval_cases op <;> rfl

/-- What a slot of class 9 does, by its opcode. -/
def runK (op : Nat) (gd : BitVec 3) (o : BitVec 18) (s : State) : Option (Host.Outcome State Fault Refusal) :=
  match op with
  | 0 => some (execKset gd (fld o 12 6) (fld o 6 6) s)
  | 1 => some (execKclr gd (fld o 12 6) s)
  | 2 => some (execKldk gd (fld o 12 6) (fld o 6 6) s)
  | 3 => some (execKldv gd (fld o 12 6) (fld o 6 6) s)
  | 4 => some (execKapp gd (fld o 12 6) (fld o 6 6) (fld o 0 6) s)
  | 5 => some (execKlen gd (fld o 12 6) (fld o 6 6) s)
  | 6 => some (execKmark gd (fld o 12 6) s)
  | 7 => some (execKtrunc gd (fld o 12 6) (fld o 6 6) s)
  | 8 => some (execKivl gd (fld o 12 6) (fld o 6 6) s)
  | 9 => some (execKcls gd (fld o 12 6) (fld o 6 6) (fld o 0 3) s)
  | 10 => some (execKpf gd (fld o 12 6) (fld o 6 6) s)
  | _ => none

theorem runK_eq (st : BitVec 1) (op : Nat) (h : op < 64) (gd : BitVec 3) (o : BitVec 18) (s : State) :
    (decodeK st op gd o).map (fun i => exec i s) = runK op gd o s := by
  interval_cases op <;> rfl

/-- What a slot of class 10 does, by its opcode. -/
def runE (op : Nat) (gd : BitVec 3) (o : BitVec 18) (s : State) : Option (Host.Outcome State Fault Refusal) :=
  match op with
  | 0 => some (execCpyin gd (fld o 12 6) (fld o 6 6) s)
  | 1 => some (execCpyinSh gd (fld o 12 6) (fld o 6 6) s)
  | 2 => some (execCpyout gd (fld o 12 6) (fld o 6 6) s)
  | 3 => some (execCpysg gd (fld o 12 6) (fld o 6 6) s)
  | 4 => some (execCpymc gd (fld o 12 6) (fld o 6 6) s)
  | 5 => some (execPuts gd (fld o 12 6) (fld o 6 6) s)
  | 6 => some (execPutr gd (fld o 12 6) (fld o 6 6) s)
  | 7 => some (execGets gd (fld o 12 6) (fld o 6 6) s)
  | 8 => some (execAtadd gd (fld o 12 6) (fld o 6 6) s)
  | 9 => some (execAtcas gd (fld o 12 6) (fld o 6 6) s)
  | 10 => some (execAtxch gd (fld o 12 6) (fld o 6 6) s)
  | 11 => some (execSpawn gd (fld o 6 6) s)
  | _ => none

theorem runE_eq (st : BitVec 1) (op : Nat) (h : op < 64) (gd : BitVec 3) (o : BitVec 18) (s : State) :
    (decodeE st op gd o).map (fun i => exec i s) = runE op gd o s := by
  interval_cases op <;> rfl

/-- What a slot of class 11 does, by its opcode. -/
def runY (op : Nat) (gd : BitVec 3) (o : BitVec 18) (s : State) : Option (Host.Outcome State Fault Refusal) :=
  match op with
  | 0 => some (execWaitf gd (fld o 12 6) (fld o 0 12) s)
  | 1 => some (execPostf gd (fld o 12 6) (fld o 0 12) s)
  | 2 => some (execPostr gd (fld o 6 6) s)
  | 3 => some (execFinit gd (fld o 12 6) (fld o 0 12) s)
  | 4 => some (execWaitc gd (fld o 12 4) (fld o 8 4) (fld o 4 4) (fld o 0 4) s)
  | 5 => some (execFrd gd (fld o 12 6) (fld o 0 6) s)
  | _ => none

theorem runY_eq (st : BitVec 1) (op : Nat) (h : op < 64) (gd : BitVec 3) (o : BitVec 18) (s : State) :
    (decodeY st op gd o).map (fun i => exec i s) = runY op gd o s := by
  interval_cases op <;> rfl

/-- What a slot of class 12 does, by its opcode. -/
def runM (op : Nat) (gd : BitVec 3) (o : BitVec 18) (s : State) : Option (Host.Outcome State Fault Refusal) :=
  match op with
  | 0 => some (execMwl gd (fld o 12 6) (fld o 6 6) (fld o 0 6) s)
  | 1 => some (execMwsw gd s)
  | 2 => some (execMga gd (fld o 12 6) (fld o 6 6) (fld o 0 6) s)
  | 3 => if fld o 12 6 = 1 then some (execMacLatch gd (fld o 6 6) s) else some (execMac gd (fld o 6 6) (fld o 0 6) s)
  | 4 => if fld o 12 6 = 1 then some (execMacZLatch gd (fld o 6 6) s) else some (execMacZ gd (fld o 6 6) (fld o 0 6) s)
  | 5 => some (execMdr gd (fld o 12 6) (fld o 6 6) (fld o 3 1) (fld o 0 3) s)
  | 6 => some (execMrot gd (fld o 6 6) s)
  | 7 => some (execMldh gd (fld o 0 12) s)
  | 8 => some (execMset gd (fld o 12 6) (fld o 0 5) s)
  | 9 => some (execAbal gd (fld o 12 6) (fld o 0 12) s)
  | 10 => some (execAbfr gd (fld o 12 6) (fld o 0 12) s)
  | 16 => some (execMmul gd s)
  | 17 => some (execMmulR gd s)
  | 18 => some (execMlu gd s)
  | 19 => some (execMluR gd s)
  | 20 => some (execMchol gd s)
  | 21 => some (execMcholR gd s)
  | 22 => some (execMqr gd s)
  | 23 => some (execMqrR gd s)
  | 24 => some (execMtrs gd s)
  | 25 => some (execMperm gd s)
  | _ => none

theorem runM_eq (st : BitVec 1) (op : Nat) (h : op < 64) (gd : BitVec 3) (o : BitVec 18) (s : State) :
    (decodeM st op gd o).map (fun i => exec i s) = runM op gd o s := by
  interval_cases op <;> first | rfl | (simp only [decodeM, runM]; split <;> rfl)

/-- The twin of `decodeOp` followed by `exec`. -/
def runOp (cl op : Nat) (gd : BitVec 3) (o : BitVec 18) (s : State) : Option (Host.Outcome State Fault Refusal) :=
  match cl with
  | 0 => runB op gd o s
  | 1 => runSa op gd o s
  | 2 => runSb op gd o s
  | 3 => runVa op gd o s
  | 4 => runVb op gd o s
  | 5 => runVf op gd o s
  | 6 => runXv op gd o s
  | 7 => runXs op gd o s
  | 8 => runG op gd o s
  | 9 => runK op gd o s
  | 10 => runE op gd o s
  | 11 => runY op gd o s
  | 12 => runM op gd o s
  | _ => none

theorem runOp_eq (cl op : Nat) (hc : cl < 16) (h : op < 64) (st : BitVec 1) (gd : BitVec 3) (o : BitVec 18) (s : State) :
    (decodeOp cl st op gd o).map (fun i => exec i s) = runOp cl op gd o s := by
  interval_cases cl
  · exact runB_eq st op h gd o s
  · exact runSa_eq st op h gd o s
  · exact runSb_eq st op h gd o s
  · exact runVa_eq st op h gd o s
  · exact runVb_eq st op h gd o s
  · exact runVf_eq st op h gd o s
  · exact runXv_eq st op h gd o s
  · exact runXs_eq st op h gd o s
  · exact runG_eq st op h gd o s
  · exact runK_eq st op h gd o s
  · exact runE_eq st op h gd o s
  · exact runY_eq st op h gd o s
  · exact runM_eq st op h gd o s
  · rfl
  · rfl
  · rfl

/-- The twin of `runWord`. -/
def runWordFast (w : Word) (lits : List (BitVec 27)) (s : State) : Host.Outcome State Fault Refusal :=
  match slotFault w lits with
  | some _ => .next (s.modIssue (·.skip))
  | none =>
    match slotClass w with
    | 14 => execLit s
    | 15 => execPad s
    | cl => (runOp cl (slotOp w) (fld w 18 3) (fld w 0 18) s).getD (.next (s.modIssue (·.skip)))

theorem pick_eq (x : Option Instr) (f : SlotFault) (s : State) (r : Option (Host.Outcome State Fault Refusal))
    (z : Host.Outcome State Fault Refusal) : x.map (fun i => exec i s) = r →
    (match (match x with
      | some i => Except.ok i
      | none => Except.error f : Except SlotFault Instr) with
    | .ok i => exec i s
    | .error _ => z) = r.getD z := by
  rintro rfl
  cases x <;> rfl

@[csimp] theorem runWord_eq_runWordFast : @runWord = @runWordFast := by
  funext w lits s
  unfold runWord runWordFast decodeSlot
  cases slotFault w lits with
  | some f => rfl
  | none =>
    have e := runOp_eq (slotClass w) (slotOp w) (fld w 27 4).isLt (fld w 21 6).isLt (fld w 31 1) (fld w 18 3) (fld w 0 18) s
    have hc : slotClass w < 16 := (fld w 27 4).isLt
    generalize slotClass w = c at e hc
    interval_cases c
    all_goals first
      | rfl
      | exact pick_eq _ _ _ _ _ e

end Sys2Proof.Machine
end

