-- ==== Sys2Proof/Machine/Turns.lean ====
section
/-! DEFINITION. What the step takes next (01 R28, R31, 16 R323, R383): the events of step 2 of a core cycle in one
fixed order (log 2), and the landings and beginnings of its bundles. -/

namespace Sys2Proof.Machine

/-! ### Bundles -/

/-- The tile on which a context's next bundle is checked for empty queues (R31): the primary's after the landings of both
contexts, the secondary's after the primary has popped. -/
def State.seenBy (s : State) (t : Nat) (x : Tile) : Cx → Tile
  | .p => if s.work.contains (.land t .s) then (x.land .s).tile else x
  | .s => if s.work.any fun w => w.of t .p && w.bid != {} then x.popShared s.code .p else x

/-- The landing of step 1 comes ahead of a delayed access or a wait of the same core cycle: only what the other context could
meet lands then, and nothing where the bundle itself has a cause. -/
def State.landAhead (s : State) (t : Nat) (cx : Cx) : State :=
  let l := (s.tile t).land cx
  if l.qovf.isNone && (!l.checks.isEmpty || ((s.seenBy t l.tile cx).nextBundle s.code cx).toOption.isNone) then s
  else s.landEarly t cx

/-- The results of a context land for its next bundle, unless a fault of an operation or a cause of the bundle itself
comes first: then nothing lands (R323, R327). -/
def State.tryLand (s : State) (t : Nat) (cx : Cx) (full : List (Bool × Nat) := []) : State :=
  let c := s.ctx t cx
  let l := (s.tile t).land cx full
  if c.blocked [] || l.qovf.isSome || !l.checks.isEmpty then s.landCtx t cx full
  else if !c.faults.isEmpty then match execOperationFaultDelivery t cx s with
    | .next s => s
    | _ => s
  else match (s.seenBy t l.tile cx).nextBundle s.code cx with
    | .error (slot, cause, info) => (s.dropWork t cx).trap t cx cause slot info c.pos.pc [] c.inflight
    | .ok _ => s.landCtx t cx full

/-- The next bundle of a context issues: its slots are executed from here on. A fault that an access of this core cycle has met,
or a cause that stands before it, is taken instead, and then it brings nothing to the core cycle (R72, R323, R327). -/
def State.begin (s : State) (t : Nat) (cx : Cx) (bid : Bid) : State :=
  let c := s.ctx t cx
  match firstFault c.faults, (s.tile t).nextBundle s.code cx with
  | some f, _ => State.trapBefore ((s.modTile t (·.unbid bid)).modCtx t cx fun c => { c with faults := c.faults.erase f }) t cx f.cause f.slot f.einfo
  | none, .error (slot, cause, info) => (s.modTile t (·.unbid bid)).trapBefore t cx cause slot info
  | none, .ok b =>
    let s := s.unpin (s.partOf t) c.held
    let s := s.modCtx t cx fun c => { c with held := [] }
    { s with issue := some { tile := t, cx := cx, addr := c.pos.pc, words := b, annulled := c.pos.annul != 0, remake := c.remake
                             om := c.om, base := s.fresh } }

/-- An END made again before the slots of the first resumed bundle (R91, R333): where its checks pass, no slot of that
bundle is executed; else it is captured once more. -/
def State.endAgain (s : State) (i : Issue) : State :=
  match i.endWord with
  | some (_, h) =>
    match (if (s.ctx i.tile i.cx).frame.mode then none else (s.tile i.tile).endFault i.cx) with
    | none => { s with issue := some { i with pos := i.words.length } }
    | some e => { s with issue := some { i with endWord := none, raised := i.raised ++ [⟨e.1, e.2, h, 0⟩] } }
  | none => s

/-- After a slot: an END made again decides, and a bundle whose words have all been executed commits. -/
def State.settle (s : State) : State :=
  let s := match s.issue with
    | some i => if i.remake.isEmpty && i.pos == 0 then s.endAgain i else s
    | none => s
  match s.issue with
  | none => s
  | some i => if i.remake.isEmpty && decide (i.words.length ≤ i.pos) then s.commit i else s

/-- The meaning of an event that the step takes. -/
def State.take (s : State) (i : Instr) : Host.Outcome State Fault Refusal := exec i s

/-- The head of the work of the issue stage. -/
def State.doWork (s : State) (w : Work) : Host.Outcome State Fault Refusal :=
  match w with
  | .land t cx =>
    let c := s.ctx t cx
    .next (if c.wait.isSome || c.blocked [] && !c.blocked (s.cleared t cx c) then s.landAhead t cx else s.tryLand t cx)
  | .landLate t cx full => .next (s.tryLand t cx full)
  | .begin t cx b => .next (s.begin t cx b)
  | .retest t cx => s.take (.waitRetest t cx)
  | .delayed t cx =>
    match (s.ctx t cx).delayed.find? fun d => s.delayedReady t cx d with
    | some d => if slotClass d.cap.word = 9 then s.take (.lateDatumArrival t cx) else s.take (.delayedCoreAccess t cx)
    | none => if (s.absentAgain t cx).isEmpty then .next s else s.take (.delayedCoreAccess t cx)
  | .fault t cx => s.take (.operationFaultDelivery t cx)
  | .interrupt t cx => s.take (.intr t cx)

/-! ### The events of step 2 -/

/-- An event with its kind and subject, by which the step takes it once in a core cycle. -/
structure Event where
  kind : Nat
  subject : Nat
  instr : Instr
  /-- The tile in whose turn the residency controller takes it (R244). -/
  tile : Option Nat := none

/-- The first subject of a kind that has not been taken in this step 2 and is due. -/
def State.first (s : State) (kind : Nat) (xs : List Nat) (due : Nat → Bool) (mk : Nat → Instr) : Option Event :=
  (xs.find? fun x => !s.taken.contains (kind, x) && due x).map fun x => ⟨kind, x, mk x, none⟩

/-- Contexts as subjects: twice the tile, plus 1 for the secondary. -/
def State.contexts (s : State) : List Nat := s.tiles.flatMap fun x => [2 * x.1, 2 * x.1 + 1]
def cxOf (n : Nat) : Cx := if n % 2 = 0 then .p else .s
def State.firstCtx (s : State) (kind : Nat) (due : Nat → Cx → Ctx → Bool) (mk : Nat → Cx → Instr) : Option Event :=
  s.first kind s.contexts (fun n => due (n / 2) (cxOf n) (s.ctx (n / 2) (cxOf n))) fun n => mk (n / 2) (cxOf n)
def State.firstEop (s : State) (kind : Nat) (due : EOp → Bool) (mk : Nat → Instr) : Option Event :=
  s.first kind ((s.eops.filter due).map (·.id)) (fun _ => true) mk
def State.firstTile (s : State) (kind : Nat) (due : Nat → Tile → Bool) (mk : Nat → Instr) : Option Event :=
  s.first kind (s.tiles.map (·.1)) (fun t => due t (s.tile t)) mk
def State.firstPart (s : State) (kind : Nat) (due : Nat → Part → Bool) (mk : Nat → Instr) : Option Event :=
  s.first kind (s.parts.map (·.1)) (fun p => due p (s.part p)) mk

/-- Traffic of the tiles before the controller's turns: retirements, walks, KV rows and pages, the engines, and the flag
changes (R31, R244). -/
def State.trafficEvent (s : State) : Option Event :=
  (s.firstCtx 10 (fun _ _ c => c.stores.any fun x => decide (x.1 ≤ s.now)) .storeRetirement) <|>
  (s.firstCtx 11 (fun _ _ c => c.delayed.any fun d => d.why == .walk && decide (d.due ≤ s.now)) .tlbWalkDone) <|>
  (s.first 13 ((s.parts.flatMap (·.2.fetches)).map (·.id))
    (fun id => s.parts.any fun p => p.2.fetches.any fun f => f.id == id && decide (f.due ≤ s.now)) .pageFetchApplied) <|>
  (s.first 14 ((s.parts.flatMap (·.2.appends)).map (·.id))
    (fun id => s.parts.any fun p => p.2.appends.any fun a => a.id == id && decide (a.due ≤ s.now)) .kvRowLand) <|>
  (s.firstEop 16 s.canAcquire .lockAcquire) <|>
  (s.firstEop 18 s.canRead .engineRead) <|>
  (s.firstEop 19 s.canLand .engineLand) <|>
  (s.first 20 [0] (fun _ => s.signals.any s.signalReady) fun _ => .signalApply)

/-- A write of a register that the sequence engine or the engine queues go by: step 2 finds it landed (R31, R183, R195,
R340). -/
def Payload.commands : Payload → Bool
  | .sys n _ => seqRegister n || n == 0x032 || n == 0x200 || n == 0x201
  | _ => false

/-- The writes of those registers that land for a context in step 1 of this core cycle, by the choice as step 2 finds it (R31):
they land before the controller's turn for the tile. -/
def State.stepOneCtx (s : State) (t : Nat) (cx : Cx) : State :=
  let now (r : Res) : Bool := r.await.isNone && r.pay.commands
  let x := s.tile t
  let l := x.land cx
  if !(x.ctx cx).inflight.any (fun r => decide (r.rem ≤ 1) && now r) || !(s.choose t x).2.contains (.land t cx) ||
    l.qovf.isNone && (!l.checks.isEmpty || (l.tile.nextBundle s.code cx).toOption.isNone) then s
  else s.landNow t cx now
def State.stepOne (s : State) (t : Nat) : State := (s.stepOneCtx t .p).stepOneCtx t .s

/-- The controller's turn for a tile (R244): moves that have ended, completions, grants in rank order, and a new move. -/
def State.tileTurn (s : State) (t : Nat) : Option Event :=
  let x := s.tile t
  let granting := s.taken.contains (23, t)
  let done (f : EOp → Bool) : List Nat := (s.eops.filter fun o => o.tile == t && f o).map (·.id)
  let grants (id : Nat) : Bool := (s.req? id).any s.grantable
  let e :=
    (s.first 12 [t] (fun _ => x.move.any fun m => decide (m.due ≤ s.now)) .moveApplied) <|>
    (s.first 15 [t] (fun _ => !granting && x.seqRun.any (s.seqDue t)) .seqComplete) <|>
    (s.first 21 (done s.canComplete) (fun _ => !granting) .eComplete) <|>
    (s.first 17 ((s.waiting t).map (·.id)) grants .requestGrant) <|>
    (s.first 22 [t] (fun _ => x.move.isNone && (s.moveChoice t).isSome) .moveBegin)
  e.map fun e => { e with tile := some t }

/-- The tiles in their order; one whose turn is over does not come again in the same step 2. -/
def State.tileEvent (s : State) : Option Event :=
  ((s.tiles.map (·.1)).filter fun t => !s.taken.any fun x => x.1 == 24 && decide (t < x.2)).findSome? fun t => (s.stepOne t).tileTurn t

/-- The state in which an event is taken: in a tile's turn, what step 1 has landed for it. -/
def State.before (s : State) (e : Event) : State :=
  match e.tile with
  | some t => s.stepOne t
  | none => s

/-- Events of partitions, tasks and loops. -/
def State.taskEvent (s : State) : Option Event :=
  (s.firstCtx 29 (fun t cx c => c.phase.rolling && s.rollReady t cx) .rollback) <|>
  (s.firstPart 30 (fun p _ => s.tlbinvDone p) .tlbinvComplete) <|>
  (s.firstPart 31 (fun _ x => x.mig.phase == 1) .migrationFreeze) <|>
  (s.firstPart 32 (fun p x => x.mig.phase == 2 && !s.migLocks p || x.mig.phase == 3 && !s.migWaiting p) .migrationSwitch) <|>
  (s.firstCtx 33 (fun _ _ c => c.over) .endComplete) <|>
  (s.first 34 (s.parts.flatMap fun p => p.2.loops.map (·.task)) (fun _ => true) .roundSize) <|>
  (s.first 35 (s.parts.flatMap fun p => p.2.loops.map (·.task)) (fun _ => true) .seal) <|>
  (s.first 36 (s.parts.flatMap fun p => p.2.loops.map (·.task)) (fun _ => true) .settle) <|>
  (s.firstCtx 37 (fun t _ c => c.task.any fun k => (s.task? (s.partOf t) k).any fun k => k.mark == 2 && k.started) .checkpoint) <|>
  (s.first 38 (s.parts.flatMap fun p => (p.2.tasks.filter fun k => !k.started).map (·.id)) (fun _ => true) .taskStart) <|>
  (s.firstPart 39 (fun p x => x.held.any (s.timely p)) .ttPlace) <|>
  (s.firstPart 40 (fun _ x => x.blocks.any fun b => b.ages s.now) .tokenAge) <|>
  ((s.parts.map (·.1)).findSome? fun p =>
    match s.takeTurn p with
    | some (r, _) => s.first 41 [p] (fun _ => s.taking p) fun p => .recordTake p r
    | none => none) <|>
  (s.firstPart 42 (fun _ x => !x.blocks.isEmpty) .dispatchStep) <|>
  (s.firstPart 43 (fun _ x => x.dropping && x.tasks.isEmpty) fun p => .pseudoChannelDrop p ((s.part p).drops.headD 0))

/-- Events of the Ensign controller and its watchdogs. -/
def State.moduleEvent (s : State) : Option Event :=
  (s.first 1 [0] (fun _ => !s.ensign.booted && !s.ensign.failed) fun _ => .boot) <|>
  (s.firstPart 2 (fun p _ => s.wdExpired p false) .watchdogFirstExpiry) <|>
  (s.firstPart 3 (fun p _ => s.wdExpired p true) .watchdogSecondExpiry) <|>
  (s.first 4 [0] (fun _ => s.heartbeatLate) fun _ => .heartbeatTimeout) <|>
  (s.first 5 [0] (fun _ => s.ensign.booted && s.ensign.coreOn && s.tested) fun _ => .powerRestore) <|>
  (s.first 6 [0] (fun _ => s.ensign.booted && s.ensign.coreOn && decide (s.ensign.adjust ≤ s.now)) fun _ => .setPowerCap s.ensign.cap)

/-- The next event of step 2, or none when it is over: once the tiles' turns have begun no traffic comes, and once the
partitions' events have begun no tile's turn. -/
def State.nextEvent (s : State) : Option Event :=
  let past (k : Nat) : Bool := s.taken.any fun x => decide (k ≤ x.1)
  s.moduleEvent <|> (if past 23 then none else s.trafficEvent) <|> (if past 29 then none else s.tileEvent) <|> s.taskEvent

/-- Kinds whose subject may come again in one step 2: each time uses up a store or a signal. -/
def Event.repeats (e : Event) : Bool := e.kind == 10 || e.kind == 20

/-- The event counts as taken, with the tile whose turn it is; a grant with the requests that it passes over. -/
def State.mark (s : State) (e : Event) : State :=
  let turn := (e.tile.map fun t => (24, t)).toList
  let passed := match e.kind, e.tile with
    | 17, some t => (23, t) :: (((s.waiting t).map (·.id)).takeWhile (· != e.subject)).map fun i => (17, i)
    | _, _ => []
  if e.repeats then s else { s with taken := (e.kind, e.subject) :: passed ++ turn ++ s.taken }

/-- The inputs that come over the host port: accesses to a partition's two windows (R368), and SPDM requests (R376). -/
def overHost : Instr → Bool
  | .registerWrite .. | .ringEnable .. | .tailWrite .. | .tlbinv .. | .migrationStart .. | .doorbell .. | .wdctlWrite .. | .wdkick ..
  | .hostMemoryAccess .. | .getVersion | .getCapabilities | .negotiateAlgorithms .. | .getDigests | .getCertificate ..
  | .challenge .. | .getMeasurements .. => true
  | _ => false

/-- The host port is down until the boot has brought it up (R375): what comes over it then does not arrive. -/
def State.deaf (s : State) (i : Instr) : Bool := !s.ensign.booted && overHost i

/-- The next input, and the others in their order: what comes over the host port waits while its link retrains (R365). -/
def State.nextInput (s : State) : List Instr → Option (Instr × List Instr)
  | [] => none
  | i :: r => if s.ensign.hostLink || !overHost i then some (i, r) else (s.nextInput r).map fun x => (x.1, i :: x.2)

/-- Step 2 of a core cycle: an event from outside, an event of the machine, or, once there is none, the choice of the
bundles (R383). -/
def State.system (s : State) : Host.Outcome State Fault Refusal :=
  match s.nextInput s.inputs with
  | some (i, r) => if s.deaf i then .next { s with inputs := r } else State.take { s with inputs := r } i
  | none => match s.nextEvent with
    | some e => ((s.before e).mark e).take e.instr
    | none => s.take .bundleSelection

/-- Steps 3 and 4: the next piece of work, or the end of the cycle. -/
def State.issueStage (s : State) : Host.Outcome State Fault Refusal :=
  match s.work with
  | w :: r => State.doWork { s with work := r } w
  | [] => .next s.endCycle

/-- The next slot of the bundle in progress is executed; after the last the bundle commits. -/
def State.slot (s : State) (i : Issue) : Host.Outcome State Fault Refusal :=
  match runWord i.here.word i.here.lits s with
  | .next s => .next s.settle
  | o => o

/-! ### A word placed where the next step fetches (log 24) -/

/-- The bundle that holds a slot word: three PADs before a word with the stop bit, else three after it. -/
def bundleOf (w : Word) : List Word × Nat :=
  if slotStop w then ([0x78000000#32, 0x78000000#32, 0x78000000#32, w], 3)
  else ([w, 0x78000000#32, 0x78000000#32, 0xF8000000#32], 0)

/-- The words stored from a code address on (R35). -/
def Memory.storeWords (m : Memory) (a : Dword) : List Word → Memory
  | [] => m
  | w :: r => Memory.storeWords (m.storeNat a.toNat 4 w.toNat) (a + 4) r

/-- The bundle of a slot word stands in code memory at the position of tile 0's primary, which runs and has begun it: the
slot is the next to be executed. -/
def State.placeWord (s : State) (w : Word) : State :=
  let a := (s.ctx 0 .p).pos.pc
  let b := bundleOf w
  let s := s.modCtx 0 .p fun c => { c with life := .running }
  { s with
    code := s.code.storeWords a b.1
    stage := .issue
    issue := some { tile := 0, cx := .p, addr := a, words := b.1, pos := b.2, om := (s.ctx 0 .p).om, base := s.fresh } }

end Sys2Proof.Machine
end

