-- ==== Sys2Proof/Machine/Step.lean ====
section
/-! DEFINITION. One step of the module (log 2): the next slot of the bundle in progress, an event of step 2 of the core
cycle, or a piece of work of its issue stage (01 R31, 16 R383). -/

namespace Sys2Proof.Machine

/-- One step. -/
def step (s : State) : Host.Outcome State Fault Refusal :=
  match s.issue with
  | some i => s.slot i
  | none => match s.stage with
    | .system => s.system
    | .issue => s.issueStage

/-- The state in which the next step fetches and runs the slot whose bits are `w`: it stands in a bundle of the
primary of tile 0 at the context's position, last in it where it carries the stop bit (log 24). -/
def State.withFetchWord (s : State) (nbits w : Nat) : State := s.placeWord (BitVec.ofNat 32 (w % 2 ^ nbits))

end Sys2Proof.Machine
end

