-- ==== Sys2Proof/Safety.lean ====
section
/-! DEFINITION. The terms in which claims are made: when a slot executes, what a slot that executes leaves, and the
invariants of the machine. -/

namespace Sys2Proof.Machine

/-! ### A slot that executes -/

/-- The next slot of the bundle `i` in progress executes (R15, R40, R41): nothing is to be made again before it, the
bundle is not annulled, its guard is true, and every source holds the entries that it reads, which are `o`. -/
structure State.Executes (s : State) (i : Issue) (gd : BitVec 3) (src : List Rd) (o : Opnds) : Prop where
  issue : s.issue = some i
  first : i.remake = []
  live : i.annulled = false
  guard : (s.ctx i.tile i.cx).regs.guard gd = true
  reads : readAll (s.tile i.tile) i.cx src {} = .ok o

/-- The slot of `i` in hand, with the operand words that it has read (R32). -/
def Issue.slotOf (i : Issue) (o : Opnds) : SlotRec := { i.here with ops := o.words }

/-- The bundle after its slot has read its sources (R15): the next slot is in hand, the pops are noted. -/
def Issue.past (i : Issue) (sup : Bool) (src : List Rd) : Issue :=
  { i with pos := i.pos + 1, pops := i.pops ++ popsOf sup src }

/-- The state in which a slot of `i` takes its effect. -/
def State.past (s : State) (i : Issue) (src : List Rd) : State :=
  { s with issue := some (i.past (s.ctx i.tile i.cx).frame.mode src) }

/-- A slot that has pushed the results `out` and has had no other effect (R27). -/
def State.sends (s : State) (i : Issue) (src : List Rd) (out : List Res) : State :=
  { s with issue := some { i.past (s.ctx i.tile i.cx).frame.mode src with out := i.out ++ out } }

/-- A result of the slot in hand, of latency `l` (R27). -/
def Issue.gives (i : Issue) (l : Nat) (p : Payload) (fp : Fpst := 0) : Res :=
  { rem := l, slot := i.pos, pc := i.addr, fp := fp, pay := p }

/-- The result for a scalar destination field: none for z (R15), the supervisor's own queue for its s24 to s27 (R325). -/
def State.toS (s : State) (i : Issue) (d : BitVec 6) (l : Nat) (v : Dword) : List Res :=
  if d.toNat % 32 = 31 then []
  else [i.gives l (.scalar (scalarCode (s.ctx i.tile i.cx).frame.mode (d.toNat % 32)) v)]

/-- The result for a vector destination field, with the conditions that its landing raises (R26): for vz they alone are
left. -/
def Issue.toV (i : Issue) (d : BitVec 6) (l : Nat) (v : Vec × Fpst) : List Res :=
  if d.toNat % 32 = 31 then (if v.2 = 0 then [] else [i.gives l .status v.2])
  else [i.gives l (.vector (d.toNat % 32) v.1) v.2]

/-- The literal bits behind the slot in hand (R42). -/
def Issue.lits (i : Issue) : List (BitVec 27) := leadLits (i.words.drop (i.pos + 1))

/-- The registers of the context of a bundle. -/
def State.regsOf (s : State) (i : Issue) : Regs := (s.ctx i.tile i.cx).regs

/-- A cause raised at the slot in hand (R323): the slot has no other effect. -/
def State.raises (s : State) (i : Issue) (src : List Rd) (o : Opnds) (cause : Nat) (einfo : Dword) : State :=
  { s with issue := some { i.past (s.ctx i.tile i.cx).frame.mode src with
      raised := i.raised ++ [{ cause := cause, einfo := einfo, cap := i.slotOf o }] } }

/-- A slot whose branch is taken (R76): its results, its target onto position k + 3, and whether the delay bundles are
annulled. -/
def State.branches (s : State) (i : Issue) (src : List Rd) (out : List Res) (t : Target) (annul : Bool) : State :=
  { s with issue := some { i.past (s.ctx i.tile i.cx).frame.mode src with
      out := i.out ++ out, target := some t, annulNext := annul } }

/-- The bundle stands in the delay bundles of another taken branch (R81). -/
def State.delaySlot (s : State) (i : Issue) : Bool :=
  let p := (s.ctx i.tile i.cx).pos
  p.t1.isSome || p.t2.isSome || p.t3.isSome

/-- The address of the `n`-th bundle after the one at `a` in memory order (R35). -/
def Memory.bundlesOn (m : Memory) (a : Dword) : Nat → Dword
  | 0 => a
  | n + 1 => m.nextBundle (Memory.bundlesOn m a n)

/-! ### Frames -/

/-- Nothing but the bundle in progress differs: every register, queue, counter, segment and byte of every memory is as it
was. -/
def State.SameButIssue (s t : State) : Prop := t = { s with issue := t.issue }

/-- The bytes of the live segment `id` of partition `p` as one reads them; 0 where there is none. -/
def State.segByte (s : State) (p id a : Nat) : Byte := ((s.seg? p id).map fun g => g.bytes.read a).getD 0

/-! ### Segments -/

/-- The access of the slot in hand to the byte ranges `rs` of the segment `id` is made at its issue (R199 to R203, R258,
R263): the segment is resident; no operation has a pending range there; every access in the history of the lines is the
context's own or has happened before. Its bytes have the canonical form, which every step keeps. -/
structure State.Reaches (s : State) (i : Issue) (id : Nat) (g : Seg) (rs : List (Nat × Nat)) : Prop where
  entry : s.seg? (s.partOf i.tile) id = some g
  resident : g.place = .resident ∧ g.evict = none
  form : g.bytes.wf = true
  free : ∀ r ∈ (s.tile i.tile).ranges, r.seg = id → ∀ x ∈ rs, r.hi ≤ x.1 ∨ x.1 + x.2 ≤ r.lo
  ordered : ∀ l ∈ g.hist, (∃ x ∈ rs, l.line * 64 < x.1 + x.2 ∧ x.1 < l.line * 64 + 64) →
    ∀ y ∈ l.write.toList ++ l.reads, y.agent = agentOf i.tile i.cx ∨ y.tick ≤ clockGet (s.ctx i.tile i.cx).clock y.agent

/-- No line of the byte ranges `rs` is marked with the other view (R203). -/
def Seg.InView (g : Seg) (rs : List (Nat × Nat)) (swz : Bool) : Prop :=
  ∀ m ∈ g.marks, m.2 ≠ swz → ∀ x ∈ rs, m.1 * 64 + 64 ≤ x.1 ∨ x.1 + x.2 ≤ m.1 * 64

/-- `t` is `s` past the slot in hand with the results `out`, the context of the bundle being `c` and the bytes of the
segment `id` being `m`; besides these, the knowledge of earlier publishes that the bundle acquires, the segment's history,
marks, stores that have not retired and time of use, and the counter of free values alone may differ (R201, R255, R258). -/
structure State.Accessed (s t : State) (i : Issue) (src : List Rd) (out : List Res) (c : Ctx) (id : Nat) (m : Memory) :
    Prop where
  issue : ∃ k, t.issue = some { i.past (s.ctx i.tile i.cx).frame.mode src with out := i.out ++ out, acquire := k }
  tiles : ∀ n, t.tile n = if n = i.tile then (s.tile n).putCtx i.cx c else s.tile n
  seg : ∃ g g', s.seg? (s.partOf i.tile) id = some g ∧ t.seg? (s.partOf i.tile) id = some g' ∧
    g' = { g with bytes := m, hist := g'.hist, marks := g'.marks, touch := g'.touch, atoms := g'.atoms, wrote := g'.wrote
                  unretired := g'.unretired }
  segs : ∀ p n, p ≠ s.partOf i.tile ∨ n ≠ id → t.seg? p n = s.seg? p n
  parts : ∀ p, { t.part p with dir := [] } = { s.part p with dir := [] }
  rest : { t with issue := s.issue, tiles := s.tiles, parts := s.parts, free := s.free } = s

/-- The context of a bundle after a load or gather of it (R18). -/
def State.loads (s : State) (i : Issue) : Ctx := let c := s.ctx i.tile i.cx; { c with ol := c.ol + 1 }

/-- The context of a bundle after a store or local atomic of it, which retires a free time later (R18, R201, log 9). -/
def State.stores (s : State) (i : Issue) : Ctx :=
  let c := s.ctx i.tile i.cx
  { c with os := c.os + 1, stores := c.stores ++ [(s.now + 1 + Config.freeDur s.free, c.tick)] }

/-- A datum that a load delivers `l` issued cycles later, counted in ol until it lands (R205). -/
def Issue.loaded (i : Issue) (l : Nat) (p : Payload) (fp : Fpst := 0) : Res := { i.gives l p fp with ol := true }

/-! ### Streams -/

/-- The handle of register `kh` names stream `n` of the context's partition and passes the checks of R221: the register is
valid, the index lies in the table, the entry is in use, tenant and generation agree. -/
structure State.Stream (s : State) (i : Issue) (kh : Nat) (h : Dword) : Prop where
  valid : rd (s.ctx i.tile i.cx).regs.kh kh (false, 0) = (true, h)
  inside : (fld h 20 20).toNat < (s.part (s.partOf i.tile)).ktCount
  used : bit (s.kWord (s.partOf i.tile) (fld h 20 20).toNat 0) 24 = true
  tenant : fld h 52 12 = fld (s.kWord (s.partOf i.tile) (fld h 20 20).toNat 0) 0 12
  generation : fld h 40 12 = fld (s.kWord (s.partOf i.tile) (fld h 20 20).toNat 0) 12 12

/-! ### Invariants -/

/-- ILIM never stands below its floor (R74). -/
def State.IlimFloor (s : State) : Prop := ∀ t, 256 ≤ (s.tile t).ilim.toNat

/-- The bytes of every segment of a partition and of its shadow have the canonical form. -/
def Part.CanonicalMemory (x : Part) : Prop :=
  ∀ g ∈ x.dir, g.bytes.wf = true ∧ ∀ h, g.shadow = some h → h.bytes.wf = true

/-- Every memory has the canonical form, those of the partitions still to be created at boot included (R375). -/
def State.CanonicalMemory (s : State) : Prop :=
  s.code.wf = true ∧ s.gddr.wf = true ∧ s.host.wf = true ∧ ∀ x ∈ s.parts ++ s.ensign.plan, x.2.CanonicalMemory

end Sys2Proof.Machine
end

