-- ==== Sys2Proof/Certificates/Slice0/Obligations.lean ====
section
/-! DEFINITION. What the provers are to prove. Each statement says which rules of spec/ it formalises. The state that a
slot leaves is given in full, so each such statement is its own frame: every register, queue, flag, counter, segment and
byte of memory that it does not name is unchanged. -/

open Sys2Proof Sys2Proof.Machine

/-! ### Scalar results -/

/-- R95: every scalar operation pushes its result into d: one with two register sources, one with a source and an immediate
after any LIT, or an immediate alone, at issue + 1, a product at issue + 3; nothing else changes. -/
def Obligations.ScalarResults : Prop :=
  (∀ (s : State) (i : Issue) (st : BitVec 1) (gd : BitVec 3) (d a b : BitVec 6) (o : Opnds),
      s.Executes i gd [srcS a, srcS b] o →
      let x := o.s0
      let y := o.s1
      let n := (fld y 0 6).toNat
      let hiS := fld (x.signExtend 128 * y.signExtend 128) 64 64
      let hiU := fld (x.setWidth 128 * y.setWidth 128) 64 64
      let least (lt : Bool) : Dword := if lt then x else y
      ∀ p ∈ ([(.addSa st gd d a b, 1, x + y), (.addSb st gd d a b, 1, x + y), (.subSa st gd d a b, 1, x - y),
          (.subSb st gd d a b, 1, x - y), (.mulSa st gd d a b, 3, x * y), (.mulSb st gd d a b, 3, x * y),
          (.mulhSa st gd d a b, 3, hiS), (.mulhSb st gd d a b, 3, hiS), (.mulhuSa st gd d a b, 3, hiU),
          (.mulhuSb st gd d a b, 3, hiU), (.andSa st gd d a b, 1, x &&& y), (.andSb st gd d a b, 1, x &&& y),
          (.orSa st gd d a b, 1, x ||| y), (.orSb st gd d a b, 1, x ||| y), (.xorSa st gd d a b, 1, x ^^^ y),
          (.xorSb st gd d a b, 1, x ^^^ y), (.andnSa st gd d a b, 1, x &&& ~~~y), (.andnSb st gd d a b, 1, x &&& ~~~y),
          (.shlSa st gd d a b, 1, x <<< n), (.shlSb st gd d a b, 1, x <<< n), (.shrSa st gd d a b, 1, x >>> n),
          (.shrSb st gd d a b, 1, x >>> n), (.sarSa st gd d a b, 1, x.sshiftRight n), (.sarSb st gd d a b, 1, x.sshiftRight n),
          (.minSa st gd d a b, 1, least (x.toInt < y.toInt)), (.minSb st gd d a b, 1, least (x.toInt < y.toInt)),
          (.maxSa st gd d a b, 1, least (y.toInt < x.toInt)), (.maxSb st gd d a b, 1, least (y.toInt < x.toInt)),
          (.minuSa st gd d a b, 1, least (x.toNat < y.toNat)), (.minuSb st gd d a b, 1, least (x.toNat < y.toNat)),
          (.maxuSa st gd d a b, 1, least (y.toNat < x.toNat)), (.maxuSb st gd d a b, 1, least (y.toNat < x.toNat))] :
          List (Instr × Nat × Dword)),
        exec p.1 s = .next (s.sends i [srcS a, srcS b] (s.toS i d p.2.1 p.2.2))) ∧
  ∀ (s : State) (i : Issue) (st : BitVec 1) (gd : BitVec 3) (d a k : BitVec 6) (m : BitVec 12) (o : Opnds),
    let x := o.s0
    let imm := immS 6 k.toNat i.lits
    let n := (immU 6 k.toNat i.lits).toNat % 64
    let zeros := ((List.range 64).takeWhile fun j => !bit x (63 - j)).length
    let ones := ((List.range 64).filter fun j => bit x j).length
    (s.Executes i gd [srcS a] o →
      ∀ p ∈ ([(.addiSa st gd d a k, x + imm), (.addiSb st gd d a k, x + imm),
          (.shliSa st gd d a k, x <<< n), (.shliSb st gd d a k, x <<< n), (.shriSa st gd d a k, x >>> n),
          (.shriSb st gd d a k, x >>> n), (.sariSa st gd d a k, x.sshiftRight n), (.sariSb st gd d a k, x.sshiftRight n),
          (.extSa st gd d a k, (x.setWidth (n + 1)).signExtend 64), (.extSb st gd d a k, (x.setWidth (n + 1)).signExtend 64),
          (.extzSa st gd d a k, (x.setWidth (n + 1)).setWidth 64), (.extzSb st gd d a k, (x.setWidth (n + 1)).setWidth 64),
          (.clzSa st gd d a, BitVec.ofNat 64 zeros), (.clzSb st gd d a, BitVec.ofNat 64 zeros),
          (.popcSa st gd d a, BitVec.ofNat 64 ones), (.popcSb st gd d a, BitVec.ofNat 64 ones),
          (.movSa st gd d a, x), (.movSb st gd d a, x)] : List (Instr × Dword)),
        exec p.1 s = .next (s.sends i [srcS a] (s.toS i d 1 p.2))) ∧
    (s.Executes i gd [] o →
      ∀ j ∈ [Instr.moviSa st gd d m, .moviSb st gd d m],
        exec j s = .next (s.sends i [] (s.toS i d 1 (immS 12 m.toNat i.lits))))

/-- R96: DIV and REM truncate toward zero, DIVU and REMU are unsigned, with the corners of a zero divisor and of the most
negative dividend; the result comes at issue + 24, and the division stage of the unit is taken (R48). -/
def Obligations.DivisionResults : Prop :=
  ∀ (s : State) (i : Issue) (st : BitVec 1) (gd : BitVec 3) (d a b : BitVec 6) (o : Opnds),
    s.Executes i gd [srcS a, srcS b] o →
    let x := o.s0
    let y := o.s1
    let q : Dword := if y = 0 then BitVec.allOnes 64 else BitVec.ofInt 64 (x.toInt.tdiv y.toInt)
    let qu : Dword := if y = 0 then BitVec.allOnes 64 else BitVec.ofNat 64 (x.toNat / y.toNat)
    let rem (q : Dword) : Dword := if y = 0 then x else x - q * y
    let out (v : Dword) : State := s.sends i [srcS a, srcS b] (s.toS i d 24 v)
    (∀ p ∈ ([(.divSa st gd d a b, q), (.divuSa st gd d a b, qu), (.remSa st gd d a b, rem q),
        (.remuSa st gd d a b, rem qu)] : List (Instr × Dword)),
      exec p.1 s = .next ((out p.2).modIssue fun z => { z with divA := true })) ∧
    (∀ p ∈ ([(.divSb st gd d a b, q), (.divuSb st gd d a b, qu), (.remSb st gd d a b, rem q),
        (.remuSb st gd d a b, rem qu)] : List (Instr × Dword)),
      exec p.1 s = .next ((out p.2).modIssue fun z => { z with divB := true }))

/-- R97: CMP and CMPI write (a cc b) into pd at issue + 1; EQ, NE, LT and LE compare signed, LTU and LEU unsigned, with
the immediate extended accordingly (R63). -/
def Obligations.ComparesWritePredicates : Prop :=
  ∀ (s : State) (i : Issue) (st : BitVec 1) (gd : BitVec 3) (pd : BitVec 7) (a : BitVec 6) (b k : BitVec 5) (o : Opnds),
    let x := o.s0
    let y := o.s1
    let ks := immS 5 k.toNat i.lits
    let ku := immU 5 k.toNat i.lits
    (s.Executes i gd [srcS a, srcB b] o →
      ∀ p ∈ ([(.cmpEqSa st gd pd a b, decide (x = y)), (.cmpEqSb st gd pd a b, decide (x = y)),
          (.cmpNeSa st gd pd a b, decide (x ≠ y)), (.cmpNeSb st gd pd a b, decide (x ≠ y)),
          (.cmpLtSa st gd pd a b, decide (x.toInt < y.toInt)), (.cmpLtSb st gd pd a b, decide (x.toInt < y.toInt)),
          (.cmpLeSa st gd pd a b, decide (x.toInt ≤ y.toInt)), (.cmpLeSb st gd pd a b, decide (x.toInt ≤ y.toInt)),
          (.cmpLtuSa st gd pd a b, decide (x.toNat < y.toNat)), (.cmpLtuSb st gd pd a b, decide (x.toNat < y.toNat)),
          (.cmpLeuSa st gd pd a b, decide (x.toNat ≤ y.toNat)), (.cmpLeuSb st gd pd a b, decide (x.toNat ≤ y.toNat))] :
          List (Instr × Bool)),
        exec p.1 s = .next (s.sends i [srcS a, srcB b] [i.gives 1 (.pred pd.toNat p.2)])) ∧
    (s.Executes i gd [srcS a] o →
      ∀ p ∈ ([(.cmpiEqSa st gd pd a k, decide (x = ks)), (.cmpiEqSb st gd pd a k, decide (x = ks)),
          (.cmpiNeSa st gd pd a k, decide (x ≠ ks)), (.cmpiNeSb st gd pd a k, decide (x ≠ ks)),
          (.cmpiLtSa st gd pd a k, decide (x.toInt < ks.toInt)), (.cmpiLtSb st gd pd a k, decide (x.toInt < ks.toInt)),
          (.cmpiLeSa st gd pd a k, decide (x.toInt ≤ ks.toInt)), (.cmpiLeSb st gd pd a k, decide (x.toInt ≤ ks.toInt)),
          (.cmpiLtuSa st gd pd a k, decide (x.toNat < ku.toNat)), (.cmpiLtuSb st gd pd a k, decide (x.toNat < ku.toNat)),
          (.cmpiLeuSa st gd pd a k, decide (x.toNat ≤ ku.toNat)), (.cmpiLeuSb st gd pd a k, decide (x.toNat ≤ ku.toNat))] :
          List (Instr × Bool)),
        exec p.1 s = .next (s.sends i [srcS a] [i.gives 1 (.pred pd.toNat p.2)]))

/-- R98: the predicate operations read pd and pa as they stood before the bundle and write pd at issue + 1; PTOS pushes
the predicate as a number; p0 reads as 1 (R17). -/
def Obligations.PredicateOperations : Prop :=
  ∀ (s : State) (i : Issue) (st : BitVec 1) (gd : BitVec 3) (pd pa : BitVec 7) (d a : BitVec 6) (b : BitVec 1) (o : Opnds),
    let val (p : BitVec 7) : Bool := p.toNat = 0 || bit (s.regsOf i).pred p.toNat
    let x := val pd
    let y := val pa
    (s.Executes i gd [] o →
      (∀ p ∈ ([(.pandSa st gd pd pa, x && y), (.pandSb st gd pd pa, x && y), (.porSa st gd pd pa, x || y),
          (.porSb st gd pd pa, x || y), (.pxorSa st gd pd pa, x != y), (.pxorSb st gd pd pa, x != y),
          (.pandnSa st gd pd pa, x && !y), (.pandnSb st gd pd pa, x && !y), (.pnotSa st gd pd pa, !y),
          (.pnotSb st gd pd pa, !y), (.pmovSa st gd pd pa, y), (.pmovSb st gd pd pa, y),
          (.psetiSa st gd pd b, b == 1), (.psetiSb st gd pd b, b == 1)] : List (Instr × Bool)),
        exec p.1 s = .next (s.sends i [] [i.gives 1 (.pred pd.toNat p.2)])) ∧
      (∀ j ∈ [Instr.ptosSa st gd d pa, .ptosSb st gd d pa],
        exec j s = .next (s.sends i [] (s.toS i d 1 (if y then 1 else 0))))) ∧
    (s.Executes i gd [srcS a] o →
      ∀ j ∈ [Instr.setpSa st gd pd a, .setpSb st gd pd a],
        exec j s = .next (s.sends i [srcS a] [i.gives 1 (.pred pd.toNat (decide (o.s0 ≠ 0)))]))

/-- R99, R65: SCHK and VCHK compare their operands; where they differ, CHK comes at issue + 1 or issue + 2 with the detail
word of the rule; where they are equal, nothing happens. -/
def Obligations.ChecksCompareOperands : Prop :=
  ∀ (s : State) (i : Issue) (st : BitVec 1) (gd : BitVec 3) (a b : BitVec 6) (o : Opnds),
    (s.Executes i gd [srcS a, srcS b] o →
      ∀ j ∈ [Instr.schkSa st gd a b, .schkSb st gd a b],
        exec j s = .next (s.sends i [srcS a, srcS b]
          (if o.s0 = o.s1 then [] else [i.gives 1 (.check (o.s0 ^^^ o.s1))]))) ∧
    (s.Executes i gd [srcV a, srcV b] o →
      exec (.vchk st gd a b) s = .next (s.sends i [srcV a, srcV b]
        (if o.v0 = o.v1 then [] else [i.gives 2 (.check (vchkInfo o.v0 o.v1))])))

/-! ### Control -/

/-- R78, R79, R82: a taken branch forces its target onto position k + 3; BR.nt annuls its delay bundles unless it stands in
those of another taken branch (R81); CALL pushes the third bundle after its own, and its target is not checked against the
loop sets (R77). BR.na with a false guard annuls its two delay bundles under the same condition. -/
def Obligations.BranchesForceTargets : Prop :=
  ∀ (s : State) (i : Issue) (st : BitVec 1) (gd : BitVec 3) (off : BitVec 18) (k : BitVec 12) (d a : BitVec 6) (o : Opnds),
    let far : Target := ⟨i.addr + 4 * immS 18 off.toNat i.lits, true⟩
    (s.Executes i gd [] o →
      exec (.br st gd off) s = .next (s.branches i [] [] far false) ∧
      exec (.brNa st gd off) s = .next (s.branches i [] [] far false) ∧
      exec (.brNt st gd off) s = .next (s.branches i [] [] far (!s.delaySlot i)) ∧
      exec (.call st gd d k) s = .next (s.branches i [] (s.toS i d 1 (s.code.bundlesOn i.addr 3))
        ⟨i.addr + 4 * immS 12 k.toNat i.lits, false⟩ false)) ∧
    (s.Executes i gd [srcS a] o →
      exec (.bri st gd a) s = .next (s.branches i [srcS a] [] ⟨o.s0, true⟩ false)) ∧
    (s.issue = some i → i.remake = [] → i.annulled = false → (s.regsOf i).guard gd = false →
      exec (.brNa st gd off) s = .next { s with issue := some { i with
        pos := i.pos + 1, annulNext := i.annulNext || !s.delaySlot i } })

/-- R83: LOOPn and LOOPIn set all of loop set n at issue + 1; a count of 0 skips the body. R84: the loop-end action. The
sets that stand at the bundle and match the mode are tested in the order lp1, lp0; one with more than one iteration left
redirects and ends the test, one with its last iteration deactivates. -/
def Obligations.LoopsRunTheirBodies : Prop :=
  (∀ (s : State) (i : Issue) (st : BitVec 1) (gd : BitVec 3) (k : BitVec 12) (a c : BitVec 6) (o : Opnds),
    let le := i.addr + 4 * immS 12 k.toNat i.lits
    let ls := s.code.bundlesOn i.addr 1
    let set (n : Nat) (count : BitVec 32) : Res := i.gives 1 (.loop n count ls le (s.ctx i.tile i.cx).frame.mode)
    let after (n : Nat) (src : List Rd) (count : BitVec 32) : State :=
      if count = 0 then s.branches i src [set n count] ⟨s.code.nextBundle le, true⟩ (!s.delaySlot i)
      else s.sends i src [set n count]
    (s.Executes i gd [srcS a] o →
      exec (.loop0 st gd a k) s = .next (after 0 [srcS a] (fld o.s0 0 32)) ∧
      exec (.loop1 st gd a k) s = .next (after 1 [srcS a] (fld o.s0 0 32))) ∧
    (s.Executes i gd [] o →
      exec (.loopi0 st gd c k) s = .next (after 0 [] (c.setWidth 32)) ∧
      exec (.loopi1 st gd c k) s = .next (after 1 [] (c.setWidth 32)))) ∧
  ∀ (r : Regs) (a : Dword) (mode : Bool),
    let l1 := rd r.loops 1 {}
    let l0 := rd r.loops 0 {}
    let here (l : LoopSet) : Prop := l.count ≠ 0 ∧ l.le = a ∧ l.sup = mode
    (here l1 → 1 < l1.count.toNat → r.loopEnd a mode = ([(1, l1.count - 1)], some l1.ls)) ∧
    (here l1 → l1.count = 1 → here l0 → 1 < l0.count.toNat → r.loopEnd a mode = ([(1, 0), (0, l0.count - 1)], some l0.ls)) ∧
    (here l1 → l1.count = 1 → here l0 → l0.count = 1 → r.loopEnd a mode = ([(1, 0), (0, 0)], none)) ∧
    (here l1 → l1.count = 1 → ¬ here l0 → r.loopEnd a mode = ([(1, 0)], none)) ∧
    (¬ here l1 → here l0 → 1 < l0.count.toNat → r.loopEnd a mode = ([(0, l0.count - 1)], some l0.ls)) ∧
    (¬ here l1 → here l0 → l0.count = 1 → r.loopEnd a mode = ([(0, 0)], none)) ∧
    (¬ here l1 → ¬ here l0 → r.loopEnd a mode = ([], none))

/-- R91, R89, R88, R92: END takes its result word, TRAP lets its bundle issue whole with its immediate as detail, RETI is
accepted in supervisor mode and is PRIV in user mode, GMAP sets a window at issue + 1. BRK in user mode stops its bundle
(R90, R324): no slot has an effect, and the context stands at EVEC in supervisor mode with the cause, the slot, the address
of the bundle and the immediate in its frame. -/
def Obligations.SystemSlotsTakeEffect : Prop :=
  ∀ (s : State) (i : Issue) (st e : BitVec 1) (gd w : BitVec 3) (a : BitVec 6) (p : BitVec 7) (k : BitVec 12) (o : Opnds),
    let past (src : List Rd) : Issue := i.past (s.ctx i.tile i.cx).frame.mode src
    (s.Executes i gd [srcS a] o →
      exec (.endTask st gd a) s = .next { s with issue := some { past [srcS a] with endWord := some (o.s0, i.slotOf o) } }) ∧
    (s.Executes i gd [] o →
      exec (.trap st gd k) s = .next { s with issue := some { past [] with trap := some (i.pos, immU 12 k.toNat i.lits) } } ∧
      exec (.gmap st gd w p e) s = .next (s.sends i [] [i.gives 1 (.window w.toNat p (e == 1))]) ∧
      ((s.ctx i.tile i.cx).frame.mode = true →
        exec (.reti st gd) s = .next { s with issue := some { past [] with reti := true } }) ∧
      ((s.ctx i.tile i.cx).frame.mode = false →
        exec (.reti st gd) s = .next (s.raises i [] o Cause.priv 4096))) ∧
    (s.Executes i gd [] o → (s.ctx i.tile i.cx).frame.mode = false → (s.ctx i.tile i.cx).lane = none →
    (s.ctx i.tile i.cx).pos.pc = i.addr →
    ∃ t, exec (.brk st gd k) s = .next t ∧ t.issue = none ∧
      let c := s.ctx i.tile i.cx
      let f := (t.ctx i.tile i.cx).frame
      f.cause.toNat = 0x1A + i.pos % 8 * 256 ∧ f.epc = i.addr ∧ f.einfo = immU 12 k.toNat i.lits ∧
      f.pmode = false ∧ f.mode = true ∧ f.ie = false ∧ f.escr = c.frame.escr ∧
      (t.ctx i.tile i.cx).pos = { pc := (s.tile i.tile).evec, entry := true } ∧ (t.ctx i.tile i.cx).regs = c.regs)

/-- R100, R101: the transfers between the scalar and the vector side, at issue + 3. -/
def Obligations.TransfersBetweenFiles : Prop :=
  ∀ (s : State) (i : Issue) (st : BitVec 1) (gd m : BitVec 3) (d a k : BitVec 6) (o : Opnds),
    let lo := fld o.s0 0 32
    let sel := (immU 6 k.toNat i.lits).toNat
    let mask := if m = 0 then BitVec.allOnes 64 else rd (s.regsOf i).mask m.toNat 0
    (s.Executes i gd [srcS a] o →
      exec (.xbc st gd d a) s = .next (s.sends i [srcS a] (i.toV d 3 (ofLanes fun _ => lo, 0))) ∧
      exec (.xmk st gd m a) s = .next (s.sends i [srcS a] [i.gives 3 (.mask m.toNat o.s0)])) ∧
    (s.Executes i gd [⟨true, d.toNat % 32, true, 1⟩, srcS a] o →
      exec (.xins st gd d a k) s = .next (s.sends i [⟨true, d.toNat % 32, true, 1⟩, srcS a]
        (i.toV d 3 (ofLanes fun n => if n = sel then lo else lane o.v0 n, 0)))) ∧
    (s.Executes i gd [srcV a] o →
      exec (.xext st gd d a k) s = .next (s.sends i [srcV a] (s.toS i d 3 ((lane o.v0 sel).setWidth 64)))) ∧
    (s.Executes i gd [] o →
      exec (.xms st gd d m) s = .next (s.sends i [] (s.toS i d 3 mask)) ∧
      ∃ n, n ≤ 64 ∧ (∀ j, j < n → bit mask j = false) ∧ (n < 64 → bit mask n = true) ∧
        exec (.xfst st gd d m) s = .next (s.sends i [] (s.toS i d 3 (BitVec.ofNat 64 n))))

/-! ### System registers -/

/-- R93, R22, R300, R301, R332, R339, R340: SRD pushes the value of its register at issue + 2; CYC counts the SRD's own
bundle. SPST and SPRND place the context in a guessed-carry loop, 0 outside one; the engine-queue registers show one word of
the selected entry, and the replay registers one word of theirs. A supervisor register in user mode is PRIV, and GROW, MESTEP
and PERM are EBUSY while a sequence operation issued before the bundle is outstanding, each with the number as detail (R12,
R13, R185). -/
def Obligations.ReadsOfSystemRegisters : Prop :=
  ∀ (s : State) (i : Issue) (st : BitVec 1) (gd : BitVec 3) (d : BitVec 6) (o : Opnds), s.Executes i gd [] o →
    let x := s.tile i.tile
    let c := s.ctx i.tile i.cx
    let r := c.regs
    let f := c.frame
    let lp (n : Nat) : LoopSet := rd r.loops n {}
    let cnt (n : Nat) : Dword := BitVec.ofNat 64 ((lp n).count.toNat + b2n (lp n).sup * 2 ^ 32)
    let reads (p : BitVec 12 × Dword) : Prop := exec (.srd st gd d p.1) s = .next (s.sends i [] (s.toS i d 2 p.2))
    let raises (n : BitVec 12) (cause : Nat) : Prop := exec (.srd st gd d n) s = .next (s.raises i [] o cause (n.setWidth 64))
    let entry := (fld x.eqsel 8 5).toNat
    let word := (fld x.eqsel 13 3).toNat
    let head (n : Nat) : Dword := BitVec.ofNat 64 n
    let eWord (e : EOp) : Dword := match word with
      | 0 => head (e.op + e.df * 2 ^ 6 + e.cx.num * 2 ^ 12 + min e.stage 2 * 2 ^ 14 + e.packet.length * 2 ^ 16)
      | w + 1 => e.packet.getD w 0
    let seqWord (e : SeqOp) : Dword := match word with
      | 0 => head (e.op + e.cx.num * 2 ^ 12 + b2n e.report * 2 ^ 13 +
          (if e.stop then 3 else if e.grant.isSome then 2 else 0) * 2 ^ 14 + 6 * 2 ^ 16)
      | 6 => head (if e.grant.isSome then e.step else if e.op = 0x11 ∨ e.op = 0x13 ∨ e.op = 0x15 ∨ e.op = 0x17
          then e.start.getD (s.ctx i.tile e.cx).regs.mestep.toNat else 0)
      | 7 => 0
      | w + 1 => e.image.getD w 0
    let selected := (s.ctx i.tile i.cx).replay[(fld c.rbsel 0 7).toNat]?
    let replayWord (e : REnt) : Dword := match (fld c.rbsel 8 9).toNat with
      | 0 => e.desc
      | w + 1 => if w < (fld e.desc 32 9).toNat then e.data.getD w 0 else 0
    (∀ p ∈ ([(0x000, r.cyc + 1), (0x001, r.frzc), (0x003, BitVec.ofNat 64 i.tile), (0x004, BitVec.ofNat 64 i.cx.num),
        (0x005, s.caps), (0x006, r.fpst.setWidth 64), (0x007, BitVec.ofNat 64 (s.partOf i.tile)),
        (0x008, s.modid.setWidth 64), (0x020, cnt 0), (0x021, (lp 0).ls), (0x022, (lp 0).le), (0x023, cnt 1),
        (0x024, (lp 1).ls), (0x025, (lp 1).le), (0x032, r.meflags.setWidth 64), (0x033, r.mestat), (0x040, s.ptime),
        (0x060, x.flate)] : List (BitVec 12 × Dword)), reads p) ∧
    (c.lane = none → reads (0x050, 0) ∧ reads (0x051, 0)) ∧
    (∀ l g, c.lane = some l → s.loop? (s.partOf i.tile) l.loop = some g →
      reads (0x050, BitVec.ofNat 64 (l.lane % 8 + b2n l.spec * 2 ^ 3 + (g.lanes - 1) % 8 * 2 ^ 4 + 2 ^ 7 + b2n l.mism * 2 ^ 8 +
        l.deferred.length % 64 * 2 ^ 9 + b2n l.guess * 2 ^ 15)) ∧
      reads (0x051, BitVec.ofNat 64 (g.round % 2 ^ 32 + (g.base + l.lane) % 2 ^ 32 * 2 ^ 32))) ∧
    (f.mode = true →
      (∀ p ∈ ([(0x002, x.ilim.setWidth 64), (0x010, f.cause.setWidth 64), (0x011, f.epc), (0x012, f.einfo),
        (0x013, f.estat), (0x014, x.evec), (0x015, f.escr), (0x016, f.edt0), (0x017, f.edt1), (0x200, x.eqsel.setWidth 64),
        (0x210, c.rbsel.setWidth 64), (0x211, (selected.map replayWord).getD 0),
        (0x212, BitVec.ofNat 64 (c.replay.filter fun e => fld e.desc 0 4 != 0).length)] : List (BitVec 12 × Dword)), reads p) ∧
      ((fld x.eqsel 0 2).toNat = 0 → let q := x.seqRun.toList ++ x.seqWait.toList
        reads (0x202, BitVec.ofNat 64 q.length) ∧
        ((∀ e ∈ q, e.image.length = 5) → reads (0x201, (q[entry]?.map seqWord).getD 0))) ∧
      (∀ cx : Cx, (fld x.eqsel 0 2).toNat = cx.num + 1 → let q := s.eQueue i.tile cx
        reads (0x202, BitVec.ofNat 64 q.length) ∧ reads (0x201, (q[entry]?.map eWord).getD 0)) ∧
      ((fld x.eqsel 0 2).toNat = 3 → reads (0x202, 0) ∧ reads (0x201, 0))) ∧
    (f.mode = false →
      ∀ n ∈ [0x002, 0x010, 0x011, 0x012, 0x013, 0x014, 0x015, 0x016, 0x017, 0x200, 0x201, 0x202, 0x210, 0x211, 0x212],
        raises n Cause.priv) ∧
    ∀ k : BitVec 6, ∀ p ∈ ([(0x030, r.grow.setWidth 64), (0x031, r.mestep.setWidth 64),
        (0x100#12 + k.setWidth 12, (rd r.perm k.toNat 0).setWidth 64)] : List (BitVec 12 × Dword)),
      (i.om = 0 → reads p) ∧ (i.om ≠ 0 → raises p.1 Cause.ebusy)

/-- R94, R12, R13: SWR writes its register at issue + 1. A read-only register, or a supervisor register in user mode, is
PRIV with the number as detail; GROW, MESTEP and PERM are EBUSY while a sequence operation issued before the bundle is
outstanding (R22, R40, R185). -/
def Obligations.WritesOfSystemRegisters : Prop :=
  ∀ (s : State) (i : Issue) (st : BitVec 1) (gd : BitVec 3) (a : BitVec 6) (n : BitVec 12) (o : Opnds),
    s.Executes i gd [srcS a] o →
    let c := s.ctx i.tile i.cx
    let fixed := n.toNat ∈ [0x000, 0x001, 0x003, 0x004, 0x005, 0x007, 0x008, 0x033, 0x040, 0x050, 0x051, 0x202, 0x212]
    let sup := n.toNat ∈ [0x002, 0x010, 0x011, 0x012, 0x013, 0x014, 0x015, 0x016, 0x017, 0x200, 0x201, 0x202, 0x210, 0x211, 0x212]
    let seq := n.toNat ∈ [0x030, 0x031] ∨ 0x100 ≤ n.toNat ∧ n.toNat < 0x140
    (¬ fixed → (sup → c.frame.mode = true) → (seq → i.om = 0) →
      exec (.swr st gd a n) s = .next (s.sends i [srcS a] [i.gives 1 (.sys n.toNat o.s0)])) ∧
    (fixed ∨ sup ∧ c.frame.mode = false →
      exec (.swr st gd a n) s = .next (s.raises i [srcS a] o Cause.priv (n.setWidth 64))) ∧
    (seq → i.om ≠ 0 →
      exec (.swr st gd a n) s = .next (s.raises i [srcS a] o Cause.ebusy (n.setWidth 64 + 4096)))

/-! ### Flags and waits -/

/-- R103, R106, R102, R105: POSTF adds its signed amount to a flag modulo 2^32 and keeps the generation, FINIT sets the
value and raises the generation, and what the bundle's accesses learn joins the release; FRD pushes the flag word of R20 at issue + 2, and WAITF and WAITC let their bundle issue
with the wait noted. The flag is inside the window of the context's lane, if it has one (R297). -/
def Obligations.FlagSlots : Prop :=
  ∀ (s : State) (i : Issue) (st : BitVec 1) (gd : BitVec 3) (d f : BitVec 6) (k : BitVec 12) (l n c m : BitVec 4)
    (o : Opnds), s.Executes i gd [] o →
    let t := i.tile
    let amount := fld (immS 12 k.toNat i.lits) 0 32
    let old := (s.tile t).flag f.toNat
    let clock := clockJoin old.clock ((s.ctx t i.cx).releases t i.cx)
    let put (x : Flag) : State := ((s.past i []).modTile t fun y => y.putFlag f.toNat x).modIssue fun z =>
      { z with posted := f.toNat :: z.posted }
    let read := (s.tile t).flag (immU 6 f.toNat i.lits).toNat
    let waits (w : WaitFor) : State := (s.past i []).modIssue fun x => { x with wait := some (w, i.slotOf o) }
    (s.flagOutside t i.cx f.toNat = false →
      exec (.postf st gd f k) s = .next (put { value := old.value + amount, gen := old.gen, clock := clock }) ∧
      exec (.finit st gd f k) s = .next (put { value := amount, gen := old.gen + 1, clock := clock })) ∧
    exec (.frd st gd d f) s = .next (s.sends i [] (s.toS i d 2 (0#24 ++ read.gen ++ read.value))) ∧
    exec (.waitf st gd f k) s = .next (waits (.flag f.toNat (immU 12 k.toNat i.lits).toNat)) ∧
    exec (.waitc st gd l n c m) s = .next (waits (.counters l.toNat n.toNat c.toNat m.toNat))

/-- R102, R105: a wait is tested again. WAITF succeeds when the flag's value is at least k as a signed number, and takes k
from it; WAITC when no counter is above its immediate. A test that fails leaves the context frozen for this cycle: work that
the choice had planned for it is dropped, and everything else is as it was. One that succeeds ends the wait. -/
def Obligations.WaitsAreTestedAgain : Prop :=
  ∀ (s : State) (t : Nat) (cx : Cx) (h : SlotRec),
    let c := s.ctx t cx
    let frozen := (s.dropWork t cx).modCtx t cx fun c => { c with regs := { c.regs with frzc := c.regs.frzc + 1 } }
    ((∀ w ∈ s.work, w.of t cx = false) →
      frozen = s.modCtx t cx fun c => { c with regs := { c.regs with frzc := c.regs.frzc + 1 } }) ∧
    (∀ f k, c.wait = some (.flag f k, h) → f < 16 → k < 2 ^ 31 →
      let x := (s.tile t).flag f
      ((k : Int) ≤ x.value.toInt →
        ∃ s', exec (.waitRetest t cx) s = .next s' ∧ (s'.ctx t cx).wait = none ∧ (s'.ctx t cx).pos = c.pos ∧
          (s'.tile t).flag f = { x with value := x.value - BitVec.ofNat 32 k }) ∧
      (x.value.toInt < k → exec (.waitRetest t cx) s = .next frozen)) ∧
    (∀ l n e m, c.wait = some (.counters l n e m, h) →
      (c.ol.toNat ≤ l ∧ c.os.toNat ≤ n ∧ c.oc.toNat ≤ e ∧ c.om.toNat ≤ m →
        ∃ s', exec (.waitRetest t cx) s = .next s' ∧ (s'.ctx t cx).wait = none ∧ (s'.ctx t cx).pos = c.pos) ∧
      (¬ (c.ol.toNat ≤ l ∧ c.os.toNat ≤ n ∧ c.oc.toNat ≤ e ∧ c.om.toNat ≤ m) →
        exec (.waitRetest t cx) s = .next frozen))

/-! ### Carries of guessed-carry loops -/

/-- R233: CGET pushes a carry-in at issue + 2, CSET writes a carry-out at issue + 1, SLANE pushes the low byte of SPST at
issue + 1; outside a loop ACMP and CGSET have no effect. Inside a loop (R288, R290) CSET takes effect on the carry tile of a
lane group alone, ACMP marks the lane, on all of its tiles, when the next lane of the round was started with another carry, and
CGSET of the guess routine posts a guess for a lane of the round. -/
def Obligations.CarriesOfLoops : Prop :=
  (∀ (s : State) (i : Issue) (st : BitVec 1) (gd k l : BitVec 3) (d a : BitVec 6) (o : Opnds),
    (s.Executes i gd [] o →
      exec (.cget st gd d k) s = .next (s.sends i [] (s.toS i d 2 (rd (s.regsOf i).ci k.toNat 0))) ∧
      exec (.slane st gd d) s = .next (s.sends i [] (s.toS i d 1 (s.spst i.tile i.cx &&& 255)))) ∧
    (s.Executes i gd [srcS a] o → (s.ctx i.tile i.cx).lane = none →
      exec (.cset st gd a k) s = .next (s.sends i [srcS a] [i.gives 1 (.carry k.toNat o.s0)]) ∧
      exec (.acmp st gd a k) s = .next (s.sends i [srcS a] []) ∧
      exec (.cgset st gd a l k) s = .next (s.sends i [srcS a] []))) ∧
  ∀ (s : State) (i : Issue) (st : BitVec 1) (gd k l : BitVec 3) (a : BitVec 6) (o : Opnds) (x : Lane) (g : GLoop),
    s.Executes i gd [srcS a] o → (s.ctx i.tile i.cx).lane = some x → s.loop? (s.partOf i.tile) x.loop = some g →
    let past := s.past i [srcS a]
    (x.guess = false →
      exec (.cset st gd a k) s = .next (s.sends i [srcS a]
        (if i.tile % 8 % 2 ^ g.lgs = 0 then [i.gives 1 (.carry k.toNat o.s0)] else [])) ∧
      exec (.cgset st gd a l k) s = .next past ∧
      (x.lane + 1 < g.n → k.toNat < g.nc →
        exec (.acmp st gd a k) s = .next (if o.s0 = g.carryIn (x.lane + 1) k.toNat then past
          else past.modLane x fun y => { y with mism := true }))) ∧
    (x.guess = true → l.toNat < g.n → k.toNat < g.nc →
      exec (.cgset st gd a l k) s = .next (past.modLoop (s.partOf i.tile) g.id fun g =>
        { g with posts := (l.toNat, k.toNat, o.s0) :: g.posts }))

/-! ### Vector results -/

/-- R133, R135, R131, R143: the masked forms of two sources. In a lane that is not selected the lane of A stands, and nothing
is raised. -/
def Obligations.VectorTwoSourceResults : Prop :=
  ∀ (s : State) (i : Issue) (st : BitVec 1) (gd : BitVec 3) (d a b : BitVec 6) (o : Opnds),
    s.Executes i gd [srcV a, srcV b] o →
    let sel := (s.ctx i.tile i.cx).select
    let byLane (f : Nat → Nat → Nat × Fpst) : Vec × Fpst :=
      ofLanesFs fun k => if bit sel k then f (laneN o.v0 k) (laneN o.v1 k) else (laneN o.v0 k, 0)
    let whole (f : Word → Word → Word) : Vec × Fpst :=
      byLane fun x y => ((f (BitVec.ofNat 32 x) (BitVec.ofNat 32 y)).toNat, 0)
    let two (f : Nat → Nat → Nat × Fpst) : Vec × Fpst :=
      byLane fun x y => halves fun h => f (half x h) (half y h)
    let least (lt : Word → Word → Prop) [DecidableRel lt] : Vec × Fpst := whole fun x y => if lt y x then y else x
    let low (y : Word) : Nat := (fld y 0 5).toNat
    ∀ p ∈ ([(.vaddF32Va st gd d a b, 4, byLane Fmt.f32.add), (.vaddF32Vb st gd d a b, 4, byLane Fmt.f32.add),
        (.vsubF32Va st gd d a b, 4, byLane Fmt.f32.sub), (.vsubF32Vb st gd d a b, 4, byLane Fmt.f32.sub),
        (.vmulF32Va st gd d a b, 4, byLane Fmt.f32.mul), (.vmulF32Vb st gd d a b, 4, byLane Fmt.f32.mul),
        (.vminF32Va st gd d a b, 4, byLane fun x y => (Fmt.f32.min x y, 0)),
        (.vminF32Vb st gd d a b, 4, byLane fun x y => (Fmt.f32.min x y, 0)),
        (.vmaxF32Va st gd d a b, 4, byLane fun x y => (Fmt.f32.max x y, 0)),
        (.vmaxF32Vb st gd d a b, 4, byLane fun x y => (Fmt.f32.max x y, 0)),
        (.vaddBfVa st gd d a b, 4, two Fmt.bf16.add), (.vaddBfVb st gd d a b, 4, two Fmt.bf16.add),
        (.vmulBfVa st gd d a b, 4, two Fmt.bf16.mul), (.vmulBfVb st gd d a b, 4, two Fmt.bf16.mul),
        (.vaddHfVa st gd d a b, 4, two Fmt.f16.add), (.vaddHfVb st gd d a b, 4, two Fmt.f16.add),
        (.vmulHfVa st gd d a b, 4, two Fmt.f16.mul), (.vmulHfVb st gd d a b, 4, two Fmt.f16.mul),
        (.vdiv st gd d a b, 12, byLane Fmt.f32.div),
        (.vaddI32Va st gd d a b, 2, whole (· + ·)), (.vaddI32Vb st gd d a b, 2, whole (· + ·)),
        (.vsubI32Va st gd d a b, 2, whole (· - ·)), (.vsubI32Vb st gd d a b, 2, whole (· - ·)),
        (.vmulI32Va st gd d a b, 2, whole (· * ·)), (.vmulI32Vb st gd d a b, 2, whole (· * ·)),
        (.vminI32Va st gd d a b, 2, least fun x y => x.toInt < y.toInt),
        (.vminI32Vb st gd d a b, 2, least fun x y => x.toInt < y.toInt),
        (.vmaxI32Va st gd d a b, 2, least fun x y => y.toInt < x.toInt),
        (.vmaxI32Vb st gd d a b, 2, least fun x y => y.toInt < x.toInt),
        (.vandVa st gd d a b, 2, whole (· &&& ·)), (.vandVb st gd d a b, 2, whole (· &&& ·)),
        (.vorVa st gd d a b, 2, whole (· ||| ·)), (.vorVb st gd d a b, 2, whole (· ||| ·)),
        (.vxorVa st gd d a b, 2, whole (· ^^^ ·)), (.vxorVb st gd d a b, 2, whole (· ^^^ ·)),
        (.vshlVa st gd d a b, 2, whole fun x y => x <<< low y), (.vshlVb st gd d a b, 2, whole fun x y => x <<< low y),
        (.vshrVa st gd d a b, 2, whole fun x y => x >>> low y), (.vshrVb st gd d a b, 2, whole fun x y => x >>> low y),
        (.vsarVa st gd d a b, 2, whole fun x y => x.sshiftRight (low y)),
        (.vsarVb st gd d a b, 2, whole fun x y => x.sshiftRight (low y))] : List (Instr × Nat × Vec × Fpst)),
      exec p.1 s = .next (s.sends i [srcV a, srcV b] (i.toV d p.2.1 p.2.2))

/-- R134, R142, R131: the fused forms take their addend from vd and give it back in a lane that is not selected. -/
def Obligations.FusedFormsAddToTheDestination : Prop :=
  ∀ (s : State) (i : Issue) (st : BitVec 1) (gd : BitVec 3) (d a b : BitVec 6) (o : Opnds),
    s.Executes i gd [srcV d, srcV a, srcV b] o →
    let sel := (s.ctx i.tile i.cx).select
    let byLane (f : Nat → Nat → Nat → Nat × Fpst) : Vec × Fpst := ofLanesFs fun k =>
      if bit sel k then f (laneN o.v0 k) (laneN o.v1 k) (laneN o.v2 k) else (laneN o.v0 k, 0)
    let two (g : Fmt) : Vec × Fpst := byLane fun c x y => halves fun h => g.fma (half x h) (half y h) (half c h)
    let byte (w t : Nat) : Int := (BitVec.ofNat 8 (w / 256 ^ t)).toInt
    let dot : Vec × Fpst := byLane fun c x y => ((BitVec.ofInt 32 (c + byte x 0 * byte y 0 + byte x 1 * byte y 1 +
      byte x 2 * byte y 2 + byte x 3 * byte y 3)).toNat, 0)
    ∀ p ∈ ([(.vfmaF32Va st gd d a b, byLane fun c x y => Fmt.f32.fma x y c),
        (.vfmaF32Vb st gd d a b, byLane fun c x y => Fmt.f32.fma x y c),
        (.vfmsF32Va st gd d a b, byLane fun c x y => Fmt.f32.fnma x y c),
        (.vfmsF32Vb st gd d a b, byLane fun c x y => Fmt.f32.fnma x y c),
        (.vfmaBfVa st gd d a b, two Fmt.bf16), (.vfmaBfVb st gd d a b, two Fmt.bf16),
        (.vfmaHfVa st gd d a b, two Fmt.f16), (.vfmaHfVb st gd d a b, two Fmt.f16),
        (.vdot4I8Va st gd d a b, dot), (.vdot4I8Vb st gd d a b, dot)] : List (Instr × Vec × Fpst)),
      exec p.1 s = .next (s.sends i [srcV d, srcV a, srcV b] (i.toV d 4 p.2))

/-- R133, R139, R143, R144: the masked forms of one source, and the reductions, whose result stands in every lane; a lane
that is not selected enters a reduction as its neutral value. -/
def Obligations.VectorOneSourceResults : Prop :=
  ∀ (s : State) (i : Issue) (st : BitVec 1) (gd : BitVec 3) (d a : BitVec 6) (o : Opnds),
    s.Executes i gd [srcV a] o →
    let sel := (s.ctx i.tile i.cx).select
    let byLane (f : Nat → Nat × Fpst) : Vec × Fpst :=
      ofLanesFs fun k => if bit sel k then f (laneN o.v0 k) else (laneN o.v0 k, 0)
    let toInt (rnd : Bool → Nat → Int → Int × Bool) : Vec × Fpst := byLane fun x =>
      let r := (Fmt.f32.num x).toInt rnd (-2 ^ 31) (2 ^ 31 - 1)
      ((BitVec.ofInt 32 r.1).toNat, r.2)
    let all (op : Nat → Nat → Nat × Fpst) (e : Nat) : Vec × Fpst :=
      let r := pairTree op 6 ((List.range 64).map fun k => if bit sel k then laneN o.v0 k else e)
      (ofLanes fun _ => BitVec.ofNat 32 r.1, r.2)
    ∀ p ∈ ([(.vabsF32Va st gd d a, 4, byLane fun x => ((BitVec.ofNat 32 x &&& 0x7FFFFFFF#32).toNat, 0)),
        (.vabsF32Vb st gd d a, 4, byLane fun x => ((BitVec.ofNat 32 x &&& 0x7FFFFFFF#32).toNat, 0)),
        (.vnegF32Va st gd d a, 4, byLane fun x => ((BitVec.ofNat 32 x ^^^ 0x80000000#32).toNat, 0)),
        (.vnegF32Vb st gd d a, 4, byLane fun x => ((BitVec.ofNat 32 x ^^^ 0x80000000#32).toNat, 0)),
        (.vcvtF32I32Va st gd d a, 3, byLane fun x => Fmt.f32.ofInt (BitVec.ofNat 32 x).toInt),
        (.vcvtF32I32Vb st gd d a, 3, byLane fun x => Fmt.f32.ofInt (BitVec.ofNat 32 x).toInt),
        (.vcvtI32F32Va st gd d a, 3, toInt Num.nearest), (.vcvtI32F32Vb st gd d a, 3, toInt Num.nearest),
        (.vcvtI32F32zVa st gd d a, 3, toInt Num.trunc), (.vcvtI32F32zVb st gd d a, 3, toInt Num.trunc),
        (.vexp2 st gd d a, 8, byLane vexp2), (.vlog2 st gd d a, 8, byLane vlog2), (.vrcp st gd d a, 8, byLane vrcp),
        (.vrsq st gd d a, 8, byLane vrsq), (.vtanh st gd d a, 10, byLane vtanh), (.vsqrt st gd d a, 12, byLane Fmt.f32.sqrt),
        (.vrsumF32 st gd d a, 6, all Fmt.f32.add 0x80000000),
        (.vrmaxF32 st gd d a, 6, all (fun x y => (Fmt.f32.max x y, 0)) 0xFF800000),
        (.vrminF32 st gd d a, 6, all (fun x y => (Fmt.f32.min x y, 0)) 0x7F800000),
        (.vrsumI32 st gd d a, 6, all (fun x y => ((BitVec.ofNat 32 x + BitVec.ofNat 32 y).toNat, 0)) 0)] :
        List (Instr × Nat × Vec × Fpst)),
      exec p.1 s = .next (s.sends i [srcV a] (i.toV d p.2.1 p.2.2))

/-- R136, R137: a compare writes its mask at issue + 2, with a 0 for a lane that is not selected; the mask operations write
theirs at issue + 1, and VMS the index of the select mask. m0 reads as all ones (R17). -/
def Obligations.MasksAreWritten : Prop :=
  ∀ (s : State) (i : Issue) (st : BitVec 1) (gd m n p : BitVec 3) (a b : BitVec 6) (o : Opnds),
    let c := s.ctx i.tile i.cx
    let val (k : BitVec 3) : Dword := if k = 0 then BitVec.allOnes 64 else rd c.regs.mask k.toNat 0
    let num (k : Nat) (v : Vec) : Machine.Num := Fmt.f32.num (laneN v k)
    (s.Executes i gd [srcV a, srcV b] o →
      ∀ q ∈ ([(.vcmpEqF32Va st gd m a b, fun k => (num k o.v0).eq (num k o.v1)),
          (.vcmpEqF32Vb st gd m a b, fun k => (num k o.v0).eq (num k o.v1)),
          (.vcmpLtF32Va st gd m a b, fun k => (num k o.v0).lt (num k o.v1)),
          (.vcmpLtF32Vb st gd m a b, fun k => (num k o.v0).lt (num k o.v1)),
          (.vcmpLeF32Va st gd m a b, fun k => (num k o.v0).lt (num k o.v1) || (num k o.v0).eq (num k o.v1)),
          (.vcmpLeF32Vb st gd m a b, fun k => (num k o.v0).lt (num k o.v1) || (num k o.v0).eq (num k o.v1)),
          (.vcmpEqI32Va st gd m a b, fun k => decide (lane o.v0 k = lane o.v1 k)),
          (.vcmpEqI32Vb st gd m a b, fun k => decide (lane o.v0 k = lane o.v1 k)),
          (.vcmpLtI32Va st gd m a b, fun k => decide ((lane o.v0 k).toInt < (lane o.v1 k).toInt)),
          (.vcmpLtI32Vb st gd m a b, fun k => decide ((lane o.v0 k).toInt < (lane o.v1 k).toInt)),
          (.vcmpLeI32Va st gd m a b, fun k => decide ((lane o.v0 k).toInt ≤ (lane o.v1 k).toInt)),
          (.vcmpLeI32Vb st gd m a b, fun k => decide ((lane o.v0 k).toInt ≤ (lane o.v1 k).toInt))] :
          List (Instr × (Nat → Bool))),
        exec q.1 s = .next (s.sends i [srcV a, srcV b]
          [i.gives 2 (.mask m.toNat (ofMask fun k => bit (val c.regs.sel) k && q.2 k))])) ∧
    (s.Executes i gd [] o →
      (∀ q ∈ ([(.vmandVa st gd m n p, val n &&& val p), (.vmandVb st gd m n p, val n &&& val p),
          (.vmorVa st gd m n p, val n ||| val p), (.vmorVb st gd m n p, val n ||| val p),
          (.vmnotVa st gd m n, ~~~val n), (.vmnotVb st gd m n, ~~~val n)] : List (Instr × Dword)),
        exec q.1 s = .next (s.sends i [] [i.gives 1 (.mask m.toNat q.2)])) ∧
      (∀ j ∈ [Instr.vmsVa st gd n, .vmsVb st gd n],
        exec j s = .next (s.sends i [] [i.gives 1 (.select n)])))

/-- R138, R140, R141: the forms that move lanes and change widths. -/
def Obligations.LaneMovesAndPacking : Prop :=
  ∀ (s : State) (i : Issue) (st h : BitVec 1) (gd : BitVec 3) (d a b k : BitVec 6) (o : Opnds),
    let sel := (s.ctx i.tile i.cx).select
    let n := (immU 6 k.toNat i.lits).toNat
    let elem16 (v : Vec) (j : Nat) : Nat := half (laneN v (j / 2)) (j % 2)
    let elem8 (v : Vec) (j : Nat) : Nat := byteOf (laneN v (j / 4)) (j % 4)
    let pack2 (f : Fmt) : Vec × Fpst := ofLanesFs fun l => halves fun t =>
      let j := 2 * l + t
      Fmt.f32.conv f (if j < 64 then laneN o.v0 j else laneN o.v1 (j - 64))
    let pack4 (f : Fmt) : Vec × Fpst := ofLanesFs fun l => quads fun t =>
      let j := 4 * l + t
      if j < 64 then Fmt.f32.conv f (laneN o.v0 j) else if j < 128 then Fmt.f32.conv f (laneN o.v1 (j - 64)) else (0, 0)
    let open2 (f : Fmt) : Vec × Fpst := (ofLanes fun l =>
      BitVec.ofNat 32 (f.conv Fmt.f32 (elem16 o.v0 (64 * h.toNat + l))).1, 0)
    let open4 (f : Fmt) : Vec × Fpst := (ofLanes fun l =>
      BitVec.ofNat 32 (f.conv Fmt.f32 (elem8 o.v0 (64 * n + l))).1, 0)
    let sel2 : Vec × Fpst := (ofLanes fun l => if bit sel l then lane o.v0 l else lane o.v1 l, 0)
    let perm : Vec × Fpst := (ofLanes fun l => lane o.v0 (laneN o.v1 l % 64), 0)
    let merge : Vec × Fpst := (ofLanes fun l => if l < 32 then lane o.v0 l else lane o.v1 (l - 32), 0)
    let turn : Vec × Fpst := (ofLanes fun l => lane o.v0 ((l + n) % 64), 0)
    (s.Executes i gd [srcV a, srcV b] o →
      ∀ p ∈ ([(.vselVa st gd d a b, 2, sel2), (.vselVb st gd d a b, 2, sel2), (.vpermVa st gd d a b, 3, perm),
          (.vpermVb st gd d a b, 3, perm), (.vpackBfVa st gd d a b, 3, pack2 Fmt.bf16),
          (.vpackBfVb st gd d a b, 3, pack2 Fmt.bf16), (.vpackHfVa st gd d a b, 3, pack2 Fmt.f16),
          (.vpackHfVb st gd d a b, 3, pack2 Fmt.f16), (.vpack8E4Va st gd d a b, 3, pack4 Fmt.e4m3),
          (.vpack8E4Vb st gd d a b, 3, pack4 Fmt.e4m3), (.vpack8E5Va st gd d a b, 3, pack4 Fmt.e5m2),
          (.vpack8E5Vb st gd d a b, 3, pack4 Fmt.e5m2), (.vmrg8Va st gd d a b, 3, merge),
          (.vmrg8Vb st gd d a b, 3, merge)] : List (Instr × Nat × Vec × Fpst)),
        exec p.1 s = .next (s.sends i [srcV a, srcV b] (i.toV d p.2.1 p.2.2))) ∧
    (s.Executes i gd [srcV a] o →
      ∀ p ∈ ([(.vrotVa st gd d a k, 2, turn), (.vrotVb st gd d a k, 2, turn), (.vunpkBfVa st gd d a h, 3, open2 Fmt.bf16),
          (.vunpkBfVb st gd d a h, 3, open2 Fmt.bf16), (.vunpkHfVa st gd d a h, 3, open2 Fmt.f16),
          (.vunpkHfVb st gd d a h, 3, open2 Fmt.f16), (.vunpk8E4Va st gd d a k, 3, open4 Fmt.e4m3),
          (.vunpk8E4Vb st gd d a k, 3, open4 Fmt.e4m3), (.vunpk8E5Va st gd d a k, 3, open4 Fmt.e5m2),
          (.vunpk8E5Vb st gd d a k, 3, open4 Fmt.e5m2)] : List (Instr × Nat × Vec × Fpst)),
        exec p.1 s = .next (s.sends i [srcV a] (i.toV d p.2.1 p.2.2)))

/-- R146 to R150: the attention forms, all at issue + 8. AMAXU and AMRG give a state vector (m, c, d, r, 0 ...), AEXPS the
weights, ARESC the rescaled vector, and ANORM also the bit of its row in m7. -/
def Obligations.AttentionForms : Prop :=
  ∀ (s : State) (i : Issue) (st : BitVec 1) (gd : BitVec 3) (d a b : BitVec 6) (o : Opnds),
    let sel := (s.ctx i.tile i.cx).select
    let empty := 0xFF800000
    let one := 0x3F800000
    let exp2 (x y : Nat) : Nat × Fpst := ((vexp2 (Fmt.f32.sub x y).1).1, (Fmt.f32.sub x y).2 ||| (vexp2 (Fmt.f32.sub x y).1).2)
    let coef (m x : Nat) : Nat × Fpst := if m = x then (one, 0) else exp2 m x
    let stv (x c e r : Nat) : Vec := ofLanes fun l =>
      if l = 0 then BitVec.ofNat 32 x else if l = 1 then BitVec.ofNat 32 c else if l = 2 then BitVec.ofNat 32 e
      else if l = 3 then BitVec.ofNat 32 (r % 64) else 0
    let on (f : Nat → Bool) : List Nat := (List.range 64).filter f
    let top := (on fun k => bit sel k).foldl (fun x k => Fmt.f32.max x (laneN o.v0 k)) (laneN o.v1 0)
    let amaxu : Vec × Fpst := (stv top (coef (laneN o.v1 0) top).1 (if sel = 0 then 0 else one) (laneN o.v1 3),
      (coef (laneN o.v1 0) top).2)
    let aexps : Vec × Fpst := ofLanesFs fun k =>
      if bit sel k ∧ laneN o.v1 0 ≠ empty then exp2 (laneN o.v0 k) (laneN o.v1 0) else (0, 0)
    let ma := laneN o.v0 0
    let mb := laneN o.v1 0
    let x := Fmt.f32.max ma mb
    let amrg : Vec × Fpst := if ma = empty ∧ mb = empty then (stv x one 0 (laneN o.v0 3), 0)
      else (stv x (coef ma x).1 (coef mb x).1 (laneN o.v0 3), (coef ma x).2 ||| (coef mb x).2)
    let c := laneN o.v2 1
    let e := laneN o.v2 2
    let aresc : Vec × Fpst := if c = one ∧ e = 0 then (o.v0, 0) else if c = 0 ∧ e = one then (o.v1, 0)
      else ofLanesFs fun k =>
        let w := Fmt.f32.mul (laneN o.v1 k) e
        ((Fmt.f32.fma (laneN o.v0 k) c w.1).1, w.2 ||| (Fmt.f32.fma (laneN o.v0 k) c w.1).2)
    let sum := pairTree Fmt.f32.add 6 ((List.range 64).map (laneN o.v2))
    let masked := laneN o.v1 0 = empty
    let ratio := ofLanesFs fun k => Fmt.f32.div (laneN o.v0 k) sum.1
    let anorm : Vec × Fpst := if masked then (0, 0) else (ratio.1, ratio.2 ||| sum.2)
    (s.Executes i gd [srcV a, srcV b] o →
      exec (.amaxu st gd d a b) s = .next (s.sends i [srcV a, srcV b] (i.toV d 8 amaxu)) ∧
      exec (.aexps st gd d a b) s = .next (s.sends i [srcV a, srcV b] (i.toV d 8 aexps)) ∧
      exec (.amrg st gd d a b) s = .next (s.sends i [srcV a, srcV b] (i.toV d 8 amrg))) ∧
    (s.Executes i gd [srcVn a 2, srcV b] o →
      exec (.aresc st gd d a b) s = .next (s.sends i [srcVn a 2, srcV b] (i.toV d 8 aresc))) ∧
    (s.Executes i gd [srcV a, srcVn b 2] o →
      exec (.anorm st gd d a b) s = .next (s.sends i [srcV a, srcVn b 2]
        (i.toV d 8 anorm ++ [i.gives 8 (.maskBit 7 (laneN o.v1 3 % 64) (decide masked))])))

/-! ### Arithmetic -/

/-- R111, R110: rounding is to nearest, ties to even. No finite word of a format lies nearer to an exact value than its
rounding, unless the rounding overflows; a value of either sign keeps its sign. E4M3 rounds in the same way: its words
with exponent 15 are numbers but for the NaN. -/
def Obligations.RoundingIsToNearest : Prop :=
  ∀ f ∈ [Fmt.f32, .f16, .bf16, .e4m3, .e5m2], ∀ (neg : Bool) (m : Nat) (e : Int),
    let signed (b : Bool) (n : Nat) (k : Int) : ℚ := (if b then -1 else 1) * (n : ℚ) * 2 ^ k
    let x : ℚ := signed neg m e
    let r := f.roundFin neg m e
    r.2 &&& Fs.overflow = 0 → ∃ n k, f.num r.1 = .fin neg n k ∧
      (r.2 &&& Fs.inexact = 0 ↔ signed neg n k = x) ∧
      ∀ w b t j, f.num w = .fin b t j → |x - signed neg n k| ≤ |x - signed b t j| ∧
        (|x - signed neg n k| = |x - signed b t j| → signed b t j ≠ signed neg n k → r.1 % 2 = 0)

/-! ### Segments -/

/-- R205, R18, R67: a scalar load of an aligned operand inside its segment delivers the bytes there, little-endian (R5),
extended as its form says, into sld at issue + 8, and counts in ol; no byte of any segment changes. -/
def Obligations.ScalarLoadsDeliver : Prop :=
  ∀ (s : State) (i : Issue) (st : BitVec 1) (gd : BitVec 3) (g a k : BitVec 6) (o : Opnds) (id : Nat) (x : Seg),
    s.Executes i gd [srcS a] o → s.binding i.tile i.cx g.toNat = some id →
    let e := (o.s0 + immS 6 k.toNat i.lits).toNat
    let sext (n : Nat) : Dword := (BitVec.ofNat (8 * n) (x.bytes.nat e n)).signExtend 64
    let zext (n : Nat) : Dword := BitVec.ofNat 64 (x.bytes.nat e n)
    ∀ p ∈ ([(.ldb st gd g a k, 1, sext 1), (.ldbz st gd g a k, 1, zext 1), (.ldh st gd g a k, 2, sext 2),
        (.ldhz st gd g a k, 2, zext 2), (.ldw st gd g a k, 4, sext 4), (.ldwz st gd g a k, 4, zext 4),
        (.ldd st gd g a k, 8, zext 8)] : List (Instr × Nat × Dword)),
      s.Reaches i id x [(e, p.2.1)] → x.InView [(e, p.2.1)] false → e % p.2.1 = 0 → e + p.2.1 ≤ 256 * x.len →
      ∃ t, exec p.1 s = .next t ∧
        s.Accessed t i [srcS a] [i.loaded 8 (.scalar 28 p.2.2)] (s.loads i) id x.bytes

/-- R206, R207, R119: the vector loads and the gather. LDV of an N4Q segment decodes a block; a gather reads the lanes that
the select mask selects, and delivers 0 in the others. -/
def Obligations.VectorLoadsDeliver : Prop :=
  ∀ (s : State) (i : Issue) (st : BitVec 1) (gd : BitVec 3) (g a k v : BitVec 6) (o : Opnds) (id : Nat) (x : Seg),
    s.binding i.tile i.cx g.toNat = some id →
    let e := (o.s0 + immS 6 k.toNat i.lits).toNat
    let sel := (s.ctx i.tile i.cx).select
    let at_ (n : Nat) : Nat := (o.s0 + (lane o.v0 n).setWidth 64).toNat
    let on := (List.range 64).filter fun n => bit sel n
    let q := n4qAt e
    let code (n : Nat) : Nat := (x.bytes.read (q.2.2 + n / 2)).toNat / 16 ^ (n % 2) % 16
    let block : Vec × Fpst := ofLanesFs fun n => n4qDecode (x.bytes.nat q.1 4) (x.bytes.read q.2.1).toNat (code n)
    (s.Executes i gd [srcS a] o →
      (s.Reaches i id x [(e, 256)] → x.InView [(e, 256)] false → x.fmt ≠ 8 → e % 4 = 0 →
        e + 256 ≤ 256 * x.len → ∃ t, exec (.ldv st gd g a k) s = .next t ∧ s.Accessed t i [srcS a]
          [i.loaded 10 (.vector 28 (BitVec.ofNat 2048 (x.bytes.nat e 256)))] (s.loads i) id x.bytes) ∧
      (s.Reaches i id x [(e, 256)] → x.InView [(e, 256)] true → x.fmt ≠ 8 → e % 256 = 0 →
        e + 256 ≤ 256 * x.len → ∃ t, exec (.ldvS st gd g a k) s = .next t ∧ s.Accessed t i [srcS a]
          [i.loaded 10 (.vector 28 (BitVec.ofNat 2048 (x.bytes.nat e 256)))] (s.loads i) id x.bytes) ∧
      (s.Reaches i id x [(q.1, 16), (q.2.1, 1), (q.2.2, 32)] →
        x.InView [(q.1, 16), (q.2.1, 1), (q.2.2, 32)] false → x.fmt = 8 → e % 64 = 0 → q.2.2 + 32 ≤ 256 * x.len →
        ∃ t, exec (.ldv st gd g a k) s = .next t ∧ s.Accessed t i [srcS a]
          [i.loaded 10 (.vector 28 block.1) block.2] (s.loads i) id x.bytes)) ∧
    (s.Executes i gd [srcS a, srcV v] o →
      s.Reaches i id x (on.map fun n => (at_ n, 4)) → x.InView (on.map fun n => (at_ n, 4)) false → x.fmt ≠ 8 →
      (∀ n ∈ on, at_ n % 4 = 0 ∧ at_ n + 4 ≤ 256 * x.len) →
      ∃ t, exec (.ldvg st gd g a v) s = .next t ∧ s.Accessed t i [srcS a, srcV v]
        [i.loaded 14 (.vector 28 (ofLanes fun n => if bit sel n then BitVec.ofNat 32 (x.bytes.nat (at_ n) 4) else 0))]
        (s.loads i) id x.bytes)

/-- R205, R206, R207, R5: a store writes the low bytes of its datum, little-endian, from its effective offset on, and no other
byte of its segment, or of any other; it counts in os. STVM writes the selected lanes, STVS the selected lanes each to its own
offset, the higher lane last; every other byte is unchanged. -/
def Obligations.StoresWriteTheirBytes : Prop :=
  (∀ (s : State) (i : Issue) (st : BitVec 1) (gd : BitVec 3) (g a d : BitVec 6) (o : Opnds) (id : Nat) (x : Seg),
    s.binding i.tile i.cx g.toNat = some id →
    let e := o.s0.toNat
    let writes (j : Instr) (src : List Rd) (n : Nat) (v : Nat) : Prop :=
      ∃ t m, exec j s = .next t ∧ s.Accessed t i src [] (s.stores i) id m ∧
        (∀ b, b < n → m.read (e + b) = BitVec.ofNat 8 (v / 256 ^ b)) ∧
        (∀ b, b < e ∨ e + n ≤ b → m.read b = x.bytes.read b)
    (s.Executes i gd [srcS a, srcS d] o →
      ∀ p ∈ ([(.stb st gd g a d, 1), (.sth st gd g a d, 2), (.stw st gd g a d, 4), (.std st gd g a d, 8)] :
        List (Instr × Nat)),
      s.Reaches i id x [(e, p.2)] → e % p.2 = 0 → e + p.2 ≤ 256 * x.len →
      writes p.1 [srcS a, srcS d] p.2 o.s1.toNat) ∧
    (s.Executes i gd [srcS a, srcV d] o → s.Reaches i id x [(e, 256)] → x.fmt ≠ 8 → e + 256 ≤ 256 * x.len →
      (e % 4 = 0 → writes (.stv st gd g a d) [srcS a, srcV d] 256 o.v0.toNat) ∧
      (e % 256 = 0 → writes (.stvS st gd g a d) [srcS a, srcV d] 256 o.v0.toNat))) ∧
  ∀ (s : State) (i : Issue) (st : BitVec 1) (gd : BitVec 3) (g a d : BitVec 6) (o : Opnds) (id : Nat) (x : Seg),
    s.binding i.tile i.cx g.toNat = some id →
    let sel := (s.ctx i.tile i.cx).select
    let on := (List.range 64).filter fun n => bit sel n
    let writes (j : Instr) (src : List Rd) (off : Nat → Nat) (v : Vec) : Prop :=
      s.Reaches i id x (on.map fun n => (off n, 4)) → x.fmt ≠ 8 →
      (∀ n ∈ on, off n % 4 = 0 ∧ off n + 4 ≤ 256 * x.len) →
      (sel = 0 → exec j s = .next (s.past i src)) ∧
      (sel ≠ 0 → ∃ t m, exec j s = .next t ∧ s.Accessed t i src [] (s.stores i) id m ∧
        (∀ n ∈ on, (∀ k ∈ on, off k = off n → k ≤ n) → m.nat (off n) 4 = laneN v n) ∧
        (∀ b, (∀ n ∈ on, b < off n ∨ off n + 4 ≤ b) → m.read b = x.bytes.read b))
    (s.Executes i gd [srcS a, srcV d] o →
      writes (.stvm st gd g a d) [srcS a, srcV d] (fun n => o.s0.toNat + 4 * n) o.v0) ∧
    (s.Executes i gd [srcS a, srcVn d 2] o →
      writes (.stvs st gd g a d) [srcS a, srcVn d 2]
        (fun n => (o.s0 + (lane o.v0 n).setWidth 64).toNat) o.v1)

/-- R206, R120: STV of an N4Q segment encodes the 64 lanes under the super-scale of the header: it writes the scale byte and
the 32 code bytes of its block, two codes a byte, and no other byte; the conditions of the encoding land at issue + 1. What
the encoding makes of a NaN, an infinity under an infinite b and −0 is in part the model's choice (log 46). -/
def Obligations.BlockStoresEncode : Prop :=
  ∀ (s : State) (i : Issue) (st : BitVec 1) (gd : BitVec 3) (g a d : BitVec 6) (o : Opnds) (id : Nat) (x : Seg),
    s.Executes i gd [srcS a, srcV d] o → s.binding i.tile i.cx g.toNat = some id →
    let e := o.s0.toNat
    let q := n4qAt e
    let z := n4qEncode (x.bytes.nat q.1 4) ((List.range 64).map (laneN o.v0))
    let code (n : Nat) : Nat := z.2.1.getD n 0
    let rs := [(q.1, 16), (q.2.1, 1), (q.2.2, 32)]
    s.Reaches i id x rs → x.InView [(q.1, 16)] false → x.fmt = 8 → e % 64 = 0 → q.2.2 + 32 ≤ 256 * x.len →
    ∃ t m, exec (.stv st gd g a d) s = .next t ∧
      s.Accessed t i [srcS a, srcV d] (if z.2.2 = 0 then [] else [i.gives 1 .status z.2.2]) (s.stores i) id m ∧
      m.read q.2.1 = BitVec.ofNat 8 z.1 ∧
      (∀ b, b < 32 → m.read (q.2.2 + b) = BitVec.ofNat 8 (code (2 * b) + 16 * code (2 * b + 1))) ∧
      ∀ b, b ≠ q.2.1 → (b < q.2.2 ∨ q.2.2 + 32 ≤ b) → m.read b = x.bytes.read b

/-- R208: a local atomic writes the new value to its word and delivers the old one into sld at issue + 12; every other byte
is unchanged. -/
def Obligations.AtomicsReadAndWrite : Prop :=
  ∀ (s : State) (i : Issue) (st : BitVec 1) (gd : BitVec 3) (g a d : BitVec 6) (o : Opnds) (id : Nat) (x : Seg),
    s.binding i.tile i.cx g.toNat = some id →
    let e := o.s0.toNat
    let w := BitVec.ofNat 32 (x.bytes.nat e 4)
    let q := BitVec.ofNat 64 (x.bytes.nat e 8)
    let y := fld o.s1 0 32
    let swaps (j : Instr) (src : List Rd) (n : Nat) (new : Nat) (old : Dword) : Prop :=
      s.Executes i gd src o → s.Reaches i id x [(e, n)] → x.InView [(e, n)] false → e % n = 0 → e + n ≤ 256 * x.len →
      ∃ t m, exec j s = .next t ∧ s.Accessed t i src [i.gives 12 (.scalar 28 old)] (s.stores i) id m ∧
        m.nat e n = new ∧ ∀ b, b < e ∨ e + n ≤ b → m.read b = x.bytes.read b
    (∀ p ∈ ([(.aaddW st gd g a d, w + y), (.aminW st gd g a d, if y.toInt < w.toInt then y else w),
        (.amaxW st gd g a d, if w.toInt < y.toInt then y else w)] : List (Instr × Word)),
      swaps p.1 [srcS a, srcS d] 4 p.2.toNat (w.signExtend 64)) ∧
    swaps (.aaddD st gd g a d) [srcS a, srcS d] 8 (q + o.s1).toNat q ∧
    swaps (.axchgD st gd g a d) [srcS a, srcS d] 8 o.s1.toNat q ∧
    swaps (.acasD st gd g a d) [srcS a, srcSn d 2] 8 (if q = o.s1 then o.s2 else q).toNat q

/-- R200, R204, R206, R207, R384, R159, R161, R172: where an access is refused, and nothing else happens. A name without a
segment raises SEGU with WHY 1; a form that the format does not allow raises FMT; a range that is not aligned raises SEGB with
WHY 2, one that passes the end of its segment WHY 1, with the offset of the lowest failing lane or row; an N4Q block whose
element bytes alone lie beyond the end raises WHY 3 (the line between WHY 1 and WHY 3 is the model's, log 59). MWL and MGA
follow their name as it stood before the bundle, and report FMT with the row of their operand, or lane 0 (log 39). -/
def Obligations.AccessesOutsideTheirSegment : Prop :=
  ∀ (s : State) (i : Issue) (st : BitVec 1) (gd : BitVec 3) (g a k d r v : BitVec 6) (o : Opnds) (id : Nat) (x : Seg),
    let sel := (s.ctx i.tile i.cx).select
    let (m, af, wt) := (s.regsOf i).bmode
    let len := 256 * x.len
    let info (why off : Nat) : Dword := BitVec.ofNat 64 (g.toNat + why * 2 ^ 8 + off % 2 ^ 32 * 2 ^ 16)
    let raises (j : Instr) (src : List Rd) (cause : Nat) (e : Dword) : Prop := exec j s = .next (s.raises i src o cause e)
    let inside : Prop := s.seg? (s.partOf i.tile) id = some x
    let unbound (j : Instr) (src : List Rd) : Prop :=
      s.binding i.tile i.cx g.toNat = none → raises j src Cause.segu (info 1 0)
    let here : Prop := s.binding i.tile i.cx g.toNat = some id ∧ inside
    let range (j : Instr) (src : List Rd) (al e n : Nat) : Prop :=
      (e % al ≠ 0 → raises j src Cause.segb (info 2 e)) ∧
      (e % al = 0 → len < e + n → raises j src Cause.segb (info 1 e))
    let block (j : Instr) (src : List Rd) (e : Nat) : Prop :=
      (e % 64 ≠ 0 → raises j src Cause.segb (info 2 e)) ∧
      (e % 64 = 0 → len ≤ (n4qAt e).2.1 → raises j src Cause.segb (info 1 e)) ∧
      (e % 64 = 0 → (n4qAt e).2.1 < len → len < (n4qAt e).2.2 + 32 → raises j src Cause.segb (info 3 e))
    let rows (j : Instr) (src : List Rd) (al : Nat) (off : Nat → Nat) (n : Nat) (on : Nat → Prop) : Prop :=
      (∀ q, on q → off q % al ≠ 0 → (∀ p, p < q → on p → off p % al = 0) → raises j src Cause.segb (info 2 (off q))) ∧
      ((∀ q, on q → off q % al = 0) → ∀ q, on q → len < off q + n → (∀ p, p < q → on p → off p + n ≤ len) →
        raises j src Cause.segb (info 1 (off q)))
    let scalar (j : Instr) (src : List Rd) (n e : Nat) : Prop := unbound j src ∧ (here → range j src n e n)
    let lanes (j : Instr) (src : List Rd) (e : Nat) (off : Nat → Nat) : Prop :=
      unbound j src ∧ (here → x.fmt = 8 → raises j src Cause.fmt (info 2 e)) ∧
      (here → x.fmt ≠ 8 → rows j src 4 off 4 fun q => q < 64 ∧ bit sel q = true)
    let vector (j js : Instr) (src : List Rd) (e : Nat) : Prop :=
      unbound j src ∧ unbound js src ∧
      (here → x.fmt ≠ 8 → range j src 4 e 256 ∧ range js src 256 e 256) ∧
      (here → x.fmt = 8 → block j src e ∧ raises js src Cause.fmt (info 2 e))
    let e := (o.s0 + immS 6 k.toNat i.lits).toNat
    let b := o.s0.toNat
    (s.Executes i gd [srcS a] o →
      (∀ p ∈ ([(.ldb st gd g a k, 1), (.ldbz st gd g a k, 1), (.ldh st gd g a k, 2), (.ldhz st gd g a k, 2),
          (.ldw st gd g a k, 4), (.ldwz st gd g a k, 4), (.ldd st gd g a k, 8)] : List (Instr × Nat)),
        scalar p.1 [srcS a] p.2 e) ∧
      vector (.ldv st gd g a k) (.ldvS st gd g a k) [srcS a] e) ∧
    (s.Executes i gd [srcS a, srcS d] o →
      ∀ p ∈ ([(.stb st gd g a d, 1), (.sth st gd g a d, 2), (.stw st gd g a d, 4), (.std st gd g a d, 8),
          (.aaddW st gd g a d, 4), (.aaddD st gd g a d, 8), (.aminW st gd g a d, 4), (.amaxW st gd g a d, 4),
          (.axchgD st gd g a d, 8)] : List (Instr × Nat)),
        scalar p.1 [srcS a, srcS d] p.2 b) ∧
    (s.Executes i gd [srcS a, srcSn d 2] o → scalar (.acasD st gd g a d) [srcS a, srcSn d 2] 8 b) ∧
    (s.Executes i gd [srcS a, srcV d] o →
      vector (.stv st gd g a d) (.stvS st gd g a d) [srcS a, srcV d] b ∧
      (unbound (.stvm st gd g a d) [srcS a, srcV d] ∧
        (here → x.fmt = 8 → raises (.stvm st gd g a d) [srcS a, srcV d] Cause.fmt (info 2 b)) ∧
        (here → x.fmt ≠ 8 → sel ≠ 0 →
          (b % 4 ≠ 0 → raises (.stvm st gd g a d) [srcS a, srcV d] Cause.segb (info 2 b)) ∧
          (b % 4 = 0 → ∀ q, q < 64 → bit sel q = true → len < b + 4 * q + 4 →
            (∀ p, p < q → bit sel p = true → b + 4 * p + 4 ≤ len) →
            raises (.stvm st gd g a d) [srcS a, srcV d] Cause.segb (info 1 (b + 4 * q))))) ∧
      (s.Executes i gd [srcS a, srcV v] o →
        lanes (.ldvg st gd g a v) [srcS a, srcV v] b fun q => (o.s0 + (lane o.v0 q).setWidth 64).toNat)) ∧
    (s.Executes i gd [srcS a, srcVn d 2] o →
      lanes (.stvs st gd g a d) [srcS a, srcVn d 2] b fun q => (o.s0 + (lane o.v0 q).setWidth 64).toNat) ∧
    (let ahead : Prop := s.bindingBefore i.tile i.cx g.toNat = some id ∧ inside
     let fmtOf (f : Nat) : Nat :=
       if m = 2 then (if f = 0 then 5 else 4) else if m = 3 then 3 else if f = 0 then 1 else if f = 1 then 6 else 7
     let al := if x.swz then 64 else 4
     let none_ : Prop := s.bindingBefore i.tile i.cx g.toNat = none
     (s.Executes i gd [srcS a] o →
       let j : Instr := .mwl st gd g a r
       let bad : Prop := raises j [srcS a] Cause.fmt (BitVec.ofNat 64 (r.toNat + 2 ^ 6))
       (none_ → raises j [srcS a] Cause.segu (info 1 0)) ∧
       (ahead → m ≠ 1 → (x.fmt ≠ 0 → x.fmt ≠ fmtOf wt → bad) ∧
         (x.fmt = 0 ∨ x.fmt = fmtOf wt → range j [srcS a] al b 64)) ∧
       (ahead → m = 1 → (x.fmt ≠ 8 → bad) ∧
         (x.fmt = 8 → (b % 64 ≠ 0 → raises j [srcS a] Cause.segb (info 2 b)) ∧
           (b % 64 = 0 → len ≤ (n4qAt (b + 64)).2.1 → raises j [srcS a] Cause.segb (info 1 b))))) ∧
     (s.Executes i gd [srcS a, srcV v] o →
       let j : Instr := .mga st gd g a v
       let stride := (fld (rd (s.regsOf i).me 1 0) 0 32).toNat
       let rb := if m = 1 then 128 else 64
       (none_ → raises j [srcS a, srcV v] Cause.segu (info 1 0)) ∧
       (ahead → x.fmt ≠ 0 → x.fmt ≠ fmtOf af → raises j [srcS a, srcV v] Cause.fmt (2 ^ 6)) ∧
       (ahead → (x.fmt = 0 ∨ x.fmt = fmtOf af) →
         rows j [srcS a, srcV v] al (fun q => b + laneN o.v0 q * stride) rb
           fun q => q < 8 ∧ ∀ p, p ≤ q → bit (lane o.v0 p) 31 = false)))

/-- R199, R28, R248, R18: a core access to an absent segment that its checks let pass is registered with what it keeps from
its issue (what that is, is the model's choice, log 12): its result, if it gives one, is in flight and waits for its datum, its
segment is asked for, and it counts in ol, or in os; no byte of any segment changes. `touch` is what the access reads and
writes where its checks pass. -/
def Obligations.AbsentSegmentsDelayLoads : Prop :=
  ∀ (s : State) (i : Issue) (st : BitVec 1) (gd : BitVec 3) (g a k r v d : BitVec 6) (o : Opnds) (id : Nat) (x : Seg) (w : Touch),
    s.seg? (s.partOf i.tile) id = some x → (x.place ≠ .resident ∨ x.evict ≠ none) → x.lost = 0 → i.absent = [] →
    x.charge ≤ s.budget i.tile (s.groupOf i.tile i.cx) →
    let c := s.ctx i.tile i.cx
    let keeps : Origin := { seg := id, lanes := c.select, bmode := rd c.regs.me 0 0, stride := rd c.regs.me 1 0,
                            plane := 1 - (s.tile i.tile).active, tick := c.tick, clock := c.clock, order := s.fresh }
    let delays (j : Instr) (src : List Rd) (op : Nat) (imm : Dword) (u : Ctx) (out : List (Nat × Bool)) : Prop :=
      (⟨op, g.toNat, imm, i.slotOf o, o, { keeps with order := 0 }⟩ : GOp).touch x = .ok w → w.all ≠ [] →
      ∃ pay, exec j s = .next { (s.putCtx i.tile i.cx u) with
        issue := some { i.past c.frame.mode src with
          out := i.out ++ out.map fun y => { i.gives y.1 pay with ol := y.2, await := some s.fresh }
          delayed := i.delayed ++ [{ cap := i.slotOf o, why := .absent 0, id := s.fresh, stops := true, org := keeps }]
          absent := [id] }
        fresh := s.fresh + 1 }
    let stored : Ctx := { c with os := c.os + 1 }
    let bound : Prop := s.binding i.tile i.cx g.toNat = some id
    let imm := immS 6 k.toNat i.lits
    (s.Executes i gd [srcS a] o → bound →
      ∀ p ∈ ([(.ldb st gd g a k, 0, 8), (.ldbz st gd g a k, 1, 8), (.ldh st gd g a k, 2, 8), (.ldhz st gd g a k, 3, 8),
          (.ldw st gd g a k, 4, 8), (.ldwz st gd g a k, 5, 8), (.ldd st gd g a k, 6, 8), (.ldv st gd g a k, 8, 10),
          (.ldvS st gd g a k, 9, 10)] : List (Instr × Nat × Nat)),
        delays p.1 [srcS a] p.2.1 imm (s.loads i) [(p.2.2, true)]) ∧
    (s.Executes i gd [srcS a, srcV v] o → bound →
      delays (.ldvg st gd g a v) [srcS a, srcV v] 10 0 (s.loads i) [(14, true)]) ∧
    (s.Executes i gd [srcS a, srcS d] o → bound →
      ∀ p ∈ ([(.stb st gd g a d, 16, []), (.sth st gd g a d, 17, []), (.stw st gd g a d, 18, []), (.std st gd g a d, 19, []),
          (.aaddW st gd g a d, 24, [(12, false)]), (.aaddD st gd g a d, 25, [(12, false)]), (.aminW st gd g a d, 26, [(12, false)]),
          (.amaxW st gd g a d, 27, [(12, false)]), (.axchgD st gd g a d, 28, [(12, false)])] :
          List (Instr × Nat × List (Nat × Bool))),
        delays p.1 [srcS a, srcS d] p.2.1 0 stored p.2.2) ∧
    (s.Executes i gd [srcS a, srcSn d 2] o → bound →
      delays (.acasD st gd g a d) [srcS a, srcSn d 2] 29 0 stored [(12, false)]) ∧
    (s.Executes i gd [srcS a, srcV d] o → bound →
      ∀ p ∈ ([(.stv st gd g a d, 20), (.stvS st gd g a d, 21), (.stvm st gd g a d, 22)] : List (Instr × Nat)),
        delays p.1 [srcS a, srcV d] p.2 0 stored []) ∧
    (s.Executes i gd [srcS a, srcVn d 2] o → bound → delays (.stvs st gd g a d) [srcS a, srcVn d 2] 23 0 stored []) ∧
    (s.bindingBefore i.tile i.cx g.toNat = some id →
      (s.Executes i gd [srcS a] o →
        delays (.mwl st gd g a r) [srcS a] 64 (r.setWidth 64) (s.loads i) [(4, true)]) ∧
      (s.Executes i gd [srcS a, srcV v] o → delays (.mga st gd g a v) [srcS a, srcV v] 65 0 (s.loads i) [(14, true)]))

/-- R203, R211: VJOIN clears the marks of its segment alone, and notes the other context's stores that have not retired,
which will mark their lines; SLEN pushes its length in bytes and SFMT its descriptor word at
issue + 2. Without a valid name each raises SEGU with WHY 1 (R204). -/
def Obligations.NamesAndDescriptors : Prop :=
  ∀ (s : State) (i : Issue) (st : BitVec 1) (gd : BitVec 3) (g d : BitVec 6) (o : Opnds) (id : Nat) (x : Seg),
    s.Executes i gd [] o →
    let state := if x.evict.isSome then 3 else if x.place = .resident then 0 else if x.place = .lateral then 1
      else if x.place = .backed then 2 else 3
    let word := x.fmt % 16 + (if x.swz then 2 ^ 4 else 0) + state * 2 ^ 5 + (if x.shadow = none then 0 else 2 ^ 7) +
      x.live.getD id % 2 ^ 32 * 2 ^ 32
    (s.binding i.tile i.cx g.toNat = some id → s.seg? (s.partOf i.tile) id = some x →
      exec (.vjoin st gd g) s = .next ((s.past i []).modSeg (s.partOf i.tile) id fun y =>
        { y with marks := [], joined := s.fresh
                 unretired := (y.unretired.filter fun u => u.agent != agentOf i.tile i.cx).map fun u =>
                   { u with joined := true } }) ∧
      exec (.slen st gd g d) s = .next (s.sends i [] (s.toS i d 2 (BitVec.ofNat 64 (256 * x.len)))) ∧
      exec (.sfmt st gd g d) s = .next (s.sends i [] (s.toS i d 2 (BitVec.ofNat 64 word)))) ∧
    (s.binding i.tile i.cx g.toNat = none →
      ∀ j ∈ [Instr.vjoin st gd g, .slen st gd g d, .sfmt st gd g d, .sfree st gd g, .sshd st gd g, .spub st gd g,
          .spubp st gd g, .sdisc st gd g],
        exec j s = .next (s.raises i [] o Cause.segu (BitVec.ofNat 64 (g.toNat + 1 * 2 ^ 8))))

/-- R209: SBIND of a free name. With NEW = 0 it binds a segment that no tile or this tile owns, which keeps its bytes; with
NEW = 1 it makes a zero segment of its own under the lowest free id. An unknown id, another tile's segment, a bad length
and a bad format raise their causes. No other name of the context changes. -/
def Obligations.BindingNames : Prop :=
  ∀ (s : State) (i : Issue) (st : BitVec 1) (gd : BitVec 3) (g a : BitVec 6) (o : Opnds),
    s.Executes i gd [srcS a] o → s.binding i.tile i.cx g.toNat = none →
    let p := s.partOf i.tile
    let w := o.s0
    let id := (fld w 0 32).toNat
    let len := (fld w 32 15).toNat
    let fmt := (fld w 47 4).toNat
    let new := lowestFree 1 ((s.part p).dir.filter (·.valid))
    let bad (cause why off : Nat) : Prop := exec (.sbind st gd g a) s = .next (s.raises i [srcS a] o cause
      (BitVec.ofNat 64 (g.toNat + why * 2 ^ 8 + off * 2 ^ 16)))
    let binds (n : Nat) (ok : Seg → Prop) : Prop := ∃ t y, exec (.sbind st gd g a) s = .next t ∧
      t.binding i.tile i.cx g.toNat = some n ∧ (∀ k, k < 64 → k ≠ g.toNat → t.binding i.tile i.cx k = s.binding i.tile i.cx k) ∧
      t.seg? p n = some y ∧ ok y ∧ y.owned = true ∧ y.owner = i.tile ∧ ∀ k, k ≠ n → t.seg? p k = s.seg? p k
    (bit w 63 = false → (s.seg? p id = none → bad Cause.segu 2 id) ∧
      ∀ x, s.seg? p id = some x →
        (x.owned = true → x.owner ≠ i.tile → bad Cause.segu 3 id) ∧
        (x.owned = false ∨ x.owner = i.tile → binds id fun y => y.bytes = x.bytes ∧ y.len = x.len ∧ y.fmt = x.fmt)) ∧
    (bit w 63 = true →
      (len = 0 ∨ 16384 < len → bad Cause.segb 5 0) ∧
      (0 < len → len ≤ 16384 → 8 < fmt → bad Cause.fmt 3 0) ∧
      (0 < len → len ≤ 16384 → fmt ≤ 8 → (s.part p).dirSize < new → bad Cause.segu 4 0) ∧
      (0 < len → len ≤ 16384 → fmt ≤ 8 → new ≤ (s.part p).dirSize → new < 2 ^ 32 →
        binds new fun y => y.bytes = [] ∧ y.len = len ∧ y.fmt = fmt ∧ y.swz = bit w 51 ∧ y.priv.isSome = true))

/-- R210: SFREE of a name whose segment is not in use makes the name invalid. Where the tile owns the segment, its shadow is
discarded; with its last name there a private segment is destroyed, unless a lane's settle still needs it (R295, R296), and
another keeps its bytes. A segment that another tile owns stays as it is. In use, it raises EBUSY with WHY 4. -/
def Obligations.FreeingNames : Prop :=
  ∀ (s : State) (i : Issue) (st : BitVec 1) (gd : BitVec 3) (g : BitVec 6) (o : Opnds) (id : Nat) (x : Seg),
    s.Executes i gd [] o → s.binding i.tile i.cx g.toNat = some id → s.seg? (s.partOf i.tile) id = some x →
    (s.inUse (s.partOf i.tile) i.tile id = true →
      exec (.sfree st gd g) s = .next (s.raises i [] o Cause.ebusy (BitVec.ofNat 64 (g.toNat + 4 * 2 ^ 8)))) ∧
    (s.inUse (s.partOf i.tile) i.tile id = false →
      ∃ t, exec (.sfree st gd g) s = .next t ∧ t.binding i.tile i.cx g.toNat = none ∧
        (∀ k, k < 64 → k ≠ g.toNat → t.binding i.tile i.cx k = s.binding i.tile i.cx k) ∧
        (x.owner ≠ i.tile → t.seg? (s.partOf i.tile) id = some x) ∧
        (x.owner = i.tile → t.named i.tile id = false → x.priv ≠ none → x.live = none → s.keptDeferred i.tile id = false →
          t.seg? (s.partOf i.tile) id = none) ∧
        (x.owner = i.tile → t.named i.tile id = true ∨ x.priv = none ∨ x.live ≠ none ∨ s.keptDeferred i.tile id = true →
          ∃ y, t.seg? (s.partOf i.tile) id = some y ∧ y.bytes = x.bytes ∧ y.shadow = none) ∧
        ∀ k, k ≠ id → t.seg? (s.partOf i.tile) k = s.seg? (s.partOf i.tile) k)

/-- R212: SSHD opens a shadow with no line written; SPUB puts every written line into the segment and closes the shadow;
SPUBP also marks a phase commit, alone where no shadow is open; SDISC closes the shadow and changes no byte. Without an open
shadow, with one already open, or with an engine write into it outstanding they raise EBUSY. -/
def Obligations.ShadowsOpenAndPublish : Prop :=
  ∀ (s : State) (i : Issue) (st : BitVec 1) (gd : BitVec 3) (g : BitVec 6) (o : Opnds) (id : Nat) (x : Seg),
    s.Executes i gd [] o → s.binding i.tile i.cx g.toNat = some id → s.seg? (s.partOf i.tile) id = some x → x.bytes.wf = true →
    let p := s.partOf i.tile
    let busy (j : Instr) (why : Nat) : Prop :=
      exec j s = .next (s.raises i [] o Cause.ebusy (BitVec.ofNat 64 (g.toNat + why * 2 ^ 8)))
    let writing : Prop := ∃ e ∈ s.eops, e.tile = i.tile ∧ e.op = 1 ∧ e.seg = id
    let known (sh : Shadow) : Prop := ∀ l ∈ x.hist, l.line ∈ sh.lines → ∀ y ∈ l.write.toList ++ l.reads,
      y.agent = agentOf i.tile i.cx ∨ y.tick ≤ clockGet (s.ctx i.tile i.cx).clock y.agent
    let publishes (sh : Shadow) (j : Instr) (commit : Bool) : Prop := ∃ t y, exec j s = .next t ∧
      t.seg? p id = some y ∧ y.shadow = none ∧ t.issue.map (·.commit) = some (i.commit || commit) ∧
      (∀ a, y.bytes.read a = if a / 64 ∈ sh.lines ∧ a < 256 * x.len then sh.bytes.read a else x.bytes.read a) ∧
      ∀ k, k ≠ id → t.seg? p k = s.seg? p k
    (x.shadow = none →
      (∃ t y, exec (.sshd st gd g) s = .next t ∧ t.seg? p id = some y ∧ y.bytes = x.bytes ∧
        ∃ sh, y.shadow = some sh ∧ sh.id = s.fresh ∧ sh.lines = []) ∧
      busy (.spub st gd g) 5 ∧ busy (.sdisc st gd g) 5 ∧
      exec (.spubp st gd g) s = .next ((s.past i []).modIssue fun z => { z with commit := true })) ∧
    (∀ sh, x.shadow = some sh → busy (.sshd st gd g) 3 ∧
      (writing → busy (.spub st gd g) 2 ∧ busy (.spubp st gd g) 2 ∧ busy (.sdisc st gd g) 2) ∧
      (¬ writing →
        (known sh → publishes sh (.spub st gd g) false ∧ publishes sh (.spubp st gd g) true) ∧
        exec (.sdisc st gd g) s = .next ((s.past i []).modSeg p id fun y => { y with shadow := none })))

/-! ### The array -/

/-- R162, R129, R154, R158: a beat on an accepted plane gives, at issue + 6, the tree values of its mode for the row that
its scalar source names: MAC to be added, MAC.z to replace; an integer beat sums products modulo 2^32 and raises nothing.
A row with another tag raises FMT with the lowest such row, its tag and the tag wanted (R172). -/
def Obligations.BeatsGiveTreeValues : Prop :=
  ∀ (s : State) (i : Issue) (st : BitVec 1) (gd : BitVec 3) (a b : BitVec 6) (o : Opnds),
    let c := s.ctx i.tile i.cx
    let x := s.tile i.tile
    let (m, af, wt) := c.regs.bmode
    let n := if m = 3 then 16 else 64
    let k := if m = 0 then 64 else if m = 1 then 128 else if m = 2 then 32 else 16
    let want := if m = 0 then 1 + wt else if m = 1 then 4 else if m = 2 then 5 + wt else 7
    let tag (l : Nat) : Nat := (x.weightRow x.active l).tag
    let ws (l : Nat) : List Word := (x.weightRow x.active l).ws
    let row := (fld o.s0 0 10).toNat
    let prod (l e : Nat) : Nat × Fpst := product (activation m af o.v0.toNat e) (weightAt m wt (ws l) e)
    let tree (l : Nat) : Nat × Fpst := pairTree Fmt.f32.add (Nat.log2 k) ((List.range k).map fun e => (prod l e).1)
    let sum (l : Nat) : Nat × Fpst := ((tree l).1, ((List.range k).map fun e => (prod l e).2).foldl (· ||| ·) (tree l).2)
    let floats : Vec × Fpst := ofLanesFs fun l => if l < n then sum l else (0, 0)
    let byte (v e : Nat) : Int := (BitVec.ofNat 8 (v / 2 ^ (8 * e))).toInt
    let ints : Vec := ofLanes fun l => BitVec.ofInt 32
      (((List.range 64).map fun e => byte o.v0.toNat e * byte (rowNat (ws l)) e).sum)
    let out (z : Bool) : List Res :=
      if m = 0 ∧ af = 0 ∧ wt = 0 then [i.gives 6 (.beat row z true 64 ints)]
      else [i.gives 6 (.beat row z false n floats.1) floats.2]
    let beats (j : Instr) (src : List Rd) (z : Bool) : Prop :=
      s.Executes i gd src o →
      ((∀ l, l < n → tag l = 0 ∨ tag l = want) → exec j s = .next (s.sends i src (out z))) ∧
      (∀ l, l < n → tag l ≠ 0 → tag l ≠ want → (∀ e, e < l → tag e = 0 ∨ tag e = want) →
        exec j s = .next (s.raises i src o Cause.fmt (BitVec.ofNat 64 (l + tag l * 2 ^ 8 + want * 2 ^ 16))))
    beats (.mac st gd a b) [srcS a, srcV b] false ∧ beats (.macZ st gd a b) [srcS a, srcV b] true ∧
    beats (.macLatch st gd a) [srcS a, srcLatch] false ∧ beats (.macZLatch st gd a) [srcS a, srcLatch] true

/-- R27, R30, R18, R26: a due result lands with what its kind does, its sticky status joins FPST, and its count in ol falls;
nothing else differs. The second part says what each kind does: a push goes behind the entries of its queue (R15), while there
is room; a predicate, a mask or one bit of it, the select index, a guard window, a loop set and a carry-out are written, p0 and
m0 excepted (R17); a system register takes its writable fields, ILIM its floor and FPST only clears (R94, R74, R12, R22, R25); an
engine register goes into both sets, or into the shadow set (R155, R168); a weight row, MLDH's signs and the exchange change the
planes (R158, R159, R166, R160); the tree values of a beat are added to their row (as INT32 modulo 2^32, or by FP32 addition) or
replace it, and in FP32 mode its lanes from 16 on, and in every mode the other rows, are unchanged (R162, R163). What a write of
EINFO keeps is in part the model's choice (log 37). -/
def Obligations.ResultsLandInTheirRegisters : Prop :=
  (∀ (s : State) (t : Nat) (cx : Cx) (r : Res),
    let c := s.ctx t cx
    let x := (s.tile t).putCtx cx { c with inflight := [] }
    let y := x.apply cx r.pay
    c.inflight = [r] → c.delayed = [] → r.rem ≤ 1 → r.await = none → r.pay.isCheck = false →
    (∀ q, r.pay.queue = some q → x.held cx q.1 q.2 < depth q.1 q.2) →
    (∀ rows, r.pay = .latch rows → x.latch.length + rows.length ≤ 8) →
    (∀ n v, r.pay = .sys n v → n ≠ 0x200 ∧ n ≠ 0x032) →
    exec (.resultLanding t cx) s = .next (s.putTile t (y.1.modCtx cx fun d => { d with
      regs := { d.regs with fpst := d.regs.fpst ||| r.fp ||| y.2 }, ol := if r.ol then d.ol - 1 else d.ol }))) ∧
  ∀ (t : Tile) (cx : Cx),
    let c := t.ctx cx
    let lands (p : Payload) (x : Tile) : Prop := t.apply cx p = (x, 0)
    let ctx (p : Payload) (d : Ctx) : Prop := lands p (t.putCtx cx d)
    let regs (p : Payload) (r : Regs) : Prop := ctx p { c with regs := r }
    let frame (n : Nat) (v : Dword) (f : Frame) : Prop := ctx (.sys n v) { c with frame := f }
    let r := c.regs
    let f := c.frame
    (∀ q v, q ≤ 28 → regs (.scalar q v) { r with sq := wr r.sq q (rd r.sq q [] ++ [v]) }) ∧
    (∀ q v, q < 4 → ctx (.scalar (32 + q) v) { c with sup := wr c.sup q (rd c.sup q [] ++ [v]) }) ∧
    (∀ q v, q < 24 → regs (.vector q v) { r with vq := wr r.vq q (rd r.vq q [] ++ [v]) }) ∧
    (∀ v, regs (.vector 28 v) { r with vld := r.vld ++ [v] } ∧ regs (.vector 29 v) { r with kld := r.kld ++ [v] }) ∧
    (∀ q v, q < 4 → lands (.row q v) { t with rq := wr t.rq q (rd t.rq q [] ++ [v]) }) ∧
    (∀ rows, lands (.latch rows) { t with latch := t.latch ++ rows }) ∧
    (∀ p b, p < 96 → ∃ w, regs (.pred p b) { r with pred := w } ∧
      ∀ q, q < 96 → bit w q = if q = p ∧ p ≠ 0 then b else bit r.pred q) ∧
    (∀ m v, m < 8 → regs (.mask m v) (if m = 0 then r else { r with mask := wr r.mask m v })) ∧
    (∀ m i b, 0 < m → m < 8 → i < 64 → ∃ w, regs (.maskBit m i b) { r with mask := wr r.mask m w } ∧
      ∀ j, j < 64 → bit w j = if j = i then b else bit (rd r.mask m 0) j) ∧
    (∀ m, regs (.select m) { r with sel := m }) ∧
    (∀ n p e, regs (.window n p e) { r with win := wr r.win n (p, e) }) ∧
    (∀ n k ls le sup, regs (.loop n k ls le sup) { r with loops := wr r.loops n { count := k, sup := sup, ls := ls, le := le } }) ∧
    (∀ k v, regs (.carry k v) { r with co := wr r.co k v }) ∧
    lands .status t ∧ lands .planes { t with active := 1 - t.active } ∧
    (∀ q n tag ws, q < 2 → ∃ w, lands (.weight q n tag ws) { t with planes := w } ∧ rd w (1 - q) [] = rd t.planes (1 - q) [] ∧
      ∀ m, aget (rd w q []) m {} = if m = n then ⟨tag, ws⟩ else aget (rd t.planes q []) m {}) ∧
    (∀ q, q < 2 → ∀ o ∈ [(16, 0x10), (32, 0x11), (64, 0x12)], ∃ w, lands (.hadamard q o.1) { t with planes := w } ∧
      rd w (1 - q) [] = rd t.planes (1 - q) [] ∧ ∀ m, m < 64 → aget (rd w q []) m {} = ⟨o.2, []⟩) ∧
    (∀ v : Dword, ∀ p ∈ [(0, v &&& 0x3F), (1, v &&& 0xFFFFFFFF), (2, v &&& 3), (3, v &&& 0xFFFFFFFF), (4, v &&& 0xFFFFFFFF)],
      regs (.me p.1 v) { r with me := wr r.me p.1 p.2, meShadow := wr r.meShadow p.1 p.2 }) ∧
    (∀ v : Dword, ∀ p ∈ [(8, v &&& 0x00000FFF3FFFFF3F), (9, v &&& 0x00000FFF3FFFFF3F), (10, v &&& 0x00000FFF3FFFFF3F),
        (11, v &&& 0x3F3F3F3F), (12, v &&& 0x37)], regs (.me p.1 v) { r with meShadow := wr r.meShadow p.1 p.2 }) ∧
    (∀ v : Dword,
      let low := fld v 0 16
      let lp (n : Nat) : LoopSet := rd r.loops n {}
      let loops (n : Nat) (l : LoopSet) : Regs := { r with loops := wr r.loops n l }
      lands (.sys 0x002 v) { t with ilim := if low.toNat < 256 then 256 else low } ∧
      lands (.sys 0x014 v) { t with evec := v } ∧ lands (.sys 0x060 v) { t with flate := v } ∧
      lands (.sys 0x201 v) { t with staging := wr t.staging (fld t.eqsel 13 3).toNat v } ∧
      regs (.sys 0x006 v) { r with fpst := r.fpst &&& ~~~(fld v 0 5) } ∧
      (∃ e, frame 0x010 v { f with cause := fld v 0 11, emap := e }) ∧
      frame 0x011 v { f with epc := v } ∧ frame 0x012 v { f with einfo := v &&& einfoMask (f.cause.toNat % 256) f.emap } ∧
      frame 0x013 v { f with mode := bit v 0, pmode := bit v 1, ie := bit v 2, ds := fld v 4 2, dleft := fld v 6 2,
                             anul := bit v 8, frozen := bit v 9 } ∧
      frame 0x015 v { f with escr := v } ∧ frame 0x016 v { f with edt0 := v } ∧ frame 0x017 v { f with edt1 := v } ∧
      (∀ p ∈ [((0x020 : Nat), (0 : Nat)), (0x023, 1)],
        regs (.sys p.1 v) (loops p.2 { lp p.2 with count := fld v 0 32, sup := bit v 32 }) ∧
        regs (.sys (p.1 + 1) v) (loops p.2 { lp p.2 with ls := v &&& ~~~3 }) ∧
        regs (.sys (p.1 + 2) v) (loops p.2 { lp p.2 with le := v &&& ~~~3 })) ∧
      regs (.sys 0x030 v) { r with grow := fld v 0 32 } ∧ regs (.sys 0x031 v) { r with mestep := fld v 0 7 } ∧
      regs (.sys 0x032 v) { r with meflags := fld v 0 2 } ∧
      (∀ n, n < 64 → regs (.sys (0x100 + n) v) { r with perm := wr r.perm n (fld v 0 6) }) ∧
      (bit v 17 = false → ctx (.sys 0x210 v) { c with rbsel := fld v 0 18 &&& 0x1FF7F#18 })) ∧
    ∀ (n q k : Nat) (z int : Bool) (v : Vec),
      let u := t.accRow n
      let w := (t.apply cx (.beat n z int k v)).1
      w = { t with acc := w.acc } ∧ (q ≠ n → w.accRow q = t.accRow q) ∧
      ∀ l, l < 64 → lane (w.accRow n) l =
        if k ≤ l then lane u l
        else if z then lane v l
        else if int then lane v l + lane u l
        else BitVec.ofNat 32 (Fmt.f32.add (laneN v l) (laneN u l)).1

/-- R160, R166, R168: MWSW exchanges the planes at issue + 1, MLDH loads the signs into the plane idle at issue at
issue + 8, MSET writes its register at issue + 1. MROT needs one Hadamard tag in all 64 rows of the active plane (R166,
R167), which gives the order q; its lanes are the trees over their groups of q with the signs of the order, and replace the
row at issue + 6. What FMT reports where row 0 has no such tag is the model's choice (log 45). -/
def Obligations.PlanesAndRotations : Prop :=
  (∀ (s : State) (i : Issue) (st : BitVec 1) (gd : BitVec 3) (q : BitVec 12) (a : BitVec 6) (e : BitVec 5) (o : Opnds),
    (s.Executes i gd [] o →
      exec (.mwsw st gd) s = .next (s.sends i [] [i.gives 1 .planes]) ∧
      exec (.mldh st gd q) s = .next (s.sends i [] [i.gives 8 (.hadamard (1 - (s.tile i.tile).active) q.toNat)])) ∧
    (s.Executes i gd [srcS a] o →
      exec (.mset st gd a e) s = .next (s.sends i [srcS a] [i.gives 1 (.me e.toNat o.s0)]))) ∧
  ∀ (s : State) (i : Issue) (st : BitVec 1) (gd : BitVec 3) (a : BitVec 6) (o : Opnds), s.Executes i gd [srcS a] o →
    let x := s.tile i.tile
    let tag (l : Nat) : Nat := (x.weightRow x.active l).tag
    let row := (fld o.s0 0 10).toNat
    let odd (n : Nat) : Bool := ((List.range 7).filter fun k => n.testBit k).length % 2 == 1
    let h (q n e : Nat) : Nat :=
      let y := lane (x.accRow row) (n / q * q + e)
      (if odd (e &&& n % q) then y ^^^ 0x80000000#32 else y).toNat
    let turned (q : Nat) : Vec × Fpst := ofLanesFs fun n =>
      pairTree Fmt.f32.add (Nat.log2 q) ((List.range q).map (h q n))
    (∀ p ∈ [(0x10, 16), (0x11, 32), (0x12, 64)], (∀ l, l < 64 → tag l = p.1) →
      exec (.mrot st gd a) s = .next (s.sends i [srcS a]
        [i.gives 6 (.beat row true false 64 (turned p.2).1) (turned p.2).2])) ∧
    (tag 0 < 0x10 → exec (.mrot st gd a) s = .next (s.raises i [srcS a] o Cause.fmt
      (BitVec.ofNat 64 (tag 0 * 2 ^ 8 + tag 0 * 2 ^ 16))))

/-- R164, R165: MDR pushes a row of its result queue at issue + 8 with the layout of its format: f32 lanes, 16-bit elements,
bytes, or the codes of an N4Q block and its scale. What the block encoding makes of a NaN, an infinity under an infinite b and
−0 is in part the model's choice (log 46). The code 7 of the format field names no format: no such slot is well-formed. -/
def Obligations.DrainsConvertRows : Prop :=
  ∀ (s : State) (i : Issue) (st sc : BitVec 1) (gd f : BitVec 3) (q a : BitVec 6) (o : Opnds),
    s.Executes i gd [srcS a] o →
    let r := (s.ctx i.tile i.cx).regs
    let ctl := rd r.me 2 0
    let scale := (fld (rd r.me 3 0) 0 32).toNat
    let sup := (fld (rd r.me 4 0) 0 32).toNat
    let x := (s.tile i.tile).accRow (fld o.s0 0 10).toNat
    let base (l : Nat) : Nat × Fpst := if bit ctl 0 then Fmt.f32.ofInt (lane x l).toInt else (laneN x l, 0)
    let v (l : Nat) : Nat × Fpst :=
      if sc = 1 then ((Fmt.f32.mul (base l).1 scale).1, (base l).2 ||| (Fmt.f32.mul (base l).1 scale).2) else base l
    let thin (g : Fmt) (l : Nat) : Nat × Fpst := ((Fmt.f32.conv g (v l).1).1, (v l).2 ||| (Fmt.f32.conv g (v l).1).2)
    let sat (l : Nat) : Nat × Fpst :=
      if bit ctl 0 ∧ sc = 0 then
        let n := (lane x l).toInt
        ((BitVec.ofInt 8 (max (-128) (min 127 n))).toNat, if n < -128 ∨ 127 < n then Fs.invalid else 0)
      else
        let n := (Fmt.f32.num (v l).1).toInt Num.nearest (-128) 127
        ((BitVec.ofInt 8 n.1).toNat, (v l).2 ||| n.2)
    let conds (g : Nat → Nat × Fpst) : Fpst := ((List.range 64).map fun l => (g l).2).foldl (· ||| ·) 0
    let half_ (g : Nat → Nat × Fpst) (y : Vec) : Prop := ∀ l, l < 32 →
      laneN y l = (g (2 * l)).1 % 65536 + (g (2 * l + 1)).1 % 65536 * 65536 ∧ lane y (32 + l) = 0
    let byte_ (g : Nat → Nat × Fpst) (y : Vec) : Prop := ∀ l, l < 64 →
      laneN y l = if l < 16 then (g (4 * l)).1 % 256 + (g (4 * l + 1)).1 % 256 * 256 + (g (4 * l + 2)).1 % 256 * 65536 +
        (g (4 * l + 3)).1 % 256 * 16777216 else 0
    (f = 7 → wf (.mdr st gd q a sc f) = false) ∧
    ∃ y fp, exec (.mdr st gd q a sc f) s = .next (s.sends i [srcS a] [i.gives 8 (.row q.toNat y) fp]) ∧
      (f = 0 → bit ctl 1 = true → sc = 0 → y = x ∧ fp = 0) ∧
      (f = 0 → ¬ (bit ctl 1 = true ∧ sc = 0) → (∀ l, l < 64 → laneN y l = (v l).1) ∧ fp = conds v) ∧
      (f = 1 → half_ (thin .bf16) y ∧ fp = conds (thin .bf16)) ∧
      (f = 2 → half_ (thin .f16) y ∧ fp = conds (thin .f16)) ∧
      (f = 3 → byte_ (thin .e4m3) y ∧ fp = conds (thin .e4m3)) ∧
      (f = 4 → byte_ (thin .e5m2) y ∧ fp = conds (thin .e5m2)) ∧
      (f = 5 → byte_ sat y ∧ fp = conds sat) ∧
      (f = 6 →
        let e := n4qEncode sup ((List.range 64).map fun l => (v l).1)
        let code (n : Nat) : Nat := (e.2.1.getD n 0) % 16
        (∀ n, n < 64 → y.toNat / 16 ^ n % 16 = code n) ∧ y.toNat / 2 ^ 256 % 256 = e.1 % 256 ∧ y.toNat / 2 ^ 264 = 0 ∧
        fp = conds v ||| e.2.2)

/-- R159, R161, R158: MWL reads a row of its mode from its segment into the plane idle at issue, with the mode's tag, at
issue + 4; MGA gathers up to eight rows for the latch at issue + 14, and with a first lane that ends the list does
nothing. Both count in ol. -/
def Obligations.ArrayLoadsReadSegments : Prop :=
  ∀ (s : State) (i : Issue) (st : BitVec 1) (gd : BitVec 3) (g a r v : BitVec 6) (o : Opnds) (id : Nat) (x : Seg),
    s.bindingBefore i.tile i.cx g.toNat = some id →
    let c := s.ctx i.tile i.cx
    let (m, af, wt) := c.regs.bmode
    let idle := 1 - (s.tile i.tile).active
    let e := o.s0.toNat
    let fmtOf (f : Nat) : Nat :=
      if m = 2 then (if f = 0 then 5 else 4) else if m = 3 then 3 else if f = 0 then 1 else if f = 1 then 6 else 7
    let al := if x.swz then 64 else 4
    let q := n4qAt e
    let q' := n4qAt (e + 64)
    let block := x.n4qBlock e ++ x.n4qBlock (e + 64)
    let words := (List.range 16).map fun k => BitVec.ofNat 32 (x.bytes.nat (e + 4 * k) 4)
    let tag := if m = 0 then 1 + wt else if m = 2 then 5 + wt else 7
    let rb := if m = 1 then 128 else 64
    let stride := (fld (rd c.regs.me 1 0) 0 32).toNat
    let count := ((List.range 8).takeWhile fun j => !bit (lane o.v0 j) 31).length
    let row (j : Nat) : Nat := e + laneN o.v0 j * stride
    (s.Executes i gd [srcS a] o →
      (m ≠ 1 → (x.fmt = 0 ∨ x.fmt = fmtOf wt) → s.Reaches i id x [(e, 64)] → x.InView [(e, 64)] x.swz → e % al = 0 →
        e + 64 ≤ 256 * x.len →
        ∃ t, exec (.mwl st gd g a r) s = .next t ∧ s.Accessed t i [srcS a]
          [i.loaded 4 (.weight idle r.toNat tag words)] (s.loads i) id x.bytes) ∧
      (m = 1 → x.fmt = 8 → e % 64 = 0 → q.2.2 + 32 ≤ 256 * x.len → q'.2.2 + 32 ≤ 256 * x.len →
        let rs := [(q.1, 16), (q'.1, 16), (q.2.1, 1), (q'.2.1, 1), (q.2.2, 32), (q'.2.2, 32)]
        s.Reaches i id x rs → x.InView rs x.swz →
        ∃ t, exec (.mwl st gd g a r) s = .next t ∧ s.Accessed t i [srcS a]
          [i.loaded 4 (.weight idle r.toNat 4 (block.map fun y => BitVec.ofNat 32 y.1))
            (block.foldl (fun f y => f ||| y.2) 0)] (s.loads i) id x.bytes)) ∧
    (s.Executes i gd [srcS a, srcV v] o → s.seg? (s.partOf i.tile) id = some x → (x.fmt = 0 ∨ x.fmt = fmtOf af) →
      (count = 0 → exec (.mga st gd g a v) s = .next (s.past i [srcS a, srcV v])) ∧
      (0 < count →
        let rs := (List.range count).map fun j => (row j, rb)
        s.Reaches i id x rs → x.InView rs x.swz → (∀ y ∈ rs, y.1 % al = 0 ∧ y.1 + rb ≤ 256 * x.len) →
        ∃ t, exec (.mga st gd g a v) s = .next t ∧ s.Accessed t i [srcS a, srcV v]
          [i.loaded 14 (.latch ((List.range count).map fun j => BitVec.ofNat 2048 (x.bytes.nat (row j) rb)))]
          (s.loads i) id x.bytes))

/-- R169, R170: ABAL takes the lowest run of free banks within the task's demand, or answers all ones and takes none; ABFR
frees the banks of its range when the context holds them all. -/
def Obligations.BanksAreTakenAndFreed : Prop :=
  ∀ (s : State) (i : Issue) (st : BitVec 1) (gd : BitVec 3) (d a : BitVec 6) (k : BitVec 12) (o : Opnds),
    let x := s.tile i.tile
    let n := k.toNat
    let free (b : Nat) : Prop := b + n ≤ 128 ∧ ∀ e, e < n → x.bankOf (b + e) = none
    let held := ((List.range 128).filter fun b => x.bankOf b == some i.cx).length
    let room : Prop := held + n ≤ s.bankDemand i.tile i.cx
    let b := (fld o.s0 0 7).toNat
    1 ≤ n → n ≤ 128 →
    (s.Executes i gd [] o →
      (¬ room ∨ (∀ b, ¬ free b) →
        exec (.abal st gd d k) s = .next (s.sends i [] (s.toS i d 2 (BitVec.allOnes 64)))) ∧
      (∀ b, room → free b → (∀ e, e < b → ¬ free e) → ∃ y, exec (.abal st gd d k) s = .next
          ((s.sends i [] (s.toS i d 2 (BitVec.ofNat 64 b))).putTile i.tile { x with banks := y }) ∧
        ∀ e, e < 128 → rd y e none = if b ≤ e ∧ e < b + n then some i.cx else x.bankOf e)) ∧
    (s.Executes i gd [srcS a] o →
      ((∀ e, e < n → b + e < 128 ∧ x.bankOf (b + e) = some i.cx) → ∃ y, exec (.abfr st gd a k) s = .next
          ((s.past i [srcS a]).putTile i.tile { x with banks := y }) ∧
        ∀ e, e < 128 → rd y e none = if b ≤ e ∧ e < b + n then none else x.bankOf e) ∧
      (∀ e, e < n → (128 ≤ b + e ∨ x.bankOf (b + e) ≠ some i.cx) →
        (∀ l, l < e → b + l < 128 ∧ x.bankOf (b + l) = some i.cx) →
        exec (.abfr st gd a k) s = .next (s.raises i [srcS a] o Cause.abheld
          (BitVec.ofNat 64 (n % 256 + (b + e) % 128 * 2 ^ 8 + 2 ^ 15)))))

/-- R175, R182: a sequence operation whose submission checks pass takes its image from the shadow set of me8 to me12, which
becomes active, enters the run slot, or the wait slot behind it, and counts in om; one whose checks fail raises its cause. -/
def Obligations.SequenceOperationsAreSubmitted : Prop :=
  ∀ (s : State) (i : Issue) (st : BitVec 1) (gd : BitVec 3) (o : Opnds), s.Executes i gd [] o →
    let c := s.ctx i.tile i.cx
    let img := (List.range 5).map fun k => rd c.regs.meShadow (8 + k) 0
    ∀ p ∈ ([(.mmul st gd, 0x10), (.mmulR st gd, 0x11), (.mlu st gd, 0x12), (.mluR st gd, 0x13), (.mchol st gd, 0x14),
        (.mcholR st gd, 0x15), (.mqr st gd, 0x16), (.mqrR st gd, 0x17), (.mtrs st gd, 0x18), (.mperm st gd, 0x19)] :
        List (Instr × Nat)),
      (∀ e, (s.past i []).sqCheck i.tile i.cx p.2 img = .error e →
        exec p.1 s = .next (s.raises i [] o e.1 e.2)) ∧
      (∀ xs, (s.past i []).sqCheck i.tile i.cx p.2 img = .ok xs →
        ∃ t q, exec p.1 s = .next t ∧ t.issue = (s.past i []).issue ∧
          q.op = p.2 ∧ q.image = img ∧ q.cx = i.cx ∧ q.step = 0 ∧ q.grant = none ∧ q.report = bit c.regs.meflags 0 ∧
          q.segs = distinct (xs.map fun y => y.2.id) ∧ (t.ctx i.tile i.cx).om = c.om + 1 ∧
          (∀ k, 8 ≤ k → k < 32 → rd (t.ctx i.tile i.cx).regs.me k 0 = rd c.regs.meShadow k 0) ∧
          (∀ k, k < 8 → rd (t.ctx i.tile i.cx).regs.me k 0 = rd c.regs.me k 0) ∧
          ((s.tile i.tile).seqRun = none → (t.tile i.tile).seqRun = some q ∧
            (t.tile i.tile).seqWait = (s.tile i.tile).seqWait) ∧
          (∀ w, (s.tile i.tile).seqRun = some w → (t.tile i.tile).seqRun = some w ∧ (t.tile i.tile).seqWait = some q) ∧
          t.parts = s.parts ∧ t.gddr = s.gddr)

/-! ### Copy engines -/

/-- R213, R214, R104, R349: an operation of class E whose packet passes its checks, with every page of its range in the TLB,
is queued with its packet words and counts in oc; no byte of memory or of any segment changes at its issue. One whose checks
fail raises its cause, and a count of 32 is EBUSY with WHY 1 and, which R204 does not say, NAME 0 (log 23). On a miss in the
TLB, where no earlier check fails, the slot waits for the walk of the page tables, whose duration is free (log 9), and nothing
else happens. POSTR outside a speculative lane is queued in the same way; to a flag of another module, where no link is
present, it raises UNIT. -/
def Obligations.EngineOperationsAreQueued : Prop :=
  (∀ (s : State) (i : Issue) (st : BitVec 1) (gd : BitVec 3) (n a : BitVec 6) (o : Opnds),
    let c := s.ctx i.tile i.cx
    let queues (j : Instr) (src : List Rd) (x : Packet) : Prop :=
      let named := if x.hasLocal then (s.past i src).bindingBefore i.tile i.cx x.df else none
      let check := (s.past i src).eCheck i.tile i.cx x named
      s.Executes i gd src o → c.lane = none →
      (c.oc = 32 → exec j s = .next (s.raises i src o Cause.ebusy (1 * 2 ^ 8))) ∧
      (s.eMiss i.tile c.asid x = false → (∀ y ∈ s.eops, y.id < s.fresh) →
        (∀ e, check = .error e → exec j s = .next (s.raises i src o e.1 e.2)) ∧
        (∀ r, check = .ok r →
          ∃ t e, exec j s = .next t ∧ t.issue = (s.past i src).issue ∧ t.eops = s.eops ++ [e] ∧ e.op = x.op ∧
            e.packet = x.w ∧ e.tile = i.tile ∧ e.cx = i.cx ∧ e.landed = 0 ∧ (t.ctx i.tile i.cx).oc = c.oc + 1 ∧
            (t.ctx i.tile i.cx).regs = c.regs ∧ t.parts = s.parts ∧ t.gddr = s.gddr ∧ t.host = s.host)) ∧
      (s.eMiss i.tile c.asid x = true →
        (∀ e, check = .error e → e.1 ∉ [Cause.fmt, Cause.segb, Cause.setbig, Cause.xlat] →
          exec j s = .next (s.raises i src o e.1 e.2)) ∧
        ((∀ e, check = .error e → e.1 ∈ [Cause.fmt, Cause.segb, Cause.setbig, Cause.xlat]) →
          ∃ d : Delayed, d.cap = i.slotOf o ∧ d.why = .walk ∧ d.due = s.now + 1 + Config.freeDur s.free ∧ d.stops = true ∧
            exec j s = .next { s with
              issue := some { i.past c.frame.mode src with delayed := i.delayed ++ [d] }
              fresh := s.fresh + 1, free := s.free + 1 }))
    (∀ p ∈ ([(.cpyin st gd n a, 0, 3), (.cpyinSh st gd n a, 1, 3), (.cpyout st gd n a, 2, 3), (.cpysg st gd n a, 3, 3),
        (.cpymc st gd n a, 4, 3), (.puts st gd n a, 5, 4), (.gets st gd n a, 7, 4), (.atadd st gd n a, 8, 3),
        (.atcas st gd n a, 9, 4), (.atxch st gd n a, 10, 3)] : List (Instr × Nat × Nat)),
      queues p.1 [srcSn a p.2.2] ⟨p.2.1, n.toNat, o.s, none⟩) ∧
    queues (.putr st gd n a) [srcRq n, srcSn a 3] ⟨6, n.toNat, o.s, some o.v0⟩ ∧
    queues (.spawn st gd a) [srcSn a 2] ⟨11, 0, o.s, none⟩) ∧
  ∀ (s : State) (i : Issue) (st : BitVec 1) (gd : BitVec 3) (a : BitVec 6) (o : Opnds), s.Executes i gd [srcS a] o →
    let c := s.ctx i.tile i.cx
    let away : Prop := bit o.s0 51 = false ∧ fld o.s0 39 12 ≠ s.modid
    c.lane = none →
    (c.oc = 32 → exec (.postr st gd a) s = .next (s.raises i [srcS a] o Cause.ebusy (1 * 2 ^ 8))) ∧
    (c.oc ≠ 32 → away → bit s.caps 25 = false → exec (.postr st gd a) s = .next (s.raises i [srcS a] o Cause.unit 1)) ∧
    (c.oc ≠ 32 → (away → bit s.caps 25 = true) → ∃ t e, exec (.postr st gd a) s = .next t ∧
      t.issue = (s.past i [srcS a]).issue ∧
      t.eops = s.eops ++ [e] ∧ e.op = 64 ∧ e.packet = [o.s0] ∧ e.tile = i.tile ∧ e.cx = i.cx ∧
      (t.ctx i.tile i.cx).oc = c.oc + 1 ∧ (t.ctx i.tile i.cx).regs = c.regs ∧ t.parts = s.parts ∧ t.gddr = s.gddr)

/-! ### The KV unit -/

/-- R224, R229, R230: KSET takes a handle that passes its checks and KCLR makes its register invalid, both at issue; KIVL
sets an interval; KCLS writes the mask of the positions that are below the length and inside some interval, and their
class, at issue + 4. -/
def Obligations.HandlesAndIntervals : Prop :=
  ∀ (s : State) (i : Issue) (st : BitVec 1) (gd m : BitVec 3) (h a d : BitVec 6) (o : Opnds),
    let p := s.partOf i.tile
    let c := s.ctx i.tile i.cx
    let idx := (fld o.s0 20 20).toNat
    let w := s.kWord p idx 0
    let regs (src : List Rd) (r : Regs) : State := (s.past i src).putCtx i.tile i.cx { c with regs := r }
    let bad (why : Nat) : Prop := exec (.kset st gd h a) s =
      .next (s.raises i [srcS a] o Cause.kvh (BitVec.ofNat 64 (h.toNat % 8 + why * 2 ^ 8)))
    (s.Executes i gd [srcS a] o →
      ((s.part p).ktCount ≤ idx ∨ bit w 24 = false → bad 2) ∧
      (idx < (s.part p).ktCount → bit w 24 = true → fld o.s0 52 12 ≠ fld w 0 12 → bad 3) ∧
      (idx < (s.part p).ktCount → bit w 24 = true → fld o.s0 52 12 = fld w 0 12 → fld o.s0 40 12 ≠ fld w 12 12 → bad 4) ∧
      (idx < (s.part p).ktCount → bit w 24 = true → fld o.s0 52 12 = fld w 0 12 → fld o.s0 40 12 = fld w 12 12 →
        exec (.kset st gd h a) s = .next (regs [srcS a] { c.regs with kh := wr c.regs.kh h.toNat (true, o.s0) }))) ∧
    (s.Executes i gd [] o →
      exec (.kclr st gd h) s = .next (regs []
        { c.regs with kh := wr c.regs.kh h.toNat (false, (rd c.regs.kh h.toNat (false, 0)).2) })) ∧
    (s.Executes i gd [srcSn a 2] o →
      exec (.kivl st gd h a) s = .next (regs [srcSn a 2]
        { c.regs with ki := wr c.regs.ki h.toNat (fld o.s0 0 32, fld o.s1 0 32) })) ∧
    (s.Executes i gd [srcS a] o →
      let t := (fld o.s0 0 32).toNat
      let inside (len j : Nat) : Bool := decide (t + j < len) && decide (t + j < 2 ^ 32) &&
        (List.range 4).any fun k => decide ((rd c.regs.ki k (0, 0)).1.toNat ≤ t + j) &&
          decide (t + j < (rd c.regs.ki k (0, 0)).2.toNat)
      let cls (len : Nat) : Dword := if (List.range 64).all (inside len) then 2 else if (List.range 64).any (inside len) then 1 else 0
      let classified (len : Nat) : Prop := exec (.kcls st gd d a m) s = .next (s.sends i [srcS a]
        (i.gives 4 (.mask m.toNat (ofMask (inside len))) :: s.toS i d 4 (cls len)))
      ((rd c.regs.kh 0 (false, 0)).1 = false → classified (2 ^ 32)) ∧
      (∀ hd, s.Stream i 0 hd → c.lane = none → classified (s.kLen p (fld hd 20 20).toNat)))

/-- R225, R272 to R274: outside a round, a load of a position at or beyond the length delivers a zero row, one below it the
row of its page, at issue + 24; both count in ol. A position at or beyond 16 BOUND is KVH with WHY 5 and a register that
is not valid KVH with WHY 1, each with the position. The words come through the walker's port, which refuses what lies outside
the partition's range and logs it (R355). -/
def Obligations.RowLoadsWalkThePages : Prop :=
  ∀ (s : State) (i : Issue) (st : BitVec 1) (gd : BitVec 3) (h a : BitVec 6) (o : Opnds) (hd : Dword),
    s.Executes i gd [srcS a] o → (s.ctx i.tile i.cx).lane = none →
    let p := s.partOf i.tile
    let kh := h.toNat
    let pos := o.s0.toNat
    let ent := (s.part p).ktBase + 32 * (fld hd 20 20).toNat
    let len := (fld (s.partWord p ent) 32 32).toNat
    let root := (s.partWord p (ent + 16)).toNat / 2 ^ 13 * 2 ^ 13
    let up := s.partWord p (root + 8 * (pos / 64 / 256))
    let word (v : Nat) : Dword := s.partWord p (up.toNat / 2 ^ 12 * 2 ^ 12 + 16 * (pos / 64 % 256) + 8 * v)
    let page (v : Nat) : Nat := (word v).toNat / 2 ^ 14 * 2 ^ 14
    let row (v : Nat) : Vec := vecOfWords ((List.range 32).map fun k => s.partWord p (page v + 256 * (pos % 64) + 8 * k))
    let taken (s : State) (n : Nat) : State :=
      let at_ := n + 256 * (pos % 64)
      (if s.admits p at_ 256 = true then s else s.logEvent 0x355 at_).kUse p n
    let gives (s : State) (r : Res) : State := { (s.putCtx i.tile i.cx (s.loads i)) with
      issue := some { i.past (s.ctx i.tile i.cx).frame.mode [srcS a] with out := i.out ++ [r] } }
    let bad (j : Instr) (why pos : Nat) : Prop := exec j s = .next (s.raises i [srcS a] o Cause.kvh
      (BitVec.ofNat 64 (kh % 8 + why * 2 ^ 8 + pos % 2 ^ 32 * 2 ^ 16)))
    ∀ q ∈ ([(.kldk st gd h a, 0), (.kldv st gd h a, 1)] : List (Instr × Nat)),
      ((rd (s.ctx i.tile i.cx).regs.kh kh (false, 0)).1 = false → bad q.1 1 pos) ∧
      (s.Stream i kh hd → 16 * (fld hd 0 20).toNat ≤ pos → bad q.1 5 pos) ∧
      (s.Stream i kh hd → pos < 16 * (fld hd 0 20).toNat → len ≤ pos →
        exec q.1 s = .next (gives s (i.loaded 24 (.vector 29 0)))) ∧
      (s.Stream i kh hd → pos < 16 * (fld hd 0 20).toNat → pos < len →
        (∀ e ∈ (s.part p).appends, e.stream = (fld hd 20 20).toNat → e.pos = pos → e.dropped = true) →
        bit up 0 = true → fld (word q.2) 0 2 = 1 →
        exec q.1 s = .next (gives (taken (s.kTrace p (fld hd 20 20).toNat root pos (q.2 == 1)) (page q.2))
          { i.loaded 24 (.vector 29 (row q.2)) with frame := some (page q.2) }))

/-- R227: outside a loop, an append whose pages are present reserves position L at once: L rises by 1, the two rows are on
their way to it, and it counts in os. At the bound it is KVH with WHY 5. A length outside the partition's range is not written
(R355). -/
def Obligations.AppendsReserveThePosition : Prop :=
  ∀ (s : State) (i : Issue) (st : BitVec 1) (gd : BitVec 3) (h a b : BitVec 6) (o : Opnds) (hd : Dword),
    s.Executes i gd [srcV a, srcV b] o → (s.ctx i.tile i.cx).lane = none → s.Stream i h.toNat hd →
    let p := s.partOf i.tile
    let n := (fld hd 20 20).toNat
    let pos := s.kLen p n
    let c := s.ctx i.tile i.cx
    (16 * (fld hd 0 20).toNat < pos + 1 → exec (.kapp st gd h a b) s = .next (s.raises i [srcV a, srcV b] o Cause.kvh
      (BitVec.ofNat 64 (h.toNat % 8 + 5 * 2 ^ 8 + pos % 2 ^ 32 * 2 ^ 16)))) ∧
    (pos + 1 ≤ 16 * (fld hd 0 20).toNat → (∀ v, fld (s.kPage p (s.kRoot p n) (pos / 64) v) 0 2 = 1) →
      ∃ t, exec (.kapp st gd h a b) s = .next t ∧ t.issue = (s.past i [srcV a, srcV b]).issue ∧
        t.gddr = (if s.admits p ((s.part p).ktBase + 32 * n + 4) 4 = true
          then s.gddr.storeNat ((s.part p).ktBase + 32 * n + 4) 4 (pos + 1) else s.gddr) ∧
        t.ctx i.tile i.cx = { c with os := c.os + 1 } ∧
        (t.part p).appends = (s.part p).appends ++
          [⟨s.fresh, i.tile, i.cx, n, pos, o.v0, o.v1, s.now + 1 + Config.freeDur s.free, false, false, s.kRoot p n⟩] ∧
        ∀ q k, t.seg? q k = s.seg? q k)

/-- R228, R231: KLEN pushes the length at issue + 2, KMARK moves the committed mark to it, KTRUNC below the mark is KVH with
WHY 6, at or beyond the length has no effect, and between them cuts the stream there; KPF starts fetches and does nothing
else. A write outside the partition's range is refused and logged (R355). -/
def Obligations.LengthsOfStreams : Prop :=
  ∀ (s : State) (i : Issue) (st : BitVec 1) (gd : BitVec 3) (h a d : BitVec 6) (o : Opnds) (hd : Dword),
    (s.ctx i.tile i.cx).lane = none → s.Stream i h.toNat hd →
    let p := s.partOf i.tile
    let n := (fld hd 20 20).toNat
    let ent := (s.part p).ktBase + 32 * n
    let len := (fld (s.partWord p ent) 32 32).toNat
    let mark := (fld (s.partWord p (ent + 8)) 0 32).toNat
    let cut := o.s0.toNat
    (s.Executes i gd [] o →
      exec (.klen st gd d h) s = .next (s.sends i [] (s.toS i d 2 (BitVec.ofNat 64 len))) ∧
      exec (.kmark st gd h) s = .next (if s.admits p (ent + 8) 4 = true
        then { s.past i [] with gddr := s.gddr.storeNat (ent + 8) 4 len } else (s.past i []).logEvent 0x355 (ent + 8))) ∧
    (s.Executes i gd [srcS a] o →
      (cut < mark → exec (.ktrunc st gd h a) s = .next (s.raises i [srcS a] o Cause.kvh
        (BitVec.ofNat 64 (h.toNat % 8 + 6 * 2 ^ 8 + cut % 2 ^ 32 * 2 ^ 16)))) ∧
      (mark ≤ cut → len ≤ cut → exec (.ktrunc st gd h a) s = .next (s.past i [srcS a])) ∧
      (mark ≤ cut → cut < len → ∃ t, exec (.ktrunc st gd h a) s = .next t ∧ t.issue = (s.past i [srcS a]).issue ∧
        (∀ n cx, (t.ctx n cx).regs = (s.ctx n cx).regs ∧ (t.ctx n cx).os = (s.ctx n cx).os) ∧
        (t.part p).appends = (s.part p).appends.map (fun e =>
          if e.stream = n ∧ cut ≤ e.pos then { e with dropped := true } else e) ∧
        let u : State := { s with gddr := if s.admits p (ent + 4) 4 = true then s.gddr.storeNat (ent + 4) 4 cut else s.gddr }
        (u.kPagesFrom p (u.kRoot p n) ((cut + 63) / 64) = [] → t.gddr = u.gddr ∧ t.tiles = s.tiles)) ∧
      ∃ t, exec (.kpf st gd h a) s = .next t ∧ t = { s.past i [srcS a] with
        parts := t.parts, fresh := t.fresh, free := t.free, ensign := { s.ensign with log := t.ensign.log } } ∧
        ∀ q, { t.part q with fetches := [] } = { s.part q with fetches := [] })

/-! ### Encoding and stepping -/

/-- R35, R36, R60 to R71: slot words that the spec's own tables of examples write out decode to their instructions. -/
def Obligations.WordsOfTheSpecDecode : Prop :=
  ∀ p ∈ ([(0x0023FFF4#32, .brNa 0 0 0x3FFF4), (0x00A24006#32, .loop0 0 0 36 6), (0x08C07209#32, .divSa 0 0 7 8 9),
      (0x13A84064#32, .moviSb 0 2 4 100), (0x0C404822#32, .cmpLtSa 0 0 9 1 2), (0x18625042#32, .vfmaF32Va 0 0 37 1 2),
      (0x2B000049#32, .vchk 0 0 1 9), (0x3020217F#32, .xins 0 0 2 5 63), (0x380041CA#32, .xext 0 0 4 7 10),
      (0xC0805090#32, .ldw 1 0 5 2 16), (0x50003200#32, .cpyin 0 0 3 8), (0x58800040#32, .waitc 0 0 0 0 4 0),
      (0x60A03209#32, .mdr 0 0 3 8 1 1)] : List (Word × Instr)),
    decodeSlot p.1 [] = .ok p.2

/-- R35, R36: decoding is the inverse of encoding: the word of a well-formed instruction decodes to it, with every operand
at every value that its field admits. -/
def Obligations.DecodingInvertsEncoding : Prop :=
  ∀ (i : Instr) (w : Word), wf i = true → encode i = some w → decodeSlot w [] = .ok i

/-- R31, R40, R41: a step runs what stands at the position. A bundle begins with the words that code memory holds at the
address of its context, where no cause of its own stands before it; the next slot of a bundle runs as the instruction that its
word and the LIT slots behind it decode to; in step 2 of a core cycle an event that has arrived runs, unless it came over the
host port while that is down (R375) or its link retrains (R365). -/
def Obligations.StepsRunTheDecodedInstruction : Prop :=
  (∀ (s : State) (t : Nat) (cx : Cx) (r : List Work) (bid : Bid) (b : List Word),
    let c := s.ctx t cx
    s.issue = none → s.stage = .issue → s.work = .begin t cx bid :: r → c.held = [] → c.faults = [] →
    (c.pos.entry = true → s.code.bundleStart c.pos.pc = true) →
    decodeBundle (c.divA != 0) (c.divB != 0) (s.code.codeWords c.pos.pc 8) = .ok b →
    (c.pos.annul = 0 → (s.tile t).stopAt cx 0 b = none) →
    ∃ i, step s = .next { s.putCtx t cx c with work := r, issue := some i } ∧
      i = { tile := t, cx := cx, addr := c.pos.pc, words := b, annulled := c.pos.annul != 0, remake := c.remake,
            om := c.om, base := s.fresh }) ∧
  (∀ (s : State) (i : Issue) (ins : Instr),
    s.issue = some i → i.remake = [] → decodeSlot (i.words.getD i.pos 0) i.lits = .ok ins →
    step s = match exec ins s with
      | .next t => .next t.settle
      | o => o) ∧
  (∀ (s : State) (ins : Instr) (r : List Instr),
    s.issue = none → s.stage = .system → s.inputs = ins :: r → (s.ensign.hostLink = true ∨ overHost ins = false) →
    step s = if s.deaf ins then .next { s with inputs := r } else exec ins { s with inputs := r }) ∧
  ∀ (s : State) (w : Word) (ins : Instr), decodeSlot w [] = .ok ins →
    let u := s.withFetchWord 32 w.toNat
    step u = match exec ins u with
      | .next t => .next t.settle
      | o => o

/-- R8, R15, R27, R52, R76, R77, R81, R84, R87, R88, R91, R102, R105, R107, R323, R324, R357: the end of a bundle, once its last
slot has executed. Its pops leave their queues, its results enter flight behind those that are there, CYC rises, and the position
goes to a forced target, to the start of a loop whose end the bundle stands at, or on in sequence, with the bundle's own target
two positions ahead; a target that is taken deactivates the loop sets that do not hold it, whatever SUP (log 56). A cause that a
slot has raised is then taken for the next position, the lowest slot's first; RETI returns instead; END ends the context, or
raises ABHELD or RESID; a wait that fails stays; TRAP is due before a later bundle (log 55); a phase commits or is logged. -/
def Obligations.BundlesCommit : Prop :=
  ∀ (s : State) (i : Issue), s.issue = some i → i.remake = [] → 0 < i.pos → i.words.length ≤ i.pos →
    (∀ p ∈ i.pops, p.1 = true → p.2.1 ≤ 30) →
    let c := s.ctx i.tile i.cx
    let u := s.settle
    let d := u.ctx i.tile i.cx
    let x := s.tile i.tile
    let y := u.tile i.tile
    let gone (vec : Bool) (k : Nat) : Nat := ((i.pops.filter fun p => p.1 == vec && p.2.1 == k).map (·.2.2)).sum
    let left (k : Nat) : List Dword := (c.squeue k).drop (gone false k)
    let leftV (k : Nat) : List Vec := (x.vqueue i.cx k).drop (gone true k)
    let popped : Prop := (∀ k, d.squeue k = left k) ∧ ∀ k, k ≤ 30 → y.vqueue i.cx k = leftV k
    let seq : Dword := i.addr + BitVec.ofNat 64 (4 * i.words.length)
    let set (n : Nat) : LoopSet := rd c.regs.loops n {}
    let at_ (n : Nat) : Prop := (set n).count ≠ 0 ∧ (set n).le = i.addr ∧ (set n).sup = c.frame.mode
    let lc (n k : Nat) : Res := { rem := 1, slot := 0, pc := i.addr
                                  pay := .sys (0x20 + 3 * n) (BitVec.ofNat 64 (k + b2n (set n).sup * 2 ^ 32)) }
    let flight (l : List Res) : List Res := c.inflight ++ (l ++ i.out).map fun r => { r with seq := c.tick }
    let quiet : Prop := i.raised = [] ∧ i.reti = false
    let plain : Prop := i.endWord = none ∧ i.trap = none ∧ i.wait = none ∧ i.delayed = [] ∧ i.absent = [] ∧ i.commit = false
    let user : Prop := c.frame.mode = false ∧ c.lane = none
    let taken (cause slot : Nat) (einfo pc : Dword) : Prop :=
      d.frame.cause.toNat = cause + slot * 256 ∧ d.frame.einfo = einfo ∧ d.frame.epc = pc ∧ d.frame.mode = true ∧
      d.frame.pmode = false ∧ d.frame.ie = false ∧ d.pos = { pc := x.evec, entry := true } ∧ d.inflight = [] ∧ d.life = c.life
    (i.endWord = none → (∀ z ∈ i.delayed, z.why ≠ .walk) → u.issue = none ∧ u.gddr = s.gddr ∧ u.host = s.host ∧ u.code = s.code ∧
      u.parts = s.parts ∧ d.tick = c.tick + 1) ∧
    (plain → quiet → popped ∧ d.regs.cyc = c.regs.cyc + 1 ∧ d.frame = c.frame ∧ d.life = c.life ∧ d.wait = c.wait ∧
      d.faults = c.faults ∧ d.delayed = c.delayed ∧ d.om = c.om ∧ d.oc = c.oc ∧ d.os = c.os ∧ d.ol = c.ol ∧
      d.pos.t1 = c.pos.t2 ∧ d.pos.t2 = i.target.or c.pos.t3 ∧ d.pos.t3 = none ∧
      d.pos.annul = (if i.annulNext then 2 else c.pos.annul - 1) ∧
      (∀ a, c.pos.t1 = some a → d.pos.pc = a.addr ∧ d.pos.entry = true ∧ d.inflight = flight [] ∧ ∀ n, n < 2 →
        rd d.regs.loops n {} = if a.chk = true ∧ (set n).count ≠ 0 ∧ (a.addr < (set n).ls ∨ (set n).le < a.addr) then
          { set n with count := 0 } else set n) ∧
      (c.pos.t1 = none → d.regs.loops = c.regs.loops ∧
        (¬ at_ 0 → ¬ at_ 1 → d.pos.pc = seq ∧ d.pos.entry = false ∧ d.inflight = flight []) ∧
        (at_ 1 → 1 < (set 1).count → d.pos.pc = (set 1).ls ∧ d.inflight = flight [lc 1 ((set 1).count.toNat - 1)]) ∧
        (at_ 1 → (set 1).count = 1 → ¬ at_ 0 → d.pos.pc = seq ∧ d.inflight = flight [lc 1 0]) ∧
        (at_ 1 → (set 1).count = 1 → at_ 0 → 1 < (set 0).count →
          d.pos.pc = (set 0).ls ∧ d.inflight = flight [lc 1 0, lc 0 ((set 0).count.toNat - 1)]) ∧
        (at_ 1 → (set 1).count = 1 → at_ 0 → (set 0).count = 1 → d.pos.pc = seq ∧ d.inflight = flight [lc 1 0, lc 0 0]) ∧
        (¬ at_ 1 → at_ 0 → 1 < (set 0).count → d.pos.pc = (set 0).ls ∧ d.inflight = flight [lc 0 ((set 0).count.toNat - 1)]) ∧
        (¬ at_ 1 → at_ 0 → (set 0).count = 1 → d.pos.pc = seq ∧ d.inflight = flight [lc 0 0]))) ∧
    (∀ r ∈ i.raised, (∀ z ∈ i.raised, z = r ∨ r.cap.slot < z.cap.slot) → plain → user → c.delayed = [] → r.cause < 256 →
      r.cap.slot < 8 → ¬ at_ 0 → ¬ at_ 1 →
      taken r.cause r.cap.slot r.einfo ((c.pos.t1.map (·.addr)).getD seq) ∧ popped ∧ d.regs.cyc = c.regs.cyc + 1 ∧
      (∀ z ∈ i.raised, z.toEntry ∈ d.replay) ∧
      ∀ z ∈ c.inflight, z.pay.isCheck = false → z.toEntry ∈ d.replay) ∧
    (plain → i.raised = [] → i.reti = true → popped ∧ d.frame.mode = c.frame.pmode ∧ d.frame.ie = true ∧ d.pos = c.frame.resume ∧
      d.regs.cyc = c.regs.cyc + 1 ∧ d.regs.loops = c.regs.loops) ∧
    (∀ w h, i.endWord = some (w, h) → quiet → i.trap = none → i.wait = none → i.delayed = [] → i.absent = [] → i.commit = false →
      user → ¬ at_ 0 → ¬ at_ 1 →
      let held := x.banksHeld i.cx
      let stands (k : Nat) : Prop := left k = [] ∧ ∀ z ∈ c.inflight ++ i.out, z.pay.queue ≠ some (false, k)
      let standsV (k : Nat) : Prop := leftV k = [] ∧ ∀ z ∈ c.inflight ++ i.out, z.pay.queue ≠ some (true, k)
      (held = 0 → (∀ k, k ≤ 28 → stands k) → (∀ k, k < 24 ∨ k = 28 ∨ k = 29 → standsV k) → d.life = .ended w ∧ popped) ∧
      (0 < held → h.slot < 8 → d.frame.cause.toNat = 0x12 + h.slot * 256 ∧ fld d.frame.einfo 0 8 = BitVec.ofNat 8 held ∧
        d.frame.mode = true) ∧
      (∀ k, held = 0 → k ≤ 28 → left k ≠ [] → (∀ j, j < k → left j = []) → h.slot < 8 →
        d.frame.cause.toNat = 0x13 + h.slot * 256 ∧ d.frame.einfo = BitVec.ofNat 64 k ∧ d.frame.mode = true)) ∧
    (∀ h, i.endWord = none → quiet → i.trap = none → i.delayed = [] → i.absent = [] → i.commit = false →
      (∀ n k, n < 16 → i.wait = some (.flag n k, h) →
        ((BitVec.ofNat 32 k).sle (x.flag n).value = true →
          (y.flag n).value = (x.flag n).value - BitVec.ofNat 32 k ∧ (y.flag n).gen = (x.flag n).gen ∧ d.wait = c.wait) ∧
        ((BitVec.ofNat 32 k).sle (x.flag n).value = false → (y.flag n).value = (x.flag n).value ∧ d.wait = some (.flag n k, h))) ∧
      (∀ l o q m, i.wait = some (.counters l o q m, h) →
        (c.ol.toNat ≤ l ∧ c.os.toNat ≤ o ∧ c.oc.toNat ≤ q ∧ c.om.toNat ≤ m → d.wait = c.wait) ∧
        (¬ (c.ol.toNat ≤ l ∧ c.os.toNat ≤ o ∧ c.oc.toNat ≤ q ∧ c.om.toNat ≤ m) → d.wait = some (.counters l o q m, h)))) ∧
    (∀ n v, i.trap = some (n, v) → i.endWord = none → quiet → i.wait = none → i.delayed = [] → i.absent = [] → i.commit = false →
      ∃ f : OpFault, d.faults = c.faults ++ [f] ∧ f.cause = Cause.trap ∧ f.slot = n ∧ f.einfo = v ∧ f.order = s.fresh) ∧
    (i.endWord = none → quiet → i.trap = none → i.wait = none → i.commit = false →
      (i.absent = [] → (∀ z ∈ i.delayed, z.why ≠ .absent 0 ∧ z.why ≠ .walk) → d.delayed = c.delayed ++ i.delayed) ∧
      (i.absent ≠ [] → ∃ q ∈ (u.cluster (clusterOf i.tile)).reqs, q.kind = 0 ∧ q.members = i.absent ∧ q.tile = i.tile ∧ q.cx = i.cx ∧
        ∀ z ∈ i.delayed, z.why = .absent 0 → { z with why := .absent q.id } ∈ d.delayed)) ∧
    (i.commit = true → i.endWord = none → quiet → i.trap = none → i.wait = none → i.delayed = [] → i.absent = [] →
      (y.commits i.cx = true → ∃ z, d.phase.snap = some z ∧ z.regs = d.regs ∧ z.pos = d.pos ∧ z.frame = d.frame ∧
        z.inflight = d.inflight.filter fun r => !r.pay.isCheck) ∧
      (y.commits i.cx = false → u.ensign.log = s.ensign.log ++ [(s.ptime.toNat, 0x357, i.tile * 2 + i.cx.num)]))

/-- R40, R41, R42, R44, R79: a slot of an annulled bundle, and, BR.na apart, a slot whose guard is false, has no effect; LIT
and PAD have none. The next slot is in hand and nothing else differs. -/
def Obligations.SlotsWithoutEffect : Prop :=
  ∀ (s : State) (i : Issue) (w : Word) (j : Instr), s.issue = some i → i.remake = [] → encode j = some w →
    let passed : State := { s with issue := some { i with pos := i.pos + 1 } }
    (i.annulled = true → exec j s = .next passed) ∧
    (slotClass w ≤ 12 → ¬ (slotClass w = 0 ∧ slotOp w = 1) → (s.regsOf i).guard (fld w 18 3) = false →
      exec j s = .next passed) ∧
    (14 ≤ slotClass w → exec j s = .next passed)

/-! ### Traps -/

/-- R324, R328, R298: a cause of a context outside a speculative lane. In user mode it leaves the frame of R324 and the
context at EVEC in supervisor mode with interrupts off, its results in flight in the replay buffer and no queue, register
or counter changed; in supervisor mode, an interrupt apart, it is not taken, the task ends faulted with MCHK and the event is
logged. Nothing but the context and the log differs. -/
def Obligations.TrapsEnterTheMonitor : Prop :=
  ∀ (s : State) (t : Nat) (cx : Cx) (cause slot : Nat) (einfo epc : Dword) (ops : List REnt) (flight : List Res),
    let c := s.ctx t cx
    let u := s.trap t cx cause slot einfo epc ops flight
    let d := u.ctx t cx
    let f := d.frame
    let p := c.pos
    c.lane = none → cause < 256 → slot < 8 →
    (c.frame.mode = false ∨ cause = Cause.intr →
      u = s.putCtx t cx d ∧ f.cause.toNat = cause + slot * 256 ∧ f.einfo = einfo ∧ f.epc = epc ∧
      f.pmode = c.frame.mode ∧ f.mode = true ∧ f.ie = false ∧ f.ctx = decide (cx = .s) ∧ f.escr = c.frame.escr ∧
      f.ds.toNat = (if p.t1.isSome then 1 else 0) + (if p.t2.isSome then 1 else 0) ∧
      f.edt0 = ((p.t1.or p.t2).map (·.addr)).getD 0 ∧
      f.edt1 = (if p.t1.isSome then (p.t2.map (·.addr)).getD 0 else 0) ∧
      f.dleft.toNat = (if p.t1.isSome then 1 else if p.t2.isSome then 2 else min p.annul 2) ∧
      f.anul = decide (p.annul ≠ 0) ∧
      d.pos = { pc := (s.tile t).evec, entry := true } ∧ d.inflight = [] ∧ d.regs = c.regs ∧ d.sup = c.sup ∧
      d.ol = c.ol ∧ d.os = c.os ∧ d.oc = c.oc ∧ d.om = c.om ∧
      (c.delayed = [] → c.wait = none → f.frozen = false ∧
        ∀ r ∈ flight, r.pay.isCheck = false → r.toEntry ∈ d.replay)) ∧
    (c.frame.mode = true → cause ≠ Cause.intr →
      d = c.fail Cause.mchk ∧ d.life = .faulted Cause.mchk ∧ d.inflight = [] ∧ d.replay = [] ∧ d.wait = none ∧ d.delayed = [] ∧
      d.remake = [] ∧ d.regs = c.regs ∧ d.frame = c.frame ∧ d.oc = c.oc ∧ d.om = c.om ∧
      (c.replay = [] → d.ol = c.ol) ∧ (c.replay = [] → c.delayed = [] → d.os = c.os) ∧
      u.ensign.log = s.ensign.log ++ [(s.ptime.toNat, 0x21 + 256 * (2 + 256 * cause), t * 2 + cx.num)] ∧
      { u with tiles := s.tiles, ensign := s.ensign } = s)

/-- R88, R87, R333: the return from a trap. The mode is that before it, interrupts are on, and the positions are those that
stood when it was taken: EPC, the delay bundles with their annulment, the forced targets; results that were in flight are
in flight again with their remaining counts. -/
def Obligations.ReturnsResumeTheContext : Prop :=
  ∀ (c : Ctx) (cx : Cx) (evec : Dword) (cause slot : Nat) (einfo : Dword) (flight : List Res),
    let p := c.pos
    let d := (c.enter cx evec cause slot einfo p.pc [] flight).reti
    d.frame.mode = c.frame.mode ∧ d.frame.ie = true ∧ d.regs = c.regs ∧ d.sup = c.sup ∧ d.replay = [] ∧
    d.pos.pc = p.pc ∧ d.pos.entry = true ∧
    (p.t3 = none → p.annul ≤ 2 → (p.t1.isSome = true → p.annul ≤ 1) →
      (p.t1 = none → p.t2.isSome = true → p.annul ≠ 1) →
      d.pos.t1.map (·.addr) = p.t1.map (·.addr) ∧ d.pos.t2.map (·.addr) = p.t2.map (·.addr) ∧ d.pos.t3 = none ∧
      d.pos.annul = p.annul) ∧
    (c.remake = [] → c.wait = none → c.delayed = [] → c.checks = [] →
      (∀ r ∈ flight, r.pay.isCheck = false ∧ r.rem < 256 ∧ r.slot < 8) →
      (∀ r, r ∈ d.inflight ↔ r ∈ flight) ∧ d.wait = none ∧ d.delayed = [] ∧ d.remake = [])

/-! ### Invariants -/

/-- R74: ILIM is at least 256 at reset; and every memory has its canonical form (the form is the model's own, log 4). -/
def Obligations.InvariantsAtReset : Prop := State.reset.IlimFloor ∧ State.reset.CanonicalMemory

/-- R74: ILIM never stands below 256: every step keeps the floor, from every state that has it. -/
def Obligations.StepsKeepTheIlimFloor : Prop :=
  ∀ s t : State, s.IlimFloor → step s = .next t → t.IlimFloor

/-- Every step keeps the canonical form of code memory, GDDR-7, host memory and the bytes of every segment and shadow, so that
equal contents are equal data. The form is the model's own (log 4); the reads of bytes after a store rest on it. -/
def Obligations.StepsKeepMemoryCanonical : Prop :=
  ∀ s t : State, s.CanonicalMemory → step s = .next t → t.CanonicalMemory

/-! ### Events of contexts, engines and registers -/

/-- R27, R52, R29, R73, R201, R326, R327, R91, R248, R361: the events of a core cycle at a context. Results that are not due
come one cycle nearer; one that is due enters its queue, or, where that is full, raises QOVF; the choice of bundles follows
the class rule and the limiter, which holds an interrupt back as it would the bundle in whose place it comes; a store retires;
an interrupt and the fault of an operation are taken before the next bundle; a context that has ended leaves once its accesses
have been made and its counters are 0; a delayed access is made; a rollback brings the snapshot back, once the granted
operations of the context have completed. The order of the works chosen is in part the model's (logs 15 and 16), as are the
ILIM of the comparison (log 53) and the mode and IE after a rollback (log 51). -/
def Obligations.ContextEventsTakeEffect : Prop :=
  (∀ (s : State) (t : Nat) (cx : Cx),
    let c := s.ctx t cx
    (∀ r ∈ c.inflight, 1 < r.rem) → (∀ d ∈ c.delayed, d.stops = false) →
    exec (.resultLanding t cx) s = .next (s.putCtx t cx
      { c with inflight := c.inflight.map fun r => { r with rem := r.rem - 1 } })) ∧
  (∀ (s : State) (t : Nat) (cx : Cx) (r : Res) (q : Nat) (v : Dword),
    let c := s.ctx t cx
    c.inflight = [r] → c.delayed = [] → r.pay = .scalar q v → r.rem ≤ 1 → r.await = none → q ≤ 28 →
    ∃ u, exec (.resultLanding t cx) s = .next u ∧ (u.ctx t cx).inflight = [] ∧
      ((c.squeue q).length < depth false q → (u.ctx t cx).squeue q = c.squeue q ++ [v] ∧
        (u.ctx t cx).regs.fpst = c.regs.fpst ||| r.fp ∧ (u.ctx t cx).frame = c.frame) ∧
      (depth false q ≤ (c.squeue q).length → c.frame.mode = false → c.lane = none →
        (u.ctx t cx).squeue q = c.squeue q ∧ (u.ctx t cx).frame.cause.toNat = 3 + r.slot % 8 * 256 ∧
        (u.ctx t cx).frame.epc = r.pc ∧ (u.ctx t cx).frame.einfo = queueInfo false q (c.squeue q).length)) ∧
  (∀ (s : State) (n : Nat) (x : Tile), s.stage = .system → s.tiles = [(n, x)] → x.seqRun.any (s.seqDue n) = false →
    let one := (x.land .p).tile
    let two := (one.land .s).tile
    let due (cx : Cx) : List Work := s.dueAccesses n cx (x.ctx cx)
    let late (cx : Cx) : List Work := if (x.ctx cx).blocked [] then [.landLate n cx []] else []
    let sum (w : Nat) : Nat := x.windowSum + (w + x.engineWeight s.now)
    let chosen (w : List Work) : Prop := ∃ u, exec .bundleSelection s = .next u ∧ u.stage = .issue ∧ u.work = w
    let alone (b : Bid) : List Work := [.land n .p] ++ due .p ++ late .p ++ [.begin n .p b] ++ due .s
    let held (a b : Bid) : Prop := x.ilim.toNat < sum (a.weight + if a.meets b then 0 else b.weight)
    let b1 := one.bid s.code .p
    (s.turn n x .p = .ready → s.turn n x .s = .idle → s.turn n one .s = .idle →
      (sum b1.weight ≤ x.ilim.toNat → chosen (alone b1)) ∧ (x.ilim.toNat < sum b1.weight → chosen (due .p ++ due .s))) ∧
    (s.turn n x .p = .ready → s.turn n x .s = .ready → s.turn n one .s = .ready →
      let b := two.bid s.code .p
      let e := (two.popShared s.code .p).bid s.code .s
      let e1 := (two.popSlots .p ((one.nextSlots s.code .p).drop (x.ctx .p).remake.length)).bid s.code .s
      let e0 := (x.land .s).tile.bid s.code .s
      (b.meets e = false → sum (b.weight + e.weight) ≤ x.ilim.toNat →
        chosen ([.land n .p, .land n .s] ++ due .p ++ late .p ++ [.begin n .p b] ++ due .s ++ late .s ++ [.begin n .s e])) ∧
      (b.meets e = true → b1.meets e1 = true → sum b1.weight ≤ x.ilim.toNat → chosen (alone b1)) ∧
      (held b e → held b1 e1 → held b e0 → held b1 e0 → chosen (due .p ++ due .s))) ∧
    (s.turn n x .p = .traps (.interrupt n .p) true → s.turn n x .s = .idle → s.turn n one .s = .idle →
      (sum b1.weight ≤ x.ilim.toNat → chosen (due .p ++ [.interrupt n .p] ++ due .s)) ∧
      (x.ilim.toNat < sum b1.weight → chosen (due .p ++ due .s)))) ∧
  (∀ (s : State) (t : Nat) (cx : Cx),
    let c := s.ctx t cx
    ((∀ y ∈ c.stores, s.now < y.1) → exec (.storeRetirement t cx) s = .next s) ∧
    (∀ y r, c.stores = y :: r → y.1 ≤ s.now → ∃ u, exec (.storeRetirement t cx) s = .next u ∧
      u.ctx t cx = { c with stores := r, os := c.os - 1 })) ∧
  (∀ (s : State) (t : Nat) (cx : Cx),
    let c := s.ctx t cx
    let q := c.irq
    (q.any = false ∨ c.frame.ie = false ∨ c.life ≠ .running → exec (.intr t cx) s = .next s) ∧
    (q.any = true → c.frame.ie = true → c.life = .running → ∃ u, exec (.intr t cx) s = .next u ∧
      let d := u.ctx t cx
      d.frame.cause.toNat = 0x20 ∧ d.frame.epc = c.pos.pc ∧ d.frame.mode = true ∧ d.frame.pmode = c.frame.mode ∧
      d.frame.ie = false ∧ d.pos = { pc := (s.tile t).evec, entry := true } ∧ d.irq = {} ∧ d.regs = c.regs ∧
      d.frame.einfo = BitVec.ofNat 64 (b2n q.timer + b2n q.host * 2 + b2n q.wdog * 4 + b2n q.halt * 8 + b2n q.swout * 16 +
        b2n q.swin * 32 + (if q.swout || q.swin then q.saveId.toNat else 0) * 2 ^ 32))) ∧
  (∀ (s : State) (t : Nat) (cx : Cx),
    let c := s.ctx t cx
    (c.faults = [] → exec (.operationFaultDelivery t cx) s = .next s) ∧
    (∀ f ∈ c.faults, (∀ g ∈ c.faults, g = f ∨ f.order < g.order) → c.frame.mode = false → c.lane = none →
      f.cause < 256 → f.slot < 8 → ∃ u, exec (.operationFaultDelivery t cx) s = .next u ∧
        let d := u.ctx t cx
        d.frame.cause.toNat = f.cause + f.slot * 256 ∧ d.frame.einfo = f.einfo ∧ d.frame.epc = c.pos.pc ∧
        d.frame.mode = true ∧ d.pos = { pc := (s.tile t).evec, entry := true } ∧ d.regs = c.regs)) ∧
  (∀ (s : State) (t : Nat) (cx : Cx),
    let c := s.ctx t cx
    (c.delayed ≠ [] ∨ c.frame.mode = false ∧ ¬ (c.os = 0 ∧ c.oc = 0 ∧ c.om = 0) →
      exec (.endComplete t cx) s = .next s.noteFaults) ∧
    (c.phase.rolling = true → exec (.endComplete t cx) s = .next s.noteFaults) ∧
    (∀ w k, c.phase.rolling = false → c.delayed = [] → c.frame.mode = false → c.os = 0 → c.oc = 0 → c.om = 0 → c.life = .ended w → bit w 63 = false →
      c.lane = none →
      c.task.bind (s.task? (s.partOf t)) = some k → k.tile = t → k.cx = cx → k.span = 1 → isLoop k.lw = false →
      ∀ n, k.pass = .kernel n → ∃ u, exec (.endComplete t cx) s = .next u ∧
        (n + 1 < k.passes → k.mark = 0 → (u.ctx t cx).life = .running ∧
          (u.ctx t cx).pos = { pc := wd k.tt 0, entry := true } ∧ (u.ctx t cx).regs.segmap = c.regs.segmap) ∧
        (k.passes ≤ n + 1 → wd k.tt 2 = 0 → (u.ctx t cx).task = none ∧ (u.ctx t cx).life = .idle)) ∧
    (∀ cause, c.phase.rolling = false → c.delayed = [] → c.os = 0 → c.oc = 0 → c.om = 0 → c.life = .faulted cause → c.lane = none → c.task = none →
      ∃ u, exec (.endComplete t cx) s = .next u ∧ (u.ctx t cx).task = none ∧ (u.ctx t cx).life = .idle)) ∧
  (∀ (s : State) (t : Nat) (cx : Cx),
    let c := s.ctx t cx
    (c.delayed = [] → exec (.delayedCoreAccess t cx) s = .next s ∧ exec (.lateDatumArrival t cx) s = .next s) ∧
    (∀ d, c.delayed = [d] → s.delayedReady t cx d = true →
      (slotClass d.cap.word = 9 → exec (.lateDatumArrival t cx) s = .next (s.kLater t cx d)) ∧
      (slotClass d.cap.word ≠ 9 →
        (s.unserviced (s.partOf t) d.org.seg = 0 → exec (.delayedCoreAccess t cx) s = .next (s.gLater t cx d)) ∧
        ∀ w, s.unserviced (s.partOf t) d.org.seg = w + 1 → exec (.delayedCoreAccess t cx) s = .next (s.segaDelayed t cx d (w + 1))))) ∧
  (∀ (s : State) (t : Nat) (cx : Cx),
    let c := s.ctx t cx
    let granted (o : EOp) : Prop := o.tile = t ∧ o.cx = cx ∧ o.orphan = false ∧ (o.stage = 2 ∨ o.stage = 3) ∧ o.op < 12
    (c.task = none ∨ c.phase.rolling = false ∧ c.life ≠ .running ∧ (∀ w, c.life ≠ .ended w) → exec (.rollback t cx) s = .next s) ∧
    (c.task.isSome = true → c.life = .running → c.lane = none → (c.phase.snap = none ∨ c.phase.unrepairable = true) →
      ∃ u, exec (.rollback t cx) s = .next u ∧ u.ctx t cx = c.fail Cause.mchk) ∧
    (∀ x, c.task.isSome = true → c.life = .running → c.phase.snap = some x → c.phase.unrepairable = false →
      c.phase.rolling = false →
      (∀ o ∈ s.eops, granted o → (∀ y ∈ s.eops, y.id = o.id → y = o) →
        ∃ u, exec (.rollback t cx) s = .next u ∧ (u.ctx t cx).phase.rolling = true ∧ (u.ctx t cx).regs = c.regs ∧
          (u.ctx t cx).frame = c.frame ∧ (u.ctx t cx).om = 0) ∧
      ((∀ o, (s.tile t).seqRun = some o → o.cx ≠ cx) → (∀ o ∈ s.eops, ¬ granted o) → c.phase.failures + 1 < 3 →
        ∃ u, exec (.rollback t cx) s = .next u ∧
          let d := u.ctx t cx
          d.regs = x.regs ∧ d.frame = { c.frame with
            ds := x.frame.ds, dleft := x.frame.dleft, anul := x.frame.anul, frozen := x.frame.frozen, edt0 := x.frame.edt0
            edt1 := x.frame.edt1, mode := x.frame.mode, ie := x.frame.ie } ∧
          d.pos = { x.pos with entry := false } ∧ d.inflight = x.inflight ∧ d.replay = [] ∧ d.om = 0 ∧ d.kept = [] ∧
          d.faults = (c.kept ++ c.faults).filter (fun y => decide (y.order < x.made)) ∧
          d.phase.failures = c.phase.failures + 1)))

/-- R74, R183, R332, R340, R330: the events of registers. A write of ILIM stores at least 256; STOP stops the running
operation of its context; CLR empties the replay buffer, with the loads and stores that it holds outstanding (log 12), and a
write of RBDATA sets one word of one entry; the remove command takes an operation that has not been granted out of its queue,
whichever queue it stands in, and the submit command queues the staged one, or either sets ERR (a staged PUTR too: log 30); a
removed operation's count falls in the next step 2 (log 32); the timer and the debugger make their interrupt pending. -/
def Obligations.RegisterEventsTakeEffect : Prop :=
  (∀ (s : State) (t : Nat) (v : Dword), exec (.ilimWrite t v) s = .next (s.modTile t fun x =>
    { x with ilim := if (fld v 0 16).toNat < 256 then 256 else fld v 0 16 })) ∧
  (∀ (s : State) (t : Nat) (cx : Cx),
    exec (.monitorTimerExpiry t cx) s = .next (s.modCtx t cx fun c => { c with irq := { c.irq with timer := true } }) ∧
    exec (.debugHaltRequest t cx) s = .next (s.modCtx t cx fun c => { c with irq := { c.irq with halt := true } })) ∧
  (∀ (s : State) (t : Nat) (cx : Cx),
    (bit (s.ctx t cx).regs.meflags 1 = false → exec (.meflagsStop t cx) s = .next s) ∧
    (∀ o, bit (s.ctx t cx).regs.meflags 1 = true → (s.tile t).seqRun = some o → o.cx = cx → o.stop = false →
      ∃ u, exec (.meflagsStop t cx) s = .next u ∧ u.ctx t cx = s.ctx t cx ∧ u.parts = s.parts ∧
        (u.tile t).seqRun = some { o with stop := true, stopAt := s.now } ∧ (u.tile t).seqWait = (s.tile t).seqWait)) ∧
  (∀ (s : State) (t : Nat) (cx : Cx) (v : Dword),
    let c := s.ctx t cx
    let k := (fld c.rbsel 0 7).toNat
    let old := c.replay.getD k { desc := 0, data := [] }
    let loads := (c.replay.filter (·.ol)).length
    let stores := (c.replay.filter fun e => e.why.isSome &&
      SlotRec.isStore { word := (e.data.headD 0).setWidth 32, lits := [], slot := 0, pc := 0 }).length
    exec (.rbClear t cx) s = .next (s.putCtx t cx { c with
      replay := [], checks := [], ol := c.ol - BitVec.ofNat 8 loads, os := c.os - BitVec.ofNat 8 stores }) ∧
    (96 ≤ k → exec (.rbdataWrite t cx v) s = .next (s.putCtx t cx c)) ∧
    (k < 96 → ∃ l e, exec (.rbdataWrite t cx v) s = .next (s.putCtx t cx { c with replay := l }) ∧ l[k]? = some e ∧
      (∀ j, j < c.replay.length → j ≠ k → l[j]? = c.replay[j]?) ∧
      ((fld c.rbsel 8 9).toNat = 0 → e.desc = v &&& 0x1FF7FFFFFFF ∧ e.data = old.data) ∧
      (∀ w, (fld c.rbsel 8 9).toNat = w + 1 → w < 256 → e.desc = old.desc ∧ e.data.getD w 0 = v ∧
        ∀ j, j ≠ w → e.data.getD j 0 = old.data.getD j 0))) ∧
  (∀ (s : State) (t : Nat),
    let sel := (s.tile t).eqsel
    let k := (fld sel 8 5).toNat
    let err : State := s.modTile t fun x => { x with eqsel := x.eqsel ||| 0x80000#20 }
    (∀ q ∈ [((1 : Nat), Cx.p), (2, Cx.s)], (fld sel 0 2).toNat = q.1 →
      ((s.eQueue t q.2)[k]? = none → exec (.eqRemove t) s = .next err) ∧
      (∀ o, (s.eQueue t q.2)[k]? = some o →
        ((2 ≤ o.stage ∨ o.op = 6) → exec (.eqRemove t) s = .next err) ∧
        (o.stage < 2 → o.op ≠ 6 → ∃ u e, exec (.eqRemove t) s = .next u ∧
          u.eops = (s.eops.filter fun y => y.id != o.id) ++ [e] ∧ e.stage = 4 ∧ e.tile = t ∧ e.cx = q.2 ∧ e.op = 0 ∧
          e.next = s.now + 1 ∧ (u.tile t).eqsel = sel &&& 0x7FFFF#20 ∧ (u.ctx t q.2).oc = (s.ctx t q.2).oc ∧
          u.gddr = s.gddr ∧ ∀ p n a, u.segByte p n a = s.segByte p n a))) ∧
    ((fld sel 0 2).toNat = 3 → exec (.eqRemove t) s = .next err) ∧
    ((fld sel 0 2).toNat = 0 →
      let x := s.tile t
      let q := x.seqRun.toList ++ x.seqWait.toList
      (q[k]? = none → exec (.eqRemove t) s = .next err) ∧
      (∀ o, q[k]? = some o →
        (o.grant.isSome = true ∨ o.stop = true → exec (.eqRemove t) s = .next err) ∧
        (o.grant = none → o.stop = false → (∀ y ∈ q, y.id = o.id → y = o) → ∃ u e, exec (.eqRemove t) s = .next u ∧
          u.eops = s.eops ++ [e] ∧ e.stage = 4 ∧ e.op = 65 ∧ e.tile = t ∧ e.cx = o.cx ∧ e.next = s.now + 1 ∧
          (u.tile t).seqRun = (q.filter fun y => y.id != o.id)[0]? ∧ (u.tile t).seqWait = (q.filter fun y => y.id != o.id)[1]? ∧
          (∀ z ∈ (u.cluster (clusterOf t)).reqs, ¬ (z.kind = 1 ∧ z.op = o.id)) ∧
          (u.tile t).eqsel = sel &&& 0x7FFFF#20 ∧ (u.ctx t o.cx).om = (s.ctx t o.cx).om ∧ u.gddr = s.gddr)))) ∧
  (∀ (s : State) (t : Nat),
    let x := s.tile t
    let cx : Cx := if bit x.eqsel 18 then .s else .p
    let w0 := rd x.staging 0 0
    let op := (fld w0 0 6).toNat
    let ws := (List.range 7).map fun k => rd x.staging (k + 1) 0
    let pk : Packet := ⟨op, (fld w0 6 6).toNat, ws.take (packetWords op), none⟩
    let user := s.modCtx t cx fun c => { c with frame := { c.frame with mode := false } }
    let named := if pk.hasLocal then user.binding t cx pk.df else none
    let err : State := s.modTile t fun y => { y with eqsel := y.eqsel ||| 0x80000#20 }
    (op = 6 ∨ 12 ≤ op ∧ op < 16 ∨ 26 ≤ op → exec (.eqSubmit t) s = .next err) ∧
    (op < 12 → op ≠ 6 →
      (∀ e, user.eCheck t cx pk named = .error e → exec (.eqSubmit t) s = .next err) ∧
      (∀ r, (s.ctx t cx).lane = none → user.eCheck t cx pk named = .ok r →
        ∃ u e, exec (.eqSubmit t) s = .next u ∧ u.eops = s.eops ++ [e] ∧ e.op = op ∧
        e.packet = pk.w ∧ e.df = pk.df ∧ e.tile = t ∧ e.cx = cx ∧ (u.ctx t cx).oc = (s.ctx t cx).oc + 1 ∧
        (u.tile t).eqsel = x.eqsel &&& 0x7FFFF#20 ∧ u.gddr = s.gddr)) ∧
    (16 ≤ op → op < 26 →
      (∀ e, user.sqCheck t cx op (ws.take 5) = .error e → exec (.eqSubmit t) s = .next err) ∧
      (∀ xs, user.sqCheck t cx op (ws.take 5) = .ok xs → x.seqRun = none → ∃ u q, exec (.eqSubmit t) s = .next u ∧
        (u.tile t).seqRun = some q ∧ q.op = op ∧ q.image = ws.take 5 ∧ q.cx = cx ∧ q.start = some (fld (ws.getD 5 0) 0 7).toNat ∧
        q.grant = none ∧ (u.ctx t cx).om = (s.ctx t cx).om + 1 ∧ (u.tile t).eqsel = x.eqsel &&& 0x7FFFF#20 ∧ u.gddr = s.gddr)))

/-- R257, R215, R218, R244, R245, R176, R351, R349, R227, R276, R279: the events of the engines, of residency and of the KV
walkers. A read and a landing move one piece of at most a 64-byte line; a completion lowers oc and delivers a race; a signal
reaches a flag of its generation or is counted in FLATE; a grant pins its members; a move takes its segment off the tile and
applies at its end, a push to backing with the bytes of its backing location, the recall of a backing copy beyond repair with
none; a sequence operation leaves the run slot; locks
are taken all at once; a walk decides; rows and pages arrive; the owner of a page that does not answer ends its fetch, and the
context that waits for it takes KVP with WHY 1. What is not due leaves everything as it was. Whether a page that is read holds
an error is free (log 48), the translations of the locks are those of pagesNow (log 44), and the group that a recall charges is
the model's (log 57). -/
def Obligations.EngineEventsTakeEffect : Prop :=
  (∀ (s : State) (id : Nat) (o : EOp), s.eop? id = some o →
    (s.canRead o = false → exec (.engineRead id) s = .next s) ∧
    (∀ g, s.canRead o = true → o.op = 2 → s.seg? (s.partOf o.tile) o.seg = some g → g.owner = o.tile →
      let a := o.pkt.src + o.data.length
      ∃ u o', exec (.engineRead id) s = .next u ∧ u.eop? id = some o' ∧
        o'.data = o.data ++ g.bytes.bytes a (min (o.pkt.len - o.data.length) (64 - a % 64)) ∧
        o'.landed = o.landed ∧ u.gddr = s.gddr ∧ u.host = s.host ∧ ∀ p n a, u.segByte p n a = s.segByte p n a) ∧
    (s.canLand o = false → exec (.engineLand id) s = .next s) ∧
    (∀ g, s.canLand o = true → o.op = 0 → o.landed < o.pkt.len → s.seg? (s.partOf o.tile) o.seg = some g →
      let a := o.pkt.dst + o.landed
      ∃ u g', exec (.engineLand id) s = .next u ∧ u.seg? (s.partOf o.tile) o.seg = some g' ∧
        g'.bytes = g.bytes.store a ((o.data.drop o.landed).take (min (o.pkt.len - o.landed) (64 - a % 64))) ∧
        (g.place ≠ .backed → u.gddr = s.gddr) ∧
        (g.place = .backed → g.live = none → g'.zero = false ∧
          let back := (s.part (s.partOf o.tile)).backAddr g
          u.gddr = if s.admits (s.partOf o.tile) back (256 * g.len) = true then
            s.gddr.store back (g'.bytes.bytes 0 (256 * g.len)) else s.gddr) ∧
        u.host = s.host ∧ ∀ p n a, (p ≠ s.partOf o.tile ∨ n ≠ o.seg) → u.segByte p n a = s.segByte p n a) ∧
    (s.canComplete o = false → exec (.eComplete id) s = .next s) ∧
    (s.canComplete o = true → o.stage = 3 → o.orphan = false → o.sega = none →
      ∃ u, exec (.eComplete id) s = .next u ∧ u.eop? id = none ∧
        (u.ctx o.tile o.cx).oc = (s.ctx o.tile o.cx).oc - 1 ∧
        (o.race = none → (u.ctx o.tile o.cx).faults = (s.ctx o.tile o.cx).faults) ∧
        (∀ e, o.race = some e → (s.ctx o.tile o.cx).life = .running → (s.ctx o.tile o.cx).lane = none →
          (u.ctx o.tile o.cx).faults = (s.ctx o.tile o.cx).faults ++ [⟨o.order, Cause.race, 0, e⟩])) ∧
    (s.canAcquire o = false → exec (.lockAcquire id) s = .next s) ∧
    (s.canAcquire o = true → ∃ u o', exec (.lockAcquire id) s = .next u ∧ u.eop? id = some o' ∧ o'.stage = 0 ∧
      o'.pages = s.pagesNow o ∧
      (∀ x ∈ s.pagesNow o, ∃ l ∈ (u.cluster (clusterOf o.tile)).locks,
        l.asid = o.asid ∧ l.va = x.1 ∧ l.size = x.2.1 ∧ l.leaf = x.2.2 ∧ id ∈ l.ops) ∧
      (∃ q ∈ (u.cluster (clusterOf o.tile)).reqs, q.kind = 2 ∧ q.op = id ∧ q.members = [o.seg] ∧ q.cycle = o.cycle ∧
        q.slot = o.slot) ∧ u.gddr = s.gddr)) ∧
  (∀ (s : State) (g : Signal) (r : List Signal), s.signals = g :: r → g.due ≤ s.now → s.eop? g.op = none →
    g.tile < (fld s.caps 0 16).toNat → s.partOf g.tile = g.part → g.flag < 16 →
    let f := (s.tile g.tile).flag g.flag
    ∃ u, exec .signalApply s = .next u ∧ u.signals = r ∧
      (f.gen = g.gen → ((u.tile g.tile).flag g.flag).value = f.value + g.delta.signExtend 32 ∧
        ((u.tile g.tile).flag g.flag).gen = f.gen ∧ (u.tile g.tile).flate = (s.tile g.tile).flate) ∧
      (f.gen ≠ g.gen → (u.tile g.tile).flag g.flag = f ∧ (u.tile g.tile).flate = (s.tile g.tile).flate + 1) ∧
      ∀ n, n < 16 → n ≠ g.flag → (u.tile g.tile).flag n = (s.tile g.tile).flag n) ∧
  (∀ (s : State) (id : Nat) (q : Req), s.req? id = some q →
    let p := s.partOf q.tile
    (s.grantable q = false → exec (.requestGrant id) s = .next s) ∧
    (s.grantable q = true → (∀ m ∈ q.members, s.unserviced p m = 0) → q.members.Nodup → ∃ u,
      exec (.requestGrant id) s = .next u ∧
      (u.cluster (clusterOf q.tile)).reqs = (s.cluster (clusterOf q.tile)).reqs.filter (fun y => y.id != q.id) ∧
      (∀ m ∈ q.members, ∀ g, s.seg? p m = some g →
        u.seg? p m = some { g with pins := g.pins + 1, touch := s.now }) ∧
      (q.kind = 0 → (u.ctx q.tile q.cx).held = (s.ctx q.tile q.cx).held ++ q.members) ∧
      (q.kind = 2 → ∀ o, s.eop? q.op = some o → u.eop? q.op = some { o with
        stage := 2, pinned := q.members, sega := none, next := s.now + 1 }))) ∧
  (∀ (s : State) (t : Nat),
    let p := s.partOf t
    ((s.tile t).move.isSome = true ∨ s.moveChoice t = none → exec (.moveBegin t) s = .next s) ∧
    (∀ id k b g, (s.tile t).move = none → s.moveChoice t = some (id, k, b) → s.seg? p id = some g →
      ∃ u m, exec (.moveBegin t) s = .next u ∧ (u.tile t).move = some m ∧ m.seg = id ∧ m.kind = k ∧ m.base = b ∧
        m.was = g.place ∧ s.now < m.due ∧ ∃ g', u.seg? p id = some { g with place := .moving, group := g' } ∧
        (k ≠ .recall → g' = g.group)) ∧
    (∀ m, (s.tile t).move = some m →
      (s.now < m.due → exec (.moveApplied t) s = .next s) ∧
      (∀ g, m.due ≤ s.now → s.seg? p m.seg = some g → ∃ u g', exec (.moveApplied t) s = .next u ∧
        (u.tile t).move = none ∧ u.seg? p m.seg = some g' ∧ g'.bytes = g.bytes ∧
        (m.kind = .recall → (g.bad = false ∨ g.zero = true ∨ m.was ≠ .backed) → g'.place = .resident ∧ g'.base = m.base) ∧
        (m.kind = .recall → g.bad = true → g.zero = false → m.was = .backed → g'.place = .backed ∧ g'.lost = 2) ∧
        (∀ h, m.kind = .lateral h → g'.place = .lateral ∧ g'.host = h ∧ g'.base = m.base) ∧
        (m.kind = .back → g'.place = .backed ∧ g'.evict = none ∧ g'.zero = false ∧ g'.bad = false ∧
          (g.live = none → s.admits p ((s.part p).backAddr g) (256 * g.len) = true →
            u.gddr = s.gddr.store ((s.part p).backAddr g) (g.bytes.bytes 0 (256 * g.len)))) ∧
        (m.kind ≠ .back → u.gddr = s.gddr) ∧
        (m.kind = .compact → g'.place = m.was ∧ g'.base = m.base)))) ∧
  (∀ (s : State) (t : Nat) (o : SeqOp), (s.tile t).seqRun = some o →
    (s.seqDue t o = false → exec (.seqComplete t) s = .next s) ∧
    (s.seqDue t o = true → o.orphan = false → ∃ u, exec (.seqComplete t) s = .next u ∧
      (u.tile t).seqRun.map (·.id) = (s.tile t).seqWait.map (·.id) ∧ (u.tile t).seqWait = none ∧
      (u.ctx t o.cx).om = (s.ctx t o.cx).om - 1 ∧
      (o.grant = none → 16 ≤ o.op → o.op < 26 → bit (u.ctx t o.cx).regs.mestat 24 = true ∧ bit (u.ctx t o.cx).regs.mestat 25 = false))) ∧
  (∀ (s : State) (t : Nat) (cx : Cx),
    let c := s.ctx t cx
    ((∀ d ∈ c.delayed, d.why ≠ .walk ∨ s.now < d.due) → exec (.tlbWalkDone t cx) s = .next s) ∧
    (∀ d, c.delayed = [d] → d.why = .walk → d.due ≤ s.now →
      let v := (s.putCtx t cx { c with delayed := [] }).fillTlb (s.partOf t) (clusterOf t) c.asid
        (rangePages d.cap.packet.va d.cap.packet.len)
      (∀ w, v.eWalked t cx d = .ok w → exec (.tlbWalkDone t cx) s = .next w) ∧
      (∀ e, v.eWalked t cx d = .error e → c.life = .running → c.lane = none → c.frame.mode = false → e.1 < 256 →
        ∃ u, exec (.tlbWalkDone t cx) s = .next u ∧
          (u.ctx t cx).frame.cause.toNat = e.1 + d.cap.slot % 8 * 256 ∧ (u.ctx t cx).frame.einfo = e.2 ∧
          (u.ctx t cx).frame.epc = c.pos.pc ∧ (u.ctx t cx).regs = c.regs))) ∧
  (∀ (s : State) (id p : Nat) (a : Append),
    (s.parts.findSome? fun x => (x.2.appends.find? fun y => y.id == id).map fun y => (x.1, y)) = some (p, a) →
    (s.now < a.due → exec (.kvRowLand id) s = .next s) ∧
    (a.due ≤ s.now → a.dropped = false → a.orphan = false → s.kHere p a.root a.pos false = true →
      s.kHere p a.root a.pos true = true →
      let at_ (s : State) (v : Bool) : Nat := (s.kPage p a.root (a.pos / 64) v).toNat / 2 ^ 14 * 2 ^ 14 + 256 * (a.pos % 64)
      let stored (s : State) (v : Bool) (row : Vec) : Memory :=
        if s.admits p (at_ s v) 256 = true then s.gddr.storeNat (at_ s v) 256 row.toNat else s.gddr
      let s1 : State := { s with gddr := stored s false a.key }
      ∃ u, exec (.kvRowLand id) s = .next u ∧ u.gddr = stored s1 true a.value ∧
        (u.part p).appends = (s.part p).appends.filter (fun y => y.id != id) ∧
        (u.ctx a.tile a.cx).os = (s.ctx a.tile a.cx).os - 1)) ∧
  (∀ (s : State) (id p : Nat) (f : Fetch),
    (s.parts.findSome? fun x => (x.2.fetches.find? fun y => y.id == id).map fun y => (x.1, y)) = some (p, f) →
    (s.now < f.due → exec (.pageFetchApplied id) s = .next s) ∧
    let bad := bit (Config.freeWord s.free) 0
    (∀ fr r a, f.due ≤ s.now → fld f.word 0 2 = 2 → f.freed = false → (s.part p).returning = [] →
      (s.part p).poolFree = fr :: r →
      let bs := s.partBytes p ((s.part p).spillBase + f.word.toNat / 2 ^ 14 * 2 ^ 14) 16384
      let s1 : State := { s with gddr := if s.admits p fr 16384 = true then s.gddr.store fr bs else s.gddr }
      let s2 : State := { s1 with gddr := if s.admits p a 8 = true then s1.gddr.storeNat a 8 (fr + 1) else s1.gddr }
      s1.kSlot p f.root f.pageNo f.value = some a →
      ∃ u, exec (.pageFetchApplied id) s = .next u ∧
        (u.part p).fetches = (s.part p).fetches.filter (fun y => y.id != f.id) ∧
        (bad = false → (u.part p).poolFree = r ∧ u.gddr = (s2.kAddPages p f.stream f.root 1).gddr)) ∧
    (f.due ≤ s.now → fld f.word 0 2 = 0 → f.freed = true → exec (.pageFetchApplied id) s = .next (s.modPart p fun x =>
      { x with fetches := x.fetches.filter fun y => y.id != f.id })) ∧
    (f.due ≤ s.now → fld f.word 0 2 = 2 → s.kWaiting p f.id = [] → ∃ u, exec (.pageFetchApplied id) s = .next u ∧
      (bad = true → u.gddr = s.gddr ∧ u.tiles = s.tiles ∧ (u.part p).poolFree = (s.part p).poolFree ∧
        (u.part p).fetches = (s.part p).fetches.filter (fun y => y.id != f.id)))) ∧
  (∀ (s : State) (id p : Nat) (f : Fetch),
    (s.parts.findSome? fun x => (x.2.fetches.find? fun y => y.id == id).map fun y => (x.1, y)) = some (p, f) →
    (fld f.word 0 2 ≠ 3 → exec (.ownerUnreachable id) s = .next s) ∧
    (fld f.word 0 2 = 3 → ∃ u, exec (.ownerUnreachable id) s = .next u ∧
      (u.part p).fetches = (s.part p).fetches.filter (fun y => y.id != f.id) ∧
      (s.kWaiting p f.id = [] → u.tiles = s.tiles ∧ u.gddr = s.gddr) ∧
      ∀ t cx d, s.kWaiting p f.id = [(t, cx, d)] → slotOp d.cap.word ≠ 4 →
        let c := s.ctx t cx
        let pos := (d.cap.ops.headD 0).toNat
        c.life = .running → c.frame.mode = false → c.lane = none →
        let n := u.ctx t cx
        n.frame.cause.toNat = Cause.kvp + d.cap.slot % 8 * 256 ∧
        n.frame.einfo = BitVec.ofNat 64 ((fld d.cap.word 12 3).toNat % 8 + 1 * 2 ^ 8 + pos % 2 ^ 32 * 2 ^ 16) ∧
        n.frame.epc = c.pos.pc ∧ n.frame.mode = true ∧ n.pos = { pc := (s.tile t).evec, entry := true } ∧ n.regs = c.regs ∧
        u.gddr = s.gddr))

/-! ### Events of the control window, the dispatch complex and the controller -/

/-- R305, R306, R345, R352, R353, R354, R355, R368 to R371: what the driver does through BAR0 and BAR2, and what follows. A
register takes its writable fields; a ring is enabled unless R306 refuses it; an invalidation drops what matches; a migration
copies lines, freezes its page and switches it; a host write changes no segment that is owned and not in backing; a doorbell
makes HOST pending; a watchdog's first expiry sets STAGE1 and its second takes its action (PERIOD 0, and what stands after the
second expiry, are log 31); a freeze, a resume, a kill and a reset of a partition have their effects; a write to a partition that
does not exist has none. -/
def Obligations.ControlWindowWrites : Prop :=
  (∀ (s : State) (p addr n : Nat) (v : Dword), (s.parts.any fun x => x.1 == p) = false → ∀ j ∈ [Instr.registerWrite p addr v,
      .ringEnable p n v, .tailWrite p n v, .tlbinv p v, .migrationStart p v, .doorbell p v, .wdctlWrite p v, .wdkick p,
      .partitionFreeze p, .partitionResume p, .partitionReset p, .suspend p],
    exec j s = .next s) ∧
  (∀ (s : State) (p : Nat) (v : Dword), (s.parts.any fun x => x.1 == p) = true →
    (∀ q ∈ ([(0x000, fun x => { x with ttbl := v.toNat / 64 * 64 }), (0x008, fun x => { x with ttcnt := (fld v 0 17).toNat }),
        (0x010, fun x => { x with drainmax := (fld v 0 32).toNat }), (0x018, fun x => { x with ttlead := (fld v 0 32).toNat }),
        (0x020, fun x => { x with ttres := wr x.ttres 0 v }), (0x028, fun x => { x with ttres := wr x.ttres 1 v }),
        (0x030, fun x => { x with ttres := wr x.ttres 2 v }), (0x038, fun x => { x with ttres := wr x.ttres 3 v }),
        (0x800, fun x => { x with astbl := v.toNat / 64 * 64 }),
        (0x818, fun x => { x with mig := { x.mig with src := v &&& 0x01FFFFFFFFFF07FF } }),
        (0x820, fun x => { x with mig := { x.mig with dst := v &&& 0x7FFFFFFFFFFF0000 } }),
        (0xA18, fun x => { x with wd := { x.wd with stage1 := x.wd.stage1 && !bit v 0, fired := x.wd.fired && !bit v 1 } })] : List (Nat × (Part → Part))),
      exec (.registerWrite p q.1 v) s = .next (s.modPart p q.2)) ∧
    (∀ n, n < 64 → exec (.registerWrite p (0xC00 + 8 * n) v) s = .next (s.modPart p fun x =>
      { x with rings := wr x.rings n { rd x.rings n {} with asid := (fld v 0 11).toNat } })) ∧
    (∀ n, n < 64 → exec (.registerWrite p (0x100 + 16 * n) v) s = exec (.ringEnable p n v) s ∧
      exec (.registerWrite p (0x108 + 16 * n) v) s = exec (.tailWrite p n v) s) ∧
    exec (.registerWrite p 0x810 v) s = exec (.tlbinv p v) s ∧ exec (.registerWrite p 0x828 v) s = exec (.migrationStart p v) s ∧
    exec (.registerWrite p 0xA00 v) s = exec (.doorbell p v) s ∧ exec (.registerWrite p 0xA08 v) s = exec (.wdctlWrite p v) s ∧
    exec (.registerWrite p 0xA10 v) s = exec (.wdkick p) s) ∧
  (∀ (s : State) (p n : Nat) (v : Dword), (s.parts.any fun x => x.1 == p) = true →
    let x := s.part p
    let r := rd x.rings n {}
    let put (r : Ring) : State := s.modPart p fun x => { x with rings := wr x.rings n r }
    let based : Ring := { r with base := v.toNat / 128 * 128 }
    let bad : Prop := r.nrec = 0 ∨ r.nrec.toNat ≤ r.tail.toNat ∨ based.base < x.lo ∨ x.lo + x.len < based.base + 128 * r.nrec.toNat
    (r.en = true → exec (.ringEnable p n v) s = .next (put { r with en := bit v 0 })) ∧
    (r.en = false →
      (bit v 0 = false → exec (.ringEnable p n v) s = .next (put based)) ∧
      (bit v 0 = true → bad → exec (.ringEnable p n v) s = .next (put { based with err := true })) ∧
      (bit v 0 = true → ¬ bad → exec (.ringEnable p n v) s = .next (put { based with en := true, err := false }))) ∧
    (r.en = true → exec (.tailWrite p n v) s = .next (put
      (if fld v 32 16 < r.nrec then { r with tail := fld v 32 16 } else r))) ∧
    (r.en = false → exec (.tailWrite p n v) s = .next (put
      (if fld v 32 16 < fld v 0 16 then { r with nrec := fld v 0 16, tail := fld v 32 16 } else { r with nrec := fld v 0 16 })))) ∧
  (∀ (s : State) (p : Nat) (v : Dword),
    let x := s.part p
    (x.tlbWait.isSome = true → exec (.tlbinv p v) s = .next s) ∧
    ((s.parts.any fun y => y.1 == p) = true → x.tlbWait = none → ∃ u, exec (.tlbinv p v) s = .next u ∧ (u.part p).tlbWait.isSome = true ∧
      (u.part p).tlbinv = v &&& 0x01FFFFFFFFFF1FFF ∧ u.gddr = s.gddr ∧ u.tiles = s.tiles ∧
      ∀ k ∈ x.clusters, ∀ y ∈ (u.cluster k).tlb, y ∈ (s.cluster k).tlb ∧
        ((fld v 11 2 = 0 → ¬ (y.asid = (fld v 0 11).toNat ∧ y.va / 2 ^ y.size = (v &&& 0x01FFFFFFFFFF1FFF).toNat % 2 ^ 57 / 2 ^ y.size)) ∧
        (fld v 11 2 = 1 → y.asid ≠ (fld v 0 11).toNat) ∧ fld v 11 2 ≠ 2)) ∧
    (s.tlbinvDone p = true → exec (.tlbinvComplete p) s = .next (s.modPart p fun x => { x with tlbWait := none })) ∧
    (s.tlbinvDone p = false → exec (.tlbinvComplete p) s = .next s)) ∧
  (∀ (s : State) (p : Nat) (v : Dword),
    let x := s.part p
    let m := x.mig
    let asid := (fld m.src 0 11).toNat
    let va := m.src.toNat % 2 ^ 57 / 65536 * 65536
    let d := m.dst.toNat % 2 ^ 63 / 65536 * 65536
    let seen : State := s.logReads p (s.walkAddrs p asid va)
    let put (m : Migration) : State := seen.modPart p fun x => { x with mig := m }
    let old := (Leaf.mk m.leaf m.size).addr
    let n := 2 ^ m.size / 64
    (bit v 0 = false ∨ m.phase ≠ 0 → exec (.migrationStart p v) s = .next s) ∧
    ((s.parts.any fun y => y.1 == p) = true → bit v 0 = true → m.phase = 0 →
      (∀ e, s.walk p asid va = .error e → exec (.migrationStart p v) s = .next (put { m with err := true })) ∧
      (∀ l, s.walk p asid va = .ok l →
        let bad : Prop := l.host = true ∨ d < x.lo ∨ x.lo + x.len < d + 2 ^ l.size ∨ d % 2 ^ l.size ≠ 0
        (bad → exec (.migrationStart p v) s = .next (put { m with err := true })) ∧
        (¬ bad → exec (.migrationStart p v) s = .next (put { m with
          phase := 1, err := false, copied := 0, dirty := [], leaf := l.word, size := l.size, asid := asid, va := va, target := d
          entry := leafAt (s.partWord p) va 3 ((s.rootOf p asid).getD 0) })))) ∧
    (m.phase ≠ 1 → exec (.migrationFreeze p) s = .next s) ∧
    (m.phase = 1 → ∃ u k, exec (.migrationFreeze p) s = .next u ∧ k = min (n - m.copied) (Config.freeDur s.free + 1) ∧
      (u.part p).mig = { m with copied := m.copied + k, phase := if n ≤ m.copied + k then 2 else 1 } ∧ u.tiles = s.tiles ∧
      (s.admits p old (2 ^ m.size) = true → s.admits p m.target (2 ^ m.size) = true →
        u.gddr = (List.range k).foldl (fun g j =>
          g.store (m.target + 64 * (m.copied + j)) (g.bytes (old + 64 * (m.copied + j)) 64)) s.gddr)) ∧
    (m.phase = 0 ∨ m.phase = 1 ∨ m.phase = 2 ∧ s.migLocks p = true ∨ m.phase = 3 ∧ s.migWaiting p = true →
      exec (.migrationSwitch p) s = .next s) ∧
    (m.phase = 2 → s.migLocks p = false → m.dirty = [] → s.admits p m.entry 8 = true →
      ∃ u, exec (.migrationSwitch p) s = .next u ∧ (u.part p).mig = { m with phase := 3, dirty := [] } ∧
        (let w := s.gddr.dword m.entry
         u.gddr = s.gddr.storeNat m.entry 8 (w.toNat % 2 ^ 8 + m.target + b2n (bit w 63) * 2 ^ 63)) ∧
        ∀ k ∈ x.clusters, ∀ y ∈ (u.cluster k).tlb, ¬ (y.asid = m.asid ∧ y.va / 2 ^ m.size = m.va / 2 ^ m.size)) ∧
    (m.phase = 3 → s.migWaiting p = false → exec (.migrationSwitch p) s = .next (s.modPart p fun x =>
      { x with mig := { x.mig with phase := 0 } }))) ∧
  (∀ (s : State) (p addr len : Nat) (data : List Byte),
    let x := s.part p
    (data ≠ [] →
      (addr + data.length ≤ x.len →
        ∃ u, exec (.hostMemoryAccess p addr len data) s = .next u ∧ u.gddr = s.gddr.store (x.lo + addr) data ∧
          u.tiles = s.tiles ∧ u.host = s.host ∧ u.code = s.code ∧
          ∀ id g, (x.dir.find? fun y => y.id == id) = some g → g.valid = true → g.owned = true → g.place ≠ .backed →
            u.seg? p id = s.seg? p id) ∧
      (x.len < addr + data.length → exec (.hostMemoryAccess p addr len data) s = .next (s.logEvent 0x355 p))) ∧
    (addr + len ≤ x.len → exec (.hostMemoryAccess p addr len []) s = .next { s with ensign := { s.ensign with
      answers := s.ensign.answers ++ [(0x368, s.gddr.bytes (x.lo + addr) len)] } }) ∧
    (x.len < addr + len → exec (.hostMemoryAccess p addr len []) s = .next { s with ensign := { s.ensign with
      answers := s.ensign.answers ++ [(0x368, List.replicate len 0xFF)], log := s.ensign.log ++ [(s.ptime.toNat, 0x355, p)] } })) ∧
  (∀ (s : State) (p : Nat) (v : Dword), (s.parts.any fun x => x.1 == p) = true →
    let t := (fld v 0 11).toNat
    let cx : Cx := if bit v 11 then .s else .p
    let w := (s.part p).wd
    let a := (fld v 32 2).toNat
    (t ∈ s.tilesOf p → exec (.doorbell p v) s = .next ((s.modPart p fun x =>
      { x with doorbell := (fld v 0 12).setWidth 64 }).modCtx t cx fun c => { c with irq := { c.irq with host := true } })) ∧
    (t ∉ s.tilesOf p → exec (.doorbell p v) s = .next (s.logEvent 0x369 t)) ∧
    exec (.wdctlWrite p v) s = .next (s.modPart p fun x => { x with wd := { w with
      period := (fld v 0 32).toNat, action := if a = 3 then 0 else a, running := (fld v 0 32).toNat != 0, second := false
      due := s.ptime.toNat + 1000 * (fld v 0 32).toNat } }) ∧
    exec (.wdkick p) s = .next (s.modPart p fun x => { x with wd := { w with
      running := w.period != 0, second := false, due := s.ptime.toNat + 1000 * w.period } })) ∧
  (∀ (s : State) (p : Nat),
    let w := (s.part p).wd
    let spent : State := s.modPart p fun x => { x with wd := { w with fired := true, last := w.action, running := false, second := false } }
    (w.running = true → w.second = false → w.due ≤ s.ptime.toNat → ∃ u, exec (.watchdogFirstExpiry p) s = .next u ∧
      (u.part p).wd = { w with stage1 := true, second := true, due := w.due + 1000 * w.period } ∧
      ∀ k ∈ (s.part p).tasks, ∀ y ∈ k.contexts, (u.ctx y.1 y.2).irq.wdog = true) ∧
    (s.ptime.toNat < w.due → exec (.watchdogFirstExpiry p) s = .next s ∧ exec (.watchdogSecondExpiry p) s = .next s) ∧
    (w.running = true → w.second = true → w.due ≤ s.ptime.toNat →
      (w.action = 0 → exec (.watchdogSecondExpiry p) s = exec (.partitionFreeze p) spent) ∧
      (w.action = 1 → exec (.watchdogSecondExpiry p) s = exec (.partitionKill p) spent) ∧
      (w.action = 2 → exec (.watchdogSecondExpiry p) s = exec (.partitionReset p) spent)) ∧
    ((s.parts.any fun x => x.1 == p) = true →
      exec (.partitionFreeze p) s = .next (s.modPart p fun x => { x with frozen := true }) ∧
      ((s.part p).dropping = false →
        exec (.partitionResume p) s = .next (s.modPart p fun x => { x with frozen := false, suspended := false })) ∧
      ∃ u, exec (.partitionReset p) s = .next u ∧ (u.part p).tasks = [] ∧ (u.part p).frozen = false ∧
        (∀ n, n < 64 → let r := rd (u.part p).rings n {}; r.en = false ∧ r.head = 0 ∧ r.tail = 0) ∧
        (∀ t ∈ s.tilesOf p, ∀ k, k < 16 →
          ((u.tile t).flag k).value = 0 ∧ ((u.tile t).flag k).gen = ((s.tile t).flag k).gen + 1) ∧
        ∀ k ∈ (s.part p).clusters, (u.cluster k).tlb = []) ∧
    (∃ u, exec (.partitionKill p) s = .next u ∧ (u.part p).tasks = [] ∧ (u.part p).frozen = (s.part p).frozen ∧
      (u.part p).rings = (s.part p).rings))

/-- R306, R310, R314, R317, R318, R336, R241, R289 to R294, R366: the events of the dispatch complex and of guessed-carry
loops. A record that passes its checks waits as a block, or is held until its time; waiting blocks gain tokens and are
placed; a task binds its template, recalls its segments and runs its first pass, or waits again where its partition is
suspended; a marked victim and a suspended context are asked out; a round is sized, sealed and settled; a channel drop waits for
the contexts of its partition. The order within the start of a task, and its first pass in the core cycle after its last recall,
are log 19; that a drop waits for its partition is log 34; a directory without a free entry is log 62. -/
def Obligations.DispatchEventsTakeEffect : Prop :=
  (∀ (s : State) (p n : Nat),
    ((∀ q, s.takeTurn p = some q → q.1 ≠ n ∨ s.taking p = false) → exec (.recordTake p n) s = .next s) ∧
    (∀ q, s.takeTurn p = some (n, q) → s.taking p = true → n < 64 →
      let r := rd (s.part p).rings n {}
      let ws := s.gddr.dwords (r.base + 128 * r.head.toNat) 16
      let pulled : State := { s.modPart p fun x => { x with round := q, rings := wr x.rings n { r with
        head := BitVec.ofNat 16 ((r.head.toNat + 1) % r.nrec.toNat) } } with fresh := s.fresh + 1 }
      let took : State := pulled.logReads p (pulled.typeReads p (wf ws 0 0 16))
      (∀ e, took.recordCheck p ws = .error e → bit (wd ws 0) 33 = false → exec (.recordTake p n) s = .next took) ∧
      (∀ tt lw, took.recordCheck p ws = .ok (tt, lw) → ∃ u l b, exec (.recordTake p n) s = .next u ∧
        (u.part p).launches = (s.part p).launches ++ [l] ∧ l.words = ws ∧ l.asid = r.asid ∧ b.launch = l.id ∧ b.tt = tt ∧
        b.lw = lw ∧ b.tokens = wf ws 0 16 8 ∧
        (bit (wd ws 0) 31 = true → (u.part p).held = (s.part p).held ++ [b] ∧ (u.part p).blocks = (s.part p).blocks) ∧
        (bit (wd ws 0) 31 = false → (u.part p).blocks = (s.part p).blocks ++ [b] ∧ (u.part p).held = (s.part p).held)))) ∧
  (∀ (s : State) (p : Nat),
    let x := s.part p
    let s1 : State := s.modPart p fun x => { x with blocks := [] }
    (x.frozen = true ∨ x.suspended = true ∨ s.ensign.coreOn = false → exec (.dispatchStep p) s = .next s) ∧
    (x.frozen = false → x.suspended = false → s.ensign.coreOn = true → x.blocks = [] → exec (.dispatchStep p) s = .next s1) ∧
    (∀ b spots, x.frozen = false → x.suspended = false → s.ensign.coreOn = true → x.blocks = [b] → b.reps = 1 →
      s1.blockSpots p b [] = some spots →
      exec (.dispatchStep p) s = .next ((s1.placeAt p b spots).modPart p fun x => x) ∧
      ((s1.placeAt p b spots).part p).blocks = [] ∧
      ∀ z ∈ spots, ∃ k ∈ ((s1.placeAt p b spots).part p).tasks, k.launch = b.launch ∧ k.unit = z.1 ∧ k.tile = z.2.1 ∧
        k.cx = z.2.2 ∧ k.started = false) ∧
    exec (.tokenAge p) s = .next (s.modPart p fun x => { x with blocks := x.blocks.map fun b =>
      if b.tokens < 255 ∧ b.since + 65536 ≤ s.now then { b with tokens := b.tokens + 1, since := b.since + 65536 } else b })) ∧
  (∀ (s : State) (p : Nat) (b : Block) (l : Launch),
    let x := s.part p
    x.held.find? (s.timely p) = some b → x.frozen = false → x.suspended = false → s.ensign.update = .none →
    s.ensign.coreOn = true → s.launch? p b.launch = some l →
    let s1 : State := s.modPart p fun x => { x with held := x.held.filter fun y => y.launch != b.launch }
    (∀ plan, s.ptime.toNat ≤ (wd l.words 3).toNat → s1.planAll p l.words (s1.blockWant p b) true = some plan → ∃ u, exec (.ttPlace p) s = .next u ∧
      ∀ y ∈ plan, ∀ z ∈ y.2, ∃ k ∈ (u.part p).tasks, k.launch = b.launch ∧ k.unit = z.1 ∧ k.tile = z.2.1 ∧ k.cx = z.2.2 ∧
        k.notBefore = (wd l.words 3).toNat) ∧
    (((wd l.words 3).toNat < s.ptime.toNat ∨ s1.planAll p l.words (s1.blockWant p b) true = none) →
      (bit (wd l.words 0) 32 = true → ∃ u, exec (.ttPlace p) s = .next u ∧
        (u.part p).blocks = x.blocks ++ [{ b with tokens := 255, late := true }] ∧
        ∀ y, u.launch? p l.id = some y → y.rstat = 7) ∧
      (bit (wd l.words 0) 32 = false → exec (.ttPlace p) s = .next (s1.complete p { l with rstat := 6 })))) ∧
  (∀ (s : State) (p : Nat) (k : Task),
    (s.parts.findSome? fun x => (x.2.tasks.find? fun y => y.id == k.id).map fun y => (x.1, y)) = some (p, k) →
    s.task? p k.id = some k →
    let on : Prop := k.started = false ∧ (s.part p).suspended = false
    (k.started = true → exec (.taskStart k.id) s = .next s) ∧
    (k.started = false → (s.part p).suspended = true → ∃ u b, exec (.taskStart k.id) s = .next u ∧ u.task? p k.id = none ∧
      b ∈ (u.part p).blocks ∧ b.launch = k.launch ∧ b.unit = k.unit ∧ b.image = k.image) ∧
    (on → k.bound = false → k.image = none →
      (∀ y ∈ s.template p k.tt, (s.seg? p y.2).isSome = true) → ∃ u k', exec (.taskStart k.id) s = .next u ∧
        u.task? p k.id = some k' ∧ k'.bound = true ∧ k'.tmap = s.template p k.tt ∧
        (u.ctx k.tile k.cx).regs.segmap = bindMap (s.template p k.tt)) ∧
    (on → k.bound = true → k.ready = none →
      (s.recalled p k = true → exec (.taskStart k.id) s = .next (s.modTask p k.id fun k =>
        { k with ready := some (s.now + 1), recalls := [] })) ∧
      (s.recalled p k = false → exec (.taskStart k.id) s = .next s)) ∧
    (∀ n, on → k.bound = true → k.ready = some n →
      (s.now < n ∨ s.ptime.toNat < k.notBefore → exec (.taskStart k.id) s = .next s) ∧
      (n ≤ s.now → k.notBefore ≤ s.ptime.toNat → k.image = none → isLoop k.lw = false → wd k.tt 1 = 0 → 0 < k.passes →
        ∃ u, exec (.taskStart k.id) s = .next u ∧ (u.ctx k.tile k.cx).life = .running ∧
          (u.ctx k.tile k.cx).pos = { pc := wd k.tt 0, entry := true } ∧ (u.ctx k.tile k.cx).frame.mode = false ∧
          (u.ctx k.tile k.cx).regs.segmap = (s.ctx k.tile k.cx).regs.segmap))) ∧
  (∀ (s : State) (t : Nat) (cx : Cx) (k : Task),
    let c := s.ctx t cx
    c.task.bind (s.task? (s.partOf t)) = some k → k.tile = t → k.cx = cx →
    (k.mark ≠ 2 ∨ k.started = false → exec (.checkpoint t cx) s = .next s) ∧
    (k.mark = 2 → k.started = true → k.loop = none →
      (c.life ≠ .starting → exec (.checkpoint t cx) s = .next s) ∧
      (c.life = .starting → ∃ u, exec (.checkpoint t cx) s = .next u ∧ (u.ctx t cx).life = .running ∧ (u.ctx t cx).regs = c.regs ∧
        ∀ n, n = s.saveSegment (s.partOf t) t ((s.tile t).banksHeld cx) →
          (n.isSome = true → (u.ctx t cx).irq.swout = true ∧ (u.ctx t cx).irq.saveId = BitVec.ofNat 32 ((n.map (·.1)).getD 0)) ∧
          (n = none → (u.ctx t cx).irq = c.irq ∧ u.ensign.log = s.ensign.log ++ [(s.ptime.toNat, 0x336, t)])))) ∧
  (∀ (s : State) (p : Nat), (s.parts.any fun x => x.1 == p) = true →
    ((s.part p).dir.filter (·.valid)).length + (s.part p).tasks.length ≤ (s.part p).dirSize →
    ∃ u, exec (.suspend p) s = .next u ∧ (u.part p).suspended = true ∧
    ∀ k ∈ (s.part p).tasks, k.loop = none → k.started = true → k.asked = 0 → (s.ctx k.tile k.cx).life = .running →
      (u.ctx k.tile k.cx).irq.swout = true ∧ (u.ctx k.tile k.cx).regs = (s.ctx k.tile k.cx).regs) ∧
  (∀ (s : State) (p : Nat) (g : GLoop) (k : Task), s.loopOf g.task = some (p, g) → s.loop? p g.id = some g →
    s.task? p g.task = some k → k.mark = 0 → g.fault = none →
    let n := min g.lanes (g.trips - g.base)
    let t0 := g.cluster * 8
    (g.phase ≠ .size → g.phase ≠ .wait → exec (.roundSize g.task) s = .next s) ∧
    (g.phase = .size → s.loopFault g = none → 0 < n → ∃ u g', exec (.roundSize g.task) s = .next u ∧
      u.loop? p g.id = some g' ∧ g'.n = n ∧ g'.posts = [] ∧ g'.base = g.base ∧ g'.carries = g.carries ∧
      (n = 1 ∨ g.guess = 0 → g'.phase = .seal ∧ u.tiles = s.tiles) ∧
      (2 ≤ n → g.guess ≠ 0 → g'.phase = .guess ∧ (u.ctx t0 .p).life = .running ∧
        (u.ctx t0 .p).pos = { pc := g.guess, entry := true } ∧
        (u.ctx t0 .p).lane = some { loop := g.id, lane := 0, guess := true, spec := false })) ∧
    (g.phase ≠ .seal → g.phase ≠ .guess → exec (.seal g.task) s = .next s) ∧
    (g.phase = .seal → ∃ u g', exec (.seal g.task) s = .next u ∧ u.loop? p g.id = some g' ∧ g'.phase = .run ∧ g'.n = g.n ∧
      g'.cr = g.handles.map (fun h => s.kLen p (fld h 20 20).toNat) ∧
      ∀ j, j < g.n → ∀ t ∈ g.tiles j, let c := u.ctx t .p
        c.life = .running ∧ c.pos = { pc := wd k.tt 0, entry := true } ∧
        c.lane = some { loop := g.id, lane := j, guess := false, spec := decide (0 < j) } ∧
        ∀ i, i < 8 → rd c.regs.ci i 0 = g.carryIn j i) ∧
    (g.phase ≠ .run → exec (.settle g.task) s = .next s) ∧
    (g.phase = .run → (∀ j, j < g.n → s.laneOver g j = true) → ∃ u g', exec (.settle g.task) s = .next u ∧
      u.loop? p g.id = some g' ∧ g'.phase = .wait ∧ g'.base = g.base + s.accepted g ∧
      (s.accepted g = 0 → g'.carries = g.carries ∧ g'.round = g.round ∧ g'.result = g.result) ∧
      (∀ m w, s.accepted g = m + 1 → g.words.find? (fun y => y.1 == m) = some w → g'.result = w.2 ∧ g'.round = g.round + 1))) ∧
  (∀ (s : State) (p idx : Nat),
    let x := s.part p
    let log (kind : Nat) (e : Ensign) : State := { s with ensign := { e with log := e.log ++ [(s.ptime.toNat, kind, idx)] } }
    (x.dropping = false → (s.ensign.repairDrop = false ∨ x.len ≤ 2 ^ 30 * (x.drops.length + 1)) →
      (s.ensign.rows.length < 256 → exec (.pseudoChannelDrop p idx) s =
        .next (log 0x366 { s.ensign with rows := s.ensign.rows ++ [idx] })) ∧
      (256 ≤ s.ensign.rows.length → exec (.pseudoChannelDrop p idx) s = .next (log 0x1366 s.ensign))) ∧
    (s.ensign.repairDrop = true → x.drops = [] → 2 ^ 30 < x.len → x.dropping = false → ∃ u, exec (.pseudoChannelDrop p idx) s = .next u ∧
      (u.part p).dropping = true ∧ (u.part p).drops = [idx] ∧ (u.part p).suspended = true ∧ (u.part p).len = x.len) ∧
    (s.ensign.repairDrop = true → x.drops.head? ≠ some idx → 2 ^ 30 * (x.drops.length + 1) < x.len → x.dropping = true →
      exec (.pseudoChannelDrop p idx) s = .next ((log 0x366 s.ensign).modPart p fun x => { x with drops := x.drops ++ [idx] })) ∧
    (x.dropping = true → x.drops.head? = some idx →
      (x.tasks ≠ [] → exec (.pseudoChannelDrop p idx) s = .next s) ∧
      (x.tasks = [] → ∃ u, exec (.pseudoChannelDrop p idx) s = .next u ∧ (u.part p).len = x.len - 2 ^ 30 ∧
        (u.part p).drops = x.drops.drop 1 ∧ (u.part p).suspended = decide (x.drops.drop 1 ≠ []) ∧
        (u.part p).dropping = decide (x.drops.drop 1 ≠ []) ∧ fld u.caps 16 9 = fld s.caps 16 9 - 1)))

/-- R373, R365, R367, R375 to R381: the events of the Pennant ports and of the Ensign controller. A flit is numbered and kept
until it is acknowledged, or waits for room; a received one that passes its CRC is accepted in order, and its message takes effect,
or it is answered with a NAK; a link that is trained retrains, and then resumes in order; boot verifies its images, brings up the
core rails and creates up to 16 partitions (R322), or fails; the SPDM and PLDM requests are answered; PTP time is set; a scheduler
image takes over with its first heartbeat, or the old one runs on; power and heat change what they change. The bytes of an answer that the spec does not
give are free (log 9), and so are a flit's header, CRC and meaning (log 33); the byte of GET_VERSION, what an acknowledgement
names, the error of a link as the first of two rows, the resending of a retrained link, what a scrub finds, the durations of the
tests and the way of the power controller are log 29, the clock of the heartbeat log 27. -/
def Obligations.ControllerEventsTakeEffect : Prop :=
  (∀ (s : State) (n : Nat) (data : List Byte) (sq : BitVec 12) (room : Bool), bit s.caps 25 = true → n < 8 →
    let p := rd s.ports n {}
    let put (q : Port) : State := { s with ports := wr s.ports n q }
    let f := (p.nextSend, flit p.nextSend data)
    (p.trained = true → p.replay.length < 1024 → p.waiting = [] → exec (.flitSend n data) s = .next (put { p with
      nextSend := p.nextSend + 1, replay := p.replay ++ [f], wire := p.wire ++ [f] })) ∧
    (p.trained = false ∨ 1024 ≤ p.replay.length →
      exec (.flitSend n data) s = .next (put { p with waiting := p.waiting ++ [data] })) ∧
    (flit sq data).length = 256 ∧ flitOk (flit sq data) = true ∧ (data.length = 244 → flitPayload (flit sq data) = data) ∧
    let taken : State := put { p with nextRecv := sq + 1, received := p.received ++ [data], owed := p.owed ++ [(false, sq + 1)] }
    (¬ (room = true ∧ flitOk data = true ∧ sq = p.nextRecv) → exec (.flitReceive n sq room data) s =
      .next (State.logEvent (put { p with owed := p.owed ++ [(true, p.nextRecv)] }) 0x373 n)) ∧
    (room = true → flitOk data = true → sq = p.nextRecv →
      exec (.flitReceive n sq room data) s = .next (match Config.fabricMessage (flitPayload data) with
        | none => taken
        | some m => taken.farMessage m)) ∧
    (∀ old new d, p.replay = old ++ (sq, d) :: new → (∀ f ∈ old, f.1 ≠ sq) →
      exec (.nak n sq) s = .next (State.logEvent (put { p with wire := p.wire ++ (sq, d) :: new }) 0x1373 n) ∧
      (sq ≠ p.nextSend → exec (.ack n sq) s = .next (put (Port.pump { p with replay := (sq, d) :: new })))) ∧
    exec (.ack n p.nextSend) s = .next (put (Port.pump { p with replay := [] })) ∧
    (p.trained = false → exec (.linkTrained n) s = .next (State.logEvent (put (Port.pump { p with
      trained := true, wire := p.wire ++ p.replay })) 0x365 (2 * n + 2))) ∧
    (p.trained = true →
      exec (.linkTrained n) s = .next (State.logEvent (put { p with trained := false }) 0x365 (2 * n + 1))) ∧
    (p.waiting = [] → p.pump = p) ∧
    (∀ x r, p.waiting = x :: r → p.trained = true → p.replay.length < 1024 →
      p.pump = Port.pump { p.send x with waiting := r })) ∧
  (∀ (s : State) (n : Nat) (data : List Byte) (sq : BitVec 12) (room : Bool),
    let e := s.ensign
    (bit s.caps 25 = false →
      (∀ j ∈ [Instr.flitSend n data, .flitReceive n sq room data, .nak n sq, .ack n sq], exec j s = .next s) ∧
      (n < 8 → exec (.linkTrained n) s = .next s)) ∧
    (8 ≤ n → exec (.linkTrained n) s = .next { s with ensign := { e with
      hostLink := !e.hostLink, log := e.log ++ [(s.ptime.toNat, 0x365, 2 * n + 1 + b2n !e.hostLink)] } })) ∧
  (∀ s : State,
    let e := s.ensign
    let runs (i : Image) : Prop := i.valid = true ∧ e.rollback ≤ i.version
    let failed (why : Nat) : Prop := exec .boot s = .next { s with ensign := { e with
      failed := true, log := e.log ++ [(s.ptime.toNat, 0x375, why)], answers := e.answers ++ [(0x375, [BitVec.ofNat 8 why])] } }
    let fails (n : Nat) : Prop := e.stepFails.contains n = true
    (e.booted = true ∨ e.failed = true → exec .boot s = .next s) ∧
    (e.booted = false → e.failed = false →
      (fails 1 → failed 1) ∧
      (¬ fails 1 → ¬ runs e.slotA → ¬ runs e.slotB → failed 2) ∧
      (¬ fails 1 → runs e.slotA ∨ runs e.slotB →
        (e.coreOn = false → exec .boot s = .next { s with ensign := { e with
          coreOn := true, testing := some s.now, islands := s.allIslands 175 } }) ∧
        (e.coreOn = true →
          (fails 4 → failed 4) ∧
          (¬ fails 4 → ¬ (runs e.monitorImg ∧ runs e.sched) → failed 5) ∧
          (¬ fails 4 → runs e.monitorImg → runs e.sched → fails 6 → failed 6) ∧
          (¬ fails 4 → runs e.monitorImg → runs e.sched → ¬ fails 6 → ∃ u, exec .boot s = .next u ∧
            u.ensign.booted = true ∧ u.ensign.coreOn = true ∧ u.ensign.testing = none ∧ (∀ k, u.ensign.islandMHz k = 700) ∧
            u.ensign.fused = e.fused ++ e.rows ∧ u.ensign.rows = [] ∧
            u.parts = planSpaces 2048 ((e.plan.take 16).map fun x => (x.1, x.2.bounded (bit s.caps 25))) ∧
            (u.parts.map fun x => x.2.ascnt).sum ≤ 2048 ∧ (∀ x ∈ u.parts, x.2.ascnt < 2048) ∧
            (∀ x ∈ u.parts, x.2.modules.length ≤ 4095 ∧ (x.2.linkGroups.map (·.length)).sum ≤ 4095 ∧
              (bit s.caps 25 = false → x.2.modules = [] ∧ x.2.linkGroups = [])) ∧
            u.modid = e.planModid ∧
            u.tiles = s.tiles ∧ ((∀ x ∈ e.plan, x.2.dir = []) → u.gddr = s.gddr) ∧
            rd u.ensign.measure 2 [] = e.monitorImg.digest ∧ rd u.ensign.measure 3 [] = e.sched.digest ∧
            (runs e.slotA → (runs e.slotB → e.slotB.version ≤ e.slotA.version) → rd u.ensign.measure 1 [] = e.slotA.digest) ∧
            (runs e.slotB → (runs e.slotA → e.slotA.version < e.slotB.version) → rd u.ensign.measure 1 [] = e.slotB.digest)))))) ∧
  (∀ (s : State) (idx : Nat) (data : List Byte),
    let e := s.ensign
    let tells (bs : List Byte) : State := { s with ensign := { e with answers := e.answers ++ [(0x376, bs)] } }
    let free : State := { tells (Config.freeBytes s.free) with free := s.free + 1 }
    let i : Image := e.image data
    exec .getVersion s = .next (tells [0x12]) ∧
    (∀ j ∈ [Instr.getCapabilities, .negotiateAlgorithms data, .getDigests, .getCertificate data, .challenge data,
      .pldmMonitoring data], exec j s = .next free) ∧
    (1 ≤ idx → exec (.getMeasurements idx) s = .next (tells (rd e.measure (idx - 1) []))) ∧
    (i.valid = true → exec (.pldmFirmwareUpdate idx data) s = .next { s with ensign :=
      if idx = 0 then { e with slotA := i } else { e with slotB := i } }) ∧
    (i.valid = false → exec (.pldmFirmwareUpdate idx data) s = .next (s.logEvent 0x376 idx)) ∧
    exec (.ptpMessage idx) s = .next { s with ptime := BitVec.ofNat 64 idx, ptick := 0, ensign := { e with ptpState := 1 } } ∧
    (e.ptpState ≠ 2 → exec .holdover s = .next { s with ensign := { e with ptpState := 2, hold := s.ptime.toNat } }) ∧
    (e.update = .none → i.valid = true → ∃ u, exec (.schedulerUpdate data) s = .next u ∧
      (Config.readsHandOver data = true → u = { s with ensign := { e with
        schedNew := i, measure := wr e.measure 3 i.digest, update := .started s.ptime.toNat } }) ∧
      (Config.readsHandOver data = false → u.ensign.update = .none ∧ u.ensign.sched = e.sched ∧
        rd u.ensign.measure 3 [] = e.sched.digest)) ∧
    (e.update = .none → i.valid = false → exec (.schedulerUpdate data) s = .next (s.logEvent 0x378 2)) ∧
    (∀ a, e.update = .started a →
      (s.ptime.toNat ≤ a + 2000000000 → exec .heartbeat s = .next { s with ensign := { e with
        update := .none, sched := e.schedNew, schedNew := {} } } ∧ exec .heartbeatTimeout s = .next s) ∧
      (a + 2000000000 < s.ptime.toNat → exec .heartbeat s = .next s ∧ ∃ u, exec .heartbeatTimeout s = .next u ∧
        u.ensign.update = .none ∧ u.ensign.sched = e.sched ∧ rd u.ensign.measure 3 [] = e.sched.digest))) ∧
  (∀ (s : State) (w : Nat),
    let e := s.ensign
    let off (j : Instr) : Prop := ∃ u, exec j s = .next u ∧ u.ensign.coreOn = false ∧ u.gddr = s.gddr ∧ u.tiles = s.tiles ∧
      ∀ q ∈ s.parts, (u.part q.1).frozen = true
    off .undervoltage ∧ off .thermalShutdown ∧
    (e.booted = false → exec .powerRestore s = .next s) ∧
    (e.booted = true →
      (e.coreOn = false → exec .powerRestore s = .next { s with free := s.free + 1, ensign := { e with
        coreOn := true, testing := some (s.now + 1 + Config.freeDur s.free), islands := s.allIslands 175 } }) ∧
      (e.coreOn = true → e.testing = none → exec .powerRestore s = .next s) ∧
      (∀ n, e.coreOn = true → e.testing = some n →
        (s.now < n → exec .powerRestore s = .next s) ∧
        (n ≤ s.now → exec .powerRestore s = .next { s with ensign := { e with testing := none, islands := [] } }))) ∧
    (∀ k, k < (fld s.caps 0 16).toNat / 2 → aget (s.allIslands 175) k 700 = 175) ∧
    exec (.thermalThrottle w) s = .next { s with ensign := { e with
      islands := aput e.islands w 175, log := e.log ++ [(s.ptime.toNat, 0x381, w)] } } ∧
    (let found := Config.freeWord s.free
     let row := (Config.freeWord (s.free + 1)).toNat
     let log (l : List (Nat × Nat)) : List (Nat × Nat × Nat) := e.log ++ ((0x365, 0) :: l).map fun x => (s.ptime.toNat, x.1, x.2)
     ∃ u, exec .scrub s = .next u ∧ u.free = s.free + 2 ∧ u.gddr = s.gddr ∧ u.tiles = s.tiles ∧
       u.ensign = (if bit found 63 = false then { e with log := log [] }
         else if e.rows.length < 256 then { e with rows := e.rows ++ [row], log := log [(0x366, row)] }
         else { e with log := log [(0x1366, row)] }) ∧
       ∀ p id g, s.seg? p id = some g → u.seg? p id = some (
         if bit found 62 = true ∧ p = (fld found 0 16).toNat ∧ id = (fld found 16 32).toNat then { g with bad := true } else g)) ∧
    let most := if (fld s.caps 0 16).toNat ≤ 1024 then 5500 else 10000
    (2000 ≤ w → w ≤ most → ∃ u, exec (.setPowerCap w) s = .next u ∧ u.ensign.cap = w ∧ u.gddr = s.gddr ∧ u.parts = s.parts) ∧
    (w < 2000 ∨ most < w → exec (.setPowerCap w) s = .next s))
end

