-- ==== Sys2Proof/Laws/State.lean ====
section
/-! SUPPORT. The small lemmas of the state: what each update of it leaves in each field, and reading a tile, a context, a
cluster or a partition after one has been written. -/

namespace Sys2Proof.Machine

/-! ### Numbered values -/

@[simp] theorem aget_aput_same {α : Type} (l : List (Nat × α)) (n : Nat) (x d : α) : aget (aput l n x) n d = x := by
  induction l with
  | nil => simp [aput, aget]
  | cons a r ih =>
    obtain ⟨k, v⟩ := a
    simp only [aput]
    split
    · simp [aget]
    · split
      · simp [aget]
      · rename_i h _
        simp [aget, h, ih]

theorem aget_aput_other {α : Type} (l : List (Nat × α)) {n m : Nat} (h : n ≠ m) (x d : α) :
    aget (aput l n x) m d = aget l m d := by
  induction l with
  | nil => simp [aput, aget, h]
  | cons a r ih =>
    obtain ⟨k, v⟩ := a
    simp only [aput]
    split
    · rename_i h2
      subst h2
      simp [aget, h]
    · split
      · simp [aget, h]
      · simp only [aget, ih]

/-- A list without a value for a number gives the default. -/
theorem aget_none {α : Type} {l : List (Nat × α)} {n : Nat} (h : l.all (fun y => y.1 != n) = true) (d : α) :
    aget l n d = d := by
  induction l with
  | nil => rfl
  | cons a r ih =>
    obtain ⟨k, v⟩ := a
    simp only [List.all_cons, Bool.and_eq_true, bne_iff_ne, ne_eq] at h
    simp [aget, h.1, ih h.2]

/-- The first number whose value satisfies `q` is the same after a value is replaced by one that satisfies `q` just
when the old one, or the default in its absence, does. -/
theorem find_aput {α : Type} (q : α → Bool) (l : List (Nat × α)) (n : Nat) (x d : α) (h : q x = q (aget l n d))
    (hd : q d = false) : ((aput l n x).find? fun y => q y.2).map (·.1) = (l.find? fun y => q y.2).map (·.1) := by
  induction l with
  | nil => simp only [aget, hd] at h; simp [aput, h]
  | cons a r ih =>
    obtain ⟨k, v⟩ := a
    simp only [aput, aget] at h ⊢
    by_cases e : k = n
    · subst e
      simp only [if_true] at h ⊢
      cases hv : q v <;> simp [h, hv]
    · simp only [e, if_false] at h ⊢
      split
      · rename_i g
        rw [aget_none g.2, hd] at h
        simp [List.find?_cons_of_neg, h]
      · cases hv : q v <;> simp [hv, ih h]

/-! ### Tiles and contexts -/

@[simp] theorem tile_putTile (s : State) (t : Nat) (x : Tile) : (s.putTile t x).tile t = x := aget_aput_same _ _ _ _
theorem tile_putTile_other (s : State) {t u : Nat} (h : t ≠ u) (x : Tile) : (s.putTile t x).tile u = s.tile u :=
  aget_aput_other _ h _ _
@[simp] theorem tile_modTile (s : State) (t : Nat) (f : Tile → Tile) : (s.modTile t f).tile t = f (s.tile t) :=
  tile_putTile _ _ _
theorem tile_modTile_other (s : State) {t u : Nat} (h : t ≠ u) (f : Tile → Tile) : (s.modTile t f).tile u = s.tile u :=
  tile_putTile_other s h _
@[simp] theorem Tile.ctx_putCtx (t : Tile) (cx : Cx) (c : Ctx) : (t.putCtx cx c).ctx cx = c := by cases cx <;> rfl
@[simp] theorem Tile.ctx_putCtx_other (t : Tile) (cx : Cx) (c : Ctx) : (t.putCtx cx c).ctx cx.other = t.ctx cx.other := by
  cases cx <;> rfl
@[simp] theorem Tile.ctx_modCtx (t : Tile) (cx : Cx) (f : Ctx → Ctx) : (t.modCtx cx f).ctx cx = f (t.ctx cx) :=
  Tile.ctx_putCtx _ _ _
@[simp] theorem ctx_putCtx (s : State) (t : Nat) (cx : Cx) (c : Ctx) : (s.putCtx t cx c).ctx t cx = c := by
  simp [State.ctx, State.putCtx]
@[simp] theorem ctx_putCtx_other (s : State) (t : Nat) (cx : Cx) (c : Ctx) :
    (s.putCtx t cx c).ctx t cx.other = s.ctx t cx.other := by
  simp [State.ctx, State.putCtx]
@[simp] theorem ctx_modCtx (s : State) (t : Nat) (cx : Cx) (f : Ctx → Ctx) : (s.modCtx t cx f).ctx t cx = f (s.ctx t cx) :=
  ctx_putCtx _ _ _ _
theorem ctx_modCtx_other (s : State) {t u : Nat} (h : t ≠ u) (cx cy : Cx) (f : Ctx → Ctx) :
    (s.modCtx t cx f).ctx u cy = s.ctx u cy := by
  simp only [State.ctx, State.modCtx, State.putCtx, tile_putTile_other s h]

/-! ### Clusters and partitions -/

@[simp] theorem cluster_modCluster (s : State) (k : Nat) (f : Cluster → Cluster) :
    (s.modCluster k f).cluster k = f (s.cluster k) := aget_aput_same _ _ _ _
theorem cluster_modCluster_other (s : State) {k j : Nat} (h : k ≠ j) (f : Cluster → Cluster) :
    (s.modCluster k f).cluster j = s.cluster j := aget_aput_other _ h _ _
@[simp] theorem part_modPart (s : State) (p : Nat) (f : Part → Part) : (s.modPart p f).part p = f (s.part p) :=
  aget_aput_same _ _ _ _
theorem part_modPart_other (s : State) {p q : Nat} (h : p ≠ q) (f : Part → Part) : (s.modPart p f).part q = s.part q :=
  aget_aput_other _ h _ _

/-- A change to a partition that leaves its clusters alone leaves every tile in its partition. -/
theorem partOf_modPart (s : State) (p : Nat) (f : Part → Part) (h : (f (s.part p)).clusters = (s.part p).clusters)
    (t : Nat) : (s.modPart p f).partOf t = s.partOf t := by
  have e := find_aput (fun x : Part => x.clusters.contains (clusterOf t)) s.parts p (f (s.part p)) {}
    (by simp only [h]; rfl) (by rfl)
  unfold State.partOf
  show (match (aput s.parts p (f (s.part p))).find? fun y => y.2.clusters.contains (clusterOf t) with
    | some y => y.1
    | none => 0) = _
  generalize (aput s.parts p (f (s.part p))).find? (fun y => y.2.clusters.contains (clusterOf t)) = u at e ⊢
  generalize s.parts.find? (fun y => y.2.clusters.contains (clusterOf t)) = v at e ⊢
  cases u <;> cases v <;> simp_all

/-! ### Fields of the registers of a tile -/

@[simp] theorem Tile.putCtx_flags (t : Tile) (cx : Cx) (c : Ctx) : (t.putCtx cx c).flags = t.flags := by cases cx <;> rfl
@[simp] theorem Tile.putCtx_rq (t : Tile) (cx : Cx) (c : Ctx) : (t.putCtx cx c).rq = t.rq := by cases cx <;> rfl
@[simp] theorem Tile.putCtx_acc (t : Tile) (cx : Cx) (c : Ctx) : (t.putCtx cx c).acc = t.acc := by cases cx <;> rfl
@[simp] theorem Tile.putCtx_banks (t : Tile) (cx : Cx) (c : Ctx) : (t.putCtx cx c).banks = t.banks := by cases cx <;> rfl
@[simp] theorem Tile.putCtx_planes (t : Tile) (cx : Cx) (c : Ctx) : (t.putCtx cx c).planes = t.planes := by cases cx <;> rfl
@[simp] theorem Tile.putCtx_active (t : Tile) (cx : Cx) (c : Ctx) : (t.putCtx cx c).active = t.active := by cases cx <;> rfl
@[simp] theorem Tile.putCtx_latch (t : Tile) (cx : Cx) (c : Ctx) : (t.putCtx cx c).latch = t.latch := by cases cx <;> rfl
@[simp] theorem Tile.putCtx_window (t : Tile) (cx : Cx) (c : Ctx) : (t.putCtx cx c).window = t.window := by cases cx <;> rfl
@[simp] theorem Tile.putCtx_weight (t : Tile) (cx : Cx) (c : Ctx) : (t.putCtx cx c).weight = t.weight := by cases cx <;> rfl
@[simp] theorem Tile.putCtx_ilim (t : Tile) (cx : Cx) (c : Ctx) : (t.putCtx cx c).ilim = t.ilim := by cases cx <;> rfl
@[simp] theorem Tile.putCtx_evec (t : Tile) (cx : Cx) (c : Ctx) : (t.putCtx cx c).evec = t.evec := by cases cx <;> rfl
@[simp] theorem Tile.putCtx_flate (t : Tile) (cx : Cx) (c : Ctx) : (t.putCtx cx c).flate = t.flate := by cases cx <;> rfl
@[simp] theorem Tile.putCtx_eqsel (t : Tile) (cx : Cx) (c : Ctx) : (t.putCtx cx c).eqsel = t.eqsel := by cases cx <;> rfl
@[simp] theorem Tile.putCtx_staging (t : Tile) (cx : Cx) (c : Ctx) : (t.putCtx cx c).staging = t.staging := by cases cx <;> rfl
@[simp] theorem Tile.putCtx_monitor (t : Tile) (cx : Cx) (c : Ctx) : (t.putCtx cx c).monitor = t.monitor := by cases cx <;> rfl
@[simp] theorem Tile.putCtx_seqRun (t : Tile) (cx : Cx) (c : Ctx) : (t.putCtx cx c).seqRun = t.seqRun := by cases cx <;> rfl
@[simp] theorem Tile.putCtx_seqWait (t : Tile) (cx : Cx) (c : Ctx) : (t.putCtx cx c).seqWait = t.seqWait := by cases cx <;> rfl
@[simp] theorem Tile.putCtx_ranges (t : Tile) (cx : Cx) (c : Ctx) : (t.putCtx cx c).ranges = t.ranges := by cases cx <;> rfl
@[simp] theorem Tile.putCtx_move (t : Tile) (cx : Cx) (c : Ctx) : (t.putCtx cx c).move = t.move := by cases cx <;> rfl
@[simp] theorem Tile.putCtx_groups (t : Tile) (cx : Cx) (c : Ctx) : (t.putCtx cx c).groups = t.groups := by cases cx <;> rfl
@[simp] theorem Tile.putCtx_classes (t : Tile) (cx : Cx) (c : Ctx) : (t.putCtx cx c).classes = t.classes := by cases cx <;> rfl
@[simp] theorem Tile.putCtx_handover (t : Tile) (cx : Cx) (c : Ctx) : (t.putCtx cx c).handover = t.handover := by cases cx <;> rfl
@[simp] theorem Tile.putCtx_phys (t : Tile) (cx : Cx) (c : Ctx) : (t.putCtx cx c).phys = t.phys := by cases cx <;> rfl
@[simp] theorem Tile.putCtx_retired (t : Tile) (cx : Cx) (c : Ctx) : (t.putCtx cx c).retired = t.retired := by cases cx <;> rfl
@[simp] theorem Tile.modCtx_flags (t : Tile) (cx : Cx) (f : Ctx → Ctx) : (t.modCtx cx f).flags = t.flags := Tile.putCtx_flags _ _ _
@[simp] theorem Tile.modCtx_rq (t : Tile) (cx : Cx) (f : Ctx → Ctx) : (t.modCtx cx f).rq = t.rq := Tile.putCtx_rq _ _ _
@[simp] theorem Tile.modCtx_acc (t : Tile) (cx : Cx) (f : Ctx → Ctx) : (t.modCtx cx f).acc = t.acc := Tile.putCtx_acc _ _ _
@[simp] theorem Tile.modCtx_banks (t : Tile) (cx : Cx) (f : Ctx → Ctx) : (t.modCtx cx f).banks = t.banks := Tile.putCtx_banks _ _ _
@[simp] theorem Tile.modCtx_planes (t : Tile) (cx : Cx) (f : Ctx → Ctx) : (t.modCtx cx f).planes = t.planes := Tile.putCtx_planes _ _ _
@[simp] theorem Tile.modCtx_active (t : Tile) (cx : Cx) (f : Ctx → Ctx) : (t.modCtx cx f).active = t.active := Tile.putCtx_active _ _ _
@[simp] theorem Tile.modCtx_latch (t : Tile) (cx : Cx) (f : Ctx → Ctx) : (t.modCtx cx f).latch = t.latch := Tile.putCtx_latch _ _ _
@[simp] theorem Tile.modCtx_window (t : Tile) (cx : Cx) (f : Ctx → Ctx) : (t.modCtx cx f).window = t.window := Tile.putCtx_window _ _ _
@[simp] theorem Tile.modCtx_weight (t : Tile) (cx : Cx) (f : Ctx → Ctx) : (t.modCtx cx f).weight = t.weight := Tile.putCtx_weight _ _ _
@[simp] theorem Tile.modCtx_ilim (t : Tile) (cx : Cx) (f : Ctx → Ctx) : (t.modCtx cx f).ilim = t.ilim := Tile.putCtx_ilim _ _ _
@[simp] theorem Tile.modCtx_evec (t : Tile) (cx : Cx) (f : Ctx → Ctx) : (t.modCtx cx f).evec = t.evec := Tile.putCtx_evec _ _ _
@[simp] theorem Tile.modCtx_flate (t : Tile) (cx : Cx) (f : Ctx → Ctx) : (t.modCtx cx f).flate = t.flate := Tile.putCtx_flate _ _ _
@[simp] theorem Tile.modCtx_eqsel (t : Tile) (cx : Cx) (f : Ctx → Ctx) : (t.modCtx cx f).eqsel = t.eqsel := Tile.putCtx_eqsel _ _ _
@[simp] theorem Tile.modCtx_staging (t : Tile) (cx : Cx) (f : Ctx → Ctx) : (t.modCtx cx f).staging = t.staging := Tile.putCtx_staging _ _ _
@[simp] theorem Tile.modCtx_monitor (t : Tile) (cx : Cx) (f : Ctx → Ctx) : (t.modCtx cx f).monitor = t.monitor := Tile.putCtx_monitor _ _ _
@[simp] theorem Tile.modCtx_seqRun (t : Tile) (cx : Cx) (f : Ctx → Ctx) : (t.modCtx cx f).seqRun = t.seqRun := Tile.putCtx_seqRun _ _ _
@[simp] theorem Tile.modCtx_seqWait (t : Tile) (cx : Cx) (f : Ctx → Ctx) : (t.modCtx cx f).seqWait = t.seqWait := Tile.putCtx_seqWait _ _ _
@[simp] theorem Tile.modCtx_ranges (t : Tile) (cx : Cx) (f : Ctx → Ctx) : (t.modCtx cx f).ranges = t.ranges := Tile.putCtx_ranges _ _ _
@[simp] theorem Tile.modCtx_move (t : Tile) (cx : Cx) (f : Ctx → Ctx) : (t.modCtx cx f).move = t.move := Tile.putCtx_move _ _ _
@[simp] theorem Tile.modCtx_groups (t : Tile) (cx : Cx) (f : Ctx → Ctx) : (t.modCtx cx f).groups = t.groups := Tile.putCtx_groups _ _ _
@[simp] theorem Tile.modCtx_classes (t : Tile) (cx : Cx) (f : Ctx → Ctx) : (t.modCtx cx f).classes = t.classes := Tile.putCtx_classes _ _ _
@[simp] theorem Tile.modCtx_handover (t : Tile) (cx : Cx) (f : Ctx → Ctx) : (t.modCtx cx f).handover = t.handover := Tile.putCtx_handover _ _ _
@[simp] theorem Tile.modCtx_phys (t : Tile) (cx : Cx) (f : Ctx → Ctx) : (t.modCtx cx f).phys = t.phys := Tile.putCtx_phys _ _ _
@[simp] theorem Tile.modCtx_retired (t : Tile) (cx : Cx) (f : Ctx → Ctx) : (t.modCtx cx f).retired = t.retired := Tile.putCtx_retired _ _ _

/-! ### What putTile leaves -/

@[simp] theorem putTile_clusters (s : State) (t : Nat) (x : Tile) : (s.putTile t x).clusters = s.clusters := rfl
@[simp] theorem putTile_parts (s : State) (t : Nat) (x : Tile) : (s.putTile t x).parts = s.parts := rfl
@[simp] theorem putTile_code (s : State) (t : Nat) (x : Tile) : (s.putTile t x).code = s.code := rfl
@[simp] theorem putTile_gddr (s : State) (t : Nat) (x : Tile) : (s.putTile t x).gddr = s.gddr := rfl
@[simp] theorem putTile_host (s : State) (t : Nat) (x : Tile) : (s.putTile t x).host = s.host := rfl
@[simp] theorem putTile_caps (s : State) (t : Nat) (x : Tile) : (s.putTile t x).caps = s.caps := rfl
@[simp] theorem putTile_modid (s : State) (t : Nat) (x : Tile) : (s.putTile t x).modid = s.modid := rfl
@[simp] theorem putTile_ptime (s : State) (t : Nat) (x : Tile) : (s.putTile t x).ptime = s.ptime := rfl
@[simp] theorem putTile_ptick (s : State) (t : Nat) (x : Tile) : (s.putTile t x).ptick = s.ptick := rfl
@[simp] theorem putTile_eops (s : State) (t : Nat) (x : Tile) : (s.putTile t x).eops = s.eops := rfl
@[simp] theorem putTile_signals (s : State) (t : Nat) (x : Tile) : (s.putTile t x).signals = s.signals := rfl
@[simp] theorem putTile_sent (s : State) (t : Nat) (x : Tile) : (s.putTile t x).sent = s.sent := rfl
@[simp] theorem putTile_abroad (s : State) (t : Nat) (x : Tile) : (s.putTile t x).abroad = s.abroad := rfl
@[simp] theorem putTile_ports (s : State) (t : Nat) (x : Tile) : (s.putTile t x).ports = s.ports := rfl
@[simp] theorem putTile_ensign (s : State) (t : Nat) (x : Tile) : (s.putTile t x).ensign = s.ensign := rfl
@[simp] theorem putTile_now (s : State) (t : Nat) (x : Tile) : (s.putTile t x).now = s.now := rfl
@[simp] theorem putTile_stage (s : State) (t : Nat) (x : Tile) : (s.putTile t x).stage = s.stage := rfl
@[simp] theorem putTile_work (s : State) (t : Nat) (x : Tile) : (s.putTile t x).work = s.work := rfl
@[simp] theorem putTile_issue (s : State) (t : Nat) (x : Tile) : (s.putTile t x).issue = s.issue := rfl
@[simp] theorem putTile_inputs (s : State) (t : Nat) (x : Tile) : (s.putTile t x).inputs = s.inputs := rfl
@[simp] theorem putTile_free (s : State) (t : Nat) (x : Tile) : (s.putTile t x).free = s.free := rfl
@[simp] theorem putTile_fresh (s : State) (t : Nat) (x : Tile) : (s.putTile t x).fresh = s.fresh := rfl
@[simp] theorem putTile_taken (s : State) (t : Nat) (x : Tile) : (s.putTile t x).taken = s.taken := rfl

/-! ### What modTile leaves -/

@[simp] theorem modTile_clusters (s : State) (t : Nat) (f : Tile → Tile) : (s.modTile t f).clusters = s.clusters := rfl
@[simp] theorem modTile_parts (s : State) (t : Nat) (f : Tile → Tile) : (s.modTile t f).parts = s.parts := rfl
@[simp] theorem modTile_code (s : State) (t : Nat) (f : Tile → Tile) : (s.modTile t f).code = s.code := rfl
@[simp] theorem modTile_gddr (s : State) (t : Nat) (f : Tile → Tile) : (s.modTile t f).gddr = s.gddr := rfl
@[simp] theorem modTile_host (s : State) (t : Nat) (f : Tile → Tile) : (s.modTile t f).host = s.host := rfl
@[simp] theorem modTile_caps (s : State) (t : Nat) (f : Tile → Tile) : (s.modTile t f).caps = s.caps := rfl
@[simp] theorem modTile_modid (s : State) (t : Nat) (f : Tile → Tile) : (s.modTile t f).modid = s.modid := rfl
@[simp] theorem modTile_ptime (s : State) (t : Nat) (f : Tile → Tile) : (s.modTile t f).ptime = s.ptime := rfl
@[simp] theorem modTile_ptick (s : State) (t : Nat) (f : Tile → Tile) : (s.modTile t f).ptick = s.ptick := rfl
@[simp] theorem modTile_eops (s : State) (t : Nat) (f : Tile → Tile) : (s.modTile t f).eops = s.eops := rfl
@[simp] theorem modTile_signals (s : State) (t : Nat) (f : Tile → Tile) : (s.modTile t f).signals = s.signals := rfl
@[simp] theorem modTile_sent (s : State) (t : Nat) (f : Tile → Tile) : (s.modTile t f).sent = s.sent := rfl
@[simp] theorem modTile_abroad (s : State) (t : Nat) (f : Tile → Tile) : (s.modTile t f).abroad = s.abroad := rfl
@[simp] theorem modTile_ports (s : State) (t : Nat) (f : Tile → Tile) : (s.modTile t f).ports = s.ports := rfl
@[simp] theorem modTile_ensign (s : State) (t : Nat) (f : Tile → Tile) : (s.modTile t f).ensign = s.ensign := rfl
@[simp] theorem modTile_now (s : State) (t : Nat) (f : Tile → Tile) : (s.modTile t f).now = s.now := rfl
@[simp] theorem modTile_stage (s : State) (t : Nat) (f : Tile → Tile) : (s.modTile t f).stage = s.stage := rfl
@[simp] theorem modTile_work (s : State) (t : Nat) (f : Tile → Tile) : (s.modTile t f).work = s.work := rfl
@[simp] theorem modTile_issue (s : State) (t : Nat) (f : Tile → Tile) : (s.modTile t f).issue = s.issue := rfl
@[simp] theorem modTile_inputs (s : State) (t : Nat) (f : Tile → Tile) : (s.modTile t f).inputs = s.inputs := rfl
@[simp] theorem modTile_free (s : State) (t : Nat) (f : Tile → Tile) : (s.modTile t f).free = s.free := rfl
@[simp] theorem modTile_fresh (s : State) (t : Nat) (f : Tile → Tile) : (s.modTile t f).fresh = s.fresh := rfl
@[simp] theorem modTile_taken (s : State) (t : Nat) (f : Tile → Tile) : (s.modTile t f).taken = s.taken := rfl

/-! ### What putCtx leaves -/

@[simp] theorem putCtx_clusters (s : State) (t : Nat) (cx : Cx) (c : Ctx) : (s.putCtx t cx c).clusters = s.clusters := rfl
@[simp] theorem putCtx_parts (s : State) (t : Nat) (cx : Cx) (c : Ctx) : (s.putCtx t cx c).parts = s.parts := rfl
@[simp] theorem putCtx_code (s : State) (t : Nat) (cx : Cx) (c : Ctx) : (s.putCtx t cx c).code = s.code := rfl
@[simp] theorem putCtx_gddr (s : State) (t : Nat) (cx : Cx) (c : Ctx) : (s.putCtx t cx c).gddr = s.gddr := rfl
@[simp] theorem putCtx_host (s : State) (t : Nat) (cx : Cx) (c : Ctx) : (s.putCtx t cx c).host = s.host := rfl
@[simp] theorem putCtx_caps (s : State) (t : Nat) (cx : Cx) (c : Ctx) : (s.putCtx t cx c).caps = s.caps := rfl
@[simp] theorem putCtx_modid (s : State) (t : Nat) (cx : Cx) (c : Ctx) : (s.putCtx t cx c).modid = s.modid := rfl
@[simp] theorem putCtx_ptime (s : State) (t : Nat) (cx : Cx) (c : Ctx) : (s.putCtx t cx c).ptime = s.ptime := rfl
@[simp] theorem putCtx_ptick (s : State) (t : Nat) (cx : Cx) (c : Ctx) : (s.putCtx t cx c).ptick = s.ptick := rfl
@[simp] theorem putCtx_eops (s : State) (t : Nat) (cx : Cx) (c : Ctx) : (s.putCtx t cx c).eops = s.eops := rfl
@[simp] theorem putCtx_signals (s : State) (t : Nat) (cx : Cx) (c : Ctx) : (s.putCtx t cx c).signals = s.signals := rfl
@[simp] theorem putCtx_sent (s : State) (t : Nat) (cx : Cx) (c : Ctx) : (s.putCtx t cx c).sent = s.sent := rfl
@[simp] theorem putCtx_abroad (s : State) (t : Nat) (cx : Cx) (c : Ctx) : (s.putCtx t cx c).abroad = s.abroad := rfl
@[simp] theorem putCtx_ports (s : State) (t : Nat) (cx : Cx) (c : Ctx) : (s.putCtx t cx c).ports = s.ports := rfl
@[simp] theorem putCtx_ensign (s : State) (t : Nat) (cx : Cx) (c : Ctx) : (s.putCtx t cx c).ensign = s.ensign := rfl
@[simp] theorem putCtx_now (s : State) (t : Nat) (cx : Cx) (c : Ctx) : (s.putCtx t cx c).now = s.now := rfl
@[simp] theorem putCtx_stage (s : State) (t : Nat) (cx : Cx) (c : Ctx) : (s.putCtx t cx c).stage = s.stage := rfl
@[simp] theorem putCtx_work (s : State) (t : Nat) (cx : Cx) (c : Ctx) : (s.putCtx t cx c).work = s.work := rfl
@[simp] theorem putCtx_issue (s : State) (t : Nat) (cx : Cx) (c : Ctx) : (s.putCtx t cx c).issue = s.issue := rfl
@[simp] theorem putCtx_inputs (s : State) (t : Nat) (cx : Cx) (c : Ctx) : (s.putCtx t cx c).inputs = s.inputs := rfl
@[simp] theorem putCtx_free (s : State) (t : Nat) (cx : Cx) (c : Ctx) : (s.putCtx t cx c).free = s.free := rfl
@[simp] theorem putCtx_fresh (s : State) (t : Nat) (cx : Cx) (c : Ctx) : (s.putCtx t cx c).fresh = s.fresh := rfl
@[simp] theorem putCtx_taken (s : State) (t : Nat) (cx : Cx) (c : Ctx) : (s.putCtx t cx c).taken = s.taken := rfl

/-! ### What modCtx leaves -/

@[simp] theorem modCtx_clusters (s : State) (t : Nat) (cx : Cx) (f : Ctx → Ctx) : (s.modCtx t cx f).clusters = s.clusters := rfl
@[simp] theorem modCtx_parts (s : State) (t : Nat) (cx : Cx) (f : Ctx → Ctx) : (s.modCtx t cx f).parts = s.parts := rfl
@[simp] theorem modCtx_code (s : State) (t : Nat) (cx : Cx) (f : Ctx → Ctx) : (s.modCtx t cx f).code = s.code := rfl
@[simp] theorem modCtx_gddr (s : State) (t : Nat) (cx : Cx) (f : Ctx → Ctx) : (s.modCtx t cx f).gddr = s.gddr := rfl
@[simp] theorem modCtx_host (s : State) (t : Nat) (cx : Cx) (f : Ctx → Ctx) : (s.modCtx t cx f).host = s.host := rfl
@[simp] theorem modCtx_caps (s : State) (t : Nat) (cx : Cx) (f : Ctx → Ctx) : (s.modCtx t cx f).caps = s.caps := rfl
@[simp] theorem modCtx_modid (s : State) (t : Nat) (cx : Cx) (f : Ctx → Ctx) : (s.modCtx t cx f).modid = s.modid := rfl
@[simp] theorem modCtx_ptime (s : State) (t : Nat) (cx : Cx) (f : Ctx → Ctx) : (s.modCtx t cx f).ptime = s.ptime := rfl
@[simp] theorem modCtx_ptick (s : State) (t : Nat) (cx : Cx) (f : Ctx → Ctx) : (s.modCtx t cx f).ptick = s.ptick := rfl
@[simp] theorem modCtx_eops (s : State) (t : Nat) (cx : Cx) (f : Ctx → Ctx) : (s.modCtx t cx f).eops = s.eops := rfl
@[simp] theorem modCtx_signals (s : State) (t : Nat) (cx : Cx) (f : Ctx → Ctx) : (s.modCtx t cx f).signals = s.signals := rfl
@[simp] theorem modCtx_sent (s : State) (t : Nat) (cx : Cx) (f : Ctx → Ctx) : (s.modCtx t cx f).sent = s.sent := rfl
@[simp] theorem modCtx_abroad (s : State) (t : Nat) (cx : Cx) (f : Ctx → Ctx) : (s.modCtx t cx f).abroad = s.abroad := rfl
@[simp] theorem modCtx_ports (s : State) (t : Nat) (cx : Cx) (f : Ctx → Ctx) : (s.modCtx t cx f).ports = s.ports := rfl
@[simp] theorem modCtx_ensign (s : State) (t : Nat) (cx : Cx) (f : Ctx → Ctx) : (s.modCtx t cx f).ensign = s.ensign := rfl
@[simp] theorem modCtx_now (s : State) (t : Nat) (cx : Cx) (f : Ctx → Ctx) : (s.modCtx t cx f).now = s.now := rfl
@[simp] theorem modCtx_stage (s : State) (t : Nat) (cx : Cx) (f : Ctx → Ctx) : (s.modCtx t cx f).stage = s.stage := rfl
@[simp] theorem modCtx_work (s : State) (t : Nat) (cx : Cx) (f : Ctx → Ctx) : (s.modCtx t cx f).work = s.work := rfl
@[simp] theorem modCtx_issue (s : State) (t : Nat) (cx : Cx) (f : Ctx → Ctx) : (s.modCtx t cx f).issue = s.issue := rfl
@[simp] theorem modCtx_inputs (s : State) (t : Nat) (cx : Cx) (f : Ctx → Ctx) : (s.modCtx t cx f).inputs = s.inputs := rfl
@[simp] theorem modCtx_free (s : State) (t : Nat) (cx : Cx) (f : Ctx → Ctx) : (s.modCtx t cx f).free = s.free := rfl
@[simp] theorem modCtx_fresh (s : State) (t : Nat) (cx : Cx) (f : Ctx → Ctx) : (s.modCtx t cx f).fresh = s.fresh := rfl
@[simp] theorem modCtx_taken (s : State) (t : Nat) (cx : Cx) (f : Ctx → Ctx) : (s.modCtx t cx f).taken = s.taken := rfl

/-! ### What modCluster leaves -/

@[simp] theorem modCluster_tiles (s : State) (k : Nat) (f : Cluster → Cluster) : (s.modCluster k f).tiles = s.tiles := rfl
@[simp] theorem modCluster_parts (s : State) (k : Nat) (f : Cluster → Cluster) : (s.modCluster k f).parts = s.parts := rfl
@[simp] theorem modCluster_code (s : State) (k : Nat) (f : Cluster → Cluster) : (s.modCluster k f).code = s.code := rfl
@[simp] theorem modCluster_gddr (s : State) (k : Nat) (f : Cluster → Cluster) : (s.modCluster k f).gddr = s.gddr := rfl
@[simp] theorem modCluster_host (s : State) (k : Nat) (f : Cluster → Cluster) : (s.modCluster k f).host = s.host := rfl
@[simp] theorem modCluster_caps (s : State) (k : Nat) (f : Cluster → Cluster) : (s.modCluster k f).caps = s.caps := rfl
@[simp] theorem modCluster_modid (s : State) (k : Nat) (f : Cluster → Cluster) : (s.modCluster k f).modid = s.modid := rfl
@[simp] theorem modCluster_ptime (s : State) (k : Nat) (f : Cluster → Cluster) : (s.modCluster k f).ptime = s.ptime := rfl
@[simp] theorem modCluster_ptick (s : State) (k : Nat) (f : Cluster → Cluster) : (s.modCluster k f).ptick = s.ptick := rfl
@[simp] theorem modCluster_eops (s : State) (k : Nat) (f : Cluster → Cluster) : (s.modCluster k f).eops = s.eops := rfl
@[simp] theorem modCluster_signals (s : State) (k : Nat) (f : Cluster → Cluster) : (s.modCluster k f).signals = s.signals := rfl
@[simp] theorem modCluster_sent (s : State) (k : Nat) (f : Cluster → Cluster) : (s.modCluster k f).sent = s.sent := rfl
@[simp] theorem modCluster_abroad (s : State) (k : Nat) (f : Cluster → Cluster) : (s.modCluster k f).abroad = s.abroad := rfl
@[simp] theorem modCluster_ports (s : State) (k : Nat) (f : Cluster → Cluster) : (s.modCluster k f).ports = s.ports := rfl
@[simp] theorem modCluster_ensign (s : State) (k : Nat) (f : Cluster → Cluster) : (s.modCluster k f).ensign = s.ensign := rfl
@[simp] theorem modCluster_now (s : State) (k : Nat) (f : Cluster → Cluster) : (s.modCluster k f).now = s.now := rfl
@[simp] theorem modCluster_stage (s : State) (k : Nat) (f : Cluster → Cluster) : (s.modCluster k f).stage = s.stage := rfl
@[simp] theorem modCluster_work (s : State) (k : Nat) (f : Cluster → Cluster) : (s.modCluster k f).work = s.work := rfl
@[simp] theorem modCluster_issue (s : State) (k : Nat) (f : Cluster → Cluster) : (s.modCluster k f).issue = s.issue := rfl
@[simp] theorem modCluster_inputs (s : State) (k : Nat) (f : Cluster → Cluster) : (s.modCluster k f).inputs = s.inputs := rfl
@[simp] theorem modCluster_free (s : State) (k : Nat) (f : Cluster → Cluster) : (s.modCluster k f).free = s.free := rfl
@[simp] theorem modCluster_fresh (s : State) (k : Nat) (f : Cluster → Cluster) : (s.modCluster k f).fresh = s.fresh := rfl
@[simp] theorem modCluster_taken (s : State) (k : Nat) (f : Cluster → Cluster) : (s.modCluster k f).taken = s.taken := rfl

/-! ### What modPart leaves -/

@[simp] theorem modPart_tiles (s : State) (p : Nat) (f : Part → Part) : (s.modPart p f).tiles = s.tiles := rfl
@[simp] theorem modPart_clusters (s : State) (p : Nat) (f : Part → Part) : (s.modPart p f).clusters = s.clusters := rfl
@[simp] theorem modPart_code (s : State) (p : Nat) (f : Part → Part) : (s.modPart p f).code = s.code := rfl
@[simp] theorem modPart_gddr (s : State) (p : Nat) (f : Part → Part) : (s.modPart p f).gddr = s.gddr := rfl
@[simp] theorem modPart_host (s : State) (p : Nat) (f : Part → Part) : (s.modPart p f).host = s.host := rfl
@[simp] theorem modPart_caps (s : State) (p : Nat) (f : Part → Part) : (s.modPart p f).caps = s.caps := rfl
@[simp] theorem modPart_modid (s : State) (p : Nat) (f : Part → Part) : (s.modPart p f).modid = s.modid := rfl
@[simp] theorem modPart_ptime (s : State) (p : Nat) (f : Part → Part) : (s.modPart p f).ptime = s.ptime := rfl
@[simp] theorem modPart_ptick (s : State) (p : Nat) (f : Part → Part) : (s.modPart p f).ptick = s.ptick := rfl
@[simp] theorem modPart_eops (s : State) (p : Nat) (f : Part → Part) : (s.modPart p f).eops = s.eops := rfl
@[simp] theorem modPart_signals (s : State) (p : Nat) (f : Part → Part) : (s.modPart p f).signals = s.signals := rfl
@[simp] theorem modPart_sent (s : State) (p : Nat) (f : Part → Part) : (s.modPart p f).sent = s.sent := rfl
@[simp] theorem modPart_abroad (s : State) (p : Nat) (f : Part → Part) : (s.modPart p f).abroad = s.abroad := rfl
@[simp] theorem modPart_ports (s : State) (p : Nat) (f : Part → Part) : (s.modPart p f).ports = s.ports := rfl
@[simp] theorem modPart_ensign (s : State) (p : Nat) (f : Part → Part) : (s.modPart p f).ensign = s.ensign := rfl
@[simp] theorem modPart_now (s : State) (p : Nat) (f : Part → Part) : (s.modPart p f).now = s.now := rfl
@[simp] theorem modPart_stage (s : State) (p : Nat) (f : Part → Part) : (s.modPart p f).stage = s.stage := rfl
@[simp] theorem modPart_work (s : State) (p : Nat) (f : Part → Part) : (s.modPart p f).work = s.work := rfl
@[simp] theorem modPart_issue (s : State) (p : Nat) (f : Part → Part) : (s.modPart p f).issue = s.issue := rfl
@[simp] theorem modPart_inputs (s : State) (p : Nat) (f : Part → Part) : (s.modPart p f).inputs = s.inputs := rfl
@[simp] theorem modPart_free (s : State) (p : Nat) (f : Part → Part) : (s.modPart p f).free = s.free := rfl
@[simp] theorem modPart_fresh (s : State) (p : Nat) (f : Part → Part) : (s.modPart p f).fresh = s.fresh := rfl
@[simp] theorem modPart_taken (s : State) (p : Nat) (f : Part → Part) : (s.modPart p f).taken = s.taken := rfl

/-! ### What modIssue leaves -/

@[simp] theorem modIssue_tiles (s : State) (f : Issue → Issue) : (s.modIssue f).tiles = s.tiles := rfl
@[simp] theorem modIssue_clusters (s : State) (f : Issue → Issue) : (s.modIssue f).clusters = s.clusters := rfl
@[simp] theorem modIssue_parts (s : State) (f : Issue → Issue) : (s.modIssue f).parts = s.parts := rfl
@[simp] theorem modIssue_code (s : State) (f : Issue → Issue) : (s.modIssue f).code = s.code := rfl
@[simp] theorem modIssue_gddr (s : State) (f : Issue → Issue) : (s.modIssue f).gddr = s.gddr := rfl
@[simp] theorem modIssue_host (s : State) (f : Issue → Issue) : (s.modIssue f).host = s.host := rfl
@[simp] theorem modIssue_caps (s : State) (f : Issue → Issue) : (s.modIssue f).caps = s.caps := rfl
@[simp] theorem modIssue_modid (s : State) (f : Issue → Issue) : (s.modIssue f).modid = s.modid := rfl
@[simp] theorem modIssue_ptime (s : State) (f : Issue → Issue) : (s.modIssue f).ptime = s.ptime := rfl
@[simp] theorem modIssue_ptick (s : State) (f : Issue → Issue) : (s.modIssue f).ptick = s.ptick := rfl
@[simp] theorem modIssue_eops (s : State) (f : Issue → Issue) : (s.modIssue f).eops = s.eops := rfl
@[simp] theorem modIssue_signals (s : State) (f : Issue → Issue) : (s.modIssue f).signals = s.signals := rfl
@[simp] theorem modIssue_sent (s : State) (f : Issue → Issue) : (s.modIssue f).sent = s.sent := rfl
@[simp] theorem modIssue_abroad (s : State) (f : Issue → Issue) : (s.modIssue f).abroad = s.abroad := rfl
@[simp] theorem modIssue_ports (s : State) (f : Issue → Issue) : (s.modIssue f).ports = s.ports := rfl
@[simp] theorem modIssue_ensign (s : State) (f : Issue → Issue) : (s.modIssue f).ensign = s.ensign := rfl
@[simp] theorem modIssue_now (s : State) (f : Issue → Issue) : (s.modIssue f).now = s.now := rfl
@[simp] theorem modIssue_stage (s : State) (f : Issue → Issue) : (s.modIssue f).stage = s.stage := rfl
@[simp] theorem modIssue_work (s : State) (f : Issue → Issue) : (s.modIssue f).work = s.work := rfl
@[simp] theorem modIssue_inputs (s : State) (f : Issue → Issue) : (s.modIssue f).inputs = s.inputs := rfl
@[simp] theorem modIssue_free (s : State) (f : Issue → Issue) : (s.modIssue f).free = s.free := rfl
@[simp] theorem modIssue_fresh (s : State) (f : Issue → Issue) : (s.modIssue f).fresh = s.fresh := rfl
@[simp] theorem modIssue_taken (s : State) (f : Issue → Issue) : (s.modIssue f).taken = s.taken := rfl

/-! ### What logEvent leaves -/

@[simp] theorem logEvent_tiles (s : State) (k n : Nat) : (s.logEvent k n).tiles = s.tiles := rfl
@[simp] theorem logEvent_clusters (s : State) (k n : Nat) : (s.logEvent k n).clusters = s.clusters := rfl
@[simp] theorem logEvent_parts (s : State) (k n : Nat) : (s.logEvent k n).parts = s.parts := rfl
@[simp] theorem logEvent_code (s : State) (k n : Nat) : (s.logEvent k n).code = s.code := rfl
@[simp] theorem logEvent_gddr (s : State) (k n : Nat) : (s.logEvent k n).gddr = s.gddr := rfl
@[simp] theorem logEvent_host (s : State) (k n : Nat) : (s.logEvent k n).host = s.host := rfl
@[simp] theorem logEvent_caps (s : State) (k n : Nat) : (s.logEvent k n).caps = s.caps := rfl
@[simp] theorem logEvent_modid (s : State) (k n : Nat) : (s.logEvent k n).modid = s.modid := rfl
@[simp] theorem logEvent_ptime (s : State) (k n : Nat) : (s.logEvent k n).ptime = s.ptime := rfl
@[simp] theorem logEvent_ptick (s : State) (k n : Nat) : (s.logEvent k n).ptick = s.ptick := rfl
@[simp] theorem logEvent_eops (s : State) (k n : Nat) : (s.logEvent k n).eops = s.eops := rfl
@[simp] theorem logEvent_signals (s : State) (k n : Nat) : (s.logEvent k n).signals = s.signals := rfl
@[simp] theorem logEvent_sent (s : State) (k n : Nat) : (s.logEvent k n).sent = s.sent := rfl
@[simp] theorem logEvent_abroad (s : State) (k n : Nat) : (s.logEvent k n).abroad = s.abroad := rfl
@[simp] theorem logEvent_ports (s : State) (k n : Nat) : (s.logEvent k n).ports = s.ports := rfl
@[simp] theorem logEvent_now (s : State) (k n : Nat) : (s.logEvent k n).now = s.now := rfl
@[simp] theorem logEvent_stage (s : State) (k n : Nat) : (s.logEvent k n).stage = s.stage := rfl
@[simp] theorem logEvent_work (s : State) (k n : Nat) : (s.logEvent k n).work = s.work := rfl
@[simp] theorem logEvent_issue (s : State) (k n : Nat) : (s.logEvent k n).issue = s.issue := rfl
@[simp] theorem logEvent_inputs (s : State) (k n : Nat) : (s.logEvent k n).inputs = s.inputs := rfl
@[simp] theorem logEvent_free (s : State) (k n : Nat) : (s.logEvent k n).free = s.free := rfl
@[simp] theorem logEvent_fresh (s : State) (k n : Nat) : (s.logEvent k n).fresh = s.fresh := rfl
@[simp] theorem logEvent_taken (s : State) (k n : Nat) : (s.logEvent k n).taken = s.taken := rfl

/-! ### The bundle in progress, the log and the counters -/

@[simp] theorem modIssue_issue (s : State) (f : Issue → Issue) : (s.modIssue f).issue = s.issue.map f := rfl
@[simp] theorem modIssue_tile (s : State) (f : Issue → Issue) (t : Nat) : (s.modIssue f).tile t = s.tile t := rfl
@[simp] theorem modIssue_ctx (s : State) (f : Issue → Issue) (t : Nat) (cx : Cx) : (s.modIssue f).ctx t cx = s.ctx t cx := rfl
@[simp] theorem modIssue_part (s : State) (f : Issue → Issue) (p : Nat) : (s.modIssue f).part p = s.part p := rfl
@[simp] theorem modIssue_cluster (s : State) (f : Issue → Issue) (k : Nat) : (s.modIssue f).cluster k = s.cluster k := rfl
@[simp] theorem modTile_part (s : State) (t : Nat) (f : Tile → Tile) (p : Nat) : (s.modTile t f).part p = s.part p := rfl
@[simp] theorem modCtx_part (s : State) (t : Nat) (cx : Cx) (f : Ctx → Ctx) (p : Nat) : (s.modCtx t cx f).part p = s.part p := rfl
@[simp] theorem modPart_tile (s : State) (p : Nat) (f : Part → Part) (t : Nat) : (s.modPart p f).tile t = s.tile t := rfl
@[simp] theorem modPart_ctx (s : State) (p : Nat) (f : Part → Part) (t : Nat) (cx : Cx) : (s.modPart p f).ctx t cx = s.ctx t cx := rfl
@[simp] theorem logEvent_tile (s : State) (k n t : Nat) : (s.logEvent k n).tile t = s.tile t := rfl
@[simp] theorem logEvent_part (s : State) (k n p : Nat) : (s.logEvent k n).part p = s.part p := rfl
@[simp] theorem partOf_modTile (s : State) (t : Nat) (f : Tile → Tile) (u : Nat) : (s.modTile t f).partOf u = s.partOf u := rfl
@[simp] theorem partOf_modCtx (s : State) (t : Nat) (cx : Cx) (f : Ctx → Ctx) (u : Nat) : (s.modCtx t cx f).partOf u = s.partOf u := rfl
@[simp] theorem partOf_modIssue (s : State) (f : Issue → Issue) (u : Nat) : (s.modIssue f).partOf u = s.partOf u := rfl
@[simp] theorem next_fst (s : State) : s.next.1 = s.fresh := rfl
@[simp] theorem next_snd (s : State) : s.next.2 = { s with fresh := s.fresh + 1 } := rfl
@[simp] theorem duration_snd (s : State) : s.duration.2 = { s with free := s.free + 1 } := rfl
@[simp] theorem freeWord_snd (s : State) : s.freeWord.2 = { s with free := s.free + 1 } := rfl

end Sys2Proof.Machine
end

