-- ==== Sys2Proof/Laws/Frames.lean ====
section
/-! SUPPORT. All that the operations over planned work, lanes, faults, walkers and ports can change: one frame
each. -/

namespace Sys2Proof.Machine

/-! ### Planned work -/

theorem aput_listed {α : Type} (l : List (Nat × α)) (n : Nat) (x : α) : ((aput l n x).all fun y => y.1 != n) = false := by
  induction l with
  | nil => simp [aput]
  | cons a r ih =>
    obtain ⟨k, v⟩ := a
    simp only [aput]
    split
    · simp
    · split
      · simp
      · simp [ih]

theorem aput_aput {α : Type} (l : List (Nat × α)) (n : Nat) (x y : α) : aput (aput l n x) n y = aput l n y := by
  induction l with
  | nil => simp [aput]
  | cons a r ih =>
    obtain ⟨k, v⟩ := a
    by_cases e : k = n
    · subst e; simp [aput]
    · by_cases h : n < k ∧ (r.all fun y => y.1 != n) = true
      · simp [aput, e, h]
      · rw [aput, if_neg e, if_neg h, aput, if_neg e, if_neg (by simp [aput_listed]), ih, aput, if_neg e, if_neg h]

theorem foldl_unbid (l : List Work) (x : Tile) :
    ∃ c w, l.foldl (fun x w => x.unbid w.bid) x = { x with classes := c, weight := w } := by
  induction l generalizing x with
  | nil => exact ⟨x.classes, x.weight, rfl⟩
  | cons a r ih =>
    obtain ⟨c, w, h⟩ := ih (x.unbid a.bid)
    exact ⟨c, w, h⟩

/-- Dropping the work of a context changes the list of works, and the classes and the weight of its tile. -/
theorem dropWork_frame (s : State) (t : Nat) (cx : Cx) : ∃ c w, s.dropWork t cx =
    State.modTile { s with work := s.work.filter fun w => !w.of t cx } t fun x => { x with classes := c, weight := w } := by
  obtain ⟨c, w, h⟩ := foldl_unbid (s.work.filter (·.of t cx)) (s.tile t)
  refine ⟨c, w, ?_⟩
  show State.putTile _ _ _ = State.putTile _ _ _
  exact congrArg _ h

@[simp] theorem dropWork_ctx (s : State) (t : Nat) (cx : Cx) (u : Nat) (cy : Cx) : (s.dropWork t cx).ctx u cy = s.ctx u cy := by
  obtain ⟨c, w, h⟩ := dropWork_frame s t cx
  rw [h]
  by_cases e : t = u
  · subst e
    simp only [State.ctx, tile_modTile]
    cases cy <;> rfl
  · simp only [State.ctx, tile_modTile_other _ e]
    rfl

/-- Where a context has no work planned, its own change is all. -/
theorem dropWork_modTile {s : State} {t : Nat} {cx : Cx} (h : ∀ w ∈ s.work, w.of t cx = false) (f : Tile → Tile) :
    (s.dropWork t cx).modTile t f = s.modTile t f := by
  have h1 : s.work.filter (fun w => !w.of t cx) = s.work := List.filter_eq_self.2 fun w hw => by simp [h w hw]
  have h2 : s.work.filter (·.of t cx) = [] := List.filter_eq_nil_iff.2 fun w hw => by simp [h w hw]
  unfold State.dropWork
  rw [h1, h2]
  simp only [List.foldl_nil, State.modTile, State.putTile, State.tile, aget_aput_same, aput_aput]

/-! ### Lanes -/

theorem aget_mapVal {α : Type} (l : List (Nat × α)) (g : α → α) (n : Nat) {d : α} (h : g d = d) :
    aget (l.map fun x => (x.1, g x.2)) n d = g (aget l n d) := by
  induction l with
  | nil => simp [aget, h]
  | cons a r ih => by_cases e : a.1 = n <;> simp [aget, e, ih]

/-- A change to a lane reaches the primaries that run it, and nothing else of them than their record of it. -/
theorem modLane_tile (s : State) (l : Lane) (f : Lane → Lane) (t : Nat) : (s.modLane l f).tile t =
    if (s.ctx t .p).inLane l = true then (s.tile t).modCtx .p fun c => { c with lane := c.lane.map f } else s.tile t := by
  have e := aget_mapVal s.tiles
    (fun x => if x.p.inLane l = true then x.modCtx .p fun c => { c with lane := c.lane.map f } else x) t (d := {}) rfl
  refine Eq.trans ?_ e
  show aget _ _ _ = _
  refine congrArg (fun l : List (Nat × Tile) => aget l t ({} : Tile)) (List.map_congr_left fun x _ => ?_)
  split <;> rfl

/-- The fields that a change to a lane leaves. -/
theorem modLane_frame (s : State) (l : Lane) (f : Lane → Lane) : s.modLane l f = { s with tiles := (s.modLane l f).tiles } := rfl

/-! ### Faults of a core cycle -/

/-- Noting the faults of a core cycle changes contexts and launches alone (R320). -/
theorem noteFaults_frame (s : State) : s.noteFaults = { s with tiles := s.noteFaults.tiles, parts := s.noteFaults.parts } := by
  unfold State.noteFaults
  generalize s.allCtxs = l
  induction l generalizing s with
  | nil => rfl
  | cons a r ih =>
    simp only [List.foldl_cons]
    rw [ih]
    cases (s.ctx a.1 a.2).newFault with
    | none => rfl
    | some k => cases (s.ctx a.1 a.2).task.bind (s.task? (s.partOf a.1)) <;> rfl

/-! ### Reads of walkers -/

/-- The reads of a walker change nothing but the log (R355). -/
theorem logReads_frame (s : State) (p : Nat) (as : List Nat) :
    s.logReads p as = { s with ensign := { s.ensign with log := (s.logReads p as).ensign.log } } := by
  unfold State.logReads
  induction as generalizing s with
  | nil => rfl
  | cons a r ih =>
    simp only [List.foldl_cons]
    rw [ih]
    split <;> rfl

/-! ### Pennant ports -/

/-- What leaves for another module changes the traffic, what happened before it, and the ports (R261, R373). -/
theorem sendOut_frame (s : State) (m : Sent) (k : Clock) : s.sendOut m k =
    { s with sent := s.sent ++ [m], abroad := clockJoin s.abroad k, ports := (s.sendOut m k).ports } := by
  unfold State.sendOut State.modPort
  split <;> rfl

/-- Flits for which there is no room wait; a port without waiting flits is as it was. -/
theorem fill_full {p : Port} (h : (p.trained && decide (p.replay.length < 1024)) = false) (ds : List (List Byte)) :
    p.fill ds = { p with waiting := ds } := by
  cases ds <;> simp [Port.fill, h]

/-- A flit before its CRC is 252 bytes, whatever its payload (R372). -/
@[simp] theorem flitBody_length (n : BitVec 12) (data : List Byte) : (flitBody n data).length = 252 := by
  simp [flitBody, natBytes]

theorem pump_idle {p : Port} (h : p.waiting = []) : p.pump = p := by
  cases p
  simp_all [Port.pump, Port.fill]

end Sys2Proof.Machine
end

