-- ==== Sys2Proof/Laws/Memory.lean ====
section
/-! SUPPORT. Memory: every operation on it keeps the canonical form, a byte that has been written is read back, and no
other byte changes. -/

namespace Sys2Proof.Machine

/-! ### The canonical form -/

/-- The canonical form, said of all entries at once. -/
theorem wf_iff (m : Memory) :
    m.wf = true ↔ m.Pairwise (fun a b => a.1 < b.1) ∧ ∀ c ∈ m, c.2 ≠ Memory.blank := by
  induction m with
  | nil => simp [Memory.wf]
  | cons x r ih =>
    obtain ⟨a, b⟩ := x
    cases r with
    | nil => simp [Memory.wf]
    | cons y q =>
      obtain ⟨c, d⟩ := y
      simp only [Memory.wf, Bool.and_eq_true, decide_eq_true_eq, bne_iff_ne, ne_eq, ih]
      constructor
      · rintro ⟨⟨hb, hac⟩, hp, hn⟩
        refine ⟨List.pairwise_cons.2 ⟨?_, hp⟩, ?_⟩
        · intro z hz
          rcases List.mem_cons.1 hz with rfl | hz
          · exact hac
          · exact Nat.lt_trans hac ((List.pairwise_cons.1 hp).1 z hz)
        · intro z hz
          rcases List.mem_cons.1 hz with rfl | hz
          · exact hb
          · exact hn z hz
      · rintro ⟨hp, hn⟩
        have hp' := List.pairwise_cons.1 hp
        exact ⟨⟨hn _ (List.mem_cons_self ..), hp'.1 _ (List.mem_cons_self ..)⟩, hp'.2,
          fun z hz => hn z (List.mem_cons_of_mem _ hz)⟩

/-- What a written memory lists was listed before or is what was written. -/
theorem mem_write {m : Memory} {a : Nat} {x : Byte} {c : Host.Cell} (h : c ∈ m.write a x) :
    c ∈ m ∨ c = (a, x) ∧ x ≠ Memory.blank := by
  induction m with
  | nil =>
    simp only [Memory.write] at h
    split at h <;> simp_all
  | cons y r ih =>
    obtain ⟨k, b⟩ := y
    simp only [Memory.write] at h
    split at h
    · split at h
      · exact .inl h
      · rcases List.mem_cons.1 h with rfl | h
        · exact .inr ⟨rfl, by assumption⟩
        · exact .inl h
    · split at h
      · rename_i hak
        subst hak
        split at h
        · exact .inl (List.mem_cons_of_mem _ h)
        · rcases List.mem_cons.1 h with rfl | h
          · exact .inr ⟨rfl, by assumption⟩
          · exact .inl (List.mem_cons_of_mem _ h)
      · rcases List.mem_cons.1 h with rfl | h
        · exact .inl (List.mem_cons_self ..)
        · rcases ih h with h | h
          · exact .inl (List.mem_cons_of_mem _ h)
          · exact .inr h

/-- A write keeps the canonical form. -/
theorem write_wf (m : Memory) (a : Nat) (x : Byte) (h : m.wf = true) : (m.write a x).wf = true := by
  rw [wf_iff] at h ⊢
  refine ⟨?_, ?_⟩
  · obtain ⟨hp, -⟩ := h
    induction m with
    | nil => simp only [Memory.write]; split <;> simp
    | cons y r ih =>
      obtain ⟨k, b⟩ := y
      obtain ⟨h1, h2⟩ := List.pairwise_cons.1 hp
      simp only [Memory.write]
      split
      · rename_i hak
        split
        · exact hp
        · refine List.pairwise_cons.2 ⟨fun z hz => ?_, hp⟩
          rcases List.mem_cons.1 hz with rfl | hz
          · exact hak
          · exact Nat.lt_trans hak (h1 z hz)
      · split
        · split
          · exact h2
          · exact List.pairwise_cons.2 ⟨h1, h2⟩
        · rename_i hn1 hn2
          refine List.pairwise_cons.2 ⟨fun z hz => ?_, ih h2⟩
          rcases mem_write hz with hz | ⟨rfl, -⟩
          · exact h1 z hz
          · show k < a; omega
  · intro c hc
    rcases mem_write hc with hc | ⟨rfl, hx⟩
    · exact h.2 c hc
    · exact hx

/-- Stored bytes keep the canonical form. -/
theorem store_wf (bs : List Byte) (m : Memory) (a : Nat) (h : m.wf = true) : (m.store a bs).wf = true := by
  induction bs generalizing m a with
  | nil => exact h
  | cons b r ih => exact ih _ _ (write_wf m a b h)

/-- A stored number keeps the canonical form. -/
theorem storeNat_wf (m : Memory) (a n v : Nat) (h : m.wf = true) : (m.storeNat a n v).wf = true := store_wf _ _ _ h

/-- The memories of the reset state have the canonical form. -/
theorem reset_wf : State.reset.code.wf = true ∧ State.reset.gddr.wf = true ∧ State.reset.host.wf = true := by decide

/-! ### Reading what has been written -/

/-- Below the first entry of a canonical memory nothing is listed. -/
theorem read_below {m : Memory} {a : Nat} (h : ∀ c ∈ m, a < c.1) : m.read a = Memory.blank := by
  induction m with
  | nil => rfl
  | cons y r ih =>
    have h0 := h y (List.mem_cons_self ..)
    simp only [Memory.read]
    rw [if_neg (by omega)]
    exact ih fun c hc => h c (List.mem_cons_of_mem _ hc)

/-- A byte that has been written is read back. -/
theorem read_write_same (m : Memory) (a : Nat) (x : Byte) (h : m.wf = true) : (m.write a x).read a = x := by
  obtain ⟨hp, -⟩ := (wf_iff m).1 h
  induction m with
  | nil => simp only [Memory.write]; split <;> simp_all [Memory.read]
  | cons y r ih =>
    obtain ⟨k, b⟩ := y
    obtain ⟨h1, h2⟩ := List.pairwise_cons.1 hp
    have hr : Memory.wf r = true := (wf_iff r).2 ⟨h2, fun c hc => ((wf_iff _).1 h).2 c (List.mem_cons_of_mem _ hc)⟩
    simp only [Memory.write]
    split
    · rename_i hak
      split
      · rename_i hx
        rw [hx]
        refine read_below fun c hc => ?_
        rcases List.mem_cons.1 hc with rfl | hc
        · exact hak
        · exact Nat.lt_trans hak (h1 c hc)
      · simp [Memory.read]
    · split
      · rename_i hak
        subst hak
        split
        · rename_i hx; rw [hx]; exact read_below h1
        · simp [Memory.read]
      · rename_i hak
        simp only [Memory.read, if_neg hak]
        exact ih hr h2

/-- A write leaves every other byte as it was. -/
theorem read_write_other (m : Memory) {a c : Nat} (x : Byte) (hne : c ≠ a) : (m.write a x).read c = m.read c := by
  induction m with
  | nil => simp only [Memory.write]; split <;> simp [Memory.read, hne]
  | cons y r ih =>
    obtain ⟨k, b⟩ := y
    simp only [Memory.write]
    split
    · split
      · rfl
      · simp [Memory.read, hne]
    · split
      · rename_i hak
        subst hak
        split <;> simp [Memory.read, hne]
      · simp only [Memory.read, ih]

/-- Stored bytes leave every byte outside them as it was. -/
theorem read_store_other (bs : List Byte) (m : Memory) (a c : Nat) (h : c < a ∨ a + bs.length ≤ c) :
    (m.store a bs).read c = m.read c := by
  induction bs generalizing m a with
  | nil => rfl
  | cons b r ih =>
    simp only [List.length_cons] at h
    simp only [Memory.store]
    rw [ih _ _ (by omega), read_write_other m b (by omega)]

/-- Each stored byte is read back. -/
theorem read_store_inside (bs : List Byte) (m : Memory) (a k : Nat) (hm : m.wf = true) (h : k < bs.length) :
    (m.store a bs).read (a + k) = bs[k] := by
  induction bs generalizing m a k with
  | nil => simp at h
  | cons b r ih =>
    simp only [Memory.store]
    cases k with
    | zero => rw [read_store_other _ _ _ _ (by omega)]; simpa using read_write_same m a b hm
    | succ k =>
      have := ih (m.write a b) (a + 1) k (write_wf m a b hm) (by simpa using h)
      simpa [Nat.add_assoc, Nat.add_comm 1 k] using this

/-- Stored bytes are read back in their order. -/
theorem bytes_store (bs : List Byte) (m : Memory) (a : Nat) (hm : m.wf = true) : (m.store a bs).bytes a bs.length = bs := by
  have key : ∀ (n : Nat) (q : Memory) (b : Nat), q.bytes b n = (List.range n).map fun k => q.read (b + k) := by
    intro n
    induction n with
    | zero => intro q b; rfl
    | succ n ih =>
      intro q b
      rw [Memory.bytes, ih, List.range_succ_eq_map, List.map_cons, List.map_map, Nat.add_zero]
      refine congrArg (q.read b :: ·) (List.map_congr_left fun k _ => ?_)
      show q.read (b + 1 + k) = q.read (b + (k + 1))
      rw [Nat.add_assoc, Nat.add_comm 1 k]
  rw [key]
  refine List.ext_getElem (by simp) fun k h1 h2 => ?_
  rw [List.getElem_map, List.getElem_range]
  exact read_store_inside bs m a k hm h2

end Sys2Proof.Machine
end

