-- ==== Sys2Proof/Laws/Segments.lean ====
section
/-! SUPPORT. What the operations on the directory of segments leave (`putSeg`, `modSeg`, `dropSeg`), what the history
operations leave of a segment (`enter`, `mark`), and the growth of clocks. -/

namespace Sys2Proof.Machine

/-! ### The directory -/

/-- A segment that is found has the id it was sought by, and is live. -/
theorem seg?_some {s : State} {p id : Nat} {g : Seg} (h : s.seg? p id = some g) : g.id = id ∧ g.valid = true := by
  have e := List.find?_some h
  simpa using e

theorem find_putEntry_same (g : Seg) (l : List Seg) (hv : g.valid = true) :
    (putEntry g l).find? (fun x => x.id == g.id && x.valid) = some g := by
  induction l with
  | nil => simp [putEntry, hv]
  | cons x r ih =>
    simp only [putEntry]
    split
    · simp [hv]
    · split
      · simp [hv]
      · rename_i h
        simp [h, ih]

theorem find_putEntry_other (g : Seg) (l : List Seg) {k : Nat} (h : k ≠ g.id) :
    (putEntry g l).find? (fun x => x.id == k && x.valid) = l.find? (fun x => x.id == k && x.valid) := by
  have hg : (g.id == k && g.valid) = false := by simp [Ne.symm h]
  induction l with
  | nil => simp [putEntry, hg]
  | cons x r ih =>
    simp only [putEntry]
    split
    · simp [List.find?_cons, hg]
    · split
      · rename_i e
        have hx : (x.id == k && x.valid) = false := by simp [e, Ne.symm h]
        simp [hg, hx]
      · simp [List.find?_cons, ih]

/-- A segment that has been put is found. -/
theorem seg?_putSeg (s : State) (p : Nat) (g : Seg) (hv : g.valid = true) : (s.putSeg p g).seg? p g.id = some g := by
  simp only [State.seg?, State.putSeg, part_modPart, find_putEntry_same g _ hv]

/-- Putting a segment leaves every other one. -/
theorem seg?_putSeg_other (s : State) {p q k : Nat} (g : Seg) (h : q ≠ p ∨ k ≠ g.id) :
    (s.putSeg p g).seg? q k = s.seg? q k := by
  by_cases e : q = p
  · subst e
    simp only [State.seg?, State.putSeg, part_modPart]
    exact find_putEntry_other g _ (h.resolve_left fun c => c rfl)
  · simp only [State.seg?, State.putSeg, part_modPart_other s (Ne.symm e)]

theorem find_map_entry (l : List Seg) (id k : Nat) (f : Seg → Seg)
    (hf : ∀ g : Seg, g.id = id → (f g).id = id ∧ (f g).valid = g.valid) :
    (l.map fun g => if g.id = id then f g else g).find? (fun x => x.id == k && x.valid) =
      (l.find? fun x => x.id == k && x.valid).map fun g => if g.id = id then f g else g := by
  induction l with
  | nil => rfl
  | cons x r ih =>
    have hx : ((if x.id = id then f x else x).id == k && (if x.id = id then f x else x).valid) =
        (x.id == k && x.valid) := by
      split
      · rename_i e
        rw [(hf x e).1, (hf x e).2, e]
      · rfl
    cases hc : (x.id == k && x.valid) <;> simp [hx, hc, ih]

/-- A change to a segment that keeps its id and its presence is found. -/
theorem seg?_modSeg (s : State) (p id : Nat) (f : Seg → Seg)
    (hf : ∀ g : Seg, g.id = id → (f g).id = id ∧ (f g).valid = g.valid) :
    (s.modSeg p id f).seg? p id = (s.seg? p id).map f := by
  simp only [State.seg?, State.modSeg, part_modPart]
  rw [find_map_entry _ _ _ _ hf]
  cases h : (s.part p).dir.find? fun x => x.id == id && x.valid with
  | none => rfl
  | some g =>
    have e : g.id = id := by have := List.find?_some h; simp_all
    simp [e]

/-- A change to a segment leaves every other one. -/
theorem seg?_modSeg_other (s : State) {p q id k : Nat} (f : Seg → Seg)
    (hf : ∀ g : Seg, g.id = id → (f g).id = id ∧ (f g).valid = g.valid) (h : q ≠ p ∨ k ≠ id) :
    (s.modSeg p id f).seg? q k = s.seg? q k := by
  by_cases e : q = p
  · subst e
    have hk := h.resolve_left fun c => c rfl
    simp only [State.seg?, State.modSeg, part_modPart]
    rw [find_map_entry _ _ _ _ hf]
    cases h : (s.part q).dir.find? fun x => x.id == k && x.valid with
    | none => rfl
    | some g =>
      have e : g.id = k := by have := List.find?_some h; simp_all
      simp [e, hk]
  · simp only [State.seg?, State.modSeg, part_modPart_other s (Ne.symm e)]

/-- A segment that has been dropped is gone. -/
theorem seg?_dropSeg (s : State) (p id : Nat) : (s.dropSeg p id).seg? p id = none := by
  simp only [State.seg?, State.dropSeg, part_modPart, List.find?_eq_none]
  intro x hx
  have := (List.mem_filter.1 hx).2
  simp_all

/-- Dropping a segment leaves every other one. -/
theorem seg?_dropSeg_other (s : State) {p q id k : Nat} (h : q ≠ p ∨ k ≠ id) :
    (s.dropSeg p id).seg? q k = s.seg? q k := by
  by_cases e : q = p
  · subst e
    have hk := h.resolve_left fun c => c rfl
    simp only [State.seg?, State.dropSeg, part_modPart]
    induction (s.part q).dir with
    | nil => rfl
    | cons x r ih =>
      by_cases hx : x.id = id
      · simp [hx, ih, Ne.symm hk]
      · simp [hx, List.find?_cons, ih]
  · simp only [State.seg?, State.dropSeg, part_modPart_other s (Ne.symm e)]

/-! ### Tiles and partitions stay -/

@[simp] theorem partOf_putSeg (s : State) (p : Nat) (g : Seg) (t : Nat) : (s.putSeg p g).partOf t = s.partOf t :=
  partOf_modPart s p _ rfl t
@[simp] theorem partOf_modSeg (s : State) (p id : Nat) (f : Seg → Seg) (t : Nat) : (s.modSeg p id f).partOf t = s.partOf t :=
  partOf_modPart s p _ rfl t
@[simp] theorem partOf_dropSeg (s : State) (p id : Nat) (t : Nat) : (s.dropSeg p id).partOf t = s.partOf t :=
  partOf_modPart s p _ rfl t
@[simp] theorem putSeg_tiles (s : State) (p : Nat) (g : Seg) : (s.putSeg p g).tiles = s.tiles := rfl
@[simp] theorem modSeg_tiles (s : State) (p id : Nat) (f : Seg → Seg) : (s.modSeg p id f).tiles = s.tiles := rfl
@[simp] theorem dropSeg_tiles (s : State) (p id : Nat) : (s.dropSeg p id).tiles = s.tiles := rfl
@[simp] theorem putSeg_issue (s : State) (p : Nat) (g : Seg) : (s.putSeg p g).issue = s.issue := rfl
@[simp] theorem modSeg_issue (s : State) (p id : Nat) (f : Seg → Seg) : (s.modSeg p id f).issue = s.issue := rfl
@[simp] theorem dropSeg_issue (s : State) (p id : Nat) : (s.dropSeg p id).issue = s.issue := rfl

/-! ### Histories and marks -/

/-- Entering an access changes the history of a segment and nothing else. -/
theorem enter_same (g : Seg) (lines : List Nat) (a : Acc) : ∃ h, (g.enter lines a).1 = { g with hist := h } := by
  have key : ∀ (l : List Nat) (q : Seg) (k : Clock), (∃ h, q = { g with hist := h }) →
      ∃ h, (l.foldl (fun (x : Seg × Clock) n =>
        ({ x.1 with hist := putLine (((x.1.line n).tell a).add a) x.1.hist }, clockJoin x.2 ((x.1.line n).pub.getD [])))
        (q, k)).1 = { g with hist := h } := by
    intro l
    induction l with
    | nil => intro q k h; exact h
    | cons n r ih =>
      rintro q k ⟨h, rfl⟩
      exact ih _ _ ⟨_, rfl⟩
  exact key lines g [] ⟨g.hist, rfl⟩

@[simp] theorem enter_bytes (g : Seg) (lines : List Nat) (a : Acc) : (g.enter lines a).1.bytes = g.bytes := by
  obtain ⟨h, e⟩ := enter_same g lines a; rw [e]
@[simp] theorem enter_id (g : Seg) (lines : List Nat) (a : Acc) : (g.enter lines a).1.id = g.id := by
  obtain ⟨h, e⟩ := enter_same g lines a; rw [e]
@[simp] theorem enter_valid (g : Seg) (lines : List Nat) (a : Acc) : (g.enter lines a).1.valid = g.valid := by
  obtain ⟨h, e⟩ := enter_same g lines a; rw [e]
@[simp] theorem enter_shadow (g : Seg) (lines : List Nat) (a : Acc) : (g.enter lines a).1.shadow = g.shadow := by
  obtain ⟨h, e⟩ := enter_same g lines a; rw [e]
@[simp] theorem mark_bytes (g : Seg) (lines : List Nat) (w : Bool) : (g.mark lines w).bytes = g.bytes := rfl
@[simp] theorem mark_id (g : Seg) (lines : List Nat) (w : Bool) : (g.mark lines w).id = g.id := rfl
@[simp] theorem mark_valid (g : Seg) (lines : List Nat) (w : Bool) : (g.mark lines w).valid = g.valid := rfl

/-! ### Clocks -/

/-- A join never forgets what its first clock has seen (R256). -/
theorem clockGet_join (c d : Clock) (n : Nat) : clockGet c n ≤ clockGet (clockJoin c d) n := by
  unfold clockJoin
  induction d generalizing c with
  | nil => exact Nat.le_refl _
  | cons x r ih =>
    refine Nat.le_trans ?_ (ih _)
    dsimp only
    split
    · rename_i h
      by_cases e : x.1 = n
      · subst e
        simp only [clockGet, aget_aput_same]
        exact Nat.le_of_lt h
      · simp only [clockGet, aget_aput_other _ e]
        exact Nat.le_refl _
    · exact Nat.le_refl _

/-- A join has seen what its second clock says of every agent (R256). -/
theorem clockGet_join_mem (c d : Clock) {x : Nat × Nat} (h : x ∈ d) : x.2 ≤ clockGet (clockJoin c d) x.1 := by
  induction d generalizing c with
  | nil => cases h
  | cons y r ih =>
    rcases List.mem_cons.1 h with e | e
    · subst e
      refine Nat.le_trans ?_ (clockGet_join _ r x.1)
      dsimp only
      split
      · simp [clockGet]
      · rename_i h; exact Nat.le_of_not_lt h
    · exact ih _ e

end Sys2Proof.Machine
end

