-- ==== Sys2Proof/Laws/Invariants.lean ====
section
/-! SUPPORT. What keeps the invariants of Safety: the floor of ILIM through every update of a tile, the canonical form
through every update of a partition, a segment or a memory. -/

namespace Sys2Proof.Machine

/-! ### The floor of ILIM (R74) -/

theorem ilimOf_floor (v : Dword) : 256 ≤ (ilimOf v).toNat := by
  unfold ilimOf
  split
  · decide
  · rename_i h; exact Nat.le_of_not_lt h

/-- The invariant reads nothing but the tiles. -/
theorem State.IlimFloor.of_tiles {s t : State} (h : s.IlimFloor) (e : t.tiles = s.tiles) : t.IlimFloor := by
  intro n
  have : t.tile n = s.tile n := by simp only [State.tile, e]
  rw [this]
  exact h n

theorem State.IlimFloor.putTile {s : State} (h : s.IlimFloor) (t : Nat) {x : Tile} (hx : 256 ≤ x.ilim.toNat) :
    (s.putTile t x).IlimFloor := by
  intro n
  by_cases e : t = n
  · subst e; simpa using hx
  · rw [tile_putTile_other s e]; exact h n

theorem State.IlimFloor.modTile {s : State} (h : s.IlimFloor) (t : Nat) {f : Tile → Tile}
    (hf : (f (s.tile t)).ilim = (s.tile t).ilim) : (s.modTile t f).IlimFloor :=
  h.putTile t (by rw [hf]; exact h t)

theorem State.IlimFloor.putCtx {s : State} (h : s.IlimFloor) (t : Nat) (cx : Cx) (c : Ctx) : (s.putCtx t cx c).IlimFloor :=
  h.putTile t (by simpa using h t)

theorem State.IlimFloor.modCtx {s : State} (h : s.IlimFloor) (t : Nat) (cx : Cx) (f : Ctx → Ctx) :
    (s.modCtx t cx f).IlimFloor :=
  h.putCtx t cx _

theorem State.IlimFloor.modIssue {s : State} (h : s.IlimFloor) (f : Issue → Issue) : (s.modIssue f).IlimFloor :=
  h.of_tiles rfl
theorem State.IlimFloor.modPart {s : State} (h : s.IlimFloor) (p : Nat) (f : Part → Part) : (s.modPart p f).IlimFloor :=
  h.of_tiles rfl
theorem State.IlimFloor.modCluster {s : State} (h : s.IlimFloor) (k : Nat) (f : Cluster → Cluster) :
    (s.modCluster k f).IlimFloor :=
  h.of_tiles rfl
theorem State.IlimFloor.logEvent {s : State} (h : s.IlimFloor) (k n : Nat) : (s.logEvent k n).IlimFloor :=
  h.of_tiles rfl
theorem State.IlimFloor.putSeg {s : State} (h : s.IlimFloor) (p : Nat) (g : Seg) : (s.putSeg p g).IlimFloor := h.of_tiles rfl
theorem State.IlimFloor.modSeg {s : State} (h : s.IlimFloor) (p id : Nat) (f : Seg → Seg) : (s.modSeg p id f).IlimFloor :=
  h.of_tiles rfl
theorem State.IlimFloor.dropSeg {s : State} (h : s.IlimFloor) (p id : Nat) : (s.dropSeg p id).IlimFloor := h.of_tiles rfl

theorem aget_map {α : Type} (l : List (Nat × α)) (f : Nat × α → Nat × α) (hf : ∀ x, (f x).1 = x.1) (n : Nat) (d : α) :
    aget (l.map f) n d = aget l n d ∨ ∃ v, (n, v) ∈ l ∧ aget l n d = v ∧ aget (l.map f) n d = (f (n, v)).2 := by
  induction l with
  | nil => exact .inl rfl
  | cons a r ih =>
    obtain ⟨k, v⟩ := a
    by_cases e : k = n
    · subst e
      exact .inr ⟨v, by simp, by simp [aget], by simp [aget, hf (k, v)]⟩
    · rcases ih with h | ⟨v', h1, h2, h3⟩
      · exact .inl (by simp [aget, hf (k, v), e, h])
      · exact .inr ⟨v', by simp [h1], by simp [aget, e, h2], by simp [aget, hf (k, v), e, h3]⟩

/-- A change to every tile that keeps their ILIM. -/
theorem State.IlimFloor.mapTiles {s : State} (h : s.IlimFloor) (f : Nat × Tile → Nat × Tile) (hf : ∀ x, (f x).1 = x.1)
    (hi : ∀ x, (f x).2.ilim = x.2.ilim) : ({ s with tiles := s.tiles.map f } : State).IlimFloor := by
  intro n
  rcases aget_map s.tiles f hf n {} with e | ⟨v, -, e1, e2⟩
  · simp only [State.tile, e]; exact h n
  · simp only [State.tile, e2, hi]
    have := h n
    simp only [State.tile, e1] at this
    exact this

theorem State.IlimFloor.poisonLane {s : State} (h : s.IlimFloor) (l : Lane) (cause t : Nat) :
    (s.poisonLane l cause t).IlimFloor :=
  (h.mapTiles _ (fun x => by dsimp only; split <;> rfl) (fun x => by dsimp only; split <;> rfl)).logEvent _ _

theorem State.IlimFloor.mchk {s : State} (h : s.IlimFloor) (t : Nat) (cx : Cx) (a b : Nat) : (s.mchk t cx a b).IlimFloor :=
  (h.modCtx t cx _).logEvent _ _

/-- Taking a trap keeps the floor (R324, R328, R298). -/
theorem State.IlimFloor.trap {s : State} (h : s.IlimFloor) (t : Nat) (cx : Cx) (cause slot : Nat) (einfo epc : Dword)
    (ops : List REnt) (flight : List Res) : (s.trap t cx cause slot einfo epc ops flight).IlimFloor := by
  unfold State.trap
  dsimp only
  split
  · exact h.poisonLane _ _ _
  · split
    · exact h.mchk _ _ _ _
    · exact h.putCtx _ _ _

/-! ### The canonical form of the memories -/

theorem mem_aput {α : Type} {l : List (Nat × α)} {n : Nat} {v : α} {x : Nat × α} (h : x ∈ aput l n v) :
    x ∈ l ∨ x = (n, v) := by
  induction l with
  | nil => simp [aput] at h; exact .inr h
  | cons a r ih =>
    obtain ⟨k, w⟩ := a
    simp only [aput] at h
    split at h
    · rcases List.mem_cons.1 h with e | e
      · exact .inr e
      · exact .inl (List.mem_cons_of_mem _ e)
    · split at h
      · rcases List.mem_cons.1 h with e | e
        · exact .inr e
        · exact .inl e
      · rcases List.mem_cons.1 h with e | e
        · exact .inl (e ▸ List.mem_cons_self ..)
        · exact (ih e).imp (List.mem_cons_of_mem _) id

theorem aget_mem {α : Type} (l : List (Nat × α)) (n : Nat) (d : α) : aget l n d = d ∨ (n, aget l n d) ∈ l := by
  induction l with
  | nil => exact .inl rfl
  | cons a r ih =>
    obtain ⟨k, w⟩ := a
    by_cases e : k = n
    · subst e; exact .inr (by simp [aget])
    · rcases ih with h | h
      · exact .inl (by simp [aget, e, h])
      · exact .inr (by simp [aget, e, h])

theorem State.CanonicalMemory.part {s : State} (h : s.CanonicalMemory) (p : Nat) : (s.part p).CanonicalMemory := by
  rcases aget_mem s.parts p {} with e | e
  · intro g hg
    simp only [State.part, e] at hg
    cases hg
  · exact h.2.2.2 _ (List.mem_append_left _ e)

/-- A segment that is found has the canonical form, and its shadow has. -/
theorem State.CanonicalMemory.seg {s : State} (h : s.CanonicalMemory) {p id : Nat} {g : Seg} (e : s.seg? p id = some g) :
    g.bytes.wf = true ∧ ∀ x, g.shadow = some x → x.bytes.wf = true :=
  h.part p g (List.mem_of_find?_eq_some e)

theorem State.CanonicalMemory.modPart {s : State} (h : s.CanonicalMemory) (p : Nat) {f : Part → Part}
    (hf : (f (s.part p)).CanonicalMemory) : (s.modPart p f).CanonicalMemory := by
  refine ⟨h.1, h.2.1, h.2.2.1, fun x hx => ?_⟩
  rcases List.mem_append.1 hx with e | e
  · rcases mem_aput e with e | e
    · exact h.2.2.2 x (List.mem_append_left _ e)
    · subst e; exact hf
  · exact h.2.2.2 x (List.mem_append_right _ e)

/-- A change to a partition that leaves its directory alone. -/
theorem State.CanonicalMemory.modPartDir {s : State} (h : s.CanonicalMemory) (p : Nat) {f : Part → Part}
    (hf : (f (s.part p)).dir = (s.part p).dir) : (s.modPart p f).CanonicalMemory :=
  h.modPart p fun g hg => h.part p g (hf ▸ hg)

theorem mem_putEntry {g x : Seg} {l : List Seg} (h : x ∈ putEntry g l) : x = g ∨ x ∈ l := by
  induction l with
  | nil => simp [putEntry] at h; exact .inl h
  | cons a r ih =>
    simp only [putEntry] at h
    split at h
    · exact List.mem_cons.1 h
    · split at h
      · exact (List.mem_cons.1 h).imp id (List.mem_cons_of_mem _)
      · rcases List.mem_cons.1 h with e | e
        · exact .inr (e ▸ List.mem_cons_self ..)
        · exact (ih e).imp id (List.mem_cons_of_mem _)

theorem State.CanonicalMemory.putSeg {s : State} (h : s.CanonicalMemory) (p : Nat) {g : Seg} (hg : g.bytes.wf = true)
    (hs : ∀ x, g.shadow = some x → x.bytes.wf = true) : (s.putSeg p g).CanonicalMemory :=
  h.modPart p fun x hx => by
    rcases mem_putEntry hx with e | e
    · subst e; exact ⟨hg, hs⟩
    · exact h.part p x e

theorem State.CanonicalMemory.modSeg {s : State} (h : s.CanonicalMemory) (p id : Nat) {f : Seg → Seg}
    (hf : ∀ g : Seg, g.bytes.wf = true → (∀ x, g.shadow = some x → x.bytes.wf = true) →
      (f g).bytes.wf = true ∧ ∀ x, (f g).shadow = some x → x.bytes.wf = true) : (s.modSeg p id f).CanonicalMemory :=
  h.modPart p fun x hx => by
    obtain ⟨y, hy, rfl⟩ := List.mem_map.1 hx
    have := h.part p y hy
    split
    · exact hf y this.1 this.2
    · exact this

theorem State.CanonicalMemory.dropSeg {s : State} (h : s.CanonicalMemory) (p id : Nat) : (s.dropSeg p id).CanonicalMemory :=
  h.modPart p fun x hx => h.part p x (List.mem_filter.1 hx).1

/-- The invariant reads nothing but the memories and the directories. -/
theorem State.CanonicalMemory.of_same {s t : State} (h : s.CanonicalMemory) (h1 : t.code = s.code) (h2 : t.gddr = s.gddr)
    (h3 : t.host = s.host) (h4 : t.parts = s.parts) (h5 : t.ensign.plan = s.ensign.plan) : t.CanonicalMemory := by
  unfold State.CanonicalMemory
  rw [h1, h2, h3, h4, h5]
  exact h

theorem State.CanonicalMemory.putTile {s : State} (h : s.CanonicalMemory) (t : Nat) (x : Tile) : (s.putTile t x).CanonicalMemory :=
  h.of_same rfl rfl rfl rfl rfl
theorem State.CanonicalMemory.modTile {s : State} (h : s.CanonicalMemory) (t : Nat) (f : Tile → Tile) :
    (s.modTile t f).CanonicalMemory :=
  h.of_same rfl rfl rfl rfl rfl
theorem State.CanonicalMemory.modCtx {s : State} (h : s.CanonicalMemory) (t : Nat) (cx : Cx) (f : Ctx → Ctx) :
    (s.modCtx t cx f).CanonicalMemory :=
  h.of_same rfl rfl rfl rfl rfl
theorem State.CanonicalMemory.modIssue {s : State} (h : s.CanonicalMemory) (f : Issue → Issue) : (s.modIssue f).CanonicalMemory :=
  h.of_same rfl rfl rfl rfl rfl
theorem State.CanonicalMemory.modCluster {s : State} (h : s.CanonicalMemory) (k : Nat) (f : Cluster → Cluster) :
    (s.modCluster k f).CanonicalMemory :=
  h.of_same rfl rfl rfl rfl rfl
theorem State.CanonicalMemory.logEvent {s : State} (h : s.CanonicalMemory) (k n : Nat) : (s.logEvent k n).CanonicalMemory :=
  h.of_same rfl rfl rfl rfl rfl

/-- A store into GDDR-7 keeps the form. -/
theorem State.CanonicalMemory.store {s : State} (h : s.CanonicalMemory) (a : Nat) (bs : List Byte) :
    ({ s with gddr := s.gddr.store a bs } : State).CanonicalMemory :=
  ⟨h.1, store_wf bs _ a h.2.1, h.2.2.1, h.2.2.2⟩

/-- A change to every tile keeps the form. -/
theorem State.CanonicalMemory.mapTiles {s : State} (h : s.CanonicalMemory) (f : Nat × Tile → Nat × Tile) :
    ({ s with tiles := s.tiles.map f } : State).CanonicalMemory :=
  h.of_same rfl rfl rfl rfl rfl

/-- Taking a trap keeps the form (R324, R328, R298). -/
theorem State.CanonicalMemory.trap {s : State} (h : s.CanonicalMemory) (t : Nat) (cx : Cx) (cause slot : Nat)
    (einfo epc : Dword) (ops : List REnt) (flight : List Res) :
    (s.trap t cx cause slot einfo epc ops flight).CanonicalMemory := by
  unfold State.trap
  dsimp only
  split
  · exact (h.mapTiles _).logEvent _ _
  · split
    · exact (h.modCtx _ _ _).logEvent _ _
    · exact h.putTile _ _

end Sys2Proof.Machine
end

