-- ==== Sys2Proof/Laws/PerInstr.lean ====
section
/-! SUPPORT. What is said of each instruction as syntax: the fields of its word are read back as its operands (R35,
R36). -/

namespace Sys2Proof.Laws

/-! ### Fields of appended words -/

theorem fld_low {m n : Nat} (x : BitVec m) (y : BitVec n) (lo k : Nat) (h : lo + k ≤ n) : fld (x ++ y) lo k = fld y lo k := by
  ext i hi
  have : lo + i < n := by omega
  simp [BitVec.getElem_extractLsb', BitVec.getLsbD_append, this]

theorem fld_high {m n : Nat} (x : BitVec m) (y : BitVec n) (lo k : Nat) (h : n ≤ lo) : fld (x ++ y) lo k = fld x (lo - n) k := by
  ext i hi
  have h1 : ¬ lo + i < n := by omega
  have h2 : lo + i - n = lo - n + i := by omega
  simp [BitVec.getElem_extractLsb', BitVec.getLsbD_append, h1, h2]

theorem fld_whole {w : Nat} (x : BitVec w) : fld x 0 w = x := by ext i hi; simp

theorem f6_6_6_at12 (x : BitVec 6) (y : BitVec 6) (z : BitVec 6) : fld (x ++ y ++ z) 12 6 = x := by
  rw [fld_high _ _ _ _ (by decide), fld_high _ _ _ _ (by decide)]; exact fld_whole x

theorem f6_6_6_at6 (x : BitVec 6) (y : BitVec 6) (z : BitVec 6) : fld (x ++ y ++ z) 6 6 = y := by
  rw [fld_high _ _ _ _ (by decide), fld_low _ _ _ _ (by decide)]; exact fld_whole y

theorem f6_6_6_at0 (x : BitVec 6) (y : BitVec 6) (z : BitVec 6) : fld (x ++ y ++ z) 0 6 = z := by
  rw [fld_low _ _ _ _ (by decide)]; exact fld_whole z

theorem f6_12_at12 (x : BitVec 6) (y : BitVec 12) : fld (x ++ y) 12 6 = x := by
  rw [fld_high _ _ _ _ (by decide)]; exact fld_whole x

theorem f6_12_at0 (x : BitVec 6) (y : BitVec 12) : fld (x ++ y) 0 12 = y := by
  rw [fld_low _ _ _ _ (by decide)]; exact fld_whole y

theorem f3_7_1_7_at15 (x : BitVec 3) (y : BitVec 7) (z : BitVec 1) (u : BitVec 7) : fld (x ++ y ++ z ++ u) 15 3 = x := by
  rw [fld_high _ _ _ _ (by decide), fld_high _ _ _ _ (by decide), fld_high _ _ _ _ (by decide)]; exact fld_whole x

theorem f3_7_1_7_at8 (x : BitVec 3) (y : BitVec 7) (z : BitVec 1) (u : BitVec 7) : fld (x ++ y ++ z ++ u) 8 7 = y := by
  rw [fld_high _ _ _ _ (by decide), fld_high _ _ _ _ (by decide), fld_low _ _ _ _ (by decide)]; exact fld_whole y

theorem f3_7_1_7_at7 (x : BitVec 3) (y : BitVec 7) (z : BitVec 1) (u : BitVec 7) : fld (x ++ y ++ z ++ u) 7 1 = z := by
  rw [fld_high _ _ _ _ (by decide), fld_low _ _ _ _ (by decide)]; exact fld_whole z

theorem f6_9_3_at12 (x : BitVec 6) (y : BitVec 9) (z : BitVec 3) : fld (x ++ y ++ z) 12 6 = x := by
  rw [fld_high _ _ _ _ (by decide), fld_high _ _ _ _ (by decide)]; exact fld_whole x

theorem f6_9_3_at0 (x : BitVec 6) (y : BitVec 9) (z : BitVec 3) : fld (x ++ y ++ z) 0 3 = z := by
  rw [fld_low _ _ _ _ (by decide)]; exact fld_whole z

theorem f6_6_3_3_at12 (x : BitVec 6) (y : BitVec 6) (z : BitVec 3) (u : BitVec 3) : fld (x ++ y ++ z ++ u) 12 6 = x := by
  rw [fld_high _ _ _ _ (by decide), fld_high _ _ _ _ (by decide), fld_high _ _ _ _ (by decide)]; exact fld_whole x

theorem f6_6_3_3_at6 (x : BitVec 6) (y : BitVec 6) (z : BitVec 3) (u : BitVec 3) : fld (x ++ y ++ z ++ u) 6 6 = y := by
  rw [fld_high _ _ _ _ (by decide), fld_high _ _ _ _ (by decide), fld_low _ _ _ _ (by decide)]; exact fld_whole y

theorem f6_6_3_3_at3 (x : BitVec 6) (y : BitVec 6) (z : BitVec 3) (u : BitVec 3) : fld (x ++ y ++ z ++ u) 3 3 = z := by
  rw [fld_high _ _ _ _ (by decide), fld_low _ _ _ _ (by decide)]; exact fld_whole z

theorem f6_6_3_3_at0 (x : BitVec 6) (y : BitVec 6) (z : BitVec 3) (u : BitVec 3) : fld (x ++ y ++ z ++ u) 0 3 = u := by
  rw [fld_low _ _ _ _ (by decide)]; exact fld_whole u

theorem f7_6_5_at11 (x : BitVec 7) (y : BitVec 6) (z : BitVec 5) : fld (x ++ y ++ z) 11 7 = x := by
  rw [fld_high _ _ _ _ (by decide), fld_high _ _ _ _ (by decide)]; exact fld_whole x

theorem f7_6_5_at5 (x : BitVec 7) (y : BitVec 6) (z : BitVec 5) : fld (x ++ y ++ z) 5 6 = y := by
  rw [fld_high _ _ _ _ (by decide), fld_low _ _ _ _ (by decide)]; exact fld_whole y

theorem f7_6_5_at0 (x : BitVec 7) (y : BitVec 6) (z : BitVec 5) : fld (x ++ y ++ z) 0 5 = z := by
  rw [fld_low _ _ _ _ (by decide)]; exact fld_whole z

theorem f7_7_4_at11 (x : BitVec 7) (y : BitVec 7) (z : BitVec 4) : fld (x ++ y ++ z) 11 7 = x := by
  rw [fld_high _ _ _ _ (by decide), fld_high _ _ _ _ (by decide)]; exact fld_whole x

theorem f7_7_4_at4 (x : BitVec 7) (y : BitVec 7) (z : BitVec 4) : fld (x ++ y ++ z) 4 7 = y := by
  rw [fld_high _ _ _ _ (by decide), fld_low _ _ _ _ (by decide)]; exact fld_whole y

theorem f7_10_1_at11 (x : BitVec 7) (y : BitVec 10) (z : BitVec 1) : fld (x ++ y ++ z) 11 7 = x := by
  rw [fld_high _ _ _ _ (by decide), fld_high _ _ _ _ (by decide)]; exact fld_whole x

theorem f7_10_1_at0 (x : BitVec 7) (y : BitVec 10) (z : BitVec 1) : fld (x ++ y ++ z) 0 1 = z := by
  rw [fld_low _ _ _ _ (by decide)]; exact fld_whole z

theorem f6_5_7_at12 (x : BitVec 6) (y : BitVec 5) (z : BitVec 7) : fld (x ++ y ++ z) 12 6 = x := by
  rw [fld_high _ _ _ _ (by decide), fld_high _ _ _ _ (by decide)]; exact fld_whole x

theorem f6_5_7_at0 (x : BitVec 6) (y : BitVec 5) (z : BitVec 7) : fld (x ++ y ++ z) 0 7 = z := by
  rw [fld_low _ _ _ _ (by decide)]; exact fld_whole z

theorem f3_3_6_6_at12 (x : BitVec 3) (y : BitVec 3) (z : BitVec 6) (u : BitVec 6) : fld (x ++ y ++ z ++ u) 12 3 = y := by
  rw [fld_high _ _ _ _ (by decide), fld_high _ _ _ _ (by decide), fld_low _ _ _ _ (by decide)]; exact fld_whole y

theorem f3_3_6_6_at6 (x : BitVec 3) (y : BitVec 3) (z : BitVec 6) (u : BitVec 6) : fld (x ++ y ++ z ++ u) 6 6 = z := by
  rw [fld_high _ _ _ _ (by decide), fld_low _ _ _ _ (by decide)]; exact fld_whole z

theorem f3_3_6_6_at0 (x : BitVec 3) (y : BitVec 3) (z : BitVec 6) (u : BitVec 6) : fld (x ++ y ++ z ++ u) 0 6 = u := by
  rw [fld_low _ _ _ _ (by decide)]; exact fld_whole u

theorem f3_3_3_3_3_3_at12 (x : BitVec 3) (y : BitVec 3) (z : BitVec 3) (u : BitVec 3) (v : BitVec 3) (w : BitVec 3) : fld (x ++ y ++ z ++ u ++ v ++ w) 12 3 = y := by
  rw [fld_high _ _ _ _ (by decide), fld_high _ _ _ _ (by decide), fld_high _ _ _ _ (by decide), fld_high _ _ _ _ (by decide), fld_low _ _ _ _ (by decide)]; exact fld_whole y

theorem f3_3_3_3_3_3_at6 (x : BitVec 3) (y : BitVec 3) (z : BitVec 3) (u : BitVec 3) (v : BitVec 3) (w : BitVec 3) : fld (x ++ y ++ z ++ u ++ v ++ w) 6 3 = u := by
  rw [fld_high _ _ _ _ (by decide), fld_high _ _ _ _ (by decide), fld_low _ _ _ _ (by decide)]; exact fld_whole u

theorem f3_3_3_3_3_3_at0 (x : BitVec 3) (y : BitVec 3) (z : BitVec 3) (u : BitVec 3) (v : BitVec 3) (w : BitVec 3) : fld (x ++ y ++ z ++ u ++ v ++ w) 0 3 = w := by
  rw [fld_low _ _ _ _ (by decide)]; exact fld_whole w

theorem f3_3_3_3_6_at12 (x : BitVec 3) (y : BitVec 3) (z : BitVec 3) (u : BitVec 3) (v : BitVec 6) : fld (x ++ y ++ z ++ u ++ v) 12 3 = y := by
  rw [fld_high _ _ _ _ (by decide), fld_high _ _ _ _ (by decide), fld_high _ _ _ _ (by decide), fld_low _ _ _ _ (by decide)]; exact fld_whole y

theorem f3_3_3_3_6_at6 (x : BitVec 3) (y : BitVec 3) (z : BitVec 3) (u : BitVec 3) (v : BitVec 6) : fld (x ++ y ++ z ++ u ++ v) 6 3 = u := by
  rw [fld_high _ _ _ _ (by decide), fld_low _ _ _ _ (by decide)]; exact fld_whole u

theorem f9_3_6_at6 (x : BitVec 9) (y : BitVec 3) (z : BitVec 6) : fld (x ++ y ++ z) 6 3 = y := by
  rw [fld_high _ _ _ _ (by decide), fld_low _ _ _ _ (by decide)]; exact fld_whole y

theorem f6_6_5_1_at12 (x : BitVec 6) (y : BitVec 6) (z : BitVec 5) (u : BitVec 1) : fld (x ++ y ++ z ++ u) 12 6 = x := by
  rw [fld_high _ _ _ _ (by decide), fld_high _ _ _ _ (by decide), fld_high _ _ _ _ (by decide)]; exact fld_whole x

theorem f6_6_5_1_at6 (x : BitVec 6) (y : BitVec 6) (z : BitVec 5) (u : BitVec 1) : fld (x ++ y ++ z ++ u) 6 6 = y := by
  rw [fld_high _ _ _ _ (by decide), fld_high _ _ _ _ (by decide), fld_low _ _ _ _ (by decide)]; exact fld_whole y

theorem f6_6_5_1_at0 (x : BitVec 6) (y : BitVec 6) (z : BitVec 5) (u : BitVec 1) : fld (x ++ y ++ z ++ u) 0 1 = u := by
  rw [fld_low _ _ _ _ (by decide)]; exact fld_whole u

theorem f6_3_3_6_at12 (x : BitVec 6) (y : BitVec 3) (z : BitVec 3) (u : BitVec 6) : fld (x ++ y ++ z ++ u) 12 6 = x := by
  rw [fld_high _ _ _ _ (by decide), fld_high _ _ _ _ (by decide), fld_high _ _ _ _ (by decide)]; exact fld_whole x

theorem f6_3_3_6_at6 (x : BitVec 6) (y : BitVec 3) (z : BitVec 3) (u : BitVec 6) : fld (x ++ y ++ z ++ u) 6 3 = z := by
  rw [fld_high _ _ _ _ (by decide), fld_low _ _ _ _ (by decide)]; exact fld_whole z

theorem f2_4_4_4_4_at12 (x : BitVec 2) (y : BitVec 4) (z : BitVec 4) (u : BitVec 4) (v : BitVec 4) : fld (x ++ y ++ z ++ u ++ v) 12 4 = y := by
  rw [fld_high _ _ _ _ (by decide), fld_high _ _ _ _ (by decide), fld_high _ _ _ _ (by decide), fld_low _ _ _ _ (by decide)]; exact fld_whole y

theorem f2_4_4_4_4_at8 (x : BitVec 2) (y : BitVec 4) (z : BitVec 4) (u : BitVec 4) (v : BitVec 4) : fld (x ++ y ++ z ++ u ++ v) 8 4 = z := by
  rw [fld_high _ _ _ _ (by decide), fld_high _ _ _ _ (by decide), fld_low _ _ _ _ (by decide)]; exact fld_whole z

theorem f2_4_4_4_4_at4 (x : BitVec 2) (y : BitVec 4) (z : BitVec 4) (u : BitVec 4) (v : BitVec 4) : fld (x ++ y ++ z ++ u ++ v) 4 4 = u := by
  rw [fld_high _ _ _ _ (by decide), fld_low _ _ _ _ (by decide)]; exact fld_whole u

theorem f2_4_4_4_4_at0 (x : BitVec 2) (y : BitVec 4) (z : BitVec 4) (u : BitVec 4) (v : BitVec 4) : fld (x ++ y ++ z ++ u ++ v) 0 4 = v := by
  rw [fld_low _ _ _ _ (by decide)]; exact fld_whole v

theorem f6_6_2_1_3_at12 (x : BitVec 6) (y : BitVec 6) (z : BitVec 2) (u : BitVec 1) (v : BitVec 3) : fld (x ++ y ++ z ++ u ++ v) 12 6 = x := by
  rw [fld_high _ _ _ _ (by decide), fld_high _ _ _ _ (by decide), fld_high _ _ _ _ (by decide), fld_high _ _ _ _ (by decide)]; exact fld_whole x

theorem f6_6_2_1_3_at6 (x : BitVec 6) (y : BitVec 6) (z : BitVec 2) (u : BitVec 1) (v : BitVec 3) : fld (x ++ y ++ z ++ u ++ v) 6 6 = y := by
  rw [fld_high _ _ _ _ (by decide), fld_high _ _ _ _ (by decide), fld_high _ _ _ _ (by decide), fld_low _ _ _ _ (by decide)]; exact fld_whole y

theorem f6_6_2_1_3_at3 (x : BitVec 6) (y : BitVec 6) (z : BitVec 2) (u : BitVec 1) (v : BitVec 3) : fld (x ++ y ++ z ++ u ++ v) 3 1 = u := by
  rw [fld_high _ _ _ _ (by decide), fld_low _ _ _ _ (by decide)]; exact fld_whole u

theorem f6_6_2_1_3_at0 (x : BitVec 6) (y : BitVec 6) (z : BitVec 2) (u : BitVec 1) (v : BitVec 3) : fld (x ++ y ++ z ++ u ++ v) 0 3 = v := by
  rw [fld_low _ _ _ _ (by decide)]; exact fld_whole v

theorem f6_7_5_at12 (x : BitVec 6) (y : BitVec 7) (z : BitVec 5) : fld (x ++ y ++ z) 12 6 = x := by
  rw [fld_high _ _ _ _ (by decide), fld_high _ _ _ _ (by decide)]; exact fld_whole x

theorem f6_7_5_at0 (x : BitVec 6) (y : BitVec 7) (z : BitVec 5) : fld (x ++ y ++ z) 0 5 = z := by
  rw [fld_low _ _ _ _ (by decide)]; exact fld_whole z

/-! ### The parts of a slot word -/

theorem slotWord_parts (st : BitVec 1) {cl op : Nat} (gd : BitVec 3) (o : BitVec 18) (hc : cl < 16) (ho : op < 64) :
    let w := slotWord st cl op gd o
    slotClass w = cl ∧ slotOp w = op ∧ fld w 0 18 = o ∧ fld w 18 3 = gd ∧ fld w 31 1 = st := by
  intro w
  have h0 : fld w 0 18 = o := by
    simp only [w, slotWord]; rw [fld_low _ _ _ _ (by decide), fld_whole]
  have h1 : fld w 18 3 = gd := by
    simp only [w, slotWord]; rw [fld_high _ _ _ _ (by decide), fld_low _ _ _ _ (by decide)]; exact fld_whole gd
  have h2 : fld w 21 6 = BitVec.ofNat 6 op := by
    simp only [w, slotWord]
    rw [fld_high _ _ _ _ (by decide), fld_high _ _ _ _ (by decide), fld_low _ _ _ _ (by decide)]; exact fld_whole _
  have h3 : fld w 27 4 = BitVec.ofNat 4 cl := by
    simp only [w, slotWord]
    rw [fld_high _ _ _ _ (by decide), fld_high _ _ _ _ (by decide), fld_high _ _ _ _ (by decide),
      fld_low _ _ _ _ (by decide)]; exact fld_whole _
  have h4 : fld w 31 1 = st := by
    simp only [w, slotWord]
    rw [fld_high _ _ _ _ (by decide), fld_high _ _ _ _ (by decide), fld_high _ _ _ _ (by decide),
      fld_high _ _ _ _ (by decide)]; exact fld_whole _
  exact ⟨by simp only [slotClass, h3, BitVec.toNat_ofNat]; omega, by simp only [slotOp, h2, BitVec.toNat_ofNat]; omega,
    h0, h1, h4⟩

/-- The class, the opcode and the fields of an instruction's word decode to the instruction. -/
def Layout.Statement (i : Instr) : Prop :=
  ∀ w, encode i = some w → slotClass w ≤ 12 →
    decodeOp (slotClass w) (fld w 31 1) (slotOp w) (fld w 18 3) (fld w 0 18) = some i

theorem layout_none {i : Instr} (h : encode i = none) : Layout.Statement i := fun w hw => by rw [h] at hw; cases hw

theorem layout_of {i : Instr} (st : BitVec 1) {cl op : Nat} {gd : BitVec 3} {o : BitVec 18}
    (he : encode i = some (slotWord st cl op gd o)) (hc : cl < 16) (ho : op < 64) (h : decodeOp cl st op gd o = some i) :
    Layout.Statement i := by
  intro w hw _
  rw [he] at hw; cases hw
  obtain ⟨e1, e2, e3, e4, e5⟩ := slotWord_parts st gd o hc ho
  rw [e1, e2, e3, e4, e5, h]

/-! ### One lemma for each constructor -/

theorem Layout.resultLanding (tile : Nat) (cx : Cx) : Layout.Statement (.resultLanding tile cx) := layout_none rfl
theorem Layout.waitRetest (tile : Nat) (cx : Cx) : Layout.Statement (.waitRetest tile cx) := layout_none rfl
theorem Layout.lateDatumArrival (tile : Nat) (cx : Cx) : Layout.Statement (.lateDatumArrival tile cx) := layout_none rfl
theorem Layout.delayedCoreAccess (tile : Nat) (cx : Cx) : Layout.Statement (.delayedCoreAccess tile cx) := layout_none rfl
theorem Layout.bundleSelection : Layout.Statement .bundleSelection := layout_none rfl
theorem Layout.intr (tile : Nat) (cx : Cx) : Layout.Statement (.intr tile cx) := layout_none rfl
theorem Layout.operationFaultDelivery (tile : Nat) (cx : Cx) : Layout.Statement (.operationFaultDelivery tile cx) := layout_none rfl
theorem Layout.endComplete (tile : Nat) (cx : Cx) : Layout.Statement (.endComplete tile cx) := layout_none rfl
theorem Layout.signalApply : Layout.Statement .signalApply := layout_none rfl
theorem Layout.engineRead (op : Nat) : Layout.Statement (.engineRead op) := layout_none rfl
theorem Layout.engineLand (op : Nat) : Layout.Statement (.engineLand op) := layout_none rfl
theorem Layout.eComplete (op : Nat) : Layout.Statement (.eComplete op) := layout_none rfl
theorem Layout.requestGrant (req : Nat) : Layout.Statement (.requestGrant req) := layout_none rfl
theorem Layout.seqComplete (tile : Nat) : Layout.Statement (.seqComplete tile) := layout_none rfl
theorem Layout.moveBegin (tile : Nat) : Layout.Statement (.moveBegin tile) := layout_none rfl
theorem Layout.moveApplied (tile : Nat) : Layout.Statement (.moveApplied tile) := layout_none rfl
theorem Layout.kvRowLand (id : Nat) : Layout.Statement (.kvRowLand id) := layout_none rfl
theorem Layout.pageFetchApplied (id : Nat) : Layout.Statement (.pageFetchApplied id) := layout_none rfl
theorem Layout.roundSize (task : Nat) : Layout.Statement (.roundSize task) := layout_none rfl
theorem Layout.seal (task : Nat) : Layout.Statement (.seal task) := layout_none rfl
theorem Layout.settle (task : Nat) : Layout.Statement (.settle task) := layout_none rfl
theorem Layout.recordTake (part : Nat) (ring : Nat) : Layout.Statement (.recordTake part ring) := layout_none rfl
theorem Layout.dispatchStep (part : Nat) : Layout.Statement (.dispatchStep part) := layout_none rfl
theorem Layout.tokenAge (part : Nat) : Layout.Statement (.tokenAge part) := layout_none rfl
theorem Layout.checkpoint (tile : Nat) (cx : Cx) : Layout.Statement (.checkpoint tile cx) := layout_none rfl
theorem Layout.taskStart (task : Nat) : Layout.Statement (.taskStart task) := layout_none rfl
theorem Layout.ttPlace (part : Nat) : Layout.Statement (.ttPlace part) := layout_none rfl
theorem Layout.suspend (part : Nat) : Layout.Statement (.suspend part) := layout_none rfl
theorem Layout.meflagsStop (tile : Nat) (cx : Cx) : Layout.Statement (.meflagsStop tile cx) := layout_none rfl
theorem Layout.ilimWrite (tile : Nat) (v : BitVec 64) : Layout.Statement (.ilimWrite tile v) := layout_none rfl
theorem Layout.eqRemove (tile : Nat) : Layout.Statement (.eqRemove tile) := layout_none rfl
theorem Layout.eqSubmit (tile : Nat) : Layout.Statement (.eqSubmit tile) := layout_none rfl
theorem Layout.rbClear (tile : Nat) (cx : Cx) : Layout.Statement (.rbClear tile cx) := layout_none rfl
theorem Layout.rbdataWrite (tile : Nat) (cx : Cx) (v : BitVec 64) : Layout.Statement (.rbdataWrite tile cx v) := layout_none rfl
theorem Layout.registerWrite (part : Nat) (addr : Nat) (v : BitVec 64) : Layout.Statement (.registerWrite part addr v) := layout_none rfl
theorem Layout.ringEnable (part : Nat) (ring : Nat) (v : BitVec 64) : Layout.Statement (.ringEnable part ring v) := layout_none rfl
theorem Layout.tailWrite (part : Nat) (ring : Nat) (v : BitVec 64) : Layout.Statement (.tailWrite part ring v) := layout_none rfl
theorem Layout.tlbWalkDone (tile : Nat) (cx : Cx) : Layout.Statement (.tlbWalkDone tile cx) := layout_none rfl
theorem Layout.lockAcquire (op : Nat) : Layout.Statement (.lockAcquire op) := layout_none rfl
theorem Layout.tlbinv (part : Nat) (v : BitVec 64) : Layout.Statement (.tlbinv part v) := layout_none rfl
theorem Layout.tlbinvComplete (part : Nat) : Layout.Statement (.tlbinvComplete part) := layout_none rfl
theorem Layout.migrationStart (part : Nat) (v : BitVec 64) : Layout.Statement (.migrationStart part v) := layout_none rfl
theorem Layout.migrationFreeze (part : Nat) : Layout.Statement (.migrationFreeze part) := layout_none rfl
theorem Layout.migrationSwitch (part : Nat) : Layout.Statement (.migrationSwitch part) := layout_none rfl
theorem Layout.hostMemoryAccess (part : Nat) (addr : Nat) (len : Nat) (data : List (BitVec 8)) : Layout.Statement (.hostMemoryAccess part addr len data) := layout_none rfl
theorem Layout.doorbell (part : Nat) (v : BitVec 64) : Layout.Statement (.doorbell part v) := layout_none rfl
theorem Layout.wdctlWrite (part : Nat) (v : BitVec 64) : Layout.Statement (.wdctlWrite part v) := layout_none rfl
theorem Layout.wdkick (part : Nat) : Layout.Statement (.wdkick part) := layout_none rfl
theorem Layout.watchdogFirstExpiry (part : Nat) : Layout.Statement (.watchdogFirstExpiry part) := layout_none rfl
theorem Layout.watchdogSecondExpiry (part : Nat) : Layout.Statement (.watchdogSecondExpiry part) := layout_none rfl
theorem Layout.partitionFreeze (part : Nat) : Layout.Statement (.partitionFreeze part) := layout_none rfl
theorem Layout.partitionResume (part : Nat) : Layout.Statement (.partitionResume part) := layout_none rfl
theorem Layout.partitionKill (part : Nat) : Layout.Statement (.partitionKill part) := layout_none rfl
theorem Layout.partitionReset (part : Nat) : Layout.Statement (.partitionReset part) := layout_none rfl
theorem Layout.flitSend (port : Nat) (data : List (BitVec 8)) : Layout.Statement (.flitSend port data) := layout_none rfl
theorem Layout.flitReceive (port : Nat) (sq : BitVec 12) (good : Bool) (data : List (BitVec 8)) : Layout.Statement (.flitReceive port sq good data) := layout_none rfl
theorem Layout.nak (port : Nat) (sq : BitVec 12) : Layout.Statement (.nak port sq) := layout_none rfl
theorem Layout.ack (port : Nat) (sq : BitVec 12) : Layout.Statement (.ack port sq) := layout_none rfl
theorem Layout.boot : Layout.Statement .boot := layout_none rfl
theorem Layout.getVersion : Layout.Statement .getVersion := layout_none rfl
theorem Layout.getCapabilities : Layout.Statement .getCapabilities := layout_none rfl
theorem Layout.negotiateAlgorithms (data : List (BitVec 8)) : Layout.Statement (.negotiateAlgorithms data) := layout_none rfl
theorem Layout.getDigests : Layout.Statement .getDigests := layout_none rfl
theorem Layout.getCertificate (data : List (BitVec 8)) : Layout.Statement (.getCertificate data) := layout_none rfl
theorem Layout.challenge (data : List (BitVec 8)) : Layout.Statement (.challenge data) := layout_none rfl
theorem Layout.getMeasurements (idx : Nat) : Layout.Statement (.getMeasurements idx) := layout_none rfl
theorem Layout.pldmMonitoring (data : List (BitVec 8)) : Layout.Statement (.pldmMonitoring data) := layout_none rfl
theorem Layout.pldmFirmwareUpdate (idx : Nat) (data : List (BitVec 8)) : Layout.Statement (.pldmFirmwareUpdate idx data) := layout_none rfl
theorem Layout.ptpMessage (val : Nat) : Layout.Statement (.ptpMessage val) := layout_none rfl
theorem Layout.schedulerUpdate (data : List (BitVec 8)) : Layout.Statement (.schedulerUpdate data) := layout_none rfl
theorem Layout.heartbeat : Layout.Statement .heartbeat := layout_none rfl
theorem Layout.heartbeatTimeout : Layout.Statement .heartbeatTimeout := layout_none rfl
theorem Layout.setPowerCap (val : Nat) : Layout.Statement (.setPowerCap val) := layout_none rfl
theorem Layout.undervoltage : Layout.Statement .undervoltage := layout_none rfl
theorem Layout.powerRestore : Layout.Statement .powerRestore := layout_none rfl
theorem Layout.thermalThrottle (idx : Nat) : Layout.Statement (.thermalThrottle idx) := layout_none rfl
theorem Layout.thermalShutdown : Layout.Statement .thermalShutdown := layout_none rfl
theorem Layout.scrub : Layout.Statement .scrub := layout_none rfl
theorem Layout.rollback (tile : Nat) (cx : Cx) : Layout.Statement (.rollback tile cx) := layout_none rfl
theorem Layout.pseudoChannelDrop (part : Nat) (idx : Nat) : Layout.Statement (.pseudoChannelDrop part idx) := layout_none rfl
theorem Layout.monitorTimerExpiry (tile : Nat) (cx : Cx) : Layout.Statement (.monitorTimerExpiry tile cx) := layout_none rfl
theorem Layout.debugHaltRequest (tile : Nat) (cx : Cx) : Layout.Statement (.debugHaltRequest tile cx) := layout_none rfl
theorem Layout.storeRetirement (tile : Nat) (cx : Cx) : Layout.Statement (.storeRetirement tile cx) := layout_none rfl
theorem Layout.holdover : Layout.Statement .holdover := layout_none rfl
theorem Layout.ownerUnreachable (id : Nat) : Layout.Statement (.ownerUnreachable id) := layout_none rfl
theorem Layout.linkTrained (port : Nat) : Layout.Statement (.linkTrained port) := layout_none rfl
theorem Layout.br (st : BitVec 1) (gd : BitVec 3) (i : BitVec 18) : Layout.Statement (.br st gd i) := layout_of st rfl (by decide) (by decide) rfl
theorem Layout.brNa (st : BitVec 1) (gd : BitVec 3) (i : BitVec 18) : Layout.Statement (.brNa st gd i) := layout_of st rfl (by decide) (by decide) rfl
theorem Layout.brNt (st : BitVec 1) (gd : BitVec 3) (i : BitVec 18) : Layout.Statement (.brNt st gd i) := layout_of st rfl (by decide) (by decide) rfl
theorem Layout.bri (st : BitVec 1) (gd : BitVec 3) (a : BitVec 6) : Layout.Statement (.bri st gd a) := layout_of st rfl (by decide) (by decide) (by
  show some (Instr.bri st gd (fld ((0#6) ++ a ++ (0#6)) 6 6)) = _
  rw [f6_6_6_at6])
theorem Layout.call (st : BitVec 1) (gd : BitVec 3) (d : BitVec 6) (i : BitVec 12) : Layout.Statement (.call st gd d i) := layout_of st rfl (by decide) (by decide) (by
  show some (Instr.call st gd (fld (d ++ i) 12 6) (fld (d ++ i) 0 12)) = _
  rw [f6_12_at12, f6_12_at0])
theorem Layout.loop0 (st : BitVec 1) (gd : BitVec 3) (a : BitVec 6) (i : BitVec 12) : Layout.Statement (.loop0 st gd a i) := layout_of st rfl (by decide) (by decide) (by
  show some (Instr.loop0 st gd (fld (a ++ i) 12 6) (fld (a ++ i) 0 12)) = _
  rw [f6_12_at12, f6_12_at0])
theorem Layout.loop1 (st : BitVec 1) (gd : BitVec 3) (a : BitVec 6) (i : BitVec 12) : Layout.Statement (.loop1 st gd a i) := layout_of st rfl (by decide) (by decide) (by
  show some (Instr.loop1 st gd (fld (a ++ i) 12 6) (fld (a ++ i) 0 12)) = _
  rw [f6_12_at12, f6_12_at0])
theorem Layout.loopi0 (st : BitVec 1) (gd : BitVec 3) (c : BitVec 6) (i : BitVec 12) : Layout.Statement (.loopi0 st gd c i) := layout_of st rfl (by decide) (by decide) (by
  show some (Instr.loopi0 st gd (fld (c ++ i) 12 6) (fld (c ++ i) 0 12)) = _
  rw [f6_12_at12, f6_12_at0])
theorem Layout.loopi1 (st : BitVec 1) (gd : BitVec 3) (c : BitVec 6) (i : BitVec 12) : Layout.Statement (.loopi1 st gd c i) := layout_of st rfl (by decide) (by decide) (by
  show some (Instr.loopi1 st gd (fld (c ++ i) 12 6) (fld (c ++ i) 0 12)) = _
  rw [f6_12_at12, f6_12_at0])
theorem Layout.endTask (st : BitVec 1) (gd : BitVec 3) (a : BitVec 6) : Layout.Statement (.endTask st gd a) := layout_of st rfl (by decide) (by decide) (by
  show some (Instr.endTask st gd (fld ((0#6) ++ a ++ (0#6)) 6 6)) = _
  rw [f6_6_6_at6])
theorem Layout.trap (st : BitVec 1) (gd : BitVec 3) (i : BitVec 12) : Layout.Statement (.trap st gd i) := layout_of st rfl (by decide) (by decide) (by
  show some (Instr.trap st gd (fld ((0#6) ++ i) 0 12)) = _
  rw [f6_12_at0])
theorem Layout.reti (st : BitVec 1) (gd : BitVec 3) : Layout.Statement (.reti st gd) := layout_of st rfl (by decide) (by decide) rfl
theorem Layout.brk (st : BitVec 1) (gd : BitVec 3) (i : BitVec 12) : Layout.Statement (.brk st gd i) := layout_of st rfl (by decide) (by decide) (by
  show some (Instr.brk st gd (fld ((0#6) ++ i) 0 12)) = _
  rw [f6_12_at0])
theorem Layout.gmap (st : BitVec 1) (gd : BitVec 3) (w : BitVec 3) (p : BitVec 7) (e : BitVec 1) : Layout.Statement (.gmap st gd w p e) := layout_of st rfl (by decide) (by decide) (by
  show some (Instr.gmap st gd (fld (w ++ p ++ e ++ (0#7)) 15 3) (fld (w ++ p ++ e ++ (0#7)) 8 7) (fld (w ++ p ++ e ++ (0#7)) 7 1)) = _
  rw [f3_7_1_7_at15, f3_7_1_7_at8, f3_7_1_7_at7])
theorem Layout.srd (st : BitVec 1) (gd : BitVec 3) (d : BitVec 6) (i : BitVec 12) : Layout.Statement (.srd st gd d i) := layout_of st rfl (by decide) (by decide) (by
  show some (Instr.srd st gd (fld (d ++ i) 12 6) (fld (d ++ i) 0 12)) = _
  rw [f6_12_at12, f6_12_at0])
theorem Layout.swr (st : BitVec 1) (gd : BitVec 3) (a : BitVec 6) (i : BitVec 12) : Layout.Statement (.swr st gd a i) := layout_of st rfl (by decide) (by decide) (by
  show some (Instr.swr st gd (fld (a ++ i) 12 6) (fld (a ++ i) 0 12)) = _
  rw [f6_12_at12, f6_12_at0])
theorem Layout.cget (st : BitVec 1) (gd : BitVec 3) (d : BitVec 6) (k : BitVec 3) : Layout.Statement (.cget st gd d k) := layout_of st rfl (by decide) (by decide) (by
  show some (Instr.cget st gd (fld (d ++ (0#9) ++ k) 12 6) (fld (d ++ (0#9) ++ k) 0 3)) = _
  rw [f6_9_3_at12, f6_9_3_at0])
theorem Layout.cset (st : BitVec 1) (gd : BitVec 3) (a : BitVec 6) (k : BitVec 3) : Layout.Statement (.cset st gd a k) := layout_of st rfl (by decide) (by decide) (by
  show some (Instr.cset st gd (fld (a ++ (0#9) ++ k) 12 6) (fld (a ++ (0#9) ++ k) 0 3)) = _
  rw [f6_9_3_at12, f6_9_3_at0])
theorem Layout.acmp (st : BitVec 1) (gd : BitVec 3) (a : BitVec 6) (k : BitVec 3) : Layout.Statement (.acmp st gd a k) := layout_of st rfl (by decide) (by decide) (by
  show some (Instr.acmp st gd (fld (a ++ (0#9) ++ k) 12 6) (fld (a ++ (0#9) ++ k) 0 3)) = _
  rw [f6_9_3_at12, f6_9_3_at0])
theorem Layout.cgset (st : BitVec 1) (gd : BitVec 3) (a : BitVec 6) (l : BitVec 3) (k : BitVec 3) : Layout.Statement (.cgset st gd a l k) := layout_of st rfl (by decide) (by decide) (by
  show some (Instr.cgset st gd (fld (a ++ (0#6) ++ l ++ k) 12 6) (fld (a ++ (0#6) ++ l ++ k) 3 3) (fld (a ++ (0#6) ++ l ++ k) 0 3)) = _
  rw [f6_6_3_3_at12, f6_6_3_3_at3, f6_6_3_3_at0])
theorem Layout.slane (st : BitVec 1) (gd : BitVec 3) (d : BitVec 6) : Layout.Statement (.slane st gd d) := layout_of st rfl (by decide) (by decide) (by
  show some (Instr.slane st gd (fld (d ++ (0#12)) 12 6)) = _
  rw [f6_12_at12])
theorem Layout.addSa (st : BitVec 1) (gd : BitVec 3) (d : BitVec 6) (a : BitVec 6) (b : BitVec 6) : Layout.Statement (.addSa st gd d a b) := layout_of st rfl (by decide) (by decide) (by
  show some (Instr.addSa st gd (fld (d ++ a ++ b) 12 6) (fld (d ++ a ++ b) 6 6) (fld (d ++ a ++ b) 0 6)) = _
  rw [f6_6_6_at12, f6_6_6_at6, f6_6_6_at0])
theorem Layout.addSb (st : BitVec 1) (gd : BitVec 3) (d : BitVec 6) (a : BitVec 6) (b : BitVec 6) : Layout.Statement (.addSb st gd d a b) := layout_of st rfl (by decide) (by decide) (by
  show some (Instr.addSb st gd (fld (d ++ a ++ b) 12 6) (fld (d ++ a ++ b) 6 6) (fld (d ++ a ++ b) 0 6)) = _
  rw [f6_6_6_at12, f6_6_6_at6, f6_6_6_at0])
theorem Layout.subSa (st : BitVec 1) (gd : BitVec 3) (d : BitVec 6) (a : BitVec 6) (b : BitVec 6) : Layout.Statement (.subSa st gd d a b) := layout_of st rfl (by decide) (by decide) (by
  show some (Instr.subSa st gd (fld (d ++ a ++ b) 12 6) (fld (d ++ a ++ b) 6 6) (fld (d ++ a ++ b) 0 6)) = _
  rw [f6_6_6_at12, f6_6_6_at6, f6_6_6_at0])
theorem Layout.subSb (st : BitVec 1) (gd : BitVec 3) (d : BitVec 6) (a : BitVec 6) (b : BitVec 6) : Layout.Statement (.subSb st gd d a b) := layout_of st rfl (by decide) (by decide) (by
  show some (Instr.subSb st gd (fld (d ++ a ++ b) 12 6) (fld (d ++ a ++ b) 6 6) (fld (d ++ a ++ b) 0 6)) = _
  rw [f6_6_6_at12, f6_6_6_at6, f6_6_6_at0])
theorem Layout.addiSa (st : BitVec 1) (gd : BitVec 3) (d : BitVec 6) (a : BitVec 6) (i : BitVec 6) : Layout.Statement (.addiSa st gd d a i) := layout_of st rfl (by decide) (by decide) (by
  show some (Instr.addiSa st gd (fld (d ++ a ++ i) 12 6) (fld (d ++ a ++ i) 6 6) (fld (d ++ a ++ i) 0 6)) = _
  rw [f6_6_6_at12, f6_6_6_at6, f6_6_6_at0])
theorem Layout.addiSb (st : BitVec 1) (gd : BitVec 3) (d : BitVec 6) (a : BitVec 6) (i : BitVec 6) : Layout.Statement (.addiSb st gd d a i) := layout_of st rfl (by decide) (by decide) (by
  show some (Instr.addiSb st gd (fld (d ++ a ++ i) 12 6) (fld (d ++ a ++ i) 6 6) (fld (d ++ a ++ i) 0 6)) = _
  rw [f6_6_6_at12, f6_6_6_at6, f6_6_6_at0])
theorem Layout.mulSa (st : BitVec 1) (gd : BitVec 3) (d : BitVec 6) (a : BitVec 6) (b : BitVec 6) : Layout.Statement (.mulSa st gd d a b) := layout_of st rfl (by decide) (by decide) (by
  show some (Instr.mulSa st gd (fld (d ++ a ++ b) 12 6) (fld (d ++ a ++ b) 6 6) (fld (d ++ a ++ b) 0 6)) = _
  rw [f6_6_6_at12, f6_6_6_at6, f6_6_6_at0])
theorem Layout.mulSb (st : BitVec 1) (gd : BitVec 3) (d : BitVec 6) (a : BitVec 6) (b : BitVec 6) : Layout.Statement (.mulSb st gd d a b) := layout_of st rfl (by decide) (by decide) (by
  show some (Instr.mulSb st gd (fld (d ++ a ++ b) 12 6) (fld (d ++ a ++ b) 6 6) (fld (d ++ a ++ b) 0 6)) = _
  rw [f6_6_6_at12, f6_6_6_at6, f6_6_6_at0])
theorem Layout.mulhSa (st : BitVec 1) (gd : BitVec 3) (d : BitVec 6) (a : BitVec 6) (b : BitVec 6) : Layout.Statement (.mulhSa st gd d a b) := layout_of st rfl (by decide) (by decide) (by
  show some (Instr.mulhSa st gd (fld (d ++ a ++ b) 12 6) (fld (d ++ a ++ b) 6 6) (fld (d ++ a ++ b) 0 6)) = _
  rw [f6_6_6_at12, f6_6_6_at6, f6_6_6_at0])
theorem Layout.mulhSb (st : BitVec 1) (gd : BitVec 3) (d : BitVec 6) (a : BitVec 6) (b : BitVec 6) : Layout.Statement (.mulhSb st gd d a b) := layout_of st rfl (by decide) (by decide) (by
  show some (Instr.mulhSb st gd (fld (d ++ a ++ b) 12 6) (fld (d ++ a ++ b) 6 6) (fld (d ++ a ++ b) 0 6)) = _
  rw [f6_6_6_at12, f6_6_6_at6, f6_6_6_at0])
theorem Layout.mulhuSa (st : BitVec 1) (gd : BitVec 3) (d : BitVec 6) (a : BitVec 6) (b : BitVec 6) : Layout.Statement (.mulhuSa st gd d a b) := layout_of st rfl (by decide) (by decide) (by
  show some (Instr.mulhuSa st gd (fld (d ++ a ++ b) 12 6) (fld (d ++ a ++ b) 6 6) (fld (d ++ a ++ b) 0 6)) = _
  rw [f6_6_6_at12, f6_6_6_at6, f6_6_6_at0])
theorem Layout.mulhuSb (st : BitVec 1) (gd : BitVec 3) (d : BitVec 6) (a : BitVec 6) (b : BitVec 6) : Layout.Statement (.mulhuSb st gd d a b) := layout_of st rfl (by decide) (by decide) (by
  show some (Instr.mulhuSb st gd (fld (d ++ a ++ b) 12 6) (fld (d ++ a ++ b) 6 6) (fld (d ++ a ++ b) 0 6)) = _
  rw [f6_6_6_at12, f6_6_6_at6, f6_6_6_at0])
theorem Layout.divSa (st : BitVec 1) (gd : BitVec 3) (d : BitVec 6) (a : BitVec 6) (b : BitVec 6) : Layout.Statement (.divSa st gd d a b) := layout_of st rfl (by decide) (by decide) (by
  show some (Instr.divSa st gd (fld (d ++ a ++ b) 12 6) (fld (d ++ a ++ b) 6 6) (fld (d ++ a ++ b) 0 6)) = _
  rw [f6_6_6_at12, f6_6_6_at6, f6_6_6_at0])
theorem Layout.divSb (st : BitVec 1) (gd : BitVec 3) (d : BitVec 6) (a : BitVec 6) (b : BitVec 6) : Layout.Statement (.divSb st gd d a b) := layout_of st rfl (by decide) (by decide) (by
  show some (Instr.divSb st gd (fld (d ++ a ++ b) 12 6) (fld (d ++ a ++ b) 6 6) (fld (d ++ a ++ b) 0 6)) = _
  rw [f6_6_6_at12, f6_6_6_at6, f6_6_6_at0])
theorem Layout.divuSa (st : BitVec 1) (gd : BitVec 3) (d : BitVec 6) (a : BitVec 6) (b : BitVec 6) : Layout.Statement (.divuSa st gd d a b) := layout_of st rfl (by decide) (by decide) (by
  show some (Instr.divuSa st gd (fld (d ++ a ++ b) 12 6) (fld (d ++ a ++ b) 6 6) (fld (d ++ a ++ b) 0 6)) = _
  rw [f6_6_6_at12, f6_6_6_at6, f6_6_6_at0])
theorem Layout.divuSb (st : BitVec 1) (gd : BitVec 3) (d : BitVec 6) (a : BitVec 6) (b : BitVec 6) : Layout.Statement (.divuSb st gd d a b) := layout_of st rfl (by decide) (by decide) (by
  show some (Instr.divuSb st gd (fld (d ++ a ++ b) 12 6) (fld (d ++ a ++ b) 6 6) (fld (d ++ a ++ b) 0 6)) = _
  rw [f6_6_6_at12, f6_6_6_at6, f6_6_6_at0])
theorem Layout.remSa (st : BitVec 1) (gd : BitVec 3) (d : BitVec 6) (a : BitVec 6) (b : BitVec 6) : Layout.Statement (.remSa st gd d a b) := layout_of st rfl (by decide) (by decide) (by
  show some (Instr.remSa st gd (fld (d ++ a ++ b) 12 6) (fld (d ++ a ++ b) 6 6) (fld (d ++ a ++ b) 0 6)) = _
  rw [f6_6_6_at12, f6_6_6_at6, f6_6_6_at0])
theorem Layout.remSb (st : BitVec 1) (gd : BitVec 3) (d : BitVec 6) (a : BitVec 6) (b : BitVec 6) : Layout.Statement (.remSb st gd d a b) := layout_of st rfl (by decide) (by decide) (by
  show some (Instr.remSb st gd (fld (d ++ a ++ b) 12 6) (fld (d ++ a ++ b) 6 6) (fld (d ++ a ++ b) 0 6)) = _
  rw [f6_6_6_at12, f6_6_6_at6, f6_6_6_at0])
theorem Layout.remuSa (st : BitVec 1) (gd : BitVec 3) (d : BitVec 6) (a : BitVec 6) (b : BitVec 6) : Layout.Statement (.remuSa st gd d a b) := layout_of st rfl (by decide) (by decide) (by
  show some (Instr.remuSa st gd (fld (d ++ a ++ b) 12 6) (fld (d ++ a ++ b) 6 6) (fld (d ++ a ++ b) 0 6)) = _
  rw [f6_6_6_at12, f6_6_6_at6, f6_6_6_at0])
theorem Layout.remuSb (st : BitVec 1) (gd : BitVec 3) (d : BitVec 6) (a : BitVec 6) (b : BitVec 6) : Layout.Statement (.remuSb st gd d a b) := layout_of st rfl (by decide) (by decide) (by
  show some (Instr.remuSb st gd (fld (d ++ a ++ b) 12 6) (fld (d ++ a ++ b) 6 6) (fld (d ++ a ++ b) 0 6)) = _
  rw [f6_6_6_at12, f6_6_6_at6, f6_6_6_at0])
theorem Layout.andSa (st : BitVec 1) (gd : BitVec 3) (d : BitVec 6) (a : BitVec 6) (b : BitVec 6) : Layout.Statement (.andSa st gd d a b) := layout_of st rfl (by decide) (by decide) (by
  show some (Instr.andSa st gd (fld (d ++ a ++ b) 12 6) (fld (d ++ a ++ b) 6 6) (fld (d ++ a ++ b) 0 6)) = _
  rw [f6_6_6_at12, f6_6_6_at6, f6_6_6_at0])
theorem Layout.andSb (st : BitVec 1) (gd : BitVec 3) (d : BitVec 6) (a : BitVec 6) (b : BitVec 6) : Layout.Statement (.andSb st gd d a b) := layout_of st rfl (by decide) (by decide) (by
  show some (Instr.andSb st gd (fld (d ++ a ++ b) 12 6) (fld (d ++ a ++ b) 6 6) (fld (d ++ a ++ b) 0 6)) = _
  rw [f6_6_6_at12, f6_6_6_at6, f6_6_6_at0])
theorem Layout.orSa (st : BitVec 1) (gd : BitVec 3) (d : BitVec 6) (a : BitVec 6) (b : BitVec 6) : Layout.Statement (.orSa st gd d a b) := layout_of st rfl (by decide) (by decide) (by
  show some (Instr.orSa st gd (fld (d ++ a ++ b) 12 6) (fld (d ++ a ++ b) 6 6) (fld (d ++ a ++ b) 0 6)) = _
  rw [f6_6_6_at12, f6_6_6_at6, f6_6_6_at0])
theorem Layout.orSb (st : BitVec 1) (gd : BitVec 3) (d : BitVec 6) (a : BitVec 6) (b : BitVec 6) : Layout.Statement (.orSb st gd d a b) := layout_of st rfl (by decide) (by decide) (by
  show some (Instr.orSb st gd (fld (d ++ a ++ b) 12 6) (fld (d ++ a ++ b) 6 6) (fld (d ++ a ++ b) 0 6)) = _
  rw [f6_6_6_at12, f6_6_6_at6, f6_6_6_at0])
theorem Layout.xorSa (st : BitVec 1) (gd : BitVec 3) (d : BitVec 6) (a : BitVec 6) (b : BitVec 6) : Layout.Statement (.xorSa st gd d a b) := layout_of st rfl (by decide) (by decide) (by
  show some (Instr.xorSa st gd (fld (d ++ a ++ b) 12 6) (fld (d ++ a ++ b) 6 6) (fld (d ++ a ++ b) 0 6)) = _
  rw [f6_6_6_at12, f6_6_6_at6, f6_6_6_at0])
theorem Layout.xorSb (st : BitVec 1) (gd : BitVec 3) (d : BitVec 6) (a : BitVec 6) (b : BitVec 6) : Layout.Statement (.xorSb st gd d a b) := layout_of st rfl (by decide) (by decide) (by
  show some (Instr.xorSb st gd (fld (d ++ a ++ b) 12 6) (fld (d ++ a ++ b) 6 6) (fld (d ++ a ++ b) 0 6)) = _
  rw [f6_6_6_at12, f6_6_6_at6, f6_6_6_at0])
theorem Layout.andnSa (st : BitVec 1) (gd : BitVec 3) (d : BitVec 6) (a : BitVec 6) (b : BitVec 6) : Layout.Statement (.andnSa st gd d a b) := layout_of st rfl (by decide) (by decide) (by
  show some (Instr.andnSa st gd (fld (d ++ a ++ b) 12 6) (fld (d ++ a ++ b) 6 6) (fld (d ++ a ++ b) 0 6)) = _
  rw [f6_6_6_at12, f6_6_6_at6, f6_6_6_at0])
theorem Layout.andnSb (st : BitVec 1) (gd : BitVec 3) (d : BitVec 6) (a : BitVec 6) (b : BitVec 6) : Layout.Statement (.andnSb st gd d a b) := layout_of st rfl (by decide) (by decide) (by
  show some (Instr.andnSb st gd (fld (d ++ a ++ b) 12 6) (fld (d ++ a ++ b) 6 6) (fld (d ++ a ++ b) 0 6)) = _
  rw [f6_6_6_at12, f6_6_6_at6, f6_6_6_at0])
theorem Layout.shlSa (st : BitVec 1) (gd : BitVec 3) (d : BitVec 6) (a : BitVec 6) (b : BitVec 6) : Layout.Statement (.shlSa st gd d a b) := layout_of st rfl (by decide) (by decide) (by
  show some (Instr.shlSa st gd (fld (d ++ a ++ b) 12 6) (fld (d ++ a ++ b) 6 6) (fld (d ++ a ++ b) 0 6)) = _
  rw [f6_6_6_at12, f6_6_6_at6, f6_6_6_at0])
theorem Layout.shlSb (st : BitVec 1) (gd : BitVec 3) (d : BitVec 6) (a : BitVec 6) (b : BitVec 6) : Layout.Statement (.shlSb st gd d a b) := layout_of st rfl (by decide) (by decide) (by
  show some (Instr.shlSb st gd (fld (d ++ a ++ b) 12 6) (fld (d ++ a ++ b) 6 6) (fld (d ++ a ++ b) 0 6)) = _
  rw [f6_6_6_at12, f6_6_6_at6, f6_6_6_at0])
theorem Layout.shrSa (st : BitVec 1) (gd : BitVec 3) (d : BitVec 6) (a : BitVec 6) (b : BitVec 6) : Layout.Statement (.shrSa st gd d a b) := layout_of st rfl (by decide) (by decide) (by
  show some (Instr.shrSa st gd (fld (d ++ a ++ b) 12 6) (fld (d ++ a ++ b) 6 6) (fld (d ++ a ++ b) 0 6)) = _
  rw [f6_6_6_at12, f6_6_6_at6, f6_6_6_at0])
theorem Layout.shrSb (st : BitVec 1) (gd : BitVec 3) (d : BitVec 6) (a : BitVec 6) (b : BitVec 6) : Layout.Statement (.shrSb st gd d a b) := layout_of st rfl (by decide) (by decide) (by
  show some (Instr.shrSb st gd (fld (d ++ a ++ b) 12 6) (fld (d ++ a ++ b) 6 6) (fld (d ++ a ++ b) 0 6)) = _
  rw [f6_6_6_at12, f6_6_6_at6, f6_6_6_at0])
theorem Layout.sarSa (st : BitVec 1) (gd : BitVec 3) (d : BitVec 6) (a : BitVec 6) (b : BitVec 6) : Layout.Statement (.sarSa st gd d a b) := layout_of st rfl (by decide) (by decide) (by
  show some (Instr.sarSa st gd (fld (d ++ a ++ b) 12 6) (fld (d ++ a ++ b) 6 6) (fld (d ++ a ++ b) 0 6)) = _
  rw [f6_6_6_at12, f6_6_6_at6, f6_6_6_at0])
theorem Layout.sarSb (st : BitVec 1) (gd : BitVec 3) (d : BitVec 6) (a : BitVec 6) (b : BitVec 6) : Layout.Statement (.sarSb st gd d a b) := layout_of st rfl (by decide) (by decide) (by
  show some (Instr.sarSb st gd (fld (d ++ a ++ b) 12 6) (fld (d ++ a ++ b) 6 6) (fld (d ++ a ++ b) 0 6)) = _
  rw [f6_6_6_at12, f6_6_6_at6, f6_6_6_at0])
theorem Layout.shliSa (st : BitVec 1) (gd : BitVec 3) (d : BitVec 6) (a : BitVec 6) (i : BitVec 6) : Layout.Statement (.shliSa st gd d a i) := layout_of st rfl (by decide) (by decide) (by
  show some (Instr.shliSa st gd (fld (d ++ a ++ i) 12 6) (fld (d ++ a ++ i) 6 6) (fld (d ++ a ++ i) 0 6)) = _
  rw [f6_6_6_at12, f6_6_6_at6, f6_6_6_at0])
theorem Layout.shliSb (st : BitVec 1) (gd : BitVec 3) (d : BitVec 6) (a : BitVec 6) (i : BitVec 6) : Layout.Statement (.shliSb st gd d a i) := layout_of st rfl (by decide) (by decide) (by
  show some (Instr.shliSb st gd (fld (d ++ a ++ i) 12 6) (fld (d ++ a ++ i) 6 6) (fld (d ++ a ++ i) 0 6)) = _
  rw [f6_6_6_at12, f6_6_6_at6, f6_6_6_at0])
theorem Layout.shriSa (st : BitVec 1) (gd : BitVec 3) (d : BitVec 6) (a : BitVec 6) (i : BitVec 6) : Layout.Statement (.shriSa st gd d a i) := layout_of st rfl (by decide) (by decide) (by
  show some (Instr.shriSa st gd (fld (d ++ a ++ i) 12 6) (fld (d ++ a ++ i) 6 6) (fld (d ++ a ++ i) 0 6)) = _
  rw [f6_6_6_at12, f6_6_6_at6, f6_6_6_at0])
theorem Layout.shriSb (st : BitVec 1) (gd : BitVec 3) (d : BitVec 6) (a : BitVec 6) (i : BitVec 6) : Layout.Statement (.shriSb st gd d a i) := layout_of st rfl (by decide) (by decide) (by
  show some (Instr.shriSb st gd (fld (d ++ a ++ i) 12 6) (fld (d ++ a ++ i) 6 6) (fld (d ++ a ++ i) 0 6)) = _
  rw [f6_6_6_at12, f6_6_6_at6, f6_6_6_at0])
theorem Layout.sariSa (st : BitVec 1) (gd : BitVec 3) (d : BitVec 6) (a : BitVec 6) (i : BitVec 6) : Layout.Statement (.sariSa st gd d a i) := layout_of st rfl (by decide) (by decide) (by
  show some (Instr.sariSa st gd (fld (d ++ a ++ i) 12 6) (fld (d ++ a ++ i) 6 6) (fld (d ++ a ++ i) 0 6)) = _
  rw [f6_6_6_at12, f6_6_6_at6, f6_6_6_at0])
theorem Layout.sariSb (st : BitVec 1) (gd : BitVec 3) (d : BitVec 6) (a : BitVec 6) (i : BitVec 6) : Layout.Statement (.sariSb st gd d a i) := layout_of st rfl (by decide) (by decide) (by
  show some (Instr.sariSb st gd (fld (d ++ a ++ i) 12 6) (fld (d ++ a ++ i) 6 6) (fld (d ++ a ++ i) 0 6)) = _
  rw [f6_6_6_at12, f6_6_6_at6, f6_6_6_at0])
theorem Layout.minSa (st : BitVec 1) (gd : BitVec 3) (d : BitVec 6) (a : BitVec 6) (b : BitVec 6) : Layout.Statement (.minSa st gd d a b) := layout_of st rfl (by decide) (by decide) (by
  show some (Instr.minSa st gd (fld (d ++ a ++ b) 12 6) (fld (d ++ a ++ b) 6 6) (fld (d ++ a ++ b) 0 6)) = _
  rw [f6_6_6_at12, f6_6_6_at6, f6_6_6_at0])
theorem Layout.minSb (st : BitVec 1) (gd : BitVec 3) (d : BitVec 6) (a : BitVec 6) (b : BitVec 6) : Layout.Statement (.minSb st gd d a b) := layout_of st rfl (by decide) (by decide) (by
  show some (Instr.minSb st gd (fld (d ++ a ++ b) 12 6) (fld (d ++ a ++ b) 6 6) (fld (d ++ a ++ b) 0 6)) = _
  rw [f6_6_6_at12, f6_6_6_at6, f6_6_6_at0])
theorem Layout.maxSa (st : BitVec 1) (gd : BitVec 3) (d : BitVec 6) (a : BitVec 6) (b : BitVec 6) : Layout.Statement (.maxSa st gd d a b) := layout_of st rfl (by decide) (by decide) (by
  show some (Instr.maxSa st gd (fld (d ++ a ++ b) 12 6) (fld (d ++ a ++ b) 6 6) (fld (d ++ a ++ b) 0 6)) = _
  rw [f6_6_6_at12, f6_6_6_at6, f6_6_6_at0])
theorem Layout.maxSb (st : BitVec 1) (gd : BitVec 3) (d : BitVec 6) (a : BitVec 6) (b : BitVec 6) : Layout.Statement (.maxSb st gd d a b) := layout_of st rfl (by decide) (by decide) (by
  show some (Instr.maxSb st gd (fld (d ++ a ++ b) 12 6) (fld (d ++ a ++ b) 6 6) (fld (d ++ a ++ b) 0 6)) = _
  rw [f6_6_6_at12, f6_6_6_at6, f6_6_6_at0])
theorem Layout.minuSa (st : BitVec 1) (gd : BitVec 3) (d : BitVec 6) (a : BitVec 6) (b : BitVec 6) : Layout.Statement (.minuSa st gd d a b) := layout_of st rfl (by decide) (by decide) (by
  show some (Instr.minuSa st gd (fld (d ++ a ++ b) 12 6) (fld (d ++ a ++ b) 6 6) (fld (d ++ a ++ b) 0 6)) = _
  rw [f6_6_6_at12, f6_6_6_at6, f6_6_6_at0])
theorem Layout.minuSb (st : BitVec 1) (gd : BitVec 3) (d : BitVec 6) (a : BitVec 6) (b : BitVec 6) : Layout.Statement (.minuSb st gd d a b) := layout_of st rfl (by decide) (by decide) (by
  show some (Instr.minuSb st gd (fld (d ++ a ++ b) 12 6) (fld (d ++ a ++ b) 6 6) (fld (d ++ a ++ b) 0 6)) = _
  rw [f6_6_6_at12, f6_6_6_at6, f6_6_6_at0])
theorem Layout.maxuSa (st : BitVec 1) (gd : BitVec 3) (d : BitVec 6) (a : BitVec 6) (b : BitVec 6) : Layout.Statement (.maxuSa st gd d a b) := layout_of st rfl (by decide) (by decide) (by
  show some (Instr.maxuSa st gd (fld (d ++ a ++ b) 12 6) (fld (d ++ a ++ b) 6 6) (fld (d ++ a ++ b) 0 6)) = _
  rw [f6_6_6_at12, f6_6_6_at6, f6_6_6_at0])
theorem Layout.maxuSb (st : BitVec 1) (gd : BitVec 3) (d : BitVec 6) (a : BitVec 6) (b : BitVec 6) : Layout.Statement (.maxuSb st gd d a b) := layout_of st rfl (by decide) (by decide) (by
  show some (Instr.maxuSb st gd (fld (d ++ a ++ b) 12 6) (fld (d ++ a ++ b) 6 6) (fld (d ++ a ++ b) 0 6)) = _
  rw [f6_6_6_at12, f6_6_6_at6, f6_6_6_at0])
theorem Layout.clzSa (st : BitVec 1) (gd : BitVec 3) (d : BitVec 6) (a : BitVec 6) : Layout.Statement (.clzSa st gd d a) := layout_of st rfl (by decide) (by decide) (by
  show some (Instr.clzSa st gd (fld (d ++ a ++ (0#6)) 12 6) (fld (d ++ a ++ (0#6)) 6 6)) = _
  rw [f6_6_6_at12, f6_6_6_at6])
theorem Layout.clzSb (st : BitVec 1) (gd : BitVec 3) (d : BitVec 6) (a : BitVec 6) : Layout.Statement (.clzSb st gd d a) := layout_of st rfl (by decide) (by decide) (by
  show some (Instr.clzSb st gd (fld (d ++ a ++ (0#6)) 12 6) (fld (d ++ a ++ (0#6)) 6 6)) = _
  rw [f6_6_6_at12, f6_6_6_at6])
theorem Layout.popcSa (st : BitVec 1) (gd : BitVec 3) (d : BitVec 6) (a : BitVec 6) : Layout.Statement (.popcSa st gd d a) := layout_of st rfl (by decide) (by decide) (by
  show some (Instr.popcSa st gd (fld (d ++ a ++ (0#6)) 12 6) (fld (d ++ a ++ (0#6)) 6 6)) = _
  rw [f6_6_6_at12, f6_6_6_at6])
theorem Layout.popcSb (st : BitVec 1) (gd : BitVec 3) (d : BitVec 6) (a : BitVec 6) : Layout.Statement (.popcSb st gd d a) := layout_of st rfl (by decide) (by decide) (by
  show some (Instr.popcSb st gd (fld (d ++ a ++ (0#6)) 12 6) (fld (d ++ a ++ (0#6)) 6 6)) = _
  rw [f6_6_6_at12, f6_6_6_at6])
theorem Layout.extSa (st : BitVec 1) (gd : BitVec 3) (d : BitVec 6) (a : BitVec 6) (i : BitVec 6) : Layout.Statement (.extSa st gd d a i) := layout_of st rfl (by decide) (by decide) (by
  show some (Instr.extSa st gd (fld (d ++ a ++ i) 12 6) (fld (d ++ a ++ i) 6 6) (fld (d ++ a ++ i) 0 6)) = _
  rw [f6_6_6_at12, f6_6_6_at6, f6_6_6_at0])
theorem Layout.extSb (st : BitVec 1) (gd : BitVec 3) (d : BitVec 6) (a : BitVec 6) (i : BitVec 6) : Layout.Statement (.extSb st gd d a i) := layout_of st rfl (by decide) (by decide) (by
  show some (Instr.extSb st gd (fld (d ++ a ++ i) 12 6) (fld (d ++ a ++ i) 6 6) (fld (d ++ a ++ i) 0 6)) = _
  rw [f6_6_6_at12, f6_6_6_at6, f6_6_6_at0])
theorem Layout.extzSa (st : BitVec 1) (gd : BitVec 3) (d : BitVec 6) (a : BitVec 6) (i : BitVec 6) : Layout.Statement (.extzSa st gd d a i) := layout_of st rfl (by decide) (by decide) (by
  show some (Instr.extzSa st gd (fld (d ++ a ++ i) 12 6) (fld (d ++ a ++ i) 6 6) (fld (d ++ a ++ i) 0 6)) = _
  rw [f6_6_6_at12, f6_6_6_at6, f6_6_6_at0])
theorem Layout.extzSb (st : BitVec 1) (gd : BitVec 3) (d : BitVec 6) (a : BitVec 6) (i : BitVec 6) : Layout.Statement (.extzSb st gd d a i) := layout_of st rfl (by decide) (by decide) (by
  show some (Instr.extzSb st gd (fld (d ++ a ++ i) 12 6) (fld (d ++ a ++ i) 6 6) (fld (d ++ a ++ i) 0 6)) = _
  rw [f6_6_6_at12, f6_6_6_at6, f6_6_6_at0])
theorem Layout.movSa (st : BitVec 1) (gd : BitVec 3) (d : BitVec 6) (a : BitVec 6) : Layout.Statement (.movSa st gd d a) := layout_of st rfl (by decide) (by decide) (by
  show some (Instr.movSa st gd (fld (d ++ a ++ (0#6)) 12 6) (fld (d ++ a ++ (0#6)) 6 6)) = _
  rw [f6_6_6_at12, f6_6_6_at6])
theorem Layout.movSb (st : BitVec 1) (gd : BitVec 3) (d : BitVec 6) (a : BitVec 6) : Layout.Statement (.movSb st gd d a) := layout_of st rfl (by decide) (by decide) (by
  show some (Instr.movSb st gd (fld (d ++ a ++ (0#6)) 12 6) (fld (d ++ a ++ (0#6)) 6 6)) = _
  rw [f6_6_6_at12, f6_6_6_at6])
theorem Layout.moviSa (st : BitVec 1) (gd : BitVec 3) (d : BitVec 6) (i : BitVec 12) : Layout.Statement (.moviSa st gd d i) := layout_of st rfl (by decide) (by decide) (by
  show some (Instr.moviSa st gd (fld (d ++ i) 12 6) (fld (d ++ i) 0 12)) = _
  rw [f6_12_at12, f6_12_at0])
theorem Layout.moviSb (st : BitVec 1) (gd : BitVec 3) (d : BitVec 6) (i : BitVec 12) : Layout.Statement (.moviSb st gd d i) := layout_of st rfl (by decide) (by decide) (by
  show some (Instr.moviSb st gd (fld (d ++ i) 12 6) (fld (d ++ i) 0 12)) = _
  rw [f6_12_at12, f6_12_at0])
theorem Layout.cmpEqSa (st : BitVec 1) (gd : BitVec 3) (p : BitVec 7) (a : BitVec 6) (b : BitVec 5) : Layout.Statement (.cmpEqSa st gd p a b) := layout_of st rfl (by decide) (by decide) (by
  show some (Instr.cmpEqSa st gd (fld (p ++ a ++ b) 11 7) (fld (p ++ a ++ b) 5 6) (fld (p ++ a ++ b) 0 5)) = _
  rw [f7_6_5_at11, f7_6_5_at5, f7_6_5_at0])
theorem Layout.cmpEqSb (st : BitVec 1) (gd : BitVec 3) (p : BitVec 7) (a : BitVec 6) (b : BitVec 5) : Layout.Statement (.cmpEqSb st gd p a b) := layout_of st rfl (by decide) (by decide) (by
  show some (Instr.cmpEqSb st gd (fld (p ++ a ++ b) 11 7) (fld (p ++ a ++ b) 5 6) (fld (p ++ a ++ b) 0 5)) = _
  rw [f7_6_5_at11, f7_6_5_at5, f7_6_5_at0])
theorem Layout.cmpNeSa (st : BitVec 1) (gd : BitVec 3) (p : BitVec 7) (a : BitVec 6) (b : BitVec 5) : Layout.Statement (.cmpNeSa st gd p a b) := layout_of st rfl (by decide) (by decide) (by
  show some (Instr.cmpNeSa st gd (fld (p ++ a ++ b) 11 7) (fld (p ++ a ++ b) 5 6) (fld (p ++ a ++ b) 0 5)) = _
  rw [f7_6_5_at11, f7_6_5_at5, f7_6_5_at0])
theorem Layout.cmpNeSb (st : BitVec 1) (gd : BitVec 3) (p : BitVec 7) (a : BitVec 6) (b : BitVec 5) : Layout.Statement (.cmpNeSb st gd p a b) := layout_of st rfl (by decide) (by decide) (by
  show some (Instr.cmpNeSb st gd (fld (p ++ a ++ b) 11 7) (fld (p ++ a ++ b) 5 6) (fld (p ++ a ++ b) 0 5)) = _
  rw [f7_6_5_at11, f7_6_5_at5, f7_6_5_at0])
theorem Layout.cmpLtSa (st : BitVec 1) (gd : BitVec 3) (p : BitVec 7) (a : BitVec 6) (b : BitVec 5) : Layout.Statement (.cmpLtSa st gd p a b) := layout_of st rfl (by decide) (by decide) (by
  show some (Instr.cmpLtSa st gd (fld (p ++ a ++ b) 11 7) (fld (p ++ a ++ b) 5 6) (fld (p ++ a ++ b) 0 5)) = _
  rw [f7_6_5_at11, f7_6_5_at5, f7_6_5_at0])
theorem Layout.cmpLtSb (st : BitVec 1) (gd : BitVec 3) (p : BitVec 7) (a : BitVec 6) (b : BitVec 5) : Layout.Statement (.cmpLtSb st gd p a b) := layout_of st rfl (by decide) (by decide) (by
  show some (Instr.cmpLtSb st gd (fld (p ++ a ++ b) 11 7) (fld (p ++ a ++ b) 5 6) (fld (p ++ a ++ b) 0 5)) = _
  rw [f7_6_5_at11, f7_6_5_at5, f7_6_5_at0])
theorem Layout.cmpLeSa (st : BitVec 1) (gd : BitVec 3) (p : BitVec 7) (a : BitVec 6) (b : BitVec 5) : Layout.Statement (.cmpLeSa st gd p a b) := layout_of st rfl (by decide) (by decide) (by
  show some (Instr.cmpLeSa st gd (fld (p ++ a ++ b) 11 7) (fld (p ++ a ++ b) 5 6) (fld (p ++ a ++ b) 0 5)) = _
  rw [f7_6_5_at11, f7_6_5_at5, f7_6_5_at0])
theorem Layout.cmpLeSb (st : BitVec 1) (gd : BitVec 3) (p : BitVec 7) (a : BitVec 6) (b : BitVec 5) : Layout.Statement (.cmpLeSb st gd p a b) := layout_of st rfl (by decide) (by decide) (by
  show some (Instr.cmpLeSb st gd (fld (p ++ a ++ b) 11 7) (fld (p ++ a ++ b) 5 6) (fld (p ++ a ++ b) 0 5)) = _
  rw [f7_6_5_at11, f7_6_5_at5, f7_6_5_at0])
theorem Layout.cmpLtuSa (st : BitVec 1) (gd : BitVec 3) (p : BitVec 7) (a : BitVec 6) (b : BitVec 5) : Layout.Statement (.cmpLtuSa st gd p a b) := layout_of st rfl (by decide) (by decide) (by
  show some (Instr.cmpLtuSa st gd (fld (p ++ a ++ b) 11 7) (fld (p ++ a ++ b) 5 6) (fld (p ++ a ++ b) 0 5)) = _
  rw [f7_6_5_at11, f7_6_5_at5, f7_6_5_at0])
theorem Layout.cmpLtuSb (st : BitVec 1) (gd : BitVec 3) (p : BitVec 7) (a : BitVec 6) (b : BitVec 5) : Layout.Statement (.cmpLtuSb st gd p a b) := layout_of st rfl (by decide) (by decide) (by
  show some (Instr.cmpLtuSb st gd (fld (p ++ a ++ b) 11 7) (fld (p ++ a ++ b) 5 6) (fld (p ++ a ++ b) 0 5)) = _
  rw [f7_6_5_at11, f7_6_5_at5, f7_6_5_at0])
theorem Layout.cmpLeuSa (st : BitVec 1) (gd : BitVec 3) (p : BitVec 7) (a : BitVec 6) (b : BitVec 5) : Layout.Statement (.cmpLeuSa st gd p a b) := layout_of st rfl (by decide) (by decide) (by
  show some (Instr.cmpLeuSa st gd (fld (p ++ a ++ b) 11 7) (fld (p ++ a ++ b) 5 6) (fld (p ++ a ++ b) 0 5)) = _
  rw [f7_6_5_at11, f7_6_5_at5, f7_6_5_at0])
theorem Layout.cmpLeuSb (st : BitVec 1) (gd : BitVec 3) (p : BitVec 7) (a : BitVec 6) (b : BitVec 5) : Layout.Statement (.cmpLeuSb st gd p a b) := layout_of st rfl (by decide) (by decide) (by
  show some (Instr.cmpLeuSb st gd (fld (p ++ a ++ b) 11 7) (fld (p ++ a ++ b) 5 6) (fld (p ++ a ++ b) 0 5)) = _
  rw [f7_6_5_at11, f7_6_5_at5, f7_6_5_at0])
theorem Layout.cmpiEqSa (st : BitVec 1) (gd : BitVec 3) (p : BitVec 7) (a : BitVec 6) (i : BitVec 5) : Layout.Statement (.cmpiEqSa st gd p a i) := layout_of st rfl (by decide) (by decide) (by
  show some (Instr.cmpiEqSa st gd (fld (p ++ a ++ i) 11 7) (fld (p ++ a ++ i) 5 6) (fld (p ++ a ++ i) 0 5)) = _
  rw [f7_6_5_at11, f7_6_5_at5, f7_6_5_at0])
theorem Layout.cmpiEqSb (st : BitVec 1) (gd : BitVec 3) (p : BitVec 7) (a : BitVec 6) (i : BitVec 5) : Layout.Statement (.cmpiEqSb st gd p a i) := layout_of st rfl (by decide) (by decide) (by
  show some (Instr.cmpiEqSb st gd (fld (p ++ a ++ i) 11 7) (fld (p ++ a ++ i) 5 6) (fld (p ++ a ++ i) 0 5)) = _
  rw [f7_6_5_at11, f7_6_5_at5, f7_6_5_at0])
theorem Layout.cmpiNeSa (st : BitVec 1) (gd : BitVec 3) (p : BitVec 7) (a : BitVec 6) (i : BitVec 5) : Layout.Statement (.cmpiNeSa st gd p a i) := layout_of st rfl (by decide) (by decide) (by
  show some (Instr.cmpiNeSa st gd (fld (p ++ a ++ i) 11 7) (fld (p ++ a ++ i) 5 6) (fld (p ++ a ++ i) 0 5)) = _
  rw [f7_6_5_at11, f7_6_5_at5, f7_6_5_at0])
theorem Layout.cmpiNeSb (st : BitVec 1) (gd : BitVec 3) (p : BitVec 7) (a : BitVec 6) (i : BitVec 5) : Layout.Statement (.cmpiNeSb st gd p a i) := layout_of st rfl (by decide) (by decide) (by
  show some (Instr.cmpiNeSb st gd (fld (p ++ a ++ i) 11 7) (fld (p ++ a ++ i) 5 6) (fld (p ++ a ++ i) 0 5)) = _
  rw [f7_6_5_at11, f7_6_5_at5, f7_6_5_at0])
theorem Layout.cmpiLtSa (st : BitVec 1) (gd : BitVec 3) (p : BitVec 7) (a : BitVec 6) (i : BitVec 5) : Layout.Statement (.cmpiLtSa st gd p a i) := layout_of st rfl (by decide) (by decide) (by
  show some (Instr.cmpiLtSa st gd (fld (p ++ a ++ i) 11 7) (fld (p ++ a ++ i) 5 6) (fld (p ++ a ++ i) 0 5)) = _
  rw [f7_6_5_at11, f7_6_5_at5, f7_6_5_at0])
theorem Layout.cmpiLtSb (st : BitVec 1) (gd : BitVec 3) (p : BitVec 7) (a : BitVec 6) (i : BitVec 5) : Layout.Statement (.cmpiLtSb st gd p a i) := layout_of st rfl (by decide) (by decide) (by
  show some (Instr.cmpiLtSb st gd (fld (p ++ a ++ i) 11 7) (fld (p ++ a ++ i) 5 6) (fld (p ++ a ++ i) 0 5)) = _
  rw [f7_6_5_at11, f7_6_5_at5, f7_6_5_at0])
theorem Layout.cmpiLeSa (st : BitVec 1) (gd : BitVec 3) (p : BitVec 7) (a : BitVec 6) (i : BitVec 5) : Layout.Statement (.cmpiLeSa st gd p a i) := layout_of st rfl (by decide) (by decide) (by
  show some (Instr.cmpiLeSa st gd (fld (p ++ a ++ i) 11 7) (fld (p ++ a ++ i) 5 6) (fld (p ++ a ++ i) 0 5)) = _
  rw [f7_6_5_at11, f7_6_5_at5, f7_6_5_at0])
theorem Layout.cmpiLeSb (st : BitVec 1) (gd : BitVec 3) (p : BitVec 7) (a : BitVec 6) (i : BitVec 5) : Layout.Statement (.cmpiLeSb st gd p a i) := layout_of st rfl (by decide) (by decide) (by
  show some (Instr.cmpiLeSb st gd (fld (p ++ a ++ i) 11 7) (fld (p ++ a ++ i) 5 6) (fld (p ++ a ++ i) 0 5)) = _
  rw [f7_6_5_at11, f7_6_5_at5, f7_6_5_at0])
theorem Layout.cmpiLtuSa (st : BitVec 1) (gd : BitVec 3) (p : BitVec 7) (a : BitVec 6) (i : BitVec 5) : Layout.Statement (.cmpiLtuSa st gd p a i) := layout_of st rfl (by decide) (by decide) (by
  show some (Instr.cmpiLtuSa st gd (fld (p ++ a ++ i) 11 7) (fld (p ++ a ++ i) 5 6) (fld (p ++ a ++ i) 0 5)) = _
  rw [f7_6_5_at11, f7_6_5_at5, f7_6_5_at0])
theorem Layout.cmpiLtuSb (st : BitVec 1) (gd : BitVec 3) (p : BitVec 7) (a : BitVec 6) (i : BitVec 5) : Layout.Statement (.cmpiLtuSb st gd p a i) := layout_of st rfl (by decide) (by decide) (by
  show some (Instr.cmpiLtuSb st gd (fld (p ++ a ++ i) 11 7) (fld (p ++ a ++ i) 5 6) (fld (p ++ a ++ i) 0 5)) = _
  rw [f7_6_5_at11, f7_6_5_at5, f7_6_5_at0])
theorem Layout.cmpiLeuSa (st : BitVec 1) (gd : BitVec 3) (p : BitVec 7) (a : BitVec 6) (i : BitVec 5) : Layout.Statement (.cmpiLeuSa st gd p a i) := layout_of st rfl (by decide) (by decide) (by
  show some (Instr.cmpiLeuSa st gd (fld (p ++ a ++ i) 11 7) (fld (p ++ a ++ i) 5 6) (fld (p ++ a ++ i) 0 5)) = _
  rw [f7_6_5_at11, f7_6_5_at5, f7_6_5_at0])
theorem Layout.cmpiLeuSb (st : BitVec 1) (gd : BitVec 3) (p : BitVec 7) (a : BitVec 6) (i : BitVec 5) : Layout.Statement (.cmpiLeuSb st gd p a i) := layout_of st rfl (by decide) (by decide) (by
  show some (Instr.cmpiLeuSb st gd (fld (p ++ a ++ i) 11 7) (fld (p ++ a ++ i) 5 6) (fld (p ++ a ++ i) 0 5)) = _
  rw [f7_6_5_at11, f7_6_5_at5, f7_6_5_at0])
theorem Layout.pandSa (st : BitVec 1) (gd : BitVec 3) (p : BitVec 7) (q : BitVec 7) : Layout.Statement (.pandSa st gd p q) := layout_of st rfl (by decide) (by decide) (by
  show some (Instr.pandSa st gd (fld (p ++ q ++ (0#4)) 11 7) (fld (p ++ q ++ (0#4)) 4 7)) = _
  rw [f7_7_4_at11, f7_7_4_at4])
theorem Layout.pandSb (st : BitVec 1) (gd : BitVec 3) (p : BitVec 7) (q : BitVec 7) : Layout.Statement (.pandSb st gd p q) := layout_of st rfl (by decide) (by decide) (by
  show some (Instr.pandSb st gd (fld (p ++ q ++ (0#4)) 11 7) (fld (p ++ q ++ (0#4)) 4 7)) = _
  rw [f7_7_4_at11, f7_7_4_at4])
theorem Layout.porSa (st : BitVec 1) (gd : BitVec 3) (p : BitVec 7) (q : BitVec 7) : Layout.Statement (.porSa st gd p q) := layout_of st rfl (by decide) (by decide) (by
  show some (Instr.porSa st gd (fld (p ++ q ++ (0#4)) 11 7) (fld (p ++ q ++ (0#4)) 4 7)) = _
  rw [f7_7_4_at11, f7_7_4_at4])
theorem Layout.porSb (st : BitVec 1) (gd : BitVec 3) (p : BitVec 7) (q : BitVec 7) : Layout.Statement (.porSb st gd p q) := layout_of st rfl (by decide) (by decide) (by
  show some (Instr.porSb st gd (fld (p ++ q ++ (0#4)) 11 7) (fld (p ++ q ++ (0#4)) 4 7)) = _
  rw [f7_7_4_at11, f7_7_4_at4])
theorem Layout.pxorSa (st : BitVec 1) (gd : BitVec 3) (p : BitVec 7) (q : BitVec 7) : Layout.Statement (.pxorSa st gd p q) := layout_of st rfl (by decide) (by decide) (by
  show some (Instr.pxorSa st gd (fld (p ++ q ++ (0#4)) 11 7) (fld (p ++ q ++ (0#4)) 4 7)) = _
  rw [f7_7_4_at11, f7_7_4_at4])
theorem Layout.pxorSb (st : BitVec 1) (gd : BitVec 3) (p : BitVec 7) (q : BitVec 7) : Layout.Statement (.pxorSb st gd p q) := layout_of st rfl (by decide) (by decide) (by
  show some (Instr.pxorSb st gd (fld (p ++ q ++ (0#4)) 11 7) (fld (p ++ q ++ (0#4)) 4 7)) = _
  rw [f7_7_4_at11, f7_7_4_at4])
theorem Layout.pandnSa (st : BitVec 1) (gd : BitVec 3) (p : BitVec 7) (q : BitVec 7) : Layout.Statement (.pandnSa st gd p q) := layout_of st rfl (by decide) (by decide) (by
  show some (Instr.pandnSa st gd (fld (p ++ q ++ (0#4)) 11 7) (fld (p ++ q ++ (0#4)) 4 7)) = _
  rw [f7_7_4_at11, f7_7_4_at4])
theorem Layout.pandnSb (st : BitVec 1) (gd : BitVec 3) (p : BitVec 7) (q : BitVec 7) : Layout.Statement (.pandnSb st gd p q) := layout_of st rfl (by decide) (by decide) (by
  show some (Instr.pandnSb st gd (fld (p ++ q ++ (0#4)) 11 7) (fld (p ++ q ++ (0#4)) 4 7)) = _
  rw [f7_7_4_at11, f7_7_4_at4])
theorem Layout.pnotSa (st : BitVec 1) (gd : BitVec 3) (p : BitVec 7) (q : BitVec 7) : Layout.Statement (.pnotSa st gd p q) := layout_of st rfl (by decide) (by decide) (by
  show some (Instr.pnotSa st gd (fld (p ++ q ++ (0#4)) 11 7) (fld (p ++ q ++ (0#4)) 4 7)) = _
  rw [f7_7_4_at11, f7_7_4_at4])
theorem Layout.pnotSb (st : BitVec 1) (gd : BitVec 3) (p : BitVec 7) (q : BitVec 7) : Layout.Statement (.pnotSb st gd p q) := layout_of st rfl (by decide) (by decide) (by
  show some (Instr.pnotSb st gd (fld (p ++ q ++ (0#4)) 11 7) (fld (p ++ q ++ (0#4)) 4 7)) = _
  rw [f7_7_4_at11, f7_7_4_at4])
theorem Layout.pmovSa (st : BitVec 1) (gd : BitVec 3) (p : BitVec 7) (q : BitVec 7) : Layout.Statement (.pmovSa st gd p q) := layout_of st rfl (by decide) (by decide) (by
  show some (Instr.pmovSa st gd (fld (p ++ q ++ (0#4)) 11 7) (fld (p ++ q ++ (0#4)) 4 7)) = _
  rw [f7_7_4_at11, f7_7_4_at4])
theorem Layout.pmovSb (st : BitVec 1) (gd : BitVec 3) (p : BitVec 7) (q : BitVec 7) : Layout.Statement (.pmovSb st gd p q) := layout_of st rfl (by decide) (by decide) (by
  show some (Instr.pmovSb st gd (fld (p ++ q ++ (0#4)) 11 7) (fld (p ++ q ++ (0#4)) 4 7)) = _
  rw [f7_7_4_at11, f7_7_4_at4])
theorem Layout.psetiSa (st : BitVec 1) (gd : BitVec 3) (p : BitVec 7) (b : BitVec 1) : Layout.Statement (.psetiSa st gd p b) := layout_of st rfl (by decide) (by decide) (by
  show some (Instr.psetiSa st gd (fld (p ++ (0#10) ++ b) 11 7) (fld (p ++ (0#10) ++ b) 0 1)) = _
  rw [f7_10_1_at11, f7_10_1_at0])
theorem Layout.psetiSb (st : BitVec 1) (gd : BitVec 3) (p : BitVec 7) (b : BitVec 1) : Layout.Statement (.psetiSb st gd p b) := layout_of st rfl (by decide) (by decide) (by
  show some (Instr.psetiSb st gd (fld (p ++ (0#10) ++ b) 11 7) (fld (p ++ (0#10) ++ b) 0 1)) = _
  rw [f7_10_1_at11, f7_10_1_at0])
theorem Layout.ptosSa (st : BitVec 1) (gd : BitVec 3) (d : BitVec 6) (q : BitVec 7) : Layout.Statement (.ptosSa st gd d q) := layout_of st rfl (by decide) (by decide) (by
  show some (Instr.ptosSa st gd (fld (d ++ (0#5) ++ q) 12 6) (fld (d ++ (0#5) ++ q) 0 7)) = _
  rw [f6_5_7_at12, f6_5_7_at0])
theorem Layout.ptosSb (st : BitVec 1) (gd : BitVec 3) (d : BitVec 6) (q : BitVec 7) : Layout.Statement (.ptosSb st gd d q) := layout_of st rfl (by decide) (by decide) (by
  show some (Instr.ptosSb st gd (fld (d ++ (0#5) ++ q) 12 6) (fld (d ++ (0#5) ++ q) 0 7)) = _
  rw [f6_5_7_at12, f6_5_7_at0])
theorem Layout.setpSa (st : BitVec 1) (gd : BitVec 3) (p : BitVec 7) (a : BitVec 6) : Layout.Statement (.setpSa st gd p a) := layout_of st rfl (by decide) (by decide) (by
  show some (Instr.setpSa st gd (fld (p ++ a ++ (0#5)) 11 7) (fld (p ++ a ++ (0#5)) 5 6)) = _
  rw [f7_6_5_at11, f7_6_5_at5])
theorem Layout.setpSb (st : BitVec 1) (gd : BitVec 3) (p : BitVec 7) (a : BitVec 6) : Layout.Statement (.setpSb st gd p a) := layout_of st rfl (by decide) (by decide) (by
  show some (Instr.setpSb st gd (fld (p ++ a ++ (0#5)) 11 7) (fld (p ++ a ++ (0#5)) 5 6)) = _
  rw [f7_6_5_at11, f7_6_5_at5])
theorem Layout.schkSa (st : BitVec 1) (gd : BitVec 3) (a : BitVec 6) (b : BitVec 6) : Layout.Statement (.schkSa st gd a b) := layout_of st rfl (by decide) (by decide) (by
  show some (Instr.schkSa st gd (fld ((0#6) ++ a ++ b) 6 6) (fld ((0#6) ++ a ++ b) 0 6)) = _
  rw [f6_6_6_at6, f6_6_6_at0])
theorem Layout.schkSb (st : BitVec 1) (gd : BitVec 3) (a : BitVec 6) (b : BitVec 6) : Layout.Statement (.schkSb st gd a b) := layout_of st rfl (by decide) (by decide) (by
  show some (Instr.schkSb st gd (fld ((0#6) ++ a ++ b) 6 6) (fld ((0#6) ++ a ++ b) 0 6)) = _
  rw [f6_6_6_at6, f6_6_6_at0])
theorem Layout.vaddF32Va (st : BitVec 1) (gd : BitVec 3) (d : BitVec 6) (a : BitVec 6) (b : BitVec 6) : Layout.Statement (.vaddF32Va st gd d a b) := layout_of st rfl (by decide) (by decide) (by
  show some (Instr.vaddF32Va st gd (fld (d ++ a ++ b) 12 6) (fld (d ++ a ++ b) 6 6) (fld (d ++ a ++ b) 0 6)) = _
  rw [f6_6_6_at12, f6_6_6_at6, f6_6_6_at0])
theorem Layout.vaddF32Vb (st : BitVec 1) (gd : BitVec 3) (d : BitVec 6) (a : BitVec 6) (b : BitVec 6) : Layout.Statement (.vaddF32Vb st gd d a b) := layout_of st rfl (by decide) (by decide) (by
  show some (Instr.vaddF32Vb st gd (fld (d ++ a ++ b) 12 6) (fld (d ++ a ++ b) 6 6) (fld (d ++ a ++ b) 0 6)) = _
  rw [f6_6_6_at12, f6_6_6_at6, f6_6_6_at0])
theorem Layout.vsubF32Va (st : BitVec 1) (gd : BitVec 3) (d : BitVec 6) (a : BitVec 6) (b : BitVec 6) : Layout.Statement (.vsubF32Va st gd d a b) := layout_of st rfl (by decide) (by decide) (by
  show some (Instr.vsubF32Va st gd (fld (d ++ a ++ b) 12 6) (fld (d ++ a ++ b) 6 6) (fld (d ++ a ++ b) 0 6)) = _
  rw [f6_6_6_at12, f6_6_6_at6, f6_6_6_at0])
theorem Layout.vsubF32Vb (st : BitVec 1) (gd : BitVec 3) (d : BitVec 6) (a : BitVec 6) (b : BitVec 6) : Layout.Statement (.vsubF32Vb st gd d a b) := layout_of st rfl (by decide) (by decide) (by
  show some (Instr.vsubF32Vb st gd (fld (d ++ a ++ b) 12 6) (fld (d ++ a ++ b) 6 6) (fld (d ++ a ++ b) 0 6)) = _
  rw [f6_6_6_at12, f6_6_6_at6, f6_6_6_at0])
theorem Layout.vmulF32Va (st : BitVec 1) (gd : BitVec 3) (d : BitVec 6) (a : BitVec 6) (b : BitVec 6) : Layout.Statement (.vmulF32Va st gd d a b) := layout_of st rfl (by decide) (by decide) (by
  show some (Instr.vmulF32Va st gd (fld (d ++ a ++ b) 12 6) (fld (d ++ a ++ b) 6 6) (fld (d ++ a ++ b) 0 6)) = _
  rw [f6_6_6_at12, f6_6_6_at6, f6_6_6_at0])
theorem Layout.vmulF32Vb (st : BitVec 1) (gd : BitVec 3) (d : BitVec 6) (a : BitVec 6) (b : BitVec 6) : Layout.Statement (.vmulF32Vb st gd d a b) := layout_of st rfl (by decide) (by decide) (by
  show some (Instr.vmulF32Vb st gd (fld (d ++ a ++ b) 12 6) (fld (d ++ a ++ b) 6 6) (fld (d ++ a ++ b) 0 6)) = _
  rw [f6_6_6_at12, f6_6_6_at6, f6_6_6_at0])
theorem Layout.vfmaF32Va (st : BitVec 1) (gd : BitVec 3) (d : BitVec 6) (a : BitVec 6) (b : BitVec 6) : Layout.Statement (.vfmaF32Va st gd d a b) := layout_of st rfl (by decide) (by decide) (by
  show some (Instr.vfmaF32Va st gd (fld (d ++ a ++ b) 12 6) (fld (d ++ a ++ b) 6 6) (fld (d ++ a ++ b) 0 6)) = _
  rw [f6_6_6_at12, f6_6_6_at6, f6_6_6_at0])
theorem Layout.vfmaF32Vb (st : BitVec 1) (gd : BitVec 3) (d : BitVec 6) (a : BitVec 6) (b : BitVec 6) : Layout.Statement (.vfmaF32Vb st gd d a b) := layout_of st rfl (by decide) (by decide) (by
  show some (Instr.vfmaF32Vb st gd (fld (d ++ a ++ b) 12 6) (fld (d ++ a ++ b) 6 6) (fld (d ++ a ++ b) 0 6)) = _
  rw [f6_6_6_at12, f6_6_6_at6, f6_6_6_at0])
theorem Layout.vfmsF32Va (st : BitVec 1) (gd : BitVec 3) (d : BitVec 6) (a : BitVec 6) (b : BitVec 6) : Layout.Statement (.vfmsF32Va st gd d a b) := layout_of st rfl (by decide) (by decide) (by
  show some (Instr.vfmsF32Va st gd (fld (d ++ a ++ b) 12 6) (fld (d ++ a ++ b) 6 6) (fld (d ++ a ++ b) 0 6)) = _
  rw [f6_6_6_at12, f6_6_6_at6, f6_6_6_at0])
theorem Layout.vfmsF32Vb (st : BitVec 1) (gd : BitVec 3) (d : BitVec 6) (a : BitVec 6) (b : BitVec 6) : Layout.Statement (.vfmsF32Vb st gd d a b) := layout_of st rfl (by decide) (by decide) (by
  show some (Instr.vfmsF32Vb st gd (fld (d ++ a ++ b) 12 6) (fld (d ++ a ++ b) 6 6) (fld (d ++ a ++ b) 0 6)) = _
  rw [f6_6_6_at12, f6_6_6_at6, f6_6_6_at0])
theorem Layout.vminF32Va (st : BitVec 1) (gd : BitVec 3) (d : BitVec 6) (a : BitVec 6) (b : BitVec 6) : Layout.Statement (.vminF32Va st gd d a b) := layout_of st rfl (by decide) (by decide) (by
  show some (Instr.vminF32Va st gd (fld (d ++ a ++ b) 12 6) (fld (d ++ a ++ b) 6 6) (fld (d ++ a ++ b) 0 6)) = _
  rw [f6_6_6_at12, f6_6_6_at6, f6_6_6_at0])
theorem Layout.vminF32Vb (st : BitVec 1) (gd : BitVec 3) (d : BitVec 6) (a : BitVec 6) (b : BitVec 6) : Layout.Statement (.vminF32Vb st gd d a b) := layout_of st rfl (by decide) (by decide) (by
  show some (Instr.vminF32Vb st gd (fld (d ++ a ++ b) 12 6) (fld (d ++ a ++ b) 6 6) (fld (d ++ a ++ b) 0 6)) = _
  rw [f6_6_6_at12, f6_6_6_at6, f6_6_6_at0])
theorem Layout.vmaxF32Va (st : BitVec 1) (gd : BitVec 3) (d : BitVec 6) (a : BitVec 6) (b : BitVec 6) : Layout.Statement (.vmaxF32Va st gd d a b) := layout_of st rfl (by decide) (by decide) (by
  show some (Instr.vmaxF32Va st gd (fld (d ++ a ++ b) 12 6) (fld (d ++ a ++ b) 6 6) (fld (d ++ a ++ b) 0 6)) = _
  rw [f6_6_6_at12, f6_6_6_at6, f6_6_6_at0])
theorem Layout.vmaxF32Vb (st : BitVec 1) (gd : BitVec 3) (d : BitVec 6) (a : BitVec 6) (b : BitVec 6) : Layout.Statement (.vmaxF32Vb st gd d a b) := layout_of st rfl (by decide) (by decide) (by
  show some (Instr.vmaxF32Vb st gd (fld (d ++ a ++ b) 12 6) (fld (d ++ a ++ b) 6 6) (fld (d ++ a ++ b) 0 6)) = _
  rw [f6_6_6_at12, f6_6_6_at6, f6_6_6_at0])
theorem Layout.vabsF32Va (st : BitVec 1) (gd : BitVec 3) (d : BitVec 6) (a : BitVec 6) : Layout.Statement (.vabsF32Va st gd d a) := layout_of st rfl (by decide) (by decide) (by
  show some (Instr.vabsF32Va st gd (fld (d ++ a ++ (0#6)) 12 6) (fld (d ++ a ++ (0#6)) 6 6)) = _
  rw [f6_6_6_at12, f6_6_6_at6])
theorem Layout.vabsF32Vb (st : BitVec 1) (gd : BitVec 3) (d : BitVec 6) (a : BitVec 6) : Layout.Statement (.vabsF32Vb st gd d a) := layout_of st rfl (by decide) (by decide) (by
  show some (Instr.vabsF32Vb st gd (fld (d ++ a ++ (0#6)) 12 6) (fld (d ++ a ++ (0#6)) 6 6)) = _
  rw [f6_6_6_at12, f6_6_6_at6])
theorem Layout.vnegF32Va (st : BitVec 1) (gd : BitVec 3) (d : BitVec 6) (a : BitVec 6) : Layout.Statement (.vnegF32Va st gd d a) := layout_of st rfl (by decide) (by decide) (by
  show some (Instr.vnegF32Va st gd (fld (d ++ a ++ (0#6)) 12 6) (fld (d ++ a ++ (0#6)) 6 6)) = _
  rw [f6_6_6_at12, f6_6_6_at6])
theorem Layout.vnegF32Vb (st : BitVec 1) (gd : BitVec 3) (d : BitVec 6) (a : BitVec 6) : Layout.Statement (.vnegF32Vb st gd d a) := layout_of st rfl (by decide) (by decide) (by
  show some (Instr.vnegF32Vb st gd (fld (d ++ a ++ (0#6)) 12 6) (fld (d ++ a ++ (0#6)) 6 6)) = _
  rw [f6_6_6_at12, f6_6_6_at6])
theorem Layout.vaddBfVa (st : BitVec 1) (gd : BitVec 3) (d : BitVec 6) (a : BitVec 6) (b : BitVec 6) : Layout.Statement (.vaddBfVa st gd d a b) := layout_of st rfl (by decide) (by decide) (by
  show some (Instr.vaddBfVa st gd (fld (d ++ a ++ b) 12 6) (fld (d ++ a ++ b) 6 6) (fld (d ++ a ++ b) 0 6)) = _
  rw [f6_6_6_at12, f6_6_6_at6, f6_6_6_at0])
theorem Layout.vaddBfVb (st : BitVec 1) (gd : BitVec 3) (d : BitVec 6) (a : BitVec 6) (b : BitVec 6) : Layout.Statement (.vaddBfVb st gd d a b) := layout_of st rfl (by decide) (by decide) (by
  show some (Instr.vaddBfVb st gd (fld (d ++ a ++ b) 12 6) (fld (d ++ a ++ b) 6 6) (fld (d ++ a ++ b) 0 6)) = _
  rw [f6_6_6_at12, f6_6_6_at6, f6_6_6_at0])
theorem Layout.vmulBfVa (st : BitVec 1) (gd : BitVec 3) (d : BitVec 6) (a : BitVec 6) (b : BitVec 6) : Layout.Statement (.vmulBfVa st gd d a b) := layout_of st rfl (by decide) (by decide) (by
  show some (Instr.vmulBfVa st gd (fld (d ++ a ++ b) 12 6) (fld (d ++ a ++ b) 6 6) (fld (d ++ a ++ b) 0 6)) = _
  rw [f6_6_6_at12, f6_6_6_at6, f6_6_6_at0])
theorem Layout.vmulBfVb (st : BitVec 1) (gd : BitVec 3) (d : BitVec 6) (a : BitVec 6) (b : BitVec 6) : Layout.Statement (.vmulBfVb st gd d a b) := layout_of st rfl (by decide) (by decide) (by
  show some (Instr.vmulBfVb st gd (fld (d ++ a ++ b) 12 6) (fld (d ++ a ++ b) 6 6) (fld (d ++ a ++ b) 0 6)) = _
  rw [f6_6_6_at12, f6_6_6_at6, f6_6_6_at0])
theorem Layout.vfmaBfVa (st : BitVec 1) (gd : BitVec 3) (d : BitVec 6) (a : BitVec 6) (b : BitVec 6) : Layout.Statement (.vfmaBfVa st gd d a b) := layout_of st rfl (by decide) (by decide) (by
  show some (Instr.vfmaBfVa st gd (fld (d ++ a ++ b) 12 6) (fld (d ++ a ++ b) 6 6) (fld (d ++ a ++ b) 0 6)) = _
  rw [f6_6_6_at12, f6_6_6_at6, f6_6_6_at0])
theorem Layout.vfmaBfVb (st : BitVec 1) (gd : BitVec 3) (d : BitVec 6) (a : BitVec 6) (b : BitVec 6) : Layout.Statement (.vfmaBfVb st gd d a b) := layout_of st rfl (by decide) (by decide) (by
  show some (Instr.vfmaBfVb st gd (fld (d ++ a ++ b) 12 6) (fld (d ++ a ++ b) 6 6) (fld (d ++ a ++ b) 0 6)) = _
  rw [f6_6_6_at12, f6_6_6_at6, f6_6_6_at0])
theorem Layout.vaddHfVa (st : BitVec 1) (gd : BitVec 3) (d : BitVec 6) (a : BitVec 6) (b : BitVec 6) : Layout.Statement (.vaddHfVa st gd d a b) := layout_of st rfl (by decide) (by decide) (by
  show some (Instr.vaddHfVa st gd (fld (d ++ a ++ b) 12 6) (fld (d ++ a ++ b) 6 6) (fld (d ++ a ++ b) 0 6)) = _
  rw [f6_6_6_at12, f6_6_6_at6, f6_6_6_at0])
theorem Layout.vaddHfVb (st : BitVec 1) (gd : BitVec 3) (d : BitVec 6) (a : BitVec 6) (b : BitVec 6) : Layout.Statement (.vaddHfVb st gd d a b) := layout_of st rfl (by decide) (by decide) (by
  show some (Instr.vaddHfVb st gd (fld (d ++ a ++ b) 12 6) (fld (d ++ a ++ b) 6 6) (fld (d ++ a ++ b) 0 6)) = _
  rw [f6_6_6_at12, f6_6_6_at6, f6_6_6_at0])
theorem Layout.vmulHfVa (st : BitVec 1) (gd : BitVec 3) (d : BitVec 6) (a : BitVec 6) (b : BitVec 6) : Layout.Statement (.vmulHfVa st gd d a b) := layout_of st rfl (by decide) (by decide) (by
  show some (Instr.vmulHfVa st gd (fld (d ++ a ++ b) 12 6) (fld (d ++ a ++ b) 6 6) (fld (d ++ a ++ b) 0 6)) = _
  rw [f6_6_6_at12, f6_6_6_at6, f6_6_6_at0])
theorem Layout.vmulHfVb (st : BitVec 1) (gd : BitVec 3) (d : BitVec 6) (a : BitVec 6) (b : BitVec 6) : Layout.Statement (.vmulHfVb st gd d a b) := layout_of st rfl (by decide) (by decide) (by
  show some (Instr.vmulHfVb st gd (fld (d ++ a ++ b) 12 6) (fld (d ++ a ++ b) 6 6) (fld (d ++ a ++ b) 0 6)) = _
  rw [f6_6_6_at12, f6_6_6_at6, f6_6_6_at0])
theorem Layout.vfmaHfVa (st : BitVec 1) (gd : BitVec 3) (d : BitVec 6) (a : BitVec 6) (b : BitVec 6) : Layout.Statement (.vfmaHfVa st gd d a b) := layout_of st rfl (by decide) (by decide) (by
  show some (Instr.vfmaHfVa st gd (fld (d ++ a ++ b) 12 6) (fld (d ++ a ++ b) 6 6) (fld (d ++ a ++ b) 0 6)) = _
  rw [f6_6_6_at12, f6_6_6_at6, f6_6_6_at0])
theorem Layout.vfmaHfVb (st : BitVec 1) (gd : BitVec 3) (d : BitVec 6) (a : BitVec 6) (b : BitVec 6) : Layout.Statement (.vfmaHfVb st gd d a b) := layout_of st rfl (by decide) (by decide) (by
  show some (Instr.vfmaHfVb st gd (fld (d ++ a ++ b) 12 6) (fld (d ++ a ++ b) 6 6) (fld (d ++ a ++ b) 0 6)) = _
  rw [f6_6_6_at12, f6_6_6_at6, f6_6_6_at0])
theorem Layout.vaddI32Va (st : BitVec 1) (gd : BitVec 3) (d : BitVec 6) (a : BitVec 6) (b : BitVec 6) : Layout.Statement (.vaddI32Va st gd d a b) := layout_of st rfl (by decide) (by decide) (by
  show some (Instr.vaddI32Va st gd (fld (d ++ a ++ b) 12 6) (fld (d ++ a ++ b) 6 6) (fld (d ++ a ++ b) 0 6)) = _
  rw [f6_6_6_at12, f6_6_6_at6, f6_6_6_at0])
theorem Layout.vaddI32Vb (st : BitVec 1) (gd : BitVec 3) (d : BitVec 6) (a : BitVec 6) (b : BitVec 6) : Layout.Statement (.vaddI32Vb st gd d a b) := layout_of st rfl (by decide) (by decide) (by
  show some (Instr.vaddI32Vb st gd (fld (d ++ a ++ b) 12 6) (fld (d ++ a ++ b) 6 6) (fld (d ++ a ++ b) 0 6)) = _
  rw [f6_6_6_at12, f6_6_6_at6, f6_6_6_at0])
theorem Layout.vsubI32Va (st : BitVec 1) (gd : BitVec 3) (d : BitVec 6) (a : BitVec 6) (b : BitVec 6) : Layout.Statement (.vsubI32Va st gd d a b) := layout_of st rfl (by decide) (by decide) (by
  show some (Instr.vsubI32Va st gd (fld (d ++ a ++ b) 12 6) (fld (d ++ a ++ b) 6 6) (fld (d ++ a ++ b) 0 6)) = _
  rw [f6_6_6_at12, f6_6_6_at6, f6_6_6_at0])
theorem Layout.vsubI32Vb (st : BitVec 1) (gd : BitVec 3) (d : BitVec 6) (a : BitVec 6) (b : BitVec 6) : Layout.Statement (.vsubI32Vb st gd d a b) := layout_of st rfl (by decide) (by decide) (by
  show some (Instr.vsubI32Vb st gd (fld (d ++ a ++ b) 12 6) (fld (d ++ a ++ b) 6 6) (fld (d ++ a ++ b) 0 6)) = _
  rw [f6_6_6_at12, f6_6_6_at6, f6_6_6_at0])
theorem Layout.vmulI32Va (st : BitVec 1) (gd : BitVec 3) (d : BitVec 6) (a : BitVec 6) (b : BitVec 6) : Layout.Statement (.vmulI32Va st gd d a b) := layout_of st rfl (by decide) (by decide) (by
  show some (Instr.vmulI32Va st gd (fld (d ++ a ++ b) 12 6) (fld (d ++ a ++ b) 6 6) (fld (d ++ a ++ b) 0 6)) = _
  rw [f6_6_6_at12, f6_6_6_at6, f6_6_6_at0])
theorem Layout.vmulI32Vb (st : BitVec 1) (gd : BitVec 3) (d : BitVec 6) (a : BitVec 6) (b : BitVec 6) : Layout.Statement (.vmulI32Vb st gd d a b) := layout_of st rfl (by decide) (by decide) (by
  show some (Instr.vmulI32Vb st gd (fld (d ++ a ++ b) 12 6) (fld (d ++ a ++ b) 6 6) (fld (d ++ a ++ b) 0 6)) = _
  rw [f6_6_6_at12, f6_6_6_at6, f6_6_6_at0])
theorem Layout.vminI32Va (st : BitVec 1) (gd : BitVec 3) (d : BitVec 6) (a : BitVec 6) (b : BitVec 6) : Layout.Statement (.vminI32Va st gd d a b) := layout_of st rfl (by decide) (by decide) (by
  show some (Instr.vminI32Va st gd (fld (d ++ a ++ b) 12 6) (fld (d ++ a ++ b) 6 6) (fld (d ++ a ++ b) 0 6)) = _
  rw [f6_6_6_at12, f6_6_6_at6, f6_6_6_at0])
theorem Layout.vminI32Vb (st : BitVec 1) (gd : BitVec 3) (d : BitVec 6) (a : BitVec 6) (b : BitVec 6) : Layout.Statement (.vminI32Vb st gd d a b) := layout_of st rfl (by decide) (by decide) (by
  show some (Instr.vminI32Vb st gd (fld (d ++ a ++ b) 12 6) (fld (d ++ a ++ b) 6 6) (fld (d ++ a ++ b) 0 6)) = _
  rw [f6_6_6_at12, f6_6_6_at6, f6_6_6_at0])
theorem Layout.vmaxI32Va (st : BitVec 1) (gd : BitVec 3) (d : BitVec 6) (a : BitVec 6) (b : BitVec 6) : Layout.Statement (.vmaxI32Va st gd d a b) := layout_of st rfl (by decide) (by decide) (by
  show some (Instr.vmaxI32Va st gd (fld (d ++ a ++ b) 12 6) (fld (d ++ a ++ b) 6 6) (fld (d ++ a ++ b) 0 6)) = _
  rw [f6_6_6_at12, f6_6_6_at6, f6_6_6_at0])
theorem Layout.vmaxI32Vb (st : BitVec 1) (gd : BitVec 3) (d : BitVec 6) (a : BitVec 6) (b : BitVec 6) : Layout.Statement (.vmaxI32Vb st gd d a b) := layout_of st rfl (by decide) (by decide) (by
  show some (Instr.vmaxI32Vb st gd (fld (d ++ a ++ b) 12 6) (fld (d ++ a ++ b) 6 6) (fld (d ++ a ++ b) 0 6)) = _
  rw [f6_6_6_at12, f6_6_6_at6, f6_6_6_at0])
theorem Layout.vandVa (st : BitVec 1) (gd : BitVec 3) (d : BitVec 6) (a : BitVec 6) (b : BitVec 6) : Layout.Statement (.vandVa st gd d a b) := layout_of st rfl (by decide) (by decide) (by
  show some (Instr.vandVa st gd (fld (d ++ a ++ b) 12 6) (fld (d ++ a ++ b) 6 6) (fld (d ++ a ++ b) 0 6)) = _
  rw [f6_6_6_at12, f6_6_6_at6, f6_6_6_at0])
theorem Layout.vandVb (st : BitVec 1) (gd : BitVec 3) (d : BitVec 6) (a : BitVec 6) (b : BitVec 6) : Layout.Statement (.vandVb st gd d a b) := layout_of st rfl (by decide) (by decide) (by
  show some (Instr.vandVb st gd (fld (d ++ a ++ b) 12 6) (fld (d ++ a ++ b) 6 6) (fld (d ++ a ++ b) 0 6)) = _
  rw [f6_6_6_at12, f6_6_6_at6, f6_6_6_at0])
theorem Layout.vorVa (st : BitVec 1) (gd : BitVec 3) (d : BitVec 6) (a : BitVec 6) (b : BitVec 6) : Layout.Statement (.vorVa st gd d a b) := layout_of st rfl (by decide) (by decide) (by
  show some (Instr.vorVa st gd (fld (d ++ a ++ b) 12 6) (fld (d ++ a ++ b) 6 6) (fld (d ++ a ++ b) 0 6)) = _
  rw [f6_6_6_at12, f6_6_6_at6, f6_6_6_at0])
theorem Layout.vorVb (st : BitVec 1) (gd : BitVec 3) (d : BitVec 6) (a : BitVec 6) (b : BitVec 6) : Layout.Statement (.vorVb st gd d a b) := layout_of st rfl (by decide) (by decide) (by
  show some (Instr.vorVb st gd (fld (d ++ a ++ b) 12 6) (fld (d ++ a ++ b) 6 6) (fld (d ++ a ++ b) 0 6)) = _
  rw [f6_6_6_at12, f6_6_6_at6, f6_6_6_at0])
theorem Layout.vxorVa (st : BitVec 1) (gd : BitVec 3) (d : BitVec 6) (a : BitVec 6) (b : BitVec 6) : Layout.Statement (.vxorVa st gd d a b) := layout_of st rfl (by decide) (by decide) (by
  show some (Instr.vxorVa st gd (fld (d ++ a ++ b) 12 6) (fld (d ++ a ++ b) 6 6) (fld (d ++ a ++ b) 0 6)) = _
  rw [f6_6_6_at12, f6_6_6_at6, f6_6_6_at0])
theorem Layout.vxorVb (st : BitVec 1) (gd : BitVec 3) (d : BitVec 6) (a : BitVec 6) (b : BitVec 6) : Layout.Statement (.vxorVb st gd d a b) := layout_of st rfl (by decide) (by decide) (by
  show some (Instr.vxorVb st gd (fld (d ++ a ++ b) 12 6) (fld (d ++ a ++ b) 6 6) (fld (d ++ a ++ b) 0 6)) = _
  rw [f6_6_6_at12, f6_6_6_at6, f6_6_6_at0])
theorem Layout.vshlVa (st : BitVec 1) (gd : BitVec 3) (d : BitVec 6) (a : BitVec 6) (b : BitVec 6) : Layout.Statement (.vshlVa st gd d a b) := layout_of st rfl (by decide) (by decide) (by
  show some (Instr.vshlVa st gd (fld (d ++ a ++ b) 12 6) (fld (d ++ a ++ b) 6 6) (fld (d ++ a ++ b) 0 6)) = _
  rw [f6_6_6_at12, f6_6_6_at6, f6_6_6_at0])
theorem Layout.vshlVb (st : BitVec 1) (gd : BitVec 3) (d : BitVec 6) (a : BitVec 6) (b : BitVec 6) : Layout.Statement (.vshlVb st gd d a b) := layout_of st rfl (by decide) (by decide) (by
  show some (Instr.vshlVb st gd (fld (d ++ a ++ b) 12 6) (fld (d ++ a ++ b) 6 6) (fld (d ++ a ++ b) 0 6)) = _
  rw [f6_6_6_at12, f6_6_6_at6, f6_6_6_at0])
theorem Layout.vshrVa (st : BitVec 1) (gd : BitVec 3) (d : BitVec 6) (a : BitVec 6) (b : BitVec 6) : Layout.Statement (.vshrVa st gd d a b) := layout_of st rfl (by decide) (by decide) (by
  show some (Instr.vshrVa st gd (fld (d ++ a ++ b) 12 6) (fld (d ++ a ++ b) 6 6) (fld (d ++ a ++ b) 0 6)) = _
  rw [f6_6_6_at12, f6_6_6_at6, f6_6_6_at0])
theorem Layout.vshrVb (st : BitVec 1) (gd : BitVec 3) (d : BitVec 6) (a : BitVec 6) (b : BitVec 6) : Layout.Statement (.vshrVb st gd d a b) := layout_of st rfl (by decide) (by decide) (by
  show some (Instr.vshrVb st gd (fld (d ++ a ++ b) 12 6) (fld (d ++ a ++ b) 6 6) (fld (d ++ a ++ b) 0 6)) = _
  rw [f6_6_6_at12, f6_6_6_at6, f6_6_6_at0])
theorem Layout.vsarVa (st : BitVec 1) (gd : BitVec 3) (d : BitVec 6) (a : BitVec 6) (b : BitVec 6) : Layout.Statement (.vsarVa st gd d a b) := layout_of st rfl (by decide) (by decide) (by
  show some (Instr.vsarVa st gd (fld (d ++ a ++ b) 12 6) (fld (d ++ a ++ b) 6 6) (fld (d ++ a ++ b) 0 6)) = _
  rw [f6_6_6_at12, f6_6_6_at6, f6_6_6_at0])
theorem Layout.vsarVb (st : BitVec 1) (gd : BitVec 3) (d : BitVec 6) (a : BitVec 6) (b : BitVec 6) : Layout.Statement (.vsarVb st gd d a b) := layout_of st rfl (by decide) (by decide) (by
  show some (Instr.vsarVb st gd (fld (d ++ a ++ b) 12 6) (fld (d ++ a ++ b) 6 6) (fld (d ++ a ++ b) 0 6)) = _
  rw [f6_6_6_at12, f6_6_6_at6, f6_6_6_at0])
theorem Layout.vcmpEqF32Va (st : BitVec 1) (gd : BitVec 3) (d : BitVec 3) (a : BitVec 6) (b : BitVec 6) : Layout.Statement (.vcmpEqF32Va st gd d a b) := layout_of st rfl (by decide) (by decide) (by
  show some (Instr.vcmpEqF32Va st gd (fld ((0#3) ++ d ++ a ++ b) 12 3) (fld ((0#3) ++ d ++ a ++ b) 6 6) (fld ((0#3) ++ d ++ a ++ b) 0 6)) = _
  rw [f3_3_6_6_at12, f3_3_6_6_at6, f3_3_6_6_at0])
theorem Layout.vcmpEqF32Vb (st : BitVec 1) (gd : BitVec 3) (d : BitVec 3) (a : BitVec 6) (b : BitVec 6) : Layout.Statement (.vcmpEqF32Vb st gd d a b) := layout_of st rfl (by decide) (by decide) (by
  show some (Instr.vcmpEqF32Vb st gd (fld ((0#3) ++ d ++ a ++ b) 12 3) (fld ((0#3) ++ d ++ a ++ b) 6 6) (fld ((0#3) ++ d ++ a ++ b) 0 6)) = _
  rw [f3_3_6_6_at12, f3_3_6_6_at6, f3_3_6_6_at0])
theorem Layout.vcmpLtF32Va (st : BitVec 1) (gd : BitVec 3) (d : BitVec 3) (a : BitVec 6) (b : BitVec 6) : Layout.Statement (.vcmpLtF32Va st gd d a b) := layout_of st rfl (by decide) (by decide) (by
  show some (Instr.vcmpLtF32Va st gd (fld ((0#3) ++ d ++ a ++ b) 12 3) (fld ((0#3) ++ d ++ a ++ b) 6 6) (fld ((0#3) ++ d ++ a ++ b) 0 6)) = _
  rw [f3_3_6_6_at12, f3_3_6_6_at6, f3_3_6_6_at0])
theorem Layout.vcmpLtF32Vb (st : BitVec 1) (gd : BitVec 3) (d : BitVec 3) (a : BitVec 6) (b : BitVec 6) : Layout.Statement (.vcmpLtF32Vb st gd d a b) := layout_of st rfl (by decide) (by decide) (by
  show some (Instr.vcmpLtF32Vb st gd (fld ((0#3) ++ d ++ a ++ b) 12 3) (fld ((0#3) ++ d ++ a ++ b) 6 6) (fld ((0#3) ++ d ++ a ++ b) 0 6)) = _
  rw [f3_3_6_6_at12, f3_3_6_6_at6, f3_3_6_6_at0])
theorem Layout.vcmpLeF32Va (st : BitVec 1) (gd : BitVec 3) (d : BitVec 3) (a : BitVec 6) (b : BitVec 6) : Layout.Statement (.vcmpLeF32Va st gd d a b) := layout_of st rfl (by decide) (by decide) (by
  show some (Instr.vcmpLeF32Va st gd (fld ((0#3) ++ d ++ a ++ b) 12 3) (fld ((0#3) ++ d ++ a ++ b) 6 6) (fld ((0#3) ++ d ++ a ++ b) 0 6)) = _
  rw [f3_3_6_6_at12, f3_3_6_6_at6, f3_3_6_6_at0])
theorem Layout.vcmpLeF32Vb (st : BitVec 1) (gd : BitVec 3) (d : BitVec 3) (a : BitVec 6) (b : BitVec 6) : Layout.Statement (.vcmpLeF32Vb st gd d a b) := layout_of st rfl (by decide) (by decide) (by
  show some (Instr.vcmpLeF32Vb st gd (fld ((0#3) ++ d ++ a ++ b) 12 3) (fld ((0#3) ++ d ++ a ++ b) 6 6) (fld ((0#3) ++ d ++ a ++ b) 0 6)) = _
  rw [f3_3_6_6_at12, f3_3_6_6_at6, f3_3_6_6_at0])
theorem Layout.vcmpEqI32Va (st : BitVec 1) (gd : BitVec 3) (d : BitVec 3) (a : BitVec 6) (b : BitVec 6) : Layout.Statement (.vcmpEqI32Va st gd d a b) := layout_of st rfl (by decide) (by decide) (by
  show some (Instr.vcmpEqI32Va st gd (fld ((0#3) ++ d ++ a ++ b) 12 3) (fld ((0#3) ++ d ++ a ++ b) 6 6) (fld ((0#3) ++ d ++ a ++ b) 0 6)) = _
  rw [f3_3_6_6_at12, f3_3_6_6_at6, f3_3_6_6_at0])
theorem Layout.vcmpEqI32Vb (st : BitVec 1) (gd : BitVec 3) (d : BitVec 3) (a : BitVec 6) (b : BitVec 6) : Layout.Statement (.vcmpEqI32Vb st gd d a b) := layout_of st rfl (by decide) (by decide) (by
  show some (Instr.vcmpEqI32Vb st gd (fld ((0#3) ++ d ++ a ++ b) 12 3) (fld ((0#3) ++ d ++ a ++ b) 6 6) (fld ((0#3) ++ d ++ a ++ b) 0 6)) = _
  rw [f3_3_6_6_at12, f3_3_6_6_at6, f3_3_6_6_at0])
theorem Layout.vcmpLtI32Va (st : BitVec 1) (gd : BitVec 3) (d : BitVec 3) (a : BitVec 6) (b : BitVec 6) : Layout.Statement (.vcmpLtI32Va st gd d a b) := layout_of st rfl (by decide) (by decide) (by
  show some (Instr.vcmpLtI32Va st gd (fld ((0#3) ++ d ++ a ++ b) 12 3) (fld ((0#3) ++ d ++ a ++ b) 6 6) (fld ((0#3) ++ d ++ a ++ b) 0 6)) = _
  rw [f3_3_6_6_at12, f3_3_6_6_at6, f3_3_6_6_at0])
theorem Layout.vcmpLtI32Vb (st : BitVec 1) (gd : BitVec 3) (d : BitVec 3) (a : BitVec 6) (b : BitVec 6) : Layout.Statement (.vcmpLtI32Vb st gd d a b) := layout_of st rfl (by decide) (by decide) (by
  show some (Instr.vcmpLtI32Vb st gd (fld ((0#3) ++ d ++ a ++ b) 12 3) (fld ((0#3) ++ d ++ a ++ b) 6 6) (fld ((0#3) ++ d ++ a ++ b) 0 6)) = _
  rw [f3_3_6_6_at12, f3_3_6_6_at6, f3_3_6_6_at0])
theorem Layout.vcmpLeI32Va (st : BitVec 1) (gd : BitVec 3) (d : BitVec 3) (a : BitVec 6) (b : BitVec 6) : Layout.Statement (.vcmpLeI32Va st gd d a b) := layout_of st rfl (by decide) (by decide) (by
  show some (Instr.vcmpLeI32Va st gd (fld ((0#3) ++ d ++ a ++ b) 12 3) (fld ((0#3) ++ d ++ a ++ b) 6 6) (fld ((0#3) ++ d ++ a ++ b) 0 6)) = _
  rw [f3_3_6_6_at12, f3_3_6_6_at6, f3_3_6_6_at0])
theorem Layout.vcmpLeI32Vb (st : BitVec 1) (gd : BitVec 3) (d : BitVec 3) (a : BitVec 6) (b : BitVec 6) : Layout.Statement (.vcmpLeI32Vb st gd d a b) := layout_of st rfl (by decide) (by decide) (by
  show some (Instr.vcmpLeI32Vb st gd (fld ((0#3) ++ d ++ a ++ b) 12 3) (fld ((0#3) ++ d ++ a ++ b) 6 6) (fld ((0#3) ++ d ++ a ++ b) 0 6)) = _
  rw [f3_3_6_6_at12, f3_3_6_6_at6, f3_3_6_6_at0])
theorem Layout.vmandVa (st : BitVec 1) (gd : BitVec 3) (d : BitVec 3) (a : BitVec 3) (b : BitVec 3) : Layout.Statement (.vmandVa st gd d a b) := layout_of st rfl (by decide) (by decide) (by
  show some (Instr.vmandVa st gd (fld ((0#3) ++ d ++ (0#3) ++ a ++ (0#3) ++ b) 12 3) (fld ((0#3) ++ d ++ (0#3) ++ a ++ (0#3) ++ b) 6 3) (fld ((0#3) ++ d ++ (0#3) ++ a ++ (0#3) ++ b) 0 3)) = _
  rw [f3_3_3_3_3_3_at12, f3_3_3_3_3_3_at6, f3_3_3_3_3_3_at0])
theorem Layout.vmandVb (st : BitVec 1) (gd : BitVec 3) (d : BitVec 3) (a : BitVec 3) (b : BitVec 3) : Layout.Statement (.vmandVb st gd d a b) := layout_of st rfl (by decide) (by decide) (by
  show some (Instr.vmandVb st gd (fld ((0#3) ++ d ++ (0#3) ++ a ++ (0#3) ++ b) 12 3) (fld ((0#3) ++ d ++ (0#3) ++ a ++ (0#3) ++ b) 6 3) (fld ((0#3) ++ d ++ (0#3) ++ a ++ (0#3) ++ b) 0 3)) = _
  rw [f3_3_3_3_3_3_at12, f3_3_3_3_3_3_at6, f3_3_3_3_3_3_at0])
theorem Layout.vmorVa (st : BitVec 1) (gd : BitVec 3) (d : BitVec 3) (a : BitVec 3) (b : BitVec 3) : Layout.Statement (.vmorVa st gd d a b) := layout_of st rfl (by decide) (by decide) (by
  show some (Instr.vmorVa st gd (fld ((0#3) ++ d ++ (0#3) ++ a ++ (0#3) ++ b) 12 3) (fld ((0#3) ++ d ++ (0#3) ++ a ++ (0#3) ++ b) 6 3) (fld ((0#3) ++ d ++ (0#3) ++ a ++ (0#3) ++ b) 0 3)) = _
  rw [f3_3_3_3_3_3_at12, f3_3_3_3_3_3_at6, f3_3_3_3_3_3_at0])
theorem Layout.vmorVb (st : BitVec 1) (gd : BitVec 3) (d : BitVec 3) (a : BitVec 3) (b : BitVec 3) : Layout.Statement (.vmorVb st gd d a b) := layout_of st rfl (by decide) (by decide) (by
  show some (Instr.vmorVb st gd (fld ((0#3) ++ d ++ (0#3) ++ a ++ (0#3) ++ b) 12 3) (fld ((0#3) ++ d ++ (0#3) ++ a ++ (0#3) ++ b) 6 3) (fld ((0#3) ++ d ++ (0#3) ++ a ++ (0#3) ++ b) 0 3)) = _
  rw [f3_3_3_3_3_3_at12, f3_3_3_3_3_3_at6, f3_3_3_3_3_3_at0])
theorem Layout.vmnotVa (st : BitVec 1) (gd : BitVec 3) (d : BitVec 3) (a : BitVec 3) : Layout.Statement (.vmnotVa st gd d a) := layout_of st rfl (by decide) (by decide) (by
  show some (Instr.vmnotVa st gd (fld ((0#3) ++ d ++ (0#3) ++ a ++ (0#6)) 12 3) (fld ((0#3) ++ d ++ (0#3) ++ a ++ (0#6)) 6 3)) = _
  rw [f3_3_3_3_6_at12, f3_3_3_3_6_at6])
theorem Layout.vmnotVb (st : BitVec 1) (gd : BitVec 3) (d : BitVec 3) (a : BitVec 3) : Layout.Statement (.vmnotVb st gd d a) := layout_of st rfl (by decide) (by decide) (by
  show some (Instr.vmnotVb st gd (fld ((0#3) ++ d ++ (0#3) ++ a ++ (0#6)) 12 3) (fld ((0#3) ++ d ++ (0#3) ++ a ++ (0#6)) 6 3)) = _
  rw [f3_3_3_3_6_at12, f3_3_3_3_6_at6])
theorem Layout.vmsVa (st : BitVec 1) (gd : BitVec 3) (a : BitVec 3) : Layout.Statement (.vmsVa st gd a) := layout_of st rfl (by decide) (by decide) (by
  show some (Instr.vmsVa st gd (fld ((0#9) ++ a ++ (0#6)) 6 3)) = _
  rw [f9_3_6_at6])
theorem Layout.vmsVb (st : BitVec 1) (gd : BitVec 3) (a : BitVec 3) : Layout.Statement (.vmsVb st gd a) := layout_of st rfl (by decide) (by decide) (by
  show some (Instr.vmsVb st gd (fld ((0#9) ++ a ++ (0#6)) 6 3)) = _
  rw [f9_3_6_at6])
theorem Layout.vselVa (st : BitVec 1) (gd : BitVec 3) (d : BitVec 6) (a : BitVec 6) (b : BitVec 6) : Layout.Statement (.vselVa st gd d a b) := layout_of st rfl (by decide) (by decide) (by
  show some (Instr.vselVa st gd (fld (d ++ a ++ b) 12 6) (fld (d ++ a ++ b) 6 6) (fld (d ++ a ++ b) 0 6)) = _
  rw [f6_6_6_at12, f6_6_6_at6, f6_6_6_at0])
theorem Layout.vselVb (st : BitVec 1) (gd : BitVec 3) (d : BitVec 6) (a : BitVec 6) (b : BitVec 6) : Layout.Statement (.vselVb st gd d a b) := layout_of st rfl (by decide) (by decide) (by
  show some (Instr.vselVb st gd (fld (d ++ a ++ b) 12 6) (fld (d ++ a ++ b) 6 6) (fld (d ++ a ++ b) 0 6)) = _
  rw [f6_6_6_at12, f6_6_6_at6, f6_6_6_at0])
theorem Layout.vpermVa (st : BitVec 1) (gd : BitVec 3) (d : BitVec 6) (a : BitVec 6) (b : BitVec 6) : Layout.Statement (.vpermVa st gd d a b) := layout_of st rfl (by decide) (by decide) (by
  show some (Instr.vpermVa st gd (fld (d ++ a ++ b) 12 6) (fld (d ++ a ++ b) 6 6) (fld (d ++ a ++ b) 0 6)) = _
  rw [f6_6_6_at12, f6_6_6_at6, f6_6_6_at0])
theorem Layout.vpermVb (st : BitVec 1) (gd : BitVec 3) (d : BitVec 6) (a : BitVec 6) (b : BitVec 6) : Layout.Statement (.vpermVb st gd d a b) := layout_of st rfl (by decide) (by decide) (by
  show some (Instr.vpermVb st gd (fld (d ++ a ++ b) 12 6) (fld (d ++ a ++ b) 6 6) (fld (d ++ a ++ b) 0 6)) = _
  rw [f6_6_6_at12, f6_6_6_at6, f6_6_6_at0])
theorem Layout.vrotVa (st : BitVec 1) (gd : BitVec 3) (d : BitVec 6) (a : BitVec 6) (i : BitVec 6) : Layout.Statement (.vrotVa st gd d a i) := layout_of st rfl (by decide) (by decide) (by
  show some (Instr.vrotVa st gd (fld (d ++ a ++ i) 12 6) (fld (d ++ a ++ i) 6 6) (fld (d ++ a ++ i) 0 6)) = _
  rw [f6_6_6_at12, f6_6_6_at6, f6_6_6_at0])
theorem Layout.vrotVb (st : BitVec 1) (gd : BitVec 3) (d : BitVec 6) (a : BitVec 6) (i : BitVec 6) : Layout.Statement (.vrotVb st gd d a i) := layout_of st rfl (by decide) (by decide) (by
  show some (Instr.vrotVb st gd (fld (d ++ a ++ i) 12 6) (fld (d ++ a ++ i) 6 6) (fld (d ++ a ++ i) 0 6)) = _
  rw [f6_6_6_at12, f6_6_6_at6, f6_6_6_at0])
theorem Layout.vcvtF32I32Va (st : BitVec 1) (gd : BitVec 3) (d : BitVec 6) (a : BitVec 6) : Layout.Statement (.vcvtF32I32Va st gd d a) := layout_of st rfl (by decide) (by decide) (by
  show some (Instr.vcvtF32I32Va st gd (fld (d ++ a ++ (0#6)) 12 6) (fld (d ++ a ++ (0#6)) 6 6)) = _
  rw [f6_6_6_at12, f6_6_6_at6])
theorem Layout.vcvtF32I32Vb (st : BitVec 1) (gd : BitVec 3) (d : BitVec 6) (a : BitVec 6) : Layout.Statement (.vcvtF32I32Vb st gd d a) := layout_of st rfl (by decide) (by decide) (by
  show some (Instr.vcvtF32I32Vb st gd (fld (d ++ a ++ (0#6)) 12 6) (fld (d ++ a ++ (0#6)) 6 6)) = _
  rw [f6_6_6_at12, f6_6_6_at6])
theorem Layout.vcvtI32F32Va (st : BitVec 1) (gd : BitVec 3) (d : BitVec 6) (a : BitVec 6) : Layout.Statement (.vcvtI32F32Va st gd d a) := layout_of st rfl (by decide) (by decide) (by
  show some (Instr.vcvtI32F32Va st gd (fld (d ++ a ++ (0#6)) 12 6) (fld (d ++ a ++ (0#6)) 6 6)) = _
  rw [f6_6_6_at12, f6_6_6_at6])
theorem Layout.vcvtI32F32Vb (st : BitVec 1) (gd : BitVec 3) (d : BitVec 6) (a : BitVec 6) : Layout.Statement (.vcvtI32F32Vb st gd d a) := layout_of st rfl (by decide) (by decide) (by
  show some (Instr.vcvtI32F32Vb st gd (fld (d ++ a ++ (0#6)) 12 6) (fld (d ++ a ++ (0#6)) 6 6)) = _
  rw [f6_6_6_at12, f6_6_6_at6])
theorem Layout.vcvtI32F32zVa (st : BitVec 1) (gd : BitVec 3) (d : BitVec 6) (a : BitVec 6) : Layout.Statement (.vcvtI32F32zVa st gd d a) := layout_of st rfl (by decide) (by decide) (by
  show some (Instr.vcvtI32F32zVa st gd (fld (d ++ a ++ (0#6)) 12 6) (fld (d ++ a ++ (0#6)) 6 6)) = _
  rw [f6_6_6_at12, f6_6_6_at6])
theorem Layout.vcvtI32F32zVb (st : BitVec 1) (gd : BitVec 3) (d : BitVec 6) (a : BitVec 6) : Layout.Statement (.vcvtI32F32zVb st gd d a) := layout_of st rfl (by decide) (by decide) (by
  show some (Instr.vcvtI32F32zVb st gd (fld (d ++ a ++ (0#6)) 12 6) (fld (d ++ a ++ (0#6)) 6 6)) = _
  rw [f6_6_6_at12, f6_6_6_at6])
theorem Layout.vpackBfVa (st : BitVec 1) (gd : BitVec 3) (d : BitVec 6) (a : BitVec 6) (b : BitVec 6) : Layout.Statement (.vpackBfVa st gd d a b) := layout_of st rfl (by decide) (by decide) (by
  show some (Instr.vpackBfVa st gd (fld (d ++ a ++ b) 12 6) (fld (d ++ a ++ b) 6 6) (fld (d ++ a ++ b) 0 6)) = _
  rw [f6_6_6_at12, f6_6_6_at6, f6_6_6_at0])
theorem Layout.vpackBfVb (st : BitVec 1) (gd : BitVec 3) (d : BitVec 6) (a : BitVec 6) (b : BitVec 6) : Layout.Statement (.vpackBfVb st gd d a b) := layout_of st rfl (by decide) (by decide) (by
  show some (Instr.vpackBfVb st gd (fld (d ++ a ++ b) 12 6) (fld (d ++ a ++ b) 6 6) (fld (d ++ a ++ b) 0 6)) = _
  rw [f6_6_6_at12, f6_6_6_at6, f6_6_6_at0])
theorem Layout.vunpkBfVa (st : BitVec 1) (gd : BitVec 3) (d : BitVec 6) (a : BitVec 6) (h : BitVec 1) : Layout.Statement (.vunpkBfVa st gd d a h) := layout_of st rfl (by decide) (by decide) (by
  show some (Instr.vunpkBfVa st gd (fld (d ++ a ++ (0#5) ++ h) 12 6) (fld (d ++ a ++ (0#5) ++ h) 6 6) (fld (d ++ a ++ (0#5) ++ h) 0 1)) = _
  rw [f6_6_5_1_at12, f6_6_5_1_at6, f6_6_5_1_at0])
theorem Layout.vunpkBfVb (st : BitVec 1) (gd : BitVec 3) (d : BitVec 6) (a : BitVec 6) (h : BitVec 1) : Layout.Statement (.vunpkBfVb st gd d a h) := layout_of st rfl (by decide) (by decide) (by
  show some (Instr.vunpkBfVb st gd (fld (d ++ a ++ (0#5) ++ h) 12 6) (fld (d ++ a ++ (0#5) ++ h) 6 6) (fld (d ++ a ++ (0#5) ++ h) 0 1)) = _
  rw [f6_6_5_1_at12, f6_6_5_1_at6, f6_6_5_1_at0])
theorem Layout.vpackHfVa (st : BitVec 1) (gd : BitVec 3) (d : BitVec 6) (a : BitVec 6) (b : BitVec 6) : Layout.Statement (.vpackHfVa st gd d a b) := layout_of st rfl (by decide) (by decide) (by
  show some (Instr.vpackHfVa st gd (fld (d ++ a ++ b) 12 6) (fld (d ++ a ++ b) 6 6) (fld (d ++ a ++ b) 0 6)) = _
  rw [f6_6_6_at12, f6_6_6_at6, f6_6_6_at0])
theorem Layout.vpackHfVb (st : BitVec 1) (gd : BitVec 3) (d : BitVec 6) (a : BitVec 6) (b : BitVec 6) : Layout.Statement (.vpackHfVb st gd d a b) := layout_of st rfl (by decide) (by decide) (by
  show some (Instr.vpackHfVb st gd (fld (d ++ a ++ b) 12 6) (fld (d ++ a ++ b) 6 6) (fld (d ++ a ++ b) 0 6)) = _
  rw [f6_6_6_at12, f6_6_6_at6, f6_6_6_at0])
theorem Layout.vunpkHfVa (st : BitVec 1) (gd : BitVec 3) (d : BitVec 6) (a : BitVec 6) (h : BitVec 1) : Layout.Statement (.vunpkHfVa st gd d a h) := layout_of st rfl (by decide) (by decide) (by
  show some (Instr.vunpkHfVa st gd (fld (d ++ a ++ (0#5) ++ h) 12 6) (fld (d ++ a ++ (0#5) ++ h) 6 6) (fld (d ++ a ++ (0#5) ++ h) 0 1)) = _
  rw [f6_6_5_1_at12, f6_6_5_1_at6, f6_6_5_1_at0])
theorem Layout.vunpkHfVb (st : BitVec 1) (gd : BitVec 3) (d : BitVec 6) (a : BitVec 6) (h : BitVec 1) : Layout.Statement (.vunpkHfVb st gd d a h) := layout_of st rfl (by decide) (by decide) (by
  show some (Instr.vunpkHfVb st gd (fld (d ++ a ++ (0#5) ++ h) 12 6) (fld (d ++ a ++ (0#5) ++ h) 6 6) (fld (d ++ a ++ (0#5) ++ h) 0 1)) = _
  rw [f6_6_5_1_at12, f6_6_5_1_at6, f6_6_5_1_at0])
theorem Layout.vpack8E4Va (st : BitVec 1) (gd : BitVec 3) (d : BitVec 6) (a : BitVec 6) (b : BitVec 6) : Layout.Statement (.vpack8E4Va st gd d a b) := layout_of st rfl (by decide) (by decide) (by
  show some (Instr.vpack8E4Va st gd (fld (d ++ a ++ b) 12 6) (fld (d ++ a ++ b) 6 6) (fld (d ++ a ++ b) 0 6)) = _
  rw [f6_6_6_at12, f6_6_6_at6, f6_6_6_at0])
theorem Layout.vpack8E4Vb (st : BitVec 1) (gd : BitVec 3) (d : BitVec 6) (a : BitVec 6) (b : BitVec 6) : Layout.Statement (.vpack8E4Vb st gd d a b) := layout_of st rfl (by decide) (by decide) (by
  show some (Instr.vpack8E4Vb st gd (fld (d ++ a ++ b) 12 6) (fld (d ++ a ++ b) 6 6) (fld (d ++ a ++ b) 0 6)) = _
  rw [f6_6_6_at12, f6_6_6_at6, f6_6_6_at0])
theorem Layout.vpack8E5Va (st : BitVec 1) (gd : BitVec 3) (d : BitVec 6) (a : BitVec 6) (b : BitVec 6) : Layout.Statement (.vpack8E5Va st gd d a b) := layout_of st rfl (by decide) (by decide) (by
  show some (Instr.vpack8E5Va st gd (fld (d ++ a ++ b) 12 6) (fld (d ++ a ++ b) 6 6) (fld (d ++ a ++ b) 0 6)) = _
  rw [f6_6_6_at12, f6_6_6_at6, f6_6_6_at0])
theorem Layout.vpack8E5Vb (st : BitVec 1) (gd : BitVec 3) (d : BitVec 6) (a : BitVec 6) (b : BitVec 6) : Layout.Statement (.vpack8E5Vb st gd d a b) := layout_of st rfl (by decide) (by decide) (by
  show some (Instr.vpack8E5Vb st gd (fld (d ++ a ++ b) 12 6) (fld (d ++ a ++ b) 6 6) (fld (d ++ a ++ b) 0 6)) = _
  rw [f6_6_6_at12, f6_6_6_at6, f6_6_6_at0])
theorem Layout.vmrg8Va (st : BitVec 1) (gd : BitVec 3) (d : BitVec 6) (a : BitVec 6) (b : BitVec 6) : Layout.Statement (.vmrg8Va st gd d a b) := layout_of st rfl (by decide) (by decide) (by
  show some (Instr.vmrg8Va st gd (fld (d ++ a ++ b) 12 6) (fld (d ++ a ++ b) 6 6) (fld (d ++ a ++ b) 0 6)) = _
  rw [f6_6_6_at12, f6_6_6_at6, f6_6_6_at0])
theorem Layout.vmrg8Vb (st : BitVec 1) (gd : BitVec 3) (d : BitVec 6) (a : BitVec 6) (b : BitVec 6) : Layout.Statement (.vmrg8Vb st gd d a b) := layout_of st rfl (by decide) (by decide) (by
  show some (Instr.vmrg8Vb st gd (fld (d ++ a ++ b) 12 6) (fld (d ++ a ++ b) 6 6) (fld (d ++ a ++ b) 0 6)) = _
  rw [f6_6_6_at12, f6_6_6_at6, f6_6_6_at0])
theorem Layout.vunpk8E4Va (st : BitVec 1) (gd : BitVec 3) (d : BitVec 6) (a : BitVec 6) (i : BitVec 6) : Layout.Statement (.vunpk8E4Va st gd d a i) := layout_of st rfl (by decide) (by decide) (by
  show some (Instr.vunpk8E4Va st gd (fld (d ++ a ++ i) 12 6) (fld (d ++ a ++ i) 6 6) (fld (d ++ a ++ i) 0 6)) = _
  rw [f6_6_6_at12, f6_6_6_at6, f6_6_6_at0])
theorem Layout.vunpk8E4Vb (st : BitVec 1) (gd : BitVec 3) (d : BitVec 6) (a : BitVec 6) (i : BitVec 6) : Layout.Statement (.vunpk8E4Vb st gd d a i) := layout_of st rfl (by decide) (by decide) (by
  show some (Instr.vunpk8E4Vb st gd (fld (d ++ a ++ i) 12 6) (fld (d ++ a ++ i) 6 6) (fld (d ++ a ++ i) 0 6)) = _
  rw [f6_6_6_at12, f6_6_6_at6, f6_6_6_at0])
theorem Layout.vunpk8E5Va (st : BitVec 1) (gd : BitVec 3) (d : BitVec 6) (a : BitVec 6) (i : BitVec 6) : Layout.Statement (.vunpk8E5Va st gd d a i) := layout_of st rfl (by decide) (by decide) (by
  show some (Instr.vunpk8E5Va st gd (fld (d ++ a ++ i) 12 6) (fld (d ++ a ++ i) 6 6) (fld (d ++ a ++ i) 0 6)) = _
  rw [f6_6_6_at12, f6_6_6_at6, f6_6_6_at0])
theorem Layout.vunpk8E5Vb (st : BitVec 1) (gd : BitVec 3) (d : BitVec 6) (a : BitVec 6) (i : BitVec 6) : Layout.Statement (.vunpk8E5Vb st gd d a i) := layout_of st rfl (by decide) (by decide) (by
  show some (Instr.vunpk8E5Vb st gd (fld (d ++ a ++ i) 12 6) (fld (d ++ a ++ i) 6 6) (fld (d ++ a ++ i) 0 6)) = _
  rw [f6_6_6_at12, f6_6_6_at6, f6_6_6_at0])
theorem Layout.vdot4I8Va (st : BitVec 1) (gd : BitVec 3) (d : BitVec 6) (a : BitVec 6) (b : BitVec 6) : Layout.Statement (.vdot4I8Va st gd d a b) := layout_of st rfl (by decide) (by decide) (by
  show some (Instr.vdot4I8Va st gd (fld (d ++ a ++ b) 12 6) (fld (d ++ a ++ b) 6 6) (fld (d ++ a ++ b) 0 6)) = _
  rw [f6_6_6_at12, f6_6_6_at6, f6_6_6_at0])
theorem Layout.vdot4I8Vb (st : BitVec 1) (gd : BitVec 3) (d : BitVec 6) (a : BitVec 6) (b : BitVec 6) : Layout.Statement (.vdot4I8Vb st gd d a b) := layout_of st rfl (by decide) (by decide) (by
  show some (Instr.vdot4I8Vb st gd (fld (d ++ a ++ b) 12 6) (fld (d ++ a ++ b) 6 6) (fld (d ++ a ++ b) 0 6)) = _
  rw [f6_6_6_at12, f6_6_6_at6, f6_6_6_at0])
theorem Layout.vexp2 (st : BitVec 1) (gd : BitVec 3) (d : BitVec 6) (a : BitVec 6) : Layout.Statement (.vexp2 st gd d a) := layout_of st rfl (by decide) (by decide) (by
  show some (Instr.vexp2 st gd (fld (d ++ a ++ (0#6)) 12 6) (fld (d ++ a ++ (0#6)) 6 6)) = _
  rw [f6_6_6_at12, f6_6_6_at6])
theorem Layout.vlog2 (st : BitVec 1) (gd : BitVec 3) (d : BitVec 6) (a : BitVec 6) : Layout.Statement (.vlog2 st gd d a) := layout_of st rfl (by decide) (by decide) (by
  show some (Instr.vlog2 st gd (fld (d ++ a ++ (0#6)) 12 6) (fld (d ++ a ++ (0#6)) 6 6)) = _
  rw [f6_6_6_at12, f6_6_6_at6])
theorem Layout.vrcp (st : BitVec 1) (gd : BitVec 3) (d : BitVec 6) (a : BitVec 6) : Layout.Statement (.vrcp st gd d a) := layout_of st rfl (by decide) (by decide) (by
  show some (Instr.vrcp st gd (fld (d ++ a ++ (0#6)) 12 6) (fld (d ++ a ++ (0#6)) 6 6)) = _
  rw [f6_6_6_at12, f6_6_6_at6])
theorem Layout.vrsq (st : BitVec 1) (gd : BitVec 3) (d : BitVec 6) (a : BitVec 6) : Layout.Statement (.vrsq st gd d a) := layout_of st rfl (by decide) (by decide) (by
  show some (Instr.vrsq st gd (fld (d ++ a ++ (0#6)) 12 6) (fld (d ++ a ++ (0#6)) 6 6)) = _
  rw [f6_6_6_at12, f6_6_6_at6])
theorem Layout.vsqrt (st : BitVec 1) (gd : BitVec 3) (d : BitVec 6) (a : BitVec 6) : Layout.Statement (.vsqrt st gd d a) := layout_of st rfl (by decide) (by decide) (by
  show some (Instr.vsqrt st gd (fld (d ++ a ++ (0#6)) 12 6) (fld (d ++ a ++ (0#6)) 6 6)) = _
  rw [f6_6_6_at12, f6_6_6_at6])
theorem Layout.vdiv (st : BitVec 1) (gd : BitVec 3) (d : BitVec 6) (a : BitVec 6) (b : BitVec 6) : Layout.Statement (.vdiv st gd d a b) := layout_of st rfl (by decide) (by decide) (by
  show some (Instr.vdiv st gd (fld (d ++ a ++ b) 12 6) (fld (d ++ a ++ b) 6 6) (fld (d ++ a ++ b) 0 6)) = _
  rw [f6_6_6_at12, f6_6_6_at6, f6_6_6_at0])
theorem Layout.vtanh (st : BitVec 1) (gd : BitVec 3) (d : BitVec 6) (a : BitVec 6) : Layout.Statement (.vtanh st gd d a) := layout_of st rfl (by decide) (by decide) (by
  show some (Instr.vtanh st gd (fld (d ++ a ++ (0#6)) 12 6) (fld (d ++ a ++ (0#6)) 6 6)) = _
  rw [f6_6_6_at12, f6_6_6_at6])
theorem Layout.vrsumF32 (st : BitVec 1) (gd : BitVec 3) (d : BitVec 6) (a : BitVec 6) : Layout.Statement (.vrsumF32 st gd d a) := layout_of st rfl (by decide) (by decide) (by
  show some (Instr.vrsumF32 st gd (fld (d ++ a ++ (0#6)) 12 6) (fld (d ++ a ++ (0#6)) 6 6)) = _
  rw [f6_6_6_at12, f6_6_6_at6])
theorem Layout.vrmaxF32 (st : BitVec 1) (gd : BitVec 3) (d : BitVec 6) (a : BitVec 6) : Layout.Statement (.vrmaxF32 st gd d a) := layout_of st rfl (by decide) (by decide) (by
  show some (Instr.vrmaxF32 st gd (fld (d ++ a ++ (0#6)) 12 6) (fld (d ++ a ++ (0#6)) 6 6)) = _
  rw [f6_6_6_at12, f6_6_6_at6])
theorem Layout.vrminF32 (st : BitVec 1) (gd : BitVec 3) (d : BitVec 6) (a : BitVec 6) : Layout.Statement (.vrminF32 st gd d a) := layout_of st rfl (by decide) (by decide) (by
  show some (Instr.vrminF32 st gd (fld (d ++ a ++ (0#6)) 12 6) (fld (d ++ a ++ (0#6)) 6 6)) = _
  rw [f6_6_6_at12, f6_6_6_at6])
theorem Layout.vrsumI32 (st : BitVec 1) (gd : BitVec 3) (d : BitVec 6) (a : BitVec 6) : Layout.Statement (.vrsumI32 st gd d a) := layout_of st rfl (by decide) (by decide) (by
  show some (Instr.vrsumI32 st gd (fld (d ++ a ++ (0#6)) 12 6) (fld (d ++ a ++ (0#6)) 6 6)) = _
  rw [f6_6_6_at12, f6_6_6_at6])
theorem Layout.amaxu (st : BitVec 1) (gd : BitVec 3) (d : BitVec 6) (a : BitVec 6) (b : BitVec 6) : Layout.Statement (.amaxu st gd d a b) := layout_of st rfl (by decide) (by decide) (by
  show some (Instr.amaxu st gd (fld (d ++ a ++ b) 12 6) (fld (d ++ a ++ b) 6 6) (fld (d ++ a ++ b) 0 6)) = _
  rw [f6_6_6_at12, f6_6_6_at6, f6_6_6_at0])
theorem Layout.aexps (st : BitVec 1) (gd : BitVec 3) (d : BitVec 6) (a : BitVec 6) (b : BitVec 6) : Layout.Statement (.aexps st gd d a b) := layout_of st rfl (by decide) (by decide) (by
  show some (Instr.aexps st gd (fld (d ++ a ++ b) 12 6) (fld (d ++ a ++ b) 6 6) (fld (d ++ a ++ b) 0 6)) = _
  rw [f6_6_6_at12, f6_6_6_at6, f6_6_6_at0])
theorem Layout.aresc (st : BitVec 1) (gd : BitVec 3) (d : BitVec 6) (a : BitVec 6) (b : BitVec 6) : Layout.Statement (.aresc st gd d a b) := layout_of st rfl (by decide) (by decide) (by
  show some (Instr.aresc st gd (fld (d ++ a ++ b) 12 6) (fld (d ++ a ++ b) 6 6) (fld (d ++ a ++ b) 0 6)) = _
  rw [f6_6_6_at12, f6_6_6_at6, f6_6_6_at0])
theorem Layout.anorm (st : BitVec 1) (gd : BitVec 3) (d : BitVec 6) (a : BitVec 6) (b : BitVec 6) : Layout.Statement (.anorm st gd d a b) := layout_of st rfl (by decide) (by decide) (by
  show some (Instr.anorm st gd (fld (d ++ a ++ b) 12 6) (fld (d ++ a ++ b) 6 6) (fld (d ++ a ++ b) 0 6)) = _
  rw [f6_6_6_at12, f6_6_6_at6, f6_6_6_at0])
theorem Layout.amrg (st : BitVec 1) (gd : BitVec 3) (d : BitVec 6) (a : BitVec 6) (b : BitVec 6) : Layout.Statement (.amrg st gd d a b) := layout_of st rfl (by decide) (by decide) (by
  show some (Instr.amrg st gd (fld (d ++ a ++ b) 12 6) (fld (d ++ a ++ b) 6 6) (fld (d ++ a ++ b) 0 6)) = _
  rw [f6_6_6_at12, f6_6_6_at6, f6_6_6_at0])
theorem Layout.vchk (st : BitVec 1) (gd : BitVec 3) (a : BitVec 6) (b : BitVec 6) : Layout.Statement (.vchk st gd a b) := layout_of st rfl (by decide) (by decide) (by
  show some (Instr.vchk st gd (fld ((0#6) ++ a ++ b) 6 6) (fld ((0#6) ++ a ++ b) 0 6)) = _
  rw [f6_6_6_at6, f6_6_6_at0])
theorem Layout.xbc (st : BitVec 1) (gd : BitVec 3) (d : BitVec 6) (a : BitVec 6) : Layout.Statement (.xbc st gd d a) := layout_of st rfl (by decide) (by decide) (by
  show some (Instr.xbc st gd (fld (d ++ a ++ (0#6)) 12 6) (fld (d ++ a ++ (0#6)) 6 6)) = _
  rw [f6_6_6_at12, f6_6_6_at6])
theorem Layout.xins (st : BitVec 1) (gd : BitVec 3) (d : BitVec 6) (a : BitVec 6) (i : BitVec 6) : Layout.Statement (.xins st gd d a i) := layout_of st rfl (by decide) (by decide) (by
  show some (Instr.xins st gd (fld (d ++ a ++ i) 12 6) (fld (d ++ a ++ i) 6 6) (fld (d ++ a ++ i) 0 6)) = _
  rw [f6_6_6_at12, f6_6_6_at6, f6_6_6_at0])
theorem Layout.xmk (st : BitVec 1) (gd : BitVec 3) (d : BitVec 3) (a : BitVec 6) : Layout.Statement (.xmk st gd d a) := layout_of st rfl (by decide) (by decide) (by
  show some (Instr.xmk st gd (fld ((0#3) ++ d ++ a ++ (0#6)) 12 3) (fld ((0#3) ++ d ++ a ++ (0#6)) 6 6)) = _
  rw [f3_3_6_6_at12, f3_3_6_6_at6])
theorem Layout.xext (st : BitVec 1) (gd : BitVec 3) (d : BitVec 6) (a : BitVec 6) (i : BitVec 6) : Layout.Statement (.xext st gd d a i) := layout_of st rfl (by decide) (by decide) (by
  show some (Instr.xext st gd (fld (d ++ a ++ i) 12 6) (fld (d ++ a ++ i) 6 6) (fld (d ++ a ++ i) 0 6)) = _
  rw [f6_6_6_at12, f6_6_6_at6, f6_6_6_at0])
theorem Layout.xms (st : BitVec 1) (gd : BitVec 3) (d : BitVec 6) (a : BitVec 3) : Layout.Statement (.xms st gd d a) := layout_of st rfl (by decide) (by decide) (by
  show some (Instr.xms st gd (fld (d ++ (0#3) ++ a ++ (0#6)) 12 6) (fld (d ++ (0#3) ++ a ++ (0#6)) 6 3)) = _
  rw [f6_3_3_6_at12, f6_3_3_6_at6])
theorem Layout.xfst (st : BitVec 1) (gd : BitVec 3) (d : BitVec 6) (a : BitVec 3) : Layout.Statement (.xfst st gd d a) := layout_of st rfl (by decide) (by decide) (by
  show some (Instr.xfst st gd (fld (d ++ (0#3) ++ a ++ (0#6)) 12 6) (fld (d ++ (0#3) ++ a ++ (0#6)) 6 3)) = _
  rw [f6_3_3_6_at12, f6_3_3_6_at6])
theorem Layout.ldb (st : BitVec 1) (gd : BitVec 3) (n : BitVec 6) (o : BitVec 6) (i : BitVec 6) : Layout.Statement (.ldb st gd n o i) := layout_of st rfl (by decide) (by decide) (by
  show some (Instr.ldb st gd (fld (n ++ o ++ i) 12 6) (fld (n ++ o ++ i) 6 6) (fld (n ++ o ++ i) 0 6)) = _
  rw [f6_6_6_at12, f6_6_6_at6, f6_6_6_at0])
theorem Layout.ldbz (st : BitVec 1) (gd : BitVec 3) (n : BitVec 6) (o : BitVec 6) (i : BitVec 6) : Layout.Statement (.ldbz st gd n o i) := layout_of st rfl (by decide) (by decide) (by
  show some (Instr.ldbz st gd (fld (n ++ o ++ i) 12 6) (fld (n ++ o ++ i) 6 6) (fld (n ++ o ++ i) 0 6)) = _
  rw [f6_6_6_at12, f6_6_6_at6, f6_6_6_at0])
theorem Layout.ldh (st : BitVec 1) (gd : BitVec 3) (n : BitVec 6) (o : BitVec 6) (i : BitVec 6) : Layout.Statement (.ldh st gd n o i) := layout_of st rfl (by decide) (by decide) (by
  show some (Instr.ldh st gd (fld (n ++ o ++ i) 12 6) (fld (n ++ o ++ i) 6 6) (fld (n ++ o ++ i) 0 6)) = _
  rw [f6_6_6_at12, f6_6_6_at6, f6_6_6_at0])
theorem Layout.ldhz (st : BitVec 1) (gd : BitVec 3) (n : BitVec 6) (o : BitVec 6) (i : BitVec 6) : Layout.Statement (.ldhz st gd n o i) := layout_of st rfl (by decide) (by decide) (by
  show some (Instr.ldhz st gd (fld (n ++ o ++ i) 12 6) (fld (n ++ o ++ i) 6 6) (fld (n ++ o ++ i) 0 6)) = _
  rw [f6_6_6_at12, f6_6_6_at6, f6_6_6_at0])
theorem Layout.ldw (st : BitVec 1) (gd : BitVec 3) (n : BitVec 6) (o : BitVec 6) (i : BitVec 6) : Layout.Statement (.ldw st gd n o i) := layout_of st rfl (by decide) (by decide) (by
  show some (Instr.ldw st gd (fld (n ++ o ++ i) 12 6) (fld (n ++ o ++ i) 6 6) (fld (n ++ o ++ i) 0 6)) = _
  rw [f6_6_6_at12, f6_6_6_at6, f6_6_6_at0])
theorem Layout.ldwz (st : BitVec 1) (gd : BitVec 3) (n : BitVec 6) (o : BitVec 6) (i : BitVec 6) : Layout.Statement (.ldwz st gd n o i) := layout_of st rfl (by decide) (by decide) (by
  show some (Instr.ldwz st gd (fld (n ++ o ++ i) 12 6) (fld (n ++ o ++ i) 6 6) (fld (n ++ o ++ i) 0 6)) = _
  rw [f6_6_6_at12, f6_6_6_at6, f6_6_6_at0])
theorem Layout.ldd (st : BitVec 1) (gd : BitVec 3) (n : BitVec 6) (o : BitVec 6) (i : BitVec 6) : Layout.Statement (.ldd st gd n o i) := layout_of st rfl (by decide) (by decide) (by
  show some (Instr.ldd st gd (fld (n ++ o ++ i) 12 6) (fld (n ++ o ++ i) 6 6) (fld (n ++ o ++ i) 0 6)) = _
  rw [f6_6_6_at12, f6_6_6_at6, f6_6_6_at0])
theorem Layout.ldv (st : BitVec 1) (gd : BitVec 3) (n : BitVec 6) (o : BitVec 6) (i : BitVec 6) : Layout.Statement (.ldv st gd n o i) := layout_of st rfl (by decide) (by decide) (by
  show some (Instr.ldv st gd (fld (n ++ o ++ i) 12 6) (fld (n ++ o ++ i) 6 6) (fld (n ++ o ++ i) 0 6)) = _
  rw [f6_6_6_at12, f6_6_6_at6, f6_6_6_at0])
theorem Layout.ldvS (st : BitVec 1) (gd : BitVec 3) (n : BitVec 6) (o : BitVec 6) (i : BitVec 6) : Layout.Statement (.ldvS st gd n o i) := layout_of st rfl (by decide) (by decide) (by
  show some (Instr.ldvS st gd (fld (n ++ o ++ i) 12 6) (fld (n ++ o ++ i) 6 6) (fld (n ++ o ++ i) 0 6)) = _
  rw [f6_6_6_at12, f6_6_6_at6, f6_6_6_at0])
theorem Layout.ldvg (st : BitVec 1) (gd : BitVec 3) (n : BitVec 6) (o : BitVec 6) (v : BitVec 6) : Layout.Statement (.ldvg st gd n o v) := layout_of st rfl (by decide) (by decide) (by
  show some (Instr.ldvg st gd (fld (n ++ o ++ v) 12 6) (fld (n ++ o ++ v) 6 6) (fld (n ++ o ++ v) 0 6)) = _
  rw [f6_6_6_at12, f6_6_6_at6, f6_6_6_at0])
theorem Layout.stb (st : BitVec 1) (gd : BitVec 3) (n : BitVec 6) (o : BitVec 6) (x : BitVec 6) : Layout.Statement (.stb st gd n o x) := layout_of st rfl (by decide) (by decide) (by
  show some (Instr.stb st gd (fld (n ++ o ++ x) 12 6) (fld (n ++ o ++ x) 6 6) (fld (n ++ o ++ x) 0 6)) = _
  rw [f6_6_6_at12, f6_6_6_at6, f6_6_6_at0])
theorem Layout.sth (st : BitVec 1) (gd : BitVec 3) (n : BitVec 6) (o : BitVec 6) (x : BitVec 6) : Layout.Statement (.sth st gd n o x) := layout_of st rfl (by decide) (by decide) (by
  show some (Instr.sth st gd (fld (n ++ o ++ x) 12 6) (fld (n ++ o ++ x) 6 6) (fld (n ++ o ++ x) 0 6)) = _
  rw [f6_6_6_at12, f6_6_6_at6, f6_6_6_at0])
theorem Layout.stw (st : BitVec 1) (gd : BitVec 3) (n : BitVec 6) (o : BitVec 6) (x : BitVec 6) : Layout.Statement (.stw st gd n o x) := layout_of st rfl (by decide) (by decide) (by
  show some (Instr.stw st gd (fld (n ++ o ++ x) 12 6) (fld (n ++ o ++ x) 6 6) (fld (n ++ o ++ x) 0 6)) = _
  rw [f6_6_6_at12, f6_6_6_at6, f6_6_6_at0])
theorem Layout.std (st : BitVec 1) (gd : BitVec 3) (n : BitVec 6) (o : BitVec 6) (x : BitVec 6) : Layout.Statement (.std st gd n o x) := layout_of st rfl (by decide) (by decide) (by
  show some (Instr.std st gd (fld (n ++ o ++ x) 12 6) (fld (n ++ o ++ x) 6 6) (fld (n ++ o ++ x) 0 6)) = _
  rw [f6_6_6_at12, f6_6_6_at6, f6_6_6_at0])
theorem Layout.stv (st : BitVec 1) (gd : BitVec 3) (n : BitVec 6) (o : BitVec 6) (x : BitVec 6) : Layout.Statement (.stv st gd n o x) := layout_of st rfl (by decide) (by decide) (by
  show some (Instr.stv st gd (fld (n ++ o ++ x) 12 6) (fld (n ++ o ++ x) 6 6) (fld (n ++ o ++ x) 0 6)) = _
  rw [f6_6_6_at12, f6_6_6_at6, f6_6_6_at0])
theorem Layout.stvS (st : BitVec 1) (gd : BitVec 3) (n : BitVec 6) (o : BitVec 6) (x : BitVec 6) : Layout.Statement (.stvS st gd n o x) := layout_of st rfl (by decide) (by decide) (by
  show some (Instr.stvS st gd (fld (n ++ o ++ x) 12 6) (fld (n ++ o ++ x) 6 6) (fld (n ++ o ++ x) 0 6)) = _
  rw [f6_6_6_at12, f6_6_6_at6, f6_6_6_at0])
theorem Layout.stvm (st : BitVec 1) (gd : BitVec 3) (n : BitVec 6) (o : BitVec 6) (x : BitVec 6) : Layout.Statement (.stvm st gd n o x) := layout_of st rfl (by decide) (by decide) (by
  show some (Instr.stvm st gd (fld (n ++ o ++ x) 12 6) (fld (n ++ o ++ x) 6 6) (fld (n ++ o ++ x) 0 6)) = _
  rw [f6_6_6_at12, f6_6_6_at6, f6_6_6_at0])
theorem Layout.stvs (st : BitVec 1) (gd : BitVec 3) (n : BitVec 6) (o : BitVec 6) (v : BitVec 6) : Layout.Statement (.stvs st gd n o v) := layout_of st rfl (by decide) (by decide) (by
  show some (Instr.stvs st gd (fld (n ++ o ++ v) 12 6) (fld (n ++ o ++ v) 6 6) (fld (n ++ o ++ v) 0 6)) = _
  rw [f6_6_6_at12, f6_6_6_at6, f6_6_6_at0])
theorem Layout.aaddW (st : BitVec 1) (gd : BitVec 3) (n : BitVec 6) (o : BitVec 6) (x : BitVec 6) : Layout.Statement (.aaddW st gd n o x) := layout_of st rfl (by decide) (by decide) (by
  show some (Instr.aaddW st gd (fld (n ++ o ++ x) 12 6) (fld (n ++ o ++ x) 6 6) (fld (n ++ o ++ x) 0 6)) = _
  rw [f6_6_6_at12, f6_6_6_at6, f6_6_6_at0])
theorem Layout.aaddD (st : BitVec 1) (gd : BitVec 3) (n : BitVec 6) (o : BitVec 6) (x : BitVec 6) : Layout.Statement (.aaddD st gd n o x) := layout_of st rfl (by decide) (by decide) (by
  show some (Instr.aaddD st gd (fld (n ++ o ++ x) 12 6) (fld (n ++ o ++ x) 6 6) (fld (n ++ o ++ x) 0 6)) = _
  rw [f6_6_6_at12, f6_6_6_at6, f6_6_6_at0])
theorem Layout.aminW (st : BitVec 1) (gd : BitVec 3) (n : BitVec 6) (o : BitVec 6) (x : BitVec 6) : Layout.Statement (.aminW st gd n o x) := layout_of st rfl (by decide) (by decide) (by
  show some (Instr.aminW st gd (fld (n ++ o ++ x) 12 6) (fld (n ++ o ++ x) 6 6) (fld (n ++ o ++ x) 0 6)) = _
  rw [f6_6_6_at12, f6_6_6_at6, f6_6_6_at0])
theorem Layout.amaxW (st : BitVec 1) (gd : BitVec 3) (n : BitVec 6) (o : BitVec 6) (x : BitVec 6) : Layout.Statement (.amaxW st gd n o x) := layout_of st rfl (by decide) (by decide) (by
  show some (Instr.amaxW st gd (fld (n ++ o ++ x) 12 6) (fld (n ++ o ++ x) 6 6) (fld (n ++ o ++ x) 0 6)) = _
  rw [f6_6_6_at12, f6_6_6_at6, f6_6_6_at0])
theorem Layout.axchgD (st : BitVec 1) (gd : BitVec 3) (n : BitVec 6) (o : BitVec 6) (x : BitVec 6) : Layout.Statement (.axchgD st gd n o x) := layout_of st rfl (by decide) (by decide) (by
  show some (Instr.axchgD st gd (fld (n ++ o ++ x) 12 6) (fld (n ++ o ++ x) 6 6) (fld (n ++ o ++ x) 0 6)) = _
  rw [f6_6_6_at12, f6_6_6_at6, f6_6_6_at0])
theorem Layout.acasD (st : BitVec 1) (gd : BitVec 3) (n : BitVec 6) (o : BitVec 6) (x : BitVec 6) : Layout.Statement (.acasD st gd n o x) := layout_of st rfl (by decide) (by decide) (by
  show some (Instr.acasD st gd (fld (n ++ o ++ x) 12 6) (fld (n ++ o ++ x) 6 6) (fld (n ++ o ++ x) 0 6)) = _
  rw [f6_6_6_at12, f6_6_6_at6, f6_6_6_at0])
theorem Layout.vjoin (st : BitVec 1) (gd : BitVec 3) (n : BitVec 6) : Layout.Statement (.vjoin st gd n) := layout_of st rfl (by decide) (by decide) (by
  show some (Instr.vjoin st gd (fld (n ++ (0#12)) 12 6)) = _
  rw [f6_12_at12])
theorem Layout.sbind (st : BitVec 1) (gd : BitVec 3) (n : BitVec 6) (o : BitVec 6) : Layout.Statement (.sbind st gd n o) := layout_of st rfl (by decide) (by decide) (by
  show some (Instr.sbind st gd (fld (n ++ o ++ (0#6)) 12 6) (fld (n ++ o ++ (0#6)) 6 6)) = _
  rw [f6_6_6_at12, f6_6_6_at6])
theorem Layout.sfree (st : BitVec 1) (gd : BitVec 3) (n : BitVec 6) : Layout.Statement (.sfree st gd n) := layout_of st rfl (by decide) (by decide) (by
  show some (Instr.sfree st gd (fld (n ++ (0#12)) 12 6)) = _
  rw [f6_12_at12])
theorem Layout.slen (st : BitVec 1) (gd : BitVec 3) (n : BitVec 6) (d : BitVec 6) : Layout.Statement (.slen st gd n d) := layout_of st rfl (by decide) (by decide) (by
  show some (Instr.slen st gd (fld (n ++ (0#6) ++ d) 12 6) (fld (n ++ (0#6) ++ d) 0 6)) = _
  rw [f6_6_6_at12, f6_6_6_at0])
theorem Layout.sfmt (st : BitVec 1) (gd : BitVec 3) (n : BitVec 6) (d : BitVec 6) : Layout.Statement (.sfmt st gd n d) := layout_of st rfl (by decide) (by decide) (by
  show some (Instr.sfmt st gd (fld (n ++ (0#6) ++ d) 12 6) (fld (n ++ (0#6) ++ d) 0 6)) = _
  rw [f6_6_6_at12, f6_6_6_at0])
theorem Layout.sshd (st : BitVec 1) (gd : BitVec 3) (n : BitVec 6) : Layout.Statement (.sshd st gd n) := layout_of st rfl (by decide) (by decide) (by
  show some (Instr.sshd st gd (fld (n ++ (0#12)) 12 6)) = _
  rw [f6_12_at12])
theorem Layout.spub (st : BitVec 1) (gd : BitVec 3) (n : BitVec 6) : Layout.Statement (.spub st gd n) := layout_of st rfl (by decide) (by decide) (by
  show some (Instr.spub st gd (fld (n ++ (0#12)) 12 6)) = _
  rw [f6_12_at12])
theorem Layout.spubp (st : BitVec 1) (gd : BitVec 3) (n : BitVec 6) : Layout.Statement (.spubp st gd n) := layout_of st rfl (by decide) (by decide) (by
  show some (Instr.spubp st gd (fld (n ++ (0#12)) 12 6)) = _
  rw [f6_12_at12])
theorem Layout.sdisc (st : BitVec 1) (gd : BitVec 3) (n : BitVec 6) : Layout.Statement (.sdisc st gd n) := layout_of st rfl (by decide) (by decide) (by
  show some (Instr.sdisc st gd (fld (n ++ (0#12)) 12 6)) = _
  rw [f6_12_at12])
theorem Layout.kset (st : BitVec 1) (gd : BitVec 3) (h : BitVec 6) (a : BitVec 6) : Layout.Statement (.kset st gd h a) := layout_of st rfl (by decide) (by decide) (by
  show some (Instr.kset st gd (fld (h ++ a ++ (0#6)) 12 6) (fld (h ++ a ++ (0#6)) 6 6)) = _
  rw [f6_6_6_at12, f6_6_6_at6])
theorem Layout.kclr (st : BitVec 1) (gd : BitVec 3) (h : BitVec 6) : Layout.Statement (.kclr st gd h) := layout_of st rfl (by decide) (by decide) (by
  show some (Instr.kclr st gd (fld (h ++ (0#12)) 12 6)) = _
  rw [f6_12_at12])
theorem Layout.kldk (st : BitVec 1) (gd : BitVec 3) (h : BitVec 6) (a : BitVec 6) : Layout.Statement (.kldk st gd h a) := layout_of st rfl (by decide) (by decide) (by
  show some (Instr.kldk st gd (fld (h ++ a ++ (0#6)) 12 6) (fld (h ++ a ++ (0#6)) 6 6)) = _
  rw [f6_6_6_at12, f6_6_6_at6])
theorem Layout.kldv (st : BitVec 1) (gd : BitVec 3) (h : BitVec 6) (a : BitVec 6) : Layout.Statement (.kldv st gd h a) := layout_of st rfl (by decide) (by decide) (by
  show some (Instr.kldv st gd (fld (h ++ a ++ (0#6)) 12 6) (fld (h ++ a ++ (0#6)) 6 6)) = _
  rw [f6_6_6_at12, f6_6_6_at6])
theorem Layout.kapp (st : BitVec 1) (gd : BitVec 3) (h : BitVec 6) (a : BitVec 6) (b : BitVec 6) : Layout.Statement (.kapp st gd h a b) := layout_of st rfl (by decide) (by decide) (by
  show some (Instr.kapp st gd (fld (h ++ a ++ b) 12 6) (fld (h ++ a ++ b) 6 6) (fld (h ++ a ++ b) 0 6)) = _
  rw [f6_6_6_at12, f6_6_6_at6, f6_6_6_at0])
theorem Layout.klen (st : BitVec 1) (gd : BitVec 3) (d : BitVec 6) (h : BitVec 6) : Layout.Statement (.klen st gd d h) := layout_of st rfl (by decide) (by decide) (by
  show some (Instr.klen st gd (fld (d ++ h ++ (0#6)) 12 6) (fld (d ++ h ++ (0#6)) 6 6)) = _
  rw [f6_6_6_at12, f6_6_6_at6])
theorem Layout.kmark (st : BitVec 1) (gd : BitVec 3) (h : BitVec 6) : Layout.Statement (.kmark st gd h) := layout_of st rfl (by decide) (by decide) (by
  show some (Instr.kmark st gd (fld (h ++ (0#12)) 12 6)) = _
  rw [f6_12_at12])
theorem Layout.ktrunc (st : BitVec 1) (gd : BitVec 3) (h : BitVec 6) (a : BitVec 6) : Layout.Statement (.ktrunc st gd h a) := layout_of st rfl (by decide) (by decide) (by
  show some (Instr.ktrunc st gd (fld (h ++ a ++ (0#6)) 12 6) (fld (h ++ a ++ (0#6)) 6 6)) = _
  rw [f6_6_6_at12, f6_6_6_at6])
theorem Layout.kivl (st : BitVec 1) (gd : BitVec 3) (i : BitVec 6) (a : BitVec 6) : Layout.Statement (.kivl st gd i a) := layout_of st rfl (by decide) (by decide) (by
  show some (Instr.kivl st gd (fld (i ++ a ++ (0#6)) 12 6) (fld (i ++ a ++ (0#6)) 6 6)) = _
  rw [f6_6_6_at12, f6_6_6_at6])
theorem Layout.kcls (st : BitVec 1) (gd : BitVec 3) (d : BitVec 6) (a : BitVec 6) (m : BitVec 3) : Layout.Statement (.kcls st gd d a m) := layout_of st rfl (by decide) (by decide) (by
  show some (Instr.kcls st gd (fld (d ++ a ++ (0#3) ++ m) 12 6) (fld (d ++ a ++ (0#3) ++ m) 6 6) (fld (d ++ a ++ (0#3) ++ m) 0 3)) = _
  rw [f6_6_3_3_at12, f6_6_3_3_at6, f6_6_3_3_at0])
theorem Layout.kpf (st : BitVec 1) (gd : BitVec 3) (h : BitVec 6) (a : BitVec 6) : Layout.Statement (.kpf st gd h a) := layout_of st rfl (by decide) (by decide) (by
  show some (Instr.kpf st gd (fld (h ++ a ++ (0#6)) 12 6) (fld (h ++ a ++ (0#6)) 6 6)) = _
  rw [f6_6_6_at12, f6_6_6_at6])
theorem Layout.cpyin (st : BitVec 1) (gd : BitVec 3) (n : BitVec 6) (a : BitVec 6) : Layout.Statement (.cpyin st gd n a) := layout_of st rfl (by decide) (by decide) (by
  show some (Instr.cpyin st gd (fld (n ++ a ++ (0#6)) 12 6) (fld (n ++ a ++ (0#6)) 6 6)) = _
  rw [f6_6_6_at12, f6_6_6_at6])
theorem Layout.cpyinSh (st : BitVec 1) (gd : BitVec 3) (n : BitVec 6) (a : BitVec 6) : Layout.Statement (.cpyinSh st gd n a) := layout_of st rfl (by decide) (by decide) (by
  show some (Instr.cpyinSh st gd (fld (n ++ a ++ (0#6)) 12 6) (fld (n ++ a ++ (0#6)) 6 6)) = _
  rw [f6_6_6_at12, f6_6_6_at6])
theorem Layout.cpyout (st : BitVec 1) (gd : BitVec 3) (n : BitVec 6) (a : BitVec 6) : Layout.Statement (.cpyout st gd n a) := layout_of st rfl (by decide) (by decide) (by
  show some (Instr.cpyout st gd (fld (n ++ a ++ (0#6)) 12 6) (fld (n ++ a ++ (0#6)) 6 6)) = _
  rw [f6_6_6_at12, f6_6_6_at6])
theorem Layout.cpysg (st : BitVec 1) (gd : BitVec 3) (n : BitVec 6) (a : BitVec 6) : Layout.Statement (.cpysg st gd n a) := layout_of st rfl (by decide) (by decide) (by
  show some (Instr.cpysg st gd (fld (n ++ a ++ (0#6)) 12 6) (fld (n ++ a ++ (0#6)) 6 6)) = _
  rw [f6_6_6_at12, f6_6_6_at6])
theorem Layout.cpymc (st : BitVec 1) (gd : BitVec 3) (n : BitVec 6) (a : BitVec 6) : Layout.Statement (.cpymc st gd n a) := layout_of st rfl (by decide) (by decide) (by
  show some (Instr.cpymc st gd (fld (n ++ a ++ (0#6)) 12 6) (fld (n ++ a ++ (0#6)) 6 6)) = _
  rw [f6_6_6_at12, f6_6_6_at6])
theorem Layout.puts (st : BitVec 1) (gd : BitVec 3) (n : BitVec 6) (a : BitVec 6) : Layout.Statement (.puts st gd n a) := layout_of st rfl (by decide) (by decide) (by
  show some (Instr.puts st gd (fld (n ++ a ++ (0#6)) 12 6) (fld (n ++ a ++ (0#6)) 6 6)) = _
  rw [f6_6_6_at12, f6_6_6_at6])
theorem Layout.putr (st : BitVec 1) (gd : BitVec 3) (q : BitVec 6) (a : BitVec 6) : Layout.Statement (.putr st gd q a) := layout_of st rfl (by decide) (by decide) (by
  show some (Instr.putr st gd (fld (q ++ a ++ (0#6)) 12 6) (fld (q ++ a ++ (0#6)) 6 6)) = _
  rw [f6_6_6_at12, f6_6_6_at6])
theorem Layout.gets (st : BitVec 1) (gd : BitVec 3) (n : BitVec 6) (a : BitVec 6) : Layout.Statement (.gets st gd n a) := layout_of st rfl (by decide) (by decide) (by
  show some (Instr.gets st gd (fld (n ++ a ++ (0#6)) 12 6) (fld (n ++ a ++ (0#6)) 6 6)) = _
  rw [f6_6_6_at12, f6_6_6_at6])
theorem Layout.atadd (st : BitVec 1) (gd : BitVec 3) (n : BitVec 6) (a : BitVec 6) : Layout.Statement (.atadd st gd n a) := layout_of st rfl (by decide) (by decide) (by
  show some (Instr.atadd st gd (fld (n ++ a ++ (0#6)) 12 6) (fld (n ++ a ++ (0#6)) 6 6)) = _
  rw [f6_6_6_at12, f6_6_6_at6])
theorem Layout.atcas (st : BitVec 1) (gd : BitVec 3) (n : BitVec 6) (a : BitVec 6) : Layout.Statement (.atcas st gd n a) := layout_of st rfl (by decide) (by decide) (by
  show some (Instr.atcas st gd (fld (n ++ a ++ (0#6)) 12 6) (fld (n ++ a ++ (0#6)) 6 6)) = _
  rw [f6_6_6_at12, f6_6_6_at6])
theorem Layout.atxch (st : BitVec 1) (gd : BitVec 3) (n : BitVec 6) (a : BitVec 6) : Layout.Statement (.atxch st gd n a) := layout_of st rfl (by decide) (by decide) (by
  show some (Instr.atxch st gd (fld (n ++ a ++ (0#6)) 12 6) (fld (n ++ a ++ (0#6)) 6 6)) = _
  rw [f6_6_6_at12, f6_6_6_at6])
theorem Layout.spawn (st : BitVec 1) (gd : BitVec 3) (a : BitVec 6) : Layout.Statement (.spawn st gd a) := layout_of st rfl (by decide) (by decide) (by
  show some (Instr.spawn st gd (fld ((0#6) ++ a ++ (0#6)) 6 6)) = _
  rw [f6_6_6_at6])
theorem Layout.waitf (st : BitVec 1) (gd : BitVec 3) (f : BitVec 6) (i : BitVec 12) : Layout.Statement (.waitf st gd f i) := layout_of st rfl (by decide) (by decide) (by
  show some (Instr.waitf st gd (fld (f ++ i) 12 6) (fld (f ++ i) 0 12)) = _
  rw [f6_12_at12, f6_12_at0])
theorem Layout.postf (st : BitVec 1) (gd : BitVec 3) (f : BitVec 6) (i : BitVec 12) : Layout.Statement (.postf st gd f i) := layout_of st rfl (by decide) (by decide) (by
  show some (Instr.postf st gd (fld (f ++ i) 12 6) (fld (f ++ i) 0 12)) = _
  rw [f6_12_at12, f6_12_at0])
theorem Layout.postr (st : BitVec 1) (gd : BitVec 3) (a : BitVec 6) : Layout.Statement (.postr st gd a) := layout_of st rfl (by decide) (by decide) (by
  show some (Instr.postr st gd (fld ((0#6) ++ a ++ (0#6)) 6 6)) = _
  rw [f6_6_6_at6])
theorem Layout.finit (st : BitVec 1) (gd : BitVec 3) (f : BitVec 6) (i : BitVec 12) : Layout.Statement (.finit st gd f i) := layout_of st rfl (by decide) (by decide) (by
  show some (Instr.finit st gd (fld (f ++ i) 12 6) (fld (f ++ i) 0 12)) = _
  rw [f6_12_at12, f6_12_at0])
theorem Layout.waitc (st : BitVec 1) (gd : BitVec 3) (l : BitVec 4) (t : BitVec 4) (c : BitVec 4) (m : BitVec 4) : Layout.Statement (.waitc st gd l t c m) := layout_of st rfl (by decide) (by decide) (by
  show some (Instr.waitc st gd (fld ((0#2) ++ l ++ t ++ c ++ m) 12 4) (fld ((0#2) ++ l ++ t ++ c ++ m) 8 4) (fld ((0#2) ++ l ++ t ++ c ++ m) 4 4) (fld ((0#2) ++ l ++ t ++ c ++ m) 0 4)) = _
  rw [f2_4_4_4_4_at12, f2_4_4_4_4_at8, f2_4_4_4_4_at4, f2_4_4_4_4_at0])
theorem Layout.frd (st : BitVec 1) (gd : BitVec 3) (d : BitVec 6) (f : BitVec 6) : Layout.Statement (.frd st gd d f) := layout_of st rfl (by decide) (by decide) (by
  show some (Instr.frd st gd (fld (d ++ (0#6) ++ f) 12 6) (fld (d ++ (0#6) ++ f) 0 6)) = _
  rw [f6_6_6_at12, f6_6_6_at0])
theorem Layout.mwl (st : BitVec 1) (gd : BitVec 3) (n : BitVec 6) (o : BitVec 6) (r : BitVec 6) : Layout.Statement (.mwl st gd n o r) := layout_of st rfl (by decide) (by decide) (by
  show some (Instr.mwl st gd (fld (n ++ o ++ r) 12 6) (fld (n ++ o ++ r) 6 6) (fld (n ++ o ++ r) 0 6)) = _
  rw [f6_6_6_at12, f6_6_6_at6, f6_6_6_at0])
theorem Layout.mwsw (st : BitVec 1) (gd : BitVec 3) : Layout.Statement (.mwsw st gd) := layout_of st rfl (by decide) (by decide) rfl
theorem Layout.mga (st : BitVec 1) (gd : BitVec 3) (n : BitVec 6) (o : BitVec 6) (v : BitVec 6) : Layout.Statement (.mga st gd n o v) := layout_of st rfl (by decide) (by decide) (by
  show some (Instr.mga st gd (fld (n ++ o ++ v) 12 6) (fld (n ++ o ++ v) 6 6) (fld (n ++ o ++ v) 0 6)) = _
  rw [f6_6_6_at12, f6_6_6_at6, f6_6_6_at0])
theorem Layout.mac (st : BitVec 1) (gd : BitVec 3) (a : BitVec 6) (b : BitVec 6) : Layout.Statement (.mac st gd a b) := layout_of st rfl (by decide) (by decide) (by
  show (if fld ((0#6) ++ a ++ b) 12 6 = 1 then some (Instr.macLatch st gd (fld ((0#6) ++ a ++ b) 6 6)) else some (Instr.mac st gd (fld ((0#6) ++ a ++ b) 6 6) (fld ((0#6) ++ a ++ b) 0 6))) = _
  rw [f6_6_6_at12, f6_6_6_at6, f6_6_6_at0]; rfl)
theorem Layout.macLatch (st : BitVec 1) (gd : BitVec 3) (a : BitVec 6) : Layout.Statement (.macLatch st gd a) := layout_of st rfl (by decide) (by decide) (by
  show (if fld ((1#6) ++ a ++ (0#6)) 12 6 = 1 then some (Instr.macLatch st gd (fld ((1#6) ++ a ++ (0#6)) 6 6)) else some (Instr.mac st gd (fld ((1#6) ++ a ++ (0#6)) 6 6) (fld ((1#6) ++ a ++ (0#6)) 0 6))) = _
  rw [f6_6_6_at12, f6_6_6_at6]; rfl)
theorem Layout.macZ (st : BitVec 1) (gd : BitVec 3) (a : BitVec 6) (b : BitVec 6) : Layout.Statement (.macZ st gd a b) := layout_of st rfl (by decide) (by decide) (by
  show (if fld ((0#6) ++ a ++ b) 12 6 = 1 then some (Instr.macZLatch st gd (fld ((0#6) ++ a ++ b) 6 6)) else some (Instr.macZ st gd (fld ((0#6) ++ a ++ b) 6 6) (fld ((0#6) ++ a ++ b) 0 6))) = _
  rw [f6_6_6_at12, f6_6_6_at6, f6_6_6_at0]; rfl)
theorem Layout.macZLatch (st : BitVec 1) (gd : BitVec 3) (a : BitVec 6) : Layout.Statement (.macZLatch st gd a) := layout_of st rfl (by decide) (by decide) (by
  show (if fld ((1#6) ++ a ++ (0#6)) 12 6 = 1 then some (Instr.macZLatch st gd (fld ((1#6) ++ a ++ (0#6)) 6 6)) else some (Instr.macZ st gd (fld ((1#6) ++ a ++ (0#6)) 6 6) (fld ((1#6) ++ a ++ (0#6)) 0 6))) = _
  rw [f6_6_6_at12, f6_6_6_at6]; rfl)
theorem Layout.mdr (st : BitVec 1) (gd : BitVec 3) (q : BitVec 6) (a : BitVec 6) (x : BitVec 1) (f : BitVec 3) : Layout.Statement (.mdr st gd q a x f) := layout_of st rfl (by decide) (by decide) (by
  show some (Instr.mdr st gd (fld (q ++ a ++ (0#2) ++ x ++ f) 12 6) (fld (q ++ a ++ (0#2) ++ x ++ f) 6 6) (fld (q ++ a ++ (0#2) ++ x ++ f) 3 1) (fld (q ++ a ++ (0#2) ++ x ++ f) 0 3)) = _
  rw [f6_6_2_1_3_at12, f6_6_2_1_3_at6, f6_6_2_1_3_at3, f6_6_2_1_3_at0])
theorem Layout.mrot (st : BitVec 1) (gd : BitVec 3) (a : BitVec 6) : Layout.Statement (.mrot st gd a) := layout_of st rfl (by decide) (by decide) (by
  show some (Instr.mrot st gd (fld ((0#6) ++ a ++ (0#6)) 6 6)) = _
  rw [f6_6_6_at6])
theorem Layout.mldh (st : BitVec 1) (gd : BitVec 3) (i : BitVec 12) : Layout.Statement (.mldh st gd i) := layout_of st rfl (by decide) (by decide) (by
  show some (Instr.mldh st gd (fld ((0#6) ++ i) 0 12)) = _
  rw [f6_12_at0])
theorem Layout.mset (st : BitVec 1) (gd : BitVec 3) (a : BitVec 6) (e : BitVec 5) : Layout.Statement (.mset st gd a e) := layout_of st rfl (by decide) (by decide) (by
  show some (Instr.mset st gd (fld (a ++ (0#7) ++ e) 12 6) (fld (a ++ (0#7) ++ e) 0 5)) = _
  rw [f6_7_5_at12, f6_7_5_at0])
theorem Layout.abal (st : BitVec 1) (gd : BitVec 3) (d : BitVec 6) (i : BitVec 12) : Layout.Statement (.abal st gd d i) := layout_of st rfl (by decide) (by decide) (by
  show some (Instr.abal st gd (fld (d ++ i) 12 6) (fld (d ++ i) 0 12)) = _
  rw [f6_12_at12, f6_12_at0])
theorem Layout.abfr (st : BitVec 1) (gd : BitVec 3) (a : BitVec 6) (i : BitVec 12) : Layout.Statement (.abfr st gd a i) := layout_of st rfl (by decide) (by decide) (by
  show some (Instr.abfr st gd (fld (a ++ i) 12 6) (fld (a ++ i) 0 12)) = _
  rw [f6_12_at12, f6_12_at0])
theorem Layout.mmul (st : BitVec 1) (gd : BitVec 3) : Layout.Statement (.mmul st gd) := layout_of st rfl (by decide) (by decide) rfl
theorem Layout.mmulR (st : BitVec 1) (gd : BitVec 3) : Layout.Statement (.mmulR st gd) := layout_of st rfl (by decide) (by decide) rfl
theorem Layout.mlu (st : BitVec 1) (gd : BitVec 3) : Layout.Statement (.mlu st gd) := layout_of st rfl (by decide) (by decide) rfl
theorem Layout.mluR (st : BitVec 1) (gd : BitVec 3) : Layout.Statement (.mluR st gd) := layout_of st rfl (by decide) (by decide) rfl
theorem Layout.mchol (st : BitVec 1) (gd : BitVec 3) : Layout.Statement (.mchol st gd) := layout_of st rfl (by decide) (by decide) rfl
theorem Layout.mcholR (st : BitVec 1) (gd : BitVec 3) : Layout.Statement (.mcholR st gd) := layout_of st rfl (by decide) (by decide) rfl
theorem Layout.mqr (st : BitVec 1) (gd : BitVec 3) : Layout.Statement (.mqr st gd) := layout_of st rfl (by decide) (by decide) rfl
theorem Layout.mqrR (st : BitVec 1) (gd : BitVec 3) : Layout.Statement (.mqrR st gd) := layout_of st rfl (by decide) (by decide) rfl
theorem Layout.mtrs (st : BitVec 1) (gd : BitVec 3) : Layout.Statement (.mtrs st gd) := layout_of st rfl (by decide) (by decide) rfl
theorem Layout.mperm (st : BitVec 1) (gd : BitVec 3) : Layout.Statement (.mperm st gd) := layout_of st rfl (by decide) (by decide) rfl
theorem Layout.lit (st : BitVec 1) (l : BitVec 27) : Layout.Statement (.lit st l) := by
  intro w h hc
  cases h
  have e : fld (st ++ (14#4) ++ l) 27 4 = 14#4 := by
    rw [fld_high _ _ _ _ (by decide), fld_low _ _ _ _ (by decide)]; exact fld_whole _
  exact absurd hc (by simp only [slotClass, e]; decide)

theorem Layout.pad (st : BitVec 1) : Layout.Statement (.pad st) := by
  intro w h hc
  cases h
  have e : fld (st ++ (15#4) ++ (0#27)) 27 4 = 15#4 := by
    rw [fld_high _ _ _ _ (by decide), fld_low _ _ _ _ (by decide)]; exact fld_whole _
  exact absurd hc (by simp only [slotClass, e]; decide)

end Sys2Proof.Laws
end

