-- ==== Sys2Proof/Laws/Slots.lean ====
section
/-! SUPPORT. Everything that one slot of a bundle can do (`runSlot`), and what the shared operations of its effect give in
the terms of Safety: a result, a cause, nothing. -/

namespace Sys2Proof.Machine

/-! ### The slot in hand -/

theorem here_of_first {i : Issue} (h : i.remake = []) :
    i.here = { word := i.words.getD i.pos 0, lits := i.lits, slot := i.pos, pc := i.addr } := by
  simp [Issue.here, h, Issue.lits]

@[simp] theorem slotOf_slot {i : Issue} (h : i.remake = []) (o : Opnds) : (i.slotOf o).slot = i.pos := by
  simp [Issue.slotOf, here_of_first h]
@[simp] theorem slotOf_pc {i : Issue} (h : i.remake = []) (o : Opnds) : (i.slotOf o).pc = i.addr := by
  simp [Issue.slotOf, here_of_first h]
@[simp] theorem slotOf_lits {i : Issue} (h : i.remake = []) (o : Opnds) : (i.slotOf o).lits = i.lits := by
  simp [Issue.slotOf, here_of_first h]
@[simp] theorem slotOf_word {i : Issue} (h : i.remake = []) (o : Opnds) : (i.slotOf o).word = i.words.getD i.pos 0 := by
  simp [Issue.slotOf, here_of_first h]
@[simp] theorem slotOf_ops (i : Issue) (o : Opnds) : (i.slotOf o).ops = o.words := rfl
@[simp] theorem slotOf_immS {i : Issue} (h : i.remake = []) (o : Opnds) (w f : Nat) :
    (i.slotOf o).immS w f = immS w f i.lits := by
  simp [SlotRec.immS, h]
@[simp] theorem slotOf_immU {i : Issue} (h : i.remake = []) (o : Opnds) (w f : Nat) :
    (i.slotOf o).immU w f = immU w f i.lits := by
  simp [SlotRec.immU, h]

/-! ### Everything that a slot can do -/

/-- A slot that executes has its effect on the state past it. -/
theorem runSlot_executes {s : State} {i : Issue} {gd : BitVec 3} {src : List Rd} {o : Opnds}
    (h : s.Executes i gd src o) (f : SlotRec → Opnds → State → State) :
    runSlot gd src f s = .next (f (i.slotOf o) o (s.past i src)) := by
  obtain ⟨h1, h2, h3, h4, h5⟩ := h
  have h6 : (i.annulled || !((s.tile i.tile).ctx i.cx).regs.guard gd) = false := by
    rw [h3, show ((s.tile i.tile).ctx i.cx).regs.guard gd = true from h4]; rfl
  unfold runSlot
  rw [h1]
  dsimp only
  split
  · rename_i e; rw [h2] at e; cases e
  · rw [h6, if_neg (by decide), h5]; rfl

/-- A slot of an annulled bundle, or one whose guard is false, has no effect (R41, R80). -/
theorem runSlot_passes {s : State} {i : Issue} {gd : BitVec 3} (h1 : s.issue = some i) (h2 : i.remake = [])
    (h3 : i.annulled = true ∨ (s.ctx i.tile i.cx).regs.guard gd = false) (src : List Rd)
    (f : SlotRec → Opnds → State → State) :
    runSlot gd src f s = .next { s with issue := some { i with pos := i.pos + 1 } } := by
  have h4 : (i.annulled || !((s.tile i.tile).ctx i.cx).regs.guard gd) = true := by
    rcases h3 with h3 | h3
    · simp [h3]
    · rw [show ((s.tile i.tile).ctx i.cx).regs.guard gd = false from h3]; simp
  simp only [runSlot, h1, h2, h4, if_true]

/-- A slot that finds a queue short takes QUND before its bundle (R323). -/
theorem runSlot_short {s : State} {i : Issue} {gd : BitVec 3} {src : List Rd} {r : Rd} (h1 : s.issue = some i)
    (h2 : i.remake = []) (h3 : i.annulled = false) (h4 : (s.ctx i.tile i.cx).regs.guard gd = true)
    (h5 : readAll (s.tile i.tile) i.cx src {} = .error r) (f : SlotRec → Opnds → State → State) :
    runSlot gd src f s = .next (s.trapBefore i.tile i.cx Cause.qund i.pos (r.info (s.tile i.tile) i.cx)) := by
  simp only [runSlot, h1, h2, h3]
  rw [show ((s.tile i.tile).ctx i.cx).regs.guard gd = true from h4]
  simp [h5]

/-- An operation made again takes its effect from the operand words that it had read, and its results keep the count of its
first landing (R32, R333). -/
theorem runSlot_again {s : State} {i : Issue} {e : REnt} {rest : List REnt} (gd : BitVec 3) (src : List Rd)
    (h1 : s.issue = some i) (h2 : i.remake = e :: rest) (f : SlotRec → Opnds → State → State) :
    runSlot gd src f s =
      .next ((f i.here (fromWords src i.here.ops {}) { s with issue := some { i with remake := rest } }).keepRem
        i.out.length i.raised.length (fld e.desc 4 8).toNat) := by
  simp [runSlot, h1, h2]

/-- Without a bundle in progress there is nothing to do. -/
theorem runSlot_none {s : State} (gd : BitVec 3) (src : List Rd) (h1 : s.issue = none)
    (f : SlotRec → Opnds → State → State) : runSlot gd src f s = .next s := by
  simp [runSlot, h1]

/-- A slot answers a next state in every state. -/
theorem runSlot_next (gd : BitVec 3) (src : List Rd) (f : SlotRec → Opnds → State → State) (s : State) :
    ∃ t, runSlot gd src f s = .next t := by
  unfold runSlot
  split
  · exact ⟨_, rfl⟩
  · dsimp only
    split
    · exact ⟨_, rfl⟩
    · split
      · exact ⟨_, rfl⟩
      · split <;> exact ⟨_, rfl⟩

/-! ### The state past a slot -/

@[simp] theorem past_issue (s : State) (i : Issue) (src : List Rd) :
    (s.past i src).issue = some (i.past (s.ctx i.tile i.cx).frame.mode src) := rfl
@[simp] theorem past_tile (s : State) (i : Issue) (src : List Rd) (t : Nat) : (s.past i src).tile t = s.tile t := rfl
@[simp] theorem past_ctx (s : State) (i : Issue) (src : List Rd) (t : Nat) (cx : Cx) :
    (s.past i src).ctx t cx = s.ctx t cx := rfl
@[simp] theorem past_part (s : State) (i : Issue) (src : List Rd) (p : Nat) : (s.past i src).part p = s.part p := rfl
@[simp] theorem past_partOf (s : State) (i : Issue) (src : List Rd) (t : Nat) : (s.past i src).partOf t = s.partOf t := rfl
@[simp] theorem past_here (s : State) (i : Issue) (src : List Rd) : (s.past i src).here = (i.tile, i.cx) := rfl
@[simp] theorem past_curTile (s : State) (i : Issue) (src : List Rd) : (s.past i src).curTile = s.tile i.tile := rfl
@[simp] theorem past_cur (s : State) (i : Issue) (src : List Rd) : (s.past i src).cur = s.ctx i.tile i.cx := rfl
@[simp] theorem past_code (s : State) (i : Issue) (src : List Rd) : (s.past i src).code = s.code := rfl
@[simp] theorem past_now (s : State) (i : Issue) (src : List Rd) : (s.past i src).now = s.now := rfl

/-- A slot without effect leaves the state past it. -/
theorem past_eq_sends (s : State) (i : Issue) (src : List Rd) : s.past i src = s.sends i src [] := by
  simp [State.past, State.sends, Issue.past]

/-! ### The shared effects of a slot -/

theorem push_past {i : Issue} (h : i.remake = []) (s : State) (src : List Rd) (o : Opnds) (l : Nat) (p : Payload)
    (fp : Fpst) : (s.past i src).push (i.slotOf o) l p fp = s.sends i src [i.gives l p fp] := by
  simp [State.push, State.past, State.sends, State.modIssue, Issue.past, Issue.gives, h]

theorem pushS_past {i : Issue} (h : i.remake = []) (s : State) (src : List Rd) (o : Opnds) (d : BitVec 6) (l : Nat)
    (v : Dword) : (s.past i src).pushS (i.slotOf o) d l v = s.sends i src (s.toS i d l v) := by
  unfold State.pushS State.toS
  split
  · exact past_eq_sends s i src
  · exact push_past h s src o l _ 0

theorem pushV_past {i : Issue} (h : i.remake = []) (s : State) (src : List Rd) (o : Opnds) (d : BitVec 6) (l : Nat)
    (v : Vec × Fpst) : (s.past i src).pushV (i.slotOf o) d l v = s.sends i src (i.toV d l v) := by
  unfold State.pushV Issue.toV
  split
  · split
    · exact past_eq_sends s i src
    · exact push_past h s src o l _ _
  · exact push_past h s src o l _ _

theorem raise_past (s : State) (i : Issue) (src : List Rd) (o : Opnds) (cause : Nat) (einfo : Dword) :
    (s.past i src).raise (i.slotOf o) cause einfo = s.raises i src o cause einfo := rfl

end Sys2Proof.Machine
end

