-- ==== Sys2Proof/Tests/Slice0.lean ====
section
/-! SUPPORT. Small tests: ill-formed terms, words that the spec writes out, effects worked by hand from the rules, and a
state and operands for the hypotheses of each obligation. -/

namespace Sys2Proof.Tests

set_option maxRecDepth 100000
set_option Elab.async false

open Sys2Proof.Machine

/-! ### Ill-formed terms: one for each check of WellFormed -/

theorem test_wf_scalarSource : wf (.addSa 0 0 3 29 2) = false := by decide
theorem test_wf_scalarDestination : wf (.addSa 0 0 28 1 2) = false ∧ wf (.addSa 0 0 35 1 2) = false := by decide
theorem test_wf_compareSource : wf (.cmpEqSa 0 0 9 1 28) = false := by decide
theorem test_wf_vectorSource : wf (.vselVa 0 0 1 30 2) = false := by decide
theorem test_wf_vectorDestination : wf (.vselVa 0 0 24 1 2) = false ∧ wf (.vselVa 0 0 37 1 2) = false := by decide
theorem test_wf_fusedDestination : wf (.vfmaF32Va 0 0 24 1 2) = false ∧ wf (.vfmaF32Va 0 0 37 1 2) = true := by decide
theorem test_wf_predicates : wf (.pmovSa 0 0 0 1) = false ∧ wf (.pmovSa 0 0 1 96) = false := by decide
theorem test_wf_maskDestination : wf (.xmk 0 0 0 1) = false := by decide
theorem test_wf_ranges : wf (.gmap 0 0 0 1 1) = false ∧ wf (.waitf 0 0 16 1) = false ∧ wf (.abal 0 0 4 129) = false ∧
    wf (.mdr 0 0 0 5 0 7) = false := by decide
theorem test_wf_systemRegister : wf (.srd 0 0 5 0x009) = false := by decide
theorem test_wf_order : wf (.mldh 0 0 48) = false := by decide
theorem test_wf_tile : wf (.seqComplete 2048) = false := by decide

/-! ### Words written out in the spec's tables of examples, and in its encoding (R35 to R37) -/

/-- Whether a word decodes to an instruction. -/
noncomputable def reads (p : Word × Instr) : Bool :=
  match decodeSlot p.1 [] with
  | .ok i => decide (i = p.2)
  | .error _ => false

theorem test_decode_control : ∀ p ∈ ([(0x00000008#32, .br 0 0 8), (0x0023FFF4#32, .brNa 0 0 0x3FFF4),
    (0x004C0004#32, .brNt 0 3 4), (0x00600180#32, .bri 0 0 6), (0x0081B014#32, .call 0 0 27 0x014),
    (0x00A24006#32, .loop0 0 0 36 6), (0x01009003#32, .loopi1 0 0 9 3), (0x01600000#32, .reti 0 0),
    (0x0140002A#32, .trap 0 0 0x2A), (0x01800001#32, .brk 0 0 1), (0x01200280#32, .endTask 0 0 10),
    (0x01A3DF00#32, .gmap 0 0 7 95 0), (0x01C05000#32, .srd 0 0 5 0), (0x01E03020#32, .swr 0 0 3 0x020)] :
    List (Word × Instr)), reads p = true := by decide +kernel
theorem test_decode_scalar : ∀ p ∈ ([(0x08003062#32, .addSa 0 0 3 1 34), (0x08203042#32, .subSa 0 0 3 1 2),
    (0x104030FF#32, .addiSb 0 0 3 3 0x3F), (0x08C07209#32, .divSa 0 0 7 8 9), (0x122028BF#32, .shliSb 0 0 2 34 63),
    (0x13A84064#32, .moviSb 0 2 4 100), (0x0B40411F#32, .extSa 0 0 4 4 31), (0x0B81F040#32, .movSa 0 0 31 1),
    (0x0C404822#32, .cmpLtSa 0 0 9 1 2), (0x15401CA7#32, .cmpiLtuSb 0 0 3 37 7), (0x15804A80#32, .pandSb 0 0 9 40),
    (0x0E402801#32, .psetiSa 0 0 5 1), (0x0E60605F#32, .ptosSa 0 0 6 95), (0x16A000C4#32, .schkSb 0 0 3 4)] :
    List (Word × Instr)), reads p = true := by decide +kernel
theorem test_decode_vector : ∀ p ∈ ([(0x18003042#32, .vaddF32Va 0 0 3 1 2), (0x20827209#32, .vfmsF32Vb 0 0 39 8 9),
    (0x194061A2#32, .vmulBfVa 0 0 6 6 34), (0x19E80701#32, .vaddI32Va 0 2 0 28 1), (0x1B603042#32, .vcmpLtF32Va 0 0 3 1 2),
    (0x1C0020C4#32, .vmandVa 0 0 2 3 4), (0x1C6000C0#32, .vmsVa 0 0 3), (0x24A06049#32, .vpermVb 0 0 6 1 9),
    (0x1D609201#32, .vunpkBfVa 0 0 9 8 1), (0x1E40D303#32, .vunpk8E5Va 0 0 13 12 3), (0x28001080#32, .vexp2 0 0 1 2),
    (0x290061C0#32, .vrsumF32 0 0 6 7), (0x2A014055#32, .amaxu 0 0 20 1 21), (0x2B000049#32, .vchk 0 0 1 9)] :
    List (Word × Instr)), reads p = true := by decide +kernel
theorem test_decode_transfers : ∀ p ∈ ([(0x30002140#32, .xbc 0 0 2 5), (0x3020217F#32, .xins 0 0 2 5 63),
    (0x30403040#32, .xmk 0 0 3 1), (0x380041CA#32, .xext 0 0 4 7 10), (0x38404080#32, .xfst 0 0 4 2)] :
    List (Word × Instr)), reads p = true := by decide +kernel
theorem test_decode_segments : ∀ p ∈ ([(0xC0805090#32, .ldw 1 0 5 2 16), (0x4000307F#32, .ldb 0 0 3 1 0x3F),
    (0x42404146#32, .stw 0 0 4 5 6), (0x41206100#32, .ldvS 0 0 6 4 0), (0x42C050D8#32, .stvm 0 0 5 3 24),
    (0x41402047#32, .ldvg 0 0 2 1 7), (0x43A00084#32, .acasD 0 0 0 2 4), (0x45009040#32, .sbind 0 0 9 1),
    (0x45409007#32, .slen 0 0 9 7), (0x45A04000#32, .spub 0 0 4)] : List (Word × Instr)), reads p = true := by decide +kernel
theorem test_decode_streams : ∀ p ∈ ([(0x48401940#32, .kldk 0 0 1 37), (0x48400D00#32, .kldk 0 0 0 52)] :
    List (Word × Instr)), reads p = true := by decide +kernel
theorem test_decode_engines : ∀ p ∈ ([(0x50003200#32, .cpyin 0 0 3 8), (0x50801700#32, .cpymc 0 0 1 28),
    (0x50C01180#32, .putr 0 0 1 6), (0x51200240#32, .atcas 0 0 0 9), (0x51600280#32, .spawn 0 0 10)] :
    List (Word × Instr)), reads p = true := by decide +kernel
theorem test_decode_flags : ∀ p ∈ ([(0x58002001#32, .waitf 0 0 2 1), (0x58202FFF#32, .postf 0 0 2 0xFFF),
    (0x58400240#32, .postr 0 0 9), (0x5860F000#32, .finit 0 0 15 0), (0x58800040#32, .waitc 0 0 0 0 4 0),
    (0x58A0600F#32, .frd 0 0 6 15)] : List (Word × Instr)), reads p = true := by decide +kernel
theorem test_decode_array : ∀ p ∈ ([(0x600078FF#32, .mwl 0 0 7 35 63), (0x60404189#32, .mga 0 0 4 6 9),
    (0x60600941#32, .mac 0 0 37 1), (0x60601140#32, .macLatch 0 0 5), (0x6080031A#32, .macZ 0 0 12 26),
    (0x60A03209#32, .mdr 0 0 3 8 1 1), (0x60E00040#32, .mldh 0 0 64), (0x61006002#32, .mset 0 0 6 2),
    (0x61204080#32, .abal 0 0 4 128), (0x63100000#32, .mtrs 0 4), (0xE3200000#32, .mperm 1 0)] :
    List (Word × Instr)), reads p = true := by decide +kernel
theorem test_decode_literals : ∀ p ∈ ([(0x70000012#32, .lit 0 0x12), (0x78000000#32, .pad 0), (0xF8000000#32, .pad 1)] :
    List (Word × Instr)), reads p = true := by decide +kernel
/-- Whether a word is refused. -/
noncomputable def refuses (w : Word) : Bool :=
  match decodeSlot w [] with
  | .ok _ => false
  | .error _ => true

/-- R36, R37, R43: class 13, an opcode that is not assigned, code 29, code 30, a field of PAD, an unused bit. -/
theorem test_decode_refuses : refuses 0x68000000 = true ∧ refuses 0x0FE00000 = true ∧ refuses 0x08003742 = true ∧
    refuses 0x1C80579E = true ∧ refuses 0x78000001 = true ∧ refuses 0x01600001 = true := by decide +kernel
theorem test_encode : encode (.ldw 1 0 5 2 16) = some 0xC0805090#32 ∧ encode (.waitf 0 0 2 1) = some 0x58002001#32 := by decide

/-! ### A small machine -/

/-- A running context at 0x1000 with entries in the scalar queues and in the vector queues named. -/
def ctxOf (qs : List (Nat × List Dword)) (vs : List (Nat × List Vec)) : Ctx :=
  { life := .running, pos := { pc := 0x1000 }
    regs := { sq := qs.foldl (fun q x => wr q x.1 x.2) (Vector.replicate 29 [])
              vq := vs.foldl (fun q x => wr q x.1 x.2) (Vector.replicate 24 []) } }

/-- The bundle in progress of tile 0's primary, its words `ws`. -/
def bundle (ws : List Word) : Issue := { tile := 0, cx := .p, addr := 0x1000, words := ws }

/-- A module with one partition of cluster 0, whose tile 0 executes a bundle of its primary. -/
def running (t : Tile) (x : Part) (i : Issue) : State :=
  { State.reset with tiles := [(0, t)], parts := [(0, { x with clusters := [0] })], stage := .issue, issue := some i }

/-- As `running`, with nothing but a context. -/
def oneSlot (c : Ctx) : State := running { p := c } {} (bundle [0])

def results : Host.Outcome State Fault Refusal → List Res
  | .next s => (s.issue.map (·.out)).getD []
  | _ => []
def payloads (o : Host.Outcome State Fault Refusal) : List (Nat × Payload) := (results o).map fun r => (r.rem, r.pay)
def causes : Host.Outcome State Fault Refusal → List (Nat × Dword)
  | .next s => ((s.issue.map (·.raised)).getD []).map fun r => (r.cause, r.einfo)
  | _ => []
def after (o : Host.Outcome State Fault Refusal) (s : State) : State :=
  match o with
  | .next t => t
  | _ => s
def splat (n : Nat) : Vec := ofLanes fun _ => BitVec.ofNat 32 n
/-- The lanes of the first vector result. -/
def lanesOf (o : Host.Outcome State Fault Refusal) : Nat → Word :=
  match (payloads o).head? with
  | some (_, .vector _ v) => lane v
  | some (_, .row _ v) => lane v
  | some (_, .beat _ _ _ _ v) => lane v
  | _ => fun _ => 0
def statusOf (o : Host.Outcome State Fault Refusal) : Fpst := ((results o).head?.map (·.fp)).getD 0

/-! ### Scalar results -/

/-- s1 and s2 hold the operands. -/
def two (x y : Dword) : State := oneSlot (ctxOf [(1, [x]), (2, [y])] [])

theorem test_add_wraps : payloads (exec (.addSa 0 0 3 1 2) (two (BitVec.allOnes 64) 2)) = [(1, .scalar 3 1)] := by decide +kernel
theorem test_sub_order : payloads (exec (.subSb 0 0 3 1 2) (two 5 7)) = [(1, .scalar 3 0xFFFFFFFFFFFFFFFE)] := by decide +kernel
theorem test_discard : payloads (exec (.addSa 0 0 31 1 2) (two 5 7)) = [] := by decide +kernel
/-- The high half of (-1) * (-1), signed and unsigned. -/
theorem test_mulh : payloads (exec (.mulhSa 0 0 3 1 2) (two (BitVec.allOnes 64) (BitVec.allOnes 64))) = [(3, .scalar 3 0)] ∧
    payloads (exec (.mulhuSa 0 0 3 1 2) (two (BitVec.allOnes 64) (BitVec.allOnes 64))) =
      [(3, .scalar 3 0xFFFFFFFFFFFFFFFE)] := by decide +kernel
/-- R96: -7 by 2 truncates toward zero; a zero divisor. -/
theorem test_div : payloads (exec (.divSa 0 0 3 1 2) (two (-7) 2)) = [(24, .scalar 3 (-3))] ∧
    payloads (exec (.divuSb 0 0 3 1 2) (two 9 0)) = [(24, .scalar 3 0xFFFFFFFFFFFFFFFF)] := by decide +kernel
theorem test_rem : payloads (exec (.remSa 0 0 3 1 2) (two (-7) 2)) = [(24, .scalar 3 (-1))] ∧
    payloads (exec (.remuSb 0 0 3 1 2) (two 9 0)) = [(24, .scalar 3 9)] := by decide +kernel
/-- R95: shift amounts are taken modulo 64. -/
theorem test_shifts : payloads (exec (.shlSa 0 0 3 1 2) (two 3 65)) = [(1, .scalar 3 6)] ∧
    payloads (exec (.sarSa 0 0 3 1 2) (two (-8) 1)) = [(1, .scalar 3 (-4))] := by decide +kernel
theorem test_extend : payloads (exec (.extSa 0 0 3 1 7) (two 0x180 0)) = [(1, .scalar 3 0xFFFFFFFFFFFFFF80)] ∧
    payloads (exec (.extzSa 0 0 3 1 7) (two 0x180 0)) = [(1, .scalar 3 0x80)] := by decide +kernel
theorem test_count : payloads (exec (.clzSa 0 0 3 1) (two 1 0)) = [(1, .scalar 3 63)] ∧
    payloads (exec (.popcSb 0 0 3 1) (two 0xF0 0)) = [(1, .scalar 3 4)] := by decide +kernel
theorem test_andn : payloads (exec (.andnSa 0 0 3 1 2) (two 0xF 0x5)) = [(1, .scalar 3 0xA)] := by decide +kernel
/-- R97: -1 is below 1 as a signed number alone. -/
theorem test_compare : payloads (exec (.cmpLtSa 0 0 9 1 2) (two (-1) 1)) = [(1, .pred 9 true)] ∧
    payloads (exec (.cmpLtuSa 0 0 9 1 2) (two (-1) 1)) = [(1, .pred 9 false)] := by decide +kernel
theorem test_predicates : payloads (exec (.pandnSa 0 0 1 2) (oneSlot { regs := { pred := 3 } })) = [(1, .pred 1 true)] ∧
    payloads (exec (.ptosSa 0 0 3 0) (oneSlot {})) = [(1, .scalar 3 1)] := by decide +kernel
theorem test_schk : payloads (exec (.schkSa 0 0 1 2) (two 5 6)) = [(1, .check 3)] ∧
    payloads (exec (.schkSa 0 0 1 2) (two 5 5)) = [] := by decide +kernel
/-- R63, R42: a literal supplies the upper bits of an immediate. -/
theorem test_literal : payloads (exec (.moviSa 0 0 3 0x064) (running { p := ctxOf [] [] } {}
    (bundle [0x0BA03064, 0x70000001]))) = [(1, .scalar 3 0x1064)] := by decide +kernel

/-! ### Control -/

def targetOf (o : Host.Outcome State Fault Refusal) : Option Dword :=
  match o with
  | .next s => (s.issue.bind (·.target)).map (·.addr)
  | _ => none
theorem test_branch : targetOf (exec (.br 0 0 8) (oneSlot {})) = some 0x1020 ∧
    targetOf (exec (.brNa 0 0 0x3FFF4) (oneSlot {})) = some 0xFD0 := by decide +kernel
/-- R40: window w1 names p1 with sense 0, and p1 is 0: the branch is not taken. -/
theorem test_guard : targetOf (exec (.br 0 1 8) (oneSlot { regs := { win := wr (Vector.replicate 8 (0, false)) 1 (1, false) } })) =
    none := by decide +kernel
theorem test_privileged : causes (exec (.reti 0 0) (oneSlot {})) = [(Cause.priv, 4096)] ∧
    causes (exec (.swr 0 0 31 0x002) (oneSlot {})) = [(Cause.priv, 2)] := by decide +kernel
/-- R324: BRK in user mode stands in the monitor with cause 0x1A. -/
theorem test_brk : let s := after (exec (.brk 0 0 5) (oneSlot (ctxOf [] []))) (oneSlot {})
    (s.ctx 0 .p).frame.cause = 0x1A ∧ (s.ctx 0 .p).frame.einfo = 5 ∧ (s.ctx 0 .p).frame.epc = 0x1000 ∧
    (s.ctx 0 .p).frame.mode = true ∧ (s.ctx 0 .p).frame.ie = false := by decide +kernel
/-- R16 with the queue of the worked example of R52: s6 = [1, 2]; 42 and 3 enter, 9 raises QOVF in slot 1. -/
theorem test_overflow : let r (n slot : Nat) (v : Dword) : Res := { rem := n, slot := slot, pc := 0x120, pay := .scalar 6 v }
    let c := { ctxOf [(6, [1, 2])] [] with inflight := [r 1 0 42, r 1 0 3, r 1 1 9] }
    let d := (after (exec (.resultLanding 0 .p) (oneSlot c)) (oneSlot c)).ctx 0 .p
    d.squeue 6 = [1, 2, 42, 3] ∧ d.frame.cause = 0x103 ∧ d.frame.epc = 0x120 := by decide +kernel

/-! ### Vectors and formats -/

/-- v1 and v2 hold the operands in every lane. -/
def twoV (x y : Nat) : State := oneSlot (ctxOf [] [(1, [splat x]), (2, [splat y])])

/-- 1 + 2^24 is a tie and rounds to 2^24, inexact. -/
theorem test_vadd_tie : lanesOf (exec (.vaddF32Va 0 0 3 1 2) (twoV 0x3F800000 0x4B800000)) 63 = 0x4B800000 ∧
    statusOf (exec (.vaddF32Va 0 0 3 1 2) (twoV 0x3F800000 0x4B800000)) = 16 := by decide +kernel
/-- R128: the worked example of VRSUM. -/
theorem test_vrsum : let v := ofLanes fun n => if n = 0 then 0x3F800000 else if n = 1 then 0x4B800000 else
    if n = 2 then 0x3F800000 else if n = 3 then 0xCB800000 else 0
    lanesOf (exec (.vrsumF32 0 0 6 7) (oneSlot (ctxOf [] [(7, [v])]))) 5 = 0x3F800000 := by decide +kernel
/-- The table of values of the architected procedures. -/
theorem test_procedures : vexp2 0x3F000000 = (0x3FB504F3, 0) ∧ (vexp2 0xBF800000).1 = 0x3F000000 ∧
    (vlog2 0x41000000).1 = 0x40400000 ∧ (vrsq 0x40800000).1 = 0x3F000000 ∧ vrcp 0x80000000 = (0xFF800000, 2) := by
  decide +kernel
/-- R110: E4M3 0x7E is 448, 0x7F a NaN; 449 to E4M3 saturates. -/
theorem test_e4m3 : (Fmt.e4m3.conv Fmt.f32 0x7E).1 = 0x43E00000 ∧ (Fmt.e4m3.conv Fmt.f32 0x7F).1 = 0x7FC00000 ∧
    (Fmt.f32.conv Fmt.e4m3 0x43FA0000).1 = 0x7E := by decide +kernel
theorem test_vcmp : payloads (exec (.vcmpLtF32Va 0 0 3 1 2) (twoV 0x3F800000 0x40000000)) =
    [(2, .mask 3 (BitVec.allOnes 64))] ∧
    payloads (exec (.vcmpLtF32Va 0 0 3 1 2) (twoV 0x7FC00000 0x40000000)) = [(2, .mask 3 0)] := by decide +kernel
/-- VROT by 1 of the lane numbers. -/
theorem test_vrot : let o := exec (.vrotVa 0 0 2 2 1) (oneSlot (ctxOf [] [(2, [ofLanes fun n => BitVec.ofNat 32 n])]))
    lanesOf o 0 = 1 ∧ lanesOf o 63 = 0 := by decide +kernel
/-- 1 * 1 + 2 * 3 + 4 * (-1) + 0 added to 10. -/
theorem test_vdot4 : lanesOf (exec (.vdot4I8Va 0 0 3 1 2) (oneSlot (ctxOf [] [(3, [splat 10]), (1, [splat 0x00040201]),
    (2, [splat 0x00FF0301])]))) 7 = 13 := by decide +kernel
theorem test_vpack : lanesOf (exec (.vpackBfVa 0 0 3 1 2) (twoV 0x3F800000 0x40000000)) 31 = 0x3F803F80 ∧
    lanesOf (exec (.vpackBfVa 0 0 3 1 2) (twoV 0x3F800000 0x40000000)) 32 = 0x40004000 := by decide +kernel
theorem test_xfst : payloads (exec (.xfst 0 0 4 2) (oneSlot { regs := { mask := wr (Vector.replicate 8 0) 2 0x50 } })) =
    [(3, .scalar 4 4)] ∧ payloads (exec (.xfst 0 0 4 3) (oneSlot {})) = [(3, .scalar 4 64)] := by decide +kernel
/-- R147: a first row of scores (1 in lane 0) against an empty state: m = 1, c = 0, d = 1. -/
theorem test_amaxu : let o := exec (.amaxu 0 0 3 1 2) (oneSlot (ctxOf [] [(1, [splat 0x3F800000]), (2, [splat 0xFF800000])]))
    lanesOf o 0 = 0x3F800000 ∧ lanesOf o 1 = 0 ∧ lanesOf o 2 = 0x3F800000 := by decide +kernel

/-! ### Segments -/

/-- Segment 5 with one frame of the given format and bytes, resident on tile 0 and bound at g1. -/
def seg5 (fmt : Nat) (m : Memory) : Seg :=
  { id := 5, len := if fmt = 8 then 34 else 2, fmt := fmt, place := .resident, owned := true, owner := 0, bytes := m }
def withSeg (g : Seg) (c : Ctx) : State :=
  running { p := { c with regs := { c.regs with segmap := wr c.regs.segmap 1 (some 5) } } } { dirSize := 8, dir := [g] } (bundle [0])
def bytesOf (o : Host.Outcome State Fault Refusal) : Memory :=
  match o with
  | .next s => ((s.seg? 0 5).map (·.bytes)).getD []
  | _ => []

theorem test_load_byte : payloads (exec (.ldb 0 0 1 1 1) (withSeg (seg5 0 [(4, 0x7F), (5, 0x80)]) (ctxOf [(1, [4])] []))) =
    [(8, .scalar 28 0xFFFFFFFFFFFFFF80)] := by decide +kernel
theorem test_store_word : bytesOf (exec (.stw 0 0 1 1 2) (withSeg (seg5 0 [(8, 1)]) (ctxOf [(1, [4]), (2, [0x1122003344])] []))) =
    [(4, 0x44), (5, 0x33), (7, 0x22), (8, 1)] := by decide +kernel
theorem test_misaligned : causes (exec (.ldd 0 0 1 1 4) (withSeg (seg5 0 []) (ctxOf [(1, [0])] []))) =
    [(Cause.segb, 0x40201)] := by decide +kernel
theorem test_past_end : causes (exec (.ldd 0 0 1 1 8) (withSeg (seg5 0 []) (ctxOf [(1, [504])] []))) =
    [(Cause.segb, 0x2000101)] := by decide +kernel
theorem test_unbound : causes (exec (.slen 0 0 2 3) (withSeg (seg5 0 []) (ctxOf [] []))) = [(Cause.segu, 0x102)] := by decide +kernel
theorem test_atomic_add : payloads (exec (.aaddW 0 0 1 1 2) (withSeg (seg5 0 [(0, 0xFF), (1, 0xFF), (2, 0xFF), (3, 0xFF)])
    (ctxOf [(1, [0]), (2, [3])] []))) = [(12, .scalar 28 0xFFFFFFFFFFFFFFFF)] ∧
    bytesOf (exec (.aaddW 0 0 1 1 2) (withSeg (seg5 0 [(0, 0xFF), (1, 0xFF), (2, 0xFF), (3, 0xFF)])
      (ctxOf [(1, [0]), (2, [3])] []))) = [(0, 2)] := by decide +kernel
/-- Only lane 1 is selected. -/
theorem test_store_masked : bytesOf (exec (.stvm 0 0 1 1 2) (withSeg (seg5 0 []) (let c := ctxOf [(1, [0])] [(2, [splat 7])]
    { c with regs := { c.regs with sel := 3, mask := wr c.regs.mask 3 2 } }))) = [(4, 7)] := by decide +kernel
/-- R120: the worked N4Q encode under S = 4.0. -/
theorem test_n4q : let v := ofLanes fun n => if n = 0 then 0x40400000 else if n = 1 then 0xBFC00000 else
    if n = 2 then 0x3F400000 else if n = 3 then 0x3EC90000 else 0
    let o := exec (.stv 0 0 1 1 2) (withSeg (seg5 8 [(2, 0x80), (3, 0x40)]) (ctxOf [(1, [0])] [(2, [v])]))
    let m := bytesOf o
    m.read 16 = 0xC0 ∧ m.read 272 = 0x2F ∧ m.read 273 = 0x8A ∧ m.read 274 = 0x77 ∧ m.read 303 = 0x77 ∧
      payloads o = [(1, .status)] ∧ statusOf o = 16 := by decide +kernel
theorem test_sfmt : payloads (exec (.slen 0 0 1 3) (withSeg (seg5 0 []) (ctxOf [] []))) = [(2, .scalar 3 512)] ∧
    payloads (exec (.sfmt 0 0 1 3) (withSeg (seg5 2 []) (ctxOf [] []))) = [(2, .scalar 3 0x500000002)] := by decide +kernel

/-! ### Hypotheses of the statements about slots: a state and operands for each -/

/-- Whether the next slot executes, with its sources at hand. -/
def fits (s : State) (i : Issue) (gd : BitVec 3) (src : List Rd) : Bool :=
  decide (s.issue = some i) && i.remake.isEmpty && !i.annulled && (s.ctx i.tile i.cx).regs.guard gd &&
    match readAll (s.tile i.tile) i.cx src {} with
    | .ok _ => true
    | .error _ => false

theorem fits_executes {s : State} {i : Issue} {gd : BitVec 3} {src : List Rd} (h : fits s i gd src = true) :
    ∃ o, s.Executes i gd src o := by
  simp only [fits, Bool.and_eq_true, decide_eq_true_eq, List.isEmpty_iff, Bool.not_eq_true'] at h
  obtain ⟨⟨⟨⟨h1, h2⟩, h3⟩, h4⟩, h5⟩ := h
  split at h5
  · rename_i o e; exact ⟨o, h1, h2, h3, h4, e⟩
  · cases h5

/-- A context with four entries in s0 to s4 and sld and in v0 to v4, its predicate p1 set and window w1 on it. -/
def fullCtx : Ctx :=
  let c := ctxOf ((List.range 5).map fun k => (k, [1, 2, 3, 4])) ((List.range 5).map fun k => (k, [1, 2, 3, 4]))
  { c with regs := { c.regs with pred := 3, win := wr c.regs.win 1 (1, false), vld := [7], kld := [8] } }
/-- A tile with that context, a row in rq1 and one in the latch. -/
def fullTile : Tile := { p := fullCtx, rq := wr (Vector.replicate 4 []) 1 [9], latch := [10] }
def full : State := running fullTile {} (bundle [0])

/-- Every shape of sources in `l` is met by the state `full`. -/
theorem full_executes {l : List (BitVec 3 × List Rd)} (h : l.all (fun x => fits full (bundle [0]) x.1 x.2) = true) :
    ∀ x ∈ l, ∃ o, full.Executes (bundle [0]) x.1 x.2 o := fun x hx => fits_executes (List.all_eq_true.1 h x hx)

theorem test_hyp_ScalarResults : ∀ x ∈ [((0 : BitVec 3), [srcS 1, srcS 2]), (1, [srcS 31, srcS 33]), (0, [srcS 1]), (1, [])],
    ∃ o, full.Executes (bundle [0]) x.1 x.2 o := full_executes (by decide +kernel)
theorem test_hyp_DivisionResults : ∀ x ∈ [((0 : BitVec 3), [srcS 1, srcS 31]), (0, [srcS 31, srcS 1])],
    ∃ o, full.Executes (bundle [0]) x.1 x.2 o := full_executes (by decide +kernel)
theorem test_hyp_ComparesWritePredicates : ∀ x ∈ [((0 : BitVec 3), [srcS 33, srcB 2]), (0, [srcS 1, srcB 31]), (0, [srcS 1])],
    ∃ o, full.Executes (bundle [0]) x.1 x.2 o := full_executes (by decide +kernel)
theorem test_hyp_PredicateOperations : ∀ x ∈ [((0 : BitVec 3), []), (0, [srcS 1])],
    ∃ o, full.Executes (bundle [0]) x.1 x.2 o := full_executes (by decide +kernel)
theorem test_hyp_ChecksCompareOperands : ∀ x ∈ [((0 : BitVec 3), [srcS 1, srcS 2]), (0, [srcV 1, srcV 2])],
    ∃ o, full.Executes (bundle [0]) x.1 x.2 o := full_executes (by decide +kernel)

/-- The guard of the third clause is false. -/
theorem test_hyp_BranchesForceTargets : (∀ x ∈ [((0 : BitVec 3), []), (0, [srcS 1])], ∃ o, full.Executes (bundle [0]) x.1 x.2 o) ∧
    (let s := oneSlot { regs := { win := wr (Vector.replicate 8 (0, false)) 1 (1, false) } }
    s.issue = some (bundle [0]) ∧ (bundle [0]).remake = [] ∧ (bundle [0]).annulled = false ∧
      (s.regsOf (bundle [0])).guard 1 = false) := ⟨full_executes (by decide +kernel), by decide +kernel⟩
/-- Loop sets for each clause of the loop-end action, at counts 1 and 2: set 1 ends here or not, and set 0. -/
theorem test_hyp_LoopsRunTheirBodies : (∀ x ∈ [((0 : BitVec 3), []), (0, [srcS 1])], ∃ o, full.Executes (bundle [0]) x.1 x.2 o) ∧
    (let l (n : BitVec 32) (le : Dword) : LoopSet := { count := n, ls := 0x10, le := le }
    let here (x : LoopSet) : Prop := x.count ≠ 0 ∧ x.le = 0x40 ∧ x.sup = false
    here (l 2 0x40) ∧ here (l 1 0x40) ∧ ¬ here (l 1 0x44) ∧ ¬ here (l 0 0x40)) :=
  ⟨full_executes (by decide +kernel), by decide +kernel⟩
/-- User and supervisor mode, and the position of BRK. -/
theorem test_hyp_SystemSlotsTakeEffect : (∀ x ∈ [((0 : BitVec 3), [srcS 1]), (0, [])], ∃ o, full.Executes (bundle [0]) x.1 x.2 o) ∧
    (full.ctx 0 .p).frame.mode = false ∧ (full.ctx 0 .p).lane = none ∧ (full.ctx 0 .p).pos.pc = (bundle [0]).addr ∧
    (let s := oneSlot { frame := { mode := true } }
    fits s (bundle [0]) 0 [] = true ∧ (s.ctx 0 .p).frame.mode = true) := ⟨full_executes (by decide +kernel), by decide +kernel⟩
theorem test_hyp_TransfersBetweenFiles : ∀ x ∈ [((0 : BitVec 3), [srcS 1]), (0, [⟨true, 2, true, 1⟩, srcS 1]), (0, [srcV 1]), (0, [])],
    ∃ o, full.Executes (bundle [0]) x.1 x.2 o := full_executes (by decide +kernel)
/-- A plain register, a supervisor register in either mode, an engine register with and without an operation outstanding. -/
theorem test_hyp_WritesOfSystemRegisters : let i (n : BitVec 2) : Issue := { bundle [0] with om := n }
    let s (m : Bool) (n : BitVec 2) := running { p := { fullCtx with frame := { mode := m } } } {} (i n)
    (∀ m n, fits (s m n) (i n) 0 [srcS 1] = true ∧ ((s m n).ctx 0 .p).frame.mode = m) ∧ (i 0).om = 0 ∧ (i 1).om ≠ 0 := by
  decide +kernel
theorem test_hyp_FlagSlots : fits full (bundle [0]) 0 [] = true ∧ full.flagOutside 0 .p 15 = false := by decide +kernel
/-- A wait on flag 15 for 1 with the flag at 1 and at 0; a wait on counters with ol at the bound and beyond it. -/
theorem test_hyp_WaitsAreTestedAgain : let h : SlotRec := { word := 0, lits := [], slot := 0, pc := 0 }
    let f (v : BitVec 32) : State :=
      running { p := { wait := some (.flag 15 1, h) }, flags := wr (Vector.replicate 16 {}) 15 { value := v } } {} (bundle [0])
    let k (n : BitVec 8) : State := oneSlot { wait := some (.counters 2 0 0 0, h), ol := n }
    ((f 1).ctx 0 .p).wait = some (.flag 15 1, h) ∧ (1 : Int) ≤ (((f 1).tile 0).flag 15).value.toInt ∧
    (((f 0).tile 0).flag 15).value.toInt < 1 ∧ ((k 2).ctx 0 .p).wait = some (.counters 2 0 0 0, h) ∧
    ((k 2).ctx 0 .p).ol.toNat ≤ 2 ∧ ¬ ((k 3).ctx 0 .p).ol.toNat ≤ 2 := by decide +kernel

/-- A loop of two lanes of one carry on cluster 0. -/
def loop1 : GLoop :=
  { id := 1, task := 1, cluster := 0, guess := 0x2000, trips := 4, nc := 1, lanes := 2, lgs := 0, handles := [], fbase := 0
    fcnt := 16, n := 2, carries := [5] }
/-- Either mode, with an operation outstanding and without; EQSEL at each queue, the sequence queue holding one operation; no
lane, and a lane of a loop. -/
theorem test_hyp_ReadsOfSystemRegisters : let i (n : BitVec 2) : Issue := { bundle [0] with om := n }
    let q : SeqOp := { id := 8999, cx := .s, op := 0x10, image := [0, 0, 0, 0, 0], report := false, step := 0, segs := [], slot := 0 }
    let s (m : Bool) (e : BitVec 20) (l : Option Lane) (n : BitVec 2) :=
      running { p := { fullCtx with frame := { mode := m }, lane := l }, eqsel := e, seqRun := some q } { loops := [loop1] } (i n)
    let l : Lane := { loop := 1, lane := 0 }
    (∀ x ∈ [(true, (0 : BitVec 20), none, (0 : BitVec 2)), (true, 1, some l, 1), (true, 2, none, 0), (true, 3, none, 0), (false, 0, none, 0)],
      let z := s x.1 x.2.1 x.2.2.1 x.2.2.2
      fits z (i x.2.2.2) 0 [] = true ∧ (z.ctx 0 .p).frame.mode = x.1 ∧ (z.ctx 0 .p).lane = x.2.2.1 ∧
      (fld (z.tile 0).eqsel 0 2).toNat = x.2.1.toNat ∧ (z.loop? (z.partOf 0) 1).isSome) ∧
    q.image.length = 5 ∧ Cx.p.num + 1 = 1 ∧ Cx.s.num + 1 = 2 ∧ (i 0).om = 0 ∧ (i 1).om ≠ 0 := by decide +kernel
theorem test_hyp_CarriesOfLoops : let s (g : Bool) := running { p := { fullCtx with
      lane := some { loop := 1, lane := 0, guess := g } } } { loops := [loop1] } (bundle [0])
    (∃ o, full.Executes (bundle [0]) 0 [] o) ∧ (full.ctx 0 .p).lane = none ∧
    (∀ g, fits (s g) (bundle [0]) 0 [srcS 1] = true ∧ ((s g).ctx 0 .p).lane = some { loop := 1, lane := 0, guess := g } ∧
      (s g).loop? ((s g).partOf 0) 1 = some loop1) ∧ 0 + 1 < loop1.n ∧ 0 < loop1.nc :=
  ⟨fits_executes (by decide +kernel), by decide +kernel, by decide +kernel, by decide, by decide⟩

theorem test_hyp_VectorTwoSourceResults : ∀ x ∈ [((0 : BitVec 3), [srcV 1, srcV 34]), (1, [srcV 28, srcV 31])],
    ∃ o, full.Executes (bundle [0]) x.1 x.2 o := full_executes (by decide +kernel)
theorem test_hyp_FusedFormsAddToTheDestination : ∀ x ∈ [((0 : BitVec 3), [srcV 3, srcV 1, srcV 2]), (0, [srcV 31, srcV 1, srcV 29])],
    ∃ o, full.Executes (bundle [0]) x.1 x.2 o := full_executes (by decide +kernel)
theorem test_hyp_VectorOneSourceResults : ∀ x ∈ [((0 : BitVec 3), [srcV 1]), (0, [srcV 25])],
    ∃ o, full.Executes (bundle [0]) x.1 x.2 o := full_executes (by decide +kernel)
theorem test_hyp_MasksAreWritten : ∀ x ∈ [((0 : BitVec 3), [srcV 1, srcV 31]), (0, [])],
    ∃ o, full.Executes (bundle [0]) x.1 x.2 o := full_executes (by decide +kernel)
theorem test_hyp_LaneMovesAndPacking : ∀ x ∈ [((0 : BitVec 3), [srcV 1, srcV 2]), (0, [srcV 33])],
    ∃ o, full.Executes (bundle [0]) x.1 x.2 o := full_executes (by decide +kernel)
theorem test_hyp_AttentionForms : ∀ x ∈ [((0 : BitVec 3), [srcV 1, srcV 2]), (0, [srcVn 1 2, srcV 2]), (0, [srcV 1, srcVn 2 2])],
    ∃ o, full.Executes (bundle [0]) x.1 x.2 o := full_executes (by decide +kernel)
/-- Minus 1 is exact in each format and the word for it is finite; 33 is not exact in either 8-bit format, 2^40 + 1 in none of
the wide ones, and none of them overflows. -/
theorem test_hyp_RoundingIsToNearest : (∀ f ∈ [Fmt.f32, .f16, .bf16, .e4m3, .e5m2],
      (f.roundFin true 1 0).2 &&& Fs.overflow = 0 ∧ ∃ t j, f.num (f.roundFin true 1 0).1 = .fin true t j) ∧
    (∀ f ∈ [Fmt.f32, .bf16], (f.roundFin true (2 ^ 40 + 1) 0).2 = Fs.inexact) ∧
    (∀ f ∈ [Fmt.e4m3, .e5m2], (f.roundFin true 33 0).2 = Fs.inexact) := by
  refine ⟨?_, by decide +kernel⟩
  simp only [List.mem_cons, List.not_mem_nil, or_false, forall_eq_or_imp, forall_eq]
  exact ⟨⟨by decide +kernel, _, _, rfl⟩, ⟨by decide +kernel, _, _, rfl⟩, ⟨by decide +kernel, _, _, rfl⟩,
    ⟨by decide +kernel, _, _, rfl⟩, by decide +kernel, _, _, rfl⟩

/-! ### Hypotheses of the statements about segments -/

/-- An access to a segment without history, of a tile without pending ranges, is made at its issue. -/
theorem reaches_calm {s : State} {i : Issue} {id : Nat} {g : Seg} (h : s.seg? (s.partOf i.tile) id = some g)
    (h1 : g.place = .resident ∧ g.evict = none) (hf : g.bytes.wf = true) (h2 : (s.tile i.tile).ranges = []) (h3 : g.hist = [])
    (rs : List (Nat × Nat)) : s.Reaches i id g rs :=
  ⟨h, h1, hf, by rw [h2]; simp, by rw [h3]; simp⟩

theorem inView_calm {g : Seg} (h : g.marks = []) (rs : List (Nat × Nat)) (v : Bool) : g.InView rs v := by
  intro m hm; rw [h] at hm; cases hm

/-- Segment 5, bound at g1, is reached by every access of the bundle. -/
theorem withSeg_reaches (fmt : Nat) (m : Memory) (hm : m.wf = true) (c : Ctx) (rs : List (Nat × Nat)) :
    (withSeg (seg5 fmt m) c).Reaches (bundle [0]) 5 (seg5 fmt m) rs ∧ ∀ v, (seg5 fmt m).InView rs v :=
  ⟨reaches_calm rfl ⟨rfl, rfl⟩ hm rfl rfl rs, fun v => inView_calm rfl rs v⟩

/-- `n` aligned bytes at `e` of segment 5 fit into it, with the sources `src` at hand in the context `c`. -/
def touches (fmt : Nat) (c : Ctx) (src : List Rd) (e n al : Nat) : Prop :=
  fits (withSeg (seg5 fmt []) c) (bundle [0]) 0 src = true ∧ (withSeg (seg5 fmt []) c).binding 0 .p 1 = some 5 ∧
    e % al = 0 ∧ e + n ≤ 256 * (seg5 fmt []).len
/-- s1 holds an offset; s2 to s4 and v1, v2 entries. -/
def offCtx (e : Nat) : Ctx := { fullCtx with regs := { fullCtx.regs with sq := wr fullCtx.regs.sq 1 [BitVec.ofNat 64 e] } }

/-- The last bytes of the segment. -/
theorem test_hyp_ScalarLoadsDeliver : ∀ p ∈ [(511, 1), (510, 2), (508, 4), (504, 8)],
    touches 0 (offCtx p.1) [srcS 1] p.1 p.2 p.2 := by unfold touches; decide +kernel
theorem test_hyp_VectorLoadsDeliver : touches 0 (offCtx 252) [srcS 1] 252 256 4 ∧ touches 0 (offCtx 256) [srcS 1] 256 256 256 ∧
    fits (withSeg (seg5 8 []) (offCtx 16320)) (bundle [0]) 0 [srcS 1] = true ∧ 16320 % 64 = 0 ∧
    (n4qAt 16320).2.2 + 32 ≤ 256 * (seg5 8 []).len ∧
    (let c := { offCtx 508 with regs := { (offCtx 508).regs with sel := 3, vq := wr fullCtx.regs.vq 1 [0] } }
    touches 0 c [srcS 1, srcV 1] 508 4 4) := by unfold touches; decide +kernel
theorem test_hyp_StoresWriteTheirBytes : (∀ p ∈ [(511, 1), (510, 2), (508, 4), (504, 8)],
    touches 0 (offCtx p.1) [srcS 1, srcS 2] p.1 p.2 p.2) ∧ touches 0 (offCtx 252) [srcS 1, srcV 2] 252 256 4 ∧
    touches 0 (offCtx 256) [srcS 1, srcV 2] 256 256 256 := by unfold touches; decide +kernel
theorem test_hyp_BlockStoresEncode : fits (withSeg (seg5 8 []) (offCtx 16320)) (bundle [0]) 0 [srcS 1, srcV 2] = true ∧
    16320 % 64 = 0 ∧ (n4qAt 16320).2.2 + 32 ≤ 256 * (seg5 8 []).len := by decide +kernel
/-- No lane selected, and lane 63 alone. -/
theorem test_hyp_StoresWriteTheirBytes_masked : let c (m : Dword) : Ctx :=
      { offCtx 256 with regs := { (offCtx 256).regs with sel := 3, mask := wr fullCtx.regs.mask 3 m, vq := wr fullCtx.regs.vq 2 [0, 0] } }
    ∀ k ∈ [0, 63], let m : Dword := if k = 0 then 0 else 0x8000000000000000
    touches 0 (c m) [srcS 1, srcV 2] (256 + 4 * k) 4 4 ∧ touches 0 (c m) [srcS 1, srcVn 2 2] 256 4 4 ∧
      ((withSeg (seg5 0 []) (c m)).ctx 0 .p).select = m := by
  unfold touches; decide +kernel
theorem test_hyp_AtomicsReadAndWrite : touches 0 (offCtx 508) [srcS 1, srcS 2] 508 4 4 ∧
    touches 0 (offCtx 504) [srcS 1, srcS 2] 504 8 8 ∧ touches 0 (offCtx 504) [srcS 1, srcSn 2 2] 504 8 8 := by
  unfold touches; decide +kernel
/-- Every shape of sources, s1 at `e`, BMODE `m`, every lane selected and lane 1 of v1 and v2 the first one outside: g1 bound to
a segment of format `fmt`, g2 unbound, before the bundle as well. -/
def outside (fmt len e : Nat) (m : Dword) : State :=
  let v : List Vec := [ofLanes fun n => if n = 1 then 0x7FFFFF00 else 0, 0]
  let c := offCtx e
  let d : Regs := { c.regs with sel := 0, me := wr (wr c.regs.me 0 m) 1 1, vq := wr (wr c.regs.vq 1 v) 2 v }
  withSeg { seg5 fmt [] with len := len } { c with regs := d }
theorem test_hyp_AccessesOutsideTheirSegment : ∀ x ∈ [(0, 2, 506, 0), (0, 2, 512, 0), (8, 1, 0, 1), (8, 1, 64, 1), (8, 34, 32, 1),
      (8, 34, 16384, 1), (2, 34, 0, 0)], let s := outside x.1 x.2.1 x.2.2.1 x.2.2.2
    (∀ src ∈ [[srcS 1], [srcS 1, srcS 2], [srcS 1, srcSn 2 2], [srcS 1, srcV 2], [srcS 1, srcVn 2 2]],
      fits s (bundle [0]) 0 src = true) ∧ s.binding 0 .p 2 = none ∧ s.bindingBefore 0 .p 2 = none ∧
    s.binding 0 .p 1 = some 5 ∧ s.bindingBefore 0 .p 1 = some 5 ∧ (s.seg? 0 5).isSome ∧
    (s.ctx 0 .p).select = BitVec.allOnes 64 ∧ (s.regsOf (bundle [0])).bmode.1 = x.2.2.2.toNat := by decide +kernel
/-- Scalar and vector forms: an offset off its alignment, and one whose last byte is outside; a block off 64 bytes, and the causes
WHY 1 and WHY 3 of one; a row that BMODE 0 does not take; lane 1 outside, lane 0 inside. -/
theorem test_hyp_AccessesOutsideTheirSegment_edges : 506 % 8 ≠ 0 ∧ 512 % 8 = 0 ∧ 512 < 512 + 1 ∧ 512 % 256 = 0 ∧ 512 < 512 + 256 ∧
    32 % 64 ≠ 0 ∧ 34 * 256 ≤ (n4qAt 32768).2.1 ∧ (n4qAt 0).2.1 < 256 ∧ 256 < (n4qAt 0).2.2 + 32 ∧
    1 * 256 ≤ (n4qAt (16384 + 64)).2.1 ∧ 2 ≠ 0 ∧ 512 < 0x7FFFFF00 + 4 ∧ 0 + 4 ≤ 512 ∧ 512 < 448 + 4 * 16 + 4 := by decide

/-- The task of tile 0's primary, of launch 1. -/
def task1 : Task :=
  { id := 1, launch := 1, unit := 0, tt := [0x1000, 0, 0, 0], lw := [], tile := 0, cx := .p, tokens := 0, dispatched := 0
    pass := .kernel 0, passes := 2, quota := 8, banks := 8, rqdem := 0, order := 0, bound := true, started := true }
/-- A machine whose tile 0 runs that task with a budget of 64 frames. -/
def tasked (x : Part) (c : Ctx) : State :=
  running { fullTile with p := { c with task := some 1 }, groups := [⟨1, 16, 1⟩] } { x with tasks := [task1] } (bundle [0])
/-- The access `op` through g1, with the sources of the next slot, touches bytes inside the segment. -/
def meets (s : State) (g : Seg) (src : List Rd) (op : Nat) : Bool :=
  fits s (bundle [0]) 0 src && match readAll (s.tile 0) .p src {} with
    | .error _ => false
    | .ok o => match (⟨op, 1, 0, (bundle [0]).slotOf o, o, { lanes := (s.ctx 0 .p).select }⟩ : GOp).touch g with
      | .error _ => false
      | .ok w => !w.all.isEmpty
/-- Every load, store, atomic and gather at the start of a segment that is backed, or that is about to leave. -/
theorem test_hyp_AbsentSegmentsDelayLoads : ∀ g ∈ [{ seg5 0 [] with place := .backed }, { seg5 0 [] with evict := some 1 }],
    let c := { offCtx 0 with regs := { (offCtx 0).regs with segmap := wr fullCtx.regs.segmap 1 (some 5)
                                                            vq := wr (wr fullCtx.regs.vq 1 [0]) 2 [0, 0] } }
    let s := tasked { dir := [g], dirSize := 8 } c
    s.binding 0 .p 1 = some 5 ∧ s.bindingBefore 0 .p 1 = some 5 ∧ s.seg? (s.partOf 0) 5 = some g ∧
    (g.place ≠ .resident ∨ g.evict ≠ none) ∧ g.lost = 0 ∧ (bundle [0]).absent = [] ∧ g.charge ≤ s.budget 0 (s.groupOf 0 .p) ∧
    (∀ op ∈ [0, 1, 2, 3, 4, 5, 6, 8, 9, 64], meets s g [srcS 1] op = true) ∧
    (∀ op ∈ [10, 20, 21, 22, 65], meets s g [srcS 1, srcV 1] op = true) ∧
    (∀ op ∈ [16, 17, 18, 19, 24, 25, 26, 27, 28], meets s g [srcS 1, srcS 2] op = true) ∧
    meets s g [srcS 1, srcSn 2 2] 29 = true ∧ meets s g [srcS 1, srcVn 2 2] 23 = true := by decide +kernel
theorem test_hyp_NamesAndDescriptors : let s := withSeg (seg5 2 []) fullCtx
    fits s (bundle [0]) 0 [] = true ∧ s.binding 0 .p 1 = some 5 ∧ s.seg? (s.partOf 0) 5 = some (seg5 2 []) ∧
    s.binding 0 .p 63 = none := by decide +kernel
/-- s1 holds the word, g2 is free, segment 5 is tile 0's, 6 is tile 1's, 7 nobody's; ids up to `n` are allowed. -/
def binder (w : Dword) (n : Nat) : State :=
  running { p := ctxOf [(1, [w])] [] } { dirSize := n, dir := [seg5 0 [], { seg5 0 [] with id := 6, owner := 1 },
    { seg5 0 [] with id := 7, owned := false }] } (bundle [0])
theorem test_hyp_BindingNames : (∀ x ∈ [((4 : Dword), 1), (5, 1), (6, 1), (7, 1), (0x8000000000000000, 1), (0x8000000100000000, 0),
      (0x8000400000000000, 1), (0x8004800100000000, 1)], fits (binder x.1 x.2) (bundle [0]) 0 [srcS 1] = true ∧
      (binder x.1 x.2).binding 0 .p 2 = none) ∧
    (let s := binder 4 1
    s.seg? (s.partOf 0) 4 = none ∧ (s.seg? (s.partOf 0) 6).map (fun g => (g.owned, g.owner)) = some (true, 1) ∧
    (s.seg? (s.partOf 0) 7).map (·.owned) = some false ∧ (s.seg? (s.partOf 0) 5).map (·.owner) = some 0 ∧
    lowestFree 1 ((s.part (s.partOf 0)).dir.filter (·.valid)) = 1) ∧
    fld (0x8000000000000000#64) 32 15 = 0 ∧ fld (0x8000400000000000#64) 32 15 = 16384 ∧
    fld (0x8000000100000000#64) 32 15 = 1 ∧ (fld (0x8004800100000000#64) 47 4).toNat = 9 := by decide +kernel
/-- A pinned segment, a private one and a shared one with no other name, of this tile and of another. -/
theorem test_hyp_FreeingNames : let s (pins : Nat) (priv : Option Nat) := withSeg { seg5 0 [] with pins := pins, priv := priv } fullCtx
    (∀ x ∈ [(1, none), (0, none), (0, some 1)], ((s x.1 x.2).seg? 0 5).map (·.owner) = some 0 ∧ fits (s x.1 x.2) (bundle [0]) 0 [] = true ∧ (s x.1 x.2).binding 0 .p 1 = some 5) ∧
    ((s 0 (some 1)).named 0 5 = true ∧ (s 0 (some 1)).keptDeferred 0 5 = false) ∧
    (s 1 none).inUse ((s 1 none).partOf 0) 0 5 = true ∧ (s 0 none).inUse ((s 0 none).partOf 0) 0 5 = false ∧
    (s 0 (some 1)).inUse ((s 0 (some 1)).partOf 0) 0 5 = false ∧
    (let z := withSeg { seg5 0 [] with owner := 1 } fullCtx
    fits z (bundle [0]) 0 [] = true ∧ z.binding 0 .p 1 = some 5 ∧ z.inUse (z.partOf 0) 0 5 = false) := by decide +kernel
/-- No shadow; an open one; an engine that writes into it. -/
theorem test_hyp_ShadowsOpenAndPublish : let g (sh : Option Shadow) := { seg5 0 [] with shadow := sh }
    let e : EOp := { id := 9000, tile := 0, cx := .p, op := 1, df := 1, packet := [], asid := 0, stage := 0, slot := 0, seg := 5 }
    (∀ sh ∈ [none, some ({ id := 6, base := 0, lines := [0] } : Shadow)], fits (withSeg (g sh) fullCtx) (bundle [0]) 0 [] = true ∧
      (withSeg (g sh) fullCtx).binding 0 .p 1 = some 5 ∧ (withSeg (g sh) fullCtx).seg? 0 5 = some (g sh) ∧ (g sh).hist = [] ∧ (g sh).bytes.wf = true ∧
      (withSeg (g sh) fullCtx).eops = []) ∧
    (let s : State := { withSeg (g (some { id := 6, base := 0 })) fullCtx with eops := [e] }
    fits s (bundle [0]) 0 [] = true ∧ ∃ e ∈ s.eops, e.tile = 0 ∧ e.op = 1 ∧ e.seg = 5) := by decide +kernel

/-! ### Hypotheses of the statements about the array, the engines and the streams -/

/-- A tile whose active plane has one tag in row 63, the others without one, in mode 0. -/
def tagged (n : Nat) : State := running { fullTile with planes := wr (Vector.replicate 2 []) 0 [(63, { tag := n })] } {} (bundle [0])
/-- Row 63 with the wanted tag 1, and with another. -/
theorem test_hyp_BeatsGiveTreeValues : (∀ src ∈ [[srcS 1, srcV 2], [srcS 1, srcLatch]], ∀ n ∈ [1, 7],
      fits (tagged n) (bundle [0]) 0 src = true) ∧ ((tagged 1).ctx 0 .p).regs.bmode = (0, 0, 0) ∧
    (∀ l ∈ List.range 64, ((tagged 1).tile 0).weightRow 0 l = { tag := if l = 63 then 1 else 0 }) ∧
    (((tagged 7).tile 0).weightRow 0 63).tag ≠ 0 ∧ (((tagged 7).tile 0).weightRow 0 63).tag ≠ 1 ∧
    (∀ l ∈ List.range 63, (((tagged 7).tile 0).weightRow 0 l).tag = 0) := by decide +kernel
/-- One due result of each destination at the ends of its range: a queue with room for one, the latch with room for the rows, a
system register that is neither MEFLAGS nor EQSEL. -/
theorem test_hyp_ResultsLandInTheirRegisters : ∀ y ∈ [Payload.scalar 28 7, .scalar 35 7, .vector 23 7, .vector 29 7, .row 3 7,
      .latch [7], .pred 95 true, .pred 0 true, .mask 7 3, .mask 0 3, .maskBit 7 63 true, .select 7, .window 7 95 true, .weight 1 63 1 [],
      .hadamard 1 64, .me 12 3, .sys 0x13F 5, .sys 0x210 0x1FFFF, .beat 1023 true false 64 0],
    let r : Res := { rem := 1, slot := 0, pc := 0x1000, pay := y }
    let s := running { fullTile with p := { fullCtx with inflight := [r] }, latch := [1, 2, 3, 4, 5, 6, 7] } {} (bundle [0])
    let c := s.ctx 0 .p
    c.inflight = [r] ∧ c.delayed = [] ∧ r.rem ≤ 1 ∧ r.await = none ∧ r.pay.isCheck = false ∧
    (match y.queue with
    | none => true
    | some q => decide (((s.tile 0).putCtx .p { c with inflight := [] }).held .p q.1 q.2 < depth q.1 q.2)) = true ∧
    (match y with
    | .latch rows => decide ((s.tile 0).latch.length + rows.length ≤ 8)
    | .sys n v => decide (n ≠ 0x200 ∧ n ≠ 0x032 ∧ bit v 17 = false)
    | _ => true) = true := by decide +kernel
/-- Every row tagged with order 64; no tag. -/
theorem test_hyp_PlanesAndRotations : let s := running { fullTile with
      planes := wr (Vector.replicate 2 []) 0 ((List.range 64).map fun l => (l, { tag := 0x12 })) } {} (bundle [0])
    (∀ src ∈ [[], [srcS 1]], fits s (bundle [0]) 0 src = true) ∧ (∀ l ∈ List.range 64, ((s.tile 0).weightRow 0 l).tag = 0x12) ∧
    ((full.tile 0).weightRow 0 0).tag < 0x10 := by decide +kernel
theorem test_hyp_DrainsConvertRows : ∀ x ∈ [((0 : BitVec 3), [srcS 1]), (1, [srcS 33])],
    ∃ o, full.Executes (bundle [0]) x.1 x.2 o := full_executes (by decide +kernel)
/-- The worked drain: rows of one tile value 128 and 4032 as FP32, and as INT8, which saturates. -/
theorem test_drain : let r := ofLanes fun n => if n = 0 then 128 else if n = 1 then 4032 else 0
    let c : Ctx := { offCtx 0 with regs := { (offCtx 0).regs with me := wr (Vector.replicate 32 0) 2 1 } }
    let s := running { p := c, acc := [(0, r)] } {} (bundle [0])
    let o := exec (.mdr 0 0 0 1 0 0) s
    let e := exec (.mdr 0 0 0 1 0 5) s
    lanesOf o 0 = 0x43000000 ∧ lanesOf o 1 = 0x457C0000 ∧ statusOf o = 0 ∧ lanesOf e 0 = 0x7F7F ∧ statusOf e = 1 := by
  decide +kernel
/-- The worked beat: sixteen words 0x02020202 against ones and against 0 to 63 give 128 and 4032. -/
theorem test_beat : let ones : WRow := { tag := 1, ws := List.replicate 16 0x01010101 }
    let count : WRow := { tag := 1, ws := (List.range 16).map fun k => BitVec.ofNat 32 (4 * k + (4 * k + 1) * 2 ^ 8 + (4 * k + 2) * 2 ^ 16 + (4 * k + 3) * 2 ^ 24) }
    let s := running { p := ctxOf [(1, [0])] [(1, [splat 0x02020202])], planes := wr (Vector.replicate 2 []) 0 [(0, ones), (1, count)] } {} (bundle [0])
    let o := exec (.macZ 0 0 1 1) s
    lanesOf o 0 = 128 ∧ lanesOf o 1 = 4032 ∧ lanesOf o 2 = 0 := by decide +kernel
/-- Modes 0 and 1, the last row of each segment; a gather that ends at once, and one of a row. -/
theorem test_hyp_ArrayLoadsReadSegments : let c (e : Nat) (m : Dword) (v : Vec) : Ctx :=
      { offCtx e with regs := { (offCtx e).regs with me := wr (Vector.replicate 32 0) 0 m, vq := wr fullCtx.regs.vq 2 [v] } }
    ((c 0 0 0).regs.bmode.1 = 0 ∧ (c 0 1 0).regs.bmode.1 = 1) ∧ touches 0 (c 448 0 0) [srcS 1] 448 64 64 ∧
    fits (withSeg (seg5 8 []) (c 16256 1 0)) (bundle [0]) 0 [srcS 1] = true ∧ 16256 % 64 = 0 ∧
    (n4qAt 16320).2.2 + 32 ≤ 256 * (seg5 8 []).len ∧ (withSeg (seg5 0 []) (c 0 0 0)).bindingBefore 0 .p 1 = some 5 ∧
    touches 0 (c 448 0 (splat 0x80000000)) [srcS 1, srcV 2] 448 64 64 ∧ touches 0 (c 448 0 0) [srcS 1, srcV 2] 448 64 64 ∧
    ((List.range 8).takeWhile fun j => !bit (lane (splat 0x80000000) j) 31).length = 0 ∧
    ((List.range 8).takeWhile fun j => !bit (lane 0 j) 31).length = 8 := by unfold touches; decide +kernel
/-- Eight banks in demand: one of the secondary's, then free; a run held by the context, and one that is not. -/
theorem test_hyp_BanksAreTakenAndFreed :
    let s (b : Vector (Option Cx) 128) : State :=
      (tasked {} (offCtx 0)).modTile 0 fun x => { x with banks := b }
    let none_ : Vector (Option Cx) 128 := Vector.replicate 128 none
    let s1 := s (wr none_ 0 (some .s))
    let s2 := s (wr none_ 0 (some .p))
    fits s1 (bundle [0]) 0 [] = true ∧ fits s2 (bundle [0]) 0 [srcS 1] = true ∧ s1.bankDemand 0 .p = 8 ∧
    (s1.tile 0).bankOf 0 = some .s ∧ (s1.tile 0).bankOf 1 = none ∧ (s2.tile 0).bankOf 0 = some .p ∧
    (s2.tile 0).bankOf 1 = none := by decide +kernel

def isOk {α β : Type} : Except α β → Bool
  | .ok _ => true
  | .error _ => false
/-- Segment 5 behind g0; in the shadow set every operand is of one element, A at offset 0, B at 4, C at 8. Without the name the
checks fail; an operation of the secondary may stand in the run slot. -/
theorem test_hyp_SequenceOperationsAreSubmitted : let c (n : Option (BitVec 32)) : Ctx := { fullCtx with
      regs := { fullCtx.regs with
        segmap := wr fullCtx.regs.segmap 0 n
        meShadow := wr (wr (Vector.replicate 32 0) 9 0x400) 10 0x800 } }
    let s (n : Option (BitVec 32)) (q : Option SeqOp) : State :=
      (tasked { dir := [seg5 0 []] } (c n)).modTile 0 fun x => { x with seqRun := q }
    let q : SeqOp := { id := 8999, cx := .s, op := 0x10, image := [], report := false, step := 0, segs := [], slot := 0 }
    let ok (n : Option (BitVec 32)) (q : Option SeqOp) (op : Nat) : Bool := isOk (((s n q).past (bundle [0]) []).sqCheck 0 .p op
      ((List.range 5).map fun k => rd ((s n q).ctx 0 .p).regs.meShadow (8 + k) 0))
    fits (s (some 5) (some q)) (bundle [0]) 0 [] = true ∧ fits (s none none) (bundle [0]) 0 [] = true ∧
    ((s (some 5) (some q)).tile 0).seqRun = some q ∧
    ∀ op ∈ [0x10, 0x11, 0x12, 0x13, 0x14, 0x15, 0x16, 0x17, 0x18, 0x19],
      ok (some 5) none op = true ∧ ok (some 5) (some q) op = true ∧ ok none none op = false := by decide +kernel

/-- A page of 64 KiB at 0x10000 of address space 0, readable and writable, held by the TLB; segments 5 (behind g1) and 6 of
tile 0. -/
def engines (q : List Dword) (oc : BitVec 6) : State :=
  let sh : Shadow := { id := 100, base := 64 }
  let g : Seg := { seg5 0 [] with shadow := some sh }
  let c : Ctx := { fullCtx with oc := oc, regs := { fullCtx.regs with sq := wr fullCtx.regs.sq 1 q, segmap := wr fullCtx.regs.segmap 1 (some 5) } }
  let s := tasked { lo := 0, len := 2 ^ 20, dir := [g, { seg5 0 [] with id := 6 }] } c
  { s with clusters := [(0, { tlb := [⟨0, 0x10000, 16, 0x1000F⟩] })] }
/-- The segment that a packet's local name stands for before the bundle. -/
def localOf (s : State) (x : Packet) : Option Nat := if x.hasLocal then s.bindingBefore 0 .p x.df else none
/-- For each operation a packet that passes, on the page or between the segments, and one of 32 outstanding; without the name
the checks fail. -/
theorem test_hyp_EngineOperationsAreQueued : (∀ x ∈ [(0, [0, 0x10000, 8]), (1, [0, 0x1FFF8, 8]), (2, [504, 0x10000, 8]),
      (3, [6, 0, 8 * 2 ^ 32]), (4, [6 + 2 ^ 32, 0, 8 * 2 ^ 32]), (5, [6, 0, 8 * 2 ^ 32, 0]), (7, [6, 0, 8 * 2 ^ 32, 0]), (8, [0x10000, 1, 0]),
      (9, [0x10000, 1, 2, 0]), (10, [0x1FFF8, 1, 504]), (11, [6, 384])], let s := engines x.2 0
    fits s (bundle [0]) 0 [srcSn 1 x.2.length] = true ∧ s.eMiss 0 0 ⟨x.1, 1, x.2, none⟩ = false ∧
    isOk ((s.past (bundle [0]) []).eCheck 0 .p ⟨x.1, 1, x.2, none⟩ (localOf (s.past (bundle [0]) []) ⟨x.1, 1, x.2, none⟩)) = true ∧
    (x.1 < 6 → isOk ((s.past (bundle [0]) []).eCheck 0 .p ⟨x.1, 2, x.2, none⟩ (localOf (s.past (bundle [0]) []) ⟨x.1, 2, x.2, none⟩)) = false)) ∧
    (let s := engines [6, 256, 0] 32
    fits s (bundle [0]) 0 [srcRq 1, srcSn 1 3] = true ∧ (s.ctx 0 .p).oc = 32 ∧ (s.ctx 0 .p).lane = none ∧
    isOk ((engines [6, 256, 0] 0).eCheck 0 .p ⟨6, 1, [6, 256, 0], some 9⟩ (some 5)) = true) ∧
    (let s := engines [0x12345678 + 1 * 2 ^ 51] 0
    fits s (bundle [0]) 0 [srcS 1] = true ∧ (s.ctx 0 .p).oc ≠ 32 ∧ bit (0x12345678 + 1 * 2 ^ 51 : Dword) 51 = true) := by
  decide +kernel

/-- The cause of a check that fails, 0 where it passes. -/
def causeOf {α : Type} : Except (Nat × Dword) α → Nat
  | .ok _ => 0
  | .error e => e.1
/-- With an empty TLB: a copy whose page the walk is to find, one past its segment (SEGB), and one without its name (SEGU). -/
theorem test_hyp_EngineOperationsAreQueued_misses : ∀ x ∈ [(1, [(0 : Dword), 0x10000, 8], Cause.xlat), (1, [1024, 0x10000, 8], Cause.segb),
      (2, [0, 0x10000, 8], Cause.segu)],
    let s : State := { engines x.2.1 0 with clusters := [] }
    let y : Packet := ⟨0, x.1, x.2.1, none⟩
    fits s (bundle [0]) 0 [srcSn 1 3] = true ∧ (s.ctx 0 .p).lane = none ∧ s.eops = [] ∧ s.eMiss 0 0 y = true ∧
    causeOf ((s.past (bundle [0]) []).eCheck 0 .p y (localOf (s.past (bundle [0]) []) y)) = x.2.2 := by decide +kernel
/-- A POSTR to another module, CAPS being `k`. -/
def away (k : Dword) : State := { engines [0x8000000000] 0 with caps := k }
/-- LINK at 0 and at 1. -/
theorem test_hyp_EngineOperationsAreQueued_away : fits (away 0) (bundle [0]) 0 [srcS 1] = true ∧ ((away 0).ctx 0 .p).oc ≠ 32 ∧
    fits (away 0x2000000) (bundle [0]) 0 [srcS 1] = true ∧ ((away 0).ctx 0 .p).lane = none ∧
    fld (0x8000000000 : Dword) 39 12 ≠ (away 0).modid ∧ bit (0x8000000000 : Dword) 51 = false ∧ bit (away 0).caps 25 = false ∧
    bit (away 0x2000000).caps 25 = true := by decide +kernel

/-- Table entry 0: tenant 0, generation 0, in use, `len` rows, mark `mark`; its root at 0x2000, a node at 0x4000, its first
two pages at 0x8000 and 0xC000, present. -/
def table (len mark : Byte) : Memory :=
  (if len = 0 then [(3, 1)] else [(3, 1), (4, len)]) ++ (if mark = 0 then [] else [(8, mark)]) ++
    [(17, 0x20), (0x2000, 1), (0x2001, 0x40), (0x4000, 1), (0x4001, 0x80), (0x4008, 1), (0x4009, 0xC0)]
/-- kh0 holds a handle of entry 0 with a bound of 64 positions, s1 the word `w`. -/
def stream (len mark : Byte) (w : Dword) : State :=
  let c : Ctx := { fullCtx with regs := { fullCtx.regs with sq := wr fullCtx.regs.sq 1 [w, w], kh := wr fullCtx.regs.kh 0 (true, 4) } }
  { running { p := c } { lo := 0, len := 2 ^ 20, ktCount := 1 } (bundle [0]) with gddr := table len mark }
/-- kh0 names stream 0. -/
theorem stream_names (len mark : Byte) (w : Dword) (h : bit ((stream len mark w).kWord 0 0 0) 24 = true ∧
    fld ((stream len mark w).kWord 0 0 0) 0 12 = 0 ∧ fld ((stream len mark w).kWord 0 0 0) 12 12 = 0) :
    (stream len mark w).Stream (bundle [0]) 0 4 := 
  ⟨rfl, show (fld (4 : Dword) 20 20).toNat < 1 by decide, h.1, h.2.1.symm, h.2.2.symm⟩
/-- An index outside the table, another tenant, another generation, a handle that passes; a register that is not valid, and
one that is. -/
theorem test_hyp_HandlesAndIntervals : (∀ x ∈ [((0x100000 : Dword), 0), (0x0010000000000000, 0), (0x10000000000, 0), (4, 0)],
      fits (stream 2 0 x.1) (bundle [0]) 0 [srcS 1] = true) ∧ fits (stream 2 0 4) (bundle [0]) 0 [srcSn 1 2] = true ∧
    fits (stream 2 0 4) (bundle [0]) 0 [] = true ∧ (stream 2 0 4).Stream (bundle [0]) 0 4 ∧
    bit ((stream 2 0 4).kWord 0 0 0) 24 = true ∧ ((stream 2 0 4).part 0).ktCount = 1 ∧
    fld (0x0010000000000000#64) 52 12 ≠ 0 ∧ fld (0x10000000000#64) 40 12 ≠ 0 ∧
    (rd (full.ctx 0 .p).regs.kh 0 (false, 0)).1 = false :=
  ⟨by decide +kernel, by decide +kernel, by decide +kernel, stream_names _ _ _ (by decide +kernel), by decide +kernel, rfl,
    by decide, by decide, rfl⟩
/-- Positions 64 at the bound, 2 at the length, 1 below it. -/
theorem test_hyp_RowLoadsWalkThePages : (∀ x ∈ [((64 : Dword), 0), (2, 0), (1, 0)], fits (stream 2 0 x.1) (bundle [0]) 0 [srcS 1] = true) ∧
    (stream 2 0 1).Stream (bundle [0]) 0 4 ∧ (fld (4 : Dword) 0 20).toNat = 4 ∧ (stream 2 0 1).kLen 0 0 = 2 ∧
    ((stream 2 0 1).part 0).appends = [] ∧
    (stream 2 0 1).gddr.dword 0x2000 = 0x4001 ∧ fld ((stream 2 0 1).gddr.dword 0x4000) 0 2 = 1 ∧
    fld ((stream 2 0 1).gddr.dword 0x4008) 0 2 = 1 :=
  ⟨by decide +kernel, stream_names _ _ _ (by decide +kernel), by decide +kernel, by decide +kernel, rfl, by decide +kernel,
    by decide +kernel, by decide +kernel⟩
/-- A stream of 63 rows, and one that is full. -/
theorem test_hyp_AppendsReserveThePosition : fits (stream 63 0 0) (bundle [0]) 0 [srcV 1, srcV 2] = true ∧
    (stream 63 0 0).Stream (bundle [0]) 0 4 ∧ (stream 64 0 0).Stream (bundle [0]) 0 4 ∧ (stream 63 0 0).kLen 0 0 + 1 ≤ 64 ∧
    64 < (stream 64 0 0).kLen 0 0 + 1 ∧ ∀ v, fld ((stream 63 0 0).kPage 0 ((stream 63 0 0).kRoot 0 0) 0 v) 0 2 = 1 :=
  ⟨by decide +kernel, stream_names _ _ _ (by decide +kernel), stream_names _ _ _ (by decide +kernel), by decide +kernel,
    by decide +kernel, by decide +kernel⟩
/-- Length 65 and mark 1: cuts at 0, at 65, and at 64; a stream of that length with
no page. -/
theorem test_hyp_LengthsOfStreams : (∀ x ∈ [((0 : Dword), 0), (65, 0), (64, 0)], fits (stream 65 1 x.1) (bundle [0]) 0 [srcS 1] = true) ∧
    fits (stream 65 1 0) (bundle [0]) 0 [] = true ∧ (stream 65 1 64).Stream (bundle [0]) 0 4 ∧ (stream 65 1 64).kLen 0 0 = 65 ∧
    (fld ((stream 65 1 64).gddr.dword 8) 0 32).toNat = 1 ∧
    (let m : Memory := [(3, 1), (4, 65), (8, 1), (17, 0x20)]
    ({ stream 65 1 64 with gddr := m } : State).kLen 0 0 = 65 ∧
    State.kPagesFrom { stream 65 1 64 with gddr := m.storeNat 4 4 64 } 0 0x2000 1 = []) :=
  ⟨by decide +kernel, by decide +kernel, stream_names _ _ _ (by decide +kernel), by decide +kernel, by decide +kernel,
    by decide +kernel⟩

/-! ### Hypotheses of the statements about steps, traps and events of contexts -/

theorem test_hyp_DecodingInvertsEncoding : wf (.ldw 1 7 63 59 63) = true ∧ (encode (.ldw 1 7 63 59 63)).isSome = true ∧
    wf (.lit 0 0x7FFFFFF) = true ∧ (encode (.lit 0 0x7FFFFFF)).isSome = true := by decide +kernel
/-- A bundle of a slot word and three PADs, in code memory from an address on. -/
def codeAt (m : Memory) (a : Dword) (w : Word) : Memory := m.storeWords a [w, 0x78000000, 0x78000000, 0xF8000000]
/-- A bundle about to begin; a slot in hand; an event that has arrived; a word to be placed. -/
theorem test_hyp_StepsRunTheDecodedInstruction :
    let s : State := { oneSlot (ctxOf [] []) with issue := none, work := [.begin 0 .p {}], code := codeAt [] 0x1000 0x0BA00FFF }
    let i : State := oneSlot (ctxOf [] [])
    let e : State := { State.reset with inputs := [.heartbeat] }
    let h : State := { State.reset with inputs := [.heartbeat], ensign := { hostLink := true } }
    (s.issue = none ∧ s.stage = .issue ∧ s.work = .begin 0 .p {} :: [] ∧ (s.ctx 0 .p).held = [] ∧ (s.ctx 0 .p).faults = [] ∧
      (s.ctx 0 .p).pos.entry = false ∧ (s.ctx 0 .p).pos.annul = 0 ∧ (s.tile 0).stopAt .p 0 (s.code.codeWords 0x1000 4) = none ∧
      isOk (decodeBundle false false (s.code.codeWords (s.ctx 0 .p).pos.pc 8)) = true) ∧
    (i.issue = some (bundle [0]) ∧ (bundle [0]).remake = [] ∧ isOk (decodeSlot 0 []) = true) ∧
    e.issue = none ∧ e.stage = .system ∧ e.inputs = .heartbeat :: [] ∧ overHost .heartbeat = false ∧ h.ensign.hostLink = true := by
  decide +kernel
theorem test_hyp_SlotsWithoutEffect : (encode (.addSa 0 1 3 1 34)).isSome = true ∧ slotClass 0x08043062 ≤ 12 ∧
    slotClass 0x78000000 = 15 ∧ slotClass 0x70000000 = 14 ∧
    (let s := oneSlot { regs := { win := wr (Vector.replicate 8 (0, false)) 1 (1, false) } }
    s.issue = some (bundle [0]) ∧ (s.regsOf (bundle [0])).guard 1 = false) ∧
    (let i : Issue := { bundle [0] with annulled := true }
    i.remake = [] ∧ i.annulled = true) := by decide +kernel
/-- User mode and supervisor mode, the highest cause and slot. -/
theorem test_hyp_TrapsEnterTheMonitor : let c (m : Bool) := (oneSlot { fullCtx with frame := { mode := m } }).ctx 0 .p
    (∀ m, (c m).lane = none ∧ (c m).frame.mode = m ∧ (c m).delayed = [] ∧ (c m).wait = none) ∧ 255 < 256 ∧ 7 < 8 ∧
    255 ≠ Cause.intr := by decide +kernel
/-- A target on each of the two next positions, the first annulled; results in flight. -/
theorem test_hyp_ReturnsResumeTheContext : let c : Ctx := { pos := { pc := 0x1000, t1 := some ⟨0x2000, true⟩, t2 := some ⟨0x3000, true⟩, annul := 1 } }
    let r : Res := { rem := 255, slot := 7, pc := 0, pay := .scalar 3 1 }
    c.pos.t3 = none ∧ c.pos.annul ≤ 2 ∧ c.pos.annul ≤ 1 ∧ c.pos.t1.isSome = true ∧ c.remake = [] ∧ c.wait = none ∧ c.delayed = [] ∧
    c.checks = [] ∧ r.pay.isCheck = false ∧ r.rem < 256 ∧ r.slot < 8 := by decide +kernel
/-- Memories with listed bytes; the slot in hand runs. -/
theorem test_hyp_StepsKeepMemoryCanonical : let s := running { p := ctxOf [] [] } { dir := [seg5 0 [(3, 1)]] } (bundle [0x78000000])
    let s : State := { s with code := [(0, 7), (2, 1)], gddr := [(5, 9)] }
    s.CanonicalMemory ∧ (match step s with
      | .next _ => true
      | _ => false) = true := by
  refine ⟨⟨by decide +kernel, by decide +kernel, by decide +kernel, ?_⟩, by decide +kernel⟩
  intro x hx
  obtain rfl := List.mem_singleton.1 hx
  intro g hg
  obtain rfl := List.mem_singleton.1 hg
  exact ⟨by decide +kernel, by intro h hh; cases hh⟩
/-- A machine on the floor, whose slot in hand runs. -/
theorem test_hyp_StepsKeepTheIlimFloor : let s := running { p := ctxOf [] [], ilim := 256 } {} (bundle [0x78000000])
    s.IlimFloor ∧ (match step s with
      | .next _ => true
      | _ => false) = true := by
  refine ⟨fun t => ?_, by decide +kernel⟩
  by_cases h : t = 0
  · subst h; decide
  · simp [State.tile, running, aget, Ne.symm h]

/-- The bundle of tile 0's primary, its slots done, with what they noted: a state for each clause of `BundlesCommit`, and what
the commit leaves. -/
def done (c : Ctx) (i : Issue) : State := running { fullTile with p := c, evec := 0x40 } { dir := [seg5 0 []], dirSize := 8 } i
def bun : Issue := { bundle [0, 0] with pos := 2 }
def landed (c : Ctx) (i : Issue) : Ctx := (done c i).settle.ctx 0 .p
def cap (n : Nat) : SlotRec := { word := 0, lits := [], slot := n, pc := 0x1000 }
/-- Sets 0 and 1 with the counts given, both ending at this bundle. -/
def looped (n m : BitVec 32) : Ctx := { fullCtx with regs := { fullCtx.regs with
    loops := wr (wr fullCtx.regs.loops 0 { count := n, ls := 0x900, le := 0x1000 }) 1 { count := m, ls := 0xA00, le := 0x1000 } } }
/-- Entries leave their queue, a result takes flight, the position and CYC advance; the next positions move up and a set that the
target at hand leaves is deactivated. -/
theorem test_hyp_BundlesCommit : let r : Res := { rem := 1, slot := 0, pc := 0x1000, pay := .scalar 3 9 }
    let d := landed fullCtx { bun with pops := [(false, 1, 2)], out := [r] }
    let t : Target := ⟨0x2000, true⟩
    let e := landed { looped 1 1 with pos := { pc := 0x1000, t1 := some t, t3 := some t } } { bun with annulNext := true }
    (done fullCtx bun).issue = some bun ∧ bun.remake = [] ∧ 0 < bun.pos ∧ bun.words.length ≤ bun.pos ∧
    d.pos.pc = 0x1008 ∧ d.squeue 1 = [3, 4] ∧ d.inflight.map (·.pay) = [.scalar 3 9] ∧ d.regs.cyc = 1 ∧ d.tick = 2 ∧
    e.pos.pc = 0x2000 ∧ e.pos.entry = true ∧ e.pos.t1 = none ∧ e.pos.t2 = some t ∧ e.pos.annul = 2 ∧
    (rd e.regs.loops 0 {}).count = 0 ∧ (rd e.regs.loops 1 {}).count = 0 := by decide +kernel
/-- The loop-end action at each pair of counts. -/
theorem test_loop_ends : ∀ x ∈ [((0 : BitVec 32), (0 : BitVec 32), (0x1008 : Dword), []), (1, 1, 0x1008, [(35, 0), (32, 0)]),
      (2, 1, 0x900, [(35, 0), (32, 1)]), (1, 0, 0x1008, [(32, 0)]), (2, 0, 0x900, [(32, 1)]), (0, 1, 0x1008, [(35, 0)]),
      (1, 2, 0xA00, [(35, 1)])],
    let d := landed (looped x.1 x.2.1) bun
    d.pos.pc = x.2.2.1 ∧ (d.inflight.filterMap fun r => match r.pay with
      | .sys n v => some (n, v.toNat)
      | _ => none) = x.2.2.2 := by decide +kernel
/-- The lowest slot of two that raise is taken, and both are captured with the result in flight; RETI. -/
theorem test_hyp_BundlesCommit_raised : let r : Res := { rem := 1, slot := 0, pc := 0x1000, pay := .scalar 3 9 }
    let l (n : Nat) : Raised := { cap := cap n, cause := Cause.segb, einfo := BitVec.ofNat 64 n }
    let d := landed { fullCtx with inflight := [r] } { bun with raised := [l 7, l 2], pops := [(false, 1, 2)] }
    let e := landed { fullCtx with pos := { pc := 0x1000, t1 := some ⟨0x2000, true⟩ } } { bun with raised := [l 7] }
    let f := landed { fullCtx with frame := { mode := true, epc := 0x3000 } } { bun with reti := true }
    (fullCtx.frame.mode = false ∧ fullCtx.lane = none ∧ fullCtx.delayed = []) ∧
    (d.frame.cause = 0x206 ∧ d.frame.einfo = 2 ∧ d.frame.epc = 0x1008 ∧ d.frame.mode = true ∧ d.pos.pc = 0x40 ∧ d.inflight = [] ∧
      d.squeue 1 = [3, 4] ∧ (l 7).toEntry ∈ d.replay ∧ (l 2).toEntry ∈ d.replay ∧ r.toEntry ∈ d.replay) ∧
    (e.frame.cause = 0x706 ∧ e.frame.epc = 0x2000) ∧ f.frame.mode = false ∧ f.pos.pc = 0x3000 := by decide +kernel
/-- END with empty queues, with a bank held, and with an entry in s4. -/
theorem test_hyp_BundlesCommit_end : let i : Issue := { bun with endWord := some (5, cap 7) }
    let s (b : Bool) (q : List Dword) : State := (done (ctxOf [(4, q)] []) i).modTile 0 fun x => { x with
      banks := if b then wr x.banks 0 (some .p) else x.banks }
    let d (b : Bool) (q : List Dword) : Ctx := (s b q).settle.ctx 0 .p
    ((s false []).tile 0).banksHeld .p = 0 ∧ ((s true []).tile 0).banksHeld .p = 1 ∧ (d false []).life = .ended 5 ∧
    (d true []).frame.cause = 0x712 ∧ (d true []).frame.einfo = 1 ∧ (d false [9]).frame.cause = 0x713 ∧
    (d false [9]).frame.einfo = 4 := by decide +kernel
/-- A wait on a flag of 5, and on counters at 1; a TRAP; delayed accesses with and without a request. -/
theorem test_hyp_BundlesCommit_waits : let w (k : Nat) : Issue := { bun with wait := some (.flag 15 k, cap 0) }
    let f (k : Nat) : State := (done fullCtx (w k)).modTile 0 fun x => { x with flags := wr x.flags 15 { value := 5 } }
    let c (k : Nat) : Ctx := landed { fullCtx with ol := 1 } { bun with wait := some (.counters k 0 0 0, cap 0) }
    let t := landed fullCtx { bun with trap := some (7, 9) }
    let y (l : List Nat) : Issue := { bun with absent := l, delayed := [{ cap := cap 1, why := if l = [] then .range else .absent 0, id := 7, stops := true }] }
    ((f 5).settle.tile 0).flag 15 = { value := 0 } ∧ ((f 5).settle.ctx 0 .p).wait = none ∧
    ((f 6).settle.tile 0).flag 15 = { value := 5 } ∧ ((f 6).settle.ctx 0 .p).wait = some (.flag 15 6, cap 0) ∧
    (c 1).wait = none ∧ (c 0).wait = some (.counters 0 0 0 0, cap 0) ∧
    t.faults.map (fun g => (g.cause, g.slot, g.einfo)) = [(Cause.trap, 7, 9)] ∧
    (landed fullCtx (y [])).delayed = (y []).delayed ∧ (done fullCtx (y [5])).settle.parts.length = 1 ∧
    (landed fullCtx (y [5])).delayed.map (·.why) = ((((done fullCtx (y [5])).settle.cluster 0).reqs.map fun q => Obstacle.absent q.id)) := by
  decide +kernel
/-- KCOMMIT with nothing held and a result in flight, and with vectors in their queues. -/
theorem test_hyp_BundlesCommit_commit : let i : Issue := { bun with commit := true }
    let r : Res := { rem := 1, slot := 0, pc := 0x1000, pay := .scalar 3 9 }
    let c : Ctx := { ctxOf [(3, [1])] [] with inflight := [r] }
    let s := (done c i).settle
    let u := (done fullCtx i).settle
    (s.tile 0).commits .p = true ∧ (s.ctx 0 .p).phase.snap.map (fun z => (z.regs.sq.toList.length, z.pos.pc, z.inflight)) = some (29, 0x1008, [r]) ∧
    (u.tile 0).commits .p = false ∧ u.ensign.log = [(0, 0x357, 0)] ∧ (u.ctx 0 .p).phase.snap = none := by decide +kernel
/-- R52, R16: what is in flight; a queue with room and one that is full. -/
theorem test_hyp_ContextEvents_landing : let r (n : Nat) : Res := { rem := n, slot := 0, pc := 0x120, pay := .scalar 6 9 }
    let c (n : Nat) (q : List Dword) : Ctx := (oneSlot { ctxOf [(6, q)] [] with inflight := [r n] }).ctx 0 .p
    (∀ x ∈ (c 2 []).inflight, 1 < x.rem) ∧ (c 2 []).delayed = [] ∧ (c 1 []).inflight = [r 1] ∧ (r 1).await = none ∧
    ((c 1 [1, 2, 3]).squeue 6).length < depth false 6 ∧ depth false 6 ≤ ((c 1 [1, 2, 3, 4]).squeue 6).length ∧
    (c 1 []).frame.mode = false ∧ (c 1 []).lane = none := by decide +kernel
/-- A running context at 0x1000 and another at `a`. -/
def pair (a : Dword) (w : List Nat) (l : Life) : State :=
  let code := codeAt (codeAt (codeAt [] 0x1000 0x0BA00FFF) 0x2000 0x13A84064) 0x3000 0x0BA00FFF
  let t : Tile := { p := { life := .running, pos := { pc := 0x1000 } }, s := { life := l, pos := { pc := a } }, window := w, ilim := 256 }
  { State.reset with tiles := [(0, t)], code := code, ensign := { coreOn := true } }
/-- What the primary does, the secondary after its landings, and the two bids as the choice makes them. -/
def turns (s : State) : Turn × Turn := (s.turn 0 (s.tile 0) .p, s.turn 0 ((s.tile 0).land .p).tile .s)
/-- The bids that the choice makes of two ready contexts: the primary's alone and as both issue, the secondary's as both issue,
with the primary's pops alone, and with its own landings alone. -/
def bids (s : State) : Bid × Bid × Bid × Bid × Bid :=
  let x := s.tile 0
  let one := (x.land .p).tile
  let two := (one.land .s).tile
  let e1 := (two.popSlots .p ((one.nextSlots s.code .p).drop (x.ctx .p).remake.length)).bid s.code .s
  (one.bid s.code .p, two.bid s.code .p, (two.popShared s.code .p).bid s.code .s, e1, (x.land .s).tile.bid s.code .s)
/-- The secondary idle, in the primary's class, or in another; the window at 0 and at 255, of a limit of 256; an interrupt. -/
theorem test_hyp_ContextEvents_selection : (∀ w ∈ [[0], [255]], (pair 0x3000 w .running).stage = .system ∧
      ((pair 0x3000 w .running).tile 0).seqRun = none ∧
      turns (pair 0x2000 w .idle) = (.ready, .idle) ∧ turns (pair 0x2000 w .running) = (.ready, .ready) ∧
      turns (pair 0x3000 w .running) = (.ready, .ready) ∧
      (pair 0x2000 w .idle).turn 0 ((pair 0x2000 w .idle).tile 0) .s = .idle ∧
      (pair 0x2000 w .running).turn 0 ((pair 0x2000 w .running).tile 0) .s = .ready ∧
      (pair 0x3000 w .running).turn 0 ((pair 0x3000 w .running).tile 0) .s = .ready) ∧
    (let (b1, b, e, e1, e0) := bids (pair 0x2000 [0] .running)
    b.meets e = false ∧ b1.meets e1 = false ∧ ∀ x ∈ [b1, b, e, e1, e0], x.weight = 2) ∧
    (let (b1, b, e, e1, _) := bids (pair 0x3000 [0] .running)
    b.meets e = true ∧ b1.meets e1 = true) ∧ ((pair 0x2000 [255] .running).tile 0).windowSum = 255 ∧
    (let s := (pair 0x2000 [0] .idle).modCtx 0 .p fun c => { c with irq := { swout := true }, frame := { ie := true } }
    s.turn 0 (s.tile 0) .p = .traps (.interrupt 0 .p) true ∧ s.turn 0 (s.tile 0) .s = .idle ∧
      s.turn 0 ((s.tile 0).land .p).tile .s = .idle) := by decide +kernel
/-- A store due and one that is not; an interrupt pending or not; two faults in order; a pass that ends, one whose counters
stand. -/
theorem test_hyp_ContextEvents_events : let s (c : Ctx) : State := { tasked {} c with now := 5 }
    let f (n : Nat) : OpFault := { order := n, cause := Cause.race, slot := 7, einfo := 1 }
    let e : Ctx := { ctxOf [] [] with life := .ended 3 }
    ((s { stores := [(5, 1)] }).ctx 0 .p).stores = (5, 1) :: [] ∧ 5 ≤ (s {}).now ∧ (s {}).now < 6 ∧
    (let c := (s { ctxOf [] [] with irq := { swout := true } }).ctx 0 .p
    c.irq.any = true ∧ c.frame.ie = true ∧ c.life = .running) ∧ ((s {}).ctx 0 .p).irq.any = false ∧
    (∀ g ∈ [f 2, f 3], g = f 2 ∨ (f 2).order < g.order) ∧
    ((s e).ctx 0 .p).life = .ended 3 ∧ ((s e).ctx 0 .p).phase.rolling = false ∧
    ((s { e with phase := { rolling := true } }).ctx 0 .p).phase.rolling = true ∧ ((s e).ctx 0 .p).delayed = [] ∧ ((s e).ctx 0 .p).frame.mode = false ∧ ((s e).ctx 0 .p).os = 0 ∧ bit (3 : Dword) 63 = false ∧
    ((s e).ctx 0 .p).task.bind ((s e).task? ((s e).partOf 0)) = some task1 ∧ task1.span = 1 ∧ isLoop task1.lw = false ∧
    task1.pass = .kernel 0 ∧ 0 + 1 < task1.passes ∧ task1.mark = 0 ∧ wd task1.tt 2 = 0 ∧
    ((s { oc := 1 }).ctx 0 .p).oc ≠ 0 := by decide +kernel
/-- A load whose request is gone, of a segment that is there, and of one whose backing does not answer; a context in a phase with
and without a snapshot, with and without a granted operation. -/
theorem test_hyp_ContextEvents_later : let h (w : Word) : SlotRec := { word := w, lits := [], slot := 0, pc := 0 }
    let d (w : Word) : Delayed := { cap := h w, why := .absent 77, id := 78, stops := true, org := { seg := 5 } }
    let s (w : Word) (l : Nat) : State := withSeg { seg5 0 [] with lost := l, place := if l = 0 then .resident else .backed } { ctxOf [] [] with delayed := [d w] }
    let x : Snapshot := { regs := {}, pos := {}, frame := {}, inflight := [], log := none }
    let r (q : Option Snapshot) (u : Bool) : State := tasked {} { ctxOf [] [] with phase := { snap := q, unrepairable := u } }
    let c (q : Option Snapshot) (u : Bool) : Ctx := (r q u).ctx 0 .p
    let o : EOp := { id := 9000, tile := 0, cx := .p, op := 1, df := 1, packet := [], asid := 0, stage := 2, slot := 0, seg := 5 }
    ((s 0x40C01040 0).ctx 0 .p).delayed = [d 0x40C01040] ∧ (s 0x40C01040 0).delayedReady 0 .p (d 0x40C01040) = true ∧
    slotClass 0x40C01040 ≠ 9 ∧ (s 0x40C01040 0).unserviced 0 5 = 0 ∧ (s 0x40C01040 2).unserviced 0 5 = 1 + 1 ∧
    (s 0x40C01040 2).delayedReady 0 .p (d 0x40C01040) = true ∧
    (s 0x48401940 0).delayedReady 0 .p (d 0x48401940) = true ∧ slotClass 0x48401940 = 9 ∧
    (c none false).task.isSome = true ∧ (c none false).life = .running ∧ (c none false).lane = none ∧ (c (some x) false).phase.snap = some x ∧
    (c (some x) true).phase.unrepairable = true ∧ (c (some x) false).phase.failures + 1 < 3 ∧ (c (some x) false).phase.rolling = false ∧
    ((r (some x) false).tile 0).seqRun = none ∧ (r (some x) false).eops = [] ∧
    (let u : State := { r (some x) false with eops := [o] }
    o ∈ u.eops ∧ (∀ y ∈ u.eops, y.id = o.id → y = o) ∧ o.tile = 0 ∧ o.cx = .p ∧ o.orphan = false ∧ o.stage = 2 ∧ o.op < 12) := by
  decide +kernel

/-! ### Hypotheses of the statements about registers and engines -/

def eop (op stage : Nat) (w : List Dword) : EOp :=
  { id := 9000, tile := 0, cx := .p, op := op, df := 1, packet := w, asid := 0, stage := stage, slot := 0, seg := 5 }
/-- A machine with one operation, at core cycle 5, its page in the TLB. -/
def eng (o : EOp) : State := { engines [] 1 with eops := [o], now := 5, issue := none }

/-- STOP set; a running operation of the context; replay entries 95 and 96; descriptor and word 1 selected. -/
theorem test_hyp_RegisterEvents_context : let q : SeqOp := { id := 8999, cx := .p, op := 0x10, image := [], report := false, step := 0, segs := [], slot := 0 }
    let s (f : BitVec 2) (sel : BitVec 18) : State := (tasked {} { regs := { meflags := f }, rbsel := sel }).modTile 0 fun x => { x with seqRun := some q }
    bit ((s 0 0).ctx 0 .p).regs.meflags 1 = false ∧ bit ((s 2 0).ctx 0 .p).regs.meflags 1 = true ∧ ((s 2 0).tile 0).seqRun = some q ∧
    q.cx = .p ∧ q.stop = false ∧ (fld ((s 0 95).ctx 0 .p).rbsel 0 7).toNat < 96 ∧ 96 ≤ (fld ((s 0 96).ctx 0 .p).rbsel 0 7).toNat ∧
    (fld (95 : BitVec 18) 8 9).toNat = 0 ∧ (fld (0x1005F : BitVec 18) 8 9).toNat = 255 + 1 := by decide +kernel
/-- The primary's queue: an entry that is not there, one that has been granted, one that has not; the rest of EQSEL. -/
theorem test_hyp_RegisterEvents_remove : let s (sel : BitVec 20) (o : EOp) : State := (eng o).modTile 0 fun x => { x with eqsel := sel }
    (fld ((s 1 (eop 0 0 [])).tile 0).eqsel 0 2).toNat = 1 ∧ (fld ((s 0x101 (eop 0 0 [])).tile 0).eqsel 8 5).toNat = 1 ∧
    ((s 0x101 (eop 0 0 [])).eQueue 0 .p)[1]? = none ∧ ((s 1 (eop 0 2 [])).eQueue 0 .p)[0]? = some (eop 0 2 []) ∧
    2 ≤ (eop 0 2 []).stage ∧ ((s 1 (eop 0 1 [])).eQueue 0 .p)[0]? = some (eop 0 1 []) ∧ (eop 0 1 []).stage < 2 ∧ (eop 0 1 []).op ≠ 6 ∧
    (fld (2 : BitVec 20) 0 2).toNat = 2 ∧ (fld (3 : BitVec 20) 0 2).toNat = 3 := by decide +kernel
/-- The sequence queue: an entry that is not there, one with the array, one that has not; the operation's own number alone. -/
theorem test_hyp_RegisterEvents_removeSequence : let q (g : Option Nat) : SeqOp := { id := 8999, cx := .p, op := 0x10, image := [], report := false, step := 0, segs := [], slot := 0, grant := g }
    let s (sel : BitVec 20) (g : Option Nat) : State := (tasked {} {}).modTile 0 fun x => { x with eqsel := sel, seqRun := some (q g) }
    let l (s : State) : List SeqOp := (s.tile 0).seqRun.toList ++ (s.tile 0).seqWait.toList
    (fld ((s 0x100 none).tile 0).eqsel 0 2).toNat = 0 ∧ (fld ((s 0x100 none).tile 0).eqsel 8 5).toNat = 1 ∧ (l (s 0x100 none))[1]? = none ∧
    (l (s 0 (some 3)))[0]? = some (q (some 3)) ∧ (q (some 3)).grant.isSome = true ∧ (l (s 0 none))[0]? = some (q none) ∧
    (q none).grant = none ∧ (q none).stop = false ∧ ∀ y ∈ l (s 0 none), y.id = 8999 → y = q none := by decide +kernel
/-- A staged entry with word 0 `w0`, then 6, 0 and 8 * 2^32. -/
def staged (w0 : Dword) : State := (engines [] 0).modTile 0 fun x => { x with
  staging := wr (wr (wr (Vector.replicate 8 0) 0 w0) 1 6) 3 0x800000000 }
/-- The staged CPYSG passes, one of another name fails; opcodes 6, 12, 15, 26 and the sequence operations 16 and 25. -/
theorem test_hyp_RegisterEvents_submit :
    let st := staged
    let op (w0 : Dword) : Nat := (fld (rd ((st w0).tile 0).staging 0 0) 0 6).toNat
    let pk (w0 : Dword) : Packet := ⟨op w0, (fld w0 6 6).toNat, ((List.range 7).map fun k => rd ((st w0).tile 0).staging (k + 1) 0).take (packetWords (op w0)), none⟩
    op 0x43 = 3 ∧ isOk ((st 0x43).eCheck 0 .p (pk 0x43) (if (pk 0x43).hasLocal then (st 0x43).binding 0 .p (pk 0x43).df else none)) = true ∧ isOk ((st 0x83).eCheck 0 .p (pk 0x83) (if (pk 0x83).hasLocal then (st 0x83).binding 0 .p (pk 0x83).df else none)) = false ∧
    op 6 = 6 ∧ op 12 = 12 ∧ op 15 = 15 ∧ op 26 = 26 ∧ op 16 = 16 ∧ op 25 = 25 ∧
    ((st 0x43).ctx 0 .p).lane = none ∧
    isOk ((st 16).sqCheck 0 .p 16 (((List.range 7).map fun k => rd ((st 16).tile 0).staging (k + 1) 0).take 5)) = false := by decide +kernel
/-- The staged image of one element for each operand passes. -/
theorem test_hyp_RegisterEvents_submitSequence :
    let c : Ctx := { fullCtx with regs := { fullCtx.regs with segmap := wr fullCtx.regs.segmap 0 (some 5) } }
    let s := (tasked { dir := [seg5 0 []] } c).modTile 0 fun x => { x with
      staging := wr (wr (wr (Vector.replicate 8 0) 0 25) 2 0x400) 3 0x800 }
    isOk (s.sqCheck 0 .p 25 (((List.range 7).map fun k => rd (s.tile 0).staging (k + 1) 0).take 5)) = true ∧
    (fld (rd (s.tile 0).staging 0 0) 0 6).toNat = 25 ∧ (s.tile 0).seqRun = none := by decide +kernel

/-- A copy-out that reads, a copy-in that has its bytes, one that completes with and without a race, one that awaits its
locks; none of these before its time. -/
theorem test_hyp_EngineEvents_operations : let at6 (o : EOp) : EOp := { o with next := 6 }
    let rd_ := eop 2 2 [0, 0x10000, 8]
    let ld := { eop 0 2 [0, 0x10000, 8] with data := List.replicate 8 1 }
    let cm := eop 0 3 [0, 0x10000, 8]
    let lk := { eop 0 1 [0, 0x10000, 8] with pages := [(0x10000, 16, 0x1000F)] }
    (eng rd_).eop? 9000 = some rd_ ∧ (eng rd_).canRead rd_ = true ∧ (eng (at6 rd_)).canRead (at6 rd_) = false ∧
    ((eng rd_).seg? ((eng rd_).partOf 0) 5).map (·.owner) = some 0 ∧ (eng ld).canLand ld = true ∧
    (eng (at6 ld)).canLand (at6 ld) = false ∧ ld.landed < ld.pkt.len ∧
    (let u := (eng ld).modPart 0 fun x => { x with dir := [{ seg5 0 [] with place := .backed }] }
    u.canLand ld = true ∧ (u.seg? 0 5).map (fun g => (g.place, g.live)) = some (.backed, none)) ∧ (eng cm).canComplete cm = true ∧
    (eng (at6 cm)).canComplete (at6 cm) = false ∧ cm.stage = 3 ∧ cm.orphan = false ∧ cm.sega = none ∧
    ((eng cm).ctx 0 .p).life = .running ∧ ((eng cm).ctx 0 .p).lane = none ∧ (eng lk).canAcquire lk = true ∧ (eng rd_).canAcquire rd_ = false := by decide +kernel
/-- A signal of the flag's generation and one of another. -/
theorem test_hyp_EngineEvents_signal : let g (n : BitVec 8) : Signal := { tile := 0, part := 0, flag := 15, gen := n, delta := 1, clock := [], op := 1, due := 5 }
    let s (n : BitVec 8) : State := { eng (eop 0 0 []) with signals := [g n] }
    (s 0).signals = g 0 :: [] ∧ (g 0).due ≤ (s 0).now ∧ (s 0).eop? 1 = none ∧ 0 < (fld (s 0).caps 0 16).toNat ∧ (s 0).partOf 0 = 0 ∧
    (((s 0).tile 0).flag 15).gen = (g 0).gen ∧ (((s 1).tile 0).flag 15).gen ≠ (g 1).gen := by decide +kernel
/-- A request for a resident segment, made in an earlier core cycle or in this one; of a core access and of an engine. -/
theorem test_hyp_EngineEvents_request : let q (k m : Nat) : Req := { id := 70, ticket := 0, tile := 0, cx := .p, kind := k, op := 9000, members := [5], made := m }
    let s (k m : Nat) : State := { eng (eop 0 0 [0, 0x10000, 8]) with clusters := [(0, { reqs := [q k m] })] }
    (s 0 4).req? 70 = some (q 0 4) ∧ (s 0 4).grantable (q 0 4) = true ∧ (s 0 5).grantable (q 0 5) = false ∧
    (s 2 4).grantable (q 2 4) = true ∧ (q 2 4).members.Nodup ∧ (s 0 4).unserviced ((s 0 4).partOf 0) 5 = 0 ∧
    (s 2 4).eop? 9000 = some (eop 0 0 [0, 0x10000, 8]) := by decide +kernel
/-- A segment to be pushed to backing; moves of every kind due and not yet. -/
theorem test_hyp_EngineEvents_move : let s (p : Place) (ev : Option Nat) (m : Option Move) : State :=
      ({ tasked { dir := [{ seg5 0 [] with place := p, evict := ev }] } {} with now := 5 } : State).modTile 0 fun x => { x with move := m }
    let m (k : MoveKind) (d : Nat) : Move := { seg := 5, kind := k, base := 0, due := d, was := .backed }
    (s .resident (some 0) none).moveChoice 0 = some (5, .back, 0) ∧ (s .resident none none).moveChoice 0 = none ∧
    ((s .resident none none).tile 0).move = none ∧ (∀ k ∈ [MoveKind.recall, .lateral 1, .back, .compact],
      ((s .moving none (some (m k 5))).tile 0).move = some (m k 5) ∧ (m k 5).due ≤ (s .moving none none).now ∧
      (s .moving none none).now < (m k 6).due) ∧ ((s .moving none none).seg? 0 5).isSome = true ∧
    (s .moving none none).admits 0 (((s .moving none none).part 0).backAddr (seg5 0 [])) 512 = false ∧
    (let u : State := (s .moving none none).modPart 0 fun x => { x with lo := 0, len := 2 ^ 20 }
    u.admits 0 ((u.part 0).backAddr (seg5 0 [])) 512 = true) ∧ (seg5 0 []).bad = false ∧ (seg5 0 []).live = none ∧
    (let g : Seg := { seg5 0 [] with bad := true }
    g.zero = false ∧ (m .recall 5).was = .backed) := by decide +kernel
/-- A sequence operation stopped before its grant; one that is not. -/
theorem test_hyp_EngineEvents_sequence : let q (b : Bool) : SeqOp := { id := 8999, cx := .p, op := 0x10, image := [], report := false, step := 0, segs := [], slot := 0, stop := b }
    let s (b : Bool) : State := (tasked {} {}).modTile 0 fun x => { x with seqRun := some (q b) }
    ((s true).tile 0).seqRun = some (q true) ∧ (s true).seqDue 0 (q true) = true ∧ (s false).seqDue 0 (q false) = false ∧
    (q true).orphan = false ∧ (q true).grant = none := by decide +kernel
/-- A walk that ends now, after which the checks pass, or fail for want of the name. -/
theorem test_hyp_EngineEvents_walk : let h : SlotRec := { word := 0x50001040, lits := [], slot := 7, pc := 0, ops := [0, 0x10000, 8] }
    let d (n : Nat) : Delayed := { cap := h, why := .walk, id := 78, stops := true, due := 5, org := { seg := n } }
    let s (n : Nat) : State := (eng (eop 0 0 [])).modCtx 0 .p fun c => { c with delayed := [d n] }
    let v (n : Nat) : State := ((s n).modCtx 0 .p fun c => { c with delayed := [] }).fillTlb 0 0 0 (rangePages h.packet.va h.packet.len)
    (∀ n ∈ [0, 5], ((s n).ctx 0 .p).delayed = [d n] ∧ (d n).why = .walk ∧ (d n).due ≤ (s n).now ∧ (d n).cap.slot < 8 ∧
      ((s n).ctx 0 .p).asid = 0 ∧ isOk ((v n).eWalked 0 .p (d n)) = (n == 5)) ∧
    ((s 0).ctx 0 .p).life = .running ∧ ((s 0).ctx 0 .p).lane = none ∧ ((s 0).ctx 0 .p).frame.mode = false ∧
    (match (v 0).eWalked 0 .p (d 0) with
    | .ok _ => 256
    | .error e => e.1) < 256 := by decide +kernel
/-- An append whose pages are there, due and not; a fetch of a spilled page with a free frame; a remote page that nobody waits
for, and one that a load of a context waits for. -/
theorem test_hyp_EngineEvents_streams : let a (d : Nat) : Append := { id := 80, tile := 0, cx := .p, stream := 0, pos := 1, key := 1, value := 2, due := d, root := 0x2000 }
    let s (d : Nat) : State := State.modPart { stream 2 0 0 with now := 5 } 0 fun x => { x with appends := [a d] }
    let f (w : Dword) (d : Nat) : Fetch := { id := 81, stream := 0, pageNo := 1, value := true, word := w, due := d, root := 0x2000 }
    let t (w : Dword) (d : Nat) : State := State.modPart { stream 2 0 0 with now := 5 } 0 fun x => { x with fetches := [f w d], poolFree := [0x10000] }
    let h : SlotRec := { word := 0x48401940, lits := [], slot := 3, pc := 0x1000, ops := [70] }
    let l : Delayed := { cap := h, why := .page 0 1 true, id := 79, stops := true, org := { fetch := 81, root := 0x2000 } }
    ((s 5).parts.findSome? fun x => (x.2.appends.find? fun y => y.id == 80).map fun y => (x.1, y)) = some (0, a 5) ∧
    (a 5).due ≤ (s 5).now ∧ (s 6).now < (a 6).due ∧ (s 5).kHere 0 0x2000 1 false = true ∧ (s 5).kHere 0 0x2000 1 true = true ∧
    ((t 2 5).parts.findSome? fun x => (x.2.fetches.find? fun y => y.id == 81).map fun y => (x.1, y)) = some (0, f 2 5) ∧
    (f 2 5).due ≤ (t 2 5).now ∧ (t 2 5).now < (f 2 6).due ∧ fld (f 2 5).word 0 2 = 2 ∧ ((t 2 5).part 0).returning = [] ∧
    ((t 2 5).part 0).poolFree = 0x10000 :: [] ∧ (t 2 5).kSlot 0 0x2000 1 true = some 0x4018 ∧ (t 2 5).kWaiting 0 81 = [] ∧
    (let z : Fetch := { f 0 5 with freed := true }
    let u : State := State.modPart { stream 2 0 0 with now := 5 } 0 fun x => { x with fetches := [z] }
    (u.parts.findSome? fun x => (x.2.fetches.find? fun y => y.id == 81).map fun y => (x.1, y)) = some (0, z) ∧ z.due ≤ u.now ∧
      fld z.word 0 2 = 0) ∧ (f 2 5).freed = false ∧ (t 2 5).admits 0 0x10000 16384 = true ∧ (t 2 5).admits 0 0x4018 8 = true ∧
    fld (f 3 5).word 0 2 = 3 ∧ (t 3 5).kWaiting 0 81 = [] ∧
    (let u := (t 3 5).modCtx 0 .p fun c => { c with delayed := [l] }
    u.kWaiting 0 81 = [(0, .p, l)] ∧ slotOp l.cap.word ≠ 4 ∧ (u.ctx 0 .p).life = .running ∧ (u.ctx 0 .p).frame.mode = false ∧
      (u.ctx 0 .p).lane = none) := by decide +kernel

/-! ### Hypotheses of the statements about the driver, the dispatch complex and the controller -/

/-- Page tables at 0: address space 0, its root at 0x1000, the leaf of page 0x10000 at 0x4008, of frame 0x20000; a task type of
entry point 0x1000 at 0x400; launch records at 0x800 and 0x880 of one unit, the second with `k` in bytes 3 and 4 of word 0. -/
def tables (k : List (Nat × Byte)) : Memory :=
  [(0, 1), (1, 0x10), (0x401, 0x10), (0x820, 1)] ++ k ++ [(0x8A0, 1), (0x1000, 1), (0x1001, 0x20), (0x2000, 1), (0x2001, 0x30),
    (0x3000, 1), (0x3001, 0x40), (0x4008, 0xF), (0x400A, 2)]
def driven (x : Part) : State :=
  { running {} { x with lo := 0, len := 2 ^ 20, ascnt := 1, ttbl := 0x400, ttcnt := 1 } (bundle [0]) with
    gddr := tables [(0x883, 0x80), (0x884, 1)], issue := none, now := 5, ensign := { coreOn := true } }

/-- A partition that is there, and one that is not. -/
theorem test_hyp_ControlWindow_absent : ((driven {}).parts.any fun x => x.1 == 0) = true ∧ ((driven {}).parts.any fun x => x.1 == 9) = false := by
  decide +kernel
/-- A ring that is on, off, and off with a base, a count and a tail that pass and that do not. -/
theorem test_hyp_ControlWindow_rings : let r (n t : BitVec 16) (e : Bool) : State := driven { rings := wr (Vector.replicate 64 {}) 63 { en := e, nrec := n, tail := t } }
    let g (n t : BitVec 16) (e : Bool) : Ring := rd ((r n t e).part 0).rings 63 {}
    (g 2 1 true).en = true ∧ (g 2 1 false).en = false ∧ bit (0x801 : Dword) 0 = true ∧ bit (0x800 : Dword) 0 = false ∧
    (g 0 0 false).nrec = 0 ∧ (g 2 2 false).nrec.toNat ≤ (g 2 2 false).tail.toNat ∧
    ¬ ((g 2 1 false).nrec = 0 ∨ (g 2 1 false).nrec.toNat ≤ (g 2 1 false).tail.toNat ∨ (0x801 : Dword).toNat / 128 * 128 < 0 ∨
      0 + 2 ^ 20 < (0x801 : Dword).toNat / 128 * 128 + 128 * (g 2 1 false).nrec.toNat) := by decide +kernel
/-- An invalidation idle, waiting for an operation, and over. -/
theorem test_hyp_ControlWindow_tlbinv : let s (w : Option (List Nat)) (o : List EOp) : State := { driven { tlbWait := w } with eops := o }
    ((s none []).part 0).tlbWait = none ∧ ((s (some []) []).part 0).tlbWait.isSome = true ∧ (s (some []) []).tlbinvDone 0 = true ∧
    (s (some [9000]) [eop 0 2 []]).tlbinvDone 0 = false := by decide +kernel
/-- A page to be moved from 0x20000 to 0x30000, to outside the partition, of a page without a leaf; its copy; its switch. -/
theorem test_hyp_ControlWindow_migration : let s (src dst : Dword) (n : Nat) : State := driven { mig := { src := src, dst := dst, phase := n } }
    let m (n : Nat) : Migration := { src := 0x10000, dst := 0x30000, phase := n, leaf := 0x2000F, size := 16, entry := 0x4008, asid := 0, va := 0x10000, target := 0x30000 }
    let g (n : Nat) : State := driven { mig := m n }
    let held : State := { g 2 with clusters := [(0, { locks := [⟨0, 0x10000, 16, 0x2000F, [9000]⟩] })] }
    let late : State := { g 3 with eops := [{ eop 0 1 [] with pages := [(0x10000, 16, 0x2000F)] }] }
    let ok (s : State) : Bool := isOk (s.walk 0 0 ((s.part 0).mig.src.toNat % 2 ^ 57 / 65536 * 65536))
    ((s 0x10000 0x30000 0).part 0).mig.phase = 0 ∧ ok (s 0x10000 0x30000 0) = true ∧ ok (s 0x20000 0x30000 0) = false ∧
    0x30000 % 2 ^ 16 = 0 ∧ 0x30000 + 2 ^ 16 ≤ 2 ^ 20 ∧ 2 ^ 20 < 0x100000 + 2 ^ 16 ∧ ((g 1).part 0).mig.phase = 1 ∧
    (g 1).admits 0 (Leaf.mk 0x2000F 16).addr (2 ^ 16) = true ∧ (g 1).admits 0 0x30000 (2 ^ 16) = true ∧ ((g 2).part 0).mig.phase = 2 ∧
    (g 2).migLocks 0 = false ∧ held.migLocks 0 = true ∧ ((g 2).part 0).mig.dirty = [] ∧ (g 2).admits 0 0x4008 8 = true ∧
    ((g 3).part 0).mig.phase = 3 ∧ (g 3).migWaiting 0 = false ∧ late.migWaiting 0 = true ∧
    leafAt ((g 2).partWord 0) 0x10000 3 (((g 2).rootOf 0 0).getD 0) = 0x4008 := by
  decide +kernel
/-- The last bytes of BAR2 and the first beyond it; a tile of the partition and one that is not. -/
theorem test_hyp_ControlWindow_host : ((driven {}).part 0).len = 2 ^ 20 ∧ 2 ^ 20 - 1 + [(1 : Byte)].length ≤ 2 ^ 20 ∧
    2 ^ 20 < 2 ^ 20 + [(1 : Byte)].length ∧ 2 ^ 20 - 8 + 8 ≤ 2 ^ 20 ∧ 2 ^ 20 < 2 ^ 20 + 1 ∧ 7 ∈ (driven {}).tilesOf 0 ∧ 8 ∉ (driven {}).tilesOf 0 ∧
    (let x := (driven { dir := [seg5 0 []], dirSize := 8 }).part 0
    (x.dir.find? fun y => y.id == 5) = some (seg5 0 []) ∧ (seg5 0 []).valid = true ∧ (seg5 0 []).owned = true ∧ (seg5 0 []).place ≠ .backed) := by decide +kernel
/-- A watchdog before its time, at its first expiry, at its second with each action. -/
theorem test_hyp_ControlWindow_watchdog : let s (w : Watchdog) : State := driven { wd := w }
    (((s { running := true, due := 1 }).ptime.toNat < ((s { running := true, due := 1 }).part 0).wd.due)) ∧
    (((s { running := true }).part 0).wd.running = true ∧ ((s { running := true }).part 0).wd.second = false ∧
      ((s { running := true }).part 0).wd.due ≤ (s { running := true }).ptime.toNat) ∧
    (∀ a ∈ [0, 1, 2], ((s { running := true, second := true, action := a }).part 0).wd.second = true ∧
      ((s { running := true, second := true, action := a }).part 0).wd.action = a) ∧ ((s {}).part 0).dropping = false := by decide +kernel

/-- A ring with a record of each kind at its head: plain, time-triggered; a table without the type. -/
def ringed (h : BitVec 16) (n : Nat) : State :=
  let r : Ring := { en := true, base := 0x800, nrec := 2, head := h, tail := 1 - h }
  (driven { rings := wr (Vector.replicate 64 {}) 0 r, ttres := wr (Vector.replicate 4 0) 0 (if h = 0 then 0 else 1) }).modPart 0 fun x => { x with ttcnt := n }
theorem test_hyp_DispatchEvents_record : let ws (h : BitVec 16) : List Dword := (ringed h 1).gddr.dwords (0x800 + 128 * h.toNat) 16
    (match (ringed 0 1).takeTurn 0 with
    | some q => q.1
    | none => 99) = 0 ∧ (ringed 0 1).taking 0 = true ∧ (driven {}).takeTurn 0 = none ∧
    isOk ((ringed 0 1).recordCheck 0 (ws 0)) = true ∧ bit (wd (ws 0) 0) 31 = false ∧ isOk ((ringed 0 0).recordCheck 0 (ws 0)) = false ∧
    bit (wd (ws 0) 0) 33 = false ∧ isOk ((ringed 1 1).recordCheck 0 (ws 1)) = true ∧ bit (wd (ws 1) 0) 31 = true := by decide +kernel
def launch0 (w0 : Dword) : Launch := { id := 1, words := [w0, 0, 0, 0, 1, 0, 0, 0, 0, 0, 0, 0, 0, 0, 0, 0], asid := 0, left := 1 }
def block0 : Block := { launch := 1, unit := 0, count := 1, tt := [0x1000, 0, 0, 0, 0, 0, 0, 0], lw := [], tokens := 254, since := 0, order := 0 }
/-- A waiting block that is placed; one held until its time that is placed, and one for which no tile is left. -/
theorem test_hyp_DispatchEvents_blocks : let s (b h : List Block) (f : Bool) (w : Dword) : State := driven { blocks := b, held := h, frozen := f, launches := [launch0 w], ttres := wr (Vector.replicate 4 0) 0 (if w = 0 then 0 else 1) }
    ((s [block0] [] false 0).part 0).blocks = [block0] ∧ block0.reps = 1 ∧ (((s [block0] [] false 0).modPart 0 fun x => { x with blocks := [] }).blockSpots 0 block0 []).isSome = true ∧
    ((s [] [] false 0).part 0).blocks = [] ∧ ((s [block0] [] true 0).part 0).frozen = true ∧
    (let u := s [] [block0] false 0x180000000
    (u.part 0).held.find? (u.timely 0) = some block0 ∧ u.launch? 0 block0.launch = some (launch0 0x180000000) ∧ u.ensign.update = .none ∧
      bit (wd (launch0 0x180000000).words 0) 32 = true ∧ bit (wd (launch0 0x80000000).words 0) 32 = false ∧
      u.ptime.toNat ≤ (wd (launch0 0x180000000).words 3).toNat ∧ (wd (launch0 0x180000000).words 3).toNat < ({ u with ptime := 1 } : State).ptime.toNat ∧
      (({ u with ptime := 1 } : State).part 0).held.find? (({ u with ptime := 1 } : State).timely 0) = some block0 ∧
      (let v := u.modPart 0 fun x => { x with held := [] }; (v.planAll 0 (launch0 0x180000000).words (v.blockWant 0 block0) true).isSome = true)) ∧
    (let u := State.modPart (s [] [block0] false 0x180000000) 0 fun x => { x with clusters := [] }
    (let v := u.modPart 0 fun x => { x with held := [] }; (v.planAll 0 (launch0 0x180000000).words (v.blockWant 0 block0) true).isNone = true)) := by decide +kernel
/-- A task before its names are bound, before its segments are there, before its time, at its time, and started. -/
theorem test_hyp_DispatchEvents_tasks : let k (b : Bool) (r : Option Nat) (l : List Nat) : Task := { task1 with bound := b, ready := r, recalls := l, started := false }
    let s (b : Bool) (r : Option Nat) (l : List Nat) : State := driven { tasks := [k b r l], dir := [{ seg5 0 [] with place := .moving }] }
    ((s false none []).parts.findSome? fun x => (x.2.tasks.find? fun y => y.id == 1).map fun y => (x.1, y)) = some (0, k false none []) ∧
    (s false none []).task? 0 1 = some (k false none []) ∧ (s false none []).template 0 task1.tt = [] ∧
    (s true none []).recalled 0 (k true none []) = true ∧ (s true none [5]).recalled 0 (k true none [5]) = false ∧
    (s true (some 6) []).now < 6 ∧ 5 ≤ (s true (some 5) []).now ∧ task1.notBefore ≤ (s true (some 5) []).ptime.toNat ∧
    isLoop task1.lw = false ∧ wd task1.tt 1 = 0 ∧ 0 < task1.passes ∧ task1.started = true ∧
    ((s true none []).part 0).suspended = false ∧
    (let u := (s true none []).modPart 0 fun x => { x with suspended := true }
    u.task? 0 1 = some (k true none []) ∧ (u.part 0).suspended = true ∧ (k true none []).started = false) := by decide +kernel
/-- A directory with room for every image, and one without; a task marked for checkpoint whose context starts, or runs; one that is not marked. -/
theorem test_hyp_DispatchEvents_checkpoint : let s (m : Nat) (l : Life) : State := (tasked {} { life := l }).modPart 0 fun x => { x with tasks := [{ task1 with mark := m }] }
    (∀ m ∈ [1, 2], ((s m .starting).ctx 0 .p).task.bind ((s m .starting).task? ((s m .starting).partOf 0)) = some { task1 with mark := m }) ∧
    ((s 2 .starting).ctx 0 .p).life = .starting ∧ ((s 2 .running).ctx 0 .p).life ≠ .starting ∧ task1.loop = none ∧
    (let u (n : Nat) : State := (s 2 .starting).modPart 0 fun x => { x with dirSize := n }
    ((u 1).saveSegment 0 0 (((u 1).tile 0).banksHeld .p)).isSome = true ∧ ((u 0).saveSegment 0 0 (((u 0).tile 0).banksHeld .p)).isNone = true ∧
      (((u 1).part 0).dir.filter (·.valid)).length + ((u 1).part 0).tasks.length ≤ ((u 1).part 0).dirSize) ∧
    task1.asked = 0 ∧ task1.tile = 0 ∧ task1.cx = .p ∧ task1.started = true ∧ ((s 0 .running).ctx 0 .p).life = .running := by decide +kernel
/-- A loop in each phase: two lanes with a guess routine, one lane, a round whose lanes are over, with all and with none
accepted. -/
theorem test_hyp_DispatchEvents_rounds : let g (p : RoundPhase) (l n : Nat) : GLoop := { loop1 with phase := p, lanes := l, n := n, words := [(1, 7)] }
    let s (p : RoundPhase) (l n : Nat) : State := tasked { loops := [g p l n] } {}
    (∀ p ∈ [RoundPhase.size, .guess, .seal, .run, .settle, .wait], (s p 2 2).loopOf 1 = some (0, g p 2 2) ∧ (s p 2 2).loop? 0 1 = some (g p 2 2) ∧
      (s p 2 2).task? 0 1 = some task1 ∧ (g p 2 2).fault = none) ∧ task1.mark = 0 ∧ (s .size 2 2).loopFault (g .size 2 2) = none ∧
    min 2 (loop1.trips - loop1.base) = 2 ∧ min 1 (loop1.trips - loop1.base) = 1 ∧ loop1.guess ≠ 0 ∧
    (s .seal 2 2).loopOf 1 = some (0, g .seal 2 2) ∧
    (let r : State := State.modCtx (s .run 2 2) 0 .p fun c => { c with life := .idle }
    (∀ j ∈ [0, 1], r.laneOver (g .run 2 2) j = true) ∧ r.accepted (g .run 2 2) = 1 + 1 ∧ r.accepted (g .run 2 0) = 0 ∧
      (g .run 2 2).words.find? (fun y => y.1 == 1) = some (1, 7)) := by decide +kernel
/-- A module that replaces rows with room and without; one that drops channels: none yet, one that is being dropped with the contexts
there and gone, and another one meanwhile. -/
theorem test_hyp_DispatchEvents_channels : let s (d : Bool) (n : Nat) (l : List Nat) (k : List Task) : State :=
      { running {} { len := 2 ^ 31 + 2 ^ 30, dropping := !l.isEmpty, drops := l, tasks := k } (bundle [0]) with
        ensign := { repairDrop := d, rows := List.replicate n 0 } }
    (s false 255 [] []).ensign.rows.length < 256 ∧ 256 ≤ (s false 256 [] []).ensign.rows.length ∧ (s false 255 [] []).ensign.repairDrop = false ∧
    ((s false 255 [] []).part 0).dropping = false ∧ (s true 0 [] [task1]).ensign.repairDrop = true ∧
    2 ^ 30 < ((s true 0 [] [task1]).part 0).len ∧ ((s true 0 [] [task1]).part 0).drops = [] ∧
    ((s true 0 [] [task1]).part 0).dropping = false ∧ (∀ k ∈ [[], [task1]], ((s true 0 [3] k).part 0).dropping = true ∧
      ((s true 0 [3] k).part 0).drops.head? = some 3 ∧ 2 ^ 30 * (((s true 0 [3] k).part 0).drops.length + 1) < ((s true 0 [3] k).part 0).len ∧
      ((s true 0 [3] k).part 0).tasks = k) ∧ some 3 ≠ some 4 ∧
    ((s true 0 [] []).modPart 0 fun x => { x with len := 2 ^ 30 }).parts.all (fun x => decide (x.2.len ≤ 2 ^ 30 * (x.2.drops.length + 1))) = true := by
  decide +kernel

/-- A part with links and one without; its port trained with room and with 1,024 flits kept, and not trained; a flit kept between
others. -/
theorem test_hyp_ControllerEvents_links : let f (k : Nat) : BitVec 12 × List Byte := (BitVec.ofNat 12 k, [])
    let p (n : Nat) : Port := { replay := List.replicate n (0, []) }
    let s (n : Nat) : State := { State.reset with ports := wr (Vector.replicate 8 {}) 7 (p n) }
    bit (s 0).caps 25 = true ∧ bit ({ State.reset with caps := 0 } : State).caps 25 = false ∧ (rd (s 1023).ports 7 {}).trained = true ∧
    (rd (s 1023).ports 7 {}).replay.length < 1024 ∧
    (rd (s 1023).ports 7 {}).waiting = [] ∧ ({ trained := false } : Port).trained = false ∧ ({ waiting := [[1]] } : Port).waiting = [1] :: [] ∧
    1024 ≤ (rd (s 1024).ports 7 {}).replay.length ∧ [f 1, f 2, f 3] = [f 1] ++ f 2 :: [f 3] ∧ (∀ x ∈ [f 1], x.1 ≠ (f 2).1) ∧
    (2 : BitVec 12) ≠ 3 := by decide +kernel
/-- A flit that passes its CRC, in order; one of a wrong length. -/
theorem test_hyp_ControllerEvents_flits : flitOk (flit 5 []) = true ∧ flitOk [] = false ∧ ({ nextRecv := 5 } : Port).nextRecv = 5 := by
  refine ⟨?_, by decide +kernel, rfl⟩
  simp [flitOk, flit, natBytes]
/-- Slots with and without an image that runs; a boot that fails at each step, and one whose images all run, before the rails are
on and after; updates that have and have not begun. -/
theorem test_hyp_ControllerEvents_images : let i (v : Nat) : Image := { version := v, valid := true }
    let runs (e : Ensign) (i : Image) : Prop := i.valid = true ∧ e.rollback ≤ i.version
    let e (on : Bool) (l : List Nat) : Ensign := { slotA := i 3, rollback := 3, monitorImg := i 4, sched := i 3, coreOn := on, stepFails := l }
    (∀ on, (e on []).booted = false ∧ (e on []).failed = false ∧ (e on []).coreOn = on ∧ runs (e on []) (e on []).slotA ∧
      ¬ runs (e on []) (e on []).slotB ∧ runs (e on []) (e on []).monitorImg ∧ runs (e on []) (e on []).sched ∧
      ∀ n ∈ [1, 4, 6], (e on []).stepFails.contains n = false ∧ (e on [n]).stepFails.contains n = true) ∧
    ¬ runs {} ({} : Image) ∧ ¬ runs { rollback := 4 } (i 3) ∧ (i 2).version ≤ (i 3).version ∧ ({ booted := true } : Ensign).booted = true ∧
    ({} : Ensign).update = .none ∧ ({ update := .started 0 } : Ensign).update = .started 0 ∧ ({} : Ensign).ptpState ≠ 2 ∧
    State.reset.ptime.toNat ≤ 0 + 2000000000 ∧ 0 + 2000000000 < (2000000001#64).toNat := by decide +kernel
/-- The tests of a returning supply running, at their end, and over; a part of 1024 tiles, and one of 1025; room for a row; a segment
that is there. -/
theorem test_hyp_ControllerEvents_power : let s (on : Bool) (n : Option Nat) : State :=
      { State.reset with now := 5, ensign := { booted := true, coreOn := on, testing := n } }
    (s false none).ensign.coreOn = false ∧ (s true none).ensign.testing = none ∧ (s true (some 6)).ensign.testing = some 6 ∧
    (s true (some 6)).now < 6 ∧ 5 ≤ (s true (some 5)).now ∧
    (fld ({ State.reset with caps := 1024 } : State).caps 0 16).toNat = 1024 ∧
    (fld ({ State.reset with caps := 1025 } : State).caps 0 16).toNat = 1025 ∧ 2000 ≤ 2000 ∧ 1999 < 2000 ∧ 5500 ≤ 5500 ∧ 5500 < 5501 ∧
    5501 ≤ 10000 ∧ 10000 < 10001 ∧ (s true none).ensign.rows.length < 256 ∧ ((driven { dir := [seg5 0 []] }).seg? 0 5) = some (seg5 0 []) := by
  decide +kernel
/-- R373: a flit that finds 1,024 unacknowledged waits; an acknowledgement lets it out. -/
theorem test_flit_waits : let p : Port := { replay := (List.range 1024).map fun k => (BitVec.ofNat 12 k, []), nextSend := 1024 }
    (p.queue [[7]]).waiting = [[7]] ∧ (p.queue [[7]]).nextSend = 1024 ∧ ((p.queue [[7]]).ack 1).pump.waiting = [] ∧
    ((p.queue [[7]]).ack 1).pump.nextSend = 1025 := by decide +kernel
/-- R375: an access over the host port before the boot has no effect; after it the access takes its own. -/
theorem test_host_port_down :
    let s (b : Bool) : State := { State.reset with ensign := { State.reset.ensign with booted := b } }
    (s false).deaf (.wdkick 0) = true ∧ (s true).deaf (.wdkick 0) = false ∧ (s false).deaf .boot = false := by decide +kernel
/-- R358: NEXTPC at 0x008 of the phase area, and a logged copy-in's slot word and packet words from 0xC80 on. -/
theorem test_phase_area : let x : Snapshot := { regs := {}, pos := { pc := 0x40 }, frame := {}, inflight := [], log := some [{ word := 5, packet := [1, 2, 3] }] }
    (⟨8, 8, 0x40⟩ ∈ x.area .p ∧ ⟨0xC80, 8, 5⟩ ∈ x.area .p ∧ ⟨0xC98, 8, 3⟩ ∈ x.area .p) := by decide +kernel
end Sys2Proof.Tests
end

