-- ==== Sys2Proof/Proofs/BundleEnd.lean ====
section
/-! PROOFS. The end of a bundle (R8, R15, R27, R76, R77, R84, R88, R91, R102, R105, R323, R324, R357): its pops queue by queue,
its loop-end action, the commit cut into stages, what each stage leaves of tile and context, and the obligation that says what the
commit does. -/

namespace Sys2Proof.Machine

/-! ### Register files and queues -/

theorem rd_wr {α : Type} {n : Nat} (v : Vector α n) (i j : Nat) (x d : α) :
    rd (wr v i x) j d = if i = j ∧ i < n then x else rd v j d := by
  by_cases hj : j < n
  · by_cases hi : i = j
    · subst hi; simp [rd, wr, hj]
    · simp [rd, wr, hj, hi]
  · have : ¬ (i = j ∧ i < n) := by omega
    simp [rd, hj, this]

/-- Dropping from an entry of a register file of queues drops from that entry alone. -/
theorem rd_wr_drop {α : Type} {m : Nat} (v : Vector (List α) m) (i j n : Nat) :
    rd (wr v i ((rd v i []).drop n)) j [] = (rd v j []).drop (if i = j then n else 0) := by
  rw [rd_wr]
  by_cases hi : i = j
  · subst hi
    by_cases hm : i < m
    · simp [hm]
    · simp [rd, hm]
  · simp [hi]

/-- The queues that a context itself holds. -/
structure CtxQueues where
  sq : Vector (List Dword) 29
  vq : Vector (List Vec) 24
  vld : List Vec
  kld : List Vec
  sup : Vector (List Dword) 4

/-- The context with other queues. -/
def Ctx.setQueues (c : Ctx) (q : CtxQueues) : Ctx :=
  { c with regs := { c.regs with sq := q.sq, vq := q.vq, vld := q.vld, kld := q.kld }, sup := q.sup }

/-- The queues of the context. -/
def Ctx.queues (c : Ctx) : CtxQueues := ⟨c.regs.sq, c.regs.vq, c.regs.vld, c.regs.kld, c.sup⟩

theorem squeue_congr {c d : Ctx} (h : d.queues = c.queues) (k : Nat) : d.squeue k = c.squeue k := by
  obtain ⟨hs, -, -, -, hu⟩ := CtxQueues.mk.inj h
  simp only [Ctx.squeue, hs, hu]

/-- A queue's removal of entries leaves every other scalar queue (R15). -/
theorem squeue_putSqueue_drop (c : Ctx) (a n k : Nat) :
    (c.putSqueue a ((c.squeue a).drop n)).squeue k = (c.squeue k).drop (if a = k then n else 0) := by
  unfold Ctx.putSqueue Ctx.squeue
  by_cases ha : a < 32
  · by_cases hk : k < 32
    · simp only [ha, hk, if_true, rd_wr_drop]
    · have : a ≠ k := by omega
      simp [ha, hk, this]
  · by_cases hk : k < 32
    · have : a ≠ k := by omega
      simp [ha, hk, this]
    · have : a - 32 = k - 32 ↔ a = k := by omega
      simp only [ha, hk, if_false, rd_wr_drop, this]

/-- A change of the context that leaves its queues leaves every vector queue. -/
theorem vqueue_modCtx {t : Tile} {cx : Cx} {f : Ctx → Ctx} (h : (f (t.ctx cx)).queues = (t.ctx cx).queues) (k : Nat) :
    (t.modCtx cx f).vqueue cx k = t.vqueue cx k := by
  obtain ⟨-, hv, hl, hk, -⟩ := CtxQueues.mk.inj h
  simp only [Tile.vqueue, Tile.ctx_modCtx, hv, hl, hk, Tile.modCtx_rq, Tile.modCtx_latch]

/-- A vector queue that has been written is read back, and no other of the codes 0 to 30 changes (R37). -/
theorem vqueue_putVqueue (t : Tile) (cx : Cx) {a k : Nat} (q : List Vec) (ha : a ≤ 30) (hk : k ≤ 30) :
    (t.putVqueue cx a q).vqueue cx k = if a = k then q else t.vqueue cx k := by
  have codes : a < 24 ∨ (24 ≤ a ∧ a < 28) ∨ a = 28 ∨ a = 29 ∨ a = 30 := by omega
  rcases codes with h | ⟨h1, h2⟩ | rfl | rfl | rfl
  · simp only [Tile.putVqueue, h, if_true, Tile.vqueue, Tile.ctx_modCtx, Tile.modCtx_rq, Tile.modCtx_latch, Ctx.mapRegs, rd_wr]
    grind
  · have h3 : ¬ a < 24 := by omega
    simp only [Tile.putVqueue, h3, h2, if_false, if_true, Tile.vqueue, rd_wr]
    cases cx <;> grind [Tile.ctx]
  · simp only [Tile.putVqueue, Tile.vqueue]
    simp [Ctx.mapRegs]
    grind
  · simp only [Tile.putVqueue, Tile.vqueue]
    simp [Ctx.mapRegs]
    grind
  · simp only [Tile.putVqueue, Tile.vqueue]
    cases cx <;> simp [Tile.ctx] <;> grind

/-- A vector queue's removal leaves the scalar queues. -/
theorem squeue_putVqueue (t : Tile) (cx : Cx) (a : Nat) (q : List Vec) (k : Nat) :
    ((t.putVqueue cx a q).ctx cx).squeue k = (t.ctx cx).squeue k := by
  unfold Tile.putVqueue
  split
  · simp [Ctx.mapRegs, Ctx.squeue]
  · split
    · cases cx <;> rfl
    · split
      · simp [Ctx.mapRegs, Ctx.squeue]
      · split
        · simp [Ctx.mapRegs, Ctx.squeue]
        · cases cx <;> rfl

theorem vqueue_putSqueue (t : Tile) (cx : Cx) (a : Nat) (q : Ctx → List Dword) (k : Nat) :
    (t.modCtx cx fun c => c.putSqueue a (q c)).vqueue cx k = t.vqueue cx k := by
  unfold Ctx.putSqueue
  by_cases ha : a < 32 <;> simp [Tile.vqueue, ha]

/-! ### The pops of a bundle (R15) -/

/-- The tile with other queues of a context, other result queues and another operand latch. -/
def Tile.setQueues (t : Tile) (cx : Cx) (q : CtxQueues) (rq : Vector (List Vec) 4) (latch : List Vec) : Tile :=
  { t.modCtx cx (·.setQueues q) with rq := rq, latch := latch }

/-- Entries that the pops take from a queue in all. -/
def popsGone (l : List (Bool × Nat × Nat)) (vec : Bool) (k : Nat) : Nat :=
  ((l.filter fun p => p.1 == vec && p.2.1 == k).map (·.2.2)).sum

/-- The pops of a list, one after the other. -/
def Tile.popAll (t : Tile) (cx : Cx) (l : List (Bool × Nat × Nat)) : Tile := l.foldl (fun t p => t.pop cx p.1 p.2.1 p.2.2) t

theorem setQueues_setQueues (t : Tile) (cx : Cx) (q q' : CtxQueues) (rq rq' : Vector (List Vec) 4) (l l' : List Vec) :
    (t.setQueues cx q rq l).setQueues cx q' rq' l' = t.setQueues cx q' rq' l' := by
  cases cx <;> rfl

/-- A pop changes queues alone. -/
theorem pop_frame (t : Tile) (cx : Cx) (vec : Bool) (k n : Nat) : ∃ q rq l, t.pop cx vec k n = t.setQueues cx q rq l := by
  let c := t.ctx cx
  cases vec
  · by_cases hk : k < 32
    · refine ⟨{ c.queues with sq := wr c.regs.sq k ((c.squeue k).drop n) }, t.rq, t.latch, ?_⟩
      cases cx <;> simp [Tile.pop, Ctx.putSqueue, hk] <;> rfl
    · refine ⟨{ c.queues with sup := wr c.sup (k - 32) ((c.squeue k).drop n) }, t.rq, t.latch, ?_⟩
      cases cx <;> simp [Tile.pop, Ctx.putSqueue, hk] <;> rfl
  · let v := (t.vqueue cx k).drop n
    show ∃ q rq l, t.putVqueue cx k v = _
    unfold Tile.putVqueue
    split
    · exact ⟨{ c.queues with vq := wr c.regs.vq k v }, t.rq, t.latch, by cases cx <;> rfl⟩
    · split
      · exact ⟨c.queues, wr t.rq (k - 24) v, t.latch, by cases cx <;> rfl⟩
      · split
        · exact ⟨{ c.queues with vld := v }, t.rq, t.latch, by cases cx <;> rfl⟩
        · split
          · exact ⟨{ c.queues with kld := v }, t.rq, t.latch, by cases cx <;> rfl⟩
          · exact ⟨c.queues, t.rq, v, by cases cx <;> rfl⟩

/-- Pops change queues alone. -/
theorem popAll_frame (t : Tile) (cx : Cx) (l : List (Bool × Nat × Nat)) :
    ∃ q rq latch, t.popAll cx l = t.setQueues cx q rq latch := by
  induction l generalizing t with
  | nil =>
    let c := t.ctx cx
    exact ⟨c.queues, t.rq, t.latch, by cases cx <;> rfl⟩
  | cons p r ih =>
    obtain ⟨q, rq, latch, h⟩ := pop_frame t cx p.1 p.2.1 p.2.2
    obtain ⟨q', rq', latch', h'⟩ := ih (t.pop cx p.1 p.2.1 p.2.2)
    exact ⟨q', rq', latch', h'.trans (by rw [h, setQueues_setQueues])⟩

theorem squeue_pop (t : Tile) (cx : Cx) (vec : Bool) (a n k : Nat) :
    ((t.pop cx vec a n).ctx cx).squeue k = ((t.ctx cx).squeue k).drop (if vec = false ∧ a = k then n else 0) := by
  cases vec
  · simp [Tile.pop, squeue_putSqueue_drop]
  · simp [Tile.pop, squeue_putVqueue]

theorem vqueue_pop (t : Tile) (cx : Cx) {vec : Bool} {a k : Nat} (n : Nat) (ha : vec = true → a ≤ 30) (hk : k ≤ 30) :
    (t.pop cx vec a n).vqueue cx k = (t.vqueue cx k).drop (if vec = true ∧ a = k then n else 0) := by
  cases vec
  · simp [Tile.pop, vqueue_putSqueue]
  · simp only [Tile.pop, if_true, vqueue_putVqueue t cx _ (ha rfl) hk, true_and]
    by_cases e : a = k
    · subst e; simp
    · simp [e]

theorem popsGone_cons (p : Bool × Nat × Nat) (l : List (Bool × Nat × Nat)) (vec : Bool) (k : Nat) :
    popsGone (p :: l) vec k = (if p.1 = vec ∧ p.2.1 = k then p.2.2 else 0) + popsGone l vec k := by
  by_cases h : p.1 = vec ∧ p.2.1 = k
  · simp [popsGone, h]
  · simp [popsGone, h]

/-- Each scalar queue loses the entries that the pops of its code name. -/
theorem squeue_popAll (t : Tile) (cx : Cx) (l : List (Bool × Nat × Nat)) (k : Nat) :
    ((t.popAll cx l).ctx cx).squeue k = ((t.ctx cx).squeue k).drop (popsGone l false k) := by
  induction l generalizing t with
  | nil => rfl
  | cons p r ih => rw [popsGone_cons, ← List.drop_drop, ← squeue_pop]; exact ih _

/-- Each vector queue loses the entries that the pops of its code name. -/
theorem vqueue_popAll (t : Tile) (cx : Cx) {l : List (Bool × Nat × Nat)} (hl : ∀ p ∈ l, p.1 = true → p.2.1 ≤ 30)
    {k : Nat} (hk : k ≤ 30) : (t.popAll cx l).vqueue cx k = (t.vqueue cx k).drop (popsGone l true k) := by
  induction l generalizing t with
  | nil => rfl
  | cons p r ih =>
    have hp := hl p (List.mem_cons_self ..)
    have hr := fun x hx => hl x (List.mem_cons_of_mem p hx)
    rw [popsGone_cons, ← List.drop_drop, ← vqueue_pop t cx _ hp hk]
    exact ih _ hr

/-- The queues of `y` are those of `x` without what the bundle has popped. -/
def Tile.Popped (x y : Tile) (i : Issue) : Prop :=
  (∀ k, (y.ctx i.cx).squeue k = ((x.ctx i.cx).squeue k).drop (popsGone i.pops false k)) ∧
  ∀ k, k ≤ 30 → y.vqueue i.cx k = (x.vqueue i.cx k).drop (popsGone i.pops true k)

/-- A change of the context that leaves its queues leaves what has been popped. -/
theorem Tile.Popped.modCtx {x y : Tile} {i : Issue} (h : x.Popped y i) {f : Ctx → Ctx}
    (hf : (f (y.ctx i.cx)).queues = (y.ctx i.cx).queues) : x.Popped (y.modCtx i.cx f) i := by
  obtain ⟨h1, h2⟩ := h
  refine ⟨fun k => ?_, fun k hk => ?_⟩
  · rw [Tile.ctx_modCtx, squeue_congr hf]; exact h1 k
  · rw [vqueue_modCtx hf]; exact h2 k hk

/-- Flags and operations of the sequence engine are no queues. -/
theorem Tile.Popped.withFlags {x y : Tile} {i : Issue} (h : x.Popped y i) (fl : Vector Flag 16) (run wait : Option SeqOp) :
    x.Popped { y with flags := fl, seqRun := run, seqWait := wait } i := by
  unfold Tile.Popped at h ⊢
  cases hc : i.cx <;> rw [hc] at h <;> exact h

theorem popAll_popped (x : Tile) {i : Issue} (h : ∀ p ∈ i.pops, p.1 = true → p.2.1 ≤ 30) :
    x.Popped (x.popAll i.cx i.pops) i :=
  ⟨squeue_popAll x i.cx i.pops, fun _ hk => vqueue_popAll x i.cx h hk⟩

theorem ctx_setQueues (t : Tile) (cx : Cx) (q : CtxQueues) (rq : Vector (List Vec) 4) (l : List Vec) :
    (t.setQueues cx q rq l).ctx cx = (t.ctx cx).setQueues q := by
  cases cx <;> rfl

/-! ### The end of a loop (R84) -/

/-- Set `n` ends at the bundle at `a` in this mode. -/
def Regs.EndsAt (r : Regs) (a : Dword) (mode : Bool) (n : Nat) : Prop :=
  (rd r.loops n {}).count ≠ 0 ∧ (rd r.loops n {}).le = a ∧ (rd r.loops n {}).sup = mode

/-- The action of set `n` before that of the sets that it encloses, `k`. -/
def Regs.loopStep (r : Regs) (a : Dword) (mode : Bool) (n : Nat) (k : List (Nat × BitVec 32) × Option Dword) :
    List (Nat × BitVec 32) × Option Dword :=
  match (let l := rd r.loops n {}; if l.count != 0 && l.le == a && l.sup == mode then some l else none) with
  | none => k
  | some l => if 1 < l.count then ([(n, l.count - 1)], some l.ls) else ((n, 0) :: k.1, k.2)

theorem loopEnd_eq (r : Regs) (a : Dword) (mode : Bool) :
    r.loopEnd a mode = r.loopStep a mode 1 (r.loopStep a mode 0 ([], none)) := rfl

section
variable {r : Regs} {a : Dword} {mode : Bool} {n : Nat} (k : List (Nat × BitVec 32) × Option Dword)

/-- A set that does not end here has no action. -/
theorem loopStep_not (h : ¬ r.EndsAt a mode n) : r.loopStep a mode n k = k := by
  have h' : ((rd r.loops n {}).count != 0 && (rd r.loops n {}).le == a && (rd r.loops n {}).sup == mode) = false := by
    simpa [Regs.EndsAt, and_assoc] using h
  simp only [Regs.loopStep, h']
  rfl

theorem loopStep_at (h : r.EndsAt a mode n) : r.loopStep a mode n k =
    if 1 < (rd r.loops n {}).count then ([(n, (rd r.loops n {}).count - 1)], some (rd r.loops n {}).ls)
    else ((n, 0) :: k.1, k.2) := by
  have h' : ((rd r.loops n {}).count != 0 && (rd r.loops n {}).le == a && (rd r.loops n {}).sup == mode) = true := by
    simpa [Regs.EndsAt, and_assoc] using h
  simp only [Regs.loopStep, h']
  rfl

/-- A set with passes left goes back to its start, and the enclosing set has no action. -/
theorem loopStep_more (h : r.EndsAt a mode n) (hc : 1 < (rd r.loops n {}).count) :
    r.loopStep a mode n k = ([(n, (rd r.loops n {}).count - 1)], some (rd r.loops n {}).ls) := by
  rw [loopStep_at k h, if_pos hc]

/-- A set in its last pass is left, and the enclosing set acts too. -/
theorem loopStep_last (h : r.EndsAt a mode n) (hc : (rd r.loops n {}).count = 1) :
    r.loopStep a mode n k = ((n, 0) :: k.1, k.2) := by
  rw [loopStep_at k h, hc]; rfl

end

/-! ### The context after its bundle (R8, R15, R27, R76, R77) -/

/-- The loop-end action of a bundle: none where a forced target follows it (R84). -/
def Ctx.loopAction (c : Ctx) (i : Issue) : List (Nat × BitVec 32) × Option Dword :=
  if c.pos.t1.isSome then ([], none) else c.regs.loopEnd i.addr c.frame.mode

/-- The registers once a checked target has been taken (R77, R81). -/
def Ctx.targetRegs (c : Ctx) (i : Issue) : Regs :=
  match c.pos.t1 with
  | some a => if a.chk && !i.reti then c.regs.leaveLoops a.addr else c.regs
  | none => c.regs

/-- The result that a loop end gives for a set and its new count (R84, log 16). -/
def Ctx.loopRes (c : Ctx) (i : Issue) (x : Nat × BitVec 32) : Res :=
  { rem := 1, slot := 0, pc := i.addr
    pay := .sys (0x20 + 3 * x.1) (BitVec.ofNat 64 (x.2.toNat + b2n (rd c.regs.loops x.1 {}).sup * 2 ^ 32)) }

/-- The address after the bundle in sequence. -/
def Issue.seq (i : Issue) : Dword := i.addr + BitVec.ofNat 64 (4 * i.words.length)

/-- Results enter flight in the order in which they are given, with the number of their bundle. -/
def Ctx.inFlight (c : Ctx) (l : List Res) : List Res := c.inflight ++ l.map fun r => { r with seq := c.tick }

/-- The context after its bundle, its pops apart. -/
def Ctx.retired (c : Ctx) (i : Issue) : Ctx :=
  { c with
    regs := { c.targetRegs i with cyc := (c.targetRegs i).cyc + 1 }
    inflight := c.inFlight ((c.loopAction i).1.map (c.loopRes i) ++ i.out)
    divA := if i.divA then 23 else c.divA - 1
    divB := if i.divB then 23 else c.divB - 1
    remake := []
    pos := c.pos.after i.seq i.target i.annulNext (c.loopAction i).2 }

theorem retireBundle_eq (t : Tile) (i : Issue) : t.retireBundle i = (t.popAll i.cx i.pops).modCtx i.cx (·.retired i) := rfl

/-- A target leaves the registers, or deactivates loop sets. -/
theorem targetRegs_cases (c : Ctx) (i : Issue) : c.targetRegs i = c.regs ∨ ∃ a, c.targetRegs i = c.regs.leaveLoops a := by
  unfold Ctx.targetRegs
  split
  · split
    · exact .inr ⟨_, rfl⟩
    · exact .inl rfl
  · exact .inl rfl

theorem targetRegs_cyc (c : Ctx) (i : Issue) : (c.targetRegs i).cyc = c.regs.cyc := by
  obtain h | ⟨a, h⟩ := targetRegs_cases c i <;> rw [h]
  rfl

theorem retired_queues (c : Ctx) (i : Issue) : (c.retired i).queues = c.queues := by
  show CtxQueues.mk (c.targetRegs i).sq (c.targetRegs i).vq (c.targetRegs i).vld (c.targetRegs i).kld c.sup = _
  obtain h | ⟨a, h⟩ := targetRegs_cases c i <;> rw [h] <;> rfl

/-- The queues play no part in what a bundle does at its end. -/
theorem retired_setQueues (c : Ctx) (q : CtxQueues) (i : Issue) : (c.setQueues q).retired i = (c.retired i).setQueues q := by
  have hr : (c.setQueues q).targetRegs i =
      { c.targetRegs i with sq := q.sq, vq := q.vq, vld := q.vld, kld := q.kld } := by
    have ht : (c.setQueues q).pos.t1 = c.pos.t1 := rfl
    unfold Ctx.targetRegs
    rw [ht]
    cases c.pos.t1 with
    | none => rfl
    | some a => dsimp only; split <;> rfl
  unfold Ctx.retired
  rw [hr]
  rfl

/-- A set that does not hold the target of a branch is deactivated (R77). -/
theorem rd_leaveLoops (r : Regs) (a : Dword) {n : Nat} (hn : n < 2) : rd (r.leaveLoops a).loops n {} =
    if (rd r.loops n {}).count ≠ 0 ∧ (a < (rd r.loops n {}).ls ∨ (rd r.loops n {}).le < a) then
      { rd r.loops n {} with count := 0 } else rd r.loops n {} := by
  simp only [rd, hn, dif_pos, Regs.leaveLoops, Vector.getElem_map]
  refine if_congr ?_ rfl rfl
  simp [BitVec.ule, BitVec.lt_def]

theorem loopAction_target {c : Ctx} {i : Issue} {a : Target} (h : c.pos.t1 = some a) : c.loopAction i = ([], none) := by
  simp [Ctx.loopAction, h]

theorem loopAction_none {c : Ctx} {i : Issue} (h : c.pos.t1 = none) :
    c.loopAction i = c.regs.loopEnd i.addr c.frame.mode := by
  simp [Ctx.loopAction, h]

/-- Where no set ends at the bundle there is no loop-end action. -/
theorem loopAction_not {c : Ctx} {i : Issue} (h0 : ¬ c.regs.EndsAt i.addr c.frame.mode 0)
    (h1 : ¬ c.regs.EndsAt i.addr c.frame.mode 1) : c.loopAction i = ([], none) := by
  unfold Ctx.loopAction
  split
  · rfl
  · rw [loopEnd_eq, loopStep_not _ h1, loopStep_not _ h0]

/-! ### The stages of a commit -/

/-- Pops, results and position, and what the bundle's accesses have learned. -/
def State.retire (s : State) (i : Issue) : State :=
  (State.modTile { s with issue := none } i.tile (·.retireBundle i)).releaseLearned i

/-- The cause that an END of the bundle meets (R91). -/
def State.endCause (s : State) (i : Issue) : Option Raised :=
  match i.endWord with
  | some (_, h) => if (s.ctx i.tile i.cx).frame.mode then none
    else ((s.tile i.tile).endFault i.cx).map fun e : Nat × Dword => ⟨e.1, e.2, h, 0⟩
  | none => none

/-- The bundle has retired, and its escapes are noted (R359). -/
def State.noted (s : State) (i : Issue) : State :=
  (s.retire i).modCtx i.tile i.cx fun c => if i.escapes (s.ctx i.tile i.cx).regs && c.phase.snap.isSome then c.escape else c

/-- A TRAP of the bundle is noted as a cause of a later one (R89). -/
def State.noteTrap (s : State) (i : Issue) : State :=
  match i.trap with
  | some (slot, v) => s.next.2.modCtx i.tile i.cx fun c => { c with faults := c.faults ++ [⟨s.next.1, Cause.trap, slot, v⟩] }
  | none => s

/-- A wait of the bundle is tested, and stays where its test fails; with what its success has acquired (R102, R105). -/
def State.startWait (s : State) (i : Issue) : State × Clock :=
  match i.wait with
  | some (w, h) =>
    let r := s.testWait i.tile i.cx w
    if r.2.1 then (r.1, r.2.2) else (r.1.modCtx i.tile i.cx fun c => { c with wait := some (w, h) }, [])
  | none => (s, [])

/-- A RETI of a bundle that has raised no cause (`quiet`) returns. -/
def State.returns (s : State) (i : Issue) (quiet : Bool) : State :=
  if i.reti && quiet then s.modCtx i.tile i.cx (·.reti) else s

/-- A phase commit of the bundle (R357). -/
def State.markPhase (s : State) (i : Issue) : State :=
  if i.commit then s.phaseCommit i.tile i.cx (s.ctx i.tile i.cx).tick else s

/-- What the bundle's accesses and its wait have learned comes before its context's next bundle (R258). -/
def State.joinLearned (s : State) (i : Issue) (k : Clock) : State :=
  s.modCtx i.tile i.cx fun c => { c with clock := clockJoin (clockJoin c.clock i.acquire) k }

/-- The commit up to the causes that the bundle has raised. -/
def State.beforeCauses (s : State) (i : Issue) (quiet : Bool) : State :=
  let w := ((s.noted i).noteTrap i).startWait i
  (((w.1.returns i quiet).delayBundle i).markPhase i).joinLearned i w.2

/-- The context's bundles are counted. -/
def State.count (s : State) (i : Issue) : State := s.modCtx i.tile i.cx fun c => { c with tick := c.tick + 1 }

/-- An END of a bundle without a cause (R91). -/
def State.endUnlessRaised (s : State) (i : Issue) (raised : List Raised) : State :=
  match i.endWord with
  | some (w, _) => if raised.isEmpty then s.takeEnd i w else s
  | none => s

/-- The operation in the run slot may ask for its grant (R176). -/
def State.ask (s : State) (i : Issue) : State := s.seqAsk i.tile s.now

/-- The causes with which the bundle ends: those that its slots have raised, then END's. -/
def State.causes (s : State) (i : Issue) : List Raised := i.raised ++ ((s.retire i).endCause i).toList

/-- The causes after the walks of the bundle, which decide at once beside another cause (R349). -/
def State.walked (s : State) (i : Issue) (raised : List Raised) : State × List Raised :=
  if raised.isEmpty then (s, raised) else s.walkNow { i with raised := raised }

/-- The commit of a bundle, cut into its stages. -/
theorem commit_eq (s : State) (i : Issue) : s.commit i =
    let v := (s.beforeCauses i (s.causes i).isEmpty).walked i (s.causes i)
    (((v.1.count i).takeRaised i v.2).endUnlessRaised i v.2).ask i := rfl

/-- A bundle whose slots have all executed commits. -/
theorem settle_eq_commit {s : State} {i : Issue} (h1 : s.issue = some i) (h2 : i.remake = []) (h3 : 0 < i.pos)
    (h4 : i.words.length ≤ i.pos) : s.settle = s.commit i := by
  simp [State.settle, h1, h2, h4, h3.ne']

/-! ### A stage without its occasion -/

theorem noteTrap_none {i : Issue} (h : i.trap = none) (s : State) : s.noteTrap i = s := by simp [State.noteTrap, h]
theorem startWait_none {i : Issue} (h : i.wait = none) (s : State) : s.startWait i = (s, []) := by simp [State.startWait, h]
theorem markPhase_not {i : Issue} (h : i.commit = false) (s : State) : s.markPhase i = s := by simp [State.markPhase, h]
theorem returns_not {i : Issue} {quiet : Bool} (h : (i.reti && quiet) = false) (s : State) : s.returns i quiet = s := by
  simp [State.returns, h]
theorem endUnlessRaised_none {i : Issue} (h : i.endWord = none) (s : State) (l : List Raised) :
    s.endUnlessRaised i l = s := by
  simp [State.endUnlessRaised, h]
@[simp] theorem takeRaised_nil (s : State) (i : Issue) : s.takeRaised i [] = s := rfl
@[simp] theorem walked_nil (s : State) (i : Issue) : s.walked i [] = (s, []) := rfl

/-- Without an access that waits for a walk no cause is added. -/
theorem walked_noWalk {i : Issue} (h : ∀ z ∈ i.delayed, z.why ≠ .walk) (s : State) (l : List Raised) :
    s.walked i l = (s, l) := by
  have hn : i.delayed.filter (fun d => d.why == .walk) = [] := List.filter_eq_nil_iff.2 fun z hz => by simpa using h z hz
  unfold State.walked State.walkNow
  split
  · rfl
  · show List.foldl _ (s, l) (i.delayed.filter _) = _
    rw [hn]; rfl

theorem causes_noEnd {i : Issue} (h : i.endWord = none) (s : State) : s.causes i = i.raised := by
  simp [State.causes, State.endCause, h]

/-- The commit of a bundle that has raised no cause and holds no END. -/
theorem commit_quiet {i : Issue} (hr : i.raised = []) (he : i.endWord = none) (s : State) :
    s.commit i = ((s.beforeCauses i true).count i).ask i := by
  simp [commit_eq, causes_noEnd he, hr, endUnlessRaised_none he]

/-! ### What each stage leaves of the tile -/

@[simp] theorem modCtx_tile (s : State) (t : Nat) (cx : Cx) (f : Ctx → Ctx) :
    (s.modCtx t cx f).tile t = (s.tile t).modCtx cx f := tile_putTile _ _ _
theorem modCtx_modCtx (t : Tile) (cx : Cx) (f g : Ctx → Ctx) : (t.modCtx cx f).modCtx cx g = t.modCtx cx fun c => g (f c) := by
  cases cx <;> rfl

/-- Asking for a grant changes the cluster's requests and the next number alone (R243). -/
theorem seqAsk_frame (s : State) (t made : Nat) :
    s.seqAsk t made = s ∨ ∃ q, s.seqAsk t made =
      State.modCluster { s with fresh := s.fresh + 1 } (clusterOf t) fun c =>
        { c with tickets := c.tickets + 1, reqs := c.reqs ++ [q] } := by
  unfold State.seqAsk
  split
  · exact .inl rfl
  · split
    · exact .inl rfl
    · exact .inr ⟨_, rfl⟩

@[simp] theorem ask_tile (s : State) (i : Issue) (t : Nat) : (s.ask i).tile t = s.tile t := by
  unfold State.ask
  obtain h | ⟨q, h⟩ := seqAsk_frame s i.tile s.now
  · rw [h]
  · rw [h]; rfl

@[simp] theorem ask_ensign (s : State) (i : Issue) : (s.ask i).ensign = s.ensign := by
  unfold State.ask
  obtain h | ⟨q, h⟩ := seqAsk_frame s i.tile s.now
  · rw [h]
  · rw [h]; rfl

/-- Asking for a grant keeps every request that stands. -/
theorem mem_reqs_ask {s : State} {i : Issue} {q : Req} (h : q ∈ (s.cluster (clusterOf i.tile)).reqs) :
    q ∈ ((s.ask i).cluster (clusterOf i.tile)).reqs := by
  rcases seqAsk_frame s i.tile s.now with e | ⟨p, e⟩
  · rw [State.ask, e]; exact h
  · rw [State.ask, e]
    rw [cluster_modCluster]
    exact List.mem_append_left _ h

/-- The flags that a bundle has posted keep their values when they learn what its accesses have learned (R258). -/
theorem learnFlags_frame (k : Clock) (l : List Nat) (x : Tile) :
    ∃ fl, l.foldl (fun x n => x.putFlag n { x.flag n with clock := clockJoin (x.flag n).clock k }) x =
        { x with flags := fl } ∧
      ∀ n, (rd fl n {}).value = (x.flag n).value ∧ (rd fl n {}).gen = (x.flag n).gen := by
  induction l generalizing x with
  | nil => exact ⟨x.flags, rfl, fun n => ⟨rfl, rfl⟩⟩
  | cons m r ih =>
    obtain ⟨fl, h, hv⟩ := ih (x.putFlag m { x.flag m with clock := clockJoin (x.flag m).clock k })
    refine ⟨fl, h, fun n => ?_⟩
    obtain ⟨h1, h2⟩ := hv n
    rw [h1, h2]
    simp only [Tile.flag, Tile.putFlag, rd_wr]
    split
    · rename_i e; obtain ⟨rfl, -⟩ := e; exact ⟨rfl, rfl⟩
    · exact ⟨rfl, rfl⟩

/-- What `y` has of tile and context once the bundle has retired: all but its queues, the clocks of flags and operations, and
what the phase notes. -/
structure State.Retires (s : State) (i : Issue) (y : Tile) : Prop where
  ctx : ∃ q ph, y.ctx i.cx = { ((s.ctx i.tile i.cx).retired i).setQueues q with phase := ph }
  popped : (∀ p ∈ i.pops, p.1 = true → p.2.1 ≤ 30) → (s.tile i.tile).Popped y i
  flags : ∀ n, (y.flag n).value = ((s.tile i.tile).flag n).value ∧ (y.flag n).gen = ((s.tile i.tile).flag n).gen
  banks : y.banks = (s.tile i.tile).banks
  evec : y.evec = (s.tile i.tile).evec

theorem releaseLearned_tile (s : State) (i : Issue) : ∃ fl run wait, (s.releaseLearned i).tile i.tile =
      { s.tile i.tile with flags := fl, seqRun := run, seqWait := wait } ∧
    ∀ n, (rd fl n {}).value = ((s.tile i.tile).flag n).value ∧ (rd fl n {}).gen = ((s.tile i.tile).flag n).gen := by
  let op (o : SeqOp) : SeqOp :=
    if o.cx = i.cx ∧ i.base ≤ o.id then { o with clock := clockJoin o.clock i.acquire } else o
  let x := s.tile i.tile
  obtain ⟨fl, h, hv⟩ := learnFlags_frame i.acquire i.posted { x with seqRun := x.seqRun.map op, seqWait := x.seqWait.map op }
  exact ⟨fl, _, _, (tile_modTile _ _ _).trans h, hv⟩

/-- The end of a bundle, its queues popped and its context moved on (R8, R15, R27, R76). -/
theorem retireBundle_retires (s : State) (i : Issue) : s.Retires i ((s.tile i.tile).retireBundle i) := by
  obtain ⟨q, rq, latch, hq⟩ := popAll_frame (s.tile i.tile) i.cx i.pops
  refine ⟨⟨q, (s.ctx i.tile i.cx).phase, ?_⟩, fun h => ?_, fun n => ?_, ?_, ?_⟩
  · rw [retireBundle_eq, Tile.ctx_modCtx, hq, ctx_setQueues, retired_setQueues]; rfl
  · exact (popAll_popped _ h).modCtx (retired_queues _ i)
  · rw [retireBundle_eq, Tile.flag, Tile.modCtx_flags, hq, Tile.setQueues]
    exact ⟨congrArg (fun f => (rd f n {}).value) (Tile.modCtx_flags _ _ _),
      congrArg (fun f => (rd f n {}).gen) (Tile.modCtx_flags _ _ _)⟩
  · rw [retireBundle_eq, Tile.modCtx_banks, hq]; exact Tile.modCtx_banks _ _ _
  · rw [retireBundle_eq, Tile.modCtx_evec, hq]; exact Tile.modCtx_evec _ _ _

section
variable {s : State} {i : Issue} {y : Tile}

/-- Flags that keep their values, and the operations of the sequence engine, are free to learn (R258). -/
theorem State.Retires.withFlags (h : s.Retires i y) {fl : Vector Flag 16} (run wait : Option SeqOp)
    (hv : ∀ n, (rd fl n {}).value = (y.flag n).value ∧ (rd fl n {}).gen = (y.flag n).gen) :
    s.Retires i { y with flags := fl, seqRun := run, seqWait := wait } := by
  obtain ⟨⟨q, ph, hc⟩, hp, hf, hb, he⟩ := h
  refine ⟨⟨q, ph, ?_⟩, fun hl => (hp hl).withFlags fl run wait, fun n => ?_, hb, he⟩
  · rw [← hc]; cases i.cx <;> rfl
  · obtain ⟨h1, h2⟩ := hv n
    obtain ⟨h3, h4⟩ := hf n
    exact ⟨h1.trans h3, h2.trans h4⟩

/-- The phase is free to note an escape (R359). -/
theorem State.Retires.withPhase (h : s.Retires i y) {f : Ctx → Ctx} (hf : ∀ c, ∃ ph, f c = { c with phase := ph }) :
    s.Retires i (y.modCtx i.cx f) := by
  obtain ⟨⟨q, ph, hc⟩, hp, hv, hb, he⟩ := h
  obtain ⟨ph', hph⟩ := hf (y.ctx i.cx)
  refine ⟨⟨q, ph', ?_⟩, fun hl => (hp hl).modCtx (by rw [hph]; rfl), fun n => ?_, ?_, ?_⟩
  · rw [Tile.ctx_modCtx, hph, hc]
  · rw [Tile.flag, Tile.modCtx_flags]; exact hv n
  · rw [Tile.modCtx_banks, hb]
  · rw [Tile.modCtx_evec, he]

end

theorem retire_retires (s : State) (i : Issue) : s.Retires i ((s.retire i).tile i.tile) := by
  obtain ⟨fl, run, wait, hy, hv⟩ := releaseLearned_tile (State.modTile { s with issue := none } i.tile (·.retireBundle i)) i
  rw [tile_modTile] at hy hv
  rw [State.retire, hy]
  exact (retireBundle_retires s i).withFlags run wait hv

/-- The tile once the bundle has retired and its escapes are noted. -/
theorem noted_retires (s : State) (i : Issue) : s.Retires i ((s.noted i).tile i.tile) := by
  rw [State.noted, modCtx_tile]
  refine (retire_retires s i).withPhase fun c => ?_
  split
  · exact ⟨_, rfl⟩
  · exact ⟨c.phase, rfl⟩

theorem modCtx_same {t : Tile} {cx : Cx} {f : Ctx → Ctx} (h : f (t.ctx cx) = t.ctx cx) : t.modCtx cx f = t := by
  unfold Tile.modCtx
  rw [h]
  cases cx <;> rfl

/-! ### Accesses that the bundle has delayed (R242, R248) -/

/-- The one request for the absent segments, and its number. -/
def State.delayRequest (s : State) (i : Issue) : Nat × State :=
  if i.absent.isEmpty then (0, s)
  else s.request i.tile i.cx 0 0 i.absent (s.ctx i.tile i.cx).laneRank s.now
    (((i.delayed.filter fun d => d.why == .absent 0).map (·.cap.slot)).min?.getD 0)

/-- A delayed access as it is noted, the request for absent segments having the number `id`. -/
def Issue.delayNoted (i : Issue) (id : Nat) (d : Delayed) : Delayed :=
  match d.why with
  | .absent 0 => { d with why := .absent id }
  | .walk => { d with after := clockJoin d.after i.acquire }
  | _ => d

theorem delayBundle_eq (s : State) (i : Issue) : s.delayBundle i = (s.delayRequest i).2.modCtx i.tile i.cx fun c =>
    { c with delayed := c.delayed ++ i.delayed.map (i.delayNoted (s.delayRequest i).1) } := rfl

theorem delayNoted_other {i : Issue} {id : Nat} {d : Delayed} (h : d.why ≠ .absent 0 ∧ d.why ≠ .walk) :
    i.delayNoted id d = d := by
  obtain ⟨h1, h2⟩ := h
  unfold Issue.delayNoted
  split
  · rename_i e; exact absurd e h1
  · rename_i e; exact absurd e h2
  · rfl

theorem delayNoted_absent {i : Issue} {id : Nat} {d : Delayed} (h : d.why = .absent 0) :
    i.delayNoted id d = { d with why := .absent id } := by
  simp [Issue.delayNoted, h]

@[simp] theorem delayRequest_tile (s : State) (i : Issue) (t : Nat) : (s.delayRequest i).2.tile t = s.tile t := by
  unfold State.delayRequest
  split <;> rfl

@[simp] theorem delayBundle_tile (s : State) (i : Issue) : (s.delayBundle i).tile i.tile =
    (s.tile i.tile).modCtx i.cx fun c =>
      { c with delayed := c.delayed ++ i.delayed.map (i.delayNoted (s.delayRequest i).1) } := by
  rw [delayBundle_eq, modCtx_tile, delayRequest_tile]

theorem delayBundle_tile_none {i : Issue} (h : i.delayed = []) (s : State) : (s.delayBundle i).tile i.tile = s.tile i.tile := by
  rw [delayBundle_tile, modCtx_same]
  simp [h]

/-- A bundle whose segments are absent asks for them. -/
theorem delayRequest_asks {i : Issue} (h : i.absent ≠ []) (s : State) :
    ∃ q ∈ ((s.delayRequest i).2.cluster (clusterOf i.tile)).reqs, q.id = (s.delayRequest i).1 ∧ q.kind = 0 ∧
      q.members = i.absent ∧ q.tile = i.tile ∧ q.cx = i.cx := by
  have h' : i.absent.isEmpty = false := by simpa using h
  simp only [State.delayRequest, h', State.request, if_neg Bool.false_ne_true, cluster_modCluster]
  exact ⟨_, List.mem_append_right _ (List.mem_singleton.2 rfl), rfl, rfl, rfl, rfl, rfl⟩

/-! ### The tile after a commit -/

/-- The bundle has noted nothing but pops, results, its position, its causes and an END. -/
structure Issue.Bare (i : Issue) : Prop where
  trap : i.trap = none
  wait : i.wait = none
  delayed : i.delayed = []
  absent : i.absent = []
  commit : i.commit = false

theorem Issue.Bare.noWalk {i : Issue} (h : i.Bare) : ∀ z ∈ i.delayed, z.why ≠ .walk := by simp [h.delayed]

/-- Up to its causes, a bare bundle that does not return changes a clock beside what it retires. -/
theorem beforeCauses_tile {i : Issue} (h : i.Bare) {quiet : Bool} (hr : (i.reti && quiet) = false) (s : State) :
    ∃ k, (s.beforeCauses i quiet).tile i.tile = ((s.noted i).tile i.tile).modCtx i.cx fun c => { c with clock := k } := by
  simp only [State.beforeCauses, noteTrap_none h.trap, startWait_none h.wait, returns_not hr, markPhase_not h.commit,
    State.joinLearned, modCtx_tile, delayBundle_tile_none h.delayed]
  exact ⟨_, rfl⟩

/-- The tile after a bundle without a cause, an END and a RETI, by what it has noted beside. -/
theorem commit_tile_quiet {i : Issue} (he : i.endWord = none) (hr : i.raised = []) (ht : i.reti = false) (s : State) :
    ∃ k, (s.commit i).tile i.tile = ((((((s.noted i).noteTrap i).startWait i).1.delayBundle i).markPhase i).tile i.tile).modCtx
      i.cx fun c => { c with clock := k, tick := c.tick + 1 } := by
  have hn : (i.reti && true) = false := by simp [ht]
  simp only [commit_quiet hr he, ask_tile, State.count, modCtx_tile, State.beforeCauses, State.joinLearned, returns_not hn,
    modCtx_modCtx]
  exact ⟨_, rfl⟩

/-- The tile after a bare bundle without a cause, an END and a RETI. -/
theorem commit_tile_bare {i : Issue} (h : i.Bare) (he : i.endWord = none) (hr : i.raised = []) (ht : i.reti = false)
    (s : State) : ∃ k, (s.commit i).tile i.tile =
      ((s.noted i).tile i.tile).modCtx i.cx fun c => { c with clock := k, tick := c.tick + 1 } := by
  obtain ⟨k, hk⟩ := commit_tile_quiet he hr ht s
  rw [noteTrap_none h.trap, startWait_none h.wait, markPhase_not h.commit, delayBundle_tile_none h.delayed] at hk
  exact ⟨k, hk⟩

/-- The tile after a bare bundle that returns from a trap. -/
theorem commit_tile_reti {i : Issue} (h : i.Bare) (he : i.endWord = none) (hr : i.raised = []) (ht : i.reti = true)
    (s : State) : ∃ k, (s.commit i).tile i.tile =
      ((s.noted i).tile i.tile).modCtx i.cx fun c => { c.reti with clock := k, tick := c.tick + 1 } := by
  simp only [commit_quiet hr he, ask_tile, State.count, State.beforeCauses, noteTrap_none h.trap, startWait_none h.wait,
    State.returns, ht, Bool.and_self, if_true, markPhase_not h.commit, State.joinLearned, modCtx_tile,
    delayBundle_tile_none h.delayed, modCtx_modCtx]
  exact ⟨_, rfl⟩

/-! ### Where issue goes on (R76, R77, R84) -/

/-- A forced target is the next position, whatever loop ends at the bundle (R76, R84). -/
theorem retired_target {c : Ctx} {i : Issue} {a : Target} (h : c.pos.t1 = some a) : (c.retired i).pos.pc = a.addr ∧
    (c.retired i).pos.entry = true ∧ (c.retired i).inflight = c.inFlight i.out := by
  simp [Ctx.retired, Pos.after, h, loopAction_target h]

/-- A checked target deactivates the sets that do not hold it (R77). -/
theorem retired_target_loops {c : Ctx} {i : Issue} {a : Target} (h : c.pos.t1 = some a) (hr : i.reti = false) {n : Nat}
    (hn : n < 2) : rd (c.retired i).regs.loops n {} =
      if a.chk = true ∧ (rd c.regs.loops n {}).count ≠ 0 ∧
        (a.addr < (rd c.regs.loops n {}).ls ∨ (rd c.regs.loops n {}).le < a.addr) then
       { rd c.regs.loops n {} with count := 0 } else rd c.regs.loops n {} := by
  have hl : (c.retired i).regs.loops = (if a.chk then c.regs.leaveLoops a.addr else c.regs).loops := by
    simp [Ctx.retired, Ctx.targetRegs, h, hr]
  rw [hl]
  cases a.chk
  · simp
  · simpa using rd_leaveLoops c.regs a.addr hn

/-- Without a forced target, or where a RETI discards it, no set is deactivated (R81). -/
theorem retired_loops {c : Ctx} {i : Issue} (h : c.pos.t1 = none ∨ i.reti = true) :
    (c.retired i).regs.loops = c.regs.loops := by
  have : c.targetRegs i = c.regs := by
    unfold Ctx.targetRegs
    rcases h with h | h
    · simp [h]
    · cases c.pos.t1 <;> simp [h]
  simp [Ctx.retired, this]

/-- Without a forced target the loop-end action decides where issue goes on. -/
theorem retired_next {c : Ctx} {i : Issue} {l : List (Nat × BitVec 32)} {r : Option Dword} (h : c.pos.t1 = none)
    (ha : c.loopAction i = (l, r)) : (c.retired i).pos.pc = r.getD i.seq ∧ (c.retired i).pos.entry = r.isSome ∧
      (c.retired i).inflight = c.inFlight (l.map (c.loopRes i) ++ i.out) := by
  simp [Ctx.retired, Pos.after, h, ha]

/-- The position after a bundle at which no loop ends (R76). -/
theorem retired_pc {c : Ctx} {i : Issue} (h0 : ¬ c.regs.EndsAt i.addr c.frame.mode 0)
    (h1 : ¬ c.regs.EndsAt i.addr c.frame.mode 1) : (c.retired i).pos.pc = (c.pos.t1.map (·.addr)).getD i.seq := by
  cases h : c.pos.t1 with
  | none => exact (retired_next h (loopAction_not h0 h1)).1
  | some a => exact (retired_target h).1

/-- The new count `k` of set `n`, as a loop end gives it. -/
def Ctx.loopCount (c : Ctx) (i : Issue) (n k : Nat) : Res :=
  { rem := 1, slot := 0, pc := i.addr
    pay := .sys (0x20 + 3 * n) (BitVec.ofNat 64 (k + b2n (rd c.regs.loops n {}).sup * 2 ^ 32)) }

theorem loopRes_less {c : Ctx} (i : Issue) {n : Nat} (h : 1 < (rd c.regs.loops n {}).count) :
    c.loopRes i (n, (rd c.regs.loops n {}).count - 1) = c.loopCount i n ((rd c.regs.loops n {}).count.toNat - 1) := by
  unfold Ctx.loopRes Ctx.loopCount
  generalize (rd c.regs.loops n {}).count = x at h
  have : (x - 1).toNat = x.toNat - 1 := by bv_omega
  simp only [this]

/-- Position and results in flight after a bundle without a forced target, by the sets that end there (R84). -/
theorem retired_sequence {c : Ctx} {i : Issue} (h : c.pos.t1 = none) :
    let d := c.retired i
    let set (n : Nat) : LoopSet := rd c.regs.loops n {}
    let ends (n : Nat) : Prop := c.regs.EndsAt i.addr c.frame.mode n
    let less (n : Nat) : Res := c.loopCount i n ((set n).count.toNat - 1)
    let last (n : Nat) : Res := c.loopCount i n 0
    (¬ ends 0 → ¬ ends 1 → d.pos.pc = i.seq ∧ d.pos.entry = false ∧ d.inflight = c.inFlight i.out) ∧
    (ends 1 → 1 < (set 1).count → d.pos.pc = (set 1).ls ∧ d.inflight = c.inFlight ([less 1] ++ i.out)) ∧
    (ends 1 → (set 1).count = 1 → ¬ ends 0 → d.pos.pc = i.seq ∧ d.inflight = c.inFlight ([last 1] ++ i.out)) ∧
    (ends 1 → (set 1).count = 1 → ends 0 → 1 < (set 0).count →
      d.pos.pc = (set 0).ls ∧ d.inflight = c.inFlight ([last 1, less 0] ++ i.out)) ∧
    (ends 1 → (set 1).count = 1 → ends 0 → (set 0).count = 1 →
      d.pos.pc = i.seq ∧ d.inflight = c.inFlight ([last 1, last 0] ++ i.out)) ∧
    (¬ ends 1 → ends 0 → 1 < (set 0).count → d.pos.pc = (set 0).ls ∧ d.inflight = c.inFlight ([less 0] ++ i.out)) ∧
    (¬ ends 1 → ends 0 → (set 0).count = 1 → d.pos.pc = i.seq ∧ d.inflight = c.inFlight ([last 0] ++ i.out)) := by
  intro d set ends less last
  have ha := (loopAction_none (i := i) h).trans (loopEnd_eq ..)
  have next {l : List (Nat × BitVec 32)} {r : Option Dword} (e : c.loopAction i = (l, r)) :
      d.pos.pc = r.getD i.seq ∧ d.inflight = c.inFlight (l.map (c.loopRes i) ++ i.out) := by
    obtain ⟨hp, -, hf⟩ := retired_next h e
    exact ⟨hp, hf⟩
  have hless {n : Nat} (hc : 1 < (set n).count) : c.loopRes i (n, (set n).count - 1) = less n := loopRes_less i hc
  refine ⟨fun h0 h1 => retired_next h (loopAction_not h0 h1), fun h1 hc => ?_, fun h1 hc h0 => ?_, fun h1 hc h0 hd => ?_,
    fun h1 hc h0 hd => ?_, fun h1 h0 hd => ?_, fun h1 h0 hd => ?_⟩
  · rw [← hless hc]
    exact next (ha.trans (loopStep_more _ h1 hc))
  · exact next (ha.trans (by rw [loopStep_last _ h1 hc, loopStep_not _ h0]))
  · rw [← hless hd]
    exact next (ha.trans (by rw [loopStep_last _ h1 hc, loopStep_more _ h0 hd]))
  · exact next (ha.trans (by rw [loopStep_last _ h1 hc, loopStep_last _ h0 hd]))
  · rw [← hless hd]
    exact next (ha.trans (by rw [loopStep_not _ h1, loopStep_more _ h0 hd]))
  · exact next (ha.trans (by rw [loopStep_not _ h1, loopStep_last _ h0 hd]))

/-! ### Causes (R323, R324) -/

theorem lowestRaised_min {l : List Raised} (h : l ≠ []) :
    ∃ b ∈ l, lowestRaised l = some b ∧ ∀ z ∈ l, b.cap.slot ≤ z.cap.slot := by
  induction l with
  | nil => exact absurd rfl h
  | cons a r ih =>
    by_cases hr : r = []
    · subst hr; exact ⟨a, by simp, rfl, by simp⟩
    · obtain ⟨b, hb, e, hmin⟩ := ih hr
      simp only [lowestRaised, e]
      split
      · rename_i hlt
        exact ⟨b, List.mem_cons_of_mem _ hb, rfl, List.forall_mem_cons.2 ⟨Nat.le_of_lt hlt, hmin⟩⟩
      · rename_i hge
        have hle : a.cap.slot ≤ b.cap.slot := by omega
        exact ⟨a, List.mem_cons_self .., rfl,
          List.forall_mem_cons.2 ⟨Nat.le_refl _, fun z hz => Nat.le_trans hle (hmin z hz)⟩⟩

/-- The cause of the one lowest slot is taken. -/
theorem lowestRaised_unique {l : List Raised} {r : Raised} (hm : r ∈ l) (h : ∀ z ∈ l, z = r ∨ r.cap.slot < z.cap.slot) :
    lowestRaised l = some r := by
  obtain ⟨b, hb, e, hmin⟩ := lowestRaised_min (List.ne_nil_of_mem hm)
  rcases h b hb with rfl | hlt
  · exact e
  · have := hmin r hm; omega

theorem mem_insertSlot {e x : REnt} {l : List REnt} : x ∈ insertSlot e l ↔ x = e ∨ x ∈ l := by
  induction l with
  | nil => simp [insertSlot]
  | cons a r ih =>
    simp only [insertSlot]
    split
    · simp
    · simp only [List.mem_cons, ih]; tauto

theorem mem_insertSlots {x : REnt} (l acc : List REnt) :
    x ∈ l.foldl (fun l e => insertSlot e l) acc ↔ x ∈ l ∨ x ∈ acc := by
  induction l generalizing acc with
  | nil => simp
  | cons a r ih => simp only [List.foldl_cons, ih, mem_insertSlot, List.mem_cons]; tauto

theorem mem_insertRes {e x : Res} {l : List Res} : x ∈ insertRes e l ↔ x = e ∨ x ∈ l := by
  induction l with
  | nil => simp [insertRes]
  | cons a r ih =>
    simp only [insertRes]
    split
    · simp
    · simp only [List.mem_cons, ih]; tauto

theorem mem_sortRes {x : Res} (l : List Res) : x ∈ sortRes l ↔ x ∈ l := by
  have h : ∀ acc, x ∈ l.foldl (fun acc r => insertRes r acc) acc ↔ x ∈ l ∨ x ∈ acc := by
    induction l with
    | nil => simp
    | cons a r ih => intro acc; simp only [List.foldl_cons, ih, mem_insertRes, List.mem_cons]; tauto
  simpa [sortRes] using h []

section
variable (c : Ctx) (cx : Cx) (evec : Dword) (cause slot : Nat) (einfo epc : Dword) (ops : List REnt) (flight : List Res)

/-- A faulting operation is captured (R331). -/
theorem op_mem_enter {e : REnt} (h : e ∈ ops) : e ∈ (c.enter cx evec cause slot einfo epc ops flight).replay := by
  refine List.mem_cons_of_mem _ (List.mem_append_left _ ?_)
  refine (mem_insertSlots _ _).2 (.inl ?_)
  simp [h]

/-- A result in flight is captured, where no access waits (R331). -/
theorem res_mem_enter {r : Res} (h : r ∈ flight) (hc : r.pay.isCheck = false) (hd : c.delayed = []) :
    r.toEntry ∈ (c.enter cx evec cause slot einfo epc ops flight).replay := by
  refine List.mem_cons_of_mem _ (List.mem_append_right _ (List.mem_map_of_mem ?_))
  refine (mem_sortRes _).2 (List.mem_filter.2 ⟨h, ?_⟩)
  simp [hc, hd]

theorem enter_cause (h1 : cause < 256) (h2 : slot < 8) :
    (c.enter cx evec cause slot einfo epc ops flight).frame.cause.toNat = cause + slot * 256 := by
  show (BitVec.ofNat 11 (cause % 256 + slot % 8 * 256)).toNat = _
  rw [BitVec.toNat_ofNat]
  omega

end

/-- A cause in user mode outside a lane enters the monitor (R324). -/
theorem trap_user {s : State} {t : Nat} {cx : Cx} (hm : (s.ctx t cx).frame.mode = false) (hl : (s.ctx t cx).lane = none)
    (cause slot : Nat) (einfo epc : Dword) (ops : List REnt) (flight : List Res) :
    s.trap t cx cause slot einfo epc ops flight =
      s.putCtx t cx ((s.ctx t cx).enter cx (s.tile t).evec cause slot einfo epc ops flight) := by
  simp [State.trap, hm, hl]

/-- An END beside other causes than its own ends the task instead (log 17); without one the lowest slot's cause is taken. -/
theorem takeRaised_trap {i : Issue} {l : List Raised} {r : Raised} (h : lowestRaised l = some r)
    (he : i.endWord = none ∨ ∃ y ∈ l, y.cause = Cause.abheld ∨ y.cause = Cause.resid) (s : State) :
    s.takeRaised i l = s.trap i.tile i.cx r.cause r.cap.slot r.einfo (s.ctx i.tile i.cx).pos.pc (l.map Raised.toEntry)
      (s.ctx i.tile i.cx).inflight := by
  have hc : (i.endWord.isSome && !(s.ctx i.tile i.cx).frame.mode && !(s.ctx i.tile i.cx).lane.any (·.spec) &&
      l.all (fun y => y.cause != Cause.abheld && y.cause != Cause.resid)) = false := by
    rcases he with he | ⟨y, hy, hcause⟩
    · simp [he]
    · have : l.all (fun y => y.cause != Cause.abheld && y.cause != Cause.resid) = false :=
        List.all_eq_false.2 ⟨y, hy, by rcases hcause with e | e <;> simp [e]⟩
      simp [this]
  simp only [State.takeRaised, h, hc]
  rfl

theorem endUnlessRaised_raised {i : Issue} {l : List Raised} (h : l ≠ []) (s : State) : s.endUnlessRaised i l = s := by
  have h' : l.isEmpty = false := by simpa using h
  unfold State.endUnlessRaised
  split
  · rw [h']; rfl
  · rfl

/-- The context once the bundle has retired, and what may have changed beside. -/
def Ctx.retiredAs (c : Ctx) (i : Issue) (q : CtxQueues) (ph : Phase) (k : Clock) : Ctx :=
  { (c.retired i).setQueues q with phase := ph, clock := k, tick := c.tick + 1 }

/-- A bundle retires and is counted. -/
theorem State.Retires.counted {s : State} {i : Issue} {y : Tile} (h : s.Retires i y) (k : Clock) :
    ∃ q ph, (y.modCtx i.cx fun c => { c with clock := k, tick := c.tick + 1 }).ctx i.cx =
      (s.ctx i.tile i.cx).retiredAs i q ph k := by
  obtain ⟨q, ph, hc⟩ := h.ctx
  exact ⟨q, ph, by rw [Tile.ctx_modCtx, hc]; rfl⟩

/-- The causes of a bare bundle in user mode outside a lane: the lowest slot's is taken for the next position. -/
theorem commit_raised {s : State} {i : Issue} {r : Raised} (h : i.Bare) (hm : (s.ctx i.tile i.cx).frame.mode = false)
    (hl : (s.ctx i.tile i.cx).lane = none) (hr : lowestRaised (s.causes i) = some r)
    (he : i.endWord = none ∨ ∃ y ∈ s.causes i, y.cause = Cause.abheld ∨ y.cause = Cause.resid) :
    ∃ q ph k, let d := (s.ctx i.tile i.cx).retiredAs i q ph k
      (s.commit i).ctx i.tile i.cx = d.enter i.cx (s.tile i.tile).evec r.cause r.cap.slot r.einfo d.pos.pc
        ((s.causes i).map Raised.toEntry) d.inflight ∧
      ((∀ p ∈ i.pops, p.1 = true → p.2.1 ≤ 30) → (s.tile i.tile).Popped ((s.commit i).tile i.tile) i) := by
  have hne : s.causes i ≠ [] := by intro e; rw [e] at hr; cases hr
  have hq : (s.causes i).isEmpty = false := by simpa using hne
  obtain ⟨k, hk⟩ := beforeCauses_tile h (quiet := false) (by simp) s
  let u := (s.beforeCauses i false).count i
  have hu : u.tile i.tile = ((s.noted i).tile i.tile).modCtx i.cx fun c => { c with clock := k, tick := c.tick + 1 } :=
    (modCtx_tile _ _ _ _).trans (by rw [hk, modCtx_modCtx])
  have hs := noted_retires s i
  obtain ⟨q, ph, hd⟩ := hs.counted k
  have hc : u.ctx i.tile i.cx = (s.ctx i.tile i.cx).retiredAs i q ph k := by rw [← hd, ← hu]; rfl
  have hv : (u.tile i.tile).evec = (s.tile i.tile).evec := by rw [hu, Tile.modCtx_evec, hs.evec]
  have hy : (s.commit i).tile i.tile = (u.tile i.tile).putCtx i.cx ((u.ctx i.tile i.cx).enter i.cx (s.tile i.tile).evec
      r.cause r.cap.slot r.einfo (u.ctx i.tile i.cx).pos.pc ((s.causes i).map Raised.toEntry) (u.ctx i.tile i.cx).inflight) := by
    rw [commit_eq, hq]
    simp only [walked_noWalk h.noWalk, ask_tile, endUnlessRaised_raised hne]
    rw [takeRaised_trap hr he, trap_user (by rw [hc]; exact hm) (by rw [hc]; exact hl), ← hv]
    exact tile_putTile _ _ _
  refine ⟨q, ph, k, ?_, fun hp => ?_⟩
  · rw [← hc, State.ctx, hy, Tile.ctx_putCtx]
  · have hp' : (s.tile i.tile).Popped (u.tile i.tile) i := by rw [hu]; exact (hs.popped hp).modCtx rfl
    rw [hy]
    exact hp'.modCtx (f := fun c => c.enter ..) rfl

/-! ### END (R91) -/

/-- The queues that END checks, in their order. -/
def residueCodes : List (Bool × Nat) :=
  (List.range 29).map (fun k => (false, k)) ++ (List.range 24).map (fun k => (true, k)) ++ [(true, 28), (true, 29)]

/-- The context holds an entry in a queue that END checks. -/
def Ctx.holds (c : Ctx) (q : Bool × Nat) : Bool :=
  if q.1 then (if q.2 < 24 then !(rd c.regs.vq q.2 []).isEmpty else if q.2 = 28 then !c.regs.vld.isEmpty else !c.regs.kld.isEmpty)
  else !(rd c.regs.sq q.2 []).isEmpty

theorem residue_eq (c : Ctx) : c.residue =
    ((residueCodes.find? c.holds).map fun q => (q.1, q.2, false)).or
      ((residueCodes.find? fun q => c.inflight.any fun r => r.pay.queue == some q).map fun q => (q.1, q.2, true)) := rfl

theorem mem_residueCodes {q : Bool × Nat} (h : q ∈ residueCodes) :
    (q.1 = false ∧ q.2 ≤ 28) ∨ (q.1 = true ∧ (q.2 < 24 ∨ q.2 = 28 ∨ q.2 = 29)) := by
  simp only [residueCodes, List.mem_append, List.mem_map, List.mem_range, List.mem_cons, List.not_mem_nil, or_false] at h
  rcases h with (⟨k, hk, rfl⟩ | ⟨k, hk, rfl⟩) | rfl | rfl
  · exact .inl ⟨rfl, by omega⟩
  · exact .inr ⟨rfl, .inl hk⟩
  · exact .inr ⟨rfl, .inr (.inl rfl)⟩
  · exact .inr ⟨rfl, .inr (.inr rfl)⟩

theorem holds_scalar (c : Ctx) {k : Nat} (h : k ≤ 28) : c.holds (false, k) = !(c.squeue k).isEmpty := by
  have : k < 32 := by omega
  simp [Ctx.holds, Ctx.squeue, this]

theorem holds_vector (t : Tile) (cx : Cx) {k : Nat} (h : k < 24 ∨ k = 28 ∨ k = 29) :
    (t.ctx cx).holds (true, k) = !(t.vqueue cx k).isEmpty := by
  rcases h with h | rfl | rfl
  · simp [Ctx.holds, Tile.vqueue, h]
  · rfl
  · rfl

/-- A context without an entry and without a result for a queue leaves nothing behind. -/
theorem residue_none {t : Tile} {cx : Cx}
    (hs : ∀ k, k ≤ 28 → (t.ctx cx).squeue k = [] ∧ ∀ z ∈ (t.ctx cx).inflight, z.pay.queue ≠ some (false, k))
    (hv : ∀ k, k < 24 ∨ k = 28 ∨ k = 29 →
      t.vqueue cx k = [] ∧ ∀ z ∈ (t.ctx cx).inflight, z.pay.queue ≠ some (true, k)) :
    (t.ctx cx).residue = none := by
  have key : ∀ q ∈ residueCodes, (t.ctx cx).holds q = false ∧ ∀ z ∈ (t.ctx cx).inflight, z.pay.queue ≠ some q := by
    rintro ⟨b, k⟩ hq
    rcases mem_residueCodes hq with ⟨e, hk⟩ | ⟨e, hk⟩
    · obtain rfl : b = false := e
      obtain ⟨h1, h2⟩ := hs k hk
      exact ⟨by rw [holds_scalar _ hk, h1]; rfl, h2⟩
    · obtain rfl : b = true := e
      obtain ⟨h1, h2⟩ := hv k hk
      exact ⟨by rw [holds_vector t cx hk, h1]; rfl, h2⟩
  rw [residue_eq, List.find?_eq_none.2 fun q hq => by simp [(key q hq).1],
    List.find?_eq_none.2 fun q hq => by simpa using (key q hq).2]
  rfl

/-- The lowest scalar queue that holds an entry is what is left behind. -/
theorem residue_scalar {c : Ctx} {k : Nat} (hk : k ≤ 28) (h : c.squeue k ≠ []) (hl : ∀ j, j < k → c.squeue j = []) :
    c.residue = some (false, k, false) := by
  have hf : (List.range 29).find? (fun k => c.holds (false, k)) = some k := by
    refine List.find?_range_eq_some.2 ⟨?_, List.mem_range.2 (by omega), fun j hj => ?_⟩
    · rw [holds_scalar c hk]; simpa using h
    · rw [holds_scalar c (by omega), hl j hj]; rfl
  have : residueCodes.find? c.holds = some (false, k) := by
    simp only [residueCodes, List.find?_append, List.find?_map, Function.comp_def, hf]
    rfl
  rw [residue_eq, this]
  rfl

theorem endFault_none {t : Tile} {cx : Cx} (hb : t.banksHeld cx = 0) (hr : (t.ctx cx).residue = none) :
    t.endFault cx = none := by
  simp [Tile.endFault, hb, hr]

theorem endFault_banks {t : Tile} {cx : Cx} (hb : 0 < t.banksHeld cx) : t.endFault cx = some (Cause.abheld, t.heldInfo cx) := by
  have : t.banksHeld cx ≠ 0 := by omega
  simp [Tile.endFault, this]

theorem endFault_scalar {t : Tile} {cx : Cx} {k : Nat} (hb : t.banksHeld cx = 0)
    (hr : (t.ctx cx).residue = some (false, k, false)) : t.endFault cx = some (Cause.resid, BitVec.ofNat 64 k) := by
  simp [Tile.endFault, hb, hr, b2n]

theorem banksHeld_congr {t u : Tile} (h : u.banks = t.banks) (cx : Cx) : u.banksHeld cx = t.banksHeld cx := by
  simp only [Tile.banksHeld, Tile.bankOf, h]

/-- The first byte of ABHELD's detail word is the number of banks held. -/
theorem heldInfo_count (t : Tile) (cx : Cx) : fld (t.heldInfo cx) 0 8 = BitVec.ofNat 8 (t.banksHeld cx) := by
  apply BitVec.eq_of_toNat_eq
  simp only [Tile.heldInfo, BitVec.extractLsb'_toNat, BitVec.toNat_ofNat, Nat.shiftRight_zero]
  omega

theorem endUnlessRaised_end {i : Issue} {w : Dword} {h : SlotRec} (he : i.endWord = some (w, h)) (s : State) :
    s.endUnlessRaised i [] = s.takeEnd i w := by
  simp [State.endUnlessRaised, he]

theorem takeEnd_user {s : State} {i : Issue} (hm : (s.ctx i.tile i.cx).frame.mode = false) (w : Dword) :
    s.takeEnd i w = s.modCtx i.tile i.cx fun c => { c with life := .ended w } := by
  simp [State.takeEnd, hm]

/-- An END without a cause of its own ends the context. -/
theorem commit_end {s : State} {i : Issue} {w : Dword} {h : SlotRec} (hb : i.Bare) (he : i.endWord = some (w, h))
    (hr : i.raised = []) (ht : i.reti = false) (hm : (s.ctx i.tile i.cx).frame.mode = false)
    (hf : ((s.retire i).tile i.tile).endFault i.cx = none) : ∃ k, (s.commit i).tile i.tile =
      ((s.noted i).tile i.tile).modCtx i.cx fun c => { c with clock := k, tick := c.tick + 1, life := .ended w } := by
  have hc : s.causes i = [] := by simp [State.causes, State.endCause, he, hr, hf]
  obtain ⟨k, hk⟩ := beforeCauses_tile hb (quiet := true) (by simp [ht]) s
  have hu : ((s.beforeCauses i true).count i).tile i.tile =
      ((s.noted i).tile i.tile).modCtx i.cx fun c => { c with clock := k, tick := c.tick + 1 } :=
    (modCtx_tile _ _ _ _).trans (by rw [hk, modCtx_modCtx])
  have hm' : (((s.beforeCauses i true).count i).ctx i.tile i.cx).frame.mode = false := by
    obtain ⟨q, ph, hd⟩ := (noted_retires s i).counted k
    rw [State.ctx, hu, hd]
    exact hm
  refine ⟨k, ?_⟩
  simp only [commit_eq, hc, List.isEmpty_nil, walked_nil, takeRaised_nil, endUnlessRaised_end he, takeEnd_user hm', ask_tile,
    modCtx_tile, hu, modCtx_modCtx]

/-- An END in user mode with a cause of its own. -/
theorem causes_end {s : State} {i : Issue} {w : Dword} {h : SlotRec} {e : Nat × Dword} (he : i.endWord = some (w, h))
    (hr : i.raised = []) (hm : (s.ctx i.tile i.cx).frame.mode = false)
    (hf : ((s.retire i).tile i.tile).endFault i.cx = some e) : s.causes i = [⟨e.1, e.2, h, 0⟩] := by
  obtain ⟨q, ph, hq⟩ := (retire_retires s i).ctx
  have hm' : ((s.retire i).ctx i.tile i.cx).frame.mode = false := by rw [State.ctx, hq]; exact hm
  simp [State.causes, State.endCause, he, hr, hf, hm']

/-! ### What no commit touches -/

/-- Every memory, the partitions and the bundle in hand are as they were, and the context counts the same bundle. -/
structure State.Aside (i : Issue) (s u : State) : Prop where
  gddr : u.gddr = s.gddr
  host : u.host = s.host
  code : u.code = s.code
  parts : u.parts = s.parts
  issue : u.issue = s.issue
  tick : (u.ctx i.tile i.cx).tick = (s.ctx i.tile i.cx).tick

namespace State.Aside

theorem refl (i : Issue) (s : State) : s.Aside i s := ⟨rfl, rfl, rfl, rfl, rfl, rfl⟩

theorem trans {i : Issue} {s t u : State} (h : s.Aside i t) (h' : t.Aside i u) : s.Aside i u :=
  ⟨h'.gddr.trans h.gddr, h'.host.trans h.host, h'.code.trans h.code, h'.parts.trans h.parts, h'.issue.trans h.issue,
    h'.tick.trans h.tick⟩

theorem modCtx {i : Issue} {f : Ctx → Ctx} (s : State) (hf : ∀ c, (f c).tick = c.tick := by intro _; rfl) :
    s.Aside i (s.modCtx i.tile i.cx f) :=
  ⟨rfl, rfl, rfl, rfl, rfl, by rw [ctx_modCtx, hf]⟩

theorem putFlag (i : Issue) (s : State) (n : Nat) (f : Flag) : s.Aside i (s.modTile i.tile (·.putFlag n f)) := by
  refine ⟨rfl, rfl, rfl, rfl, rfl, ?_⟩
  rw [State.ctx, tile_modTile, State.ctx]
  cases i.cx <;> rfl

theorem noteTrap (i : Issue) (s : State) : s.Aside i (s.noteTrap i) := by
  unfold State.noteTrap
  split
  · exact trans (t := s.next.2) ⟨rfl, rfl, rfl, rfl, rfl, rfl⟩ (modCtx _)
  · exact refl i s

theorem testWait (i : Issue) (s : State) (w : WaitFor) : s.Aside i (s.testWait i.tile i.cx w).1 := by
  cases w with
  | flag f k =>
    simp only [State.testWait]
    split
    · exact putFlag i s _ _
    · exact refl i s
  | counters l o c m => exact refl i s

theorem startWait (i : Issue) (s : State) : s.Aside i (s.startWait i).1 := by
  unfold State.startWait
  split
  · dsimp only
    split
    · exact testWait i s _
    · exact trans (testWait i s _) (State.Aside.modCtx (f := fun c => { c with wait := _ }) _)
  · exact refl i s

theorem returns (i : Issue) (s : State) (quiet : Bool) : s.Aside i (s.returns i quiet) := by
  unfold State.returns
  split
  · exact modCtx s
  · exact refl i s

theorem delayBundle (i : Issue) (s : State) : s.Aside i (s.delayBundle i) := by
  rw [delayBundle_eq]
  refine trans (t := (s.delayRequest i).2) ?_ (modCtx _)
  unfold State.delayRequest
  split
  · exact refl i s
  · exact ⟨rfl, rfl, rfl, rfl, rfl, rfl⟩

theorem markPhase (i : Issue) (s : State) : s.Aside i (s.markPhase i) := by
  unfold State.markPhase State.phaseCommit
  split
  · split
    · exact modCtx s
    · exact ⟨rfl, rfl, rfl, rfl, rfl, rfl⟩
  · exact refl i s

theorem joinLearned (i : Issue) (s : State) (k : Clock) : s.Aside i (s.joinLearned i k) := modCtx s

/-- The poison of a lane leaves the number of the bundle (R298). -/
theorem poisonLane (i : Issue) (s : State) (l : Lane) (cause t : Nat) : s.Aside i (s.poisonLane l cause t) := by
  refine ⟨rfl, rfl, rfl, rfl, rfl, ?_⟩
  have e := aget_mapVal s.tiles (fun x : Tile => if x.p.inLane l then { x with p := x.p.poison } else x) i.tile (d := {}) rfl
  have e' : (s.poisonLane l cause t).tile i.tile = _ := Eq.trans
    (congrArg (fun l : List (Nat × Tile) => aget l i.tile ({} : Tile)) (List.map_congr_left fun x _ => by split <;> rfl)) e
  rw [State.ctx, e']
  show (Tile.ctx (if (s.tile i.tile).p.inLane l then { s.tile i.tile with p := (s.tile i.tile).p.poison } else s.tile i.tile)
    i.cx).tick = _
  split
  · cases i.cx <;> rfl
  · rfl

theorem trap (i : Issue) (s : State) (cause slot : Nat) (einfo epc : Dword) (ops : List REnt) (flight : List Res) :
    s.Aside i (s.trap i.tile i.cx cause slot einfo epc ops flight) := by
  unfold State.trap
  dsimp only
  split
  · exact poisonLane i s _ _ _
  · split
    · exact trans (t := s.modCtx i.tile i.cx (·.fail Cause.mchk)) (modCtx s) ⟨rfl, rfl, rfl, rfl, rfl, rfl⟩
    · exact modCtx (f := fun c => c.enter ..) s

theorem takeRaised {i : Issue} (he : i.endWord = none) (s : State) (l : List Raised) : s.Aside i (s.takeRaised i l) := by
  cases h : lowestRaised l with
  | none => rw [State.takeRaised, h]; exact refl i s
  | some r => rw [takeRaised_trap h (.inl he)]; exact trap i s _ _ _ _ _ _

theorem ask (i : Issue) (s : State) : s.Aside i (s.ask i) := by
  unfold State.ask
  obtain h | ⟨q, h⟩ := seqAsk_frame s i.tile s.now
  · rw [h]; exact refl i s
  · rw [h]; exact ⟨rfl, rfl, rfl, rfl, rfl, rfl⟩

/-- All that comes before the causes. -/
theorem beforeCauses (i : Issue) (s : State) (quiet : Bool) : (s.noted i).Aside i (s.beforeCauses i quiet) :=
  (noteTrap i _).trans <| (startWait i _).trans <| (returns i _ quiet).trans <| (delayBundle i _).trans <|
    (markPhase i _).trans (joinLearned i _ _)

end State.Aside

/-- A bundle without an END and without a walk that decides at its end leaves every memory and partition; it is no longer in
hand, and it has been counted. -/
theorem commit_aside {i : Issue} (he : i.endWord = none) (hw : ∀ z ∈ i.delayed, z.why ≠ .walk) (s : State) :
    let u := s.commit i
    u.issue = none ∧ u.gddr = s.gddr ∧ u.host = s.host ∧ u.code = s.code ∧ u.parts = s.parts ∧
      (u.ctx i.tile i.cx).tick = (s.ctx i.tile i.cx).tick + 1 := by
  have hb := State.Aside.beforeCauses i s (s.causes i).isEmpty
  have ha := (State.Aside.takeRaised he ((s.beforeCauses i (s.causes i).isEmpty).count i) (s.causes i)).trans (.ask i _)
  have hu : s.commit i = (((s.beforeCauses i (s.causes i).isEmpty).count i).takeRaised i (s.causes i)).ask i := by
    simp only [commit_eq, walked_noWalk hw, endUnlessRaised_none he]
  have ht : ((s.noted i).ctx i.tile i.cx).tick = (s.ctx i.tile i.cx).tick := by
    obtain ⟨q, ph, hq⟩ := (noted_retires s i).ctx
    rw [State.ctx, hq]
    rfl
  rw [← hu] at ha
  refine ⟨ha.issue.trans hb.issue, ha.gddr.trans hb.gddr, ha.host.trans hb.host, ha.code.trans hb.code,
    ha.parts.trans hb.parts, ha.tick.trans ?_⟩
  rw [State.count, ctx_modCtx, hb.tick, ht]

/-! ### The clauses of a commit -/

/-- What a bundle leaves of its context whatever its results (R8, R76). -/
theorem retiredAs_frame (c : Ctx) (i : Issue) (q : CtxQueues) (ph : Phase) (k : Clock) :
    let d := c.retiredAs i q ph k
    d.regs.cyc = c.regs.cyc + 1 ∧ d.frame = c.frame ∧ d.life = c.life ∧ d.wait = c.wait ∧ d.faults = c.faults ∧
      d.delayed = c.delayed ∧ d.om = c.om ∧ d.oc = c.oc ∧ d.os = c.os ∧ d.ol = c.ol ∧ d.pos.t1 = c.pos.t2 ∧
      d.pos.t2 = i.target.or c.pos.t3 ∧ d.pos.t3 = none ∧ d.pos.annul = (if i.annulNext then 2 else c.pos.annul - 1) := by
  refine ⟨?_, rfl, rfl, rfl, rfl, rfl, rfl, rfl, rfl, rfl, rfl, rfl, rfl, rfl⟩
  show (c.targetRegs i).cyc + 1 = _
  rw [targetRegs_cyc]

/-- The context after a bare bundle without a cause, an END and a RETI. -/
theorem commit_bare {i : Issue} (h : i.Bare) (he : i.endWord = none) (hr : i.raised = []) (ht : i.reti = false) (s : State) :
    ∃ q ph k, (s.commit i).ctx i.tile i.cx = (s.ctx i.tile i.cx).retiredAs i q ph k ∧
      ((∀ p ∈ i.pops, p.1 = true → p.2.1 ≤ 30) → (s.tile i.tile).Popped ((s.commit i).tile i.tile) i) := by
  obtain ⟨k, hk⟩ := commit_tile_bare h he hr ht s
  have hs := noted_retires s i
  obtain ⟨q, ph, hd⟩ := hs.counted k
  refine ⟨q, ph, k, ?_, fun hp => ?_⟩
  · rw [State.ctx, hk, hd]
  · rw [hk]; exact (hs.popped hp).modCtx rfl

/-- The context after a bare bundle that returns from a trap (R88). -/
theorem commit_reti {i : Issue} (h : i.Bare) (he : i.endWord = none) (hr : i.raised = []) (ht : i.reti = true) (s : State) :
    let c := s.ctx i.tile i.cx
    let d := (s.commit i).ctx i.tile i.cx
    ((∀ p ∈ i.pops, p.1 = true → p.2.1 ≤ 30) → (s.tile i.tile).Popped ((s.commit i).tile i.tile) i) ∧
      d.frame.mode = c.frame.pmode ∧ d.frame.ie = true ∧ d.pos = c.frame.resume ∧ d.regs.cyc = c.regs.cyc + 1 ∧
      d.regs.loops = c.regs.loops := by
  intro c d
  obtain ⟨k, hk⟩ := commit_tile_reti h he hr ht s
  have hs := noted_retires s i
  obtain ⟨q, ph, hc⟩ := hs.ctx
  have hd : d = { ({ (c.retired i).setQueues q with phase := ph } : Ctx).reti with clock := k, tick := c.tick + 1 } := by
    show ((s.commit i).tile i.tile).ctx i.cx = _
    rw [hk, Tile.ctx_modCtx, hc]
    rfl
  have hy : (s.tile i.tile).Popped ((s.noted i).tile i.tile) i → (s.tile i.tile).Popped ((s.commit i).tile i.tile) i := by
    intro hp; rw [hk]; exact hp.modCtx rfl
  rw [hd]
  refine ⟨fun hp => hy (hs.popped hp), rfl, rfl, rfl, ?_, retired_loops (.inr ht)⟩
  show (c.targetRegs i).cyc + 1 = _
  rw [targetRegs_cyc]

/-! ### Waits, TRAP, delayed accesses and the phase -/

@[simp] theorem modCtx_flag (t : Tile) (cx : Cx) (f : Ctx → Ctx) (n : Nat) : (t.modCtx cx f).flag n = t.flag n := by
  simp only [Tile.flag, Tile.modCtx_flags]

theorem flag_putFlag {t : Tile} {n : Nat} (h : n < 16) (f : Flag) : (t.putFlag n f).flag n = f := by
  simp [Tile.flag, Tile.putFlag, rd_wr, h]

@[simp] theorem ctx_putFlag (t : Tile) (n : Nat) (f : Flag) (cx : Cx) : (t.putFlag n f).ctx cx = t.ctx cx := by
  cases cx <;> rfl

/-- A wait whose test succeeds is over. -/
theorem startWait_met {s u : State} {i : Issue} {w : WaitFor} {h : SlotRec} {k : Clock} (hw : i.wait = some (w, h))
    (ht : s.testWait i.tile i.cx w = (u, true, k)) : s.startWait i = (u, k) := by
  simp only [State.startWait, hw, ht, if_true]

/-- A wait whose test fails stays. -/
theorem startWait_unmet {s u : State} {i : Issue} {w : WaitFor} {h : SlotRec} {k : Clock} (hw : i.wait = some (w, h))
    (ht : s.testWait i.tile i.cx w = (u, false, k)) :
    s.startWait i = (u.modCtx i.tile i.cx fun c => { c with wait := some (w, h) }, []) := by
  simp only [State.startWait, hw, ht]
  rfl

section
variable {s : State} {t : Nat} {cx : Cx} {n k : Nat}

theorem testWait_ready (h : ((s.tile t).flag n).ready k = true) : s.testWait t cx (.flag n k) =
    (s.modTile t (·.putFlag n (((s.tile t).flag n).take k)), true, ((s.tile t).flag n).clock) := by
  simp only [State.testWait, h, if_true]

theorem testWait_notReady (h : ((s.tile t).flag n).ready k = false) : s.testWait t cx (.flag n k) = (s, false, []) := by
  simp only [State.testWait, h]
  rfl

end

/-- The phase after a commit holds the context as it stands (R358). -/
theorem markPhase_commits {s : State} {i : Issue} (hm : i.commit = true) (h : (s.tile i.tile).commits i.cx = true) :
    ∃ p : Ctx → Phase, ((s.markPhase i).tile i.tile = (s.tile i.tile).modCtx i.cx fun c => { c with phase := p c }) ∧
      ∀ c, ∃ z, (p c).snap = some z ∧ z.regs = c.regs ∧ z.pos = c.pos ∧ z.frame = c.frame ∧
        z.inflight = c.inflight.filter fun r => !r.pay.isCheck := by
  simp only [State.markPhase, hm, State.phaseCommit, h, if_true, modCtx_tile]
  exact ⟨_, rfl, fun c => ⟨_, rfl, rfl, rfl, rfl, rfl⟩⟩

/-- A commit that finds its conditions unmet is logged (R357). -/
theorem markPhase_logged {s : State} {i : Issue} (hm : i.commit = true) (h : (s.tile i.tile).commits i.cx = false) :
    s.markPhase i = s.logEvent 0x357 (i.tile * 2 + i.cx.num) := by
  simp only [State.markPhase, hm, State.phaseCommit, h, if_true]
  rfl

section
variable {s : State} {i : Issue} (he : i.endWord = none) (hr : i.raised = []) (ht : i.reti = false)
include he hr ht

/-- The tile after a bundle that has noted a wait alone. -/
theorem commit_tile_wait (htr : i.trap = none) (hd : i.delayed = []) (hc : i.commit = false) : ∃ k, (s.commit i).tile i.tile =
    (((s.noted i).startWait i).1.tile i.tile).modCtx i.cx fun c => { c with clock := k, tick := c.tick + 1 } := by
  obtain ⟨k, hk⟩ := commit_tile_quiet he hr ht s
  rw [noteTrap_none htr, markPhase_not hc, delayBundle_tile_none hd] at hk
  exact ⟨k, hk⟩

/-- A wait on a flag takes its count, or stays (R102). -/
theorem commit_flag (htr : i.trap = none) (hd : i.delayed = []) (hc : i.commit = false) {n k : Nat} {h : SlotRec} (hn : n < 16)
    (hw : i.wait = some (.flag n k, h)) :
    let c := s.ctx i.tile i.cx
    let d := (s.commit i).ctx i.tile i.cx
    let f := (s.tile i.tile).flag n
    let g := ((s.commit i).tile i.tile).flag n
    ((BitVec.ofNat 32 k).sle f.value = true → g.value = f.value - BitVec.ofNat 32 k ∧ g.gen = f.gen ∧ d.wait = c.wait) ∧
      ((BitVec.ofNat 32 k).sle f.value = false → g.value = f.value ∧ d.wait = some (.flag n k, h)) := by
  intro c d f g
  obtain ⟨l, hl⟩ := commit_tile_wait (s := s) he hr ht htr hd hc
  have hs := noted_retires s i
  obtain ⟨q, ph, hctx⟩ := hs.ctx
  obtain ⟨hv, hg⟩ := hs.flags n
  let z := (s.noted i).tile i.tile
  have hready : (z.flag n).ready k = (BitVec.ofNat 32 k).sle f.value := congrArg _ hv
  refine ⟨fun hk => ?_, fun hk => ?_⟩
  · have hw' : ((s.noted i).startWait i).1.tile i.tile = z.putFlag n ((z.flag n).take k) := by
      rw [startWait_met hw (testWait_ready (hready.trans hk))]
      exact tile_modTile _ _ _
    rw [hw'] at hl
    have hgf : g = (z.flag n).take k := by
      show Tile.flag _ n = _
      rw [hl, modCtx_flag, flag_putFlag hn]
    have hdw : d.wait = (z.ctx i.cx).wait := by
      show (Tile.ctx _ i.cx).wait = _
      rw [hl, Tile.ctx_modCtx, ctx_putFlag]
    rw [hgf, hdw, hctx]
    exact ⟨congrArg (· - BitVec.ofNat 32 k) hv, hg, rfl⟩
  · have hw' : ((s.noted i).startWait i).1.tile i.tile = z.modCtx i.cx fun c => { c with wait := some (.flag n k, h) } := by
      rw [startWait_unmet hw (testWait_notReady (hready.trans hk))]
      exact modCtx_tile _ _ _ _
    rw [hw'] at hl
    have hgf : g = z.flag n := by
      show Tile.flag _ n = _
      rw [hl, modCtx_flag, modCtx_flag]
    have hdw : d.wait = some (.flag n k, h) := by
      show (Tile.ctx _ i.cx).wait = _
      rw [hl, Tile.ctx_modCtx, Tile.ctx_modCtx]
    exact ⟨by rw [hgf]; exact hv, hdw⟩

/-- A wait on counters stays while one of them is above its bound (R105). -/
theorem commit_counters (htr : i.trap = none) (hd : i.delayed = []) (hc : i.commit = false) {l o q m : Nat} {h : SlotRec}
    (hw : i.wait = some (.counters l o q m, h)) :
    let c := s.ctx i.tile i.cx
    let d := (s.commit i).ctx i.tile i.cx
    let met := c.ol.toNat ≤ l ∧ c.os.toNat ≤ o ∧ c.oc.toNat ≤ q ∧ c.om.toNat ≤ m
    (met → d.wait = c.wait) ∧ (¬ met → d.wait = some (.counters l o q m, h)) := by
  intro c d met
  obtain ⟨k, hk⟩ := commit_tile_wait (s := s) he hr ht htr hd hc
  obtain ⟨qs, ph, hctx⟩ := (noted_retires s i).ctx
  let z := (s.noted i).ctx i.tile i.cx
  have hz : z = { (c.retired i).setQueues qs with phase := ph } := hctx
  have hmet : z.counted l o q m = decide met := by
    rw [hz]
    simp only [met, Bool.decide_and, ← Bool.and_assoc]
    rfl
  have hd' : d.wait = (((s.noted i).startWait i).1.ctx i.tile i.cx).wait := by
    show (Tile.ctx _ i.cx).wait = _
    rw [hk, Tile.ctx_modCtx]; rfl
  have htest : (s.noted i).testWait i.tile i.cx (.counters l o q m) = (s.noted i, decide met, []) :=
    congrArg (fun b => (s.noted i, b, [])) hmet
  refine ⟨fun hm => ?_, fun hm => ?_⟩
  · rw [hd', startWait_met hw (by rw [htest, decide_eq_true hm])]
    show z.wait = _
    rw [hz]; rfl
  · rw [hd', startWait_unmet hw (by rw [htest, decide_eq_false hm]), ctx_modCtx]

/-- TRAP is due before a later bundle (R89, log 55). -/
theorem commit_trap (hw : i.wait = none) (hd : i.delayed = []) (hc : i.commit = false) {n : Nat} {v : Dword}
    (htr : i.trap = some (n, v)) :
    ((s.commit i).ctx i.tile i.cx).faults = (s.ctx i.tile i.cx).faults ++ [⟨s.fresh, Cause.trap, n, v⟩] := by
  obtain ⟨k, hk⟩ := commit_tile_quiet he hr ht s
  rw [startWait_none hw, markPhase_not hc, delayBundle_tile_none hd] at hk
  obtain ⟨q, ph, hctx⟩ := (noted_retires s i).ctx
  have hn : ((s.noted i).noteTrap i).tile i.tile = ((s.noted i).tile i.tile).modCtx i.cx fun c =>
      { c with faults := c.faults ++ [⟨s.fresh, Cause.trap, n, v⟩] } := by
    simp only [State.noteTrap, htr, modCtx_tile]
    rfl
  rw [State.ctx, hk, hn, Tile.ctx_modCtx, Tile.ctx_modCtx, hctx]
  rfl

/-- The accesses that the bundle has delayed stand behind those that are there. -/
theorem commit_delayed (htr : i.trap = none) (hw : i.wait = none) (hc : i.commit = false) :
    ((s.commit i).ctx i.tile i.cx).delayed =
      (s.ctx i.tile i.cx).delayed ++ i.delayed.map (i.delayNoted ((s.noted i).delayRequest i).1) := by
  obtain ⟨k, hk⟩ := commit_tile_quiet he hr ht s
  rw [noteTrap_none htr, startWait_none hw, markPhase_not hc, delayBundle_tile] at hk
  obtain ⟨q, ph, hctx⟩ := (noted_retires s i).ctx
  rw [State.ctx, hk, Tile.ctx_modCtx, Tile.ctx_modCtx, hctx]
  rfl

/-- Absent segments make one request, for which the accesses to them wait (R242, R248). -/
theorem commit_request (htr : i.trap = none) (hw : i.wait = none) (hc : i.commit = false) (ha : i.absent ≠ []) :
    ∃ q ∈ ((s.commit i).cluster (clusterOf i.tile)).reqs, q.id = ((s.noted i).delayRequest i).1 ∧ q.kind = 0 ∧
      q.members = i.absent ∧ q.tile = i.tile ∧ q.cx = i.cx := by
  obtain ⟨q, hq, hrest⟩ := delayRequest_asks ha (s.noted i)
  refine ⟨q, ?_, hrest⟩
  rw [commit_quiet hr he]
  refine mem_reqs_ask ?_
  have hn : (i.reti && true) = false := by simp [ht]
  simp only [State.count, State.beforeCauses, noteTrap_none htr, startWait_none hw, returns_not hn, markPhase_not hc,
    State.joinLearned, delayBundle_eq]
  exact hq

end

/-- The conditions of a phase commit read registers, results in flight, banks and om (R357). -/
theorem commits_modCtx {t : Tile} {cx : Cx} {f : Ctx → Ctx} (hr : (f (t.ctx cx)).regs = (t.ctx cx).regs)
    (hf : (f (t.ctx cx)).inflight = (t.ctx cx).inflight) (ho : (f (t.ctx cx)).om = (t.ctx cx).om) :
    (t.modCtx cx f).commits cx = t.commits cx := by
  simp only [Tile.commits, Tile.ctx_modCtx, hr, hf, ho, banksHeld_congr (Tile.modCtx_banks t cx f)]

theorem delayBundle_ensign (s : State) (i : Issue) : (s.delayBundle i).ensign = s.ensign := by
  rw [delayBundle_eq, modCtx_ensign]
  unfold State.delayRequest
  split <;> rfl

theorem delayBundle_ptime (s : State) (i : Issue) : (s.delayBundle i).ptime = s.ptime := by
  rw [delayBundle_eq, modCtx_ptime]
  unfold State.delayRequest
  split <;> rfl

/-- A bundle with a phase commit saves its context as it stands for the next bundle, or is logged (R357, R358). -/
theorem commit_phase {s : State} {i : Issue} (hm : i.commit = true) (he : i.endWord = none) (hr : i.raised = [])
    (ht : i.reti = false) (htr : i.trap = none) (hw : i.wait = none) :
    let u := s.commit i
    let y := u.tile i.tile
    let d := u.ctx i.tile i.cx
    (y.commits i.cx = true → ∃ z, d.phase.snap = some z ∧ z.regs = d.regs ∧ z.pos = d.pos ∧ z.frame = d.frame ∧
      z.inflight = d.inflight.filter fun r => !r.pay.isCheck) ∧
    (y.commits i.cx = false → u.ensign.log = s.ensign.log ++ [(s.ptime.toNat, 0x357, i.tile * 2 + i.cx.num)]) := by
  intro u y d
  let v := (s.noted i).delayBundle i
  have hn : (i.reti && true) = false := by simp [ht]
  obtain ⟨k, hk⟩ := commit_tile_quiet he hr ht s
  rw [noteTrap_none htr, startWait_none hw] at hk
  cases hy : (v.tile i.tile).commits i.cx with
  | true =>
    obtain ⟨p, hp1, hp2⟩ := markPhase_commits hm hy
    rw [hp1, modCtx_modCtx] at hk
    have hyy : y.commits i.cx = true := (congrArg (·.commits i.cx) hk).trans ((commits_modCtx rfl rfl rfl).trans hy)
    have hd : d = { v.ctx i.tile i.cx with
        phase := p (v.ctx i.tile i.cx), clock := k, tick := (v.ctx i.tile i.cx).tick + 1 } := by
      show Tile.ctx _ i.cx = _
      rw [hk, Tile.ctx_modCtx]
      rfl
    refine ⟨fun _ => ?_, fun h => absurd (hyy.symm.trans h) (by decide)⟩
    rw [hd]
    exact hp2 _
  | false =>
    have hlog := markPhase_logged hm hy
    rw [hlog, logEvent_tile] at hk
    have hyy : y.commits i.cx = false := (congrArg (·.commits i.cx) hk).trans ((commits_modCtx rfl rfl rfl).trans hy)
    refine ⟨fun h => absurd (hyy.symm.trans h) (by decide), fun _ => ?_⟩
    have hens : u.ensign = (v.logEvent 0x357 (i.tile * 2 + i.cx.num)).ensign := by
      show (s.commit i).ensign = _
      rw [commit_quiet hr he, ask_ensign]
      simp only [State.count, State.beforeCauses, noteTrap_none htr, startWait_none hw, returns_not hn, State.joinLearned,
        modCtx_ensign]
      exact congrArg State.ensign hlog
    rw [hens]
    show v.ensign.log ++ [(v.ptime.toNat, _, _)] = _
    rw [delayBundle_ensign, delayBundle_ptime]
    rfl

/-! ### END's checks on the bundle that has retired -/

theorem queue_inFlight {c : Ctx} {l : List Res} {q : Option (Bool × Nat)} (h : ∀ z ∈ c.inflight ++ l, z.pay.queue ≠ q) :
    ∀ z ∈ c.inFlight l, z.pay.queue ≠ q := by
  intro z hz
  rcases List.mem_append.1 hz with hz | hz
  · exact h z (List.mem_append_left _ hz)
  · obtain ⟨r, hr, rfl⟩ := List.mem_map.1 hz
    exact h r (List.mem_append_right _ hr)

theorem retired_inflight {c : Ctx} {i : Issue} (h0 : ¬ c.regs.EndsAt i.addr c.frame.mode 0)
    (h1 : ¬ c.regs.EndsAt i.addr c.frame.mode 1) : (c.retired i).inflight = c.inFlight i.out := by
  simp [Ctx.retired, loopAction_not h0 h1]

section
variable {s : State} {i : Issue} {y : Tile} (h : s.Retires i y) (hp : ∀ p ∈ i.pops, p.1 = true → p.2.1 ≤ 30)
include h hp

/-- Nothing is left behind where the pops empty every queue and no result is on its way to one. -/
theorem State.Retires.residue_none (h0 : ¬ (s.ctx i.tile i.cx).regs.EndsAt i.addr (s.ctx i.tile i.cx).frame.mode 0)
    (h1 : ¬ (s.ctx i.tile i.cx).regs.EndsAt i.addr (s.ctx i.tile i.cx).frame.mode 1)
    (hs : ∀ k, k ≤ 28 → ((s.ctx i.tile i.cx).squeue k).drop (popsGone i.pops false k) = [] ∧
      ∀ z ∈ (s.ctx i.tile i.cx).inflight ++ i.out, z.pay.queue ≠ some (false, k))
    (hv : ∀ k, k < 24 ∨ k = 28 ∨ k = 29 → ((s.tile i.tile).vqueue i.cx k).drop (popsGone i.pops true k) = [] ∧
      ∀ z ∈ (s.ctx i.tile i.cx).inflight ++ i.out, z.pay.queue ≠ some (true, k)) : (y.ctx i.cx).residue = none := by
  obtain ⟨q, ph, hc⟩ := h.ctx
  obtain ⟨ps, pv⟩ := h.popped hp
  have hf : (y.ctx i.cx).inflight = (s.ctx i.tile i.cx).inFlight i.out := by rw [hc]; exact retired_inflight h0 h1
  refine Machine.residue_none (fun k hk => ?_) fun k hk => ?_
  · obtain ⟨a, b⟩ := hs k hk
    rw [hf]
    exact ⟨(ps k).trans a, queue_inFlight b⟩
  · obtain ⟨a, b⟩ := hv k hk
    rw [hf]
    exact ⟨(pv k (by omega)).trans a, queue_inFlight b⟩

/-- The lowest scalar queue that the pops leave with an entry is what is left behind. -/
theorem State.Retires.residue_scalar {k : Nat} (hk : k ≤ 28)
    (hs : ((s.ctx i.tile i.cx).squeue k).drop (popsGone i.pops false k) ≠ [])
    (hl : ∀ j, j < k → ((s.ctx i.tile i.cx).squeue j).drop (popsGone i.pops false j) = []) :
    (y.ctx i.cx).residue = some (false, k, false) := by
  obtain ⟨ps, -⟩ := h.popped hp
  exact Machine.residue_scalar hk (by rw [ps k]; exact hs) fun j hj => (ps j).trans (hl j hj)

end

/-- An END that meets a cause of its own in user mode takes it at its slot (R91). -/
theorem commit_endCause {s : State} {i : Issue} {w : Dword} {h : SlotRec} {cause : Nat} {einfo : Dword} (hb : i.Bare)
    (he : i.endWord = some (w, h)) (hr : i.raised = []) (hm : (s.ctx i.tile i.cx).frame.mode = false)
    (hl : (s.ctx i.tile i.cx).lane = none) (hslot : h.slot < 8) (hcause : cause = Cause.abheld ∨ cause = Cause.resid)
    (hf : ((s.retire i).tile i.tile).endFault i.cx = some (cause, einfo)) :
    let d := (s.commit i).ctx i.tile i.cx
    d.frame.cause.toNat = cause + h.slot * 256 ∧ d.frame.einfo = einfo ∧ d.frame.mode = true := by
  have hc := causes_end he hr hm hf
  obtain ⟨q, ph, k, hd, -⟩ := commit_raised (r := ⟨cause, einfo, h, 0⟩) hb hm hl (by rw [hc]; rfl)
    (.inr ⟨_, by rw [hc]; exact List.mem_singleton.2 rfl, hcause⟩)
  have hlt : cause < 256 := by rcases hcause with rfl | rfl <;> decide
  rw [hd]
  exact ⟨enter_cause _ _ _ _ _ _ _ _ _ hlt hslot, rfl, rfl⟩

/-! ### The obligation -/

/-- Settles O48, by the stages of a commit: what a bundle retires (`noted_retires`), then for each clause the one stage that it
speaks of, the others being without occasion. -/
theorem bundlesCommit : Obligations.BundlesCommit := by
  unfold Obligations.BundlesCommit
  intro s i h1 h2 h3 h4 hp
  have hu : s.settle = s.commit i := settle_eq_commit h1 h2 h3 h4
  rw [hu]
  intro c u d x y gone left leftV popped seq set at_ lc flight quiet plain user taken
  refine ⟨fun he hw => commit_aside he hw s, ?_, ?_, ?_, ?_, ?_, ?_, ?_, ?_⟩
  · rintro ⟨he, htr, hw, hde, ha, hc⟩ ⟨hr, ht⟩
    obtain ⟨q, ph, k, hd, hpop⟩ := commit_bare ⟨htr, hw, hde, ha, hc⟩ he hr ht s
    have hd : d = c.retiredAs i q ph k := hd
    obtain ⟨f1, f2, f3, f4, f5, f6, f7, f8, f9, f10, f11, f12, f13, f14⟩ := retiredAs_frame c i q ph k
    refine ⟨hpop hp, ?_⟩
    rw [hd]
    refine ⟨f1, f2, f3, f4, f5, f6, f7, f8, f9, f10, f11, f12, f13, f14, fun a hta => ?_, fun hno => ?_⟩
    · obtain ⟨g1, g2, g3⟩ := retired_target (i := i) hta
      exact ⟨g1, g2, g3, fun n hn => retired_target_loops hta ht hn⟩
    · exact ⟨retired_loops (.inl hno), retired_sequence hno⟩
  · rintro r hm hmin ⟨he, htr, hw, hde, ha, hc⟩ ⟨hmode, hlane⟩ hdel hcause hslot n0 n1
    have hcs : s.causes i = i.raised := causes_noEnd he s
    obtain ⟨q, ph, k, hd, hpop⟩ := commit_raised (s := s) ⟨htr, hw, hde, ha, hc⟩ hmode hlane
      (by rw [hcs]; exact lowestRaised_unique hm hmin) (.inl he)
    rw [hcs] at hd
    let b := c.retiredAs i q ph k
    have hd : d = b.enter i.cx x.evec r.cause r.cap.slot r.einfo b.pos.pc (i.raised.map Raised.toEntry) b.inflight := hd
    have hcyc : b.regs.cyc = c.regs.cyc + 1 := (retiredAs_frame c i q ph k).1
    refine ⟨?_, hpop hp, ?_, fun z hz => ?_, fun z hz hzc => ?_⟩
    · show d.frame.cause.toNat = _ ∧ _
      rw [hd]
      exact ⟨enter_cause _ _ _ _ _ _ _ _ _ hcause hslot, rfl, retired_pc n0 n1, rfl, hmode, rfl, rfl, rfl, rfl⟩
    · rw [hd]; exact hcyc
    · rw [hd]; exact op_mem_enter _ _ _ _ _ _ _ _ _ (List.mem_map_of_mem hz)
    · rw [hd]; exact res_mem_enter _ _ _ _ _ _ _ _ _ (List.mem_append_left _ hz) hzc hdel
  · rintro ⟨he, htr, hw, hde, ha, hc⟩ hr ht
    obtain ⟨hpop, hrest⟩ := commit_reti ⟨htr, hw, hde, ha, hc⟩ he hr ht s
    exact ⟨hpop hp, hrest⟩
  · rintro w h he ⟨hr, ht⟩ htr hw hde ha hc ⟨hmode, hlane⟩ n0 n1 held stands standsV
    have hb : i.Bare := ⟨htr, hw, hde, ha, hc⟩
    have hret := retire_retires s i
    have hbanks : ((s.retire i).tile i.tile).banksHeld i.cx = held := banksHeld_congr hret.banks i.cx
    refine ⟨fun h0 hs hv => ?_, fun hpos hslot => ?_, fun k h0 hk hne hlow hslot => ?_⟩
    · have hf := endFault_none (hbanks.trans h0) (hret.residue_none hp n0 n1 hs hv)
      obtain ⟨k, hk⟩ := commit_end hb he hr ht hmode hf
      have hy : y = _ := hk
      refine ⟨?_, ?_⟩
      · show (y.ctx i.cx).life = _
        rw [hy, Tile.ctx_modCtx]
      · show x.Popped y i
        rw [hy]
        exact ((noted_retires s i).popped hp).modCtx rfl
    · have hf := endFault_banks (hpos.trans_eq hbanks.symm)
      obtain ⟨g1, g2, g3⟩ := commit_endCause hb he hr hmode hlane hslot (.inl rfl) hf
      refine ⟨g1, ?_, g3⟩
      rw [g2, heldInfo_count, hbanks]
    · have hf := endFault_scalar (hbanks.trans h0) (hret.residue_scalar hp hk hne hlow)
      exact commit_endCause hb he hr hmode hlane hslot (.inr rfl) hf
  · rintro h he ⟨hr, ht⟩ htr hde - hc
    exact ⟨fun n k hn hw => commit_flag he hr ht htr hde hc hn hw, fun l o q m hw => commit_counters he hr ht htr hde hc hw⟩
  · rintro n v htr he ⟨hr, ht⟩ hw hde - hc
    exact ⟨_, commit_trap he hr ht hw hde hc htr, rfl, rfl, rfl, rfl⟩
  · rintro he ⟨hr, ht⟩ htr hw hc
    have hdel : d.delayed = _ := commit_delayed he hr ht htr hw hc
    refine ⟨fun ha hz => ?_, fun ha => ?_⟩
    · rw [hdel, List.map_congr_left fun z h => delayNoted_other (hz z h), List.map_id']
    · obtain ⟨q, hq, hid, hkind, hmem, htile, hcx⟩ := commit_request he hr ht htr hw hc ha
      refine ⟨q, hq, hkind, hmem, htile, hcx, fun z hz hzw => ?_⟩
      rw [hdel, hid, ← delayNoted_absent hzw]
      exact List.mem_append_right _ (List.mem_map_of_mem hz)
  · rintro hm he ⟨hr, ht⟩ htr hw - -
    exact commit_phase hm he hr ht htr hw

end Sys2Proof.Machine
end

