-- ==== Sys2Proof/Proofs/Landings.lean ====
section
/-! PROOFS. Landings (R27, R30, R18, R26, R52): the one due result of a context, what each kind of payload does to tile and context
(R15, R17, R94, R155, R158 to R163, R166, R168), and the lanes of an accumulator row after a beat. -/

namespace Sys2Proof.Machine

/-! ### Lanes of a vector value (R6) -/

/-- Bit `i` of the digit `l` of a number made of 32-bit digits. -/
theorem testBit_lanesNat (f : Nat → Word) {k l i : Nat} (hl : l < k) (hi : i < 32) :
    (lanesNat f k).testBit (32 * l + i) = (f l).getLsbD i := by
  have bound (k : Nat) : lanesNat f k < 2 ^ (32 * k) := by
    induction k with
    | zero => exact Nat.one_pos
    | succ k ih =>
      have h := (f k).isLt
      calc (f k).toNat <<< (32 * k) + lanesNat f k
        _ < (f k).toNat * 2 ^ (32 * k) + 2 ^ (32 * k) := by rw [Nat.shiftLeft_eq]; exact Nat.add_lt_add_left ih _
        _ = ((f k).toNat + 1) * 2 ^ (32 * k) := (Nat.succ_mul _ _).symm
        _ ≤ 2 ^ 32 * 2 ^ (32 * k) := Nat.mul_le_mul_right _ h
        _ = 2 ^ (32 * (k + 1)) := by rw [← Nat.pow_add, Nat.mul_succ, Nat.add_comm]
  induction k with
  | zero => omega
  | succ k ih =>
    rw [lanesNat, Nat.shiftLeft_eq, Nat.mul_comm, Nat.testBit_two_pow_mul_add _ (bound k)]
    by_cases h : l = k
    · subst h
      rw [if_neg (by omega), Nat.add_sub_cancel_left]
      rfl
    · rw [if_pos (by omega)]
      exact ih (by omega)

theorem getLsbD_lane (v : Vec) (l : Nat) {i : Nat} (hi : i < 32) : (lane v l).getLsbD i = v.getLsbD (32 * l + i) := by
  rw [lane, BitVec.getLsbD_extractLsb']
  simp [hi]

theorem lane_ofLanes (f : Nat → Word) {l : Nat} (hl : l < 64) : lane (ofLanes f) l = f l := by
  refine BitVec.eq_of_getLsbD_eq fun i hi => ?_
  have hb : 32 * l + i < 2048 := by omega
  rw [getLsbD_lane _ _ hi, ofLanes, BitVec.getLsbD_ofNat, testBit_lanesNat f hl hi]
  simp [hb]

/-- The value of lanes with conditions is that of their words. -/
theorem ofLanesFs_fst (f : Nat → Nat × Fpst) : (ofLanesFs f).1 = ofLanes fun l => BitVec.ofNat 32 (f l).1 := by
  have digits (k : Nat) : (lanesFs f k).1 = lanesNat (fun l => BitVec.ofNat 32 (f l).1) k := by
    induction k with
    | zero => rfl
    | succ k ih => rw [lanesNat, ← ih, BitVec.toNat_ofNat]; exact Nat.add_comm _ _
  rw [ofLanesFs, ofLanes, ← digits]

theorem lane_lowLanes (k : Nat) (u v : Vec) {l : Nat} (hl : l < 64) :
    lane (lowLanes k u v) l = if k ≤ l then lane v l else lane u l := by
  refine BitVec.eq_of_getLsbD_eq fun i hi => ?_
  have hb : 32 * l + i < 2048 := by omega
  rw [getLsbD_lane _ _ hi, lowLanes, BitVec.getLsbD_ofNat, Nat.add_comm (_ % _), Nat.mul_comm (_ / _),
    Nat.testBit_two_pow_mul_add _ (Nat.mod_lt _ (Nat.two_pow_pos _))]
  by_cases h : k ≤ l
  · have e : 32 * l + i - 32 * k + 32 * k = 32 * l + i := by omega
    rw [if_neg (by omega), if_pos h, getLsbD_lane _ _ hi, Nat.testBit_div_two_pow, e]
    simp [hb, BitVec.getLsbD]
  · have h' : 32 * l + i < 32 * k := by omega
    rw [if_pos h', if_neg h, getLsbD_lane _ _ hi, Nat.testBit_mod_two_pow]
    simp [hb, h', BitVec.getLsbD]

/-- Each lane of an accumulator row after a beat: the tree values' or the row's own (R162, R163). -/
theorem lane_beatLand (u : Vec) (z int : Bool) (k : Nat) (v : Vec) {l : Nat} (hl : l < 64) :
    lane (beatLand u z int k v).1 l =
      if k ≤ l then lane u l
      else if z then lane v l
      else if int then lane v l + lane u l
      else BitVec.ofNat 32 (Fmt.f32.add (laneN v l) (laneN u l)).1 := by
  rw [beatLand, lane_lowLanes _ _ _ hl]
  by_cases h : k ≤ l
  · rw [if_pos h, if_pos h]
  · rw [if_neg h, if_neg h]
    cases z
    · cases int
      · simp only [Bool.false_eq_true, if_false, ofLanesFs_fst, lane_ofLanes _ hl, if_pos (Nat.lt_of_not_le h)]
        rfl
      · simp only [Bool.false_eq_true, if_false, if_true, lane_ofLanes _ hl]
    · rfl

theorem accRow_putAcc (t : Tile) (n q : Nat) (v : Vec) : (t.putAcc n v).accRow q = if q = n then v else t.accRow q := by
  split
  · rename_i h; subst h; exact aget_aput_same _ _ _ _
  · rename_i h; exact aget_aput_other _ (Ne.symm h) _ _

/-! ### What each kind of result does (R15, R17, R155 to R168) -/

/-- One bit of a word is written, and no other. -/
theorem bit_write {w : Nat} (x : BitVec w) (p : Nat) (b : Bool) {q : Nat} (hq : q < w) :
    bit (if b then x ||| (1#w <<< p) else x &&& ~~~(1#w <<< p)) q = if q = p then b else bit x q := by
  have h : (1#w <<< p).getLsbD q = decide (q = p) := by
    rw [BitVec.getLsbD_shiftLeft, BitVec.getLsbD_one]
    grind
  cases b
  · rw [if_neg Bool.false_ne_true, bit, BitVec.getLsbD_and, BitVec.getLsbD_not, h]
    by_cases e : q = p
    · simp [e]
    · simp [e, hq]
  · rw [if_pos rfl, bit, BitVec.getLsbD_or, h]
    by_cases e : q = p
    · simp [e]
    · simp [e]

section
variable (t : Tile) (cx : Cx)

theorem apply_scalar {q : Nat} (hq : q < 32) (v : Dword) : t.apply cx (.scalar q v) =
    (t.modCtx cx (·.mapRegs fun r => { r with sq := wr r.sq q (rd r.sq q [] ++ [v]) }), 0) := by
  simp [Tile.apply, Ctx.putSqueue, Ctx.squeue, hq, Ctx.mapRegs]

theorem apply_supervisor (q : Nat) (v : Dword) : t.apply cx (.scalar (32 + q) v) =
    (t.modCtx cx fun c => { c with sup := wr c.sup q (rd c.sup q [] ++ [v]) }, 0) := by
  simp [Tile.apply, Ctx.putSqueue, Ctx.squeue]

theorem apply_vector {q : Nat} (hq : q < 24) (v : Vec) : t.apply cx (.vector q v) =
    (t.modCtx cx (·.mapRegs fun r => { r with vq := wr r.vq q (rd r.vq q [] ++ [v]) }), 0) := by
  simp [Tile.apply, Tile.putVqueue, Tile.vqueue, hq, Tile.modCtx, Ctx.mapRegs]

/-- A predicate is written, p0 excepted (R17). -/
theorem apply_pred {p : Nat} (b : Bool) (hp : p < 96) : ∃ w, t.apply cx (.pred p b) = (t.modCtx cx (·.mapRegs fun r =>
    { r with pred := w }), 0) ∧ ∀ q, q < 96 → bit w q = if q = p ∧ p ≠ 0 then b else bit (t.ctx cx).regs.pred q := by
  by_cases h0 : p = 0
  · subst h0
    exact ⟨(t.ctx cx).regs.pred, rfl, fun q _ => by simp⟩
  · have h : ¬ (p = 0 ∨ 96 ≤ p) := by omega
    refine ⟨_, ?_, fun q hq => (bit_write (t.ctx cx).regs.pred p b hq).trans ?_⟩
    · show (t.modCtx cx (·.mapRegs (·.putPred p b)), (0 : Fpst)) = _
      simp only [Tile.modCtx, Ctx.mapRegs, Regs.putPred, h, if_false]
    · simp [h0]

/-- One bit of a mask is written (R17). -/
theorem apply_maskBit {m i : Nat} (b : Bool) (hm : 0 < m) : ∃ w, t.apply cx (.maskBit m i b) = (t.modCtx cx (·.mapRegs fun r =>
    { r with mask := wr r.mask m w }), 0) ∧
    ∀ j, j < 64 → bit w j = if j = i then b else bit (rd (t.ctx cx).regs.mask m 0) j := by
  have h : m ≠ 0 := by omega
  refine ⟨_, ?_, fun j hj => bit_write _ i b hj⟩
  simp only [Tile.apply, Tile.modCtx, Ctx.mapRegs, Regs.putMask, Regs.getMask, h, if_false]

/-- A weight row enters its plane (R158, R159). -/
theorem apply_weight {q : Nat} (n tag : Nat) (ws : List Word) (hq : q < 2) : ∃ w,
    t.apply cx (.weight q n tag ws) = ({ t with planes := w }, 0) ∧ rd w (1 - q) [] = rd t.planes (1 - q) [] ∧
      ∀ m, aget (rd w q []) m {} = if m = n then ⟨tag, ws⟩ else aget (rd t.planes q []) m {} := by
  refine ⟨_, rfl, ?_, fun m => ?_⟩
  · rw [rd_wr, if_neg (by omega)]
  · rw [rd_wr, if_pos ⟨rfl, hq⟩]
    split
    · rename_i h; subst h; exact aget_aput_same _ _ _ _
    · rename_i h; exact aget_aput_other _ (Ne.symm h) _ _

/-- A listed row has its value. -/
theorem aget_rows {α : Type} (f : Nat → α) (d : α) {l : List Nat} {m : Nat} (h : m ∈ l) :
    aget (l.map fun r => (r, f r)) m d = f m := by
  induction l with
  | nil => cases h
  | cons a r ih =>
    by_cases e : a = m
    · simp [aget, e]
    · simpa [aget, e] using ih ((List.mem_cons.1 h).resolve_left (Ne.symm e))

/-- MLDH's signs fill a plane (R166). -/
theorem apply_hadamard {q order tag : Nat} (hq : q < 2)
    (ht : (if order = 16 then 0x10 else if order = 32 then 0x11 else 0x12) = tag) : ∃ w,
    t.apply cx (.hadamard q order) = ({ t with planes := w }, 0) ∧ rd w (1 - q) [] = rd t.planes (1 - q) [] ∧
      ∀ m, m < 64 → aget (rd w q []) m {} = ⟨tag, []⟩ := by
  subst ht
  refine ⟨_, rfl, ?_, fun m hm => ?_⟩
  · rw [rd_wr, if_neg (by omega)]
  · rw [rd_wr, if_pos ⟨rfl, hq⟩]
    exact aget_rows _ _ (List.mem_range.2 hm)

/-- A beat changes its row alone, as `beatLand` says. -/
theorem apply_beat (n : Nat) (z int : Bool) (k : Nat) (v : Vec) :
    (t.apply cx (.beat n z int k v)).1 = t.putAcc n (beatLand (t.accRow n) z int k v).1 := rfl

/-- A permutation entry of the system registers (R22). -/
theorem sysWrite_perm {n : Nat} (v : Dword) (hn : n < 64) : t.sysWrite cx (0x100 + n) v =
    t.modCtx cx (·.mapRegs fun r => { r with perm := wr r.perm n (fld v 0 6) }) := by
  have h : 0x100 ≤ 0x100 + n ∧ 0x100 + n < 0x140 := by omega
  simp only [Tile.sysWrite, if_pos h, Nat.add_sub_cancel_left]

/-- RBSEL without its command (R332). -/
theorem sysWrite_rbsel {v : Dword} (hv : bit v 17 = false) : t.sysWrite cx 0x210 v =
    t.modCtx cx fun c => { c with rbsel := fld v 0 18 &&& 0x1FF7F#18 } := by
  exact congrArg (t.modCtx cx) (funext fun c => if_neg (Bool.eq_false_iff.1 hv))

end

/-! ### One due result lands (R27, R52) -/

/-- A context whose results wait for no datum does not freeze for one. -/
theorem blocked_not {c : Ctx} (hd : ∀ d ∈ c.delayed, d.stops = false)
    (hr : ∀ r ∈ c.inflight, r.rem ≤ 1 → r.await = none) : c.blocked [] = false := by
  have h1 : (c.delayed.any fun d => d.stops && !([] : List Nat).contains d.id) = false := by
    rw [List.any_eq_false]
    intro d h
    simp [hd d h]
  have h2 : (c.inflight.any fun r => decide (r.rem ≤ 1) && r.await.any fun i => !([] : List Nat).contains i) = false := by
    rw [List.any_eq_false]
    intro r h
    by_cases e : r.rem ≤ 1
    · simp [hr r h e]
    · simp [e]
  rw [Ctx.blocked, h1, h2]
  rfl

theorem land_single {t : Tile} {cx : Cx} {r : Res} (h : (t.ctx cx).inflight = [r]) (hr : r.rem ≤ 1) :
    t.land cx = Landing.one { tile := t.putCtx cx { t.ctx cx with inflight := [] } } cx r := by
  have h1 : ¬ 1 < r.rem := by omega
  simp [Tile.land, h, hr, h1]

/-- A result that is no check and whose queue has room has the effect of its kind. -/
theorem one_lands {x : Tile} {cx : Cx} {r : Res} (hc : r.pay.isCheck = false)
    (hq : ∀ q, r.pay.queue = some q → x.held cx q.1 q.2 < depth q.1 q.2)
    (hl : ∀ rows, r.pay = .latch rows → x.latch.length + rows.length ≤ 8)
    (hs : ∀ n v, r.pay = .sys n v → n ≠ 0x200 ∧ n ≠ 0x032) :
    Landing.one { tile := x } cx r = Landing.finish { tile := (x.apply cx r.pay).1 } cx r (x.apply cx r.pay).2 := by
  unfold Landing.one
  split
  · rename_i d h; rw [h] at hc; cases hc
  · rename_i rows h
    have hroom : rows.length ≤ 8 - x.latch.length := by have := hl rows h; omega
    simp [h, Tile.apply, hroom, List.take_of_length_le hroom]
  · split
    · rename_i q h
      have := hq q h
      simp [this]
    · split
      · rename_i v h; exact absurd rfl (hs _ v h).1
      · rename_i v h; exact absurd rfl (hs _ v h).2
      · rfl

/-- A landing that meets neither a full queue nor a check, and commands nothing, leaves its tile. -/
theorem landCtx_plain {s : State} {t : Nat} {cx : Cx} {l : Landing} (hb : (s.ctx t cx).blocked [] = false)
    (hl : (s.tile t).land cx = l) (hq : l.qovf = none) (hc : l.checks = []) (hn : l.late = []) :
    s.landCtx t cx = s.putTile t l.tile := by
  subst hl
  simp only [State.landCtx, hb, hq, hc, hn]
  rfl

/-- Settles O34: the due result's effect is that of its kind, and then kind by kind. -/
theorem resultsLandInTheirRegisters : Obligations.ResultsLandInTheirRegisters := by
  unfold Obligations.ResultsLandInTheirRegisters
  refine ⟨?_, ?_⟩
  · intro s t cx r c x y hi hd hr ha hc hq hl hs
    have hb : c.blocked [] = false := blocked_not (by simp [hd]) (by simp [hi, ha])
    have hland : (s.tile t).land cx = Landing.finish { tile := y.1 } cx r y.2 :=
      (land_single hi hr).trans (one_lands hc hq hl hs)
    exact congrArg Host.Outcome.next (landCtx_plain hb hland rfl rfl rfl)
  intro t cx c lands ctx regs frame r f
  refine ⟨fun q v hq => apply_scalar t cx (by omega) v, fun q v _ => apply_supervisor t cx q v,
    fun q v hq => apply_vector t cx hq v, fun v => ⟨rfl, rfl⟩, fun q v _ => rfl, fun rows => rfl,
    fun p b hp => apply_pred t cx b hp, fun m v _ => ?_, fun m i b h0 _ _ => apply_maskBit t cx b h0, fun m => rfl,
    fun n p e => rfl, fun n k ls le sup => rfl, fun k v => rfl, rfl, rfl, fun q n tag ws hq => apply_weight t cx n tag ws hq,
    fun q hq => ?_, fun v => ?_, fun v => ?_, fun v => ?_, fun n q k z int v => ?_⟩
  · show (t.putCtx cx { c with regs := if m = 0 then r else { r with mask := wr r.mask m v } }, (0 : Fpst)) = _
    rfl
  · simp only [List.forall_mem_cons]
    exact ⟨apply_hadamard t cx hq rfl, apply_hadamard t cx hq rfl, apply_hadamard t cx hq rfl, fun _ h => nomatch h⟩
  · simp only [List.forall_mem_cons]
    exact ⟨rfl, rfl, rfl, rfl, rfl, fun _ h => nomatch h⟩
  · simp only [List.forall_mem_cons]
    exact ⟨rfl, rfl, rfl, rfl, rfl, fun _ h => nomatch h⟩
  · refine ⟨rfl, rfl, rfl, rfl, rfl, ⟨_, rfl⟩, rfl, rfl, rfl, rfl, rfl, rfl, ?_, rfl, rfl, rfl,
      fun n hn => congrArg (·, 0) (sysWrite_perm t cx v hn), fun hv => congrArg (·, 0) (sysWrite_rbsel t cx hv)⟩
    simp only [List.forall_mem_cons]
    exact ⟨⟨rfl, rfl, rfl⟩, ⟨rfl, rfl, rfl⟩, fun _ h => nomatch h⟩
  · rw [apply_beat]
    refine ⟨rfl, fun hq => ?_, fun l hl => ?_⟩
    · rw [accRow_putAcc, if_neg hq]
    · rw [accRow_putAcc, if_pos rfl]
      exact lane_beatLand _ _ _ _ _ hl

end Sys2Proof.Machine
end

