-- ==== Sys2Proof/Proofs/DecodedSteps.lean ====
section
/-! PROOFS. What the step takes (R31, R40, R41): the bundle that begins, the slot in hand, the event that has arrived, the word
placed where the next step fetches. -/

namespace Sys2Proof.Machine

/-- What stands at a position: the bundle that decodes there, where no cause of its own comes before it (R49 to R51, R323). -/
theorem nextBundle_ok {t : Tile} {m : Memory} {cx : Cx} {b : List Word}
    (he : (t.ctx cx).pos.entry = true → m.bundleStart (t.ctx cx).pos.pc = true)
    (hd : decodeBundle ((t.ctx cx).divA != 0) ((t.ctx cx).divB != 0) (m.codeWords (t.ctx cx).pos.pc 8) = .ok b)
    (hs : (t.ctx cx).pos.annul = 0 → t.stopAt cx 0 b = none) : t.nextBundle m cx = .ok b := by
  have hstart : ((t.ctx cx).pos.entry && !m.bundleStart (t.ctx cx).pos.pc) = false := by
    cases h : (t.ctx cx).pos.entry
    · rfl
    · simp [he h]
  have hdec : t.decoded m cx = .ok b := by
    unfold Tile.decoded
    simp only [hstart, hd]
    rfl
  have hstop : (if (t.ctx cx).pos.annul = 0 then t.stopAt cx 0 b else none) = none := ite_eq_right_iff.2 hs
  simp only [Tile.nextBundle, hdec, hstop]

/-- A bundle without a cause before it and without a segment to release begins as it stands in code memory. -/
theorem begin_ok {s : State} {t : Nat} {cx : Cx} {b : List Word} (bid : Bid) (hh : (s.ctx t cx).held = [])
    (hf : (s.ctx t cx).faults = []) (hb : (s.tile t).nextBundle s.code cx = .ok b) :
    let c := s.ctx t cx
    s.begin t cx bid = { s.putCtx t cx c with
      issue := some { tile := t, cx := cx, addr := c.pos.pc, words := b, annulled := c.pos.annul != 0, remake := c.remake
                      om := c.om, base := s.fresh } } := by
  intro c
  have hc : ({ s.ctx t cx with held := [] } : Ctx) = s.ctx t cx := by rw [← hh]
  have hm : (s.modCtx t cx fun c => { c with held := [] }) = s.putCtx t cx (s.ctx t cx) := congrArg (s.putCtx t cx) hc
  simp only [State.begin, hf, firstFault, hb, hh, State.unpin, List.foldl_nil, hm]
  rfl

/-- The step of the issue stage takes the head of its work. -/
theorem step_work {s : State} {w : Work} {r : List Work} (hi : s.issue = none) (hs : s.stage = .issue)
    (hw : s.work = w :: r) : step s = State.doWork { s with work := r } w := by
  simp only [step, hi, hs, State.issueStage, hw]

/-- The step of a slot in hand decodes its word with the LIT slots behind it (R42, R50). -/
theorem step_slot {s : State} {i : Issue} {ins : Instr} (hi : s.issue = some i) (hr : i.remake = [])
    (hd : decodeSlot (i.words.getD i.pos 0) i.lits = .ok ins) :
    step s = match exec ins s with
      | .next t => .next t.settle
      | o => o := by
  simp only [step, hi, State.slot, here_of_first hr, runWord, hd] <;> rfl

/-- An input is taken unless it waits for the retraining of its link (R365). -/
theorem nextInput_cons {s : State} {ins : Instr} (r : List Instr) (h : s.ensign.hostLink = true ∨ overHost ins = false) :
    s.nextInput (ins :: r) = some (ins, r) := by
  have : (s.ensign.hostLink || !overHost ins) = true := by
    rcases h with h | h <;> simp [h]
  simp only [State.nextInput, this, if_true]

/-- The step of an event that has arrived runs it, unless it came over a host port that is down (R375). -/
theorem step_input {s : State} {ins : Instr} {r : List Instr} (hi : s.issue = none) (hs : s.stage = .system)
    (hr : s.inputs = ins :: r) (h : s.ensign.hostLink = true ∨ overHost ins = false) :
    step s = if s.deaf ins then .next { s with inputs := r } else exec ins { s with inputs := r } := by
  simp only [step, hi, hs, State.system, hr, nextInput_cons r h]
  rfl

/-- The bundle that holds a word has it at its place, and no LIT behind it. -/
theorem bundleOf_word (w : Word) : (bundleOf w).1.getD (bundleOf w).2 0 = w ∧
    leadLits ((bundleOf w).1.drop ((bundleOf w).2 + 1)) = [] := by
  unfold bundleOf
  split
  · exact ⟨rfl, rfl⟩
  · exact ⟨rfl, rfl⟩

/-- The slot in hand of a placed word (log 24). -/
theorem withFetchWord_issue (s : State) (w : Word) : ∃ i, (s.withFetchWord 32 w.toNat).issue = some i ∧ i.remake = [] ∧
    i.words.getD i.pos 0 = w ∧ i.lits = [] := by
  have hw : BitVec.ofNat 32 (w.toNat % 2 ^ 32) = w := by
    rw [Nat.mod_eq_of_lt w.isLt, BitVec.ofNat_toNat, BitVec.setWidth_eq]
  obtain ⟨h1, h2⟩ := bundleOf_word w
  rw [State.withFetchWord, hw]
  exact ⟨_, rfl, rfl, h1, h2⟩

/-- Settles O47, by the bundle, the slot, the input or the placed word that the step finds. -/
theorem stepsRunTheDecodedInstruction : Obligations.StepsRunTheDecodedInstruction := by
  unfold Obligations.StepsRunTheDecodedInstruction
  refine ⟨?_, ?_, ?_, ?_⟩
  · intro s t cx r bid b c hi hs hw hh hf he hd hst
    refine ⟨_, ?_, rfl⟩
    have hb : (s.tile t).nextBundle s.code cx = .ok b := nextBundle_ok he hd hst
    exact (step_work hi hs hw).trans (congrArg _ (begin_ok (s := { s with work := r }) bid hh hf hb))
  · intro s i ins hi hr hd
    exact step_slot hi hr hd
  · intro s ins r hi hs hr h
    exact step_input hi hs hr h
  · intro s w ins hd u
    obtain ⟨i, hi, hr, hw, hl⟩ := withFetchWord_issue s w
    exact step_slot hi hr (by rw [hw, hl]; exact hd)

end Sys2Proof.Machine
end

