-- ==== Sys2Proof/Proofs/BundleChoice.lean ====
section
/-! PROOFS. The choice of bundles on one tile (R29, R31, R73, R326): what a landing leaves to the choice, the choice by what each
context does, and the work that it plans. -/

namespace Sys2Proof.Machine

/-! ### The operations still to be made again are no part of a landing (R333) -/

/-- What a change of one context leaves in each context. -/
theorem ctx_modCtx_keeps {α : Type} (g : Ctx → α) (t : Tile) (cx cy : Cx) {f : Ctx → Ctx} (h : ∀ c, g (f c) = g c) :
    g ((t.modCtx cx f).ctx cy) = g (t.ctx cy) := by
  cases cx <;> cases cy
  · exact h t.p
  · rfl
  · rfl
  · exact h t.s

theorem rbWrite_remake (c : Ctx) (v : Dword) : (c.rbWrite v).remake = c.remake := by
  unfold Ctx.rbWrite
  dsimp only
  split <;> rfl

/-- Apart from RBSEL and RBDATA a system register is a field of the registers, of the frame or of the tile. -/
theorem sysWrite_remake (t : Tile) (cx cy : Cx) (n : Nat) (v : Dword) :
    ((t.sysWrite cx n v).ctx cy).remake = (t.ctx cy).remake := by
  unfold Tile.sysWrite
  dsimp only
  split
  · exact ctx_modCtx_keeps Ctx.remake t cx cy fun _ => rfl
  · split
    case h_23 => exact ctx_modCtx_keeps Ctx.remake t cx cy fun c => by split <;> rfl
    case h_24 => exact ctx_modCtx_keeps Ctx.remake t cx cy fun c => rbWrite_remake c v
    all_goals cases cx <;> cases cy <;> rfl

theorem putVqueue_remake (t : Tile) (cx cy : Cx) (k : Nat) (q : List Vec) :
    ((t.putVqueue cx k q).ctx cy).remake = (t.ctx cy).remake := by
  unfold Tile.putVqueue
  split
  · exact ctx_modCtx_keeps Ctx.remake t cx cy fun _ => rfl
  · split
    · cases cy <;> rfl
    · split
      · exact ctx_modCtx_keeps Ctx.remake t cx cy fun _ => rfl
      · split
        · exact ctx_modCtx_keeps Ctx.remake t cx cy fun _ => rfl
        · cases cy <;> rfl

theorem apply_remake (t : Tile) (cx cy : Cx) (p : Payload) : ((t.apply cx p).1.ctx cy).remake = (t.ctx cy).remake := by
  have reg (f : Regs → Regs) : ((t.modCtx cx (·.mapRegs f)).ctx cy).remake = (t.ctx cy).remake :=
    ctx_modCtx_keeps Ctx.remake t cx cy (f := (·.mapRegs f)) fun _ => rfl
  cases p with
  | scalar c v => exact ctx_modCtx_keeps Ctx.remake t cx cy fun x => by unfold Ctx.putSqueue; split <;> rfl
  | vector c v => exact putVqueue_remake t cx cy c _
  | sys n v => exact sysWrite_remake t cx cy n v
  | pred | mask | maskBit | select | me | window | loop | carry => exact reg _
  | row | latch | beat | weight | hadamard | planes | check | status => cases cy <;> rfl

theorem finish_remake (l : Landing) (cx cy : Cx) (r : Res) (fp : Fpst) :
    ((l.finish cx r fp).tile.ctx cy).remake = (l.tile.ctx cy).remake :=
  ctx_modCtx_keeps Ctx.remake l.tile cx cy fun _ => rfl

theorem one_remake (l : Landing) (cx cy : Cx) (r : Res) : ((l.one cx r).tile.ctx cy).remake = (l.tile.ctx cy).remake := by
  unfold Landing.one
  split
  · rfl
  · dsimp only
    generalize (if l.full.contains (true, 30) then 0 else 8 - l.tile.latch.length) = room
    split
    · exact ctx_modCtx_keeps Ctx.remake _ cx cy fun _ => rfl
    · rfl
  · split
    · split
      · rfl
      · exact (finish_remake _ cx cy r _).trans (apply_remake l.tile cx cy _)
    · exact (finish_remake _ cx cy r _).trans (apply_remake l.tile cx cy _)

/-- A landing leaves the operations that are still to be made again. -/
theorem land_remake (t : Tile) (cx cy : Cx) : ((t.land cx).tile.ctx cy).remake = (t.ctx cy).remake := by
  unfold Tile.land
  refine List.foldlRecOn (motive := fun l : Landing => (l.tile.ctx cy).remake = (t.ctx cy).remake) _ _ ?_ ?_
  · cases cx <;> cases cy <;> rfl
  · exact fun l h r _ => (one_remake l cx cy r).trans h


/-! ### The choice by what the contexts do (R29, R73) -/

/-- The suppositions of a choice are those that it makes true. -/
def Choice.agrees (c : Choice) (lp lq : Bool) : Bool := c.landP == lp && c.landQ == lq

/-- The limiter's view of two bundles and the engine: the classes of the second keep it out where they meet the first's. -/
def State.fits (s : State) (x : Tile) (a b : Bid) : Bool :=
  x.admits (a.weight + (if !a.meets b then b.weight else 0) + x.engineWeight s.now)

theorem meets_none (a : Bid) : a.meets {} = false := List.any_eq_false.2 fun _ _ => by simp

theorem fits_alone (s : State) (x : Tile) (a : Bid) : s.fits x a {} = x.admits (a.weight + x.engineWeight s.now) := by
  rw [State.fits, meets_none]; rfl

/-- The tile on which the primary's bundle is bid for: its results landed, and the secondary's where those land too. -/
def Tile.primaryView (x : Tile) (lq : Bool) : Tile := if lq then ((x.land .p).tile.land .s).tile else (x.land .p).tile

/-- The tile on which the secondary's bundle is bid for, before the primary has popped. -/
def Tile.secondaryView (x : Tile) (lp : Bool) : Tile := ((if lp then (x.land .p).tile else x).land .s).tile

/-- What the primary's bundle pops from the shared queues where its results land in step 1. -/
def Tile.primarySlots (x : Tile) (m : Memory) (lp lq : Bool) : List SlotRec :=
  (if lp then (x.primaryView lq).nextSlots m .p else []).drop (x.ctx .p).remake.length

/-- The secondary's bundle as the choice finds it. -/
def Tile.secondaryBid (x : Tile) (m : Memory) (lp lq : Bool) : Bid :=
  ((x.secondaryView lp).popSlots .p (x.primarySlots m lp lq)).bid m .s

theorem idle_bids : Turn.idle.bids = false := rfl
theorem ready_bids : Turn.ready.bids = true := rfl
theorem idle_overflows (l : Landing) : Turn.idle.overflows l = false := rfl
theorem ready_overflows (l : Landing) : Turn.ready.overflows l = false := rfl

section
variable {s : State} {n : Nat} {x : Tile} (hd : x.seqRun.any (s.seqDue n) = false)
include hd

/-- The primary ready or about to take a trap, the secondary idle: the limiter decides. -/
theorem chooseWith_primary {u : Turn} {lp : Bool} (hp : s.turn n x .p = u) (hu : u.bids = true)
    (hq : s.turn n (if lp then (x.land .p).tile else x) .s = .idle) :
    let b := (x.land .p).tile.bid s.code .p
    let go := s.fits x b {}
    s.chooseWith n x lp false =
      { p := u, q := .idle, bp := if u = .ready ∧ go = true then some b else none, bq := none
        landP := decide (u = .ready) && go || u.overflows (x.land .p) && go, landQ := false
        eng := x.engineWeight s.now, hold := !go, holdQ := !go } := by
  have hw : u ≠ .waits := by rintro rfl; cases hu
  intro b go
  simp only [State.chooseWith, hp, hq, hd]
  simp [hu, hw, idle_bids, idle_overflows, go, fits_alone, b, meets_none]

/-- Both contexts ready: a bundle of the secondary whose classes meet the primary's waits, and the limiter holds both. -/
theorem chooseWith_both {lp lq : Bool} (hp : s.turn n x .p = .ready)
    (hq : s.turn n (if lp then (x.land .p).tile else x) .s = .ready) :
    let a := (x.primaryView lq).bid s.code .p
    let b := x.secondaryBid s.code lp lq
    let go := s.fits x a b
    s.chooseWith n x lp lq =
      { p := .ready, q := .ready, bp := if go then some a else none, bq := if go && !a.meets b then some b else none
        landP := go, landQ := go && !a.meets b, eng := x.engineWeight s.now, hold := !go, holdQ := !go } := by
  intro a b go
  simp only [State.chooseWith, hp, hq, hd]
  simp only [go, a, b, State.fits, Tile.secondaryBid, Tile.primaryView, Tile.secondaryView, Tile.primarySlots]
  simp [ready_bids, ready_overflows]

end

/-- The first supposition that agrees is the choice. -/
theorem chosen_of_find {s : State} {n : Nat} {x : Tile} {h : Bool × Bool} {c : Choice}
    (hf : (((s.turn n x .p).mayLand.flatMap fun lp => (s.turn n x .s).mayLand.map fun lq => (lp, lq)).map
      fun h => (h, s.chooseWith n x h.1 h.2)).find? (fun c => c.2.agrees c.1.1 c.1.2) = some (h, c)) :
    s.chosen n x = c := by
  unfold Choice.agrees at hf
  simp only [State.chosen, hf]

theorem ready_mayLand : Turn.ready.mayLand = [true, false] := rfl
theorem idle_mayLand : Turn.idle.mayLand = [false] := rfl

theorem bids_mayLand {u : Turn} (hu : u.bids = true) : u.mayLand = [true, false] := by
  cases u with
  | idle | frozen | waits => cases hu
  | traps | ready => rfl

/-- The choice where the primary may land results and the secondary is idle: with its landings if that agrees, else without. -/
theorem chosen_primary {s : State} {n : Nat} {x : Tile} {u : Turn} (hp : s.turn n x .p = u) (hu : u.bids = true)
    (hq : s.turn n x .s = .idle) :
    ((s.chooseWith n x true false).agrees true false = true → s.chosen n x = s.chooseWith n x true false) ∧
    ((s.chooseWith n x true false).agrees true false = false → (s.chooseWith n x false false).agrees false false = true →
      s.chosen n x = s.chooseWith n x false false) := by
  refine ⟨fun h => chosen_of_find (h := (true, false)) ?_, fun h h' => chosen_of_find (h := (false, false)) ?_⟩
  · simp [hp, hq, bids_mayLand hu, idle_mayLand, h]
  · simp [hp, hq, bids_mayLand hu, idle_mayLand, h, h']

/-- The choice where both contexts may land results: the first supposition that agrees, the landings of both tried first. -/
theorem chosen_both {s : State} {n : Nat} {x : Tile} (hp : s.turn n x .p = .ready) (hq : s.turn n x .s = .ready) :
    ((s.chooseWith n x true true).agrees true true = true → s.chosen n x = s.chooseWith n x true true) ∧
    ((s.chooseWith n x true true).agrees true true = false → (s.chooseWith n x true false).agrees true false = true →
      s.chosen n x = s.chooseWith n x true false) ∧
    ((s.chooseWith n x true true).agrees true true = false → (s.chooseWith n x true false).agrees true false = false →
      (s.chooseWith n x false true).agrees false true = false → (s.chooseWith n x false false).agrees false false = true →
      s.chosen n x = s.chooseWith n x false false) := by
  refine ⟨fun h => chosen_of_find (h := (true, true)) ?_, fun h1 h2 => chosen_of_find (h := (true, false)) ?_,
    fun h1 h2 h3 h4 => chosen_of_find (h := (false, false)) ?_⟩
  · simp [hp, hq, ready_mayLand, h]
  · simp [hp, hq, ready_mayLand, h1, h2]
  · simp [hp, hq, ready_mayLand, h1, h2, h3, h4]

/-! ### The work of the issue stage (R31, R383) -/

/-- The landings that come just before the bundle, of a context that an access of the core cycle delays. -/
def Tile.lateWork (x : Tile) (n : Nat) (cx : Cx) : List Work := if (x.ctx cx).blocked [] then [.landLate n cx []] else []

/-- The work for contexts that are ready or idle. -/
theorem choose_work {s : State} {n : Nat} {x : Tile} {c : Choice} (hc : s.chosen n x = c)
    (hp : c.p = .ready ∨ c.p = .idle) (hq : c.q = .ready ∨ c.q = .idle) : (s.choose n x).2 =
      (if c.landP then [.land n .p] else []) ++ (if c.landQ then [.land n .s] else []) ++
      (s.dueAccesses n .p (x.ctx .p) ++ (if c.landP then x.lateWork n .p else []) ++ (c.bp.map (Work.begin n .p)).toList) ++
      (s.dueAccesses n .s (x.ctx .s) ++ (if c.landQ then x.lateWork n .s else []) ++ (c.bq.map (Work.begin n .s)).toList) := by
  have behind (b l : Bool) (w : List Work) : (if (l && b) = true then w else []) = if l then (if b then w else []) else [] := by
    cases l <;> cases b <;> rfl
  rcases hp with hp | hp <;> rcases hq with hq | hq <;>
    simp only [State.choose, hc, hp, hq, Tile.lateWork, reduceCtorEq, decide_false, Bool.false_or, if_false, List.append_nil, behind]

/-- The work where the primary takes an interrupt in place of a bundle and the secondary is idle. -/
theorem choose_interrupt {s : State} {n : Nat} {x : Tile} {c : Choice} (hc : s.chosen n x = c)
    (hp : c.p = .traps (.interrupt n .p) true) (hq : c.q = .idle) (hlp : c.landP = false) (hlq : c.landQ = false)
    (hbp : c.bp = none) (hbq : c.bq = none) : (s.choose n x).2 = s.dueAccesses n .p (x.ctx .p) ++
      (if c.hold then [] else [.interrupt n .p]) ++ s.dueAccesses n .s (x.ctx .s) := by
  simp [State.choose, hc, hp, hq, hlp, hlq, hbp, hbq]

/-- The work of the primary's bundle alone, with the delayed accesses of both contexts. -/
def State.aloneWork (s : State) (n : Nat) (x : Tile) (b : Bid) : List Work :=
  [.land n .p] ++ s.dueAccesses n .p (x.ctx .p) ++ x.lateWork n .p ++ [.begin n .p b] ++ s.dueAccesses n .s (x.ctx .s)

/-- The work where the limiter holds every bundle. -/
def State.heldWork (s : State) (n : Nat) (x : Tile) : List Work :=
  s.dueAccesses n .p (x.ctx .p) ++ s.dueAccesses n .s (x.ctx .s)

/-! ### What is planned (R29, R73, R326) -/

/-- The limiter compares with what the two bundles, the engine and the 63 core cycles before weigh (R73). -/
theorem fits_eq (s : State) (x : Tile) (a b : Bid) : s.fits x a b = decide (x.windowSum +
    ((a.weight + if a.meets b then 0 else b.weight) + x.engineWeight s.now) ≤ x.ilim.toNat) := by
  unfold State.fits Tile.admits
  cases a.meets b <;> rfl

/-- The secondary's bundle as both contexts issue: what the primary's has popped is gone. -/
theorem secondaryBid_both (x : Tile) (m : Memory) : x.secondaryBid m true true =
    (((x.land .p).tile.land .s).tile.popShared m .p).bid m .s := by
  have h := (land_remake (x.land .p).tile .s .p).trans (land_remake x .p .p)
  show _ = ((((x.land .p).tile.land .s).tile.popSlots .p _).bid m .s)
  rw [h]
  rfl

/-- The secondary's bundle where the primary's results do not land: nothing has been popped. -/
theorem secondaryBid_alone (x : Tile) (m : Memory) (lq : Bool) : x.secondaryBid m false lq = (x.land .s).tile.bid m .s := by
  have h : x.primarySlots m false lq = [] := List.drop_nil
  rw [Tile.secondaryBid, h]
  rfl

section
variable {s : State} {n : Nat} {x : Tile} (hd : x.seqRun.any (s.seqDue n) = false)
include hd

/-- The primary alone is ready: it issues, or the limiter holds it. -/
theorem work_primary (hp : s.turn n x .p = .ready) (hq : s.turn n x .s = .idle)
    (hq1 : s.turn n (x.land .p).tile .s = .idle) :
    let b := (x.land .p).tile.bid s.code .p
    (s.fits x b {} = true → (s.choose n x).2 = s.aloneWork n x b) ∧
    (s.fits x b {} = false → (s.choose n x).2 = s.heldWork n x) := by
  obtain ⟨h1, h2⟩ := chosen_primary hp rfl hq
  have e1 := chooseWith_primary hd (lp := true) hp rfl hq1
  have e2 := chooseWith_primary hd (lp := false) hp rfl hq
  refine ⟨fun h => ?_, fun h => ?_⟩
  · simp only [h] at e1
    rw [choose_work (h1 (by rw [e1]; rfl)) (by rw [e1]; exact .inl rfl) (by rw [e1]; exact .inr rfl), e1]
    simp [State.aloneWork]
  · simp only [h] at e1 e2
    rw [choose_work (h2 (by rw [e1]; rfl) (by rw [e2]; rfl)) (by rw [e2]; exact .inl rfl) (by rw [e2]; exact .inr rfl), e2]
    simp [State.heldWork, ready_overflows]

/-- An interrupt of the primary comes in place of its bundle, or the limiter holds it as it would the bundle (R326). -/
theorem work_interrupt (hp : s.turn n x .p = .traps (.interrupt n .p) true) (hq : s.turn n x .s = .idle)
    (hq1 : s.turn n (x.land .p).tile .s = .idle) :
    let b := (x.land .p).tile.bid s.code .p
    (s.fits x b {} = true → (s.choose n x).2 =
      s.dueAccesses n .p (x.ctx .p) ++ [.interrupt n .p] ++ s.dueAccesses n .s (x.ctx .s)) ∧
    (s.fits x b {} = false → (s.choose n x).2 = s.heldWork n x) := by
  obtain ⟨-, h2⟩ := chosen_primary hp rfl hq
  have e1 := chooseWith_primary hd (lp := true) hp rfl hq1
  have e2 := chooseWith_primary hd (lp := false) hp rfl hq
  have hc := h2 (by rw [e1]; rfl) (by rw [e2]; rfl)
  have hw := choose_interrupt hc (by rw [e2]) (by rw [e2]) (by rw [e2]; rfl) (by rw [e2]) (by rw [e2]; rfl) (by rw [e2])
  rw [e2] at hw
  refine ⟨fun h => hw.trans ?_, fun h => hw.trans ?_⟩
  · simp [h]
  · simp [h, State.heldWork]

/-- Both contexts are ready: both issue, the primary alone where the classes meet, or neither. -/
theorem work_both (hp : s.turn n x .p = .ready) (hq : s.turn n x .s = .ready)
    (hq1 : s.turn n (x.land .p).tile .s = .ready) :
    let a (lq : Bool) := (x.primaryView lq).bid s.code .p
    let b := x.secondaryBid s.code
    (s.fits x (a true) (b true true) = true → (a true).meets (b true true) = false → (s.choose n x).2 =
      [.land n .p, .land n .s] ++ s.dueAccesses n .p (x.ctx .p) ++ x.lateWork n .p ++ [.begin n .p (a true)] ++
        s.dueAccesses n .s (x.ctx .s) ++ x.lateWork n .s ++ [.begin n .s (b true true)]) ∧
    ((a true).meets (b true true) = true → (a false).meets (b true false) = true → s.fits x (a false) (b true false) = true →
      (s.choose n x).2 = s.aloneWork n x (a false)) ∧
    ((∀ lp lq, s.fits x (a lq) (b lp lq) = false) → (s.choose n x).2 = s.heldWork n x) := by
  intro a b
  obtain ⟨h1, h2, h3⟩ := chosen_both hp hq
  have e (lp lq : Bool) := chooseWith_both hd (lp := lp) (lq := lq) hp (by cases lp; exact hq; exact hq1)
  have hw {lp lq : Bool} (hc : s.chosen n x = s.chooseWith n x lp lq) :=
    choose_work hc (by rw [e]; exact .inl rfl) (by rw [e]; exact .inl rfl)
  refine ⟨fun hf hm => ?_, fun hm hm' hf => ?_, fun hf => ?_⟩
  · have e1 := e true true
    simp only [a, b] at hf hm
    simp only [hf, hm] at e1
    rw [hw (h1 (by rw [e1]; rfl)), e1]
    simp [a, b]
  · have e1 := e true true
    have e2 := e true false
    simp only [a, b] at hf hm hm'
    simp only [hm] at e1
    simp only [hf, hm'] at e2
    rw [hw (h2 (by rw [e1]; simp [Choice.agrees]) (by rw [e2]; rfl)), e2]
    simp [State.aloneWork, a]
  · simp only [a, b] at hf
    have e' (lp lq : Bool) := e lp lq
    simp only [hf] at e'
    rw [hw (h3 (by rw [e']; rfl) (by rw [e']; rfl) (by rw [e']; rfl) (by rw [e']; rfl)), e']
    simp [State.heldWork]

end

/-- The choice on a machine of one listed tile begins the issue stage with that tile's work. -/
theorem bundleSelection_one {s : State} {n : Nat} {x : Tile} (hs : s.stage = .system) (ht : s.tiles = [(n, x)]) :
    ∃ u, exec .bundleSelection s = .next u ∧ u.stage = .issue ∧ u.work = (s.choose n x).2 := by
  have h : exec .bundleSelection s = execBundleSelection s := rfl
  rw [h, execBundleSelection, hs]
  refine ⟨_, rfl, rfl, ?_⟩
  simp [ht]

end Sys2Proof.Machine
end

