-- ==== Sys2Proof/Proofs/TaskEnds.lean ====
section
/-! PROOFS. A context that has ended (R91, R309, R319, R320): what the notes of faults leave, what the end of a unit leaves of the
contexts, and the pass that follows. -/

namespace Sys2Proof.Machine

/-! ### Steps that leave every context -/

/-- Every context is as it was. -/
def State.SameCtx (s u : State) : Prop := ∀ t cx, u.ctx t cx = s.ctx t cx

namespace State.SameCtx

theorem of_tiles {s u : State} (h : u.tiles = s.tiles) : s.SameCtx u := fun t cx => by
  unfold State.ctx State.tile
  rw [h]

theorem trans {s t u : State} (h : s.SameCtx t) (h' : t.SameCtx u) : s.SameCtx u := fun n cx => (h' n cx).trans (h n cx)

theorem modPart (s : State) (p : Nat) (f : Part → Part) : s.SameCtx (s.modPart p f) := of_tiles rfl

theorem modTile (s : State) (t : Nat) {f : Tile → Tile} (hf : ∀ x cx, (f x).ctx cx = x.ctx cx) : s.SameCtx (s.modTile t f) := by
  intro u cx
  unfold State.ctx
  by_cases e : t = u
  · subst e; rw [tile_modTile]; exact hf _ _
  · rw [tile_modTile_other s e]

end State.SameCtx

/-- A context after one has been changed. -/
theorem ctx_modCtx_eq (s : State) (t u : Nat) (cx cy : Cx) (f : Ctx → Ctx) :
    (s.modCtx t cx f).ctx u cy = if t = u ∧ cx = cy then f (s.ctx t cx) else s.ctx u cy := by
  by_cases e : t = u
  · subst e
    cases cx <;> cases cy
    · exact (ctx_modCtx s t .p f).trans (if_pos ⟨rfl, rfl⟩).symm
    · exact (ctx_putCtx_other s t .p _).trans (if_neg nofun).symm
    · exact (ctx_putCtx_other s t .s _).trans (if_neg nofun).symm
    · exact (ctx_modCtx s t .s f).trans (if_pos ⟨rfl, rfl⟩).symm
  · rw [if_neg fun h => e h.1, ctx_modCtx_other s e]

@[simp] theorem partStore_tiles (s : State) (p a : Nat) (bs : List Byte) : (s.partStore p a bs).tiles = s.tiles := by
  unfold State.partStore
  split <;> rfl

@[simp] theorem writeEntry_tiles (s : State) (p : Nat) (g : Seg) : (s.writeEntry p g).tiles = s.tiles := by
  unfold State.writeEntry
  split
  · rfl
  · exact partStore_tiles ..

@[simp] theorem putBytes_tiles (s : State) (p : Nat) (g : Seg) : (s.putBytes p g).tiles = s.tiles := by
  unfold State.putBytes State.writeBack
  split
  · split
    · rfl
    · exact partStore_tiles ..
  · rfl

@[simp] theorem sendOut_tiles (s : State) (m : Sent) (k : Clock) : (s.sendOut m k).tiles = s.tiles := by
  rw [sendOut_frame]

@[simp] theorem tellHome_tiles (s : State) (p launch unit kind value : Nat) :
    (s.tellHome p launch unit kind value).tiles = s.tiles := by
  unfold State.tellHome
  split
  · split
    · exact sendOut_tiles ..
    · rfl
  · rfl

/-- A signal reaches a flag, or a log (R104, R355). -/
theorem deliver_same (s : State) (g : Signal) : s.SameCtx (s.deliver g) := by
  unfold State.deliver
  split
  · exact .of_tiles rfl
  · refine .modTile s _ fun x cx => ?_
    dsimp only
    split <;> cases cx <;> rfl

/-- A join reaches a segment and a flag, or a log, or another module (R320). -/
theorem join_same (s : State) (p : Nat) (l : Launch) : s.SameCtx (s.join p l) := by
  unfold State.join
  split
  · exact .of_tiles rfl
  · dsimp only
    split
    · split
      · exact .of_tiles rfl
      · exact .of_tiles (sendOut_tiles ..)
    · split
      · exact .of_tiles rfl
      · split
        · exact .of_tiles rfl
        · exact (State.SameCtx.of_tiles (by rw [putBytes_tiles]; rfl)).trans (deliver_same _ _)

theorem finish_same (s : State) (p launch : Nat) : s.SameCtx (s.finish p launch) := by
  unfold State.finish
  split
  · split
    · exact .trans (.of_tiles rfl) (join_same _ _ _)
    · exact .of_tiles rfl
  · exact .of_tiles rfl

theorem countEnd_normal_same (s : State) (p : Nat) (k : Task) (w : Dword) : s.SameCtx (s.countEnd p k (.normal w)) :=
  .of_tiles (tellHome_tiles ..)

/-- A group that leaves a tile changes the tile's groups and segments (R385). -/
theorem leaveGroup_same (s : State) (p t launch : Nat) (other : Option Nat) : s.SameCtx (s.leaveGroup p t launch other) := by
  unfold State.leaveGroup
  dsimp only
  generalize hu : State.modTile s t _ = u
  have h : s.SameCtx u := hu ▸ .modTile s t fun x cx => by cases cx <;> rfl
  split
  · exact h
  · exact h.trans (.of_tiles (List.foldlRecOn (motive := fun v : State => v.tiles = u.tiles) _ _ rfl fun v hv _ _ => hv))

/-! ### The end of a unit (R171, R319) -/

/-- A context that is released is blank. -/
theorem releaseCtx_ctx (s : State) (t : Nat) (cx : Cx) : ∃ c : Ctx, (s.releaseCtx t cx).ctx t cx = c.blank := by
  unfold State.releaseCtx
  dsimp only
  generalize ((s.cancelOps t cx).handOver t cx).unbindAll t cx = u
  have h : ((u.modTile t fun x => (x.freeBanks cx).modCtx cx (·.blank)).ctx t cx) = (((u.tile t).freeBanks cx).ctx cx).blank := by
    rw [State.ctx, tile_modTile, Tile.ctx_modCtx]
  split
  · exact ⟨_, (State.SameCtx.modTile _ t (fun x cy => by cases cy <;> rfl) t cx).trans h⟩
  · exact ⟨_, h⟩

/-- A task of one context leaves it blank. -/
theorem leaveTask_ctx (s : State) (p : Nat) {k : Task} (h : k.span = 1) :
    ∃ c : Ctx, (s.leaveTask p k).ctx k.tile k.cx = c.blank := by
  have hk : k.contexts = [(k.tile, k.cx)] := by simp [Task.contexts, h]
  unfold State.leaveTask
  simp only [hk, List.foldl_cons, List.foldl_nil]
  generalize State.modPart s p _ = u
  obtain ⟨c, hc⟩ := releaseCtx_ctx u k.tile k.cx
  exact ⟨c, (leaveGroup_same _ _ _ _ _ k.tile k.cx).trans hc⟩

/-- A unit of one context that ends normally leaves it without a task. -/
theorem unitEnd_normal {s : State} {p : Nat} {k : Task} (h : k.span = 1) (w : Dword) :
    let c := (s.unitEnd p k (.normal w)).ctx k.tile k.cx
    c.task = none ∧ c.life = .idle := by
  obtain ⟨c, hc⟩ := leaveTask_ctx s p h
  have hu := ((countEnd_normal_same (s.leaveTask p k) p k w).trans (finish_same _ p k.launch)) k.tile k.cx
  have e : (s.unitEnd p k (.normal w)).ctx k.tile k.cx = c.blank := hu.trans hc
  simp only [e]
  exact ⟨rfl, rfl⟩

/-! ### What the notes of faults leave (R320) -/

/-- A step that leaves every context but for the note of its fault, and every task and the partitions of the tiles. -/
structure State.Notes (s u : State) : Prop where
  ctx (t : Nat) (cx : Cx) : ∃ b, u.ctx t cx = { s.ctx t cx with noted := b }
  tasks (p : Nat) : (u.part p).tasks = (s.part p).tasks
  home (t : Nat) : u.partOf t = s.partOf t

namespace State.Notes

theorem refl (s : State) : s.Notes s := ⟨fun _ _ => ⟨_, rfl⟩, fun _ => rfl, fun _ => rfl⟩

theorem trans {s t u : State} (h : s.Notes t) (h' : t.Notes u) : s.Notes u where
  ctx n cx := by
    obtain ⟨b, hb⟩ := h.ctx n cx
    obtain ⟨b', hb'⟩ := h'.ctx n cx
    exact ⟨b', by rw [hb', hb]⟩
  tasks p := (h'.tasks p).trans (h.tasks p)
  home n := (h'.home n).trans (h.home n)

theorem modLaunch (s : State) (p id : Nat) (f : Launch → Launch) : s.Notes (s.modLaunch p id f) where
  ctx _ _ := ⟨_, rfl⟩
  tasks q := by
    by_cases e : p = q
    · subst e; rw [State.modLaunch, part_modPart]
    · exact congrArg Part.tasks (part_modPart_other s e _)
  home n := partOf_modPart s p _ (by rfl) n

theorem note (s : State) (t : Nat) (cx : Cx) : s.Notes (s.modCtx t cx fun c => { c with noted := true }) where
  ctx u cy := by
    rw [ctx_modCtx_eq]
    split
    · rename_i e; obtain ⟨rfl, rfl⟩ := e; exact ⟨true, rfl⟩
    · exact ⟨_, rfl⟩
  tasks _ := rfl
  home _ := rfl

theorem task? {s u : State} (h : s.Notes u) (p id : Nat) : u.task? p id = s.task? p id := by
  unfold State.task?; rw [h.tasks]

end State.Notes

theorem noteFaults_notes (s : State) : s.Notes s.noteFaults := by
  unfold State.noteFaults
  refine List.foldlRecOn (motive := fun u => s.Notes u) _ _ (.refl s) fun u hu x _ => ?_
  dsimp only
  split
  · exact hu
  · split
    · exact hu.trans ((State.Notes.modLaunch u _ _ _).trans (.note _ _ _))
    · exact hu.trans (.note u _ _)

/-! ### What comes after a pass (R309) -/

theorem saveSegment_tiles {s u : State} {p t banks id : Nat} (h : s.saveSegment p t banks = some (id, u)) :
    u.tiles = s.tiles := by
  unfold State.saveSegment at h
  dsimp only at h
  split at h
  · cases h
  · rw [← (Prod.mk.inj (Option.some.inj h)).2, writeEntry_tiles]
    rfl

/-- A context that is asked out has its interrupt pending, and is otherwise as it was. -/
theorem askOut_ctx (s : State) (p : Nat) (k : Task) (kind : Nat) :
    ∃ q, (s.askOut p k kind).ctx k.tile k.cx = { s.ctx k.tile k.cx with irq := q } := by
  unfold State.askOut
  split
  · exact ⟨_, rfl⟩
  · rename_i id u e
    have h : (u.modTask p k.id fun k => { k with asked := kind }).ctx k.tile k.cx = s.ctx k.tile k.cx :=
      State.SameCtx.of_tiles (saveSegment_tiles e) k.tile k.cx
    rw [ctx_modCtx, h]
    exact ⟨_, rfl⟩

/-- A pass begins with the names of the context, at the pass's entry. -/
theorem startPass_ctx (s : State) (p : Nat) (k : Task) (x : Pass) (life : Life) :
    let c := (s.startPass p k x life).ctx k.tile k.cx
    c.life = life ∧ c.pos = { pc := (k.entry x).1, entry := true } ∧
      c.regs.segmap = (s.ctx k.tile k.cx).regs.segmap := by
  unfold State.startPass
  dsimp only
  generalize hu : State.modCtx _ k.tile k.cx _ = u
  have h : (u.ctx k.tile k.cx).life = life ∧ (u.ctx k.tile k.cx).pos = { pc := (k.entry x).1, entry := true } ∧
      (u.ctx k.tile k.cx).regs.segmap = (s.ctx k.tile k.cx).regs.segmap := by
    subst hu
    rw [ctx_modCtx]
    exact ⟨rfl, rfl, rfl⟩
  split
  · obtain ⟨q, hq⟩ := askOut_ctx u p k 2
    rw [hq]
    exact h
  · exact h

theorem after_kernel {k : Task} {n : Nat} (h : n + 1 < k.passes) : k.after (some (.kernel n)) = some (.kernel (n + 1)) :=
  if_pos h

theorem after_last {k : Task} {n : Nat} (h : k.passes ≤ n + 1) (he : wd k.tt 2 = 0) : k.after (some (.kernel n)) = none :=
  (if_neg (Nat.not_lt.2 h)).trans (if_pos he)

section
variable (s : State) (p : Nat) {k : Task} (w : Dword) (hl : isLoop k.lw = false)
include hl

/-- Where a pass follows, it starts. -/
theorem passEnd_next {x : Pass} (h : k.after (some k.pass) = some x) : s.passEnd p k w =
    s.startPass p k x (if k.mark = 2 && boundary k.pass x then .starting else .running) := by
  simp [State.passEnd, hl, h]

/-- Where none follows, the unit ends. -/
theorem passEnd_last (h : k.after (some k.pass) = none) : s.passEnd p k w = s.unitEnd p k (.normal w) := by
  simp [State.passEnd, hl, h]

end

/-! ### The row endComplete (R91) -/

section
variable {c : Ctx}

/-- An access of the bundle to be made, or in user mode a counter that has not fallen, is waited for. -/
theorem over_waits (h : c.delayed ≠ [] ∨ c.frame.mode = false ∧ ¬ (c.os = 0 ∧ c.oc = 0 ∧ c.om = 0)) : c.over = false := by
  rcases h with h | ⟨hm, h⟩
  · simp [Ctx.over, h]
  · have hn : (c.os == 0 && c.oc == 0 && c.om == 0) = false := by
      rw [Bool.eq_false_iff]
      simpa [and_assoc] using h
    unfold Ctx.over
    rw [hm, hn]
    cases c.life <;> simp

theorem over_rolling (h : c.phase.rolling = true) : c.over = false := by simp [Ctx.over, h]

section
variable (hr : c.phase.rolling = false) (hd : c.delayed = []) (hs : c.os = 0) (hc : c.oc = 0) (hm : c.om = 0)
include hr hd hs hc hm

theorem over_ended {w : Dword} (hl : c.life = .ended w) : c.over = true := by simp [Ctx.over, hr, hd, hs, hc, hm, hl]
theorem over_faulted {cause : Nat} (hl : c.life = .faulted cause) : c.over = true := by simp [Ctx.over, hr, hd, hs, hc, hm, hl]

end

end

section
variable {s u : State} (n : s.Notes u) (t : Nat) (cx : Cx)
include n

/-- What a note leaves of a context: all but the note. -/
theorem State.Notes.keeps {α : Type} (g : Ctx → α) (hg : ∀ c b, g { c with noted := b } = g c) : g (u.ctx t cx) = g (s.ctx t cx) := by
  obtain ⟨b, hb⟩ := n.ctx t cx
  rw [hb, hg]

theorem State.Notes.over : (u.ctx t cx).over = (s.ctx t cx).over := n.keeps t cx Ctx.over fun _ _ => rfl
theorem State.Notes.life : (u.ctx t cx).life = (s.ctx t cx).life := n.keeps t cx Ctx.life fun _ _ => rfl
theorem State.Notes.lane : (u.ctx t cx).lane = (s.ctx t cx).lane := n.keeps t cx Ctx.lane fun _ _ => rfl
theorem State.Notes.task : (u.ctx t cx).task = (s.ctx t cx).task := n.keeps t cx Ctx.task fun _ _ => rfl
theorem State.Notes.frame : (u.ctx t cx).frame = (s.ctx t cx).frame := n.keeps t cx Ctx.frame fun _ _ => rfl
theorem State.Notes.regs : (u.ctx t cx).regs = (s.ctx t cx).regs := n.keeps t cx Ctx.regs fun _ _ => rfl

end

section
variable {s : State} {t : Nat} {cx : Cx}

/-- A context that has something to wait for: the faults of the core cycle are noted. -/
theorem endComplete_waits (h : (s.ctx t cx).over = false) : exec (.endComplete t cx) s = .next s.noteFaults := by
  show execEndComplete t cx s = _
  simp [execEndComplete, (noteFaults_notes s).over, h]

/-- A pass of a task has ended, and nothing is left to wait for. -/
theorem endComplete_pass {w : Dword} {k : Task} (h : (s.ctx t cx).over = true)
    (hl : (s.ctx t cx).life = .ended w) (hm : (s.ctx t cx).frame.mode = false) (hc : (s.ctx t cx).lane = none)
    (hk : (s.ctx t cx).task.bind (s.task? (s.partOf t)) = some k) (hw : bit w 63 = false) :
    exec (.endComplete t cx) s = .next (s.noteFaults.passEnd (s.partOf t) k w) := by
  have n := noteFaults_notes s
  have hk' : (s.ctx t cx).task.bind (s.noteFaults.task? (s.partOf t)) = some k := by rw [← hk]; congr 1; exact funext (n.task? _)
  show execEndComplete t cx s = _
  simp [execEndComplete, n.over, n.life, n.frame, n.lane, n.task, n.home, h, hl, hm, hc, hk', (show w[63] = false from hw)]

/-- A context with a fault and no task is released. -/
theorem endComplete_fault {cause : Nat} (h : (s.ctx t cx).over = true) (hl : (s.ctx t cx).life = .faulted cause)
    (hc : (s.ctx t cx).lane = none) (hk : (s.ctx t cx).task = none) :
    exec (.endComplete t cx) s = .next (s.noteFaults.releaseCtx t cx) := by
  have n := noteFaults_notes s
  show execEndComplete t cx s = _
  simp [execEndComplete, n.over, n.life, n.lane, n.task, h, hl, hc, hk]

end

end Sys2Proof.Machine
end

