-- ==== Sys2Proof/Proofs/Rollbacks.lean ====
section
/-! PROOFS. A rollback (R361): what the first steps leave of the context and of the operations, and what the last bring back. -/

namespace Sys2Proof.Machine

/-! ### Operations that go (R361 step 2) -/

theorem unpin_frame (s : State) (p : Nat) (ids : List Nat) :
    (s.unpin p ids).tiles = s.tiles ∧ (s.unpin p ids).eops = s.eops :=
  List.foldlRecOn (motive := fun u : State => u.tiles = s.tiles ∧ u.eops = s.eops) ids _ ⟨rfl, rfl⟩ fun _ h _ _ => h

/-- What is left on a tile, in one of its contexts and of the E operations where operations go: the context up to its delayed
accesses, and whose the running sequence operation is. -/
structure State.Drops (t : Nat) (cx : Cx) (s u : State) : Prop where
  ctx : ∃ d, u.ctx t cx = { s.ctx t cx with delayed := d }
  run : (u.tile t).seqRun.map (·.cx) = (s.tile t).seqRun.map (·.cx)
  ops (o : EOp) (h : o ∈ u.eops) : o ∈ s.eops

namespace State.Drops

variable {t : Nat} {cx : Cx}

theorem of_same {s u : State} (ht : u.tiles = s.tiles) (ho : u.eops = s.eops) : s.Drops t cx u where
  ctx := ⟨_, State.SameCtx.of_tiles ht t cx⟩
  run := by rw [State.tile, ht]; rfl
  ops _ h := ho ▸ h

theorem trans {s u v : State} (h : s.Drops t cx u) (h' : u.Drops t cx v) : s.Drops t cx v where
  ctx := by
    obtain ⟨d, hd⟩ := h.ctx
    obtain ⟨d', hd'⟩ := h'.ctx
    exact ⟨d', by rw [hd', hd]⟩
  run := h'.run.trans h.run
  ops o ho := h.ops o (h'.ops o ho)

theorem clearRanges (s : State) (u op : Nat) (gone : Range → Bool) (k : Clock) : s.Drops t cx (s.clearRanges u op gone k) where
  ctx := by
    unfold State.clearRanges State.ctx
    by_cases e : u = t
    · subst e
      rw [tile_modTile]
      cases cx <;> exact ⟨_, rfl⟩
    · rw [tile_modTile_other s e]
      exact ⟨_, rfl⟩
  run := by
    unfold State.clearRanges
    by_cases e : u = t
    · subst e; rw [tile_modTile]
    · rw [tile_modTile_other s e]
  ops _ h := h

theorem eRemove (s : State) (o : EOp) : s.Drops t cx (s.eRemove o) := by
  obtain ⟨ht, ho⟩ := unpin_frame s (s.partOf o.tile) o.pinned
  refine (of_same ht ho).trans ((clearRanges _ o.tile o.id (fun _ => true) []).trans ⟨⟨_, rfl⟩, rfl, fun y hy => ?_⟩)
  exact List.mem_of_mem_filter hy

theorem seqStop (s : State) : s.Drops t cx (s.seqStop t cx) := by
  unfold State.seqStop
  split
  · rename_i o ho
    split
    · have h : s.Drops t cx (s.modTile t fun x => { x with seqRun := some { o with stop := true, stopAt := s.now } }) := by
        refine ⟨⟨(s.ctx t cx).delayed, ?_⟩, ?_, fun _ h => h⟩
        · rw [State.ctx, tile_modTile]; cases cx <;> rfl
        · rw [tile_modTile, ho]; rfl
      dsimp only
      split
      · exact h.trans (of_same rfl rfl)
      · exact h
    · exact of_same rfl rfl
  · exact of_same rfl rfl

theorem seqKill (s : State) : s.Drops t cx (s.seqKill t cx) := by
  refine (seqStop s).trans ⟨⟨((s.seqStop t cx).ctx t cx).delayed, ?_⟩, ?_, fun _ h => h⟩
  · unfold State.seqKill
    dsimp only
    rw [State.ctx, tile_modTile]
    cases cx <;> rfl
  · unfold State.seqKill
    dsimp only
    rw [tile_modTile]
    cases ((s.seqStop t cx).tile t).seqRun with
    | none => rfl
    | some o => dsimp only [Option.map_some]; split <;> rfl

end State.Drops

theorem seqKill_eops (s : State) (t : Nat) (cx : Cx) : (s.seqKill t cx).eops = s.eops := by
  show (s.seqStop t cx).eops = s.eops
  unfold State.seqStop
  split
  · split
    · dsimp only
      split <;> rfl
    · rfl
  · rfl

/-- Of the E operations those stay whose number no removed one has. -/
theorem eRemove_mem {s : State} {o y : EOp} (h : o ∈ s.eops) (hn : o.id ≠ y.id) : o ∈ (s.eRemove y).eops := by
  have e : (s.eRemove y).eops = s.eops.filter fun q => q.id != y.id :=
    congrArg (List.filter fun q : EOp => q.id != y.id) (unpin_frame s (s.partOf y.tile) y.pinned).2
  rw [e]
  exact List.mem_filter.2 ⟨h, by simpa using hn⟩

/-- A list of E operations goes. -/
theorem eRemoves_drops (t : Nat) (cx : Cx) (gone : List EOp) (s : State) :
    s.Drops t cx (gone.foldl (fun s o => s.eRemove o) s) ∧
    ∀ o ∈ s.eops, (∀ y ∈ gone, o.id ≠ y.id) → o ∈ (gone.foldl (fun s o => s.eRemove o) s).eops := by
  refine List.foldlRecOn (motive := fun u : State => s.Drops t cx u ∧ ∀ o ∈ s.eops, (∀ y ∈ gone, o.id ≠ y.id) → o ∈ u.eops)
    gone _ ⟨.of_same rfl rfl, fun _ h _ => h⟩ fun u hu y hy => ?_
  obtain ⟨hd, hm⟩ := hu
  exact ⟨hd.trans (.eRemove u y), fun o ho hn => eRemove_mem (hm o ho hn) (hn y hy)⟩

/-! ### The beginning of a rollback (R361 steps 1, 2 and 4) -/

/-- An E operation of a context that has been granted and has not completed. -/
def EOp.granted (o : EOp) (t : Nat) (cx : Cx) : Bool :=
  o.tile == t && o.cx == cx && !o.orphan && (o.stage == 2 || o.stage == 3) && decide (o.op < 12)

theorem granted_iff (o : EOp) (t : Nat) (cx : Cx) : o.granted t cx = true ↔
    o.tile = t ∧ o.cx = cx ∧ o.orphan = false ∧ (o.stage = 2 ∨ o.stage = 3) ∧ o.op < 12 := by
  simp [EOp.granted, and_assoc]

theorem rollReady_eq (s : State) (t : Nat) (cx : Cx) : s.rollReady t cx =
    (!(((s.tile t).seqRun.map (·.cx)).any fun y => y == cx) && !(s.eops.any fun o => o.granted t cx)) := by
  rw [Option.any_map]
  rfl

/-- A change of the context leaves whose the tile's running sequence operation is. -/
theorem modCtx_run (s : State) (t : Nat) (cx : Cx) (f : Ctx → Ctx) : ((s.modCtx t cx f).tile t).seqRun = (s.tile t).seqRun := by
  unfold State.modCtx State.putCtx
  rw [tile_putTile, Tile.putCtx_seqRun]

/-- The operations of the phase that have not been granted go. -/
theorem dropPhaseOps_drops (s : State) (t : Nat) (cx : Cx) (tick : Nat) :
    let u := s.dropPhaseOps t cx tick
    (∃ d n, u.ctx t cx = { s.ctx t cx with delayed := d, oc := n }) ∧
    (u.tile t).seqRun.map (·.cx) = (s.tile t).seqRun.map (·.cx) ∧ (∀ o ∈ u.eops, o ∈ s.eops) ∧
    ∀ o ∈ s.eops, o.granted t cx = true → (∀ y ∈ s.eops, y.id = o.id → y = o) → o ∈ u.eops := by
  unfold State.dropPhaseOps
  dsimp only
  generalize hg : s.eops.filter _ = gone
  obtain ⟨⟨⟨d, hd⟩, hr, ho⟩, hm⟩ := eRemoves_drops t cx gone s
  refine ⟨⟨d, (s.ctx t cx).oc - BitVec.ofNat 6 gone.length, ?_⟩, ?_, ho, fun o h hgr hu => hm o h fun y hy e => ?_⟩
  · rw [ctx_modCtx, hd]
  · rw [modCtx_run, hr]
  · subst hg
    obtain ⟨hy, hc⟩ := List.mem_filter.1 hy
    obtain rfl := hu y hy e.symm
    obtain ⟨-, -, -, hs, -⟩ := (granted_iff y t cx).1 hgr
    simp only [EOp.removable, Bool.and_eq_true, decide_eq_true_eq] at hc
    omega

/-- What the first steps leave: the context but for its counts and delayed accesses, and every operation that has been granted. -/
theorem rollStart_drops (s : State) (t : Nat) (cx : Cx) (x : Snapshot) :
    let u := s.rollStart t cx x
    let c := s.ctx t cx
    (∃ d n, u.ctx t cx = { c with held := [], om := 0, phase := { c.phase with rolling := true }, delayed := d, oc := n }) ∧
    (u.tile t).seqRun.map (·.cx) = (s.tile t).seqRun.map (·.cx) ∧ (∀ o ∈ u.eops, o ∈ s.eops) ∧
    ∀ o ∈ s.eops, o.granted t cx = true → (∀ y ∈ s.eops, y.id = o.id → y = o) → o ∈ u.eops := by
  unfold State.rollStart
  dsimp only
  have h : s.Drops t cx (((s.seqKill t cx).withdraw t cx (some 0)).unpin (s.partOf t) (s.ctx t cx).held) :=
    (State.Drops.seqKill s).trans (.trans (.of_same rfl rfl) (.of_same (unpin_frame _ _ _).1 (unpin_frame _ _ _).2))
  have he : (((s.seqKill t cx).withdraw t cx (some 0)).unpin (s.partOf t) (s.ctx t cx).held).eops = s.eops :=
    (unpin_frame _ _ _).2.trans (seqKill_eops s t cx)
  generalize ((s.seqKill t cx).withdraw t cx (some 0)).unpin (s.partOf t) (s.ctx t cx).held = v at h he
  obtain ⟨⟨d, hd⟩, hr, -⟩ := h
  generalize hw : v.modCtx t cx _ = w
  have hc : w.ctx t cx = { s.ctx t cx with
      delayed := d, held := [], om := 0, phase := { (s.ctx t cx).phase with rolling := true } } := by
    rw [← hw, ctx_modCtx, hd]
  have hr' : (w.tile t).seqRun.map (·.cx) = (s.tile t).seqRun.map (·.cx) := by rw [← hw, modCtx_run, hr]
  have he' : w.eops = s.eops := by rw [← hw]; exact he
  obtain ⟨⟨d', n, hu⟩, hur, hus, hug⟩ := dropPhaseOps_drops w t cx x.tick
  rw [hc] at hu
  rw [he'] at hus hug
  exact ⟨⟨d', n, hu⟩, hur.trans hr', hus, hug⟩

/-! ### The end of a rollback (R361 steps 5 to 7) -/

theorem redoCopyIn_tiles (s : State) (p t asid : Nat) (r : Regs) (e : CopyIn) : (s.redoCopyIn p t asid r e).tiles = s.tiles := by
  unfold State.redoCopyIn
  dsimp only
  split
  · rfl
  · split
    · exact putBytes_tiles ..
    · split <;> rfl
    · rfl

/-- The context is as its snapshot has it. -/
theorem rollbackTo_ctx (s : State) (t : Nat) (cx : Cx) (x : Snapshot) :
    (s.rollbackTo t cx x).ctx t cx = (s.ctx t cx).restore x := by
  unfold State.rollbackTo
  dsimp only
  generalize hu : List.foldl _ s (x.log.getD []) = u
  have h : s.SameCtx u := .of_tiles (hu ▸ List.foldlRecOn (motive := fun v : State => v.tiles = s.tiles) _ _ rfl
    fun v hv e _ => (redoCopyIn_tiles ..).trans hv)
  have h' (v : State) (hv : v.ctx t cx = u.ctx t cx) : ((v.modCtx t cx (·.restore x)).logEvent 0x361 (t * 2 + cx.num)).ctx t cx =
      (s.ctx t cx).restore x := by
    show (v.modCtx t cx (·.restore x)).ctx t cx = _
    rw [ctx_modCtx, hv, h t cx]
  split
  · exact h' _ rfl
  · exact h' _ rfl

/-- Before the third failure in a row nothing else happens. -/
theorem rollEnd_ctx {s : State} {t : Nat} {cx : Cx} {x : Snapshot} (h : (s.ctx t cx).phase.failures + 1 < 3) :
    (s.rollEnd t cx x).ctx t cx = (s.ctx t cx).restore x := by
  have hr := rollbackTo_ctx s t cx x
  have hf : ¬ 3 ≤ ((s.rollbackTo t cx x).ctx t cx).phase.failures := by
    rw [hr]
    exact Nat.not_le.2 h
  unfold State.rollEnd
  dsimp only
  rw [if_neg hf, hr]

/-! ### The row rollback (R360, R361) -/

theorem mchk_ctx (s : State) (t : Nat) (cx : Cx) (a b : Nat) : (s.mchk t cx a b).ctx t cx = (s.ctx t cx).fail Cause.mchk := by
  show (s.modCtx t cx (·.fail Cause.mchk)).ctx t cx = _
  rw [ctx_modCtx]

section
variable {s : State} {t : Nat} {cx : Cx}

/-- A context without a task, or one that has no rollback in progress and neither runs nor has ended, stays as it is. -/
theorem rollback_none (h : (s.ctx t cx).task = none ∨ (s.ctx t cx).phase.rolling = false ∧ (s.ctx t cx).life ≠ .running ∧
    ∀ w, (s.ctx t cx).life ≠ .ended w) : exec (.rollback t cx) s = .next s := by
  show execRollback t cx s = _
  unfold execRollback
  rcases h with h | ⟨hr, hl, he⟩
  · simp [h]
  · dsimp only
    split
    · exact absurd ‹_› hl
    · exact absurd ‹_› (he _)
    · simp [hr]

/-- In a phase that cannot be repaired the context fails with MCHK (R328). -/
theorem rollback_fails (hk : (s.ctx t cx).task.isSome = true) (hl : (s.ctx t cx).life = .running) (hc : (s.ctx t cx).lane = none)
    (hp : (s.ctx t cx).phase.snap = none ∨ (s.ctx t cx).phase.unrepairable = true) :
    exec (.rollback t cx) s = .next (s.mchk t cx 1 0) := by
  have hr : (s.ctx t cx).phase.repairable = false := by
    rcases hp with hp | hp <;> simp [Phase.repairable, hp]
  show execRollback t cx s = _
  simp [execRollback, hl, hc, hr, Option.isSome_iff_ne_none.1 hk]

/-- Else the rollback begins. -/
theorem rollback_begins {x : Snapshot} (hk : (s.ctx t cx).task.isSome = true) (hl : (s.ctx t cx).life = .running)
    (hx : (s.ctx t cx).phase.snap = some x) (hp : (s.ctx t cx).phase.unrepairable = false)
    (hr : (s.ctx t cx).phase.rolling = false) : exec (.rollback t cx) s = .next (s.rollback t cx x) := by
  show execRollback t cx s = _
  simp [execRollback, hl, hx, hr, Phase.repairable, hp, Option.isSome_iff_ne_none.1 hk]

/-- A rollback waits for an operation that has been granted: the context is frozen. -/
theorem rollback_waits {x : Snapshot} {o : EOp} (ho : o ∈ s.eops) (hg : o.granted t cx = true)
    (hu : ∀ y ∈ s.eops, y.id = o.id → y = o) : s.rollback t cx x = s.rollStart t cx x := by
  obtain ⟨-, -, -, hm⟩ := rollStart_drops s t cx x
  have h : (s.rollStart t cx x).rollReady t cx = false := by
    rw [rollReady_eq, List.any_eq_true.2 ⟨o, hm o ho hg hu, hg⟩, Bool.not_true, Bool.and_false]
  unfold State.rollback
  dsimp only
  rw [h]
  rfl

/-- With no operation to wait for it ends at once. -/
theorem rollback_ends {x : Snapshot} (hs : ∀ o, (s.tile t).seqRun = some o → o.cx ≠ cx)
    (he : ∀ o ∈ s.eops, o.granted t cx = false) : s.rollback t cx x = (s.rollStart t cx x).rollEnd t cx x := by
  obtain ⟨-, hr, hm, -⟩ := rollStart_drops s t cx x
  have h1 : ((s.tile t).seqRun.map (·.cx)).any (fun y => y == cx) = false := by
    cases hq : (s.tile t).seqRun with
    | none => rfl
    | some o => exact beq_false_of_ne (hs o hq)
  have h2 : (s.rollStart t cx x).eops.any (fun o => o.granted t cx) = false :=
    List.any_eq_false.2 fun o ho => by simp [he o (hm o ho)]
  unfold State.rollback
  dsimp only
  rw [rollReady_eq, hr, h1, h2]
  rfl

end

end Sys2Proof.Machine
end

