-- ==== Sys2Proof/Proofs/ContextEvents.lean ====
section
/-! PROOFS. The events of a core cycle at a context (R27, R52, R29, R73, R201, R326, R327, R91, R248, R361): landings, stores,
interrupts, the fault of an operation and delayed accesses, and the obligation that says what each event does. -/

namespace Sys2Proof.Machine

/-! ### The entry address of the monitor -/

@[simp] theorem putCtx_evec (s : State) (t : Nat) (cx : Cx) (c : Ctx) : ((s.putCtx t cx c).tile t).evec = (s.tile t).evec := by
  rw [State.putCtx, tile_putTile, Tile.putCtx_evec]

@[simp] theorem dropWork_evec (s : State) (t : Nat) (cx : Cx) : ((s.dropWork t cx).tile t).evec = (s.tile t).evec := by
  obtain ⟨c, w, h⟩ := dropWork_frame s t cx
  rw [h, tile_modTile]
  rfl

/-! ### Landings (R27, R52) -/

section
variable {s : State} {t : Nat} {cx : Cx}

/-- Nothing is due: every result in flight comes one cycle nearer. -/
theorem resultLanding_none (hi : ∀ r ∈ (s.ctx t cx).inflight, 1 < r.rem) (hd : ∀ d ∈ (s.ctx t cx).delayed, d.stops = false) :
    exec (.resultLanding t cx) s = .next (s.putCtx t cx { s.ctx t cx with
      inflight := (s.ctx t cx).inflight.map fun r => { r with rem := r.rem - 1 } }) := by
  have hb : (s.ctx t cx).blocked [] = false := blocked_not hd fun r hr h => absurd (hi r hr) (by omega)
  have due : (s.ctx t cx).inflight.filter (fun r => decide (r.rem ≤ 1)) = [] :=
    List.filter_eq_nil_iff.2 fun r hr => by simpa using hi r hr
  have rest : (s.ctx t cx).inflight.filter (fun r => decide (1 < r.rem)) = (s.ctx t cx).inflight :=
    List.filter_eq_self.2 fun r hr => by simpa using hi r hr
  have hl : (s.tile t).land cx = { tile := (s.tile t).putCtx cx { s.ctx t cx with
      inflight := (s.ctx t cx).inflight.map fun r => { r with rem := r.rem - 1 } } } := by
    unfold Tile.land
    dsimp only
    rw [show (s.tile t).ctx cx = s.ctx t cx from rfl, due, rest]
    rfl
  exact congrArg Host.Outcome.next (landCtx_plain hb hl rfl rfl rfl)

/-- Poison of a lane leaves a context or poisons it. -/
theorem poisonLane_ctx (s : State) (l : Lane) (cause u t : Nat) (cx : Cx) :
    (s.poisonLane l cause u).ctx t cx = s.ctx t cx ∨ (s.poisonLane l cause u).ctx t cx = (s.ctx t cx).poison := by
  have e : (s.poisonLane l cause u).tile t = if (s.tile t).p.inLane l then { s.tile t with p := (s.tile t).p.poison } else s.tile t :=
    Eq.trans (congrArg (fun l : List (Nat × Tile) => aget l t ({} : Tile)) (List.map_congr_left fun x _ => by split <;> rfl))
      (aget_mapVal s.tiles (fun x : Tile => if x.p.inLane l then { x with p := x.p.poison } else x) t (d := {}) rfl)
  unfold State.ctx
  rw [e]
  split
  · cases cx
    · exact .inr rfl
    · exact .inl rfl
  · exact .inl rfl

/-- A cause leaves no result in flight where there was none. -/
theorem trap_inflight {cause slot : Nat} {einfo epc : Dword} {ops : List REnt} {flight : List Res}
    (h : (s.ctx t cx).inflight = []) : ((s.trap t cx cause slot einfo epc ops flight).ctx t cx).inflight = [] := by
  unfold State.trap
  dsimp only
  split
  · rename_i l _
    rcases poisonLane_ctx s l cause t t cx with e | e
    · rw [e, h]
    · rw [e]; rfl
  · split
    · show ((s.modCtx t cx (·.fail Cause.mchk)).ctx t cx).inflight = []
      rw [ctx_modCtx]; rfl
    · rw [ctx_putCtx]; rfl

end

section
variable {s : State} {t : Nat} {cx : Cx} {r : Res} {q : Nat} {v : Dword}
variable (hi : (s.ctx t cx).inflight = [r]) (hd : (s.ctx t cx).delayed = []) (hp : r.pay = .scalar q v) (hr : r.rem ≤ 1)
  (ha : r.await = none)
include hi hd hp hr ha

/-- A push enters its queue while there is room. -/
theorem push_lands (hq : q ≤ 28) (hn : ((s.ctx t cx).squeue q).length < depth false q) :
    ∃ u, exec (.resultLanding t cx) s = .next u ∧ (u.ctx t cx).inflight = [] ∧
      (u.ctx t cx).squeue q = (s.ctx t cx).squeue q ++ [v] ∧
      (u.ctx t cx).regs.fpst = (s.ctx t cx).regs.fpst ||| r.fp ∧ (u.ctx t cx).frame = (s.ctx t cx).frame := by
  have room (k : Bool × Nat) (hk : r.pay.queue = some k) :
      ((s.tile t).putCtx cx { s.ctx t cx with inflight := [] }).held cx k.1 k.2 < depth k.1 k.2 := by
    rw [hp] at hk
    obtain rfl := Option.some.inj hk
    rw [Tile.held, Tile.ctx_putCtx]
    exact hn
  have h := resultsLandInTheirRegisters.1 s t cx r hi hd hr ha (by rw [hp]; rfl) room
    (fun rows hl => by rw [hp] at hl; cases hl) (fun n v hs => by rw [hp] at hs; cases hs)
  rw [hp, apply_scalar _ _ (by omega)] at h
  have h28 : q < 29 := by omega
  have h32 : q < 32 := by omega
  refine ⟨_, h, ?_⟩
  rw [State.ctx, tile_putTile, Tile.ctx_modCtx, Tile.ctx_modCtx, Tile.ctx_putCtx]
  refine ⟨rfl, ?_, BitVec.or_zero, rfl⟩
  simp [Ctx.squeue, Ctx.mapRegs, h32, rd_wr, h28]

/-- A push that finds its queue full raises QOVF. -/
theorem push_held (hn : depth false q ≤ ((s.ctx t cx).squeue q).length) :
    ∃ u : State, u.ctx t cx = { s.ctx t cx with inflight := [] } ∧ (u.tile t).evec = (s.tile t).evec ∧
      exec (.resultLanding t cx) s = .next
        (u.trap t cx Cause.qovf r.slot (queueInfo false q ((s.ctx t cx).squeue q).length) r.pc [] [{ r with rem := 0 }]) := by
  have hb : (s.ctx t cx).blocked [] = false := blocked_not (by simp [hd]) (by simp [hi, ha])
  let y := (s.tile t).putCtx cx { s.ctx t cx with inflight := [] }
  have hy : y.ctx cx = { s.ctx t cx with inflight := [] } := Tile.ctx_putCtx ..
  have hh : y.held cx false q = ((s.ctx t cx).squeue q).length := by
    rw [Tile.held, hy]
    rfl
  have hl : (s.tile t).land cx = ({ tile := y } : Landing).hold cx (false, q) r := by
    refine (land_single hi hr).trans ?_
    show Landing.one { tile := y } cx r = _
    simp [Landing.one, hp, Payload.queue, hh, hn]
  refine ⟨(s.putTile t y).dropWork t cx, ?_, ?_, ?_⟩
  · rw [dropWork_ctx, State.ctx, tile_putTile, hy]
  · rw [dropWork_evec, tile_putTile, Tile.putCtx_evec]
  · have e : ((s.putTile t y).dropWork t cx).ctx t cx = { s.ctx t cx with inflight := [] } := by
      rw [dropWork_ctx, State.ctx, tile_putTile, hy]
    refine congrArg Host.Outcome.next ?_
    unfold State.landCtx
    simp only [hb, hl, Landing.hold, Option.none_or, hh, Bool.false_eq_true, if_false, State.lateCommands, List.foldl_nil,
      List.map_nil, List.append_nil, List.nil_append, e]

end

/-! ### Stores (R201) -/

section
variable {s : State} {t : Nat} {cx : Cx}

theorem storeRetirement_none (h : ∀ y ∈ (s.ctx t cx).stores, s.now < y.1) : exec (.storeRetirement t cx) s = .next s := by
  have hf : ((s.ctx t cx).stores.find? fun x => decide (x.1 ≤ s.now)) = none :=
    List.find?_eq_none.2 fun y hy => by simpa using h y hy
  show execStoreRetirement t cx s = _
  rw [execStoreRetirement, hf]

theorem seqAsk_tiles (s : State) (t made : Nat) : (s.seqAsk t made).tiles = s.tiles := by
  obtain h | ⟨q, h⟩ := seqAsk_frame s t made
  · rw [h]
  · rw [h]; rfl

theorem storeRetirement_due {y : Nat × Nat} {r : List (Nat × Nat)} (h : (s.ctx t cx).stores = y :: r) (hy : y.1 ≤ s.now) :
    ∃ u, exec (.storeRetirement t cx) s = .next u ∧ u.ctx t cx = { s.ctx t cx with stores := r, os := (s.ctx t cx).os - 1 } := by
  have hf : ((s.ctx t cx).stores.find? fun x => decide (x.1 ≤ s.now)) = some y := by simp [h, hy]
  have he : exec (.storeRetirement t cx) s = .next (State.seqAsk ((s.modCtx t cx fun c =>
      { c with stores := c.stores.erase y, os := c.os - 1 }).modPart (s.partOf t) fun z =>
        { z with dir := z.dir.map fun g => g.retire (agentOf t cx) y }) t (s.now - 1)) := by
    show execStoreRetirement t cx s = _
    rw [execStoreRetirement, hf]
    rfl
  refine ⟨_, he, ?_⟩
  rw [State.SameCtx.of_tiles (seqAsk_tiles ..) t cx, State.SameCtx.modPart _ _ _ t cx, ctx_modCtx, h, List.erase_cons_head]

end

/-! ### Interrupts and the faults of operations (R326, R327) -/

section
variable {s : State} {t : Nat} {cx : Cx}

theorem intr_none (h : (s.ctx t cx).irq.any = false ∨ (s.ctx t cx).frame.ie = false ∨ (s.ctx t cx).life ≠ .running) :
    exec (.intr t cx) s = .next s := by
  show execIntr t cx s = _
  rcases h with h | h | h <;> simp [execIntr, h]

/-- An interrupt enters the monitor with every pending source, in either mode. -/
theorem intr_taken (hq : (s.ctx t cx).irq.any = true) (he : (s.ctx t cx).frame.ie = true) (hl : (s.ctx t cx).life = .running) :
    ∃ u, exec (.intr t cx) s = .next u ∧ u.ctx t cx = ({ s.ctx t cx with irq := {} } : Ctx).enter cx (s.tile t).evec Cause.intr 0
      (intrInfo (s.ctx t cx).irq) (s.ctx t cx).pos.pc [] (s.ctx t cx).inflight := by
  have h : exec (.intr t cx) s = .next ((s.dropWork t cx).takeIntr t cx) := by
    show execIntr t cx s = _
    simp [execIntr, hq, he, hl]
  refine ⟨_, h, ?_⟩
  simp [State.takeIntr, State.trap]

theorem firstFault_mem {g : OpFault} {l : List OpFault} (h : firstFault l = some g) : g ∈ l := by
  induction l with
  | nil => cases h
  | cons a r ih =>
    rw [firstFault] at h
    split at h
    · rename_i k hk
      split at h
      · exact List.mem_cons_of_mem _ (ih (hk.trans h))
      · exact Option.some.inj h ▸ List.mem_cons_self
    · exact Option.some.inj h ▸ List.mem_cons_self

/-- The fault before all others is the first. -/
theorem firstFault_eq {f : OpFault} {l : List OpFault} (hf : f ∈ l) (h : ∀ g ∈ l, g = f ∨ f.order < g.order) :
    firstFault l = some f := by
  induction l with
  | nil => cases hf
  | cons a r ih =>
    rw [firstFault]
    rcases List.mem_cons.1 hf with rfl | hr
    · split
      · rename_i k hk
        rcases h k (List.mem_cons_of_mem _ (firstFault_mem hk)) with rfl | hlt
        · rw [if_neg (Nat.lt_irrefl _)]
        · rw [if_neg (Nat.lt_asymm hlt)]
      · rfl
    · rw [ih hr fun g hg => h g (List.mem_cons_of_mem _ hg)]
      rcases h a List.mem_cons_self with rfl | hlt
      · simp
      · simp [hlt]

theorem faultDelivery_none (h : (s.ctx t cx).faults = []) : exec (.operationFaultDelivery t cx) s = .next s := by
  show execOperationFaultDelivery t cx s = _
  simp [execOperationFaultDelivery, h, firstFault]

/-- The first fault enters the monitor at the next bundle's position. -/
theorem faultDelivery_taken {f : OpFault} (hf : firstFault (s.ctx t cx).faults = some f) (hm : (s.ctx t cx).frame.mode = false)
    (hl : (s.ctx t cx).lane = none) : ∃ u, exec (.operationFaultDelivery t cx) s = .next u ∧
      u.ctx t cx = ({ s.ctx t cx with faults := (s.ctx t cx).faults.erase f } : Ctx).enter cx (s.tile t).evec f.cause f.slot
        f.einfo (s.ctx t cx).pos.pc [] (s.ctx t cx).inflight := by
  have h : exec (.operationFaultDelivery t cx) s = .next (((s.dropWork t cx).putCtx t cx
      { s.ctx t cx with faults := (s.ctx t cx).faults.erase f }).trap t cx f.cause f.slot f.einfo (s.ctx t cx).pos.pc []
      (s.ctx t cx).inflight) := by
    show execOperationFaultDelivery t cx s = _
    simp [execOperationFaultDelivery, hf]
  refine ⟨_, h, ?_⟩
  rw [trap_user (by rw [ctx_putCtx]; exact hm) (by rw [ctx_putCtx]; exact hl), ctx_putCtx, ctx_putCtx, putCtx_evec, dropWork_evec]

end

/-! ### Delayed accesses (R201, R226, R248) -/

section
variable {s : State} {t : Nat} {cx : Cx}

theorem delayedAccess_none (h : (s.ctx t cx).delayed = []) :
    exec (.delayedCoreAccess t cx) s = .next s ∧ exec (.lateDatumArrival t cx) s = .next s := by
  constructor
  · show execDelayedCoreAccess t cx s = _
    simp [execDelayedCoreAccess, h, State.absentAgain, State.accessAgain]
  · show execLateDatumArrival t cx s = _
    simp [execLateDatumArrival, h]

variable {d : Delayed} (h : (s.ctx t cx).delayed = [d]) (hr : s.delayedReady t cx d = true)
include h hr

/-- The page or the row of a K slot has come. -/
theorem lateDatum_arrives (hc : slotClass d.cap.word = 9) : exec (.lateDatumArrival t cx) s = .next (s.kLater t cx d) := by
  show execLateDatumArrival t cx s = _
  simp [execLateDatumArrival, h, hr, hc]

/-- The segment of another slot is there, or will not come. -/
theorem delayedAccess_made (hc : slotClass d.cap.word ≠ 9) :
    (s.unserviced (s.partOf t) d.org.seg = 0 → exec (.delayedCoreAccess t cx) s = .next (s.gLater t cx d)) ∧
    ∀ w, s.unserviced (s.partOf t) d.org.seg = w + 1 →
      exec (.delayedCoreAccess t cx) s = .next (s.segaDelayed t cx d (w + 1)) := by
  have hf : ((s.ctx t cx).delayed.find? fun d => slotClass d.cap.word != 9 && s.delayedReady t cx d) = some d := by
    simp [h, hr, hc]
  refine ⟨fun hu => ?_, fun w hu => ?_⟩
  · show execDelayedCoreAccess t cx s = _
    simp [execDelayedCoreAccess, hf, hu]
  · show execDelayedCoreAccess t cx s = _
    simp [execDelayedCoreAccess, hf, hu]

end

/-! ### The obligation -/

section
variable {s : State} {x : Tile} {a b : Bid}

/-- Two bundles that weigh more than ILIM with the core cycles before are held (R73). -/
theorem fits_not (h : x.ilim.toNat < x.windowSum + ((a.weight + if a.meets b then 0 else b.weight) + x.engineWeight s.now)) :
    s.fits x a b = false := by
  rw [fits_eq, decide_eq_false_iff_not]
  exact Nat.not_le.2 h

/-- Of two bundles whose classes meet the first is weighed alone. -/
theorem fits_meeting (hm : a.meets b = true) :
    s.fits x a b = decide (x.windowSum + (a.weight + x.engineWeight s.now) ≤ x.ilim.toNat) := by
  rw [fits_eq, hm]
  rfl

theorem fits_apart (hm : a.meets b = false) :
    s.fits x a b = decide (x.windowSum + (a.weight + b.weight + x.engineWeight s.now) ≤ x.ilim.toNat) := by
  rw [fits_eq, hm]
  rfl

/-- A bundle alone fits, or is too heavy. -/
theorem fits_empty : (x.windowSum + (a.weight + x.engineWeight s.now) ≤ x.ilim.toNat → s.fits x a {} = true) ∧
    (x.ilim.toNat < x.windowSum + (a.weight + x.engineWeight s.now) → s.fits x a {} = false) := by
  rw [fits_apart (meets_none a)]
  exact ⟨decide_eq_true, fun h => decide_eq_false (Nat.not_le.2 h)⟩

end

/-- Settles O55, event by event. -/
theorem contextEventsTakeEffect : Obligations.ContextEventsTakeEffect := by
  unfold Obligations.ContextEventsTakeEffect
  refine ⟨fun s t cx => resultLanding_none, ?push, ?choice, fun s t cx => ⟨storeRetirement_none, fun y r => storeRetirement_due⟩,
    ?interrupt, ?fault, ?ended, fun s t cx => ⟨delayedAccess_none, fun d h hr =>
      ⟨lateDatum_arrives h hr, delayedAccess_made h hr⟩⟩, ?rollback⟩
  case push =>
    intro s t cx r q v c hi hd hp hr ha hq
    by_cases hn : (c.squeue q).length < depth false q
    · obtain ⟨u, he, hu, hs, hf, hfr⟩ := push_lands hi hd hp hr ha hq hn
      exact ⟨u, he, hu, fun _ => ⟨hs, hf, hfr⟩, fun h => absurd hn (Nat.not_lt.2 h)⟩
    · obtain ⟨u, hu, hev, he⟩ := push_held hi hd hp hr ha (Nat.not_lt.1 hn)
      refine ⟨_, he, trap_inflight (by rw [hu]), fun h => absurd h hn, fun _ hm hl => ?_⟩
      rw [trap_user (by rw [hu]; exact hm) (by rw [hu]; exact hl), ctx_putCtx, hu]
      refine ⟨rfl, ?_, rfl, rfl⟩
      show (BitVec.ofNat 11 (Cause.qovf % 256 + r.slot % 8 * 256)).toNat = _
      rw [BitVec.toNat_ofNat, Cause.qovf]
      omega
  case choice =>
    intro s n x hs ht hd one two due late sum chosen alone held b1
    obtain ⟨u, he, hst, hw⟩ := bundleSelection_one hs ht
    have chosen_of {w : List Work} (h : (s.choose n x).2 = w) : chosen w := ⟨u, he, hst, hw.trans h⟩
    refine ⟨fun hp hq hq1 => ?_, fun hp hq hq1 => ?_, fun hp hq hq1 => ?_⟩
    · obtain ⟨h1, h2⟩ := work_primary hd hp hq hq1
      exact ⟨fun h => chosen_of (h1 (fits_empty.1 h)), fun h => chosen_of (h2 (fits_empty.2 h))⟩
    · intro b e e1 e0
      obtain ⟨h1, h2, h3⟩ := work_both hd hp hq hq1
      have hb : x.secondaryBid s.code true true = e := secondaryBid_both x s.code
      have h0 (lq : Bool) : x.secondaryBid s.code false lq = e0 := secondaryBid_alone x s.code lq
      refine ⟨fun hm h => ?_, fun hm hm1 h => ?_, fun k k1 k0 k10 => ?_⟩
      · rw [hb] at h1
        exact chosen_of (h1 ((fits_apart hm).trans (decide_eq_true h)) hm)
      · rw [hb] at h2
        exact chosen_of (h2 hm hm1 ((fits_meeting hm1).trans (decide_eq_true h)))
      · refine chosen_of (h3 fun lp lq => ?_)
        cases lp
        · rw [h0]
          cases lq
          · exact fits_not k10
          · exact fits_not k0
        · cases lq
          · exact fits_not k1
          · rw [hb]
            exact fits_not k
    · obtain ⟨h1, h2⟩ := work_interrupt hd hp hq hq1
      exact ⟨fun h => chosen_of (h1 (fits_empty.1 h)), fun h => chosen_of (h2 (fits_empty.2 h))⟩
  case interrupt =>
    intro s t cx c q
    refine ⟨intr_none, fun hq he hl => ?_⟩
    obtain ⟨u, h, hu⟩ := intr_taken hq he hl
    refine ⟨u, h, ?_⟩
    simp only [hu]
    exact ⟨rfl, rfl, rfl, rfl, rfl, rfl, rfl, rfl, rfl⟩
  case fault =>
    intro s t cx c
    refine ⟨faultDelivery_none, fun f hf ho hm hl hc hs => ?_⟩
    obtain ⟨u, h, hu⟩ := faultDelivery_taken (firstFault_eq hf ho) hm hl
    refine ⟨u, h, ?_⟩
    simp only [hu]
    exact ⟨enter_cause _ _ _ _ _ _ _ _ _ hc hs, rfl, rfl, rfl, rfl, rfl⟩
  case ended =>
    intro s t cx c
    refine ⟨fun h => endComplete_waits (over_waits h), fun h => endComplete_waits (over_rolling h), ?_, ?_⟩
    · intro w k hr hd hm hs hc ho hl hw hlane hk ht hcx hspan hloop n hn
      subst ht hcx
      have hv : c.over = true := over_ended hr hd hs hc ho hl
      refine ⟨_, endComplete_pass hv hl hm hlane hk hw, fun hp hmark => ?_, fun hp he => ?_⟩
      · rw [passEnd_next _ _ _ hloop (by rw [hn]; exact after_kernel hp), hmark]
        obtain ⟨h1, h2, h3⟩ := startPass_ctx s.noteFaults (s.partOf k.tile) k (.kernel (n + 1)) .running
        exact ⟨h1, h2, h3.trans (congrArg Regs.segmap ((noteFaults_notes s).regs k.tile k.cx))⟩
      · rw [passEnd_last _ _ _ hloop (by rw [hn]; exact after_last hp he)]
        exact unitEnd_normal hspan w
    · intro cause hr hd hs hc ho hl hlane ht
      refine ⟨_, endComplete_fault (over_faulted hr hd hs hc ho hl) hl hlane ht, ?_⟩
      obtain ⟨e, he⟩ := releaseCtx_ctx s.noteFaults t cx
      rw [he]
      exact ⟨rfl, rfl⟩
  case rollback =>
    intro s t cx c granted
    refine ⟨rollback_none, fun hk hl hc hp => ⟨_, rollback_fails hk hl hc hp, mchk_ctx s t cx 1 0⟩,
      fun x hk hl hx hp hr => ⟨fun o ho hg hu => ?_, fun hs ho hf => ?_⟩⟩
    · refine ⟨_, rollback_begins hk hl hx hp hr, ?_⟩
      rw [rollback_waits ho ((granted_iff o t cx).2 hg) hu]
      obtain ⟨⟨d, n, h⟩, -⟩ := rollStart_drops s t cx x
      rw [h]
      exact ⟨rfl, rfl, rfl, rfl⟩
    · refine ⟨_, rollback_begins hk hl hx hp hr, ?_⟩
      have hng (o : EOp) (h : o ∈ s.eops) : o.granted t cx = false := Bool.eq_false_iff.2 fun g => ho o h ((granted_iff o t cx).1 g)
      obtain ⟨⟨d, n, h⟩, -⟩ := rollStart_drops s t cx x
      rw [rollback_ends hs hng, rollEnd_ctx (by rw [h]; exact hf), h]
      exact ⟨rfl, rfl, rfl, rfl, rfl, rfl, rfl, rfl, rfl⟩

end Sys2Proof.Machine
end

