-- ==== Sys2Proof/Proofs/Encodings.lean ====
section
/-! PROOFS. Encoding and decoding (R35, R36, R60 to R71): the fields of a well-formed instruction's word pass the checks of R50 step
2, by the kind of each field and by the widths of the parts, and the word decodes to the instruction. -/

namespace Sys2Proof.Laws

/-! ### The fields of appended operands -/

/-- A field that reaches from the lowest bit into the upper of two appended parts. -/
theorem fld_join {m n : Nat} (x : BitVec m) (y : BitVec n) (k : Nat) : fld (x ++ y) 0 (k + n) = fld x 0 k ++ y := by
  ext i hi
  by_cases h : i < n
  · simp [BitVec.getLsbD_append, BitVec.getElem_append, h]
  · simp [BitVec.getLsbD_append, BitVec.getElem_append, h]

theorem fld_last {m n : Nat} (x : BitVec m) (y : BitVec n) : fld (x ++ y) 0 n = y := by
  rw [fld_low _ _ _ _ (by omega), fld_whole]

/-- A field inside the operand bits of a slot word is a field of the word. -/
theorem fld_operand (w : Word) {hi : Nat} (h : hi < 18) (lo : Nat) :
    fld (fld w 0 18) lo (hi + 1 - lo) = fld w lo (hi + 1 - lo) := by
  ext i hlt
  have : lo + i < 18 := by omega
  simp [this]

/-- The number that two appended parts form. -/
theorem toNat_join {m n : Nat} (x : BitVec m) (y : BitVec n) : (x ++ y).toNat = x.toNat * 2 ^ n + y.toNat := by
  rw [BitVec.toNat_append, ← Nat.shiftLeft_add_eq_or_of_lt y.isLt, Nat.shiftLeft_eq]

/-- The class code of the word of LIT and PAD (R42, R44). -/
theorem slotClass_join (st : BitVec 1) (c : BitVec 4) (l : BitVec 27) : slotClass (st ++ c ++ l) = c.toNat := by
  have e : fld (st ++ c ++ l) 27 4 = c := (fld_high _ l 27 4 (by decide)).trans (fld_last st c)
  rw [slotClass, e]

theorem fld_stop_join (st : BitVec 1) (c : BitVec 4) (l : BitVec 27) : fld (st ++ c ++ l) 31 1 = st := by
  rw [fld_high _ _ _ _ (by decide), fld_high _ _ _ _ (by decide)]; exact fld_whole _

/-! ### Fields that step 2 of R50 accepts -/

/-- The checks of R37, R38, R43 and R60 find nothing in a field of value `x`, without LIT slots behind the slot; `d` is the
slot's D field. -/
def Fits (k : Fk) {n : Nat} (x : BitVec n) (d : Nat) : Prop := fieldFault k x.toNat n d [] = []

namespace Fits

variable {n d : Nat} {x : BitVec 6}

theorem sS (h : sSrcOk x = true) : Fits (.sS n) x d := by
  simp [sSrcOk] at h
  simp [Fits, fieldFault]; omega

theorem sB {x : BitVec 5} (h : sBOk x = true) : Fits .sB x d := by
  simp [sBOk] at h
  simp [Fits, fieldFault]; omega

theorem keepBit_low {c : Nat} (h : c < 32) : keepBit c = false := Nat.testBit_lt_two_pow h

theorem sD (h : sDstOk x = true) : Fits .sD x d := by
  simp [sDstOk] at h
  have := keepBit_low (c := x.toNat) (by omega)
  simp [Fits, fieldFault, this]; omega

theorem vS (h : vSrcOk x = true) : Fits (.vS n) x d := by
  simp [vSrcOk] at h
  simp [Fits, fieldFault, h]

theorem vD (h : vDstOk x = true) : Fits .vD x d := by
  simp [vDstOk] at h
  have := keepBit_low (c := x.toNat) (by omega)
  simp [Fits, fieldFault, this]; omega

theorem vX (h : vDstOk x = true) : Fits .vX x d := vD (d := d) h

theorem vF (h : vFusedOk x = true) : Fits .vF x d := by
  simp [vFusedOk] at h
  simp [Fits, fieldFault]; omega

theorem pD {p : BitVec 7} (h : pDstOk p = true) : Fits .pD p d := by
  simp [pDstOk] at h
  simp [Fits, fieldFault]; omega

theorem pS {p : BitVec 7} (h : pSrcOk p = true) : Fits .pS p d := by
  simp [pSrcOk] at h
  simp [Fits, fieldFault]; omega

theorem mD {m : BitVec 3} (h : mDstOk m = true) : Fits .mD (0#3 ++ m) d := by
  have h0 : m.toNat ≠ 0 := fun e => by simp [mDstOk, BitVec.eq_of_toNat_eq (y := 0#3) e] at h
  unfold Fits
  rw [toNat_join]
  simp [fieldFault]; omega

theorem mS (m : BitVec 3) : Fits .mS (0#3 ++ m) d := by
  unfold Fits
  rw [toNat_join]
  simp [fieldFault]; omega

theorem num {lo hi : Nat} {x : BitVec n} (h : numOk lo hi x = true) : Fits (.num lo hi) x d := by
  simp [numOk] at h
  simp [Fits, fieldFault]; omega

/-- A number field whose range its bits cannot leave. -/
theorem every {hi : Nat} (x : BitVec n) (h : 2 ^ n ≤ hi + 1 := by decide) : Fits (.num 0 hi) x d := by
  have := x.isLt
  simp [Fits, fieldFault]; omega

theorem bit (b : BitVec 1) : Fits (.num 0 1) (0#4 ++ b) d := by
  unfold Fits
  rw [toNat_join]
  simp [fieldFault]; omega

theorem rq (h : numOk 0 3 x = true) : Fits .rq x d := by
  simp [numOk] at h
  simp [Fits, fieldFault]; omega

theorem z : Fits .z 0#n d := by simp [Fits, fieldFault]

theorem mac : Fits .mac 0#6 d := rfl
theorem macLatch : Fits .mac 1#6 d := rfl
theorem macB (h : vSrcOk x = true) : Fits .macB x 0 := vS (n := 1) (d := 0) h
theorem macBLatch : Fits .macB 0#6 1 := rfl

theorem of_imm {k : Imm} {x : BitVec n} (h : immFault k n x.toNat [] = none) : Fits (.imm k) x d := by
  simp [Fits, fieldFault, h]

theorem any {x : BitVec n} : Fits (.imm .any) x d := rfl

theorem upTo {hi : Nat} {x : BitVec n} (h : numOk 0 hi x = true) : Fits (.imm (.upTo hi)) x d :=
  of_imm (if_pos (by simpa [numOk, immExt] using h))

theorem upTo63 : Fits (.imm (.upTo 63)) x d := of_imm (if_pos (Nat.le_of_lt_succ x.isLt))

theorem sys {x : BitVec 12} (h : sysOk x = true) : Fits (.imm .sys) x d := of_imm (if_pos h)

theorem low {m k hi : Nat} (x : BitVec k) (h : 2 ^ k ≤ hi + 1 := by decide) : Fits (.imm (.low hi)) (0#m ++ x) d := by
  refine of_imm (if_pos ?_)
  have := x.isLt
  rw [immExt, toNat_join]
  simp; omega

theorem cgset {l : BitVec 3} (k : BitVec 3) (h : numOk 1 7 l = true) : Fits (.imm .cgset) (0#6 ++ l ++ k) d := by
  simp [numOk] at h
  refine of_imm ((if_neg ?_).trans (if_pos ?_)) <;> rw [immExt, toNat_join, toNat_join] <;> simp <;> omega

theorem flagU {x : BitVec 12} : Fits (.imm .flagU) x d := of_imm (if_pos (x.isLt.trans (by decide)))

theorem flagS {x : BitVec 12} : Fits (.imm .flagS) x d := by
  refine of_imm (if_pos ?_)
  cases h : x.toNat.testBit 11 <;> simp [immInt, immExt, h] <;> omega

theorem order {x : BitVec 12} (h : orderOk x = true) : Fits (.imm .order) x d :=
  of_imm (if_pos (by simpa [orderOk, or_assoc, immExt] using h))

theorem banks {x : BitVec 12} (h : numOk 1 128 x = true) : Fits (.imm .banks) x d :=
  of_imm (if_pos (by simpa [numOk, immExt] using h))

theorem mdr (x : BitVec 1) {f : BitVec 3} (h : numOk 0 6 f = true) : Fits (.imm .mdr) (0#2 ++ x ++ f) d := by
  simp [numOk] at h
  refine of_imm ((if_neg ?_).trans (if_pos ?_)) <;> rw [immExt, toNat_join, toNat_join] <;> simp <;> omega

end Fits

/-! ### From accepted fields to the instruction -/

/-- Class, opcode and fields of every word that `encode` gives decode to its instruction. -/
theorem Layout.holds (i : Instr) : Layout.Statement i :=
  Instr.casesOn i
    resultLanding waitRetest lateDatumArrival delayedCoreAccess bundleSelection intr operationFaultDelivery
    endComplete signalApply engineRead engineLand eComplete requestGrant seqComplete moveBegin moveApplied
    kvRowLand pageFetchApplied roundSize Layout.seal settle recordTake dispatchStep tokenAge checkpoint taskStart
    ttPlace suspend meflagsStop ilimWrite eqRemove eqSubmit rbClear rbdataWrite registerWrite ringEnable
    tailWrite tlbWalkDone lockAcquire tlbinv tlbinvComplete migrationStart migrationFreeze migrationSwitch
    hostMemoryAccess doorbell wdctlWrite wdkick watchdogFirstExpiry watchdogSecondExpiry partitionFreeze
    partitionResume partitionKill partitionReset flitSend flitReceive nak ack boot getVersion getCapabilities
    negotiateAlgorithms getDigests getCertificate challenge getMeasurements pldmMonitoring pldmFirmwareUpdate
    ptpMessage schedulerUpdate heartbeat heartbeatTimeout setPowerCap undervoltage powerRestore
    thermalThrottle thermalShutdown scrub rollback pseudoChannelDrop monitorTimerExpiry debugHaltRequest
    storeRetirement holdover ownerUnreachable linkTrained br brNa brNt bri call loop0 loop1 loopi0 loopi1
    endTask trap reti brk gmap srd swr cget cset acmp cgset slane addSa addSb subSa subSb addiSa addiSb mulSa
    mulSb mulhSa mulhSb mulhuSa mulhuSb divSa divSb divuSa divuSb remSa remSb remuSa remuSb andSa andSb orSa
    orSb xorSa xorSb andnSa andnSb shlSa shlSb shrSa shrSb sarSa sarSb shliSa shliSb shriSa shriSb sariSa
    sariSb minSa minSb maxSa maxSb minuSa minuSb maxuSa maxuSb clzSa clzSb popcSa popcSb extSa extSb extzSa
    extzSb movSa movSb moviSa moviSb cmpEqSa cmpEqSb cmpNeSa cmpNeSb cmpLtSa cmpLtSb cmpLeSa cmpLeSb cmpLtuSa
    cmpLtuSb cmpLeuSa cmpLeuSb cmpiEqSa cmpiEqSb cmpiNeSa cmpiNeSb cmpiLtSa cmpiLtSb cmpiLeSa cmpiLeSb
    cmpiLtuSa cmpiLtuSb cmpiLeuSa cmpiLeuSb pandSa pandSb porSa porSb pxorSa pxorSb pandnSa pandnSb pnotSa
    pnotSb pmovSa pmovSb psetiSa psetiSb ptosSa ptosSb setpSa setpSb schkSa schkSb vaddF32Va vaddF32Vb
    vsubF32Va vsubF32Vb vmulF32Va vmulF32Vb vfmaF32Va vfmaF32Vb vfmsF32Va vfmsF32Vb vminF32Va vminF32Vb
    vmaxF32Va vmaxF32Vb vabsF32Va vabsF32Vb vnegF32Va vnegF32Vb vaddBfVa vaddBfVb vmulBfVa vmulBfVb vfmaBfVa
    vfmaBfVb vaddHfVa vaddHfVb vmulHfVa vmulHfVb vfmaHfVa vfmaHfVb vaddI32Va vaddI32Vb vsubI32Va vsubI32Vb
    vmulI32Va vmulI32Vb vminI32Va vminI32Vb vmaxI32Va vmaxI32Vb vandVa vandVb vorVa vorVb vxorVa vxorVb vshlVa
    vshlVb vshrVa vshrVb vsarVa vsarVb vcmpEqF32Va vcmpEqF32Vb vcmpLtF32Va vcmpLtF32Vb vcmpLeF32Va vcmpLeF32Vb
    vcmpEqI32Va vcmpEqI32Vb vcmpLtI32Va vcmpLtI32Vb vcmpLeI32Va vcmpLeI32Vb vmandVa vmandVb vmorVa vmorVb
    vmnotVa vmnotVb vmsVa vmsVb vselVa vselVb vpermVa vpermVb vrotVa vrotVb vcvtF32I32Va vcvtF32I32Vb
    vcvtI32F32Va vcvtI32F32Vb vcvtI32F32zVa vcvtI32F32zVb vpackBfVa vpackBfVb vunpkBfVa vunpkBfVb vpackHfVa
    vpackHfVb vunpkHfVa vunpkHfVb vpack8E4Va vpack8E4Vb vpack8E5Va vpack8E5Vb vmrg8Va vmrg8Vb vunpk8E4Va
    vunpk8E4Vb vunpk8E5Va vunpk8E5Vb vdot4I8Va vdot4I8Vb vexp2 vlog2 vrcp vrsq vsqrt vdiv vtanh vrsumF32
    vrmaxF32 vrminF32 vrsumI32 amaxu aexps aresc anorm amrg vchk xbc xins xmk xext xms xfst ldb ldbz ldh ldhz
    ldw ldwz ldd ldv ldvS ldvg stb sth stw std stv stvS stvm stvs aaddW aaddD aminW amaxW axchgD acasD vjoin
    sbind sfree slen sfmt sshd spub spubp sdisc kset kclr kldk kldv kapp klen kmark ktrunc kivl kcls kpf cpyin
    cpyinSh cpyout cpysg cpymc puts putr gets atadd atcas atxch spawn waitf postf postr finit waitc frd mwl
    mwsw mga mac macLatch macZ macZLatch mdr mrot mldh mset abal abfr mmul mmulR mlu mluR mchol mcholR mqr
    mqrR mtrs mperm lit pad

/-- Every operand field lies in the operand bits of the word and passes its checks. -/
def Accepts (l : List Fd) (o : BitVec 18) : Prop :=
  ∀ f ∈ l, f.hi < 18 ∧ Fits f.kind (fld o f.lo (f.hi + 1 - f.lo)) (fld o 12 6).toNat

/-- Step 2 of R50 finds no fault in a slot whose operand fields are accepted. -/
theorem slotFault_none {w : Word} {l : List Fd} (hc : slotClass w ≤ 12) (hl : layout (slotClass w) (slotOp w) = some l)
    (ha : Accepts l (fld w 0 18)) : slotFault w [] = none := by
  have hf : (l.flatMap fun f => fieldFault f.kind (f.get w) (f.hi + 1 - f.lo) (fld w 12 6).toNat []) = [] := by
    refine List.flatMap_eq_nil_iff.2 fun f hf => ?_
    obtain ⟨h18, h⟩ := ha f hf
    rw [fld_operand w h18, fld_operand w (hi := 17) (by decide)] at h
    rw [Fd.get, ← BitVec.extractLsb'_toNat]
    exact h
  unfold slotFault
  split
  · omega
  · omega
  · omega
  · rw [hl]
    dsimp only
    rw [hf]
    rfl

/-- A slot of the classes 0 to 12 without a fault is what its class and opcode decode to. -/
theorem decodeSlot_decodeOp {w : Word} {i : Instr} (hc : slotClass w ≤ 12) (hf : slotFault w [] = none)
    (hd : decodeOp (slotClass w) (fld w 31 1) (slotOp w) (fld w 18 3) (fld w 0 18) = some i) : decodeSlot w [] = .ok i := by
  unfold decodeSlot
  rw [hf]
  dsimp only
  split
  · omega
  · omega
  · rw [hd]

/-- The word of an instruction, where it is well-formed, decodes to it (R35, R36). -/
def Decodes (i : Instr) : Prop := wf i = true → ∀ w, encode i = some w → decodeSlot w [] = .ok i

theorem decodes_of {i : Instr} {st : BitVec 1} {cl op : Nat} {gd : BitVec 3} {o : BitVec 18} {l : List Fd}
    (he : encode i = some (slotWord st cl op gd o)) (hl : layout cl op = some l) (ha : wf i = true → Accepts l o)
    (hc : cl ≤ 12 := by decide) (ho : op < 64 := by decide) : Decodes i := by
  intro hw w hw'
  obtain rfl : slotWord st cl op gd o = w := Option.some.inj (he.symm.trans hw')
  obtain ⟨ec, eo, e0, -, -⟩ := slotWord_parts st gd o (Nat.lt_of_le_of_lt hc (by decide)) ho
  have hc' : slotClass (slotWord st cl op gd o) ≤ 12 := ec.symm ▸ hc
  exact decodeSlot_decodeOp hc' (slotFault_none hc' (by rw [ec, eo, hl]) (by rw [e0]; exact ha hw))
    (Layout.holds i _ he hc')

theorem decodes_lit (st : BitVec 1) (l : BitVec 27) : Decodes (.lit st l) := by
  rintro - w ⟨⟩
  simp only [decodeSlot, slotFault, slotClass_join, fld_stop_join, fld_last]
  rfl

theorem decodes_pad (st : BitVec 1) : Decodes (.pad st) := by
  rintro - w ⟨⟩
  simp only [decodeSlot, slotFault, slotClass_join, fld_stop_join, fld_last]
  rfl

/-! ### The operand fields, by the widths of a word's parts

The digits in a name are the widths of the parts, highest first; `and` joins the parts of one field. -/

theorem Accepts.nil {o : BitVec 18} : Accepts [] o := nofun

theorem Accepts.cons {k : Fk} {hi lo : Nat} {l : List Fd} {o : BitVec 18}
    (h : Fits k (fld o lo (hi + 1 - lo)) (fld o 12 6).toNat) (ha : Accepts l o) (h18 : hi < 18 := by decide) :
    Accepts (⟨k, hi, lo⟩ :: l) o :=
  List.forall_mem_cons.2 ⟨⟨h18, h⟩, ha⟩

/-- A field outside the words of MAC, where the D field does not matter. -/
theorem Accepts.field {k : Fk} {hi lo : Nat} {l : List Fd} {o : BitVec 18} {x : BitVec (hi + 1 - lo)}
    (hx : fld o lo (hi + 1 - lo) = x) (h : ∀ {d}, Fits k x d) (ha : Accepts l o) (h18 : hi < 18 := by decide) :
    Accepts (⟨k, hi, lo⟩ :: l) o := .cons (hx ▸ h) ha h18

section

variable {k₁ k₂ k₃ k₄ : Fk}

theorem accepts_18 {o : BitVec 18} (h : Fits k₁ o (fld o 12 6).toNat) : Accepts [⟨k₁, 17, 0⟩] o :=
  .cons (show Fits k₁ (fld o 0 18) _ from (fld_whole o).symm ▸ h) .nil

/-! Fields of a word that has the widths 6, 6, 6 or 6, 12. The D field is the one of bits 12 to 17. -/

section

variable {o : BitVec 18} {x y z : BitVec 6} {u : BitVec 12}

theorem accepts_at_6_6_6 (hx : fld o 12 6 = x) (hy : fld o 6 6 = y) (hz : fld o 0 6 = z) (h₁ : Fits k₁ x x.toNat)
    (h₂ : Fits k₂ y x.toNat) (h₃ : Fits k₃ z x.toNat) : Accepts [⟨k₁, 17, 12⟩, ⟨k₂, 11, 6⟩, ⟨k₃, 5, 0⟩] o := by
  subst hx hy hz
  exact .cons h₁ (.cons h₂ (.cons h₃ .nil))

theorem accepts_at_6_12 (hx : fld o 12 6 = x) (hu : fld o 0 12 = u) (h₁ : Fits k₁ x x.toNat) (h₂ : Fits k₂ u x.toNat) :
    Accepts [⟨k₁, 17, 12⟩, ⟨k₂, 11, 0⟩] o := by
  subst hx hu
  exact .cons h₁ (.cons h₂ .nil)

end

/-! Words whose parts are the fields. -/

theorem accepts_6_6_6 {x y z : BitVec 6} (h₁ : Fits k₁ x x.toNat) (h₂ : Fits k₂ y x.toNat) (h₃ : Fits k₃ z x.toNat) :
    Accepts [⟨k₁, 17, 12⟩, ⟨k₂, 11, 6⟩, ⟨k₃, 5, 0⟩] (x ++ y ++ z) :=
  accepts_at_6_6_6 (f6_6_6_at12 x y z) (f6_6_6_at6 x y z) (f6_6_6_at0 x y z) h₁ h₂ h₃

theorem accepts_6_12 {x : BitVec 6} {y : BitVec 12} (h₁ : Fits k₁ x x.toNat) (h₂ : Fits k₂ y x.toNat) :
    Accepts [⟨k₁, 17, 12⟩, ⟨k₂, 11, 0⟩] (x ++ y) :=
  accepts_at_6_12 (f6_12_at12 x y) (f6_12_at0 x y) h₁ h₂

theorem accepts_7_6_5 {x : BitVec 7} {y : BitVec 6} {z : BitVec 5} (h₁ : ∀ {d}, Fits k₁ x d) (h₂ : ∀ {d}, Fits k₂ y d)
    (h₃ : ∀ {d}, Fits k₃ z d) : Accepts [⟨k₁, 17, 11⟩, ⟨k₂, 10, 5⟩, ⟨k₃, 4, 0⟩] (x ++ y ++ z) :=
  .field (f7_6_5_at11 x y z) h₁ (.field (f7_6_5_at5 x y z) h₂ (.field (f7_6_5_at0 x y z) h₃ .nil))

theorem accepts_7_7_4 {x y : BitVec 7} {z : BitVec 4} (h₁ : ∀ {d}, Fits k₁ x d) (h₂ : ∀ {d}, Fits k₂ y d)
    (h₃ : ∀ {d}, Fits k₃ z d) : Accepts [⟨k₁, 17, 11⟩, ⟨k₂, 10, 4⟩, ⟨k₃, 3, 0⟩] (x ++ y ++ z) :=
  .field (f7_7_4_at11 x y z) h₁ (.field (f7_7_4_at4 x y z) h₂ (.field (fld_last (x ++ y) z) h₃ .nil))

theorem accepts_6_5_7 {x : BitVec 6} {y : BitVec 5} {z : BitVec 7} (h₁ : ∀ {d}, Fits k₁ x d) (h₂ : ∀ {d}, Fits k₂ y d)
    (h₃ : ∀ {d}, Fits k₃ z d) : Accepts [⟨k₁, 17, 12⟩, ⟨k₂, 11, 7⟩, ⟨k₃, 6, 0⟩] (x ++ y ++ z) :=
  .field (f6_5_7_at12 x y z) h₁
    (.field ((fld_high _ z 7 5 (by decide)).trans (fld_last x y)) h₂ (.field (f6_5_7_at0 x y z) h₃ .nil))

theorem accepts_3_7_1_7 {x : BitVec 3} {y : BitVec 7} {z : BitVec 1} {u : BitVec 7} (h₁ : ∀ {d}, Fits k₁ x d)
    (h₂ : ∀ {d}, Fits k₂ y d) (h₃ : ∀ {d}, Fits k₃ z d) (h₄ : ∀ {d}, Fits k₄ u d) :
    Accepts [⟨k₁, 17, 15⟩, ⟨k₂, 14, 8⟩, ⟨k₃, 7, 7⟩, ⟨k₄, 6, 0⟩] (x ++ y ++ z ++ u) :=
  .field (f3_7_1_7_at15 x y z u) h₁ (.field (f3_7_1_7_at8 x y z u) h₂
    (.field (f3_7_1_7_at7 x y z u) h₃ (.field (fld_last (x ++ y ++ z) u) h₄ .nil)))

theorem accepts_2_4_4_4_4 {x y z u : BitVec 4} (h₁ : ∀ {d}, Fits k₁ x d) (h₂ : ∀ {d}, Fits k₂ y d)
    (h₃ : ∀ {d}, Fits k₃ z d) (h₄ : ∀ {d}, Fits k₄ u d) :
    Accepts [⟨.z, 17, 16⟩, ⟨k₁, 15, 12⟩, ⟨k₂, 11, 8⟩, ⟨k₃, 7, 4⟩, ⟨k₄, 3, 0⟩] (0#2 ++ x ++ y ++ z ++ u) := by
  have h₀ : fld (0#2 ++ x ++ y ++ z ++ u) 16 2 = 0#2 := by
    rw [fld_high _ _ _ _ (by decide), fld_high _ _ _ _ (by decide), fld_high _ _ _ _ (by decide),
      fld_high _ _ _ _ (by decide)]; exact fld_whole _
  exact .field h₀ .z (.field (f2_4_4_4_4_at12 0#2 x y z u) h₁ (.field (f2_4_4_4_4_at8 0#2 x y z u) h₂
    (.field (f2_4_4_4_4_at4 0#2 x y z u) h₃ (.field (f2_4_4_4_4_at0 0#2 x y z u) h₄ .nil))))

/-! Words with a field of several parts. -/

theorem fld_tail {l m n : Nat} (x : BitVec l) (y : BitVec m) (z : BitVec n) : fld (x ++ y ++ z) 0 (m + n) = y ++ z := by
  rw [fld_join, fld_low _ _ _ _ (by omega), fld_whole]

theorem fld_tail₃ {l m n k : Nat} (x : BitVec l) (y : BitVec m) (z : BitVec n) (u : BitVec k) :
    fld (x ++ y ++ z ++ u) 0 (m + n + k) = y ++ z ++ u := by
  rw [fld_join, fld_tail]

theorem accepts_6_9and3 {x : BitVec 6} {y : BitVec 9} {z : BitVec 3} (h₁ : Fits k₁ x x.toNat)
    (h₂ : Fits k₂ (y ++ z) x.toNat) : Accepts [⟨k₁, 17, 12⟩, ⟨k₂, 11, 0⟩] (x ++ y ++ z) :=
  accepts_at_6_12 (f6_9_3_at12 x y z) (fld_tail x y z) h₁ h₂

theorem accepts_6_7and5 {x : BitVec 6} {y : BitVec 7} {z : BitVec 5} (h₁ : Fits k₁ x x.toNat)
    (h₂ : Fits k₂ (y ++ z) x.toNat) : Accepts [⟨k₁, 17, 12⟩, ⟨k₂, 11, 0⟩] (x ++ y ++ z) :=
  accepts_at_6_12 (f6_7_5_at12 x y z) (fld_tail x y z) h₁ h₂

theorem accepts_6_6and3and3 {x y : BitVec 6} {z u : BitVec 3} (h₁ : Fits k₁ x x.toNat)
    (h₂ : Fits k₂ (y ++ z ++ u) x.toNat) : Accepts [⟨k₁, 17, 12⟩, ⟨k₂, 11, 0⟩] (x ++ y ++ z ++ u) :=
  accepts_at_6_12 (f6_6_3_3_at12 x y z u) (fld_tail₃ x y z u) h₁ h₂

theorem accepts_7_10_1 {x : BitVec 7} {z : BitVec 1} (h₁ : ∀ {d}, Fits k₁ x d) (h₃ : ∀ {d}, Fits k₃ (0#4 ++ z) d) :
    Accepts [⟨k₁, 17, 11⟩, ⟨.z, 10, 5⟩, ⟨k₃, 4, 0⟩] (x ++ 0#10 ++ z) := by
  have h0 : fld (x ++ 0#10 ++ z) 5 6 = 0#6 := by
    rw [fld_high _ _ _ _ (by decide), fld_low _ _ _ _ (by decide)]; rfl
  have h1 : fld (x ++ 0#10 ++ z) 0 (4 + 1) = 0#4 ++ z := by rw [fld_join, fld_low _ _ _ _ (by decide)]; rfl
  exact .field (f7_10_1_at11 x 0#10 z) h₁ (.field h0 .z (.field h1 h₃ .nil))

theorem accepts_6_0_0 {x : BitVec 6} (h₁ : Fits k₁ x x.toNat) :
    Accepts [⟨k₁, 17, 12⟩, ⟨.z, 11, 6⟩, ⟨.z, 5, 0⟩] (x ++ 0#12) :=
  accepts_at_6_6_6 (f6_12_at12 x 0#12) (fld_low x 0#12 6 6 (by decide)) (fld_low x 0#12 0 6 (by decide)) h₁ .z .z

section

variable {x y : BitVec 6} {a b c e : BitVec 3}

theorem accepts_6_6_5and1 {s : BitVec 5} {t : BitVec 1} (h₁ : Fits k₁ x x.toNat) (h₂ : Fits k₂ y x.toNat)
    (h₃ : Fits k₃ (s ++ t) x.toNat) : Accepts [⟨k₁, 17, 12⟩, ⟨k₂, 11, 6⟩, ⟨k₃, 5, 0⟩] (x ++ y ++ s ++ t) :=
  accepts_at_6_6_6 (f6_6_5_1_at12 x y s t) (f6_6_5_1_at6 x y s t) (fld_tail (x ++ y) s t) h₁ h₂ h₃

theorem accepts_6_6_2and1and3 {s : BitVec 2} {t : BitVec 1} (h₁ : Fits k₁ x x.toNat) (h₂ : Fits k₂ y x.toNat)
    (h₃ : Fits k₃ (s ++ t ++ a) x.toNat) : Accepts [⟨k₁, 17, 12⟩, ⟨k₂, 11, 6⟩, ⟨k₃, 5, 0⟩] (x ++ y ++ s ++ t ++ a) :=
  accepts_at_6_6_6 (f6_6_2_1_3_at12 x y s t a) (f6_6_2_1_3_at6 x y s t a) (fld_tail₃ (x ++ y) s t a) h₁ h₂ h₃

theorem accepts_6_6_3and3 (h₁ : Fits k₁ x x.toNat) (h₂ : Fits k₂ y x.toNat) (h₃ : Fits k₃ (a ++ b) x.toNat) :
    Accepts [⟨k₁, 17, 12⟩, ⟨k₂, 11, 6⟩, ⟨k₃, 5, 0⟩] (x ++ y ++ a ++ b) :=
  accepts_at_6_6_6 (f6_6_3_3_at12 x y a b) (f6_6_3_3_at6 x y a b) (fld_tail (x ++ y) a b) h₁ h₂ h₃

theorem accepts_6_3and3_6 (h₁ : Fits k₁ x x.toNat) (h₂ : Fits k₂ (a ++ b) x.toNat) (h₃ : Fits k₃ y x.toNat) :
    Accepts [⟨k₁, 17, 12⟩, ⟨k₂, 11, 6⟩, ⟨k₃, 5, 0⟩] (x ++ a ++ b ++ y) :=
  accepts_at_6_6_6 (f6_3_3_6_at12 x a b y) ((fld_high _ y 6 6 (by decide)).trans (fld_tail x a b))
    (fld_last _ y) h₁ h₂ h₃

theorem accepts_6_3and3_3and3 (h₁ : Fits k₁ x x.toNat) (h₂ : Fits k₂ (a ++ b) x.toNat) (h₃ : Fits k₃ (c ++ e) x.toNat) :
    Accepts [⟨k₁, 17, 12⟩, ⟨k₂, 11, 6⟩, ⟨k₃, 5, 0⟩] (x ++ a ++ b ++ c ++ e) := by
  have hx : fld (x ++ a ++ b ++ c ++ e) 12 6 = x := by
    rw [fld_high _ _ _ _ (by decide), fld_high _ _ _ _ (by decide), fld_high _ _ _ _ (by decide),
      fld_high _ _ _ _ (by decide)]; exact fld_whole x
  have hy : fld (x ++ a ++ b ++ c ++ e) 6 6 = a ++ b := by
    rw [fld_high _ _ _ _ (by decide), fld_high _ _ _ _ (by decide)]; exact fld_tail x a b
  exact accepts_at_6_6_6 hx hy (fld_tail (x ++ a ++ b) c e) h₁ h₂ h₃

theorem accepts_9_3_6 (h₂ : ∀ {d}, Fits k₂ (0#3 ++ a) d) :
    Accepts [⟨.z, 17, 12⟩, ⟨k₂, 11, 6⟩, ⟨.z, 5, 0⟩] (0#9 ++ a ++ 0#6) := by
  have hx : fld (0#9 ++ a ++ 0#6) 12 6 = 0#6 := by
    rw [fld_high _ _ _ _ (by decide), fld_high _ _ _ _ (by decide)]; rfl
  have hy : fld (0#9 ++ a ++ 0#6) 6 (3 + 3) = 0#3 ++ a := by rw [fld_high _ _ _ _ (by decide), fld_join]; rfl
  exact accepts_at_6_6_6 hx hy (fld_last _ 0#6) .z h₂ .z

end

end

/-! ### The instructions -/

theorem both {p q : Bool} {c : Prop} (h : p = true → q = true → c) (hw : (p && q) = true) : c :=
  have ⟨h₁, h₂⟩ := Bool.and_eq_true_iff.1 hw
  h h₁ h₂

theorem all₃ {p q r : Bool} {c : Prop} (h : p = true → q = true → r = true → c) : (p && q && r) = true → c :=
  both fun hw => both h hw

/-- Every well-formed instruction with an encoding: its operands are fields of its word, and each is accepted. -/
theorem decodes (i : Instr) : Decodes i := by
  cases i with
  | br | brNa | brNt =>
    exact decodes_of rfl rfl fun _ => accepts_18 .any
  | bri | endTask | postr | mrot | spawn =>
    exact decodes_of rfl rfl fun h₁ => accepts_6_6_6 .z (.sS h₁) .z
  | call | moviSa | moviSb =>
    exact decodes_of rfl rfl fun h₁ => accepts_6_12 (.sD h₁) .any
  | loop0 | loop1 =>
    exact decodes_of rfl rfl fun h₁ => accepts_6_12 (.sS h₁) .any
  | loopi0 | loopi1 =>
    exact decodes_of rfl rfl fun _ => accepts_6_12 (.every _) .any
  | trap | brk =>
    exact decodes_of rfl rfl fun _ => accepts_6_12 .z .any
  | reti | mwsw | mmul | mmulR | mlu | mluR | mchol | mcholR | mqr | mqrR | mtrs | mperm =>
    exact decodes_of rfl rfl fun _ => accepts_18 .z
  | gmap =>
    exact decodes_of rfl rfl (both fun h₁ h₂ => accepts_3_7_1_7 (.num h₁) (.pS h₂) (.every _) .z)
  | srd =>
    exact decodes_of rfl rfl (both fun h₁ h₂ => accepts_6_12 (.sD h₁) (.sys h₂))
  | swr =>
    exact decodes_of rfl rfl (both fun h₁ h₂ => accepts_6_12 (.sS h₁) (.sys h₂))
  | cget =>
    exact decodes_of rfl rfl fun h₁ => accepts_6_9and3 (.sD h₁) (.low _)
  | cset | acmp =>
    exact decodes_of rfl rfl fun h₁ => accepts_6_9and3 (.sS h₁) (.low _)
  | cgset =>
    exact decodes_of rfl rfl (both fun h₁ h₂ => accepts_6_6and3and3 (.sS h₁) (.cgset _ h₂))
  | slane =>
    exact decodes_of rfl rfl fun h₁ => accepts_6_0_0 (.sD h₁)
  | addSa | addSb | subSa | subSb | mulSa | mulSb | mulhSa | mulhSb | mulhuSa | mulhuSb | divSa | divSb | divuSa | divuSb
    | remSa | remSb | remuSa | remuSb | andSa | andSb | orSa | orSb | xorSa | xorSb | andnSa | andnSb | shlSa | shlSb
    | shrSa | shrSb | sarSa | sarSb | minSa | minSb | maxSa | maxSb | minuSa | minuSb | maxuSa | maxuSb =>
    exact decodes_of rfl rfl (all₃ fun h₁ h₂ h₃ => accepts_6_6_6 (.sD h₁) (.sS h₂) (.sS h₃))
  | addiSa | addiSb =>
    exact decodes_of rfl rfl (both fun h₁ h₂ => accepts_6_6_6 (.sD h₁) (.sS h₂) .any)
  | shliSa | shliSb | shriSa | shriSb | sariSa | sariSb | extSa | extSb | extzSa | extzSb =>
    exact decodes_of rfl rfl (both fun h₁ h₂ => accepts_6_6_6 (.sD h₁) (.sS h₂) .upTo63)
  | clzSa | clzSb | popcSa | popcSb | movSa | movSb =>
    exact decodes_of rfl rfl (both fun h₁ h₂ => accepts_6_6_6 (.sD h₁) (.sS h₂) .z)
  | cmpEqSa | cmpEqSb | cmpNeSa | cmpNeSb | cmpLtSa | cmpLtSb | cmpLeSa | cmpLeSb | cmpLtuSa | cmpLtuSb | cmpLeuSa
    | cmpLeuSb =>
    exact decodes_of rfl rfl (all₃ fun h₁ h₂ h₃ => accepts_7_6_5 (.pD h₁) (.sS h₂) (.sB h₃))
  | cmpiEqSa | cmpiEqSb | cmpiNeSa | cmpiNeSb | cmpiLtSa | cmpiLtSb | cmpiLeSa | cmpiLeSb | cmpiLtuSa | cmpiLtuSb
    | cmpiLeuSa | cmpiLeuSb =>
    exact decodes_of rfl rfl (both fun h₁ h₂ => accepts_7_6_5 (.pD h₁) (.sS h₂) .any)
  | pandSa | pandSb | porSa | porSb | pxorSa | pxorSb | pandnSa | pandnSb | pnotSa | pnotSb | pmovSa | pmovSb =>
    exact decodes_of rfl rfl (both fun h₁ h₂ => accepts_7_7_4 (.pD h₁) (.pS h₂) .z)
  | psetiSa | psetiSb =>
    exact decodes_of rfl rfl fun h₁ => accepts_7_10_1 (.pD h₁) (.bit _)
  | ptosSa | ptosSb =>
    exact decodes_of rfl rfl (both fun h₁ h₂ => accepts_6_5_7 (.sD h₁) .z (.pS h₂))
  | setpSa | setpSb =>
    exact decodes_of rfl rfl (both fun h₁ h₂ => accepts_7_6_5 (.pD h₁) (.sS h₂) .z)
  | schkSa | schkSb =>
    exact decodes_of rfl rfl (both fun h₁ h₂ => accepts_6_6_6 .z (.sS h₁) (.sS h₂))
  | vaddF32Va | vaddF32Vb | vsubF32Va | vsubF32Vb | vmulF32Va | vmulF32Vb | vminF32Va | vminF32Vb | vmaxF32Va | vmaxF32Vb
    | vaddBfVa | vaddBfVb | vmulBfVa | vmulBfVb | vaddHfVa | vaddHfVb | vmulHfVa | vmulHfVb | vaddI32Va | vaddI32Vb
    | vsubI32Va | vsubI32Vb | vmulI32Va | vmulI32Vb | vminI32Va | vminI32Vb | vmaxI32Va | vmaxI32Vb | vandVa | vandVb
    | vorVa | vorVb | vxorVa | vxorVb | vshlVa | vshlVb | vshrVa | vshrVb | vsarVa | vsarVb | vselVa | vselVb | vpermVa
    | vpermVb | vpackBfVa | vpackBfVb | vpackHfVa | vpackHfVb | vpack8E4Va | vpack8E4Vb | vpack8E5Va | vpack8E5Vb | vmrg8Va
    | vmrg8Vb | vdiv | amaxu | aexps | amrg | aresc | anorm =>
    exact decodes_of rfl rfl (all₃ fun h₁ h₂ h₃ => accepts_6_6_6 (.vD h₁) (.vS h₂) (.vS h₃))
  | vfmaF32Va | vfmaF32Vb | vfmsF32Va | vfmsF32Vb | vfmaBfVa | vfmaBfVb | vfmaHfVa | vfmaHfVb | vdot4I8Va | vdot4I8Vb =>
    exact decodes_of rfl rfl (all₃ fun h₁ h₂ h₃ => accepts_6_6_6 (.vF h₁) (.vS h₂) (.vS h₃))
  | vabsF32Va | vabsF32Vb | vnegF32Va | vnegF32Vb | vcvtF32I32Va | vcvtF32I32Vb | vcvtI32F32Va | vcvtI32F32Vb
    | vcvtI32F32zVa | vcvtI32F32zVb | vexp2 | vlog2 | vrcp | vrsq | vsqrt | vtanh | vrsumF32 | vrmaxF32 | vrminF32
    | vrsumI32 =>
    exact decodes_of rfl rfl (both fun h₁ h₂ => accepts_6_6_6 (.vD h₁) (.vS h₂) .z)
  | vcmpEqF32Va | vcmpEqF32Vb | vcmpLtF32Va | vcmpLtF32Vb | vcmpLeF32Va | vcmpLeF32Vb | vcmpEqI32Va | vcmpEqI32Vb
    | vcmpLtI32Va | vcmpLtI32Vb | vcmpLeI32Va | vcmpLeI32Vb =>
    exact decodes_of rfl rfl (all₃ fun h₁ h₂ h₃ => accepts_6_6_6 (.mD h₁) (.vS h₂) (.vS h₃))
  | vmandVa | vmandVb | vmorVa | vmorVb =>
    exact decodes_of rfl rfl fun h₁ => accepts_6_3and3_3and3 (.mD h₁) (.mS _) (.mS _)
  | vmnotVa | vmnotVb =>
    exact decodes_of rfl rfl fun h₁ => accepts_6_3and3_6 (.mD h₁) (.mS _) .z
  | vmsVa | vmsVb =>
    exact decodes_of rfl rfl fun _ => accepts_9_3_6 (.mS _)
  | vrotVa | vrotVb =>
    exact decodes_of rfl rfl (both fun h₁ h₂ => accepts_6_6_6 (.vD h₁) (.vS h₂) .upTo63)
  | vunpkBfVa | vunpkBfVb | vunpkHfVa | vunpkHfVb =>
    exact decodes_of rfl rfl (both fun h₁ h₂ => accepts_6_6_5and1 (.vD h₁) (.vS h₂) (.low _))
  | vunpk8E4Va | vunpk8E4Vb | vunpk8E5Va | vunpk8E5Vb =>
    exact decodes_of rfl rfl (all₃ fun h₁ h₂ h₃ => accepts_6_6_6 (.vD h₁) (.vS h₂) (.upTo h₃))
  | vchk =>
    exact decodes_of rfl rfl (both fun h₁ h₂ => accepts_6_6_6 .z (.vS h₁) (.vS h₂))
  | xbc =>
    exact decodes_of rfl rfl (both fun h₁ h₂ => accepts_6_6_6 (.vD h₁) (.sS h₂) .z)
  | xins =>
    exact decodes_of rfl rfl (both fun h₁ h₂ => accepts_6_6_6 (.vX h₁) (.sS h₂) .upTo63)
  | xmk =>
    exact decodes_of rfl rfl (both fun h₁ h₂ => accepts_6_6_6 (.mD h₁) (.sS h₂) .z)
  | xext =>
    exact decodes_of rfl rfl (both fun h₁ h₂ => accepts_6_6_6 (.sD h₁) (.vS h₂) .upTo63)
  | xms | xfst =>
    exact decodes_of rfl rfl fun h₁ => accepts_6_3and3_6 (.sD h₁) (.mS _) .z
  | ldb | ldbz | ldh | ldhz | ldw | ldwz | ldd | ldv | ldvS =>
    exact decodes_of rfl rfl fun h₁ => accepts_6_6_6 (.every _) (.sS h₁) .any
  | ldvg | mga | stv | stvS | stvm | stvs =>
    exact decodes_of rfl rfl (both fun h₁ h₂ => accepts_6_6_6 (.every _) (.sS h₁) (.vS h₂))
  | stb | sth | stw | std | aaddW | aaddD | aminW | amaxW | axchgD | acasD =>
    exact decodes_of rfl rfl (both fun h₁ h₂ => accepts_6_6_6 (.every _) (.sS h₁) (.sS h₂))
  | vjoin | sfree | sshd | spub | spubp | sdisc =>
    exact decodes_of rfl rfl fun _ => accepts_6_12 (.every _) .z
  | sbind | cpyin | cpyinSh | cpyout | cpysg | cpymc | atadd | atxch | puts | gets | atcas =>
    exact decodes_of rfl rfl fun h₁ => accepts_6_6_6 (.every _) (.sS h₁) .z
  | slen | sfmt =>
    exact decodes_of rfl rfl fun h₁ => accepts_6_6_6 (.every _) .z (.sD h₁)
  | kset | kldk | kldv | ktrunc | kpf | kivl =>
    exact decodes_of rfl rfl (both fun h₁ h₂ => accepts_6_6_6 (.num h₁) (.sS h₂) .z)
  | kclr | kmark =>
    exact decodes_of rfl rfl fun h₁ => accepts_6_0_0 (.num h₁)
  | kapp =>
    exact decodes_of rfl rfl (all₃ fun h₁ h₂ h₃ => accepts_6_6_6 (.num h₁) (.vS h₂) (.vS h₃))
  | klen =>
    exact decodes_of rfl rfl (both fun h₁ h₂ => accepts_6_6_6 (.sD h₁) (.num h₂) .z)
  | kcls =>
    exact decodes_of rfl rfl (all₃ fun h₁ h₂ h₃ => accepts_6_6_3and3 (.sD h₁) (.sS h₂) (.mD h₃))
  | putr =>
    exact decodes_of rfl rfl (both fun h₁ h₂ => accepts_6_6_6 (.rq h₁) (.sS h₂) .z)
  | waitf =>
    exact decodes_of rfl rfl fun h₁ => accepts_6_12 (.num h₁) .flagU
  | postf | finit =>
    exact decodes_of rfl rfl fun h₁ => accepts_6_12 (.num h₁) .flagS
  | waitc =>
    exact decodes_of rfl rfl fun _ => accepts_2_4_4_4_4 (.every _) (.every _) (.every _) (.every _)
  | frd =>
    exact decodes_of rfl rfl (both fun h₁ h₂ => accepts_6_6_6 (.sD h₁) .z (.upTo h₂))
  | mwl =>
    exact decodes_of rfl rfl fun h₁ => accepts_6_6_6 (.every _) (.sS h₁) .upTo63
  | mac | macZ =>
    exact decodes_of rfl rfl (both fun h₁ h₂ => accepts_6_6_6 .mac (.sS h₁) (.macB h₂))
  | macLatch | macZLatch =>
    exact decodes_of rfl rfl fun h₁ => accepts_6_6_6 .macLatch (.sS h₁) .macBLatch
  | mdr =>
    exact decodes_of rfl rfl (all₃ fun h₁ h₂ h₃ => accepts_6_6_2and1and3 (.num h₁) (.sS h₂) (.mdr _ h₃))
  | mldh =>
    exact decodes_of rfl rfl fun h₁ => accepts_6_12 .z (.order h₁)
  | mset =>
    exact decodes_of rfl rfl fun h₁ => accepts_6_7and5 (.sS h₁) (.low _)
  | abal =>
    exact decodes_of rfl rfl (both fun h₁ h₂ => accepts_6_12 (.sD h₁) (.banks h₂))
  | abfr =>
    exact decodes_of rfl rfl (both fun h₁ h₂ => accepts_6_12 (.sS h₁) (.banks h₂))
  | lit st l => exact decodes_lit st l
  | pad st => exact decodes_pad st
  | _ => exact fun _ _ h => nomatch h

/-! ### The obligations -/

/-- Settles O46: each well-formed instruction decodes from its word, by the cases of `decodes`. -/
theorem decodingInvertsEncoding : Obligations.DecodingInvertsEncoding := fun i w hw he => decodes i hw w he

/-- Settles O45: each word is the encoding of its instruction, and decoding inverts it. -/
theorem wordsOfTheSpecDecode : Obligations.WordsOfTheSpecDecode := by
  unfold Obligations.WordsOfTheSpecDecode
  intro p hp
  have h : wf p.2 = true ∧ encode p.2 = some p.1 := by
    revert p
    decide
  exact decodes p.2 h.1 p.1 h.2

end Sys2Proof.Laws
end

