-- ==== Sys2Proof/Proofs/SlotForms.lean ====
section
/-! PROOFS. What an instruction with an encoding is when it executes (R40, R41): a slot under the guard of its word, BR.na, LIT or
PAD; and the slots that have no effect. -/

namespace Sys2Proof.Machine

open Laws

/-! ### Slots under a guard -/

/-- An answer that a slot gives under the guard `gd`. -/
def GuardedBy (gd : BitVec 3) (s : State) (r : Host.Outcome State Fault Refusal) : Prop := ∃ src f, r = runSlot gd src f s

/-- An instruction of the classes 0 to 12 that executes as a slot under the guard of its word `w`. -/
def RunsAsSlot (j : Instr) (w : Word) : Prop := slotClass w ≤ 12 ∧ ∀ s, GuardedBy (fld w 18 3) s (exec j s)

theorem runsAsSlot_of {j : Instr} {w : Word} {st : BitVec 1} {cl op : Nat} {gd : BitVec 3} {o : BitVec 18}
    (he : encode j = some w) (e : encode j = some (slotWord st cl op gd o)) (h : ∀ s, GuardedBy gd s (exec j s))
    (hc : cl ≤ 12 := by decide) (ho : op < 64 := by decide) : RunsAsSlot j w := by
  obtain rfl : slotWord st cl op gd o = w := Option.some.inj (e.symm.trans he)
  obtain ⟨ec, -, -, eg, -⟩ := slotWord_parts st gd o (Nat.lt_of_le_of_lt hc (by decide)) ho
  exact ⟨ec.symm ▸ hc, eg.symm ▸ h⟩

/-! The operations that the instructions share are slots. -/

theorem alu2_guarded (f l gd d a b s) : GuardedBy gd s (alu2 f l gd d a b s) := ⟨_, _, rfl⟩
theorem aluI_guarded (f gd d a i s) : GuardedBy gd s (aluI f gd d a i s) := ⟨_, _, rfl⟩
theorem division_guarded (sa f gd d a b s) : GuardedBy gd s (division sa f gd d a b s) := ⟨_, _, rfl⟩
theorem aluN_guarded (f gd d a i s) : GuardedBy gd s (aluN f gd d a i s) := ⟨_, _, rfl⟩
theorem alu1_guarded (f gd d a s) : GuardedBy gd s (alu1 f gd d a s) := ⟨_, _, rfl⟩
theorem movi_guarded (gd d i s) : GuardedBy gd s (movi gd d i s) := ⟨_, _, rfl⟩
theorem compare_guarded (k gd p a b s) : GuardedBy gd s (compare k gd p a b s) := ⟨_, _, rfl⟩
theorem compareI_guarded (k gd p a i s) : GuardedBy gd s (compareI k gd p a i s) := ⟨_, _, rfl⟩
theorem predOp_guarded (f gd p q s) : GuardedBy gd s (predOp f gd p q s) := ⟨_, _, rfl⟩
theorem pseti_guarded (gd p b s) : GuardedBy gd s (pseti gd p b s) := ⟨_, _, rfl⟩
theorem ptos_guarded (gd d q s) : GuardedBy gd s (ptos gd d q s) := ⟨_, _, rfl⟩
theorem setp_guarded (gd p a s) : GuardedBy gd s (setp gd p a s) := ⟨_, _, rfl⟩
theorem scheck_guarded (gd a b s) : GuardedBy gd s (scheck gd a b s) := ⟨_, _, rfl⟩
theorem vec2_guarded (f l gd d a b s) : GuardedBy gd s (vec2 f l gd d a b s) := ⟨_, _, rfl⟩
theorem vecF_guarded (f gd d a b s) : GuardedBy gd s (vecF f gd d a b s) := ⟨_, _, rfl⟩
theorem vec1_guarded (f l gd d a s) : GuardedBy gd s (vec1 f l gd d a s) := ⟨_, _, rfl⟩
theorem vecCmp_guarded (f gd d a b s) : GuardedBy gd s (vecCmp f gd d a b s) := ⟨_, _, rfl⟩
theorem maskOp_guarded (f gd d a b s) : GuardedBy gd s (maskOp f gd d a b s) := ⟨_, _, rfl⟩
theorem maskSelect_guarded (gd a s) : GuardedBy gd s (maskSelect gd a s) := ⟨_, _, rfl⟩
theorem sel2_guarded (f l gd d a b s) : GuardedBy gd s (sel2 f l gd d a b s) := ⟨_, _, rfl⟩
theorem whole2_guarded (f l gd d a b s) : GuardedBy gd s (whole2 f l gd d a b s) := ⟨_, _, rfl⟩
theorem wholeI_guarded (f l w gd d a i s) : GuardedBy gd s (wholeI f l w gd d a i s) := ⟨_, _, rfl⟩
theorem sel1_guarded (f l gd d a s) : GuardedBy gd s (sel1 f l gd d a s) := ⟨_, _, rfl⟩
theorem gLoad_guarded (op l gd n o i s) : GuardedBy gd s (gLoad op l gd n o i s) := ⟨_, _, rfl⟩
theorem gData_guarded (op l src gd n o s) : GuardedBy gd s (gData op l src gd n o s) := ⟨_, _, rfl⟩
theorem onName_guarded (gd n f s) : GuardedBy gd s (onName gd n f s) := ⟨_, _, rfl⟩
theorem eForm_guarded (op gd n a s) : GuardedBy gd s (eForm op gd n a s) := ⟨_, _, rfl⟩
theorem sqForm_guarded (op gd s) : GuardedBy gd s (sqForm op gd s) := ⟨_, _, rfl⟩

/-- What an instruction with an encoding is. -/
theorem encoded_cases {j : Instr} {w : Word} (he : encode j = some w) :
    RunsAsSlot j w ∨ (∃ st gd o, j = .brNa st gd o) ∨ (∃ st l, j = .lit st l) ∨ ∃ st, j = .pad st := by
  cases j with
  | addSa | addSb | subSa | subSb | mulSa | mulSb | mulhSa | mulhSb | mulhuSa | mulhuSb | andSa | andSb | orSa | orSb
    | xorSa | xorSb | andnSa | andnSb | shlSa | shlSb | shrSa | shrSb | sarSa | sarSb | minSa | minSb | maxSa | maxSb
    | minuSa | minuSb | maxuSa | maxuSb =>
    exact .inl (runsAsSlot_of he rfl fun _ => by unfold exec; exact alu2_guarded ..)
  | addiSa | addiSb =>
    exact .inl (runsAsSlot_of he rfl fun _ => by unfold exec; exact aluI_guarded ..)
  | divSa | divSb | divuSa | divuSb | remSa | remSb | remuSa | remuSb =>
    exact .inl (runsAsSlot_of he rfl fun _ => by unfold exec; exact division_guarded ..)
  | shliSa | shliSb | shriSa | shriSb | sariSa | sariSb | extSa | extSb | extzSa | extzSb =>
    exact .inl (runsAsSlot_of he rfl fun _ => by unfold exec; exact aluN_guarded ..)
  | clzSa | clzSb | popcSa | popcSb | movSa | movSb =>
    exact .inl (runsAsSlot_of he rfl fun _ => by unfold exec; exact alu1_guarded ..)
  | moviSa | moviSb =>
    exact .inl (runsAsSlot_of he rfl fun _ => by unfold exec; exact movi_guarded ..)
  | cmpEqSa | cmpEqSb | cmpNeSa | cmpNeSb | cmpLtSa | cmpLtSb | cmpLeSa | cmpLeSb | cmpLtuSa | cmpLtuSb | cmpLeuSa
    | cmpLeuSb =>
    exact .inl (runsAsSlot_of he rfl fun _ => by unfold exec; exact compare_guarded ..)
  | cmpiEqSa | cmpiEqSb | cmpiNeSa | cmpiNeSb | cmpiLtSa | cmpiLtSb | cmpiLeSa | cmpiLeSb | cmpiLtuSa | cmpiLtuSb
    | cmpiLeuSa | cmpiLeuSb =>
    exact .inl (runsAsSlot_of he rfl fun _ => by unfold exec; exact compareI_guarded ..)
  | pandSa | pandSb | porSa | porSb | pxorSa | pxorSb | pandnSa | pandnSb | pnotSa | pnotSb | pmovSa | pmovSb =>
    exact .inl (runsAsSlot_of he rfl fun _ => by unfold exec; exact predOp_guarded ..)
  | psetiSa | psetiSb =>
    exact .inl (runsAsSlot_of he rfl fun _ => by unfold exec; exact pseti_guarded ..)
  | ptosSa | ptosSb =>
    exact .inl (runsAsSlot_of he rfl fun _ => by unfold exec; exact ptos_guarded ..)
  | setpSa | setpSb =>
    exact .inl (runsAsSlot_of he rfl fun _ => by unfold exec; exact setp_guarded ..)
  | schkSa | schkSb =>
    exact .inl (runsAsSlot_of he rfl fun _ => by unfold exec; exact scheck_guarded ..)
  | vaddF32Va | vaddF32Vb | vsubF32Va | vsubF32Vb | vmulF32Va | vmulF32Vb | vminF32Va | vminF32Vb | vmaxF32Va | vmaxF32Vb
    | vaddBfVa | vaddBfVb | vmulBfVa | vmulBfVb | vaddHfVa | vaddHfVb | vmulHfVa | vmulHfVb | vaddI32Va | vaddI32Vb
    | vsubI32Va | vsubI32Vb | vmulI32Va | vmulI32Vb | vminI32Va | vminI32Vb | vmaxI32Va | vmaxI32Vb | vandVa | vandVb
    | vorVa | vorVb | vxorVa | vxorVb | vshlVa | vshlVb | vshrVa | vshrVb | vsarVa | vsarVb | vdiv =>
    exact .inl (runsAsSlot_of he rfl fun _ => by unfold exec; exact vec2_guarded ..)
  | vfmaF32Va | vfmaF32Vb | vfmsF32Va | vfmsF32Vb | vfmaBfVa | vfmaBfVb | vfmaHfVa | vfmaHfVb | vdot4I8Va | vdot4I8Vb =>
    exact .inl (runsAsSlot_of he rfl fun _ => by unfold exec; exact vecF_guarded ..)
  | vabsF32Va | vabsF32Vb | vnegF32Va | vnegF32Vb | vcvtF32I32Va | vcvtF32I32Vb | vcvtI32F32Va | vcvtI32F32Vb
    | vcvtI32F32zVa | vcvtI32F32zVb | vexp2 | vlog2 | vrcp | vrsq | vsqrt | vtanh =>
    exact .inl (runsAsSlot_of he rfl fun _ => by unfold exec; exact vec1_guarded ..)
  | vcmpEqF32Va | vcmpEqF32Vb | vcmpLtF32Va | vcmpLtF32Vb | vcmpLeF32Va | vcmpLeF32Vb | vcmpEqI32Va | vcmpEqI32Vb
    | vcmpLtI32Va | vcmpLtI32Vb | vcmpLeI32Va | vcmpLeI32Vb =>
    exact .inl (runsAsSlot_of he rfl fun _ => by unfold exec; exact vecCmp_guarded ..)
  | vmandVa | vmandVb | vmorVa | vmorVb | vmnotVa | vmnotVb =>
    exact .inl (runsAsSlot_of he rfl fun _ => by unfold exec; exact maskOp_guarded ..)
  | vmsVa | vmsVb =>
    exact .inl (runsAsSlot_of he rfl fun _ => by unfold exec; exact maskSelect_guarded ..)
  | vselVa | vselVb | amaxu | aexps =>
    exact .inl (runsAsSlot_of he rfl fun _ => by unfold exec; exact sel2_guarded ..)
  | vpermVa | vpermVb | vpackBfVa | vpackBfVb | vpackHfVa | vpackHfVb | vpack8E4Va | vpack8E4Vb | vpack8E5Va | vpack8E5Vb
    | vmrg8Va | vmrg8Vb | amrg =>
    exact .inl (runsAsSlot_of he rfl fun _ => by unfold exec; exact whole2_guarded ..)
  | vrotVa | vrotVb | vunpk8E4Va | vunpk8E4Vb | vunpk8E5Va | vunpk8E5Vb =>
    exact .inl (runsAsSlot_of he rfl fun _ => by unfold exec; exact wholeI_guarded ..)
  | vrsumF32 | vrmaxF32 | vrminF32 | vrsumI32 =>
    exact .inl (runsAsSlot_of he rfl fun _ => by unfold exec; exact sel1_guarded ..)
  | ldb | ldbz | ldh | ldhz | ldw | ldwz | ldd | ldv | ldvS =>
    exact .inl (runsAsSlot_of he rfl fun _ => by unfold exec; exact gLoad_guarded ..)
  | ldvg | stb | sth | stw | std | stv | stvS | stvm | stvs | aaddW | aaddD | aminW | amaxW | axchgD | acasD =>
    exact .inl (runsAsSlot_of he rfl fun _ => by unfold exec; exact gData_guarded ..)
  | vjoin | sfree | slen | sfmt | sshd | spub | spubp | sdisc =>
    exact .inl (runsAsSlot_of he rfl fun _ => by unfold exec; exact onName_guarded ..)
  | cpyin | cpyinSh | cpyout | cpysg | cpymc | puts | gets | atadd | atcas | atxch | spawn =>
    exact .inl (runsAsSlot_of he rfl fun _ => by unfold exec; exact eForm_guarded ..)
  | mmul | mmulR | mlu | mluR | mchol | mcholR | mqr | mqrR | mtrs | mperm =>
    exact .inl (runsAsSlot_of he rfl fun _ => by unfold exec; exact sqForm_guarded ..)
  | br | brNt | bri | call | loop0 | loop1 | loopi0 | loopi1 | endTask | trap | reti | brk | gmap | srd | swr | cget | cset
    | acmp | cgset | slane | vunpkBfVa | vunpkBfVb | vunpkHfVa | vunpkHfVb | aresc | anorm | vchk | xbc | xins | xmk | xext
    | xms | xfst | sbind | kset | kclr | kldk | kldv | kapp | klen | kmark | ktrunc | kivl | kcls | kpf | putr | waitf
    | postf | postr | finit | waitc | frd | mwl | mwsw | mga | mac | macLatch | macZ | macZLatch | mdr | mrot | mldh | mset
    | abal | abfr =>
    exact .inl (runsAsSlot_of he rfl fun _ => by unfold exec; exact ⟨_, _, rfl⟩)
  | brNa st gd o => exact .inr (.inl ⟨st, gd, o, rfl⟩)
  | lit st l => exact .inr (.inr (.inl ⟨st, l, rfl⟩))
  | pad st => exact .inr (.inr (.inr ⟨st, rfl⟩))
  | _ => cases he

/-! ### Slots without effect (R41, R42, R44, R79) -/

/-- A slot under no guard whose effect is nothing. -/
theorem runSlot_nothing {s : State} {i : Issue} (h1 : s.issue = some i) (h2 : i.remake = []) :
    runSlot 0 [] (fun _ _ s => s) s = .next { s with issue := some { i with pos := i.pos + 1 } } := by
  by_cases h3 : i.annulled = true
  · exact runSlot_passes h1 h2 (.inl h3) _ _
  · have hx : s.Executes i 0 [] {} := ⟨h1, h2, Bool.eq_false_iff.2 h3, by simp [Regs.guard], rfl⟩
    rw [runSlot_executes hx]
    simp [State.past, Issue.past, popsOf]

/-- BR.na annuls nothing where its own bundle is annulled. -/
theorem annulNotTaken_annulled {s : State} {i : Issue} (h1 : s.issue = some i) (h3 : i.annulled = true) (gd : BitVec 3) :
    s.annulNotTaken gd = s := by
  simp [State.annulNotTaken, h1, h3]

theorem execBrNa_annulled {s : State} {i : Issue} (h1 : s.issue = some i) (h2 : i.remake = []) (h3 : i.annulled = true)
    (gd : BitVec 3) (o : BitVec 18) : execBrNa gd o s = .next { s with issue := some { i with pos := i.pos + 1 } } := by
  rw [execBrNa, annulNotTaken_annulled h1 h3]
  exact runSlot_passes h1 h2 (.inl h3) _ _

/-- Settles O49: a slot under a guard passes, BR.na passes in an annulled bundle, and LIT and PAD always pass. -/
theorem slotsWithoutEffect : Obligations.SlotsWithoutEffect := by
  unfold Obligations.SlotsWithoutEffect
  intro s i w j h1 h2 he
  obtain ⟨hc, hs⟩ | ⟨st, gd, o, rfl⟩ | ⟨st, l, rfl⟩ | ⟨st, rfl⟩ := encoded_cases he
  · obtain ⟨src, f, hr⟩ := hs s
    rw [hr]
    exact ⟨fun ha => runSlot_passes h1 h2 (.inl ha) src f, fun _ _ hg => runSlot_passes h1 h2 (.inr hg) src f, by omega⟩
  · cases he
    obtain ⟨ec, eo, -⟩ := slotWord_parts st (cl := 0) (op := 1) gd o (by decide) (by decide)
    exact ⟨fun ha => execBrNa_annulled h1 h2 ha gd o, fun _ hn => absurd ⟨ec, eo⟩ hn, by omega⟩
  · cases he
    have hc := slotClass_join st 14#4 l
    exact ⟨fun _ => runSlot_nothing h1 h2, fun h => absurd (hc ▸ h) (by decide), fun _ => runSlot_nothing h1 h2⟩
  · cases he
    have hc := slotClass_join st 15#4 0#27
    exact ⟨fun _ => runSlot_nothing h1 h2, fun h => absurd (hc ▸ h) (by decide), fun _ => runSlot_nothing h1 h2⟩

end Sys2Proof.Machine
end

