-- ==== Sys2Proof/Proofs/ScalarSlots.lean ====
section
/-! PROOFS. The slots of the scalar classes (R95 to R99) and VCHK (R65): what a slot that executes gives, the operations of the model
in the terms of the rules, and the obligations that say what each of these instructions gives. -/

namespace Sys2Proof.Machine

/-! ### A slot that executes and gives one result (R15, R27) -/

section
variable {s : State} {i : Issue} {gd : BitVec 3} {src : List Rd} {o : Opnds} (h : s.Executes i gd src o)
include h

/-- A slot whose effect is a push into a scalar destination. -/
theorem runSlot_pushS (d : BitVec 6) (l : Nat) (f : SlotRec → Opnds → State → Dword) :
    runSlot gd src (fun h o s => s.pushS h d l (f h o s)) s =
      .next (s.sends i src (s.toS i d l (f (i.slotOf o) o (s.past i src)))) := by
  rw [runSlot_executes h, pushS_past h.first]

/-- A slot whose effect is a push into a vector destination. -/
theorem runSlot_pushV (d : BitVec 6) (l : Nat) (f : SlotRec → Opnds → State → Vec × Fpst) :
    runSlot gd src (fun h o s => s.pushV h d l (f h o s)) s =
      .next (s.sends i src (i.toV d l (f (i.slotOf o) o (s.past i src)))) := by
  rw [runSlot_executes h, pushV_past h.first]

/-- A slot whose effect is one result for a register of another kind. -/
theorem runSlot_push (l : Nat) (f : SlotRec → Opnds → State → Payload) :
    runSlot gd src (fun h o s => s.push h l (f h o s)) s =
      .next (s.sends i src [i.gives l (f (i.slotOf o) o (s.past i src))]) := by
  rw [runSlot_executes h, push_past h.first]

end

/-! ### Products, shifts, extensions and counts of bits (R95) -/

theorem sham_eq (y : Dword) : sham y = (fld y 0 6).toNat := by
  simp [sham, BitVec.extractLsb'_toNat]

theorem shl_eq (x y : Dword) : shl x y = x <<< (fld y 0 6).toNat := by rw [shl, sham_eq]
theorem shr_eq (x y : Dword) : shr x y = x >>> (fld y 0 6).toNat := by rw [shr, sham_eq]
theorem sar_eq (x y : Dword) : sar x y = x.sshiftRight (fld y 0 6).toNat := by rw [sar, sham_eq]

theorem mulhS_eq (x y : Dword) : mulhS x y = fld (x.signExtend 128 * y.signExtend 128) 64 64 := by
  have product : x.signExtend 128 * y.signExtend 128 = BitVec.ofInt 128 (x.toInt * y.toInt) := (BitVec.ofInt_mul _ _).symm
  rw [product, mulhS]
  generalize x.toInt * y.toInt = z
  apply BitVec.eq_of_toNat_eq
  rw [BitVec.extractLsb'_toNat, BitVec.toNat_ofInt, BitVec.toNat_ofInt, Nat.shiftRight_eq_div_pow]
  omega

theorem mulhU_eq (x y : Dword) : mulhU x y = fld (x.setWidth 128 * y.setWidth 128) 64 64 := by
  have bound : x.toNat * y.toNat < 2 ^ 64 * 2 ^ 64 := Nat.mul_lt_mul'' x.isLt y.isLt
  apply BitVec.eq_of_toNat_eq
  simp only [mulhU, BitVec.extractLsb'_toNat, BitVec.toNat_ofNat, BitVec.toNat_mul, BitVec.toNat_setWidth,
    Nat.shiftRight_eq_div_pow]
  rw [Nat.mod_eq_of_lt (x.isLt.trans (by decide)), Nat.mod_eq_of_lt (y.isLt.trans (by decide))]
  generalize x.toNat * y.toNat = z at bound
  omega

theorem minS_eq (x y : Dword) : minS x y = if x.toInt < y.toInt then x else y := by
  simp only [minS, BitVec.sle_iff_toInt_le]
  rcases Int.lt_trichotomy x.toInt y.toInt with h | h | h
  · rw [if_pos h, if_pos (by omega)]
  · rw [BitVec.eq_of_toInt_eq h, ite_self, ite_self]
  · rw [if_neg (by omega), if_neg (by omega)]

theorem maxS_eq (x y : Dword) : maxS x y = if y.toInt < x.toInt then x else y := by
  simp only [maxS, BitVec.sle_iff_toInt_le]
  rcases Int.lt_trichotomy x.toInt y.toInt with h | h | h
  · rw [if_pos (by omega), if_neg (by omega)]
  · rw [BitVec.eq_of_toInt_eq h, ite_self, ite_self]
  · rw [if_neg (by omega), if_pos h]

theorem minU_eq (x y : Dword) : minU x y = if x.toNat < y.toNat then x else y := by
  simp only [minU, BitVec.ule_iff_toNat_le]
  rcases Nat.lt_trichotomy x.toNat y.toNat with h | h | h
  · rw [if_pos h, if_pos (by omega)]
  · rw [BitVec.eq_of_toNat_eq h, ite_self, ite_self]
  · rw [if_neg (by omega), if_neg (by omega)]

theorem maxU_eq (x y : Dword) : maxU x y = if y.toNat < x.toNat then x else y := by
  simp only [maxU, BitVec.ule_iff_toNat_le]
  rcases Nat.lt_trichotomy x.toNat y.toNat with h | h | h
  · rw [if_pos (by omega), if_neg (by omega)]
  · rw [BitVec.eq_of_toNat_eq h, ite_self, ite_self]
  · rw [if_neg (by omega), if_pos h]

theorem extS_eq (x w : Dword) : extS x w = (x.setWidth (sham w + 1)).signExtend 64 := by
  have hw : sham w < 64 := Nat.mod_lt _ (by decide)
  unfold extS
  generalize sham w = n at hw
  ext k hk
  by_cases h : k ≤ n
  · have : 63 - n + k < 64 := by omega
    simp [BitVec.getElem_sshiftRight, BitVec.getElem_signExtend, BitVec.getLsbD_eq_getElem, h, this, hk]
  · have : ¬ 63 - n + k < 64 := by omega
    have e : 63 - (63 - n) = n := by omega
    simp [BitVec.getElem_sshiftRight, BitVec.getElem_signExtend, BitVec.msb_eq_getLsbD_last, h, this, e, hw,
      BitVec.getLsbD_eq_getElem]

theorem extU_eq (x w : Dword) : extU x w = (x.setWidth (sham w + 1)).setWidth 64 := by
  have hw : sham w < 64 := Nat.mod_lt _ (by decide)
  unfold extU
  generalize sham w = n at hw
  ext k hk
  have : 63 - n + k < 64 ↔ k ≤ n := by omega
  simp [this]

theorem clzNat_eq (x n : Nat) : clzNat x n = ((List.range n).takeWhile fun j => !x.testBit (n - 1 - j)).length := by
  induction n with
  | zero => rfl
  | succ n ih =>
    rw [List.range_succ_eq_map, List.takeWhile_cons, clzNat]
    cases h : x.testBit n
    · simp [List.takeWhile_map, ih, h, Function.comp_def, Nat.sub_sub, Nat.add_comm]
    · simp [h]

theorem popcNat_eq (x n : Nat) : popcNat x n = ((List.range n).filter fun j => x.testBit j).length := by
  induction n with
  | zero => rfl
  | succ n ih =>
    rw [List.range_succ, List.filter_append, List.length_append, ← ih, popcNat]
    cases h : x.testBit n <;> simp [b2n, h, Nat.add_comm]

theorem clz_eq (x : Dword) : clz x = BitVec.ofNat 64 ((List.range 64).takeWhile fun j => !bit x (63 - j)).length :=
  congrArg (BitVec.ofNat 64) (clzNat_eq x.toNat 64)

theorem popc_eq (x : Dword) : popc x = BitVec.ofNat 64 ((List.range 64).filter fun j => bit x j).length :=
  congrArg (BitVec.ofNat 64) (popcNat_eq x.toNat 64)

/-! ### Results in a scalar destination (R95) -/

section
variable {s : State} {i : Issue} {gd : BitVec 3} {d a b k : BitVec 6} {o : Opnds} {v : Dword}

theorem alu2_gives (h : s.Executes i gd [srcS a, srcS b] o) {f : Dword → Dword → Dword} {l : Nat} (hv : f o.s0 o.s1 = v) :
    alu2 f l gd d a b s = .next (s.sends i [srcS a, srcS b] (s.toS i d l v)) :=
  hv ▸ runSlot_pushS h d l fun _ o _ => f o.s0 o.s1

theorem alu1_gives (h : s.Executes i gd [srcS a] o) {f : Dword → Dword} (hv : f o.s0 = v) :
    alu1 f gd d a s = .next (s.sends i [srcS a] (s.toS i d 1 v)) :=
  hv ▸ runSlot_pushS h d 1 fun _ o _ => f o.s0

theorem aluI_gives (h : s.Executes i gd [srcS a] o) {f : Dword → Dword → Dword} (hv : f o.s0 (immS 6 k.toNat i.lits) = v) :
    aluI f gd d a k s = .next (s.sends i [srcS a] (s.toS i d 1 v)) := by
  rw [← hv, ← slotOf_immS h.first o]
  exact runSlot_pushS h d 1 fun h o _ => f o.s0 (h.immS 6 k.toNat)

theorem aluN_gives (h : s.Executes i gd [srcS a] o) {f : Dword → Dword → Dword} (hv : f o.s0 (immU 6 k.toNat i.lits) = v) :
    aluN f gd d a k s = .next (s.sends i [srcS a] (s.toS i d 1 v)) := by
  rw [← hv, ← slotOf_immU h.first o]
  exact runSlot_pushS h d 1 fun h o _ => f o.s0 (h.immU 6 k.toNat)

theorem movi_gives (h : s.Executes i gd [] o) (m : BitVec 12) :
    movi gd d m s = .next (s.sends i [] (s.toS i d 1 (immS 12 m.toNat i.lits))) := by
  rw [← slotOf_immS h.first o]
  exact runSlot_pushS h d 1 fun h _ _ => h.immS 12 m.toNat

end

/-- Settles O1: each scalar operation is one of five shapes, and its value is that of the rule. -/
theorem scalarResults : Obligations.ScalarResults := by
  unfold Obligations.ScalarResults
  refine ⟨?_, ?_⟩
  · intro s i st gd d a b o h x y n hiS hiU least
    have andn {l : Nat} := alu2_gives (d := d) (l := l) h (f := fun a b => a &&& ~~~b) rfl
    simp only [List.forall_mem_cons, least, decide_eq_true_eq]
    exact ⟨alu2_gives h rfl, alu2_gives h rfl, alu2_gives h rfl, alu2_gives h rfl, alu2_gives h rfl, alu2_gives h rfl,
      alu2_gives h (mulhS_eq _ _), alu2_gives h (mulhS_eq _ _), alu2_gives h (mulhU_eq _ _), alu2_gives h (mulhU_eq _ _),
      alu2_gives h rfl, alu2_gives h rfl, alu2_gives h rfl, alu2_gives h rfl, alu2_gives h rfl, alu2_gives h rfl, andn, andn,
      alu2_gives h (shl_eq _ _), alu2_gives h (shl_eq _ _), alu2_gives h (shr_eq _ _), alu2_gives h (shr_eq _ _),
      alu2_gives h (sar_eq _ _), alu2_gives h (sar_eq _ _), alu2_gives h (minS_eq _ _), alu2_gives h (minS_eq _ _),
      alu2_gives h (maxS_eq _ _), alu2_gives h (maxS_eq _ _), alu2_gives h (minU_eq _ _), alu2_gives h (minU_eq _ _),
      alu2_gives h (maxU_eq _ _), alu2_gives h (maxU_eq _ _), List.forall_mem_nil _⟩
  · intro s i st gd d a k m o x imm n zeros ones
    refine ⟨fun h => ?_, fun h => ?_⟩
    · simp only [List.forall_mem_cons]
      exact ⟨aluI_gives h rfl, aluI_gives h rfl, aluN_gives h rfl, aluN_gives h rfl, aluN_gives h rfl, aluN_gives h rfl,
        aluN_gives h rfl, aluN_gives h rfl, aluN_gives h (extS_eq _ _), aluN_gives h (extS_eq _ _), aluN_gives h (extU_eq _ _),
        aluN_gives h (extU_eq _ _), alu1_gives h (clz_eq _), alu1_gives h (clz_eq _), alu1_gives h (popc_eq _),
        alu1_gives h (popc_eq _), alu1_gives (f := id) h rfl, alu1_gives (f := id) h rfl, List.forall_mem_nil _⟩
    · simp only [List.forall_mem_cons]
      exact ⟨movi_gives h m, movi_gives h m, List.forall_mem_nil _⟩

/-! ### Divisions (R96, R48) -/

theorem divS_eq (x y : Dword) :
    divS x y = if y = 0 then BitVec.allOnes 64 else BitVec.ofInt 64 (x.toInt.tdiv y.toInt) := by
  unfold divS
  congr 1
  apply BitVec.eq_of_toInt_eq
  rw [BitVec.toInt_sdiv, BitVec.toInt_ofInt]

theorem divU_eq (x y : Dword) :
    divU x y = if y = 0 then BitVec.allOnes 64 else BitVec.ofNat 64 (x.toNat / y.toNat) := by
  unfold divU
  rw [BitVec.udiv_def]

/-- The remainder is what the quotient leaves; a zero divisor leaves the dividend. -/
theorem remS_eq (x y : Dword) : remS x y = if y = 0 then x else x - divS x y * y := by
  by_cases h : y = 0
  · simp [remS, h]
  · rw [remS, divS_eq, if_neg h, if_neg h, if_neg h]
    refine eq_sub_of_add_eq ?_
    calc x.srem y + BitVec.ofInt 64 (x.toInt.tdiv y.toInt) * y
        = BitVec.ofInt 64 (x.toInt.tmod y.toInt + y.toInt * x.toInt.tdiv y.toInt) := by
          rw [BitVec.ofInt_add, BitVec.ofInt_mul, ← BitVec.toInt_srem, BitVec.ofInt_toInt, BitVec.ofInt_toInt, mul_comm y]
      _ = x := by rw [Int.tmod_add_mul_tdiv, BitVec.ofInt_toInt]

theorem remU_eq (x y : Dword) : remU x y = if y = 0 then x else x - divU x y * y := by
  by_cases h : y = 0
  · simp [remU, h]
  · rw [remU, divU_eq, if_neg h, if_neg h, if_neg h]
    refine eq_sub_of_add_eq ?_
    calc x % y + BitVec.ofNat 64 (x.toNat / y.toNat) * y
        = BitVec.ofNat 64 (x.toNat % y.toNat + y.toNat * (x.toNat / y.toNat)) := by
          rw [BitVec.ofNat_add, BitVec.ofNat_mul, BitVec.umod_def, BitVec.ofNat_toNat, BitVec.setWidth_eq, mul_comm y]
      _ = x := by rw [Nat.mod_add_div, BitVec.ofNat_toNat, BitVec.setWidth_eq]

theorem division_gives {s : State} {i : Issue} {gd : BitVec 3} {d a b : BitVec 6} {o : Opnds} {v : Dword}
    (h : s.Executes i gd [srcS a, srcS b] o) {sa : Bool} {f : Dword → Dword → Dword} (hv : f o.s0 o.s1 = v) :
    division sa f gd d a b s = .next ((s.sends i [srcS a, srcS b] (s.toS i d 24 v)).modIssue fun z =>
      if sa then { z with divA := true } else { z with divB := true }) := by
  rw [division, runSlot_executes h, pushS_past h.first, hv]

/-- Settles O2: the quotients and remainders of the model are those of the rule, corners included. -/
theorem divisionResults : Obligations.DivisionResults := by
  unfold Obligations.DivisionResults
  intro s i st gd d a b o h x y q qu rem out
  have hq : divS o.s0 o.s1 = q := divS_eq _ _
  have hqu : divU o.s0 o.s1 = qu := divU_eq _ _
  have hr : remS o.s0 o.s1 = rem q := hq ▸ remS_eq _ _
  have hru : remU o.s0 o.s1 = rem qu := hqu ▸ remU_eq _ _
  simp only [List.forall_mem_cons]
  exact ⟨⟨division_gives h hq, division_gives h hqu, division_gives h hr, division_gives h hru, List.forall_mem_nil _⟩,
    division_gives h hq, division_gives h hqu, division_gives h hr, division_gives h hru, List.forall_mem_nil _⟩

/-! ### Results in a predicate (R97, R98) -/

section
variable {s : State} {i : Issue} {gd : BitVec 3} {p q : BitVec 7} {d a : BitVec 6} {o : Opnds} {c : Cc} {v : Bool}

theorem compare_gives {b : BitVec 5} (h : s.Executes i gd [srcS a, srcB b] o) (hv : c.holds o.s0 o.s1 = v) :
    compare c gd p a b s = .next (s.sends i [srcS a, srcB b] [i.gives 1 (.pred p.toNat v)]) :=
  hv ▸ runSlot_push h 1 fun _ o _ => .pred p.toNat (c.holds o.s0 o.s1)

/-- The immediate of CMPI is extended as its condition compares (R63). -/
theorem compareI_gives {k : BitVec 5} (h : s.Executes i gd [srcS a] o)
    (hv : c.holds o.s0 (if c.signed then immS 5 k.toNat i.lits else immU 5 k.toNat i.lits) = v) :
    compareI c gd p a k s = .next (s.sends i [srcS a] [i.gives 1 (.pred p.toNat v)]) := by
  rw [← hv, ← slotOf_immS h.first o, ← slotOf_immU h.first o]
  exact runSlot_push h 1 fun h o _ => .pred p.toNat (c.holds o.s0 (if c.signed then h.immS 5 k.toNat else h.immU 5 k.toNat))

theorem predOp_gives (h : s.Executes i gd [] o) {f : Bool → Bool → Bool}
    (hv : f ((s.regsOf i).getPred p.toNat) ((s.regsOf i).getPred q.toNat) = v) :
    predOp f gd p q s = .next (s.sends i [] [i.gives 1 (.pred p.toNat v)]) :=
  hv ▸ runSlot_push h 1 fun _ _ s => .pred p.toNat (f (s.cur.regs.getPred p.toNat) (s.cur.regs.getPred q.toNat))

theorem pseti_gives (h : s.Executes i gd [] o) (b : BitVec 1) :
    pseti gd p b s = .next (s.sends i [] [i.gives 1 (.pred p.toNat (b == 1))]) :=
  runSlot_push h 1 fun _ _ _ => .pred p.toNat (b == 1)

theorem ptos_gives (h : s.Executes i gd [] o) :
    ptos gd d q s = .next (s.sends i [] (s.toS i d 1 (if (s.regsOf i).getPred q.toNat then 1 else 0))) := by
  have e : BitVec.ofNat 64 (b2n ((s.regsOf i).getPred q.toNat)) = if (s.regsOf i).getPred q.toNat then 1 else 0 := by
    cases (s.regsOf i).getPred q.toNat <;> rfl
  rw [← e]
  exact runSlot_pushS h d 1 fun _ _ s => BitVec.ofNat 64 (b2n (s.cur.regs.getPred q.toNat))

theorem setp_gives (h : s.Executes i gd [srcS a] o) (hv : (o.s0 != 0) = v) :
    setp gd p a s = .next (s.sends i [srcS a] [i.gives 1 (.pred p.toNat v)]) :=
  hv ▸ runSlot_push h 1 fun _ o _ => .pred p.toNat (o.s0 != 0)

end

/-! The conditions of R97 as relations of numbers. -/

theorem holds_eq (x y : Dword) : Cc.eq.holds x y = decide (x = y) := rfl
theorem holds_ne (x y : Dword) : Cc.ne.holds x y = decide (x ≠ y) := by simp [Cc.holds, bne, Bool.beq_eq_decide_eq]
theorem holds_lt (x y : Dword) : Cc.lt.holds x y = decide (x.toInt < y.toInt) := BitVec.slt_eq_decide
theorem holds_le (x y : Dword) : Cc.le.holds x y = decide (x.toInt ≤ y.toInt) := BitVec.sle_eq_decide
theorem holds_ltu (x y : Dword) : Cc.ltu.holds x y = decide (x.toNat < y.toNat) := BitVec.ult_eq_decide
theorem holds_leu (x y : Dword) : Cc.leu.holds x y = decide (x.toNat ≤ y.toNat) := BitVec.ule_eq_decide

/-- Settles O3: each condition is the comparison of the rule. -/
theorem comparesWritePredicates : Obligations.ComparesWritePredicates := by
  unfold Obligations.ComparesWritePredicates
  intro s i st gd p a b k o x y ks ku
  simp only [List.forall_mem_cons]
  exact ⟨fun h => ⟨compare_gives h (holds_eq _ _), compare_gives h (holds_eq _ _), compare_gives h (holds_ne _ _),
      compare_gives h (holds_ne _ _), compare_gives h (holds_lt _ _), compare_gives h (holds_lt _ _),
      compare_gives h (holds_le _ _), compare_gives h (holds_le _ _), compare_gives h (holds_ltu _ _),
      compare_gives h (holds_ltu _ _), compare_gives h (holds_leu _ _), compare_gives h (holds_leu _ _), List.forall_mem_nil _⟩,
    fun h => ⟨compareI_gives h (holds_eq _ _), compareI_gives h (holds_eq _ _), compareI_gives h (holds_ne _ _),
      compareI_gives h (holds_ne _ _), compareI_gives h (holds_lt _ _), compareI_gives h (holds_lt _ _),
      compareI_gives h (holds_le _ _), compareI_gives h (holds_le _ _), compareI_gives h (holds_ltu _ _),
      compareI_gives h (holds_ltu _ _), compareI_gives h (holds_leu _ _), compareI_gives h (holds_leu _ _),
      List.forall_mem_nil _⟩⟩

/-- Settles O4: each operation reads both predicates as they stand before the bundle. -/
theorem predicateOperations : Obligations.PredicateOperations := by
  unfold Obligations.PredicateOperations
  intro s i st gd p q d a b o val x y
  have pandn (h : s.Executes i gd [] o) := predOp_gives (p := p) (q := q) (f := fun a b => a && !b) h rfl
  have pnot (h : s.Executes i gd [] o) := predOp_gives (p := p) (q := q) (f := fun _ b => !b) h rfl
  have pmov (h : s.Executes i gd [] o) := predOp_gives (p := p) (q := q) (f := fun _ b => b) h rfl
  simp only [List.forall_mem_cons]
  exact ⟨fun h => ⟨⟨predOp_gives h rfl, predOp_gives h rfl, predOp_gives h rfl, predOp_gives h rfl, predOp_gives h rfl,
      predOp_gives h rfl, pandn h, pandn h, pnot h, pnot h, pmov h, pmov h, pseti_gives h b, pseti_gives h b,
      List.forall_mem_nil _⟩, ptos_gives h, ptos_gives h, List.forall_mem_nil _⟩,
    fun h => ⟨setp_gives h (holds_ne _ _), setp_gives h (holds_ne _ _), List.forall_mem_nil _⟩⟩

/-! ### Checks (R99, R65) -/

/-- A slot that compares its operands: no effect where they agree, and a check in flight where they differ. -/
theorem runSlot_check {s : State} {i : Issue} {gd : BitVec 3} {src : List Rd} {o : Opnds} (h : s.Executes i gd src o) (l : Nat)
    (agree : Opnds → Prop) [DecidablePred agree] (detail : Opnds → Dword) :
    runSlot gd src (fun h o s => if agree o then s else s.push h l (.check (detail o))) s =
      .next (s.sends i src (if agree o then [] else [i.gives l (.check (detail o))])) := by
  rw [runSlot_executes h]
  by_cases e : agree o
  · rw [if_pos e, if_pos e, past_eq_sends]
  · rw [if_neg e, if_neg e, push_past h.first]

/-- Settles O5: SCHK and VCHK are such slots. -/
theorem checksCompareOperands : Obligations.ChecksCompareOperands := by
  unfold Obligations.ChecksCompareOperands
  intro s i st gd a b o
  simp only [List.forall_mem_cons]
  exact ⟨fun h => ⟨runSlot_check h 1 (fun o => o.s0 = o.s1) fun o => o.s0 ^^^ o.s1,
      runSlot_check h 1 (fun o => o.s0 = o.s1) fun o => o.s0 ^^^ o.s1, List.forall_mem_nil _⟩,
    fun h => runSlot_check h 2 (fun o => o.v0 = o.v1) fun o => vchkInfo o.v0 o.v1⟩

end Sys2Proof.Machine
end

