-- ==== Sys2Proof/Proofs/ControlSlots.lean ====
section
/-! PROOFS. The slots that control the flow of bundles (R76 to R92) and the transfers between the files (R100, R101): taken branches,
loop set-up and the loop-end action, END, TRAP, RETI, BRK and GMAP. -/

namespace Sys2Proof.Machine

/-! ### Taken branches (R76, R78, R81) -/

/-- A branch of a slot that has given its results. -/
theorem branch_sends (s : State) (i : Issue) (src : List Rd) (out : List Res) (a : Dword) (chk annul : Bool) :
    (s.sends i src out).branch a chk annul = s.branches i src out ⟨a, chk⟩ (annul && !s.delaySlot i) := rfl

/-- A branch of a slot without results. -/
theorem branch_past (s : State) (i : Issue) (src : List Rd) (a : Dword) (chk annul : Bool) :
    (s.past i src).branch a chk annul = s.branches i src [] ⟨a, chk⟩ (annul && !s.delaySlot i) := by
  rw [past_eq_sends, branch_sends]

theorem offTarget_slotOf {i : Issue} (h : i.remake = []) (o : Opnds) (off : BitVec 18) :
    offTarget off (i.slotOf o) = i.addr + 4 * immS 18 off.toNat i.lits := by
  rw [offTarget, farWords, slotOf_pc h, slotOf_immS h]

/-- BR.na whose guard is true annuls nothing (R78). -/
theorem annulNotTaken_taken {s : State} {i : Issue} {gd : BitVec 3} (h1 : s.issue = some i)
    (h2 : (s.ctx i.tile i.cx).regs.guard gd = true) : s.annulNotTaken gd = s := by
  simp [State.annulNotTaken, h1, h2]

/-- BR.na whose guard is false annuls its delay bundles, unless it stands in those of another taken branch (R78, R81). -/
theorem annulNotTaken_not {s : State} {i : Issue} {gd : BitVec 3} (h1 : s.issue = some i) (h2 : i.remake = [])
    (h3 : i.annulled = false) (h4 : (s.ctx i.tile i.cx).regs.guard gd = false) :
    s.annulNotTaken gd = { s with issue := some { i with annulNext := i.annulNext || !s.delaySlot i } } := by
  have hd : s.inDelay = s.delaySlot i := by
    simp only [State.inDelay, State.cur, State.here, h1]; rfl
  cases e : s.delaySlot i
  · simp [State.annulNotTaken, h1, h2, h3, h4, hd, e]
  · have same : { i with annulNext := i.annulNext || !true } = i := by simp
    have quiet : s.annulNotTaken gd = s := by simp [State.annulNotTaken, h1, hd, e]
    rw [same, ← h1]
    exact quiet

/-- Settles O6: a taken branch leaves its target and its annulment with the bundle in progress. -/
theorem branchesForceTargets : Obligations.BranchesForceTargets := by
  unfold Obligations.BranchesForceTargets
  intro s i st gd off k d a o far
  refine ⟨fun h => ?_, fun h => ?_, fun h1 h2 h3 h4 => ?_⟩
  · have target := offTarget_slotOf h.first o off
    have taken (annul : Bool) : runSlot gd [] (fun h _ s => s.branch (offTarget off h) true annul) s =
        .next (s.branches i [] [] far (annul && !s.delaySlot i)) := by
      rw [runSlot_executes h, branch_past, target]
    refine ⟨taken false, ?_, taken true, ?_⟩
    · show execBrNa gd off s = _
      rw [execBrNa, annulNotTaken_taken h.issue h.guard]
      exact taken false
    · show execCall gd d k s = _
      rw [execCall, runSlot_executes h]
      simp only [pushS_past h.first, branch_sends, farWords, slotOf_pc h.first, slotOf_immS h.first]
      rfl
  · show execBri gd a s = _
    rw [execBri, runSlot_executes h, branch_past]
    rfl
  · show execBrNa gd off s = _
    rw [execBrNa, annulNotTaken_not h1 h2 h3 h4]
    exact runSlot_passes (s := { s with issue := some { i with annulNext := i.annulNext || !s.delaySlot i } }) rfl h2 (.inr h4) _ _

/-! ### Loops (R83, R84) -/

/-- The set-up of a loop set: its result, and the jump over the body where the count is 0. -/
theorem loop_past {i : Issue} (h : i.remake = []) (s : State) (src : List Rd) (o : Opnds) (n : Nat) (count : BitVec 32)
    (k : BitVec 12) :
    let le := i.addr + 4 * immS 12 k.toNat i.lits
    let set := i.gives 1 (.loop n count (s.code.nextBundle i.addr) le (s.ctx i.tile i.cx).frame.mode)
    (s.past i src).loop n count k (i.slotOf o) =
      if count = 0 then s.branches i src [set] ⟨s.code.nextBundle le, true⟩ (!s.delaySlot i) else s.sends i src [set] := by
  simp only [State.loop, farWords, slotOf_pc h, slotOf_immS h, push_past h, branch_sends, past_code, past_cur, Bool.true_and]

/-- Settles O7: LOOPn and LOOPIn set their set up, and the loop-end action tests lp1 before lp0. -/
theorem loopsRunTheirBodies : Obligations.LoopsRunTheirBodies := by
  unfold Obligations.LoopsRunTheirBodies
  refine ⟨?_, ?_⟩
  · intro s i st gd k a c o le ls set after
    have run {src : List Rd} (h : s.Executes i gd src o) (n : Nat) (count : Opnds → BitVec 32) :
        runSlot gd src (fun h o s => s.loop n (count o) k h) s = .next (after n src (count o)) := by
      rw [runSlot_executes h, loop_past h.first]
      rfl
    exact ⟨fun h => ⟨run h 0 fun o => fld o.s0 0 32, run h 1 fun o => fld o.s0 0 32⟩,
      fun h => ⟨run h 0 fun _ => c.setWidth 32, run h 1 fun _ => c.setWidth 32⟩⟩
  · intro r a mode l1 l0 here
    rw [loopEnd_eq]
    refine ⟨fun e1 c1 => loopStep_more _ e1 c1, fun e1 c1 e0 c0 => ?_, fun e1 c1 e0 c0 => ?_, fun e1 c1 e0 => ?_,
      fun e1 e0 c0 => ?_, fun e1 e0 c0 => ?_, fun e1 e0 => ?_⟩
    · rw [loopStep_last _ e1 c1, loopStep_more _ e0 c0]
    · rw [loopStep_last _ e1 c1, loopStep_last _ e0 c0]
    · rw [loopStep_last _ e1 c1, loopStep_not _ e0]
    · rw [loopStep_not _ e1, loopStep_more _ e0 c0]
    · rw [loopStep_not _ e1, loopStep_last _ e0 c0]
    · rw [loopStep_not _ e1, loopStep_not _ e0]

/-! ### END, TRAP, RETI, BRK and GMAP (R88 to R92) -/

/-- A cause of the bundle itself, in user mode outside a lane: the context enters the monitor, its results in flight one position
later (R323, R324). -/
theorem trapBefore_user {s : State} {t : Nat} {cx : Cx} (hm : (s.ctx t cx).frame.mode = false) (hl : (s.ctx t cx).lane = none)
    (cause slot : Nat) (einfo : Dword) :
    (s.trapBefore t cx cause slot einfo).ctx t cx = (s.ctx t cx).enter cx (s.tile t).evec cause slot einfo (s.ctx t cx).pos.pc []
      ((s.ctx t cx).inflight.map fun r => { r with rem := r.rem + 1 }) := by
  show State.ctx (s.trap t cx cause slot einfo (s.ctx t cx).pos.pc []
    ((s.ctx t cx).inflight.map fun r => { r with rem := r.rem + 1 })) t cx = _
  rw [trap_user hm hl, ctx_putCtx]

theorem execBrk_executes {s : State} {i : Issue} {gd : BitVec 3} {o : Opnds} (h : s.Executes i gd [] o) (k : BitVec 12) :
    execBrk gd k s = .next ((s.past i []).trapBefore i.tile i.cx Cause.brk i.pos (immU 12 k.toNat i.lits)) := by
  rw [execBrk, runSlot_executes h, past_issue, Option.isSome_some, if_pos rfl, past_here, slotOf_slot h.first,
    slotOf_immU h.first]

/-- Settles O8: END, TRAP, RETI and GMAP leave their note with the bundle; BRK enters the monitor instead of it. -/
theorem systemSlotsTakeEffect : Obligations.SystemSlotsTakeEffect := by
  unfold Obligations.SystemSlotsTakeEffect
  intro s i st e gd w a p k o past
  refine ⟨fun h => ?_, fun h => ?_, fun h hm hl hp => ?_⟩
  · show execEndTask gd a s = _
    rw [execEndTask, runSlot_executes h]
    rfl
  · refine ⟨?_, ?_, fun hm => ?_, fun hm => ?_⟩
    · show execTrap gd k s = _
      rw [execTrap, runSlot_executes h, slotOf_slot h.first, slotOf_immU h.first]
      rfl
    · exact runSlot_push h 1 fun _ _ _ => .window w.toNat p (e == 1)
    · show execReti gd s = _
      rw [execReti, runSlot_executes h, past_cur, if_pos hm]
      rfl
    · show execReti gd s = _
      rw [execReti, runSlot_executes h, past_cur, hm, if_neg (by decide), raise_past]
  · have cause : (BitVec.ofNat 11 (Cause.brk % 256 + i.pos % 8 * 256)).toNat = 0x1A + i.pos % 8 * 256 := by
      rw [BitVec.toNat_ofNat, Cause.brk]; omega
    refine ⟨_, execBrk_executes h k, rfl, ?_⟩
    rw [trapBefore_user (s := s.past i []) hm hl]
    exact ⟨cause, hp, rfl, hm, rfl, rfl, rfl, rfl, rfl⟩

/-! ### Transfers between the files (R100, R101) -/

/-- The index of the lowest set bit, 64 where there is none. -/
theorem firstSet_eq (m : Dword) : ∃ n, n ≤ 64 ∧ (∀ j, j < n → bit m j = false) ∧ (n < 64 → bit m n = true) ∧
    firstSet m = BitVec.ofNat 64 n := by
  unfold firstSet
  cases e : (List.range 64).find? fun i => bit m i with
  | none =>
    refine ⟨64, Nat.le_refl _, fun j hj => ?_, fun h => absurd h (Nat.lt_irrefl _), rfl⟩
    simpa using List.find?_eq_none.1 e j (List.mem_range.2 hj)
  | some n =>
    obtain ⟨hn, hm, hl⟩ := List.find?_range_eq_some.1 e
    exact ⟨n, Nat.le_of_lt (List.mem_range.1 hm), fun j hj => by simpa using hl j hj, fun _ => hn, rfl⟩

/-- Settles O9: each transfer gives one result at issue + 3. -/
theorem transfersBetweenFiles : Obligations.TransfersBetweenFiles := by
  unfold Obligations.TransfersBetweenFiles
  intro s i st gd m d a k o lo sel mask
  have hmask : (s.ctx i.tile i.cx).regs.getMask m.toNat = mask := by
    have zero : m.toNat = 0 ↔ m = 0 := ⟨fun h => BitVec.eq_of_toNat_eq h, fun h => h ▸ rfl⟩
    simp only [Regs.getMask, zero]
    rfl
  refine ⟨fun h => ⟨?_, ?_⟩, fun h => ?_, fun h => ?_, fun h => ⟨?_, ?_⟩⟩
  · exact runSlot_pushV h d 3 fun _ o _ => (ofLanes fun _ => fld o.s0 0 32, 0)
  · exact runSlot_push h 3 fun _ o _ => .mask m.toNat o.s0
  · have run := runSlot_pushV h d 3 fun h o _ =>
      (ofLanes fun n => if n = (h.immU 6 k.toNat).toNat then fld o.s0 0 32 else lane o.v0 n, 0)
    rw [slotOf_immU h.first] at run
    exact run
  · have run := runSlot_pushS h d 3 fun h o _ => (lane o.v0 (h.immU 6 k.toNat).toNat).setWidth 64
    rw [slotOf_immU h.first] at run
    exact run
  · rw [← hmask]
    exact runSlot_pushS h d 3 fun _ _ s => s.cur.regs.getMask m.toNat
  · obtain ⟨n, hn, below, here, e⟩ := firstSet_eq mask
    refine ⟨n, hn, below, here, ?_⟩
    rw [← e, ← hmask]
    exact runSlot_pushS h d 3 fun _ _ s => firstSet (s.cur.regs.getMask m.toNat)

end Sys2Proof.Machine
end

