-- ==== Sys2Proof/Proofs/SystemRegisters.lean ====
section
/-! PROOFS. SRD and SWR (R93, R94): where an access to a system register is refused (R12, R13, R22, R185), what it gives else, and the
word of a sequence entry for which the statement about reads fails (R339). -/

namespace Sys2Proof.Machine

/-! ### Refused accesses (R12, R13, R22, R185) -/

theorem readOnly_iff (n : Nat) : readOnly n = true ↔
    n ∈ [0x000, 0x001, 0x003, 0x004, 0x005, 0x007, 0x008, 0x033, 0x040, 0x050, 0x051, 0x202, 0x212] :=
  List.contains_iff_mem

theorem supRead_iff (n : Nat) : supRead n = true ↔ n ∈ [0x002, 0x010, 0x011, 0x012, 0x013, 0x014, 0x015, 0x016, 0x017, 0x200,
    0x201, 0x202, 0x210, 0x211, 0x212] := by
  simp only [supRead, Bool.or_eq_true, Bool.and_eq_true, beq_iff_eq, decide_eq_true_eq, List.mem_cons, List.not_mem_nil, or_false]
  omega

theorem seqRegister_iff (n : Nat) : seqRegister n = true ↔ n ∈ [0x030, 0x031] ∨ 0x100 ≤ n ∧ n < 0x140 := by
  simp [seqRegister, or_assoc]

section
variable {c : Ctx} {om : BitVec 2} {n : Nat} {write : Bool}

theorem sysFault_none (hf : write = true → readOnly n = false) (hs : supRead n = true → c.frame.mode = true)
    (hq : seqRegister n = true → om = 0) : c.sysFault om n write = none := by
  have priv : (write && readOnly n || supRead n && !c.frame.mode) = false := by
    cases write <;> cases h : supRead n <;> simp_all
  have busy : (seqRegister n && om != 0) = false := by
    cases h : seqRegister n <;> simp_all
  simp only [Ctx.sysFault, priv, busy, Bool.false_eq_true, if_false]

theorem sysFault_priv (h : write = true ∧ readOnly n = true ∨ supRead n = true ∧ c.frame.mode = false) :
    c.sysFault om n write = some (Cause.priv, BitVec.ofNat 64 (n % 4096)) := by
  have priv : (write && readOnly n || supRead n && !c.frame.mode) = true := by
    rcases h with ⟨h1, h2⟩ | ⟨h1, h2⟩ <;> simp [h1, h2]
  simp [Ctx.sysFault, priv]

/-- The registers of the sequence engine are neither read-only nor the supervisor's. -/
theorem sysFault_busy (hq : seqRegister n = true) (ho : om ≠ 0) :
    c.sysFault om n write = some (Cause.ebusy, BitVec.ofNat 64 (n % 4096 + b2n write * 4096)) := by
  have hn := (seqRegister_iff n).1 hq
  simp only [List.mem_cons, List.not_mem_nil, or_false] at hn
  have hf : readOnly n = false := Bool.eq_false_iff.2 fun e => by
    have := (readOnly_iff n).1 e
    simp only [List.mem_cons, List.not_mem_nil, or_false] at this
    omega
  have hs : supRead n = false := Bool.eq_false_iff.2 fun e => by
    have := (supRead_iff n).1 e
    simp only [List.mem_cons, List.not_mem_nil, or_false] at this
    omega
  have priv : (write && readOnly n || supRead n && !c.frame.mode) = false := by simp [hf, hs]
  have busy : (seqRegister n && om != 0) = true := by rw [hq, bne_iff_ne.2 ho]; rfl
  simp only [Ctx.sysFault, priv, busy, Bool.false_eq_true, if_false, if_true]

end

/-! ### SRD and SWR -/

@[simp] theorem past_omBefore (s : State) (i : Issue) (src : List Rd) : (s.past i src).omBefore = i.om := rfl

section
variable {s : State} {i : Issue} {gd : BitVec 3} {o : Opnds} {n : BitVec 12}

/-- An SRD that is not refused (R93). -/
theorem execSrd_reads (h : s.Executes i gd [] o) (d : BitVec 6)
    (hf : (s.ctx i.tile i.cx).sysFault i.om n.toNat false = none) :
    execSrd gd d n s = .next (s.sends i [] (s.toS i d 2 ((s.past i []).sysRead i.tile i.cx n.toNat))) := by
  rw [execSrd, runSlot_executes h]
  simp only [past_cur, past_omBefore, hf, past_here, pushS_past h.first]

/-- An SWR that is not refused (R94). -/
theorem execSwr_writes {a : BitVec 6} (h : s.Executes i gd [srcS a] o)
    (hf : (s.ctx i.tile i.cx).sysFault i.om n.toNat true = none) :
    execSwr gd a n s = .next (s.sends i [srcS a] [i.gives 1 (.sys n.toNat o.s0)]) := by
  rw [execSwr, runSlot_executes h]
  simp only [past_cur, past_omBefore, hf, push_past h.first]

theorem execSwr_refused {a : BitVec 6} (h : s.Executes i gd [srcS a] o) {cause : Nat} {einfo : Dword}
    (hf : (s.ctx i.tile i.cx).sysFault i.om n.toNat true = some (cause, einfo)) :
    execSwr gd a n s = .next (s.raises i [srcS a] o cause einfo) := by
  rw [execSwr, runSlot_executes h]
  simp only [past_cur, past_omBefore, hf, raise_past]

end

/-- Settles O11: the three answers of an SWR follow the fault of the access. -/
theorem writesOfSystemRegisters : Obligations.WritesOfSystemRegisters := by
  unfold Obligations.WritesOfSystemRegisters
  intro s i st gd a n o h c fixed sup seq
  have hfixed : readOnly n.toNat = true ↔ fixed := readOnly_iff _
  have hsup : supRead n.toNat = true ↔ sup := supRead_iff _
  have hseq : seqRegister n.toNat = true ↔ seq := seqRegister_iff _
  have low : BitVec.ofNat 64 (n.toNat % 4096) = n.setWidth 64 := by
    rw [Nat.mod_eq_of_lt n.isLt, BitVec.ofNat_toNat]
  refine ⟨fun hf hs hq => ?_, fun hp => ?_, fun hq ho => ?_⟩
  · exact execSwr_writes h (sysFault_none (fun _ => Bool.eq_false_iff.2 fun e => hf (hfixed.1 e)) (fun e => hs (hsup.1 e))
      fun e => hq (hseq.1 e))
  · refine execSwr_refused h ?_
    rw [← low]
    exact sysFault_priv (hp.imp (fun e => ⟨rfl, hfixed.2 e⟩) fun e => ⟨hsup.2 e.1, e.2⟩)
  · refine execSwr_refused h ?_
    rw [sysFault_busy (hseq.2 hq) ho, ← low, BitVec.ofNat_add]
    rfl

/-! ### A sequence entry whose opcode no submission makes (R339, R340) -/

/-- A result in a scalar queue tells the value that was sent. -/
theorem toS_value_inj {s : State} {i : Issue} {src : List Rd} {d : BitVec 6} {l : Nat} {v w : Dword} (hd : d.toNat % 32 ≠ 31)
    (h : (.next (s.sends i src (s.toS i d l v)) : Host.Outcome State Fault Refusal) = .next (s.sends i src (s.toS i d l w))) :
    v = w := by
  have issued := Option.some.inj (congrArg State.issue (Host.Outcome.next.inj h))
  have sent : s.toS i d l v = s.toS i d l w := List.append_cancel_left (congrArg Issue.out issued)
  simpa [State.toS, hd, Issue.gives] using sent

/-- Word 6 of a sequence entry of five image words (R339). -/
theorem seqWords_step {o : SeqOp} (h : o.image.length = 5) (mestep : Nat) : (o.words mestep).getD 6 0 =
    BitVec.ofNat 64 (if o.grant.isSome then o.step else if o.op % 2 = 1 ∧ o.op < 0x18 then o.start.getD mestep else 0) := by
  simp [SeqOp.words, h]

/-- The engine-queue data register where EQSEL selects word 6 of entry 0 of the sequence queue (R339). -/
theorem sysRead_step {s : State} {t : Nat} {o : SeqOp} (cx : Cx) (hs : (s.tile t).eqsel = 0xC000)
    (hq : (s.tile t).seqRun = some o) (hi : o.image.length = 5) : s.sysRead t cx 0x201 = BitVec.ofNat 64 (if o.grant.isSome then o.step
      else if o.op % 2 = 1 ∧ o.op < 0x18 then o.start.getD (s.ctx t o.cx).regs.mestep.toNat else 0) := by
  rw [← seqWords_step hi]
  show ((s.eqEntries t).getD (fld (s.tile t).eqsel 8 5).toNat []).getD (fld (s.tile t).eqsel 13 3).toNat 0 = _
  have head : (s.eqEntries t).getD 0 [] = o.words (s.ctx t o.cx).regs.mestep.toNat := by
    simp [State.eqEntries, Tile.seqQueue, hs, hq]
  rw [hs, ← head]
  rfl

/-- Refutes O10: word 6 of an entry in the run slot that has not been granted. The model gives the step that the entry has brought
for every odd opcode below 0x18, the statement for 0x11, 0x13, 0x15 and 0x17 alone, and it asks nothing of the opcode: with
opcode 1 and step 5 the read gives 5, where the statement asks for 0. Submission makes no such entry (R340 takes 0x10 to 0x19): the
clause lacks the premise that the opcodes of the queue are 0x10 or above. -/
theorem not_readsOfSystemRegisters : ¬ Obligations.ReadsOfSystemRegisters := by
  unfold Obligations.ReadsOfSystemRegisters
  intro claim
  let e : SeqOp := { id := 1, cx := .p, op := 1, image := [0, 0, 0, 0, 0], report := false, step := 0, start := some 5
                     segs := [], slot := 0 }
  let i : Issue := { tile := 0, cx := .p, addr := 0, words := [0] }
  let x : Tile := { p := { frame := { mode := true } }, eqsel := 0xC000, seqRun := some e }
  let s : State := { State.reset with tiles := [(0, x)], issue := some i }
  have h : s.Executes i 0 [] {} := ⟨rfl, rfl, rfl, rfl, rfl⟩
  have entries : ∀ y ∈ x.seqRun.toList ++ x.seqWait.toList, y.image.length = 5 := by
    intro y hy
    obtain rfl : y = e := by simpa [x] using hy
    rfl
  have given := execSrd_reads (n := 0x201) h 1 (sysFault_none (by decide) (fun _ => rfl) (by decide))
  have step : (s.past i []).sysRead i.tile i.cx (0x201 : BitVec 12).toNat = 5 :=
    (sysRead_step (o := e) i.cx rfl rfl rfl).trans rfl
  rw [step] at given
  obtain ⟨-, -, -, supervisor, -⟩ := claim s i 0 0 1 {} h
  obtain ⟨-, sequence, -⟩ := supervisor rfl
  have queue0 : (fld (s.tile i.tile).eqsel 0 2).toNat = 0 := by show (fld 0xC000#20 0 2).toNat = 0; decide
  have word6 : (fld (s.tile i.tile).eqsel 13 3).toNat = 6 := by show (fld 0xC000#20 13 3).toNat = 6; decide
  have entry0 : (fld (s.tile i.tile).eqsel 8 5).toNat = 0 := by show (fld 0xC000#20 8 5).toNat = 0; decide
  obtain ⟨-, asked⟩ := sequence queue0
  have wanted := asked entries
  simp only [word6, entry0] at wanted
  have value : (5 : Dword) = 0 := toS_value_inj (d := 1) (by decide) (given.symm.trans wanted)
  exact absurd value (by decide)

end Sys2Proof.Machine
end

