-- ==== Sys2Proof/Proofs/FlagsAndWaits.lean ====
section
/-! PROOFS. The flag and wait instructions (R102 to R106): what POSTF, FINIT and FRD do to a flag, and what the test of a wait
leaves of the context that waits. -/

namespace Sys2Proof.Machine

/-! ### POSTF and FINIT (R103, R258, R297) -/

@[simp] theorem past_flagOutside (s : State) (i : Issue) (src : List Rd) (t : Nat) (cx : Cx) (n : Nat) :
    (s.past i src).flagOutside t cx n = s.flagOutside t cx n := rfl

/-- The state once a slot has put a value into flag `n` of its tile: the release is kept with the bundle. -/
def State.puts (s : State) (i : Issue) (n : Nat) (x : Flag) : State :=
  ((s.past i []).modTile i.tile fun y => y.putFlag n x).modIssue fun z => { z with posted := n :: z.posted }

/-- A change of a flag inside the window of the context's lane releases what the context knows (R259, R297). -/
theorem flagSlot_inside {s : State} {i : Issue} {n : Nat} (hw : s.flagOutside i.tile i.cx n = false) (h : SlotRec)
    (f : Flag → Flag) : (s.past i []).flagSlot h n f = s.puts i n { f ((s.tile i.tile).flag n) with
      clock := clockJoin (f ((s.tile i.tile).flag n)).clock ((s.ctx i.tile i.cx).releases i.tile i.cx) } := by
  simp only [State.flagSlot, past_here, past_flagOutside, hw]
  rfl

/-- Settles O12: the effect of each slot on the state past it. -/
theorem flagSlots : Obligations.FlagSlots := by
  unfold Obligations.FlagSlots
  intro s i st gd d f k l n c m o h t amount old clock put read waits
  refine ⟨fun hw => ⟨?_, ?_⟩, ?_, ?_, ?_⟩
  · show execPostf gd f k s = _
    rw [execPostf, runSlot_executes h, flagSlot_inside hw, slotOf_immS h.first]
    rfl
  · show execFinit gd f k s = _
    rw [execFinit, runSlot_executes h, flagSlot_inside hw, slotOf_immS h.first]
    rfl
  · have run := runSlot_pushS h d 2 fun h _ s => (s.curTile.flag (h.immU 6 f.toNat).toNat).word
    rw [slotOf_immU h.first] at run
    exact run
  · show execWaitf gd f k s = _
    rw [execWaitf, runSlot_executes h, slotOf_immU h.first]
  · show execWaitc gd l n c m s = _
    rw [execWaitc, runSlot_executes h]

/-! ### The test of a wait (R102, R105) -/

/-- WAITF succeeds where the flag's value is at least `k` as a signed number. -/
theorem ready_iff (f : Flag) {k : Nat} (h : k < 2 ^ 31) : f.ready k = true ↔ (k : Int) ≤ f.value.toInt := by
  have e : (BitVec.ofNat 32 k).toInt = k := by
    rw [BitVec.toInt_eq_toNat_of_lt (by rw [BitVec.toNat_ofNat]; omega), BitVec.toNat_ofNat]
    omega
  rw [Flag.ready, BitVec.sle_iff_toInt_le, e]

theorem counted_iff (c : Ctx) (l s o m : Nat) :
    c.counted l s o m = true ↔ c.ol.toNat ≤ l ∧ c.os.toNat ≤ s ∧ c.oc.toNat ≤ o ∧ c.om.toNat ≤ m := by
  simp [Ctx.counted, and_assoc]

section
variable {s : State} {t : Nat} {cx : Cx} {w : WaitFor} {h : SlotRec}

/-- A test that fails: a frozen cycle. -/
theorem waitRetest_fails {k : Clock} (hw : (s.ctx t cx).wait = some (w, h))
    (ht : s.testWait t cx w = (s, false, k)) :
    exec (.waitRetest t cx) s = .next ((s.dropWork t cx).modCtx t cx (·.frozenCycle)) := by
  show execWaitRetest t cx s = _
  simp only [execWaitRetest, hw, ht]
  rfl

/-- A test that succeeds ends the wait. -/
theorem waitRetest_succeeds {u : State} {k : Clock} (hw : (s.ctx t cx).wait = some (w, h))
    (ht : s.testWait t cx w = (u, true, k)) :
    exec (.waitRetest t cx) s =
      .next ((u.modCtx t cx fun c => { c with wait := none, clock := clockJoin c.clock k }).letIn t cx) := by
  show execWaitRetest t cx s = _
  simp only [execWaitRetest, hw, ht, if_true]

end

@[simp] theorem ctx_classes (t : Tile) (c : List Nat) (w : Nat) (cx : Cx) :
    ({ t with classes := c, weight := w } : Tile).ctx cx = t.ctx cx := by cases cx <;> rfl

/-- The next bundle of a context is let in, or a frozen cycle is counted: beside the registers of the context, and the classes
and the weight of the core cycle, the tile is as it was. -/
theorem letIn_tile (s : State) (t : Nat) (cx : Cx) : ∃ r c w, (s.letIn t cx).tile t =
    { (s.tile t).modCtx cx fun x => { x with regs := r } with classes := c, weight := w } := by
  let x := s.tile t
  have same : x.modCtx cx (fun y => { y with regs := (x.ctx cx).regs }) = x := modCtx_same rfl
  have stays : ∃ r c w, x = { x.modCtx cx fun y => { y with regs := r } with classes := c, weight := w } :=
    ⟨(x.ctx cx).regs, x.classes, x.weight, by rw [same]⟩
  have frozen : ∃ r c w, (s.modCtx t cx (·.frozenCycle)).tile t =
      { x.modCtx cx fun y => { y with regs := r } with classes := c, weight := w } := by
    rw [modCtx_tile]
    exact ⟨_, (x.modCtx cx (·.frozenCycle)).classes, (x.modCtx cx (·.frozenCycle)).weight, rfl⟩
  unfold State.letIn
  dsimp only
  split
  · exact stays -- its work stands in the plan of the core cycle
  split
  · exact frozen -- a datum is late, or an access stops it
  split
  · exact stays -- a class is taken
  split
  · exact frozen -- the limiter holds it back
  · rw [tile_modTile]
    exact ⟨(x.ctx cx).regs, _, _, by rw [same]; rfl⟩

/-- A wait that ends leaves the position of the context and the flags as its test has left them. -/
theorem waitRetest_ends {s u : State} {t : Nat} {cx : Cx} {w : WaitFor} {h : SlotRec} {k : Clock}
    (hw : (s.ctx t cx).wait = some (w, h)) (ht : s.testWait t cx w = (u, true, k)) :
    ∃ v, exec (.waitRetest t cx) s = .next v ∧ (v.ctx t cx).wait = none ∧ (v.ctx t cx).pos = (u.ctx t cx).pos ∧
      ∀ n, (v.tile t).flag n = (u.tile t).flag n := by
  obtain ⟨r, c, wt, hl⟩ := letIn_tile (u.modCtx t cx fun c => { c with wait := none, clock := clockJoin c.clock k }) t cx
  rw [modCtx_tile, modCtx_modCtx] at hl
  have hc : (State.letIn _ t cx).ctx t cx = _ :=
    (congrArg (Tile.ctx · cx) hl).trans ((ctx_classes _ c wt cx).trans (Tile.ctx_modCtx _ _ _))
  refine ⟨_, waitRetest_succeeds hw ht, ?_, ?_, fun n => ?_⟩
  · rw [hc]
  · rw [hc]; rfl
  · rw [hl]
    exact modCtx_flag _ _ _ n

/-- Settles O13: the test of each kind of wait, and the two answers. -/
theorem waitsAreTestedAgain : Obligations.WaitsAreTestedAgain := by
  unfold Obligations.WaitsAreTestedAgain
  intro s t cx h c frozen
  refine ⟨fun hd => ?_, fun f k hw hf hk => ⟨fun hx => ?_, fun hx => ?_⟩, fun l n e m hw => ⟨fun hc => ?_, fun hc => ?_⟩⟩
  · exact dropWork_modTile hd (·.modCtx cx (·.frozenCycle))
  · obtain ⟨v, hv, hwait, hpos, hflag⟩ := waitRetest_ends hw (testWait_ready ((ready_iff _ hk).2 hx))
    refine ⟨v, hv, hwait, ?_, ?_⟩
    · rw [hpos, State.ctx, tile_modTile, ctx_putFlag]
      rfl
    · rw [hflag, tile_modTile, flag_putFlag hf]
      rfl
  · have unmet : ((s.tile t).flag f).ready k = false := Bool.eq_false_iff.2 fun e => by
      have := (ready_iff _ hk).1 e
      omega
    exact waitRetest_fails hw (testWait_notReady unmet)
  · have met : s.testWait t cx (.counters l n e m) = (s, true, []) :=
      congrArg (fun b => (s, b, [])) ((counted_iff c l n e m).2 hc)
    obtain ⟨v, hv, hwait, hpos, -⟩ := waitRetest_ends hw met
    exact ⟨v, hv, hwait, hpos⟩
  · have unmet : s.testWait t cx (.counters l n e m) = (s, false, []) :=
      congrArg (fun b => (s, b, [])) (Bool.eq_false_iff.2 fun hb => hc ((counted_iff c l n e m).1 hb))
    exact waitRetest_fails hw unmet

end Sys2Proof.Machine
end

