-- ==== Sys2Proof/Proofs/Returns.lean ====
section
/-! PROOFS. The return from a trap (R88, R333): the fields of a descriptor word, the result that an entry of the replay buffer gives
back, the positions that a frame stands for, and a context that enters the monitor and returns. -/

namespace Sys2Proof.Machine

/-! ### Descriptor words (R331) -/

/-- A field of a word given as a number. -/
theorem fld_ofNat (n : Nat) {lo k : Nat} (h : lo + k ≤ 64) : (fld (BitVec.ofNat 64 n) lo k).toNat = n / 2 ^ lo % 2 ^ k := by
  have split : (2 : Nat) ^ 64 = 2 ^ lo * 2 ^ (64 - lo) := by rw [← Nat.pow_add]; congr 1; omega
  rw [BitVec.extractLsb'_toNat, BitVec.toNat_ofNat, Nat.shiftRight_eq_div_pow, split, Nat.mod_mul_right_div_self,
    Nat.mod_mod_of_dvd _ (Nat.pow_dvd_pow 2 (by omega))]

section
variable (kind rem dkind dnum slot nw : Nat)

theorem descWord_kind (hk : kind < 16) : (fld (descWord kind rem dkind dnum slot nw) 0 4).toNat = kind := by
  rw [descWord, fld_ofNat _ (by decide)]
  omega

theorem descWord_rem (hk : kind < 16) : (fld (descWord kind rem dkind dnum slot nw) 4 8).toNat = rem % 256 := by
  rw [descWord, fld_ofNat _ (by decide)]
  omega

theorem descWord_slot (hk : kind < 16) (hd : dkind < 16) :
    (fld (descWord kind rem dkind dnum slot nw) 28 3).toNat = slot % 8 := by
  rw [descWord, fld_ofNat _ (by decide)]
  omega

end

theorem entry_kind (p : Payload) : p.entry.1 < 16 := by
  cases p <;> simp [Payload.entry]

/-! ### Results that are given back (R333) -/

/-- The result that an entry of kind 2 gives back. -/
def REnt.result (e : REnt) : Res :=
  { rem := (fld e.desc 4 8).toNat, slot := (fld e.desc 28 3).toNat, pc := e.pc, fp := e.fp, ol := e.ol, await := e.await
    frame := e.frame, seq := e.seq, pay := e.payload }

theorem toEntry_kind (r : Res) : fld r.toEntry.desc 0 4 = 2 :=
  BitVec.eq_of_toNat_eq (descWord_kind _ _ _ _ _ _ (by decide))

/-- A result whose count and slot fit the descriptor is given back as it was. -/
theorem result_toEntry {r : Res} (hr : r.rem < 256) (hs : r.slot < 8) : r.toEntry.result = r := by
  have rem : (fld r.toEntry.desc 4 8).toNat = r.rem := (descWord_rem _ _ _ _ _ _ (by decide)).trans (Nat.mod_eq_of_lt hr)
  have slot : (fld r.toEntry.desc 28 3).toNat = r.slot :=
    (descWord_slot _ _ _ _ _ _ (by decide) (entry_kind r.pay)).trans (Nat.mod_eq_of_lt hs)
  unfold REnt.result
  rw [rem, slot]
  rfl

theorem results_toEntries {l : List Res} (h : ∀ r ∈ l, r.rem < 256 ∧ r.slot < 8) :
    (l.map Res.toEntry).map REnt.result = l := by
  have back : l.map (REnt.result ∘ Res.toEntry) = l.map id :=
    List.map_congr_left fun r hr => result_toEntry (h r hr).1 (h r hr).2
  rw [List.map_map, back, List.map_id]

/-! ### Positions (R87, R88) -/

/-- The position that a frame stands for is the one that it was made from, where the two delay bundles hold its targets and its
annulment. -/
theorem resume_frame (p : Pos) (f : Frame) (h3 : p.t3 = none) (h2 : p.annul ≤ 2) (h1 : p.t1.isSome = true → p.annul ≤ 1)
    (h0 : p.t1 = none → p.t2.isSome = true → p.annul ≠ 1) :
    let q := (p.frame f).resume
    q.t1.map (·.addr) = p.t1.map (·.addr) ∧ q.t2.map (·.addr) = p.t2.map (·.addr) ∧ q.t3 = none ∧ q.annul = p.annul := by
  obtain ⟨pc, t1, t2, t3, annul, entry⟩ := p
  obtain rfl : t3 = none := h3
  have small : annul = 0 ∨ annul = 1 ∨ annul = 2 := by simp only at h2; omega
  cases t1 with
  | none =>
    cases t2 with
    | none =>
      -- DLEFT counts the annulled bundles alone
      rcases small with rfl | rfl | rfl <;> exact ⟨rfl, rfl, rfl, rfl⟩
    | some b =>
      -- two bundles before the one target: both annulled, or none
      have both : annul = 0 ∨ annul = 2 := by have := h0 rfl rfl; simp only at this; omega
      rcases both with rfl | rfl <;> exact ⟨rfl, rfl, rfl, rfl⟩
  | some a =>
    -- one bundle before the first target: annulled or not
    have one : annul = 0 ∨ annul = 1 := by have := h1 rfl; simp only at this; omega
    cases t2 with
    | none => rcases one with rfl | rfl <;> exact ⟨rfl, rfl, rfl, rfl⟩
    | some b => rcases one with rfl | rfl <;> exact ⟨rfl, rfl, rfl, rfl⟩

/-- The frame begins at EPC, as an entry (R49). -/
theorem resume_start (f : Frame) : f.resume.pc = f.epc ∧ f.resume.entry = true := by
  unfold Frame.resume
  dsimp only
  split
  · exact ⟨rfl, rfl⟩
  · split <;> exact ⟨rfl, rfl⟩

/-! ### Entry and return -/

section
variable (c : Ctx) (cx : Cx) (evec : Dword) (cause slot : Nat) (einfo epc : Dword) (flight : List Res)

/-- Where nothing waits, is delayed or is to be made again, the capture holds the results in flight after the entry of the
position (R331). -/
theorem enter_replay (hm : c.remake = []) (hw : c.wait = none) (hd : c.delayed = []) (hf : ∀ r ∈ flight, r.pay.isCheck = false) :
    (c.enter cx evec cause slot einfo epc [] flight).replay =
      { desc := descWord 1 0 0 0 0 1, data := [c.pos.pc] } :: (sortRes flight).map Res.toEntry := by
  have all : flight.filter (fun r => !r.pay.isCheck) = flight := List.filter_eq_self.2 fun r hr => by simp [hf r hr]
  simp [Ctx.enter, Ctx.captured, hm, hw, hd, all]

end

/-- A buffer of results alone, behind the entry of the position, gives them back and nothing else (R333). -/
theorem reinject_results {c : Ctx} {e : REnt} {l : List Res} (he : fld e.desc 0 4 = 1) (hr : c.replay = e :: l.map Res.toEntry)
    (frozen : Bool) : c.reinject frozen = { c with
      inflight := (l.map Res.toEntry).map REnt.result ++ c.checks ++ c.inflight
      wait := none
      remake := []
      replay := []
      checks := []
      faults := if c.frame.pmode then c.faults else c.kept ++ c.faults
      kept := if c.frame.pmode then c.kept else [] } := by
  have kinds : ∀ x ∈ l.map Res.toEntry, fld x.desc 0 4 = 2 := by
    intro x hx
    obtain ⟨r, -, rfl⟩ := List.mem_map.1 hx
    exact toEntry_kind r
  have held : (e :: l.map Res.toEntry).filter (fun x => fld x.desc 0 4 != 0) = e :: l.map Res.toEntry :=
    List.filter_eq_self.2 (List.forall_mem_cons.2 ⟨by simp [he], fun x hx => by simp [kinds x hx]⟩)
  have results : (e :: l.map Res.toEntry).filter (fun x => fld x.desc 0 4 == 2) = l.map Res.toEntry := by
    rw [List.filter_cons_of_neg (by simp [he])]
    exact List.filter_eq_self.2 fun x hx => by simp [kinds x hx]
  have operations : (e :: l.map Res.toEntry).filter (fun x => fld x.desc 0 4 == 4) = [] :=
    List.filter_eq_nil_iff.2 (List.forall_mem_cons.2 ⟨by simp [he], fun x hx => by simp [kinds x hx]⟩)
  simp only [Ctx.reinject, hr, held, results, operations, List.filter_nil, List.filterMap_nil, List.foldl_nil, List.map_nil,
    List.append_nil, List.head?_nil, Option.map_none, ite_self]
  rfl

/-- Settles O51: the frame brings the position back, and the capture the results. -/
theorem returnsResumeTheContext : Obligations.ReturnsResumeTheContext := by
  unfold Obligations.ReturnsResumeTheContext
  intro c cx evec cause slot einfo flight p d
  let b := c.enter cx evec cause slot einfo p.pc [] flight
  obtain ⟨hpc, hentry⟩ := resume_start b.frame
  refine ⟨rfl, rfl, rfl, rfl, rfl, hpc, hentry, fun h3 h2 h1 h0 => ?_, fun hm hw hd hc hf => ?_⟩
  · have made : p.frame b.frame = b.frame := rfl
    have back := resume_frame p b.frame h3 h2 h1 h0
    rw [made] at back
    exact back
  · have hb : b.replay = _ := enter_replay c cx evec cause slot einfo p.pc flight hm hw hd fun r hr => (hf r hr).1
    have back := reinject_results (show fld (descWord 1 0 0 0 0 1) 0 4 = 1 by decide) hb b.frame.frozen
    have checks : b.checks = [] := by
      show c.checks ++ flight.filter (·.pay.isCheck) = []
      rw [hc, List.nil_append]
      exact List.filter_eq_nil_iff.2 fun r hr => by simp [(hf r hr).1]
    have delayed : b.delayed = [] := by
      show c.delayed.filter _ = []
      rw [hd, List.filter_nil]
    have given := results_toEntries fun r (hr : r ∈ sortRes flight) => (hf r ((mem_sortRes _).1 hr)).2
    have inflight : d.inflight = sortRes flight := by
      refine (congrArg Ctx.inflight back).trans ?_
      rw [given, checks, List.append_nil]
      exact List.append_nil _
    refine ⟨fun r => ?_, congrArg Ctx.wait back, (congrArg Ctx.delayed back).trans delayed, congrArg Ctx.remake back⟩
    rw [inflight, mem_sortRes]

end Sys2Proof.Machine
end

