-- ==== Sys2Proof/Proofs/Rounding.lean ====
section
/-! PROOFS. The rounding of R111: the word that `roundFin` answers, its value, and why no other word of the format is nearer. The
grid of a rounding is the set of multiples of one power of two. The rounding takes the nearest point of it, and a finite word
between its points lies below the power of two at which the binade of the value begins. -/

namespace Sys2Proof.Machine

/-! ### The nearest point of a grid, ties to even -/

/-- `n * c` is a multiple of `c` nearest to `x`, and `n` is even where `x` lies midway between two of them. -/
def NearestEven (x c : ℚ) (n : ℕ) : Prop := |x - n * c| ≤ c / 2 ∧ (|x - n * c| = c / 2 → n % 2 = 0)

theorem NearestEven.scale {x c d : ℚ} {n : ℕ} (h : NearestEven x c n) (hd : 0 < d) : NearestEven (x * d) (c * d) n := by
  have dist : |x * d - n * (c * d)| = |x - n * c| * d := by
    rw [← mul_assoc, ← sub_mul, abs_mul, abs_of_pos hd]
  refine ⟨?_, fun tie => h.2 ?_⟩
  · rw [dist, mul_div_right_comm]
    exact mul_le_mul_of_nonneg_right h.1 hd.le
  · rw [dist, mul_div_right_comm] at tie
    exact mul_right_cancel₀ hd.ne' tie

theorem nearestEven_of_eq {x c : ℚ} {n : ℕ} (h : n * c = x) (hc : 0 < c) : NearestEven x c n := by
  rw [NearestEven, h, sub_self, abs_zero]
  exact ⟨by positivity, fun tie => by linarith⟩

/-- Two points of the grid are at least `c` apart, so one within `c / 2` of `x` is nearest. -/
theorem NearestEven.multiple {x c : ℚ} {n : ℕ} (h : NearestEven x c n) (hc : 0 < c) (z : ℤ) :
    |x - n * c| ≤ |x - z * c| ∧ (|x - n * c| = |x - z * c| → z * c ≠ n * c → n % 2 = 0) := by
  obtain ⟨near, even⟩ := h
  by_cases hz : z = n
  · subst hz
    exact ⟨le_rfl, fun _ other => absurd rfl other⟩
  · have apart : c ≤ |z * c - n * c| := by
      have one : (1 : ℚ) ≤ |(z : ℚ) - n| := by exact_mod_cast Int.one_le_abs (sub_ne_zero.2 hz)
      rw [← sub_mul, abs_mul, abs_of_pos hc]
      exact le_mul_of_one_le_left hc.le one
    have triangle : |z * c - n * c| ≤ |x - z * c| + |x - n * c| := by
      rw [abs_sub_comm x (z * c)]
      exact abs_sub_le _ _ _
    exact ⟨by linarith, fun tie _ => even (by linarith)⟩

/-- The two cases of the integer rounding: down to the quotient by `2^k`, or up to the next integer. -/
theorem shiftRne_cases (m k : ℕ) :
    (shiftRne m k).1 = m / 2 ^ k ∧ 2 * (m % 2 ^ k) ≤ 2 ^ k ∧ (2 * (m % 2 ^ k) = 2 ^ k → (shiftRne m k).1 % 2 = 0) ∨
    (shiftRne m k).1 = m / 2 ^ k + 1 ∧ 2 ^ k ≤ 2 * (m % 2 ^ k) ∧ (2 * (m % 2 ^ k) = 2 ^ k → (shiftRne m k).1 % 2 = 0) := by
  simp only [shiftRne, Bool.or_eq_true, Bool.and_eq_true, decide_eq_true_eq, beq_iff_eq]
  split <;> omega

theorem cast_div_mod (m k : ℕ) : ((m / 2 ^ k : ℕ) : ℚ) * 2 ^ k + (m % 2 ^ k : ℕ) = m := by
  exact_mod_cast Nat.div_add_mod' m (2 ^ k)

theorem shiftRne_nearest (m k : ℕ) : NearestEven m (2 ^ k) (shiftRne m k).1 := by
  have parts := cast_div_mod m k
  obtain ⟨hn, side, even⟩ | ⟨hn, side, even⟩ := shiftRne_cases m k <;>
    have side : _ ≤ (_ : ℚ) := Nat.cast_le.2 side <;> push_cast at side
  · have dist : |(m : ℚ) - (shiftRne m k).1 * 2 ^ k| = (m % 2 ^ k : ℕ) := by
      rw [hn, ← parts, add_sub_cancel_left, Nat.abs_cast]
    rw [NearestEven, dist]
    refine ⟨by linarith, fun tie => even ?_⟩
    have : 2 * ((m % 2 ^ k : ℕ) : ℚ) = 2 ^ k := by linarith
    exact_mod_cast this
  · have below : ((m % 2 ^ k : ℕ) : ℚ) ≤ 2 ^ k := by exact_mod_cast (Nat.mod_lt m (Nat.two_pow_pos k)).le
    have dist : |(m : ℚ) - (shiftRne m k).1 * 2 ^ k| = 2 ^ k - (m % 2 ^ k : ℕ) := by
      rw [hn, abs_sub_comm, ← abs_of_nonneg (sub_nonneg.2 below)]
      congr 1
      push_cast at parts ⊢
      linarith
    rw [NearestEven, dist]
    refine ⟨by linarith, fun tie => even ?_⟩
    have : 2 * ((m % 2 ^ k : ℕ) : ℚ) = 2 ^ k := by linarith
    exact_mod_cast this

/-- The integer rounding reports exactly whether it keeps the value. -/
theorem shiftRne_exact (m k : ℕ) : (shiftRne m k).2 = true ↔ (shiftRne m k).1 * 2 ^ k = m := by
  have parts := Nat.div_add_mod' m (2 ^ k)
  have below := Nat.mod_lt m (Nat.two_pow_pos k)
  have flag : (shiftRne m k).2 = true ↔ m % 2 ^ k = 0 := beq_iff_eq
  rw [flag]
  obtain ⟨hn, side, -⟩ | ⟨hn, side, -⟩ := shiftRne_cases m k <;> rw [hn]
  · omega
  · rw [add_one_mul]
    omega

/-- A value below `a` grid points rounds to at most `a` of them, and one not below `a` to at least `a`. -/
theorem NearestEven.le_of_lt {x c : ℚ} {n : ℕ} (h : NearestEven x c n) (hc : 0 < c) {a : ℕ} (hx : x < a * c) : n ≤ a := by
  by_contra! more
  have up : ((a : ℚ) + 1) * c ≤ n * c := mul_le_mul_of_nonneg_right (by exact_mod_cast more) hc.le
  have near := (abs_le.1 h.1).1
  linarith

theorem NearestEven.ge_of_le {x c : ℚ} {n : ℕ} (h : NearestEven x c n) (hc : 0 < c) {a : ℕ} (hx : a * c ≤ x) : a ≤ n := by
  by_contra! less
  have up : ((n : ℚ) + 1) * c ≤ a * c := mul_le_mul_of_nonneg_right (by exact_mod_cast less) hc.le
  have near := (abs_le.1 h.1).2
  linarith

/-! ### Values with a sign -/

/-- (-1)^s * m * 2^e, as a rational number. -/
def ratOf (s : Bool) (m : ℕ) (e : ℤ) : ℚ := (if s then -1 else 1) * (m : ℚ) * 2 ^ e

/-- The distance of two values depends on their magnitudes and on whether their signs agree. -/
theorem abs_ratOf_sub (s b : Bool) (m t : ℕ) (e j : ℤ) :
    |ratOf s m e - ratOf b t j| = |(m : ℚ) * 2 ^ e - ratOf (s ^^ b) t j| := by
  cases s
  · simp [ratOf]
  · rw [← abs_neg]
    congr 1
    cases b <;> simp [ratOf] <;> ring

theorem ratOf_same (s : Bool) (n : ℕ) (k : ℤ) : ratOf (s ^^ s) n k = n * 2 ^ k := by simp [ratOf]

theorem ratOf_eq_ratOf {s b : Bool} {m t : ℕ} {e j : ℤ} : ratOf s m e = ratOf b t j ↔ m * 2 ^ e = ratOf (s ^^ b) t j := by
  rw [← sub_eq_zero, ← abs_eq_zero, abs_ratOf_sub, abs_eq_zero, sub_eq_zero]

theorem pow_toNat_mul {j u : ℤ} (h : u ≤ j) : (2 : ℚ) ^ (j - u).toNat * 2 ^ u = 2 ^ j := by
  rw [← zpow_natCast, ← zpow_add₀ two_ne_zero]
  congr 1
  omega

/-- A value of an exponent `u` or more is a multiple of `2^u`. -/
theorem ratOf_multiple (b : Bool) (t : ℕ) {u j : ℤ} (h : u ≤ j) : ∃ z : ℤ, ratOf b t j = z * 2 ^ u := by
  refine ⟨(if b then -1 else 1) * (t * 2 ^ (j - u).toNat), ?_⟩
  rw [ratOf, ← pow_toNat_mul h]
  cases b <;> push_cast <;> ring

theorem ratOf_lt (b : Bool) {t a : ℕ} {j k : ℤ} (ht : t < 2 ^ a) (h : a + j ≤ k) : ratOf b t j < 2 ^ k := by
  have size : (t : ℚ) * 2 ^ j < 2 ^ k := calc
    (t : ℚ) * 2 ^ j < 2 ^ a * 2 ^ j := mul_lt_mul_of_pos_right (by exact_mod_cast ht) (by positivity)
    _ = 2 ^ (a + j) := by rw [zpow_add₀ two_ne_zero, zpow_natCast]
    _ ≤ 2 ^ k := zpow_le_zpow_right₀ one_le_two h
  have sign : ratOf b t j ≤ t * 2 ^ j := by
    have : 0 ≤ (t : ℚ) * 2 ^ j := by positivity
    cases b
    · simp [ratOf]
    · simp only [ratOf, if_true, neg_mul]
      linarith
  linarith

/-- Where the grid `2^u` is as fine as a format of `a + 1` digits has it at `x` (the exponent `u` is the least, or `x` has `a + 1`
digits on the grid), no value of the format is nearer to `x` than the nearest point of the grid. -/
theorem NearestEven.value {x : ℚ} {n a : ℕ} {u l : ℤ} (h : NearestEven x (2 ^ u) n) (hx : u = l ∨ (2 : ℚ) ^ (a + u) ≤ x)
    (b : Bool) {t : ℕ} {j : ℤ} (ht : t < 2 ^ (a + 1)) (hj : l ≤ j) : |x - n * 2 ^ u| ≤ |x - ratOf b t j| ∧
      (|x - n * 2 ^ u| = |x - ratOf b t j| → ratOf b t j ≠ n * 2 ^ u → n % 2 = 0) := by
  have hc : (0 : ℚ) < 2 ^ u := by positivity
  by_cases on : u ≤ j
  · obtain ⟨z, hz⟩ := ratOf_multiple b t on
    rw [hz]
    exact h.multiple hc z
  · have start : (2 : ℚ) ^ (a + u) ≤ x := hx.resolve_left (by omega)
    have below : ratOf b t j < 2 ^ (a + u) := ratOf_lt b ht (by push_cast; omega)
    have point : ((2 ^ a : ℤ) : ℚ) * 2 ^ u = 2 ^ (a + u) := by rw [zpow_add₀ two_ne_zero, zpow_natCast]; norm_cast
    have near := (h.multiple hc (2 ^ a)).1
    rw [point, abs_of_nonneg (sub_nonneg.2 start)] at near
    have far : x - 2 ^ (a + u) < |x - ratOf b t j| := lt_of_lt_of_le (by linarith) (le_abs_self _)
    exact ⟨by linarith, fun tie => absurd tie (by linarith)⟩

/-! ### Words and their values (R109, R110) -/

/-- The significand of a magnitude: the fraction, with the leading digit where the exponent field is not 0. -/
def Fmt.significand (f : Fmt) (mag : ℕ) : ℕ := if mag / 2 ^ f.fb = 0 then mag % 2 ^ f.fb else mag % 2 ^ f.fb + 2 ^ f.fb

/-- The exponent of a magnitude's last digit. -/
def Fmt.exponent (f : Fmt) (mag : ℕ) : ℤ := if mag / 2 ^ f.fb = 0 then f.emin else f.emin + (mag / 2 ^ f.fb : ℕ) - 1

/-- A finite word has at most `fb + 1` digits, at an exponent not below the least. -/
theorem num_fin_range {f : Fmt} {w t : ℕ} {b : Bool} {j : ℤ} (h : f.num w = .fin b t j) :
    t < 2 ^ (f.fb + 1) ∧ f.emin ≤ j := by
  have frac := Nat.mod_lt w (Nat.two_pow_pos f.fb)
  have double := pow_succ 2 f.fb
  simp only [Fmt.num] at h
  split_ifs at h <;> obtain ⟨-, rfl, rfl⟩ := Num.fin.inj h <;> omega

/-- What the proof needs to know of a format: it has an exponent and a fraction, and E4M3 has its fields. -/
structure Fmt.Standard (f : Fmt) : Prop where
  exponentBits : f.eb ≠ 0
  fractionBits : f.fb ≠ 0
  fields : f.e4 = true → f.eb = 4 ∧ f.fb = 3

theorem formats_standard : ∀ f ∈ [Fmt.f32, .f16, .bf16, .e4m3, .e5m2], f.Standard := by
  intro f hf
  fin_cases hf <;> exact ⟨by decide, by decide, by decide⟩

/-- A magnitude past that of the largest finite word. -/
def Fmt.tooBig (f : Fmt) (mag : ℕ) : Prop := if f.e4 then 0x7E < mag else 2 ^ f.eb - 1 ≤ mag / 2 ^ f.fb

theorem not_tooBig_lt {f : Fmt} (hf : f.Standard) {mag : ℕ} (h : ¬ f.tooBig mag) : mag < 2 ^ (f.eb + f.fb) := by
  unfold Fmt.tooBig at h
  split at h
  · next e4 =>
    obtain ⟨heb, hfb⟩ := hf.fields e4
    rw [heb, hfb]
    omega
  · have := Nat.two_pow_pos f.eb
    rw [pow_add]
    exact (Nat.div_lt_iff_lt_mul (Nat.two_pow_pos _)).1 (by omega)

/-- The fields of a word made of a sign and a magnitude. -/
theorem signed_fields {f : Fmt} (s : Bool) {mag : ℕ} (h : mag < 2 ^ (f.eb + f.fb)) :
    f.signed s mag % 2 ^ f.fb = mag % 2 ^ f.fb ∧ f.signed s mag / 2 ^ f.fb % 2 ^ f.eb = mag / 2 ^ f.fb ∧
    f.sign (f.signed s mag) = s := by
  have field : mag / 2 ^ f.fb % 2 ^ f.eb = mag / 2 ^ f.fb :=
    Nat.mod_eq_of_lt ((Nat.div_lt_iff_lt_mul (Nat.two_pow_pos _)).2 (by rwa [← pow_add]))
  cases s
  · exact ⟨rfl, field, Nat.testBit_lt_two_pow h⟩
  · have top : f.signed true mag = mag + 2 ^ f.fb * 2 ^ f.eb := by
      show mag + 2 ^ (f.eb + f.fb) = _
      rw [pow_add, mul_comm]
    refine ⟨?_, ?_, ?_⟩
    · rw [top, Nat.add_mul_mod_self_left]
    · rw [top, Nat.add_mul_div_left _ _ (Nat.two_pow_pos _), Nat.add_mod_right, field]
    · show (mag + 2 ^ (f.eb + f.fb)).testBit (f.eb + f.fb) = true
      rw [add_comm, Nat.testBit_two_pow_add_eq, Nat.testBit_lt_two_pow h]
      rfl

/-- A magnitude that is not too big is a finite word's. -/
theorem num_signed {f : Fmt} (hf : f.Standard) (s : Bool) {mag : ℕ} (h : ¬ f.tooBig mag) :
    f.num (f.signed s mag) = .fin s (f.significand mag) (f.exponent mag) := by
  obtain ⟨frac, field, sign⟩ := signed_fields (f := f) s (not_tooBig_lt hf h)
  simp only [Fmt.num, frac, field, sign, Fmt.significand, Fmt.exponent]
  unfold Fmt.tooBig at h
  by_cases e4 : f.e4
  · obtain ⟨-, hfb⟩ := hf.fields e4
    have number : ¬ (mag / 2 ^ f.fb = 15 ∧ mag % 2 ^ f.fb = 7) := by
      rw [if_pos e4] at h
      rw [hfb]
      omega
    rw [if_pos e4, if_neg number]
    split <;> rfl
  · rw [if_neg e4] at h ⊢
    rw [if_neg (by omega)]
    split <;> rfl

theorem num_signed_zero {f : Fmt} (hf : f.Standard) (s : Bool) : f.num (f.signed s 0) = .fin s 0 f.emin := by
  have small : ¬ f.tooBig 0 := by
    have one := Nat.one_lt_two_pow hf.exponentBits
    unfold Fmt.tooBig
    rw [Nat.zero_div]
    split <;> omega
  rw [num_signed hf s small, Fmt.significand, Fmt.exponent, Nat.zero_div, if_pos rfl, if_pos rfl, Nat.zero_mod]

/-! ### The grid of a rounding (R111) -/

/-- The exponent of the grid: `fb + 1` digits from the top of the value down, at the least exponent for a tiny one. -/
def Fmt.gridExp (f : Fmt) (m : ℕ) (e : ℤ) : ℤ := Max.max ((Nat.log2 m : ℤ) + e - f.fb) f.emin

/-- The grid point that `roundFin` takes, and whether it is the value itself. -/
def Fmt.digits (f : Fmt) (m : ℕ) (e : ℤ) : ℕ × Bool :=
  if f.gridExp m e ≤ e then (m * 2 ^ (e - f.gridExp m e).toNat, true) else shiftRne m (f.gridExp m e - e).toNat

theorem emin_le_gridExp (f : Fmt) (m : ℕ) (e : ℤ) : f.emin ≤ f.gridExp m e := le_max_right _ _

theorem digits_exact (f : Fmt) (m : ℕ) (e : ℤ) :
    (f.digits m e).2 = true ↔ ((f.digits m e).1 : ℚ) * 2 ^ f.gridExp m e = m * 2 ^ e := by
  unfold Fmt.digits
  split
  · next fine => simp [mul_assoc, pow_toNat_mul fine]
  · next coarse =>
    rw [shiftRne_exact, ← pow_toNat_mul (le_of_not_ge coarse), ← mul_assoc, mul_left_inj' (by positivity)]
    norm_cast

theorem digits_nearest (f : Fmt) (m : ℕ) (e : ℤ) : NearestEven (m * 2 ^ e) (2 ^ f.gridExp m e) (f.digits m e).1 := by
  by_cases fine : f.gridExp m e ≤ e
  · exact nearestEven_of_eq ((digits_exact f m e).1 (by rw [Fmt.digits, if_pos fine])) (by positivity)
  · rw [Fmt.digits, if_neg fine, ← pow_toNat_mul (le_of_not_ge fine)]
    exact (shiftRne_nearest m _).scale (by positivity)

theorem digits_le (f : Fmt) (m : ℕ) (e : ℤ) : (f.digits m e).1 ≤ 2 ^ (f.fb + 1) := by
  refine (digits_nearest f m e).le_of_lt (by positivity) ?_
  calc (m : ℚ) * 2 ^ e < 2 ^ (Nat.log2 m + 1) * 2 ^ e :=
        mul_lt_mul_of_pos_right (by exact_mod_cast Nat.lt_log2_self) (by positivity)
    _ = 2 ^ ((Nat.log2 m + 1 : ℕ) + e : ℤ) := by rw [zpow_add₀ two_ne_zero, zpow_natCast]
    _ ≤ 2 ^ ((f.fb + 1 : ℕ) + f.gridExp m e : ℤ) := by
        refine zpow_le_zpow_right₀ one_le_two ?_
        unfold Fmt.gridExp
        omega
    _ = (2 ^ (f.fb + 1) : ℕ) * 2 ^ f.gridExp m e := by rw [zpow_add₀ two_ne_zero, zpow_natCast]; norm_cast

section
variable {f : Fmt} {m : ℕ} (hm : m ≠ 0) (e : ℤ)
include hm

/-- Above the least exponent, the value has all `fb + 1` digits on the grid. -/
theorem gridExp_start : f.gridExp m e = f.emin ∨ (2 : ℚ) ^ (f.fb + f.gridExp m e) ≤ m * 2 ^ e := by
  refine or_iff_not_imp_left.2 fun above => ?_
  have top : f.fb + f.gridExp m e = (Nat.log2 m : ℤ) + e := by
    unfold Fmt.gridExp at above ⊢
    omega
  rw [top, zpow_add₀ two_ne_zero, zpow_natCast]
  exact mul_le_mul_of_nonneg_right (by exact_mod_cast Nat.log2_self_le hm) (by positivity)

theorem digits_ge : f.gridExp m e = f.emin ∨ 2 ^ f.fb ≤ (f.digits m e).1 := by
  refine (gridExp_start hm e).imp_right fun start => (digits_nearest f m e).ge_of_le (by positivity) ?_
  rw [zpow_add₀ two_ne_zero, zpow_natCast] at start
  exact_mod_cast start

end

/-! ### The magnitude of a grid point -/

/-- The magnitude bits of `n * 2^u`: the words count on from one binade to the next. -/
def Fmt.magnitude (f : Fmt) (n : ℕ) (u : ℤ) : ℕ := n + (u - f.emin).toNat * 2 ^ f.fb

/-- The significand of `roundFin` after a carry into a new digit. -/
def Fmt.carried (f : Fmt) (n : ℕ) : ℕ := if 2 ^ (f.fb + 1) ≤ n then n / 2 else n

/-- The exponent field of `roundFin`. -/
def Fmt.field (f : Fmt) (n : ℕ) (u : ℤ) : ℕ :=
  if f.carried n < 2 ^ f.fb then 0 else ((if 2 ^ (f.fb + 1) ≤ n then u + 1 else u) - f.emin + 1).toNat

theorem magnitude_even {f : Fmt} (hf : f.Standard) {n : ℕ} (h : n % 2 = 0) (u : ℤ) : f.magnitude n u % 2 = 0 := by
  have even : 2 ∣ (u - f.emin).toNat * 2 ^ f.fb := Dvd.dvd.mul_left (dvd_pow_self 2 hf.fractionBits) _
  unfold Fmt.magnitude
  omega

theorem signed_even {f : Fmt} (hf : f.Standard) (s : Bool) {mag : ℕ} (h : mag % 2 = 0) : f.signed s mag % 2 = 0 := by
  have even : 2 ∣ 2 ^ (f.eb + f.fb) := dvd_pow_self 2 (by have := hf.fractionBits; omega)
  unfold Fmt.signed
  split <;> omega

section
variable {f : Fmt} {n : ℕ} {u : ℤ} (hn : n ≤ 2 ^ (f.fb + 1)) (hu : f.emin ≤ u) (hs : u = f.emin ∨ 2 ^ f.fb ≤ n)
include hn hs

/-- A grid point is subnormal, or normal in the binade of its grid, or the first of the next binade. -/
theorem magnitude_cases :
    n < 2 ^ f.fb ∧ u = f.emin ∧ f.magnitude n u = n ∨
    (∃ r < 2 ^ f.fb, n = r + 2 ^ f.fb ∧ f.magnitude n u = r + 2 ^ f.fb * ((u - f.emin).toNat + 1)) ∨
    n = 2 * 2 ^ f.fb ∧ f.magnitude n u = 2 ^ f.fb * ((u - f.emin).toNat + 2) := by
  rw [pow_succ] at hn
  unfold Fmt.magnitude
  by_cases low : n < 2 ^ f.fb
  · have least : u = f.emin := hs.resolve_right (by omega)
    exact .inl ⟨low, least, by rw [least]; simp⟩
  · by_cases mid : n < 2 * 2 ^ f.fb
    · exact .inr (.inl ⟨n - 2 ^ f.fb, by omega, by omega, by rw [mul_add, mul_comm]; omega⟩)
    · exact .inr (.inr ⟨by omega, by rw [mul_add, mul_comm]; omega⟩)

include hu

/-- The fields that `roundFin` sets are those of the magnitude. -/
theorem field_eq : f.field n u = f.magnitude n u / 2 ^ f.fb ∧ f.carried n % 2 ^ f.fb = f.magnitude n u % 2 ^ f.fb := by
  have pos := Nat.two_pow_pos f.fb
  unfold Fmt.field Fmt.carried
  rw [pow_succ']
  obtain ⟨low, least, hmag⟩ | ⟨r, hr, rfl, hmag⟩ | ⟨rfl, hmag⟩ := magnitude_cases hn hs <;> rw [hmag]
  · rw [if_neg (show ¬ 2 * 2 ^ f.fb ≤ n by omega), if_pos low, Nat.div_eq_of_lt low]
    exact ⟨rfl, rfl⟩
  · have less : ¬ 2 * 2 ^ f.fb ≤ r + 2 ^ f.fb := by omega
    rw [if_neg less, if_neg less, if_neg (by omega), Nat.add_mul_div_left _ _ pos, Nat.div_eq_of_lt hr,
      Nat.add_mul_mod_self_left, Nat.add_mod_right]
    exact ⟨by omega, rfl⟩
  · rw [if_pos le_rfl, if_pos le_rfl, Nat.mul_div_cancel_left _ two_pos, if_neg (lt_irrefl _), Nat.mul_div_cancel_left _ pos,
      Nat.mul_mod_right, Nat.mod_self]
    exact ⟨by omega, rfl⟩

/-- The word of a grid point has the value of the grid point. -/
theorem magnitude_value : (f.significand (f.magnitude n u) : ℚ) * 2 ^ f.exponent (f.magnitude n u) = n * 2 ^ u := by
  have pos := Nat.two_pow_pos f.fb
  unfold Fmt.significand Fmt.exponent
  obtain ⟨low, least, hmag⟩ | ⟨r, hr, rfl, hmag⟩ | ⟨rfl, hmag⟩ := magnitude_cases hn hs <;> rw [hmag]
  · simp [Nat.div_eq_of_lt low, Nat.mod_eq_of_lt low, least]
  · rw [Nat.add_mul_div_left _ _ pos, Nat.div_eq_of_lt hr, Nat.add_mul_mod_self_left, Nat.mod_eq_of_lt hr,
      if_neg (by omega), if_neg (by omega)]
    congr 2
    omega
  · rw [Nat.mul_div_cancel_left _ pos, Nat.mul_mod_right, if_neg (by omega), if_neg (by omega), zero_add, Nat.cast_mul,
      mul_comm ((2 : ℕ) : ℚ), mul_assoc, Nat.cast_ofNat, ← zpow_one_add₀ two_ne_zero]
    congr 2
    omega

end

/-! ### The rounding -/

/-- The overflow test of `roundFin`, on the value, its exponent field and its magnitude. -/
def Fmt.overflows (f : Fmt) (m : ℕ) (e : ℤ) (ex mag : ℕ) : Bool :=
  if f.e4 then above448 m e || decide (0x7E < mag) else decide (2 ^ f.eb - 1 ≤ ex)

theorem overflows_of_tooBig {f : Fmt} {mag : ℕ} (h : f.tooBig mag) (m : ℕ) (e : ℤ) :
    f.overflows m e (mag / 2 ^ f.fb) mag = true := by
  unfold Fmt.tooBig at h
  unfold Fmt.overflows
  split at h
  · next e4 => rw [if_pos e4, decide_eq_true h, Bool.or_true]
  · next e4 => rw [if_neg e4, decide_eq_true h]

/-- The status of a rounding that does not overflow. -/
def roundStatus (exact tiny : Bool) : Fpst :=
  if exact then Fs.none else Fs.inexact ||| (if tiny then Fs.underflow else Fs.none)

theorem roundStatus_inexact : ∀ exact tiny : Bool, roundStatus exact tiny &&& Fs.inexact = 0 ↔ exact = true := by decide

theorem roundFin_zero (f : Fmt) (s : Bool) (e : ℤ) : f.roundFin s 0 e = (f.signed s 0, Fs.none) := rfl

/-- `roundFin` of a value that is not 0, by its grid point. -/
theorem roundFin_eq {f : Fmt} {m : ℕ} (hm : m ≠ 0) (s : Bool) (e : ℤ) :
    let ex := f.field (f.digits m e).1 (f.gridExp m e)
    let mag := ex * 2 ^ f.fb + f.carried (f.digits m e).1 % 2 ^ f.fb
    f.roundFin s m e = if f.overflows m e ex mag then (f.infinity s, Fs.overflow ||| Fs.inexact)
      else (f.signed s mag, roundStatus (f.digits m e).2 (decide ((Nat.log2 m : ℤ) + e < 1 - f.bias))) := by
  rw [Fmt.roundFin, if_neg hm]
  simp only [Fmt.field, Fmt.carried, Fmt.digits, Fmt.gridExp, Fmt.overflows, roundStatus, decide_eq_true_eq] <;> rfl

/-- A rounding that does not overflow gives the word of its grid point, and is inexact where the grid point is not the value. -/
theorem roundFin_word {f : Fmt} {m : ℕ} (hm : m ≠ 0) {s : Bool} {e : ℤ} (h : (f.roundFin s m e).2 &&& Fs.overflow = 0) :
    let mag := f.magnitude (f.digits m e).1 (f.gridExp m e)
    ¬ f.tooBig mag ∧ (f.roundFin s m e).1 = f.signed s mag ∧
      ((f.roundFin s m e).2 &&& Fs.inexact = 0 ↔ (f.digits m e).2 = true) := by
  intro mag
  obtain ⟨field, frac⟩ := field_eq (digits_le f m e) (emin_le_gridExp f m e) (digits_ge hm e)
  have eq := roundFin_eq (f := f) hm s e
  simp only [field, frac, Nat.div_add_mod'] at eq
  by_cases big : f.overflows m e (mag / 2 ^ f.fb) mag = true
  · rw [eq, if_pos big] at h
    exact absurd h (show ¬ (Fs.overflow ||| Fs.inexact) &&& Fs.overflow = 0 by decide)
  · rw [eq, if_neg big]
    exact ⟨fun past => big (overflows_of_tooBig past m e), rfl, roundStatus_inexact _ _⟩

/-- A rounding that does not overflow gives the word of a nearest point of a grid that is as fine as the format. -/
theorem roundFin_grid {f : Fmt} (hf : f.Standard) {s : Bool} {m : ℕ} {e : ℤ} (h : (f.roundFin s m e).2 &&& Fs.overflow = 0) :
    ∃ (n d : ℕ) (k u : ℤ), f.num (f.roundFin s m e).1 = .fin s n k ∧ (n : ℚ) * 2 ^ k = d * 2 ^ u ∧
      NearestEven (m * 2 ^ e) (2 ^ u) d ∧ (u = f.emin ∨ (2 : ℚ) ^ (f.fb + u) ≤ m * 2 ^ e) ∧
      ((f.roundFin s m e).2 &&& Fs.inexact = 0 ↔ (d : ℚ) * 2 ^ u = m * 2 ^ e) ∧
      (d % 2 = 0 → (f.roundFin s m e).1 % 2 = 0) := by
  by_cases hm : m = 0
  · subst hm
    rw [roundFin_zero]
    exact ⟨0, 0, f.emin, f.emin, num_signed_zero hf s, rfl, nearestEven_of_eq (by simp) (by positivity), .inl rfl,
      by simp [Fs.none], fun _ => signed_even hf s rfl⟩
  · obtain ⟨fits, word, kept⟩ := roundFin_word hm h
    refine ⟨_, (f.digits m e).1, _, f.gridExp m e, by rw [word, num_signed hf s fits],
      magnitude_value (digits_le f m e) (emin_le_gridExp f m e) (digits_ge hm e), digits_nearest f m e, gridExp_start hm e,
      kept.trans (digits_exact f m e), fun even => ?_⟩
    rw [word]
    exact signed_even hf s (magnitude_even hf even _)

/-- Settles O21: the rounding is the nearest point of its grid, and no finite word between the points is nearer. -/
theorem roundingIsToNearest : Obligations.RoundingIsToNearest := by
  unfold Obligations.RoundingIsToNearest
  intro f hf neg m e signed x r h
  obtain ⟨n, d, k, u, word, value, near, fine, kept, even⟩ := roundFin_grid (formats_standard f hf) h
  refine ⟨n, k, word, kept.trans ?_, fun w b t j hw => ?_⟩
  · rw [← value, ← ratOf_same neg m e]
    exact ratOf_eq_ratOf.symm
  · obtain ⟨ht, hj⟩ := num_fin_range hw
    obtain ⟨le, tie⟩ := near.value fine (neg ^^ b) ht hj
    have own : |x - signed neg n k| = |(m : ℚ) * 2 ^ e - d * 2 ^ u| := by
      rw [← value, ← ratOf_same neg n k]
      exact abs_ratOf_sub neg neg m n e k
    have other : |x - signed b t j| = |(m : ℚ) * 2 ^ e - ratOf (neg ^^ b) t j| := abs_ratOf_sub neg b m t e j
    rw [own, other]
    refine ⟨le, fun same differ => even (tie same fun eq => differ ?_)⟩
    exact (ratOf_eq_ratOf.2 (value.trans eq.symm)).symm

end Sys2Proof.Machine
end

