-- ==== Sys2Proof/Proofs/VectorSlots.lean ====
section
/-! PROOFS. The slots of the vector classes VA, VB and VF (R130 to R144): what each lane operation of the model is in the terms of
its rule, and the obligations that say what these instructions give. -/

namespace Sys2Proof.Machine

/-! ### A slot that gives one vector (R132) -/

/-- A slot whose effect is a push of `v` into a vector destination. -/
theorem runSlot_gives {s : State} {i : Issue} {gd : BitVec 3} {src : List Rd} {o : Opnds} {d : BitVec 6} {l : Nat}
    {f : SlotRec → Opnds → State → Vec × Fpst} {v : Vec × Fpst} (h : s.Executes i gd src o)
    (hv : f (i.slotOf o) o (s.past i src) = v) :
    runSlot gd src (fun h o s => s.pushV h d l (f h o s)) s = .next (s.sends i src (i.toV d l v)) :=
  hv ▸ runSlot_pushV h d l f

section
variable {s : State} {i : Issue} {gd : BitVec 3} {d a b : BitVec 6} {o : Opnds} {l : Nat} {v : Vec × Fpst}

theorem vec2_gives (h : s.Executes i gd [srcV a, srcV b] o) {f : Nat → Nat → Nat × Fpst}
    (hv : masked (s.ctx i.tile i.cx).select o.v0 (fun k => f (laneN o.v0 k) (laneN o.v1 k)) = v) :
    vec2 f l gd d a b s = .next (s.sends i [srcV a, srcV b] (i.toV d l v)) := runSlot_gives h hv

theorem vec1_gives (h : s.Executes i gd [srcV a] o) {f : Nat → Nat × Fpst}
    (hv : masked (s.ctx i.tile i.cx).select o.v0 (fun k => f (laneN o.v0 k)) = v) :
    vec1 f l gd d a s = .next (s.sends i [srcV a] (i.toV d l v)) := runSlot_gives h hv

theorem vecF_gives (h : s.Executes i gd [srcV d, srcV a, srcV b] o) {f : Nat → Nat → Nat → Nat × Fpst}
    (hv : masked (s.ctx i.tile i.cx).select o.v0 (fun k => f (laneN o.v1 k) (laneN o.v2 k) (laneN o.v0 k)) = v) :
    vecF f gd d a b s = .next (s.sends i [srcV d, srcV a, srcV b] (i.toV d 4 v)) := runSlot_gives h hv

theorem sel1_gives (h : s.Executes i gd [srcV a] o) {f : Dword → Vec → Vec × Fpst}
    (hv : f (s.ctx i.tile i.cx).select o.v0 = v) :
    sel1 f l gd d a s = .next (s.sends i [srcV a] (i.toV d l v)) := runSlot_gives h hv

theorem sel2_gives (h : s.Executes i gd [srcV a, srcV b] o) {f : Dword → Vec → Vec → Vec × Fpst}
    (hv : f (s.ctx i.tile i.cx).select o.v0 o.v1 = v) :
    sel2 f l gd d a b s = .next (s.sends i [srcV a, srcV b] (i.toV d l v)) := runSlot_gives h hv

theorem whole2_gives (h : s.Executes i gd [srcV a, srcV b] o) {f : Vec → Vec → Vec × Fpst} (hv : f o.v0 o.v1 = v) :
    whole2 f l gd d a b s = .next (s.sends i [srcV a, srcV b] (i.toV d l v)) := runSlot_gives h hv

theorem wholeI_gives (h : s.Executes i gd [srcV a] o) {f : Vec → Nat → Vec × Fpst} {k : BitVec 6}
    (hv : f o.v0 (immU 6 k.toNat i.lits).toNat = v) :
    wholeI f l 6 gd d a k.toNat s = .next (s.sends i [srcV a] (i.toV d l v)) :=
  runSlot_gives h (by rw [slotOf_immU h.first]; exact hv)

end

/-- A masked form is its lane function (R131). -/
theorem masked_congr {sel : Dword} {u : Vec} {f g : Nat → Nat × Fpst} (h : ∀ k, f k = g k) :
    masked sel u f = masked sel u g := congrArg _ (funext h)

/-! ### Integer lanes (R135) -/

theorem intLane_congr {f g : Word → Word → Word} (h : ∀ x y, f x y = g x y) (x y : Nat) : intLane f x y = intLane g x y := by
  rw [intLane, h]; rfl

theorem minI_eq (x y : Word) : minI x y = if y.toInt < x.toInt then y else x := by
  simp only [minI, BitVec.sle_iff_toInt_le, ← Int.not_lt, ite_not]

/-- Where the values are equal, so are the words. -/
theorem maxI_eq (x y : Word) : maxI x y = if x.toInt < y.toInt then y else x := by
  simp only [maxI, BitVec.sle_iff_toInt_le]
  rcases Int.lt_trichotomy x.toInt y.toInt with h | h | h
  · rw [if_pos h, if_pos h.le]
  · rw [BitVec.eq_of_toInt_eq h, ite_self, ite_self]
  · rw [if_neg h.not_ge, if_neg h.not_gt]

theorem lowBits_eq (y : Word) : y.toNat % 32 = (fld y 0 5).toNat := by
  simp [BitVec.extractLsb'_toNat]

theorem shlI_eq (x y : Word) : shlI x y = x <<< (fld y 0 5).toNat := by rw [shlI, lowBits_eq]
theorem shrI_eq (x y : Word) : shrI x y = x >>> (fld y 0 5).toNat := by rw [shrI, lowBits_eq]
theorem sarI_eq (x y : Word) : sarI x y = x.sshiftRight (fld y 0 5).toNat := by rw [sarI, lowBits_eq]

/-- Settles O15: each form gives its lane function under the select mask; the minimum, the maximum and the shifts are those of the
rule. -/
theorem vectorTwoSourceResults : Obligations.VectorTwoSourceResults := by
  unfold Obligations.VectorTwoSourceResults
  intro s i st gd d a b o h sel byLane whole two least low
  have lanes {f g : Word → Word → Word} (e : ∀ x y, f x y = g x y) :
      masked sel o.v0 (fun k => intLane f (laneN o.v0 k) (laneN o.v1 k)) = whole g :=
    masked_congr fun _ => intLane_congr e _ _
  have hmin := lanes minI_eq
  have hmax := lanes maxI_eq
  have hshl := lanes shlI_eq
  have hshr := lanes shrI_eq
  have hsar := lanes sarI_eq
  simp only [List.forall_mem_cons]
  exact ⟨vec2_gives h rfl, vec2_gives h rfl, vec2_gives h rfl, vec2_gives h rfl, vec2_gives h rfl,
    vec2_gives h rfl, vec2_gives h rfl, vec2_gives h rfl, vec2_gives h rfl, vec2_gives h rfl,
    vec2_gives h rfl, vec2_gives h rfl, vec2_gives h rfl, vec2_gives h rfl, vec2_gives h rfl,
    vec2_gives h rfl, vec2_gives h rfl, vec2_gives h rfl, vec2_gives h rfl, vec2_gives h rfl,
    vec2_gives h rfl, vec2_gives h rfl, vec2_gives h rfl, vec2_gives h rfl, vec2_gives h rfl,
    vec2_gives h hmin, vec2_gives h hmin, vec2_gives h hmax, vec2_gives h hmax, vec2_gives h rfl,
    vec2_gives h rfl, vec2_gives h rfl, vec2_gives h rfl, vec2_gives h rfl, vec2_gives h rfl,
    vec2_gives h hshl, vec2_gives h hshl, vec2_gives h hshr, vec2_gives h hshr, vec2_gives h hsar,
    vec2_gives h hsar, List.forall_mem_nil _⟩

/-! ### Fused forms (R134, R142) -/

theorem signed8_byteOf (w t : Nat) : signed8 (byteOf w t) = (BitVec.ofNat 8 (w / 256 ^ t)).toInt := by
  rw [signed8, byteOf]
  exact congrArg BitVec.toInt (BitVec.eq_of_toNat_eq (by simp))

theorem dot4_eq (x y c : Nat) : dot4 x y c =
    let byte (w t : Nat) : Int := (BitVec.ofNat 8 (w / 256 ^ t)).toInt
    ((BitVec.ofInt 32 (c + byte x 0 * byte y 0 + byte x 1 * byte y 1 + byte x 2 * byte y 2 + byte x 3 * byte y 3)).toNat,
      0) := by
  simp only [dot4, signed8_byteOf]

/-- Settles O16: each form gives its lane function of the three operands under the select mask, with the lane of the addend
elsewhere. -/
theorem fusedFormsAddToTheDestination : Obligations.FusedFormsAddToTheDestination := by
  unfold Obligations.FusedFormsAddToTheDestination
  intro s i st gd d a b o h sel byLane two byte dot
  have hdot : masked sel o.v0 (fun k => dot4 (laneN o.v1 k) (laneN o.v2 k) (laneN o.v0 k)) = dot :=
    masked_congr fun _ => dot4_eq _ _ _
  simp only [List.forall_mem_cons]
  exact ⟨vecF_gives h rfl, vecF_gives h rfl, vecF_gives h rfl, vecF_gives h rfl, vecF_gives h rfl,
    vecF_gives h rfl, vecF_gives h rfl, vecF_gives h rfl, vecF_gives h hdot, vecF_gives h hdot,
    List.forall_mem_nil _⟩

/-! ### Signs (R133) -/

theorem absF_eq (x : Nat) : absF x = ((BitVec.ofNat 32 x &&& 0x7FFFFFFF#32).toNat, 0) := by
  have low : (BitVec.ofNat 32 x &&& 0x7FFFFFFF#32).toNat = x % 2 ^ 31 := by
    rw [BitVec.toNat_and, BitVec.toNat_ofNat]
    exact (Nat.and_two_pow_sub_one_eq_mod _ 31).trans (Nat.mod_mod_of_dvd x (by decide))
  rw [absF, low]

/-- The sign bit is inverted and the bits below it stand. -/
theorem negF_eq (w : Word) : negF w.toNat = ((BitVec.ofNat 32 w.toNat ^^^ 0x80000000#32).toNat, 0) := by
  have inverted : (w.toNat ^^^ 2 ^ 31) / 2 ^ 31 = w.toNat / 2 ^ 31 ^^^ 1 := Nat.xor_div_two_pow
  have same : (w.toNat ^^^ 2 ^ 31) % 2 ^ 31 = w.toNat % 2 ^ 31 := by rw [Nat.xor_mod_two_pow, Nat.mod_self, Nat.xor_zero]
  have sign : w.toNat.testBit 31 = decide (w.toNat / 2 ^ 31 % 2 = 1) := Nat.testBit_eq_decide_div_mod_eq
  have word : (BitVec.ofNat 32 w.toNat ^^^ 0x80000000#32).toNat = w.toNat ^^^ 2 ^ 31 := by
    rw [BitVec.ofNat_toNat, BitVec.setWidth_eq, BitVec.toNat_xor]; rfl
  have bound := w.isLt
  have top : w.toNat / 2 ^ 31 = 0 ∨ w.toNat / 2 ^ 31 = 1 := by omega
  rw [negF, word, sign]
  refine congrArg (·, 0) ?_
  rcases top with h | h
  · rw [h, if_neg (by decide)]
    rw [h, show 0 ^^^ 1 = 1 from rfl] at inverted
    omega
  · rw [h, if_pos (by decide)]
    rw [h, show 1 ^^^ 1 = 0 from rfl] at inverted
    omega

/-- Settles O17: each masked form gives its lane function, and each reduction the value of its tree in every lane. -/
theorem vectorOneSourceResults : Obligations.VectorOneSourceResults := by
  unfold Obligations.VectorOneSourceResults
  intro s i st gd d a o h sel byLane toInt all
  have habs : masked sel o.v0 (fun k => absF (laneN o.v0 k)) =
      byLane fun x => ((BitVec.ofNat 32 x &&& 0x7FFFFFFF#32).toNat, 0) := masked_congr fun _ => absF_eq _
  have hneg : masked sel o.v0 (fun k => negF (laneN o.v0 k)) =
      byLane fun x => ((BitVec.ofNat 32 x ^^^ 0x80000000#32).toNat, 0) := masked_congr fun _ => negF_eq _
  simp only [List.forall_mem_cons]
  exact ⟨vec1_gives h habs, vec1_gives h habs, vec1_gives h hneg, vec1_gives h hneg, vec1_gives h rfl,
    vec1_gives h rfl, vec1_gives h rfl, vec1_gives h rfl, vec1_gives h rfl, vec1_gives h rfl,
    vec1_gives h rfl, vec1_gives h rfl, vec1_gives h rfl, vec1_gives h rfl, vec1_gives h rfl,
    vec1_gives h rfl, sel1_gives h rfl, sel1_gives h rfl, sel1_gives h rfl, sel1_gives h rfl,
    List.forall_mem_nil _⟩

/-! ### Masks (R136, R137) -/

theorem getMask_toNat (r : Regs) (m : BitVec 3) :
    r.getMask m.toNat = if m = 0 then BitVec.allOnes 64 else rd r.mask m.toNat 0 := by
  have zero : m.toNat = 0 ↔ m = 0 := ⟨fun h => BitVec.eq_of_toNat_eq h, fun h => h ▸ rfl⟩
  simp only [Regs.getMask, zero]

theorem eqI_eq (x y : Word) : eqI x.toNat y.toNat = decide (x = y) := by
  simp [eqI, Bool.beq_eq_decide_eq, BitVec.toNat_inj]

theorem ltI_eq (x y : Word) : ltI x.toNat y.toNat = decide (x.toInt < y.toInt) := by
  simp [ltI, BitVec.slt_eq_decide]

theorem leI_eq (x y : Word) : leI x.toNat y.toNat = decide (x.toInt ≤ y.toInt) := by
  simp [leI, BitVec.sle_eq_decide]

section
variable {s : State} {i : Issue} {gd m n p : BitVec 3} {a b : BitVec 6} {o : Opnds}

theorem vecCmp_gives (h : s.Executes i gd [srcV a, srcV b] o) {f : Nat → Nat → Bool} {q : Nat → Bool}
    (hq : ∀ k, f (lane o.v0 k).toNat (lane o.v1 k).toNat = q k) :
    vecCmp f gd m a b s = .next (s.sends i [srcV a, srcV b] [i.gives 2 (.mask m.toNat
      (ofMask fun k => bit (s.ctx i.tile i.cx).select k && q k))]) := by
  rw [← funext hq]
  exact runSlot_push h 2 fun _ o s => .mask m.toNat (ofMask fun k => bit s.cur.select k && f (laneN o.v0 k) (laneN o.v1 k))

theorem maskOp_gives (h : s.Executes i gd [] o) {f : Dword → Dword → Dword} {v : Dword}
    (hv : f ((s.ctx i.tile i.cx).regs.getMask n.toNat) ((s.ctx i.tile i.cx).regs.getMask p.toNat) = v) :
    maskOp f gd m n p s = .next (s.sends i [] [i.gives 1 (.mask m.toNat v)]) :=
  hv ▸ runSlot_push h 1 fun _ _ s => .mask m.toNat (f (s.cur.regs.getMask n.toNat) (s.cur.regs.getMask p.toNat))

theorem maskSelect_gives (h : s.Executes i gd [] o) (n : BitVec 3) :
    maskSelect gd n s = .next (s.sends i [] [i.gives 1 (.select n)]) :=
  runSlot_push h 1 fun _ _ _ => .select n

end

/-- Settles O18: a compare's bit stands where the lane is selected and its relation holds; the mask operations read the masks as
they stand before the bundle. -/
theorem masksAreWritten : Obligations.MasksAreWritten := by
  unfold Obligations.MasksAreWritten
  intro s i st gd m n p a b o c val num
  have hval : (fun k : BitVec 3 => c.regs.getMask k.toNat) = val := funext fun k => getMask_toNat c.regs k
  rw [← hval]
  have notN (h : s.Executes i gd [] o) := maskOp_gives (m := m) (n := n) (p := n) (f := fun x _ => ~~~x) h rfl
  simp only [List.forall_mem_cons]
  exact ⟨fun h => ⟨vecCmp_gives h fun _ => rfl, vecCmp_gives h fun _ => rfl, vecCmp_gives h fun _ => rfl,
      vecCmp_gives h fun _ => rfl, vecCmp_gives h fun _ => rfl, vecCmp_gives h fun _ => rfl, vecCmp_gives h fun _ => eqI_eq _ _,
      vecCmp_gives h fun _ => eqI_eq _ _, vecCmp_gives h fun _ => ltI_eq _ _, vecCmp_gives h fun _ => ltI_eq _ _,
      vecCmp_gives h fun _ => leI_eq _ _, vecCmp_gives h fun _ => leI_eq _ _, List.forall_mem_nil _⟩,
    fun h => ⟨⟨maskOp_gives h rfl, maskOp_gives h rfl, maskOp_gives h rfl, maskOp_gives h rfl, notN h, notN h,
      List.forall_mem_nil _⟩, maskSelect_gives h n, maskSelect_gives h n, List.forall_mem_nil _⟩⟩

end Sys2Proof.Machine
end

