-- ==== Sys2Proof/Proofs/LaneMoves.lean ====
section
/-! PROOFS. The slots that move lanes and change widths (R138, R140, R141) and the attention forms (R145 to R150): the values of the
model in the element order of the rules, and the obligations that say what these instructions give. -/

namespace Sys2Proof.Machine

/-! ### Values by their lanes (R6, R130) -/

theorem lane_ext {u v : Vec} (h : ∀ l, l < 64 → lane u l = lane v l) : u = v := by
  refine BitVec.eq_of_getLsbD_eq fun j hj => ?_
  have bits := congrArg (·.getLsbD (j % 32)) (h (j / 32) (by omega))
  simpa only [getLsbD_lane _ _ (Nat.mod_lt j (by decide : 0 < 32)), Nat.div_add_mod] using bits

/-- Lanes that raise nothing are a vector without conditions. -/
theorem ofLanesFs_quiet (f : Nat → Nat) : ofLanesFs (fun l => (f l, 0)) = (ofLanes fun l => BitVec.ofNat 32 (f l), 0) := by
  have quiet (k : Nat) : (lanesFs (fun l => (f l, 0)) k).2 = 0 := by
    induction k with
    | zero => rfl
    | succ k ih => rw [lanesFs, ih]; exact BitVec.or_self
  exact Prod.ext (ofLanesFs_fst _) (quiet 64)

theorem halves_congr {f g : Nat → Nat × Fpst} (h : ∀ t < 2, f t = g t) : halves f = halves g := by
  rw [halves, halves, h 0 (by decide), h 1 (by decide)]

theorem quads_congr {f g : Nat → Nat × Fpst} (h : ∀ t < 4, f t = g t) : quads f = quads g := by
  rw [quads, quads, h 0 (by decide), h 1 (by decide), h 2 (by decide), h 3 (by decide)]

/-! ### Packing and unpacking (R140, R141) -/

/-- Element `2 l + t` of the result lies in lane `l`. -/
theorem pack16_eq (f : Fmt) (a b : Vec) : pack16 f a b = ofLanesFs fun l => halves fun t =>
    Fmt.f32.conv f (if 2 * l + t < 64 then laneN a (2 * l + t) else laneN b (2 * l + t - 64)) := by
  refine congrArg ofLanesFs (funext fun l => halves_congr fun t ht => congrArg _ ?_)
  by_cases h : l < 32
  · rw [if_pos h, if_pos (by omega)]
  · rw [if_neg h, if_neg (by omega), show 2 * (l - 32) + t = 2 * l + t - 64 by omega]

/-- Element `4 l + t` of the result lies in lane `l`; the elements from 128 on are zero. -/
theorem pack8_eq (f : Fmt) (a b : Vec) : pack8 f a b = ofLanesFs fun l => quads fun t =>
    if 4 * l + t < 64 then Fmt.f32.conv f (laneN a (4 * l + t))
    else if 4 * l + t < 128 then Fmt.f32.conv f (laneN b (4 * l + t - 64)) else (0, 0) := by
  refine congrArg ofLanesFs (funext fun l => ?_)
  by_cases h : l < 16
  · rw [if_pos h]
    exact quads_congr fun t ht => by rw [if_pos (by omega)]
  · rw [if_neg h]
    by_cases h' : l < 32
    · rw [if_pos h']
      refine quads_congr fun t ht => ?_
      rw [if_neg (by omega), if_pos (by omega), show 4 * (l - 16) + t = 4 * l + t - 64 by omega]
    · have zeros : quads (fun _ => (0, 0)) = (0, 0) := by decide
      rw [if_neg h']
      exact zeros.symm.trans (quads_congr fun t ht => by rw [if_neg (by omega), if_neg (by omega)])

theorem merge8_eq (a b : Vec) : merge8 a b = ofLanes fun l => if l < 32 then lane a l else lane b (l - 32) := by
  refine lane_ext fun l hl => ?_
  rw [merge8, lane_lowLanes _ _ _ hl, lane_ofLanes _ hl]
  by_cases h : l < 32
  · rw [if_neg (by omega), if_pos h]
  · rw [if_pos (by omega), if_neg h]
    refine BitVec.eq_of_getLsbD_eq fun j hj => ?_
    have place : 32 * l + j - 1024 = 32 * (l - 32) + j := by omega
    have inside : 32 * l + j < 2048 := by omega
    have high : ¬ 32 * l + j < 1024 := by omega
    rw [getLsbD_lane _ _ hj, getLsbD_lane _ _ hj, BitVec.getLsbD_shiftLeft, place]
    simp [inside, high]

/-- Settles O19: each form gives its rearrangement or conversion of the whole operands. -/
theorem laneMovesAndPacking : Obligations.LaneMovesAndPacking := by
  unfold Obligations.LaneMovesAndPacking
  intro s i st h gd d a b k o sel n elem16 elem8 pack2 pack4 open2 open4 sel2 perm merge turn
  have hpack2 (f : Fmt) : pack16 f o.v0 o.v1 = pack2 f := pack16_eq f _ _
  have hpack4 (f : Fmt) : pack8 f o.v0 o.v1 = pack4 f := pack8_eq f _ _
  have hmerge : (merge8 o.v0 o.v1, (0 : Fpst)) = merge := congrArg (·, 0) (merge8_eq _ _)
  have hopen2 (f : Fmt) : unpack16 f o.v0 h.toNat = open2 f := ofLanesFs_quiet _
  have hopen4 (f : Fmt) : unpack8 f o.v0 n = open4 f := ofLanesFs_quiet _
  simp only [List.forall_mem_cons]
  refine ⟨fun e => ?_, fun e => ?_⟩
  · exact ⟨sel2_gives e rfl, sel2_gives e rfl, whole2_gives e rfl, whole2_gives e rfl, whole2_gives e (hpack2 _),
      whole2_gives e (hpack2 _), whole2_gives e (hpack2 _), whole2_gives e (hpack2 _), whole2_gives e (hpack4 _),
      whole2_gives e (hpack4 _), whole2_gives e (hpack4 _), whole2_gives e (hpack4 _),
      whole2_gives (f := fun x y => (merge8 x y, 0)) e hmerge, whole2_gives (f := fun x y => (merge8 x y, 0)) e hmerge,
      List.forall_mem_nil _⟩
  · have unpack (f : Fmt) : runSlot gd [srcV a] (fun x o s => s.pushV x d 3 (unpack16 f o.v0 h.toNat)) s =
        .next (s.sends i [srcV a] (i.toV d 3 (open2 f))) := runSlot_gives e (hopen2 f)
    exact ⟨wholeI_gives e rfl, wholeI_gives e rfl, unpack _, unpack _, unpack _, unpack _, wholeI_gives e (hopen4 _),
      wholeI_gives e (hopen4 _), wholeI_gives e (hopen4 _), wholeI_gives e (hopen4 _), List.forall_mem_nil _⟩

/-! ### State vectors and their factors (R145, R146) -/

theorem stateVec_eq (m c d r : Nat) : stateVec m c d r = ofLanes fun l =>
    if l = 0 then BitVec.ofNat 32 m else if l = 1 then BitVec.ofNat 32 c else if l = 2 then BitVec.ofNat 32 d
    else if l = 3 then BitVec.ofNat 32 (r % 64) else 0 := by
  simp only [stateVec, apply_ite (BitVec.ofNat 32)]
  rfl

/-- No lane is selected just when the select mask is zero. -/
theorem selected_isEmpty (sel : Dword) : ((List.range 64).filter fun k => bit sel k).isEmpty = decide (sel = 0) := by
  rw [Bool.eq_iff_iff, List.isEmpty_iff, List.filter_eq_nil_iff, decide_eq_true_iff]
  refine ⟨fun h => BitVec.eq_of_getLsbD_eq fun k hk => ?_, fun h k _ => by simp [h]⟩
  simpa using h k (List.mem_range.2 hk)

/-- The factor of an operand whose maximum is `m` where the new maximum is `x`. -/
def attnFactor (m x : Nat) : Nat × Fpst := if m = x then (one32, 0) else expDiff m x

theorem attnFactor_comm (m x : Nat) : attnFactor m x = if x = m then (one32, 0) else expDiff m x :=
  if_congr eq_comm rfl rfl

theorem attnMax_eq (sel : Dword) (a b : Vec) : attnMax sel a b =
    let x := ((List.range 64).filter fun k => bit sel k).foldl (fun x k => Fmt.f32.max x (laneN a k)) (laneN b 0)
    (stateVec x (attnFactor (laneN b 0) x).1 (if sel = 0 then 0 else one32) (laneN b 3), (attnFactor (laneN b 0) x).2) := by
  simp only [attnMax, attnFactor_comm, selected_isEmpty, decide_eq_true_eq]

theorem attnExp_eq (sel : Dword) (a b : Vec) : attnExp sel a b = ofLanesFs fun k =>
    if bit sel k ∧ laneN b 0 ≠ negInf32 then expDiff (laneN a k) (laneN b 0) else (0, 0) := by
  simp only [attnExp, Bool.and_eq_true, bne_iff_ne]

theorem attnMerge_eq (a b : Vec) : attnMerge a b =
    let x := Fmt.f32.max (laneN a 0) (laneN b 0)
    if laneN a 0 = negInf32 ∧ laneN b 0 = negInf32 then (stateVec x one32 0 (laneN a 3), 0)
    else (stateVec x (attnFactor (laneN a 0) x).1 (attnFactor (laneN b 0) x).1 (laneN a 3),
      (attnFactor (laneN a 0) x).2 ||| (attnFactor (laneN b 0) x).2) := rfl

/-- The quotients of R149, without conditions or lanes for a row that is wholly masked. -/
theorem attnNorm_eq (u st sums : Vec) : attnNorm u st sums =
    let sum := pairTree Fmt.f32.add 6 ((List.range 64).map (laneN sums))
    let ratio := ofLanesFs fun k => Fmt.f32.div (laneN u k) sum.1
    (if laneN st 0 = negInf32 then (0, 0) else (ratio.1, ratio.2 ||| sum.2), laneN st 3 % 64,
      decide (laneN st 0 = negInf32)) := by
  by_cases h : laneN st 0 = negInf32
  · simp only [attnNorm, h, if_true, decide_true]
  · simp only [attnNorm, h, if_false, decide_false]

/-! ### The attention forms (R146 to R150) -/

theorem push_sends {i : Issue} (h : i.remake = []) (s : State) (src : List Rd) (o : Opnds) (out : List Res) (l : Nat)
    (p : Payload) (fp : Fpst) :
    (s.sends i src out).push (i.slotOf o) l p fp = s.sends i src (out ++ [i.gives l p fp]) := by
  simp [State.push, State.sends, State.modIssue, Issue.past, Issue.gives, h]

/-- ANORM gives its vector, and then the bit of its row in m7 (R149). -/
theorem execAnorm_gives {s : State} {i : Issue} {gd : BitVec 3} {d a b : BitVec 6} {o : Opnds}
    (h : s.Executes i gd [srcV a, srcVn b 2] o) {v : Vec × Fpst} {r : Nat} {z : Bool}
    (hv : attnNorm o.v0 o.v1 o.v2 = (v, r, z)) :
    execAnorm gd d a b s =
      .next (s.sends i [srcV a, srcVn b 2] (i.toV d 8 v ++ [i.gives 8 (.maskBit 7 r z)])) := by
  rw [execAnorm, runSlot_executes h]
  simp only [hv, pushV_past h.first, push_sends h.first]

/-- Settles O20: each form gives the vector of its rule, and ANORM the bit of its row besides. -/
theorem attentionForms : Obligations.AttentionForms := by
  unfold Obligations.AttentionForms
  intro s i st gd d a b o sel empty one exp2 coef stv on top amaxu aexps ma mb x amrg c e aresc sum masked ratio anorm
  have hstv : stateVec = stv := by funext m c d r; exact stateVec_eq m c d r
  have hmax : attnMax sel o.v0 o.v1 = amaxu := by rw [attnMax_eq, hstv]; rfl
  have hmerge : attnMerge o.v0 o.v1 = amrg := by rw [attnMerge_eq, hstv]; rfl
  refine ⟨fun h => ⟨sel2_gives h hmax, sel2_gives h (attnExp_eq _ _ _), whole2_gives h hmerge⟩, fun h => ?_, fun h => ?_⟩
  · exact runSlot_gives (f := fun _ o _ => attnRescale o.v0 o.v1 o.v2) h rfl
  · exact execAnorm_gives h (attnNorm_eq _ _ _)

end Sys2Proof.Machine
end

