-- ==== Sys2Proof/Proofs/ArraySlots.lean ====
section
/-! PROOFS. The slots of the array whose work is a row or a bank: the beats (R129, R154, R162, R172), the registers and planes (R160,
R166, R168), the rotation (R167) and the accumulator banks (R169, R170). The first row whose tag disagrees, the trees of a beat in the
terms of the rules, the lowest free run of banks, and the obligations that say what MAC, MROT, MWSW, MLDH, MSET, ABAL and ABFR do. -/

namespace Sys2Proof.Machine

/-! ### Elements and modes (R129, R154, R158) -/

theorem signed8_elemAt (v e : Nat) : signed8 (elemAt v 8 e) = (BitVec.ofNat 8 (v / 2 ^ (8 * e))).toInt :=
  congrArg BitVec.toInt (BitVec.eq_of_toNat_eq (by simp [elemAt]))

theorem modeElems_eq (m : Nat) : modeElems m = if m = 0 then 64 else if m = 1 then 128 else if m = 2 then 32 else 16 := by
  match m with
  | 0 | 1 | 2 | _ + 3 => rfl

theorem beatTag_eq (m wf : Nat) : beatTag m wf = if m = 0 then 1 + wf else if m = 1 then 4 else if m = 2 then 5 + wf else 7 := by
  match m with
  | 0 | 1 | 2 | _ + 3 => rfl

/-- The conditions of a lane are those of its tree and of its products (R129). -/
theorem beatLane_eq (m af wf x : Nat) (ws : List Word) : beatLane m af wf x ws =
    let prod (e : Nat) : Nat × Fpst := product (activation m af x e) (weightAt m wf ws e)
    let tree := pairTree Fmt.f32.add (Nat.log2 (modeElems m)) ((List.range (modeElems m)).map fun e => (prod e).1)
    (tree.1, ((List.range (modeElems m)).map fun e => (prod e).2).foldl (· ||| ·) tree.2) := by
  simp only [beatLane, List.map_map, List.foldl_map]
  rfl

theorem beatInt_eq (x : Nat) (ws : List Word) : BitVec.ofNat 32 (beatInt x ws) =
    let byte (v e : Nat) : Int := (BitVec.ofNat 8 (v / 2 ^ (8 * e))).toInt
    BitVec.ofInt 32 (((List.range 64).map fun e => byte x e * byte (rowNat ws) e).sum) := by
  simp only [beatInt, signed8_elemAt, BitVec.ofNat_toNat, BitVec.setWidth_eq]

/-! ### Beats by the tags of their plane (R158, R162, R172) -/

/-- The tag of a row of the plane that is active. -/
def Tile.rowTag (t : Tile) (l : Nat) : Nat := (t.weightRow t.active l).tag
theorem rowTag_def (t : Tile) (l : Nat) : (t.weightRow t.active l).tag = t.rowTag l := rfl

/-- The first of the first `n` rows whose tag is neither none nor the one wanted. -/
def Tile.firstOther (t : Tile) (n want : Nat) : Option Nat := (List.range n).find? fun l => t.rowTag l != 0 && t.rowTag l != want
theorem firstOther_def (t : Tile) (n want : Nat) :
    t.firstOther n want = (List.range n).find? fun l => t.rowTag l != 0 && t.rowTag l != want := rfl

theorem firstOther_none {t : Tile} {n want : Nat} (h : ∀ l, l < n → t.rowTag l = 0 ∨ t.rowTag l = want) :
    t.firstOther n want = none := by
  simpa [Tile.firstOther, List.find?_range_eq_none, or_iff_not_imp_left] using h

theorem firstOther_some {t : Tile} {n want l : Nat} (hl : l < n) (h0 : t.rowTag l ≠ 0) (hw : t.rowTag l ≠ want)
    (low : ∀ e, e < l → t.rowTag e = 0 ∨ t.rowTag e = want) : t.firstOther n want = some l := by
  simpa [Tile.firstOther, List.find?_range_eq_some, hl, h0, hw, or_iff_not_imp_left] using low

section
variable {s : State} {h : SlotRec} {z : Bool} {a : Dword} {x : Vec} {m af wf : Nat} (hm : s.cur.regs.bmode = (m, af, wf))
include hm

/-- A beat whose rows all have the tag of its mode, or none. -/
theorem beat_agrees (ok : s.curTile.firstOther (modeLanes m) (beatTag m wf) = none) :
    s.beat h z a x =
      let ws (l : Nat) : List Word := (s.curTile.weightRow s.curTile.active l).ws
      let v := ofLanesFs fun l => if l < modeLanes m then beatLane m af wf x.toNat (ws l) else (0, 0)
      if m = 0 ∧ af = 0 ∧ wf = 0 then
        s.push h 6 (.beat (fld a 0 10).toNat z true 64 (ofLanes fun l => BitVec.ofNat 32 (beatInt x.toNat (ws l))))
      else s.push h 6 (.beat (fld a 0 10).toNat z false (modeLanes m) v.1) v.2 := by
  simp only [State.beat, hm, rowTag_def, ← firstOther_def, ok]

/-- A beat that meets a row with another tag. -/
theorem beat_disagrees {l : Nat} (first : s.curTile.firstOther (modeLanes m) (beatTag m wf) = some l) :
    s.beat h z a x = s.raise h Cause.fmt (tagInfo l (s.curTile.rowTag l) (beatTag m wf)) := by
  simp only [State.beat, hm, rowTag_def, ← firstOther_def, first]

end

/-- Settles O33: the rows of the active plane agree with the mode, or the lowest that does not is reported; the lanes are the trees of
the mode. -/
theorem beatsGiveTreeValues : Obligations.BeatsGiveTreeValues := by
  unfold Obligations.BeatsGiveTreeValues
  intro s i st gd a b o c x
  split
  rename_i m af wt hm
  intro n k want tag ws row prod tree sum floats byte ints out beats
  have hwant : want = beatTag m wt := (beatTag_eq m wt).symm
  have hfloats : ofLanesFs (fun l => if l < n then beatLane m af wt o.v0.toNat (ws l) else (0, 0)) = floats := by
    simp only [beatLane_eq, modeElems_eq]
    rfl
  have hints : ofLanes (fun l => BitVec.ofNat 32 (beatInt o.v0.toNat (ws l))) = ints := by
    simp only [beatInt_eq]
    rfl
  have key (j : Instr) (src : List Rd) (z : Bool) (hj : exec j s = runSlot gd src (fun h o s => s.beat h z o.s0 o.v0) s) :
      beats j src z := by
    intro h
    rw [hj, runSlot_executes h, hwant]
    refine ⟨fun ok => ?_, fun l hl h0 hw low => ?_⟩
    · rw [beat_agrees (s := s.past i src) hm (firstOther_none ok)]
      by_cases int8 : m = 0 ∧ af = 0 ∧ wt = 0
      · rw [if_pos int8, push_past h.first, show out z = _ from if_pos int8, ← hints]
        rfl
      · rw [if_neg int8, push_past h.first, show out z = _ from if_neg int8, ← hfloats]
        rfl
    · rw [beat_disagrees (s := s.past i src) hm (firstOther_some hl h0 hw low), raise_past]
      rfl
  exact ⟨key _ _ _ rfl, key _ _ _ rfl, key _ _ _ rfl, key _ _ _ rfl⟩

/-! ### The rotation (R166, R167) -/

/-- The ones of the low `k` bits, counted. -/
theorem oddOnes_eq (n k : Nat) : oddOnes n k = (((List.range k).filter fun j => n.testBit j).length % 2 == 1) := by
  induction k with
  | zero => rfl
  | succ k ih =>
    rw [oddOnes, ih, List.range_succ, List.filter_append, List.length_append]
    cases h : n.testBit k
    · simp [h]
    · have two := Nat.mod_two_eq_zero_or_one (((List.range k).filter fun j => n.testBit j).length)
      rcases two with e | e <;> simp [h, Nat.add_mod, e]

theorem rotLane_eq (q : Nat) (v : Vec) (n : Nat) : rotLane q v n =
    let odd (n : Nat) : Bool := ((List.range 7).filter fun k => n.testBit k).length % 2 == 1
    let h (e : Nat) : Nat :=
      let y := lane v (n / q * q + e)
      (if odd (e &&& n % q) then y ^^^ 0x80000000#32 else y).toNat
    pairTree Fmt.f32.add (Nat.log2 q) ((List.range q).map h) := by
  refine congrArg (pairTree _ _) (List.map_congr_left fun e _ => ?_)
  simp only [oddOnes_eq, negF_eq, BitVec.ofNat_toNat, BitVec.setWidth_eq]
  split <;> rfl

section
variable {s : State} {i : Issue} {gd : BitVec 3} {a : BitVec 6} {o : Opnds} (h : s.Executes i gd [srcS a] o)
include h

/-- MROT where all 64 rows of the active plane have the tag of the order `2 ^ (w - 12)`. -/
theorem execMrot_agrees {w : Nat} (hw : 16 ≤ w) (ok : ∀ l, l < 64 → (s.tile i.tile).rowTag l = w) :
    let v := ofLanesFs (rotLane (2 ^ (w - 12)) ((s.tile i.tile).accRow (fld o.s0 0 10).toNat))
    execMrot gd a s = .next (s.sends i [srcS a] [i.gives 6 (.beat (fld o.s0 0 10).toNat true false 64 v.1) v.2]) := by
  have none : ((List.range 64).find? fun l => (s.tile i.tile).rowTag l != w) = none := by
    simpa [List.find?_range_eq_none] using ok
  have order : (s.tile i.tile).rowTag 0 = w := ok 0 (by decide)
  have some_order : ¬ w < 16 := Nat.not_lt.2 hw
  intro v
  rw [execMrot, runSlot_executes h]
  simp only [past_curTile, rowTag_def, order, if_neg some_order, none]
  exact congrArg _ (push_past h.first ..)

theorem execMrot_untagged (ok : (s.tile i.tile).rowTag 0 < 16) :
    execMrot gd a s = .next (s.raises i [srcS a] o Cause.fmt
      (tagInfo 0 ((s.tile i.tile).rowTag 0) ((s.tile i.tile).rowTag 0))) := by
  rw [execMrot, runSlot_executes h]
  exact congrArg _ (if_pos ok)

end

/-- Settles O35: three slots with one result each, and MROT by the tags of the active plane. -/
theorem planesAndRotations : Obligations.PlanesAndRotations := by
  unfold Obligations.PlanesAndRotations
  refine ⟨fun s i st gd q a e o => ⟨fun h => ⟨?_, ?_⟩, fun h => ?_⟩, fun s i st gd a o h => ?_⟩
  · exact runSlot_push h 1 fun _ _ _ => .planes
  · exact runSlot_push h 8 fun _ _ s => .hadamard (1 - s.curTile.active) q.toNat
  · exact runSlot_push h 1 fun _ o _ => .me e.toNat o.s0
  intro x tag row odd lanes turned
  have hturned (q : Nat) : ofLanesFs (rotLane q (x.accRow row)) = turned q := congrArg ofLanesFs (funext (rotLane_eq q _))
  refine ⟨?_, fun ok => ?_⟩
  · simp only [List.forall_mem_cons, ← hturned]
    exact ⟨execMrot_agrees h (by decide), execMrot_agrees h (by decide), execMrot_agrees h (by decide), fun _ h => nomatch h⟩
  · refine (execMrot_untagged h ok).trans ?_
    rw [tagInfo, Nat.zero_add]
    rfl

/-! ### Runs of banks (R169) -/

theorem bankOf_setBanks (t : Tile) (b n : Nat) (x : Option Cx) {e : Nat} (he : e < 128) :
    (t.setBanks b n x).bankOf e = if b ≤ e ∧ e < b + n then x else t.bankOf e := by
  induction n with
  | zero => rw [if_neg (by omega)]; rfl
  | succ n ih =>
    have last : (t.setBanks b (n + 1) x).banks = wr (t.setBanks b n x).banks (b + n) x := by
      simp [Tile.setBanks, List.range_succ]
    rw [Tile.bankOf, last, rd_wr]
    by_cases h : b + n = e
    · rw [if_pos ⟨h, by omega⟩, if_pos (by omega)]
    · rw [if_neg (by omega)]
      exact ih.trans (if_congr (by omega) rfl rfl)

/-- The `n` banks from `b` on exist and are free. -/
def Tile.FreeRun (t : Tile) (n b : Nat) : Prop := b + n ≤ 128 ∧ ∀ e, e < n → t.bankOf (b + e) = none

/-- The lowest free run, as ABAL seeks it. -/
def Tile.firstRun (t : Tile) (n : Nat) : Option Nat :=
  (List.range (129 - n)).find? fun b => (List.range n).all fun k => (t.bankOf (b + k)).isNone

theorem firstRun_def (t : Tile) (n : Nat) : t.firstRun n =
    (List.range (129 - n)).find? fun b => (List.range n).all fun k => (t.bankOf (b + k)).isNone := rfl

theorem freeRun_iff {t : Tile} {n b : Nat} :
    t.FreeRun n b ↔ b < 129 - n ∧ ((List.range n).all fun k => (t.bankOf (b + k)).isNone) = true := by
  simp only [Tile.FreeRun, List.all_eq_true, List.mem_range, Option.isNone_iff_eq_none]
  exact and_congr_left' (by omega)

theorem firstRun_none {t : Tile} {n : Nat} (h : ∀ b, ¬ t.FreeRun n b) : t.firstRun n = none := by
  rw [Tile.firstRun, List.find?_range_eq_none]
  intro b hb
  simpa [freeRun_iff, hb] using h b

theorem firstRun_some {t : Tile} {n b : Nat} (h : t.FreeRun n b) (low : ∀ e, e < b → ¬ t.FreeRun n e) :
    t.firstRun n = some b := by
  obtain ⟨hb, free⟩ := freeRun_iff.1 h
  rw [Tile.firstRun, List.find?_range_eq_some]
  refine ⟨free, List.mem_range.2 hb, fun e he => ?_⟩
  simpa [freeRun_iff, show e < 129 - n by omega] using low e he

/-! ### The slots (R169, R170) -/

/-- A result for a scalar destination that is pushed after a change to the tile outside its contexts. -/
theorem pushS_modCurTile {i : Issue} (hi : i.remake = []) (s : State) (src : List Rd) (o : Opnds) {f : Tile → Tile}
    (hf : ∀ t cx, (f t).ctx cx = t.ctx cx) (d : BitVec 6) (l : Nat) (v : Dword) :
    ((s.past i src).modCurTile f).pushS (i.slotOf o) d l v =
      (s.sends i src (s.toS i d l v)).putTile i.tile (f (s.tile i.tile)) := by
  have same : ((s.past i src).modCurTile f).cur = (s.past i src).cur := by
    simp [State.cur, State.modCurTile, State.here, State.ctx, State.modTile, hf]
  rw [← pushS_past hi s src o, State.pushS, State.pushS, same]
  split <;> rfl

@[simp] theorem past_bankDemand (s : State) (i : Issue) (src : List Rd) (t : Nat) (cx : Cx) :
    (s.past i src).bankDemand t cx = s.bankDemand t cx := rfl

section
variable {s : State} {i : Issue} {gd : BitVec 3} {d a : BitVec 6} {k : BitVec 12} {o : Opnds}

theorem execAbal_none (h : s.Executes i gd [] o)
    (full : ¬ (s.tile i.tile).banksHeld i.cx + k.toNat ≤ s.bankDemand i.tile i.cx ∨ (s.tile i.tile).firstRun k.toNat = none) :
    execAbal gd d k s = .next (s.sends i [] (s.toS i d 2 (BitVec.allOnes 64))) := by
  rw [execAbal, runSlot_executes h, ← pushS_past h.first s [] o]
  rcases full with full | full
  · simp only [past_here, past_curTile, past_bankDemand, Nat.not_le.1 full, if_true]
  · simp only [past_here, past_curTile, past_bankDemand, ← firstRun_def, full, ite_self]

theorem execAbal_some (h : s.Executes i gd [] o) {b : Nat}
    (room : (s.tile i.tile).banksHeld i.cx + k.toNat ≤ s.bankDemand i.tile i.cx)
    (first : (s.tile i.tile).firstRun k.toNat = some b) :
    execAbal gd d k s = .next ((s.sends i [] (s.toS i d 2 (BitVec.ofNat 64 b))).putTile i.tile
      ((s.tile i.tile).setBanks b k.toNat (some i.cx))) := by
  rw [execAbal, runSlot_executes h]
  simp only [past_here, past_curTile, past_bankDemand, if_neg (Nat.not_lt.2 room), ← firstRun_def, first]
  exact congrArg _ (pushS_modCurTile h.first s [] o (fun t cx => by cases cx <;> rfl) d 2 _)

/-- The first bank of its range that an ABFR finds outside, or not held. -/
def Tile.firstNotHeld (t : Tile) (cx : Cx) (b n : Nat) : Option Nat :=
  ((List.range n).map (b + ·)).find? fun k => decide (128 ≤ k) || t.bankOf k != some cx

theorem firstNotHeld_def (t : Tile) (cx : Cx) (b n : Nat) : t.firstNotHeld cx b n =
    ((List.range n).map (b + ·)).find? fun k => decide (128 ≤ k) || t.bankOf k != some cx := rfl

theorem firstNotHeld_none {t : Tile} {cx : Cx} {b n : Nat} (h : ∀ e, e < n → b + e < 128 ∧ t.bankOf (b + e) = some cx) :
    t.firstNotHeld cx b n = none := by
  simpa [Tile.firstNotHeld] using h

theorem firstNotHeld_some {t : Tile} {cx : Cx} {b n e : Nat} (he : e < n) (h : 128 ≤ b + e ∨ t.bankOf (b + e) ≠ some cx)
    (low : ∀ l, l < e → b + l < 128 ∧ t.bankOf (b + l) = some cx) : t.firstNotHeld cx b n = some (b + e) := by
  have first : (List.range n).find? (fun l => decide (128 ≤ b + l) || t.bankOf (b + l) != some cx) = some e := by
    rw [List.find?_range_eq_some]
    exact ⟨by simpa using h, List.mem_range.2 he, by simpa using low⟩
  rw [Tile.firstNotHeld, List.find?_map]
  exact congrArg (Option.map (b + ·)) first

theorem execAbfr_frees (h : s.Executes i gd [srcS a] o)
    (held : (s.tile i.tile).firstNotHeld i.cx (fld o.s0 0 7).toNat k.toNat = none) :
    execAbfr gd a k s = .next ((s.past i [srcS a]).putTile i.tile
      ((s.tile i.tile).setBanks (fld o.s0 0 7).toNat k.toNat none)) := by
  rw [execAbfr, runSlot_executes h]
  simp only [past_here, past_curTile, ← firstNotHeld_def, held]
  rfl

theorem execAbfr_raises (h : s.Executes i gd [srcS a] o) {e : Nat}
    (other : (s.tile i.tile).firstNotHeld i.cx (fld o.s0 0 7).toNat k.toNat = some e) :
    execAbfr gd a k s = .next (s.raises i [srcS a] o Cause.abheld
      (BitVec.ofNat 64 (k.toNat % 256 + e % 128 * 2 ^ 8 + 2 ^ 15))) := by
  rw [execAbfr, runSlot_executes h]
  simp only [past_here, past_curTile, ← firstNotHeld_def, other]
  rfl

end

/-- Settles O38: ABAL by the demand and the lowest free run, ABFR by the first bank of its range that the context does not hold. -/
theorem banksAreTakenAndFreed : Obligations.BanksAreTakenAndFreed := by
  unfold Obligations.BanksAreTakenAndFreed
  intro s i st gd d a k o x n free held room b _ _
  refine ⟨fun h => ⟨fun full => ?_, fun b hroom hb low => ?_⟩, fun h => ⟨fun all => ?_, fun e he other low => ?_⟩⟩
  · exact execAbal_none h (full.imp_right firstRun_none)
  · exact ⟨_, execAbal_some h hroom (firstRun_some hb low), fun e he => bankOf_setBanks x b n _ he⟩
  · exact ⟨_, execAbfr_frees h (firstNotHeld_none all), fun e he => bankOf_setBanks x b n _ he⟩
  · exact execAbfr_raises h (firstNotHeld_some he other low)

end Sys2Proof.Machine
end

