-- ==== Sys2Proof/Proofs/ArrayDrains.lean ====
section
/-! PROOFS. Draining (R164, R165): the width of rounded words and of the codes of an N4Q block, numbers made of digits and the
elements of a row read back from them, the drained row for each format, and the obligation that says what MDR pushes. -/

namespace Sys2Proof.Machine

/-! ### The width of a word (R109, R111, R120) -/

/-- A rounded word has no bit above its sign. -/
theorem round_lt {f : Fmt} (hf : f ∈ [Fmt.f32, .f16, .bf16, .e4m3, .e5m2]) (x : Num) : (f.round x).1 < 2 ^ (f.eb + f.fb + 1) := by
  have special : ∀ f ∈ [Fmt.f32, .f16, .bf16, .e4m3, .e5m2], f.nan < 2 ^ (f.eb + f.fb + 1) ∧
      ∀ s, f.infinity s < 2 ^ (f.eb + f.fb + 1) := by decide
  obtain ⟨hnan, hinf⟩ := special f hf
  have small (s : Bool) {mag : Nat} (h : mag < 2 ^ (f.eb + f.fb)) : f.signed s mag < 2 ^ (f.eb + f.fb + 1) := by
    rw [Fmt.signed, pow_succ]
    split <;> omega
  match x with
  | .nan => exact hnan
  | .inf s => exact hinf s
  | .fin s m e =>
    show (f.roundFin s m e).1 < _
    by_cases hm : m = 0
    · rw [hm, roundFin_zero]
      exact small s (Nat.two_pow_pos _)
    · obtain ⟨field, frac⟩ := field_eq (digits_le f m e) (emin_le_gridExp f m e) (digits_ge hm e)
      rw [roundFin_eq hm]
      simp only [field, frac, Nat.div_add_mod']
      split
      · exact hinf s
      · next fits => exact small s (not_tooBig_lt (formats_standard f hf) fun big => fits (overflows_of_tooBig big m e))

theorem n4qNearest_lt (x b : Int) {k : Nat} (ls : List Int) (n best dist mag : Nat) (hb : best < k) (hn : n + ls.length ≤ k) :
    n4qNearest x b ls n best dist mag < k := by
  induction ls generalizing n best dist mag with
  | nil => exact hb
  | cons l r ih =>
    rw [List.length_cons] at hn
    rw [n4qNearest]
    split
    · exact ih _ _ _ _ (by omega) (by omega)
    · exact ih _ _ _ _ hb (by omega)

theorem n4qCode_lt (b x : Num) : (n4qCode b x).1 < 16 := by
  unfold n4qCode
  split
  · decide
  · split
    · decide
    · split <;> decide
  · split
    · decide
    · exact n4qNearest_lt _ _ _ _ _ _ _ (by decide) (by decide)

theorem n4qScale_lt (a s : Num) : (n4qScale a s).1 < 256 := by
  unfold n4qScale
  split
  · dsimp only
    split
    · decide
    · show _ / _ < 256
      omega
  · decide

/-- An N4Q block has a scale byte and a code of four bits for each input. -/
theorem n4qEncode_bounds (s : Nat) (xs : List Nat) :
    (n4qEncode s xs).1 < 256 ∧ (∀ c ∈ (n4qEncode s xs).2.1, c < 16) ∧ (n4qEncode s xs).2.1.length = xs.length := by
  unfold n4qEncode
  dsimp only
  split
  · simp
  · refine ⟨n4qScale_lt _ _, ?_, by simp⟩
    simp only [List.map_map, List.mem_map]
    rintro c ⟨x, -, rfl⟩
    exact n4qCode_lt _ _

/-! ### Digits -/

theorem digits_cons (n x : Nat) (r : List Nat) : digits n (x :: r) = x + 2 ^ n * digits n r := by
  rw [digits, Nat.shiftLeft_eq, Nat.mul_comm]

theorem digits_lt {n : Nat} {xs : List Nat} (h : ∀ x ∈ xs, x < 2 ^ n) : digits n xs < 2 ^ (n * xs.length) := by
  induction xs with
  | nil => exact Nat.one_pos
  | cons x r ih =>
    obtain ⟨hx, hr⟩ := List.forall_mem_cons.1 h
    rw [digits_cons, List.length_cons]
    calc x + 2 ^ n * digits n r
      _ < 2 ^ n + 2 ^ n * digits n r := Nat.add_lt_add_right hx _
      _ = 2 ^ n * (digits n r + 1) := by ring
      _ ≤ 2 ^ n * 2 ^ (n * r.length) := Nat.mul_le_mul_left _ (ih hr)
      _ = 2 ^ (n * (r.length + 1)) := by ring

/-- A digit is read back. -/
theorem digits_digit {n : Nat} {xs : List Nat} (h : ∀ x ∈ xs, x < 2 ^ n) (k : Nat) :
    digits n xs / 2 ^ (n * k) % 2 ^ n = xs.getD k 0 := by
  induction xs generalizing k with
  | nil => simp [digits]
  | cons x r ih =>
    obtain ⟨hx, hr⟩ := List.forall_mem_cons.1 h
    rw [digits_cons]
    cases k with
    | zero => simp [Nat.mod_eq_of_lt hx]
    | succ k =>
      rw [Nat.mul_succ, Nat.add_comm (n * k), Nat.pow_add, ← Nat.div_div_eq_div_mul, Nat.add_mul_div_left _ _ (Nat.two_pow_pos n),
        Nat.div_eq_of_lt hx, Nat.zero_add]
      exact ih hr k

/-! ### The lanes of a row of digits (R6, R165) -/

theorem laneN_eq_div (v : Vec) (l : Nat) : laneN v l = v.toNat / 2 ^ (32 * l) % 2 ^ 32 := by
  rw [laneN, lane, BitVec.extractLsb'_toNat, Nat.shiftRight_eq_div_pow]

/-- The row of 64 elements of `w` bits. -/
def elemRow (w : Nat) (f : Nat → Nat) : Vec := BitVec.ofNat 2048 (digits w ((List.range 64).map f))

theorem elem_elemRow {w : Nat} (hw : w ≤ 32) {f : Nat → Nat} (h : ∀ l, f l < 2 ^ w) (k : Nat) :
    (elemRow w f).toNat / 2 ^ (w * k) % 2 ^ w = if k < 64 then f k else 0 := by
  have bound : ∀ x ∈ (List.range 64).map f, x < 2 ^ w := by simpa using fun l _ => h l
  have room : w * ((List.range 64).map f).length ≤ 2048 := by
    rw [List.length_map, List.length_range]
    omega
  have fits := Nat.lt_of_lt_of_le (digits_lt bound) (Nat.pow_le_pow_right (by decide) room)
  rw [elemRow, BitVec.toNat_ofNat, Nat.mod_eq_of_lt fits, digits_digit bound]
  split
  · next hk => simp [hk]
  · next hk => simp [hk]

theorem laneN_elemRow32 {f : Nat → Nat} (h : ∀ l, f l < 2 ^ 32) {l : Nat} (hl : l < 64) : laneN (elemRow 32 f) l = f l := by
  rw [laneN_eq_div, elem_elemRow (Nat.le_refl _) h, if_pos hl]

/-- Element `t` of those that begin in lane `l`, for elements of `w` bits of which `n` fill a lane. -/
theorem elem_inLane {w n : Nat} (hn : w * n = 32) (hw : w ≤ 32) {f : Nat → Nat} (h : ∀ l, f l < 2 ^ w) (l t : Nat) {b : Nat}
    (hb : b = 2 ^ (w * t)) :
    (elemRow w f).toNat / 2 ^ (32 * l) / b % 2 ^ w = if n * l + t < 64 then f (n * l + t) else 0 := by
  rw [hb, Nat.div_div_eq_div_mul, ← Nat.pow_add, ← hn, Nat.mul_assoc, ← Nat.mul_add, elem_elemRow hw h]

/-- A lane holds two elements of 16 bits. -/
theorem laneN_elemRow16 {f : Nat → Nat} (h : ∀ l, f l < 2 ^ 16) (l : Nat) :
    laneN (elemRow 16 f) l = if l < 32 then f (2 * l) + f (2 * l + 1) * 65536 else 0 := by
  have e0 := elem_inLane (n := 2) rfl (by decide) h l 0 (b := 1) rfl
  have e1 := elem_inLane (n := 2) rfl (by decide) h l 1 (b := 65536) rfl
  rw [laneN_eq_div]
  generalize (elemRow 16 f).toNat / 2 ^ (32 * l) = q at e0 e1 ⊢
  by_cases hl : l < 32
  · rw [if_pos (by omega)] at e0 e1
    rw [Nat.add_zero] at e0
    rw [if_pos hl]
    omega
  · rw [if_neg (by omega)] at e0 e1
    rw [if_neg hl]
    omega

/-- A lane holds four elements of 8 bits. -/
theorem laneN_elemRow8 {f : Nat → Nat} (h : ∀ l, f l < 2 ^ 8) (l : Nat) :
    laneN (elemRow 8 f) l =
      if l < 16 then f (4 * l) + f (4 * l + 1) * 256 + f (4 * l + 2) * 65536 + f (4 * l + 3) * 16777216 else 0 := by
  have e0 := elem_inLane (n := 4) rfl (by decide) h l 0 (b := 1) rfl
  have e1 := elem_inLane (n := 4) rfl (by decide) h l 1 (b := 256) rfl
  have e2 := elem_inLane (n := 4) rfl (by decide) h l 2 (b := 65536) rfl
  have e3 := elem_inLane (n := 4) rfl (by decide) h l 3 (b := 16777216) rfl
  rw [laneN_eq_div]
  generalize (elemRow 8 f).toNat / 2 ^ (32 * l) = q at e0 e1 e2 e3 ⊢
  by_cases hl : l < 16
  · rw [if_pos (by omega)] at e0 e1 e2 e3
    rw [Nat.add_zero] at e0
    rw [if_pos hl]
    omega
  · rw [if_neg (by omega)] at e0 e1 e2 e3
    rw [if_neg hl]
    omega

/-- The row of an N4Q block: 64 codes of four bits and its scale byte. -/
theorem n4qRow_parts {cs : List Nat} {c : Nat} (hlen : cs.length = 64) (hcs : ∀ x ∈ cs, x < 16) (hc : c < 256) :
    let y : Vec := BitVec.ofNat 2048 (digits 4 cs + c * 2 ^ 256)
    (∀ n, n < 64 → y.toNat / 16 ^ n % 16 = cs.getD n 0 % 16) ∧ y.toNat / 2 ^ 256 % 256 = c % 256 ∧ y.toNat / 2 ^ 264 = 0 := by
  have codes : digits 4 cs < 2 ^ 256 := by simpa [hlen] using digits_lt (n := 4) hcs
  have value : (BitVec.ofNat 2048 (digits 4 cs + c * 2 ^ 256)).toNat = digits 4 cs + c * 2 ^ 256 :=
    BitVec.toNat_ofNat .. |>.trans (Nat.mod_eq_of_lt (by omega))
  refine ⟨fun n hn => ?_, ?_, ?_⟩ <;> rw [value]
  · have place : c * 2 ^ 256 = 2 ^ (4 * n) * (2 ^ 4 * (2 ^ (252 - 4 * n) * c)) := by
      have split : 2 ^ 256 = 2 ^ (4 * n) * (2 ^ 4 * 2 ^ (252 - 4 * n)) := by
        rw [← Nat.pow_add, ← Nat.pow_add]
        congr 1
        omega
      rw [split]
      ring
    have digit := digits_digit (n := 4) hcs n
    have small : cs.getD n 0 < 16 := digit ▸ Nat.mod_lt _ (by decide)
    rw [show 16 ^ n = 2 ^ (4 * n) from (Nat.pow_mul 2 4 n).symm, place, Nat.add_mul_div_left _ _ (Nat.two_pow_pos _),
      Nat.mod_eq_of_lt small, ← digit]
    exact Nat.add_mul_mod_self_left ..
  · omega
  · omega

/-! ### The drained row (R164, R165) -/

/-- The conditions of the 64 elements of a row. -/
def rowStatus (g : Nat → Nat × Fpst) : Fpst := ((List.range 64).map fun l => (g l).2).foldl (· ||| ·) 0

theorem foldl_status (g : Nat → Nat × Fpst) (a : Fpst) :
    ((List.range 64).map g).foldl (fun f y => f ||| y.2) a = rowStatus g ||| a := calc
  _ = ((List.range 64).map fun l => (g l).2).foldl (· ||| ·) (a ||| 0) := by
    rw [show a ||| 0 = a from BitVec.or_zero, List.foldl_map, List.foldl_map]
  _ = a ||| rowStatus g := List.foldl_assoc
  _ = rowStatus g ||| a := BitVec.or_comm _ _

theorem foldl_status_zero (g : Nat → Nat × Fpst) : ((List.range 64).map g).foldl (fun f y => f ||| y.2) 0 = rowStatus g := by
  rw [rowStatus, List.foldl_map, List.foldl_map]

section
variable (int sc : Bool) (scale : Nat) (x : Vec)

theorem drainF32_eq (l : Nat) : drainF32 int sc scale (laneN x l) =
    let base := if int then Fmt.f32.ofInt (lane x l).toInt else (laneN x l, 0)
    if sc then ((Fmt.f32.mul base.1 scale).1, base.2 ||| (Fmt.f32.mul base.1 scale).2) else base := by
  simp only [drainF32, laneN, BitVec.ofNat_toNat, BitVec.setWidth_eq]

theorem drainF32_lt (l : Nat) : (drainF32 int sc scale (laneN x l)).1 < 2 ^ 32 := by
  have word (y : Num) := round_lt (f := Fmt.f32) (by simp) y
  rw [drainF32_eq]
  cases sc
  · cases int
    · exact (lane x l).isLt
    · exact word (Num.ofInt _)
  · exact word ((Fmt.f32.num _).mul _).1

/-- An element of a format that is narrower than FP32 (R165). -/
theorem drainElem_conv {f : Nat} (hf : f ≠ 5) (l : Nat) : drainElem f int sc scale l =
    let v := drainF32 int sc scale l
    ((Fmt.f32.conv (mdrFmt f) v.1).1, v.2 ||| (Fmt.f32.conv (mdrFmt f) v.1).2) := if_neg hf

/-- An INT32 lane is saturated as it is; another lane is converted (R165). -/
theorem drainElem_int8 (l : Nat) : drainElem 5 int sc scale (laneN x l) =
    if int ∧ sc = false then
      ((BitVec.ofInt 8 (max (-128) (min 127 (lane x l).toInt))).toNat,
        if (lane x l).toInt < -128 ∨ 127 < (lane x l).toInt then Fs.invalid else 0)
    else
      let v := drainF32 int sc scale (laneN x l)
      let n := (Fmt.f32.num v.1).toInt Num.nearest (-128) 127
      ((BitVec.ofInt 8 n.1).toNat, v.2 ||| n.2) := by
  simp only [drainElem, if_true, laneN, BitVec.ofNat_toNat, BitVec.setWidth_eq, Bool.and_eq_true, Bool.not_eq_true']
  split
  · generalize (lane x l).toInt = n
    by_cases low : n < -128
    · rw [if_pos low, if_pos (.inl low), show max (-128) (min 127 n) = -128 by omega]
    · by_cases high : 127 < n
      · rw [if_neg low, if_pos high, if_pos (.inr high), show max (-128) (min 127 n) = 127 by omega]
      · rw [if_neg low, if_neg high, if_neg (by omega), show max (-128) (min 127 n) = n by omega]
  · rfl

variable (raw : Bool) (sup : Nat)

theorem drainRow_raw : drainRow 0 false true int scale sup x = (x, 0) := rfl

theorem drainRow_f32 (h : ¬ (raw = true ∧ sc = false)) : drainRow 0 sc raw int scale sup x =
    let v (l : Nat) := drainF32 int sc scale (laneN x l)
    (elemRow 32 fun l => (v l).1, rowStatus v) := by
  have scaled : (raw && !sc) = false := by simpa using h
  simp only [drainRow, scaled, if_true, Bool.false_eq_true, if_false, List.map_map, foldl_status_zero]
  rfl

theorem drainRow_elems {f : Nat} (h0 : f ≠ 0) (h6 : f ≠ 6) : drainRow f sc raw int scale sup x =
    let v (l : Nat) := drainElem f int sc scale (laneN x l)
    (elemRow (if f < 3 then 16 else 8) fun l => (v l).1, rowStatus v) := by
  simp only [drainRow, if_neg h0, if_neg h6, List.map_map, foldl_status_zero]
  rfl

theorem drainRow_n4q : drainRow 6 sc raw int scale sup x =
    let v (l : Nat) := drainF32 int sc scale (laneN x l)
    let e := n4qEncode sup ((List.range 64).map fun l => (v l).1)
    (BitVec.ofNat 2048 (digits 4 e.2.1 + e.1 * 2 ^ 256), rowStatus v ||| e.2.2) := by
  simp only [drainRow, List.map_map]
  exact Prod.ext rfl (foldl_status _ _)

end

/-- Elements of 16 bits, two to a lane of the lower half. -/
theorem elemRow16_halves {g : Nat → Nat × Fpst} (h : ∀ l, (g l).1 < 2 ^ 16) {l : Nat} (hl : l < 32) :
    let y := elemRow 16 fun l => (g l).1
    laneN y l = (g (2 * l)).1 % 65536 + (g (2 * l + 1)).1 % 65536 * 65536 ∧ lane y (32 + l) = 0 := by
  refine ⟨?_, BitVec.eq_of_toNat_eq ?_⟩
  · rw [laneN_elemRow16 h, if_pos hl]
    exact congrArg₂ (· + · * 65536) (Nat.mod_eq_of_lt (h _)).symm (Nat.mod_eq_of_lt (h _)).symm
  · exact (laneN_elemRow16 h (32 + l)).trans (if_neg (by omega))

/-- Elements of 8 bits, four to a lane of the lowest quarter. -/
theorem elemRow8_quads {g : Nat → Nat × Fpst} (h : ∀ l, (g l).1 < 2 ^ 8) (l : Nat) :
    laneN (elemRow 8 fun l => (g l).1) l = if l < 16 then (g (4 * l)).1 % 256 + (g (4 * l + 1)).1 % 256 * 256 +
      (g (4 * l + 2)).1 % 256 * 65536 + (g (4 * l + 3)).1 % 256 * 16777216 else 0 := by
  have small (k : Nat) : (g k).1 % 256 = (g k).1 := Nat.mod_eq_of_lt (h k)
  simp only [laneN_elemRow8 h, small]

/-- MDR pushes the drained row (R164). -/
theorem execMdr_gives {s : State} {i : Issue} {gd f : BitVec 3} {q a : BitVec 6} {sc : BitVec 1} {o : Opnds} {y : Vec} {fp : Fpst}
    (h : s.Executes i gd [srcS a] o)
    (hy : let r := (s.ctx i.tile i.cx).regs
      drainRow f.toNat (sc == 1) (bit (rd r.me 2 0) 1) (bit (rd r.me 2 0) 0) (fld (rd r.me 3 0) 0 32).toNat
        (fld (rd r.me 4 0) 0 32).toNat ((s.tile i.tile).accRow (fld o.s0 0 10).toNat) = (y, fp)) :
    execMdr gd q a sc f s = .next (s.sends i [srcS a] [i.gives 8 (.row q.toNat y) fp]) := by
  rw [execMdr, runSlot_executes h]
  simp only [past_cur, past_curTile, hy, push_past h.first]

/-- Settles O36: the row of each format, from its lanes or elements. -/
theorem drainsConvertRows : Obligations.DrainsConvertRows := by
  unfold Obligations.DrainsConvertRows
  intro s i st sc gd f q a o h r ctl scale sup x base v thin sat conds half_ byte_
  have scaled : (sc == 1) = false ↔ sc = 0 := by revert sc; decide
  have hv : (fun l => drainF32 (bit ctl 0) (sc == 1) scale (laneN x l)) = v := by
    funext l
    rw [drainF32_eq]
    simp only [beq_iff_eq]
    rfl
  have hthin (n : Nat) (hn : n ≠ 5) : (fun l => drainElem n (bit ctl 0) (sc == 1) scale (laneN x l)) = thin (mdrFmt n) := by
    funext l
    rw [drainElem_conv _ _ _ hn, congrFun hv l]
  have hsat : (fun l => drainElem 5 (bit ctl 0) (sc == 1) scale (laneN x l)) = sat := by
    funext l
    rw [drainElem_int8, congrFun hv l]
    exact if_congr (and_congr_right' scaled) rfl rfl
  rcases hrow : drainRow f.toNat (sc == 1) (bit ctl 1) (bit ctl 0) scale sup x with ⟨y, fp⟩
  have row {n : Nat} {u : Vec} {c : Fpst} (hn : f.toNat = n)
      (hr : drainRow n (sc == 1) (bit ctl 1) (bit ctl 0) scale sup x = (u, c)) : y = u ∧ fp = c :=
    Prod.mk.inj (hrow.symm.trans (hn ▸ hr))
  have narrow {n : Nat} (hn : f.toNat = n) (h0 : n ≠ 0) (h6 : n ≠ 6) {g : Nat → Nat × Fpst}
      (hg : (fun l => drainElem n (bit ctl 0) (sc == 1) scale (laneN x l)) = g) :
      y = elemRow (if n < 3 then 16 else 8) (fun l => (g l).1) ∧ fp = conds g :=
    hg ▸ row hn (drainRow_elems _ _ _ _ _ _ h0 h6)
  have lane32 (l : Nat) : (v l).1 < 2 ^ 32 := congrFun hv l ▸ drainF32_lt _ _ _ _ l
  have sat8 (l : Nat) : (sat l).1 < 2 ^ 8 := by
    show (if _ then _ else _ : Nat × Fpst).1 < _
    split <;> exact BitVec.isLt _
  refine ⟨?_, y, fp, execMdr_gives h hrow, ?_, ?_, ?_, ?_, ?_, ?_, ?_, ?_⟩
  · rintro rfl
    exact Bool.and_false _
  · rintro rfl hraw hsc
    refine row rfl ?_
    rw [scaled.2 hsc, show bit ctl 1 = true from hraw]
    exact drainRow_raw _ _ _ _
  · rintro rfl hraw
    obtain ⟨rfl, rfl⟩ := row rfl (drainRow_f32 (bit ctl 0) (sc == 1) scale x (bit ctl 1) sup (by rwa [scaled]))
    simp only [congrFun hv]
    exact ⟨fun l hl => laneN_elemRow32 lane32 hl, rfl⟩
  · rintro rfl
    obtain ⟨rfl, rfl⟩ := narrow rfl (by decide) (by decide) (hthin 1 (by decide))
    exact ⟨fun l => elemRow16_halves fun l => round_lt (f := .bf16) (by simp) _, rfl⟩
  · rintro rfl
    obtain ⟨rfl, rfl⟩ := narrow rfl (by decide) (by decide) (hthin 2 (by decide))
    exact ⟨fun l => elemRow16_halves fun l => round_lt (f := .f16) (by simp) _, rfl⟩
  · rintro rfl
    obtain ⟨rfl, rfl⟩ := narrow rfl (by decide) (by decide) (hthin 3 (by decide))
    exact ⟨fun l _ => elemRow8_quads (fun l => round_lt (f := .e4m3) (by simp) _) l, rfl⟩
  · rintro rfl
    obtain ⟨rfl, rfl⟩ := narrow rfl (by decide) (by decide) (hthin 4 (by decide))
    exact ⟨fun l _ => elemRow8_quads (fun l => round_lt (f := .e5m2) (by simp) _) l, rfl⟩
  · rintro rfl
    obtain ⟨rfl, rfl⟩ := narrow rfl (by decide) (by decide) hsat
    exact ⟨fun l _ => elemRow8_quads sat8 l, rfl⟩
  · rintro rfl e code
    obtain ⟨hy, hfp⟩ := row rfl (drainRow_n4q (bit ctl 0) (sc == 1) scale x (bit ctl 1) sup)
    simp only [congrFun hv] at hy hfp
    obtain ⟨byte, codes, length⟩ := n4qEncode_bounds sup ((List.range 64).map fun l => (v l).1)
    obtain ⟨parts, scaleByte, top⟩ := n4qRow_parts (by simpa using length) codes byte
    rw [hy, hfp]
    exact ⟨parts, scaleByte, top, rfl⟩

end Sys2Proof.Machine
end

