-- ==== Sys2Proof/Proofs/CoreLoads.lean ====
section
/-! PROOFS. Core accesses that read (R199 to R203, R255, R258, R263): the lines of byte ranges, an access that meets no pending
range, no race and no line of the other view, and everything that a load whose checks pass leaves. -/

namespace Sys2Proof.Machine

/-! ### The lines of byte ranges (R202, R255) -/

theorem mem_insertNat {n a : Nat} (l : List Nat) : a ∈ insertNat n l ↔ a = n ∨ a ∈ l := by
  induction l with
  | nil => simp [insertNat]
  | cons b r ih =>
    rw [insertNat]
    split
    · simp
    · split
      · next h => simp [h]
      · simp only [List.mem_cons, ih]
        exact or_left_comm

theorem mem_sortNat {a : Nat} (l : List Nat) : a ∈ sortNat l ↔ a ∈ l := by
  have key (acc : List Nat) : a ∈ l.foldl (fun acc n => insertNat n acc) acc ↔ a ∈ acc ∨ a ∈ l := by
    induction l generalizing acc with
    | nil => simp
    | cons b r ih =>
      rw [List.foldl_cons, ih, mem_insertNat, List.mem_cons]
      tauto
  simpa [sortNat] using key []

/-- A line of byte ranges meets one of them. -/
theorem linesOf_meets {rs : List (Nat × Nat)} {n : Nat} (h : n ∈ linesOf rs) :
    ∃ x ∈ rs, n * 64 < x.1 + x.2 ∧ x.1 < n * 64 + 64 := by
  simp only [linesOf, mem_sortNat, List.mem_flatMap] at h
  obtain ⟨x, hx, hn⟩ := h
  refine ⟨x, hx, ?_⟩
  split at hn
  · cases hn
  · obtain ⟨k, hk, rfl⟩ := List.mem_map.1 hn
    rw [List.mem_range] at hk
    omega

/-! ### What hinders an access (R202, R203, R263) -/

/-- An access that comes after every access in the history of its lines is no race. -/
theorem race_none {g : Seg} {lines : List Nat} {a : Acc} (h : ∀ l ∈ g.hist, l.line ∈ lines →
    ∀ y ∈ l.write.toList ++ l.reads, y.agent = a.agent ∨ y.tick ≤ clockGet a.clock y.agent) : g.race lines a = none := by
  have after (l : LineHist) (y : Access) (hy : y.agent = a.agent ∨ y.tick ≤ clockGet a.clock y.agent) :
      y.races a.agent (l.clock a) a.atomic = false := by
    rcases hy with hy | hy
    · simp [Access.races, hy]
    · have := Nat.le_trans hy (clockGet_join a.clock (l.pub.getD []) y.agent)
      simp [Access.races, LineHist.clock, Nat.not_lt.2 this]
  have line (n : Nat) (hn : n ∈ lines) : (g.line n).race a = false := by
    rw [Seg.line]
    cases found : g.hist.find? fun l => l.line == n with
    | none => simp [LineHist.race]
    | some l =>
      have same : l.line = n := by simpa using List.find?_some found
      have clear (y : Access) (hy : y ∈ l.write.toList ++ l.reads) : y.races a.agent (l.clock a) a.atomic = false :=
        after l y (h l (List.mem_of_find?_eq_some found) (same ▸ hn) y hy)
      have reads : (l.reads.any fun y => y.races a.agent (l.clock a) a.atomic) = false := by
        simpa using fun y hy => clear y (by simp [hy])
      have write : (l.write.any fun y => y.races a.agent (l.clock a) a.atomic) = false := by
        cases hw : l.write with
        | none => rfl
        | some y => exact clear y (by simp [hw])
      simp [LineHist.race, reads, write]
  have empty : (lines.filter fun n => (g.line n).race a) = [] := by simpa using line
  rw [Seg.race, empty]
  rfl

/-- An access whose ranges no pending range meets waits for no operation. -/
theorem pending_nil {t : Tile} {id : Nat} {rs : List (Nat × Nat)}
    (h : ∀ r ∈ t.ranges, r.seg = id → ∀ x ∈ rs, r.hi ≤ x.1 ∨ x.1 + x.2 ≤ r.lo) (write : Bool) : t.pending id rs write = [] := by
  rw [Tile.pending, List.map_eq_nil_iff, List.filter_eq_nil_iff]
  intro r hr
  simp only [Bool.and_eq_true, beq_iff_eq, List.any_eq_true, decide_eq_true_eq]
  rintro ⟨⟨hs, -⟩, x, hx, h1, h2⟩
  have := h r hr hs x hx
  omega

theorem pending_no_range (t : Tile) (id : Nat) (write : Bool) : t.pending id [] write = [] :=
  pending_nil (fun _ _ _ _ h => (List.not_mem_nil h).elim) write

theorem linesOf_nil : linesOf [] = [] := rfl
theorem race_nil (g : Seg) (a : Acc) : g.race [] a = none := rfl
theorem enter_nil (g : Seg) (a : Acc) : g.enter [] a = (g, []) := rfl

theorem viewClash_none {g : Seg} {rs : List (Nat × Nat)} {swz : Bool} (h : g.InView rs swz) :
    g.viewClash (linesOf rs) swz = none := by
  rw [Seg.viewClash, List.find?_eq_none]
  intro n hn
  obtain ⟨x, hx, h1, h2⟩ := linesOf_meets hn
  simp only [List.any_eq_true, Bool.and_eq_true, beq_iff_eq, bne_iff_ne, not_exists, not_and]
  rintro m hm rfl other
  have := h m hm other x hx
  omega

/-! ### Loads (R199, R201, R205) -/

/-- The map as it stood before the bundle is the same past a slot. -/
theorem bindingBefore_past {s : State} {i : Issue} (h : s.issue = some i) (src : List Rd) (g : Nat) :
    (s.past i src).bindingBefore i.tile i.cx g = s.bindingBefore i.tile i.cx g := by
  simp only [State.bindingBefore, h]
  rfl

theorem touches_some {rs : List (Nat × Nat)} {swz : Bool} (h : rs ≠ []) :
    (Touch.all { reads := rs, swz := swz }).isEmpty = false := by
  simpa [Touch.all] using h

/-- Putting a segment changes the directory of its partition and nothing else of any partition. -/
theorem putSeg_part (s : State) (p q : Nat) (g : Seg) :
    { (s.putSeg p g).part q with dir := [] } = { s.part q with dir := [] } := by
  by_cases h : p = q
  · subst h
    rw [State.putSeg, part_modPart]
  · rw [State.putSeg, part_modPart_other s h]

/-- The segment that a name binds, for an access of class M or of class G. -/
theorem bound_past {s : State} {i : Issue} (h : s.issue = some i) (src : List Rd) {g id : Nat} {m : Bool}
    (hb : (if m then s.bindingBefore i.tile i.cx g else s.binding i.tile i.cx g) = some id) :
    (if m then (s.past i src).bindingBefore i.tile i.cx g else (s.past i src).binding i.tile i.cx g) = some id := by
  rw [bindingBefore_past h]
  exact hb

/-- A load in hand on the segment `g` passes its checks: it touches the ranges `rs` in the view `swz` without writing, and
delivers `pay` whatever the history and the time of use of the segment are. -/
structure GOp.Loads (x : GOp) (g : Seg) (rs : List (Nat × Nat)) (swz : Bool) (pay : Payload) (fp : Fpst) : Prop where
  loads : gLoads x.op = true ∧ gStores x.op = false
  touch : x.touch g = .ok { reads := rs, swz := swz }
  some_reads : rs ≠ []
  act : ∀ h t, x.act { g with hist := h, touch := t } = (g.bytes, some (pay, fp))
  kept : pay ≠ .status

/-- The state after a load of the bundle `i`: the segment is `g`, what is learned `k`. -/
def State.afterLoad (s : State) (i : Issue) (src : List Rd) (r : Res) (k : Clock) (g : Seg) : State :=
  ((((s.past i src).acquire k).putSeg (s.partOf i.tile) g).modCtx i.tile i.cx fun c => { c with ol := c.ol + 1 }).modIssue
    fun z => { z with out := z.out ++ [r] }

theorem afterLoad_accessed (s : State) (i : Issue) (src : List Rd) (r : Res) (k : Clock) {g g' : Seg} {id : Nat}
    (hg : s.seg? (s.partOf i.tile) id = some g)
    (hg' : g' = { g with hist := g'.hist, marks := g'.marks, touch := g'.touch, wrote := g'.wrote }) :
    s.Accessed (s.afterLoad i src r k g') i src [r] (s.loads i) id g.bytes := by
  obtain ⟨hid, hvalid⟩ := seg?_some hg
  have id' : g'.id = id := by rw [hg', ← hid]
  have valid' : g'.valid = true := by rw [hg', ← hvalid]
  refine ⟨⟨clockJoin i.acquire k, rfl⟩, fun n => ?_, ⟨g, g', hg, ?_, ?_⟩, fun p n h => ?_, fun p => ?_, rfl⟩
  · split
    · next h => rw [h]; exact tile_putTile _ _ _
    · next h => exact tile_putTile_other _ (Ne.symm h) _
  · have found := seg?_putSeg ((s.past i src).acquire k) (s.partOf i.tile) g' valid'
    rw [id'] at found
    exact found
  · rw [hg']
  · exact seg?_putSeg_other ((s.past i src).acquire k) g' (id'.symm ▸ h)
  · exact putSeg_part ((s.past i src).acquire k) (s.partOf i.tile) p g'

section
variable {s : State} {i : Issue} {id : Nat} {g : Seg} {rs : List (Nat × Nat)} {swz : Bool} {pay : Payload} {fp : Fpst} {x : GOp}

/-- The access of a load that nothing hinders. -/
theorem gMake_load (src : List Rd) (hx : x.org.seg = id ∧ x.org.clock = (s.ctx i.tile i.cx).clock) (hr : s.Reaches i id g rs)
    (hv : g.InView rs swz) (hl : x.Loads g rs swz pay fp) :
    ∃ k g', g' = { g with hist := g'.hist, marks := g'.marks, touch := g'.touch, wrote := g'.wrote } ∧
      (s.past i src).gMake i.tile i.cx x [] = (((s.past i src).acquire k).putSeg (s.partOf i.tile) g', .ok (some (pay, fp))) := by
  obtain ⟨hid, hclock⟩ := hx
  have found : (s.past i src).seg? (s.partOf i.tile) x.org.seg = some g := hid ▸ hr.entry
  have present : g.absent = false := by simp [Seg.absent, hr.resident]
  have norace (a : Acc) (ha : a.agent = agentOf i.tile i.cx)
      (hc : ∀ n, clockGet (s.ctx i.tile i.cx).clock n ≤ clockGet a.clock n) : g.race (linesOf rs) a = none := by
    refine race_none fun l hl hline y hy => ?_
    rcases hr.ordered l hl (linesOf_meets hline) y hy with own | before
    · exact .inl (own.trans ha.symm)
    · exact .inr (Nat.le_trans before (hc _))
  unfold State.gMake
  simp only [past_partOf, found, present, Bool.false_and, Bool.false_eq_true, if_false, hl.touch, linesOf_nil, List.append_nil,
    race_nil, enter_nil]
  generalize g.publishers (linesOf rs) (clockJoin [] ((s.past i src).tile i.tile).handover) = know
  generalize ha :
    (Acc.mk (agentOf i.tile i.cx) (accessTick x.org.tick x.op) (clockJoin (clockJoin x.org.clock know) []) false) false = a
  obtain ⟨hist, entered⟩ := enter_same g (linesOf rs) a
  have race : g.race (linesOf rs) a = none := by
    subst ha
    exact norace _ rfl fun n => hclock ▸ clockGet_join ..
  have view : { g with hist := hist, touch := (s.past i src).now }.viewClash (linesOf rs) swz = none := viewClash_none hv
  have acts := hl.act hist (s.past i src).now
  simp only [race, entered, view, acts, hl.loads, Option.toList_none, List.append_nil, List.min?_nil, Bool.false_eq_true,
    if_false]
  refine ⟨know, _, ?_, rfl⟩
  split <;> rfl

/-- A load whose checks pass and that nothing hinders is made at its issue. -/
theorem gAccess_load {gd : BitVec 3} {src : List Rd} {o : Opnds} {l : Nat} {m : Bool} (h : s.Executes i gd src o)
    (hh : x.h = i.slotOf o) (hb : (if m then s.bindingBefore i.tile i.cx x.name else s.binding i.tile i.cx x.name) = some id)
    (hr : s.Reaches i id g rs) (hv : g.InView rs swz)
    (hl : { x with org := (s.past i src).origin id }.Loads g rs swz pay fp) :
    s.Accessed ((s.past i src).gAccess x l m) i src [i.loaded l pay fp] (s.loads i) id g.bytes := by
  have present : g.absent = false := by simp [Seg.absent, hr.resident]
  have free : (s.tile i.tile).waitsFor id { reads := rs, swz := swz } = [] :=
    List.append_eq_nil_iff.2 ⟨pending_nil hr.free _, pending_no_range _ _ _⟩
  obtain ⟨k, g', hg', made⟩ := gMake_load (s := s) (i := i) (id := id) (x := { x with org := (s.past i src).origin id }) src
    ⟨rfl, rfl⟩ hr hv hl
  have found : (s.past i src).seg? (s.partOf i.tile) id = some g := hr.entry
  obtain ⟨loads, stores⟩ := hl.loads
  have done : (s.past i src).gAccess x l m = s.afterLoad i src (i.loaded l pay fp) k g' := by
    unfold State.gAccess
    simp only [past_here, past_partOf, past_tile, bound_past h.issue src hb, found, hl.touch, touches_some hl.some_reads, present,
      free, made, stores, loads, Bool.false_eq_true, if_false, ne_eq, not_true_eq_false]
    rw [hh, slotOf_slot h.first, slotOf_pc h.first]
    split
    · exact absurd rfl hl.kept
    · rfl
  rw [done]
  exact afterLoad_accessed s i src _ k hr.entry hg'

/-- An access that touches no byte does nothing, but for the LDV.g of no lane. -/
theorem gAccess_nothing {src : List Rd} {l : Nat} {m : Bool} (hi : s.issue = some i)
    (hb : (if m then s.bindingBefore i.tile i.cx x.name else s.binding i.tile i.cx x.name) = some id)
    (hg : s.seg? (s.partOf i.tile) id = some g) (ht : { x with org := (s.past i src).origin id }.touch g = .ok { swz := swz })
    (hop : x.op ≠ 10) : (s.past i src).gAccess x l m = s.past i src := by
  have found : (s.past i src).seg? (s.partOf i.tile) id = some g := hg
  have nothing : (Touch.all { swz := swz }).isEmpty = true := rfl
  unfold State.gAccess
  simp only [past_here, past_partOf, bound_past hi src hb, found, ht, nothing, if_true, if_neg hop]

end

end Sys2Proof.Machine
end

