-- ==== Sys2Proof/Proofs/ArrayLoads.lean ====
section
/-! PROOFS. MWL and MGA (R158, R159, R161, R384): the checks of ranges and of N4Q blocks that pass, the modes, the rows that a
gather takes, and the obligation that says what the two read and deliver. -/

namespace Sys2Proof.Machine

/-! ### Checks that pass (R384) -/

theorem rangeWhy_none {len al : Nat} {rs : List (Nat × Nat)} (h : ∀ y ∈ rs, y.1 % al = 0 ∧ y.1 + y.2 ≤ len) :
    rangeWhy len al rs = none := by
  have aligned : rs.find? (fun x => x.1 % al != 0) = none := by simpa using fun a b hm => (h (a, b) hm).1
  have inside : rs.find? (fun x => decide (len < x.1 + x.2)) = none := by simpa using fun a b hm => (h (a, b) hm).2
  rw [rangeWhy, aligned, inside]
  rfl

theorem n4qWhy_none {len : Nat} {es : List Nat} (h : ∀ e ∈ es, e % 64 = 0 ∧ (n4qAt e).2.2 + 32 ≤ len) :
    n4qWhy len es = none := by
  have aligned : es.find? (fun e => e % 64 != 0) = none := by simpa using fun e hm => (h e hm).1
  have scales : es.find? (fun e => decide (len < (n4qAt e).2.1 + 1)) = none := by
    rw [List.find?_eq_none]
    intro e hm
    have block := (h e hm).2
    simp only [n4qAt] at block ⊢
    exact fun short => absurd (of_decide_eq_true short) (by omega)
  have blocks : es.find? (fun e => decide (len < (n4qAt e).2.2 + 32)) = none := by
    simpa using fun e hm => (h e hm).2
  rw [n4qWhy, aligned, scales, blocks]
  rfl

/-! ### Modes and formats (R154, R159, R161) -/

theorem bmodeOf_le (w : Dword) : (bmodeOf w).1 ≤ 3 := by
  unfold bmodeOf
  dsimp only
  split <;> exact Nat.le_of_ble_eq_true rfl

theorem bmodeFmt_eq {m : Nat} (h : m ≤ 3) (f : Nat) : bmodeFmt m f =
    if m = 2 then (if f = 0 then 5 else 4) else if m = 3 then 3 else if f = 0 then 1 else if f = 1 then 6 else 7 := by
  match m, h with
  | 0, _ | 1, _ | 2, _ | 3, _ => rfl

theorem fmtMatch_of {f g : Nat} (h : f = 0 ∨ f = g) : fmtMatch f g = true := by
  rcases h with rfl | rfl <;> simp [fmtMatch]

/-! ### A row of weights (R158, R159) -/

section
variable {x : GOp} {g : Seg} {m af wf : Nat} (hm : bmodeOf x.org.bmode = (m, af, wf))
include hm

/-- MWL in a mode whose weights are bytes of the row. -/
theorem mwl_loads (hop : x.op = 64) (h1 : m ≠ 1) (hf : fmtMatch g.fmt (bmodeFmt m wf) = true)
    (hr : rangeWhy g.bytesLen (if g.swz then 64 else 4) [(x.o.s0.toNat, 64)] = none) :
    x.Loads g [(x.o.s0.toNat, 64)] g.swz
      (.weight x.org.plane (fld x.imm 0 6).toNat (if m = 0 then 1 + wf else if m = 2 then 5 + wf else 7)
        ((List.range 16).map fun k => BitVec.ofNat 32 (g.bytes.nat (x.o.s0.toNat + 4 * k) 4))) 0 where
  loads := by rw [hop]; decide
  touch := by
    unfold GOp.touch
    simp only [hop, hm, if_neg h1, hf, hr, Bool.not_true, Bool.false_eq_true, if_false]
  some_reads := List.cons_ne_nil _ _
  act h t := by
    unfold GOp.act
    simp only [hop, hm, if_neg h1]
    rfl
  kept := nofun

/-- MWL in the mode of N4Q weights takes two blocks. -/
theorem mwl_loads_n4q (hop : x.op = 64) (h1 : m = 1) (hf : g.fmt = 8)
    (hr : n4qWhy g.bytesLen [x.o.s0.toNat, x.o.s0.toNat + 64] = none) :
    let q := n4qAt x.o.s0.toNat
    let q' := n4qAt (x.o.s0.toNat + 64)
    let block := g.n4qBlock x.o.s0.toNat ++ g.n4qBlock (x.o.s0.toNat + 64)
    x.Loads g [(q.1, 16), (q'.1, 16), (q.2.1, 1), (q'.2.1, 1), (q.2.2, 32), (q'.2.2, 32)] g.swz
      (.weight x.org.plane (fld x.imm 0 6).toNat 4 (block.map fun y => BitVec.ofNat 32 y.1))
      (block.foldl (fun f y => f ||| y.2) 0) where
  loads := by rw [hop]; decide
  touch := by
    unfold GOp.touch
    simp only [hop, hm, if_pos h1, hf, hr, ne_eq, not_true_eq_false, if_false, Option.map_none]
  some_reads := List.cons_ne_nil _ _
  act h t := by
    unfold GOp.act
    simp only [hop, hm, if_pos h1]
    rfl
  kept := nofun

/-! ### Gathered rows (R161) -/

/-- MGA touches the rows that it gathers. -/
theorem mga_touch (hop : x.op = 65) (hf : fmtMatch g.fmt (bmodeFmt m af) = true) {rows : List (Nat × Nat)}
    (hrows : mgaRows x.o.s0 (fld x.org.stride 0 32).toNat x.o.v0 = rows)
    (hr : rangeWhy g.bytesLen (if g.swz then 64 else 4) (rows.map fun y => (y.2, if m = 1 then 128 else 64)) = none) :
    x.touch g = .ok { reads := rows.map fun y => (y.2, if m = 1 then 128 else 64), swz := g.swz } := by
  unfold GOp.touch
  simp only [hop, hm, hf, hrows, hr, Bool.not_true, Bool.false_eq_true, if_false]

theorem mga_loads (hop : x.op = 65) (hf : fmtMatch g.fmt (bmodeFmt m af) = true) {rows : List (Nat × Nat)}
    (hrows : mgaRows x.o.s0 (fld x.org.stride 0 32).toNat x.o.v0 = rows) (h0 : rows ≠ [])
    (hr : rangeWhy g.bytesLen (if g.swz then 64 else 4) (rows.map fun y => (y.2, if m = 1 then 128 else 64)) = none) :
    x.Loads g (rows.map fun y => (y.2, if m = 1 then 128 else 64)) g.swz
      (.latch (rows.map fun y => BitVec.ofNat 2048 (g.bytes.nat y.2 (if m = 1 then 128 else 64)))) 0 where
  loads := by rw [hop]; decide
  touch := mga_touch hm hop hf hrows hr
  some_reads := by simpa using h0
  act h t := by
    unfold GOp.act
    simp only [hop, hm, hrows]
    rfl
  kept := nofun

end

/-- The first numbers that satisfy a test are the numbers below their count. -/
theorem takeWhile_range (p : Nat → Bool) (n : Nat) :
    (List.range n).takeWhile p = List.range ((List.range n).takeWhile p).length := by
  induction n with
  | zero => rfl
  | succ n ih =>
    rw [List.range_succ, List.takeWhile_append]
    split
    · cases hp : p n
      · simp [hp]
      · simp [hp, List.range_succ]
    · exact ih

theorem mgaRows_eq (base : Dword) (stride : Nat) (v : Vec) : mgaRows base stride v =
    (List.range ((List.range 8).takeWhile fun j => !bit (lane v j) 31).length).map fun j =>
      (j, base.toNat + laneN v j * stride) := by
  rw [← takeWhile_range]
  rfl

/-! ### The slots (R159, R161) -/

/-- The access of an MWL, and that of an MGA, with what it keeps from its issue. -/
def mwlOp (g r : BitVec 6) (h : SlotRec) (o : Opnds) (org : Origin) : GOp := ⟨64, g.toNat, r.setWidth 64, h, o, org⟩
def mgaOp (g : BitVec 6) (h : SlotRec) (o : Opnds) (org : Origin) : GOp := ⟨65, g.toNat, 0, h, o, org⟩

section
variable {s : State} {i : Issue} {gd : BitVec 3} {g a r v : BitVec 6} {o : Opnds} {id : Nat} {x : Seg} {rs : List (Nat × Nat)}
  {swz : Bool} {pay : Payload} {fp : Fpst} (hb : s.bindingBefore i.tile i.cx g.toNat = some id)
include hb

theorem execMwl_accessed (h : s.Executes i gd [srcS a] o) (hr : s.Reaches i id x rs) (hv : x.InView rs swz)
    (hl : (mwlOp g r (i.slotOf o) o ((s.past i [srcS a]).origin id)).Loads x rs swz pay fp) :
    ∃ t, execMwl gd g a r s = .next t ∧ s.Accessed t i [srcS a] [i.loaded 4 pay fp] (s.loads i) id x.bytes :=
  ⟨_, runSlot_executes h _, gAccess_load (x := mwlOp g r (i.slotOf o) o {}) (m := true) h rfl hb hr hv hl⟩

theorem execMga_accessed (h : s.Executes i gd [srcS a, srcV v] o) (hr : s.Reaches i id x rs) (hv : x.InView rs swz)
    (hl : (mgaOp g (i.slotOf o) o ((s.past i [srcS a, srcV v]).origin id)).Loads x rs swz pay fp) :
    ∃ t, execMga gd g a v s = .next t ∧ s.Accessed t i [srcS a, srcV v] [i.loaded 14 pay fp] (s.loads i) id x.bytes :=
  ⟨_, runSlot_executes h _, gAccess_load (x := mgaOp g (i.slotOf o) o {}) (m := true) h rfl hb hr hv hl⟩

/-- A gather of no row does nothing. -/
theorem execMga_nothing (h : s.Executes i gd [srcS a, srcV v] o) (hg : s.seg? (s.partOf i.tile) id = some x)
    (ht : (mgaOp g (i.slotOf o) o ((s.past i [srcS a, srcV v]).origin id)).touch x = .ok { swz := swz }) :
    execMga gd g a v s = .next (s.past i [srcS a, srcV v]) :=
  (runSlot_executes h _).trans (congrArg _
    (gAccess_nothing (x := mgaOp g (i.slotOf o) o {}) (m := true) h.issue hb hg ht (show 65 ≠ 10 by decide)))

end

theorem row_of_imm (r : BitVec 6) : (fld (r.setWidth 64) 0 6).toNat = r.toNat := by
  have small := r.isLt
  rw [BitVec.extractLsb'_toNat, BitVec.toNat_setWidth]
  omega

/-- Settles O37: the checks of each load pass, and nothing hinders it. -/
theorem arrayLoadsReadSegments : Obligations.ArrayLoadsReadSegments := by
  unfold Obligations.ArrayLoadsReadSegments
  intro s i st gd g a r v o id x hb c
  split
  rename_i m af wt hm
  intro idle e fmtOf al q q' block words tag rb stride count row
  have mode : m ≤ 3 := by
    have le := bmodeOf_le (rd c.regs.me 0 0)
    rwa [show bmodeOf (rd c.regs.me 0 0) = _ from hm] at le
  have formats {f : Nat} (hf : x.fmt = 0 ∨ x.fmt = fmtOf f) : fmtMatch x.fmt (bmodeFmt m f) = true :=
    fmtMatch_of (bmodeFmt_eq mode f ▸ hf)
  have rows : mgaRows o.s0 stride o.v0 = (List.range count).map fun j => (j, row j) := mgaRows_eq ..
  rw [show 256 * x.len = x.bytesLen from Nat.mul_comm .., ← row_of_imm r]
  refine ⟨fun h => ⟨?_, ?_⟩, fun h hg hf => ⟨?_, ?_⟩⟩
  · intro h1 hf hr hv ha hl
    exact execMwl_accessed hb h hr hv (mwl_loads hm rfl h1 (formats hf) (rangeWhy_none (by simpa using ⟨ha, hl⟩)))
  · intro h1 hf ha hl hl' rs hr hv
    exact execMwl_accessed hb h hr hv (mwl_loads_n4q hm rfl h1 hf (n4qWhy_none (by simpa using ⟨⟨ha, hl⟩, ha, hl'⟩)))
  · intro h0
    have none : mgaRows o.s0 stride o.v0 = [] := by rw [rows, h0]; rfl
    exact execMga_nothing hb h hg
      (mga_touch (x := mgaOp g (i.slotOf o) o ((s.past i [srcS a, srcV v]).origin id)) hm rfl (formats hf) none rfl)
  · intro h0 rs hr hv hin
    have ranges : ((List.range count).map fun j => (j, row j)).map (fun y => (y.2, rb)) = rs := List.map_map
    have checks : rangeWhy x.bytesLen al (((List.range count).map fun j => (j, row j)).map fun y => (y.2, rb)) = none := by
      refine rangeWhy_none fun y hy => ?_
      obtain ⟨j, -, rfl⟩ := List.mem_map.1 (ranges ▸ hy)
      exact hin _ (ranges ▸ hy)
    have some : (List.range count).map (fun j => (j, row j)) ≠ [] := by simpa using Nat.ne_of_gt h0
    have loads := mga_loads (x := mgaOp g (i.slotOf o) o ((s.past i [srcS a, srcV v]).origin id)) hm rfl (formats hf) rows some
      checks
    rw [show List.map _ _ = rs from ranges, List.map_map] at loads
    exact execMga_accessed hb h hr hv loads

end Sys2Proof.Machine
end

