-- ==== Sys2Proof/Proofs/SequenceSlots.lean ====
section
/-! PROOFS. Sequence operations at their slot (R175, R182): the shadow set that becomes active, the entry that goes into the run
slot or behind it, and the obligation that says what a submission leaves or raises. -/

namespace Sys2Proof.Machine

/-! ### The shadow set becomes active (R175) -/

/-- Copying the entries `ks` of one register file over those of another. -/
theorem rd_foldl_wr {α : Type} {n : Nat} (f : Nat → α) (d : α) (k : Nat) (ks : List Nat) (m : Vector α n) :
    rd (ks.foldl (fun m k => wr m k (f k)) m) k d = if k ∈ ks ∧ k < n then f k else rd m k d := by
  induction ks generalizing m with
  | nil => simp
  | cons j ks ih =>
    rw [List.foldl_cons, ih, rd_wr]
    by_cases hj : j = k
    · subst hj
      by_cases hn : j < n <;> simp [hn]
    · simp [hj, Ne.symm hj]

theorem rd_activate_me (r : Regs) (k : Nat) :
    rd r.activate.me k 0 = if 8 ≤ k ∧ k < 32 then rd r.meShadow k 0 else rd r.me k 0 := by
  have copied : k ∈ (List.range 24).map (8 + ·) ∧ k < 32 ↔ 8 ≤ k ∧ k < 32 := by
    simp only [List.mem_map, List.mem_range, and_congr_left_iff]
    exact fun hk => ⟨fun ⟨j, _, e⟩ => by omega, fun h => ⟨k - 8, by omega, by omega⟩⟩
  rw [Regs.activate, rd_foldl_wr]
  exact if_congr copied rfl rfl

/-! ### The entry goes into the run slot or behind it (R175) -/

/-- A sequence operation enters the run slot if that slot is empty, and the wait slot otherwise. -/
def Tile.enterSeq (x : Tile) (q : SeqOp) : Tile :=
  if x.seqRun.isNone then { x with seqRun := some q } else { x with seqWait := some q }

theorem enterSeq_empty {x : Tile} (h : x.seqRun = none) (q : SeqOp) : x.enterSeq q = { x with seqRun := some q } := by
  simp [Tile.enterSeq, h]

theorem enterSeq_behind {x : Tile} {w : SeqOp} (h : x.seqRun = some w) (q : SeqOp) :
    x.enterSeq q = { x with seqWait := some q } := by
  simp [Tile.enterSeq, h]

@[simp] theorem ctx_enterSeq (x : Tile) (q : SeqOp) (cx : Cx) : (x.enterSeq q).ctx cx = x.ctx cx := by
  unfold Tile.enterSeq
  split <;> cases cx <;> rfl

/-- What a submission leaves: the next number is taken, om of the context rises, and an entry with the operation, its image, REPORT
and the segments of its operands, which has not been granted, enters its slot. -/
theorem seqPut_enters (s : State) (t : Nat) (cx : Cx) (slot op : Nat) (img : List Dword) (report : Bool)
    (xs : List (SqOperand × Seg)) (after : Nat) (start : Option Nat) :
    ∃ q : SeqOp, (q.op = op ∧ q.image = img ∧ q.cx = cx ∧ q.step = 0 ∧ q.start = start ∧ q.grant = none ∧
        q.report = report ∧ q.segs = distinct (xs.map fun y => y.2.id)) ∧
      s.seqPut t cx slot op img report xs after start =
        (({ s with fresh := s.fresh + 1 } : State).modCtx t cx fun c => { c with om := c.om + 1 }).modTile t (·.enterSeq q) :=
  ⟨_, ⟨rfl, rfl, rfl, rfl, rfl, rfl, rfl, rfl⟩, rfl⟩

/-! ### The slot (R175, R182) -/

theorem sqSlot_error {s : State} {op : Nat} {e : Nat × Dword} (h : SlotRec)
    (he : s.sqCheck s.here.1 s.here.2 op s.cur.regs.image = .error e) : s.sqSlot h op = s.raise h e.1 e.2 := by
  simp only [State.sqSlot, he]

theorem sqSlot_ok {s : State} {op : Nat} {xs : List (SqOperand × Seg)} (h : SlotRec)
    (hx : s.sqCheck s.here.1 s.here.2 op s.cur.regs.image = .ok xs) :
    s.sqSlot h op = (s.seqPut s.here.1 s.here.2 h.slot op s.cur.regs.image (bit s.cur.regs.meflags 0) xs (s.cur.tick + 1)
      none).modCur (·.mapRegs (·.activate)) := by
  simp only [State.sqSlot, hx]

section
variable {s : State} {i : Issue} {gd : BitVec 3} {o : Opnds} {op : Nat}

/-- An operation whose submission checks fail raises its cause and does nothing else. -/
theorem sqForm_raises (h : s.Executes i gd [] o) {e : Nat × Dword}
    (he : (s.past i []).sqCheck i.tile i.cx op (s.regsOf i).image = .error e) :
    sqForm op gd s = .next (s.raises i [] o e.1 e.2) := by
  rw [sqForm, runSlot_executes h, sqSlot_error _ he, raise_past]

/-- The state in which the slot has submitted the entry `q`. -/
def State.submits (s : State) (i : Issue) (q : SeqOp) : State :=
  ((({ s.past i [] with fresh := s.fresh + 1 } : State).modCtx i.tile i.cx fun c => { c with om := c.om + 1 }).modTile i.tile
    (·.enterSeq q)).modCtx i.tile i.cx (·.mapRegs (·.activate))

theorem submits_tile (s : State) (i : Issue) (q : SeqOp) : (s.submits i q).tile i.tile =
    (((s.tile i.tile).modCtx i.cx fun c => { c with om := c.om + 1 }).enterSeq q).modCtx i.cx (·.mapRegs (·.activate)) := by
  simp only [State.submits, modCtx_tile, tile_modTile]
  rfl

theorem submits_ctx (s : State) (i : Issue) (q : SeqOp) : (s.submits i q).ctx i.tile i.cx =
    { s.ctx i.tile i.cx with om := (s.ctx i.tile i.cx).om + 1, regs := (s.ctx i.tile i.cx).regs.activate } := by
  rw [State.ctx, submits_tile, Tile.ctx_modCtx, ctx_enterSeq, Tile.ctx_modCtx]
  rfl

theorem submits_empty {q : SeqOp} (h : (s.tile i.tile).seqRun = none) :
    ((s.submits i q).tile i.tile).seqRun = some q ∧
      ((s.submits i q).tile i.tile).seqWait = (s.tile i.tile).seqWait := by
  rw [submits_tile, enterSeq_empty (by simpa using h)]
  simp

theorem submits_behind {q w : SeqOp} (h : (s.tile i.tile).seqRun = some w) :
    ((s.submits i q).tile i.tile).seqRun = some w ∧ ((s.submits i q).tile i.tile).seqWait = some q := by
  rw [submits_tile, enterSeq_behind (by simpa using h)]
  simpa using h

/-- An operation whose submission checks pass submits its entry. -/
theorem sqForm_submits (h : s.Executes i gd [] o) {xs : List (SqOperand × Seg)}
    (hx : (s.past i []).sqCheck i.tile i.cx op (s.regsOf i).image = .ok xs) :
    ∃ q : SeqOp, (q.op = op ∧ q.image = (s.regsOf i).image ∧ q.cx = i.cx ∧ q.step = 0 ∧ q.grant = none ∧
        q.report = bit (s.regsOf i).meflags 0 ∧ q.segs = distinct (xs.map fun y => y.2.id)) ∧
      sqForm op gd s = .next (s.submits i q) := by
  obtain ⟨q, ⟨hop, himg, hcx, hstep, -, hgrant, hreport, hsegs⟩, hq⟩ :=
    seqPut_enters (s.past i []) i.tile i.cx (i.slotOf o).slot op (s.regsOf i).image (bit (s.regsOf i).meflags 0) xs
      ((s.ctx i.tile i.cx).tick + 1) none
  refine ⟨q, ⟨hop, himg, hcx, hstep, hgrant, hreport, hsegs⟩, ?_⟩
  rw [sqForm, runSlot_executes h, sqSlot_ok _ hx]
  exact congrArg (fun u : State => Host.Outcome.next (u.modCur (·.mapRegs (·.activate)))) hq

end

/-- The slot of each sequence operation is that of its opcode. -/
theorem exec_sequence (st : BitVec 1) (gd : BitVec 3) (s : State) :
    ∀ p ∈ ([(.mmul st gd, 0x10), (.mmulR st gd, 0x11), (.mlu st gd, 0x12), (.mluR st gd, 0x13), (.mchol st gd, 0x14),
        (.mcholR st gd, 0x15), (.mqr st gd, 0x16), (.mqrR st gd, 0x17), (.mtrs st gd, 0x18), (.mperm st gd, 0x19)] :
        List (Instr × Nat)), exec p.1 s = sqForm p.2 gd s := by
  simp only [List.forall_mem_cons]
  exact ⟨rfl, rfl, rfl, rfl, rfl, rfl, rfl, rfl, rfl, rfl, fun _ h => nomatch h⟩

/-- Settles O39: each operation is the slot of its opcode, and by its checks it raises their cause or submits its entry. -/
theorem sequenceOperationsAreSubmitted : Obligations.SequenceOperationsAreSubmitted := by
  unfold Obligations.SequenceOperationsAreSubmitted
  intro s i st gd o h c img p hp
  rw [exec_sequence st gd s p hp]
  refine ⟨fun e he => sqForm_raises h he, fun xs hx => ?_⟩
  obtain ⟨q, ⟨hop, himg, hcx, hstep, hgrant, hreport, hsegs⟩, hq⟩ := sqForm_submits h hx
  refine ⟨_, q, hq, rfl, hop, himg, hcx, hstep, hgrant, hreport, hsegs, ?_, fun k hk hk' => ?_, fun k hk => ?_,
    submits_empty, fun w => submits_behind, rfl, rfl⟩
  · rw [submits_ctx]
  · rw [submits_ctx, rd_activate_me, if_pos ⟨hk, hk'⟩]
  · rw [submits_ctx, rd_activate_me, if_neg (by omega)]

end Sys2Proof.Machine
end

