-- ==== Sys2Proof/Proofs/AccessChecks.lean ====
section
/-! PROOFS. What each core access touches where its checks pass (R200, R205 to R208, R384), and numbers read from a memory (R5). -/

namespace Sys2Proof.Machine

/-! ### The checks of each form (R200, R205 to R208, R384) -/

/-- The outcome of a check of ranges or blocks: SEGB with its WHY and offset, or what is touched. -/
def GOp.checked (x : GOp) (why : Option (Nat × Nat)) (w : Touch) : Except (Nat × Dword) Touch :=
  match why with
  | some y => .error (Cause.segb, segInfo x.name y.1 y.2)
  | none => .ok w

@[simp] theorem checked_none (x : GOp) (w : Touch) : x.checked none w = .ok w := rfl
@[simp] theorem checked_some (x : GOp) (y : Nat × Nat) (w : Touch) :
    x.checked (some y) w = .error (Cause.segb, segInfo x.name y.1 y.2) := rfl

/-- The byte ranges of the selected lanes, with the offset of each. -/
def laneRanges (sel : Dword) (off : Nat → Nat) : List (Nat × Nat) :=
  ((List.range 64).filter fun n => bit sel n).map fun n => (off n, 4)

/-- The offset of each lane of a gather or scatter (R207). -/
def GOp.laneOff (x : GOp) (n : Nat) : Nat := (x.o.s0 + (lane x.o.v0 n).setWidth 64).toNat

/-- A form that a segment of N4Q format does not allow (R206, R207). -/
def GOp.refusesN4q (x : GOp) : Except (Nat × Dword) Touch := .error (Cause.fmt, segInfo x.name 2 x.eo)

section
variable (x : GOp) (g : Seg)

theorem touch_scalarLoad (h : x.op ≤ 6) : x.touch g =
    x.checked (rangeWhy g.bytesLen (gSize x.op) [(x.eo, gSize x.op)]) { reads := [(x.eo, gSize x.op)] } := by
  obtain ⟨op, name, imm, r, o, org⟩ := x
  match op, h with
  | 0, _ | 1, _ | 2, _ | 3, _ | 4, _ | 5, _ | 6, _ => rfl

theorem touch_scalarStore (h : 16 ≤ x.op ∧ x.op ≤ 19) : x.touch g =
    x.checked (rangeWhy g.bytesLen (gSize x.op) [(x.eo, gSize x.op)]) { writes := [(x.eo, gSize x.op)] } := by
  obtain ⟨op, name, imm, r, o, org⟩ := x
  obtain ⟨lo, hi⟩ := h
  interval_cases op <;> rfl

theorem touch_atomic (h : 24 ≤ x.op ∧ x.op ≤ 29) : x.touch g =
    x.checked (rangeWhy g.bytesLen (gSize x.op) [(x.eo, gSize x.op)])
      { reads := [(x.eo, gSize x.op)], writes := [(x.eo, gSize x.op)], atomic := true } := by
  obtain ⟨op, name, imm, r, o, org⟩ := x
  obtain ⟨lo, hi⟩ := h
  interval_cases op <;> rfl

theorem touch_ldv (h : x.op = 8) : x.touch g =
    if g.fmt = 8 then
      x.checked (n4qWhy g.bytesLen [x.eo])
        { reads := [((n4qAt x.eo).1, 16), ((n4qAt x.eo).2.1, 1), ((n4qAt x.eo).2.2, 32)] }
    else x.checked (rangeWhy g.bytesLen 4 [(x.eo, 256)]) { reads := [(x.eo, 256)] } := by
  obtain ⟨op, name, imm, r, o, org⟩ := x
  subst h
  rfl

theorem touch_ldvS (h : x.op = 9) : x.touch g =
    if g.fmt = 8 then x.refusesN4q
    else x.checked (rangeWhy g.bytesLen 256 [(x.eo, 256)]) { reads := [(x.eo, 256)], swz := true } := by
  obtain ⟨op, name, imm, r, o, org⟩ := x
  subst h
  rfl

theorem touch_stv (h : x.op = 20) : x.touch g =
    if g.fmt = 8 then
      x.checked (n4qWhy g.bytesLen [x.eo])
        { reads := [((n4qAt x.eo).1, 16)], writes := [((n4qAt x.eo).2.1, 1), ((n4qAt x.eo).2.2, 32)] }
    else x.checked (rangeWhy g.bytesLen 4 [(x.eo, 256)]) { writes := [(x.eo, 256)] } := by
  obtain ⟨op, name, imm, r, o, org⟩ := x
  subst h
  rfl

theorem touch_stvS (h : x.op = 21) : x.touch g =
    if g.fmt = 8 then x.refusesN4q
    else x.checked (rangeWhy g.bytesLen 256 [(x.eo, 256)]) { writes := [(x.eo, 256)], swz := true } := by
  obtain ⟨op, name, imm, r, o, org⟩ := x
  subst h
  rfl

theorem touch_stvm (h : x.op = 22) : x.touch g =
    if g.fmt = 8 then x.refusesN4q
    else
      let rs := laneRanges x.org.lanes fun n => x.eo + 4 * n
      if rs.isEmpty then .ok {}
      else x.checked (if x.eo % 4 ≠ 0 then some (2, x.eo) else rangeWhy g.bytesLen 4 rs) { writes := rs } := by
  obtain ⟨op, name, imm, r, o, org⟩ := x
  subst h
  rfl

theorem laneOffs_ranges : (laneOffs x.org.lanes x.o.s0 x.o.v0).map (fun y => (y.2, 4)) = laneRanges x.org.lanes x.laneOff :=
  List.map_map

theorem touch_ldvg (h : x.op = 10) : x.touch g =
    if g.fmt = 8 then x.refusesN4q
    else x.checked (rangeWhy g.bytesLen 4 (laneRanges x.org.lanes x.laneOff)) { reads := laneRanges x.org.lanes x.laneOff } := by
  rw [← laneOffs_ranges]
  obtain ⟨op, name, imm, r, o, org⟩ := x
  subst h
  rfl

theorem touch_stvs (h : x.op = 23) : x.touch g =
    if g.fmt = 8 then x.refusesN4q
    else x.checked (rangeWhy g.bytesLen 4 (laneRanges x.org.lanes x.laneOff)) { writes := laneRanges x.org.lanes x.laneOff } := by
  rw [← laneOffs_ranges]
  obtain ⟨op, name, imm, r, o, org⟩ := x
  subst h
  rfl

end

/-- A range that is aligned and inside its segment passes. -/
theorem rangeWhy_one {len al e n : Nat} (ha : e % al = 0) (hl : e + n ≤ len) : rangeWhy len al [(e, n)] = none :=
  rangeWhy_none (by simpa using ⟨ha, hl⟩)

theorem n4qWhy_one {len e : Nat} (ha : e % 64 = 0) (hl : (n4qAt e).2.2 + 32 ≤ len) : n4qWhy len [e] = none :=
  n4qWhy_none (by simpa using ⟨ha, hl⟩)

theorem bytesLen_eq (g : Seg) : g.bytesLen = 256 * g.len := Nat.mul_comm ..

theorem rangeWhy_lanes {len : Nat} {sel : Dword} {off : Nat → Nat}
    (h : ∀ n ∈ (List.range 64).filter (fun n => bit sel n), off n % 4 = 0 ∧ off n + 4 ≤ len) :
    rangeWhy len 4 (laneRanges sel off) = none := by
  refine rangeWhy_none fun y hy => ?_
  obtain ⟨n, hn, rfl⟩ := List.mem_map.1 hy
  exact h n hn

theorem laneRanges_isEmpty (sel : Dword) (off : Nat → Nat) : (laneRanges sel off).isEmpty = decide (sel = 0) := by
  rw [laneRanges, List.isEmpty_map, selected_isEmpty]

theorem laneRanges_ne_nil {sel : Dword} (h : sel ≠ 0) (off : Nat → Nat) : laneRanges sel off ≠ [] := by
  rw [← List.isEmpty_eq_false_iff, laneRanges_isEmpty, decide_eq_false h]

/-! ### Numbers in memory (R5) -/

@[simp] theorem bytes_length (m : Memory) (a n : Nat) : (m.bytes a n).length = n := by
  induction n generalizing a with
  | zero => rfl
  | succ n ih => rw [Memory.bytes, List.length_cons, ih]

theorem bytes_getElem (m : Memory) (a n k : Nat) (h : k < (m.bytes a n).length) : (m.bytes a n)[k] = m.read (a + k) := by
  induction n generalizing a k with
  | zero => cases h
  | succ n ih =>
    cases k with
    | zero => rfl
    | succ k =>
      show (m.bytes (a + 1) n)[k]'_ = _
      rw [ih]
      exact congrArg m.read (by omega)

theorem bytes_congr {m q : Memory} {a n : Nat} (h : ∀ b, b < n → m.read (a + b) = q.read (a + b)) :
    m.bytes a n = q.bytes a n := by
  refine List.ext_getElem (by simp) fun k hk _ => ?_
  rw [bytes_getElem, bytes_getElem]
  exact h k (by simpa using hk)

/-- A number depends on its own bytes alone. -/
theorem nat_congr {m q : Memory} {a n : Nat} (h : ∀ b, b < n → m.read (a + b) = q.read (a + b)) : m.nat a n = q.nat a n := by
  rw [Memory.nat, Memory.nat, bytes_congr h]

theorem nat_one (m : Memory) (a : Nat) : m.nat a 1 = (m.read a).toNat := Nat.add_zero _

theorem bytesNat_lt (bs : List Byte) : bytesNat bs < 256 ^ bs.length := by
  induction bs with
  | nil => exact Nat.one_pos
  | cons b r ih =>
    have := b.isLt
    rw [bytesNat, List.length_cons, pow_succ]
    omega

theorem nat_lt (m : Memory) (a n : Nat) : m.nat a n < 256 ^ n := by
  simpa [Memory.nat] using bytesNat_lt (m.bytes a n)

@[simp] theorem natBytes_length (n v : Nat) : (natBytes n v).length = n := by
  induction n generalizing v with
  | zero => rfl
  | succ n ih => rw [natBytes, List.length_cons, ih]

theorem natBytes_getElem (n v k : Nat) (h : k < (natBytes n v).length) : (natBytes n v)[k] = BitVec.ofNat 8 (v / 256 ^ k) := by
  induction n generalizing v k with
  | zero => cases h
  | succ n ih =>
    cases k with
    | zero => simp [natBytes]
    | succ k =>
      show (natBytes n (v / 256))[k]'_ = _
      rw [ih, Nat.div_div_eq_div_mul, ← pow_succ']

theorem bytesNat_natBytes (n v : Nat) : bytesNat (natBytes n v) = v % 256 ^ n := by
  induction n generalizing v with
  | zero => rw [pow_zero, Nat.mod_one, natBytes, bytesNat]
  | succ n ih =>
    rw [natBytes, bytesNat, ih, BitVec.toNat_ofNat, pow_succ' 256 n]
    exact Nat.mod_mul.symm

/-- A byte of a stored number. -/
theorem read_storeNat {m : Memory} (hm : m.wf = true) (a v : Nat) {n b : Nat} (h : b < n) :
    (m.storeNat a n v).read (a + b) = BitVec.ofNat 8 (v / 256 ^ b) := by
  rw [Memory.storeNat, read_store_inside _ _ _ _ hm (by simpa using h), natBytes_getElem]

theorem read_storeNat_other (m : Memory) {a n v b : Nat} (h : b < a ∨ a + n ≤ b) : (m.storeNat a n v).read b = m.read b :=
  read_store_other _ _ _ _ (by simpa using h)

/-- A stored number is read back. -/
theorem nat_storeNat {m : Memory} (hm : m.wf = true) (a n v : Nat) : (m.storeNat a n v).nat a n = v % 256 ^ n := by
  have back := bytes_store (natBytes n v) m a hm
  rw [natBytes_length] at back
  rw [Memory.nat, Memory.storeNat, back, bytesNat_natBytes]

theorem nat_storeNat_other (m : Memory) {a n v c k : Nat} (h : c + k ≤ a ∨ a + n ≤ c) :
    (m.storeNat a n v).nat c k = m.nat c k :=
  nat_congr fun b hb => read_storeNat_other m (by omega)

end Sys2Proof.Machine
end

