-- ==== Sys2Proof/Proofs/SegmentLoads.lean ====
section
/-! PROOFS. The loads of class G (R205 to R207, R119): what each delivers where its checks pass, the gather of no lane, and the
obligations that say what scalar loads, vector loads and the gather read. -/

namespace Sys2Proof.Machine

/-! ### The slots of class G (R199) -/

/-- The access of the slot in hand, of operation `op` on the name `g`. -/
def Issue.access (i : Issue) (op : Nat) (g : BitVec 6) (imm : Dword) (o : Opnds) (org : Origin) : GOp :=
  ⟨op, g.toNat, imm, i.slotOf o, o, org⟩

/-- The operands are those of the slot, the offset that of a form without immediate. -/
theorem access_eo (i : Issue) (op : Nat) (g : BitVec 6) (o : Opnds) (org : Origin) :
    (i.access op g 0 o org).eo = o.s0.toNat := congrArg BitVec.toNat (BitVec.add_zero o.s0)

section
variable {s : State} {i : Issue} {gd : BitVec 3} {g a : BitVec 6} {o : Opnds} {op l : Nat}

theorem gLoad_executes (h : s.Executes i gd [srcS a] o) (k : BitVec 6) : gLoad op l gd g a k s =
    .next ((s.past i [srcS a]).gAccess (i.access op g (immS 6 k.toNat i.lits) o {}) l false) := by
  rw [gLoad, runSlot_executes h, slotOf_immS h.first]
  rfl

theorem gData_executes {src : List Rd} (h : s.Executes i gd (srcS a :: src) o) : gData op l src gd g a s =
    .next ((s.past i (srcS a :: src)).gAccess (i.access op g 0 o {}) l false) :=
  runSlot_executes h _

end

/-! ### Loads whose checks pass (R205, R206) -/

section
variable {x : GOp} {g : Seg}

theorem scalar_loads (hop : x.op ≤ 6) (hr : rangeWhy g.bytesLen (gSize x.op) [(x.eo, gSize x.op)] = none) :
    x.Loads g [(x.eo, gSize x.op)] false (.scalar 28 (loadExt x.op (g.bytes.nat x.eo (gSize x.op)))) 0 where
  loads := by
    simp only [gLoads, gStores, Bool.or_eq_true, decide_eq_true_eq, Bool.and_eq_false_iff, decide_eq_false_iff_not]
    omega
  touch := by rw [touch_scalarLoad x g hop, hr, checked_none]
  some_reads := List.cons_ne_nil _ _
  act h t := by
    obtain ⟨op, name, imm, r, o, org⟩ := x
    match op, hop with
    | 0, _ | 1, _ | 2, _ | 3, _ | 4, _ | 5, _ | 6, _ => rfl
  kept := nofun

theorem ldv_loads (hop : x.op = 8) (hf : g.fmt ≠ 8) (hr : rangeWhy g.bytesLen 4 [(x.eo, 256)] = none) :
    x.Loads g [(x.eo, 256)] false (.vector 28 (BitVec.ofNat 2048 (g.bytes.nat x.eo 256))) 0 where
  loads := by rw [hop]; decide
  touch := by rw [touch_ldv x g hop, if_neg hf, hr, checked_none]
  some_reads := List.cons_ne_nil _ _
  act h t := by
    unfold GOp.act
    simp only [hop, if_neg hf]
    rfl
  kept := nofun

theorem ldvS_loads (hop : x.op = 9) (hf : g.fmt ≠ 8) (hr : rangeWhy g.bytesLen 256 [(x.eo, 256)] = none) :
    x.Loads g [(x.eo, 256)] true (.vector 28 (BitVec.ofNat 2048 (g.bytes.nat x.eo 256))) 0 where
  loads := by rw [hop]; decide
  touch := by rw [touch_ldvS x g hop, if_neg hf, hr, checked_none]
  some_reads := List.cons_ne_nil _ _
  act h t := by
    unfold GOp.act
    simp only [hop]
    rfl
  kept := nofun

/-! ### N4Q blocks (R118, R119) -/

theorem ofLanesFs_congr {f g : Nat → Nat × Fpst} (h : ∀ n, n < 64 → f n = g n) : ofLanesFs f = ofLanesFs g := by
  have lanes (k : Nat) (hk : k ≤ 64) : lanesFs f k = lanesFs g k := by
    induction k with
    | zero => rfl
    | succ k ih => rw [lanesFs, lanesFs, ih (by omega), h k (by omega)]
  rw [ofLanesFs, ofLanesFs, lanes 64 (Nat.le_refl _)]

/-- Of the two codes of each byte, code `n` is half `n % 2` of byte `n / 2`. -/
theorem nibbles_getD (bs : List Byte) (n : Nat) : (nibbles bs).getD n 0 = (bs.getD (n / 2) 0).toNat / 16 ^ (n % 2) % 16 := by
  induction bs generalizing n with
  | nil => simp [nibbles]
  | cons b r ih =>
    have byte := b.isLt
    have split : nibbles (b :: r) = b.toNat % 16 :: b.toNat / 16 :: nibbles r := rfl
    match n with
    | 0 => simp [split]
    | 1 => simpa [split] using (Nat.mod_eq_of_lt (show b.toNat / 16 < 16 by omega)).symm
    | n + 2 =>
      rw [split, List.getD_cons_succ, List.getD_cons_succ, ih, Nat.add_div_right n (by decide), Nat.add_mod_right,
        List.getD_cons_succ]

theorem nibbles_length (bs : List Byte) : (nibbles bs).length = 2 * bs.length := by
  induction bs with
  | nil => rfl
  | cons b r ih =>
    show (nibbles r).length + 1 + 1 = _
    rw [ih, List.length_cons]
    omega

/-- The values of a block (R119), code by code. -/
theorem n4qBlock_getD (g : Seg) (e : Nat) {n : Nat} (h : n < 64) : (g.n4qBlock e).getD n (0, 0) =
    n4qDecode (g.bytes.nat (n4qAt e).1 4) (g.bytes.read (n4qAt e).2.1).toNat
      ((g.bytes.read ((n4qAt e).2.2 + n / 2)).toNat / 16 ^ (n % 2) % 16) := by
  have inside : n < (nibbles (g.bytes.bytes (n4qAt e).2.2 32)).length := by rw [nibbles_length, bytes_length]; omega
  have code := nibbles_getD (g.bytes.bytes (n4qAt e).2.2 32) n
  have byte : (g.bytes.bytes (n4qAt e).2.2 32).getD (n / 2) 0 = g.bytes.read ((n4qAt e).2.2 + n / 2) := by
    rw [List.getD_eq_getElem _ _ (by rw [bytes_length]; omega), bytes_getElem]
  rw [byte, List.getD_eq_getElem _ _ inside] at code
  rw [Seg.n4qBlock, List.getD_eq_getElem _ _ (by rwa [List.length_map]), List.getElem_map, code]
  show n4qDecode (g.bytes.nat _ 4) (g.bytes.nat _ 1) _ = _
  rw [nat_one]

/-- The vector of a block (R119), with the conditions of its decoding. -/
def Memory.n4qVec (m : Memory) (e : Nat) : Vec × Fpst := ofLanesFs fun n =>
  n4qDecode (m.nat (n4qAt e).1 4) (m.read (n4qAt e).2.1).toNat ((m.read ((n4qAt e).2.2 + n / 2)).toNat / 16 ^ (n % 2) % 16)

theorem act_ldv_n4q (hop : x.op = 8) (hf : g.fmt = 8) :
    x.act g = (g.bytes, some (.vector 28 (g.bytes.n4qVec x.eo).1, (g.bytes.n4qVec x.eo).2)) := by
  rw [Memory.n4qVec, ← ofLanesFs_congr fun n hn => n4qBlock_getD g x.eo hn]
  unfold GOp.act
  simp only [hop, if_pos hf]

theorem ldv_loads_n4q (hop : x.op = 8) (hf : g.fmt = 8) (hr : n4qWhy g.bytesLen [x.eo] = none) :
    x.Loads g [((n4qAt x.eo).1, 16), ((n4qAt x.eo).2.1, 1), ((n4qAt x.eo).2.2, 32)] false
      (.vector 28 (g.bytes.n4qVec x.eo).1) (g.bytes.n4qVec x.eo).2 where
  loads := by rw [hop]; decide
  touch := by rw [touch_ldv x g hop, if_pos hf, hr, checked_none]
  some_reads := List.cons_ne_nil _ _
  act _ _ := act_ldv_n4q hop hf
  kept := nofun

/-! ### The gather (R207) -/

theorem find_laneOffs (sel base : Dword) (v : Vec) {n : Nat} (hn : n < 64) :
    (laneOffs sel base v).find? (fun y => y.1 == n) =
      if bit sel n then some (n, (base + (lane v n).setWidth 64).toNat) else none := by
  split
  · next on =>
    have key (l : List Nat) (h : n ∈ l) : (l.map fun i => (i, (base + (lane v i).setWidth 64).toNat)).find? (fun y => y.1 == n) =
        some (n, (base + (lane v n).setWidth 64).toNat) := by
      induction l with
      | nil => cases h
      | cons j r ih =>
        rw [List.map_cons]
        by_cases e : j = n
        · rw [e, List.find?_cons_of_pos (by simp)]
        · rw [List.find?_cons_of_neg (by simpa using e)]
          exact ih ((List.mem_cons.1 h).resolve_left (Ne.symm e))
    exact key _ (by simpa using ⟨hn, on⟩)
  · next off =>
    rw [List.find?_eq_none]
    intro y hy
    obtain ⟨j, hj, rfl⟩ := List.mem_map.1 hy
    have hb := (List.mem_filter.1 hj).2
    simp only [beq_iff_eq]
    rintro rfl
    exact off hb

theorem ofLanes_congr {f g : Nat → Word} (h : ∀ n, n < 64 → f n = g n) : ofLanes f = ofLanes g :=
  lane_ext fun n hn => by rw [lane_ofLanes f hn, lane_ofLanes g hn, h n hn]

/-- What a gather delivers: the words of the selected lanes, 0 in the others. -/
def GOp.gathered (x : GOp) (g : Seg) : Vec :=
  ofLanes fun n => if bit x.org.lanes n then BitVec.ofNat 32 (g.bytes.nat (x.laneOff n) 4) else 0

theorem act_ldvg (hop : x.op = 10) : x.act g = (g.bytes, some (.vector 28 (x.gathered g), 0)) := by
  unfold GOp.act
  simp only [hop]
  refine congrArg (fun v => (g.bytes, some (Payload.vector 28 v, (0 : Fpst)))) (ofLanes_congr fun n hn => ?_)
  rw [find_laneOffs _ _ _ hn, GOp.laneOff]
  cases bit x.org.lanes n <;> rfl

theorem ldvg_loads (hop : x.op = 10) (hf : g.fmt ≠ 8) (hs : x.org.lanes ≠ 0)
    (hr : rangeWhy g.bytesLen 4 (laneRanges x.org.lanes x.laneOff) = none) :
    x.Loads g (laneRanges x.org.lanes x.laneOff) false (.vector 28 (x.gathered g)) 0 where
  loads := by rw [hop]; decide
  touch := by rw [touch_ldvg x g hop, if_neg hf, hr, checked_none]
  some_reads := laneRanges_ne_nil hs _
  act h t := act_ldvg hop
  kept := nofun

/-- A gather of no lane touches nothing, and stands for zeros. -/
theorem ldvg_touch_none (hop : x.op = 10) (hf : g.fmt ≠ 8) (hs : x.org.lanes = 0) : x.touch g = .ok {} := by
  have none : laneRanges x.org.lanes x.laneOff = [] := by rw [← List.isEmpty_iff, laneRanges_isEmpty, decide_eq_true hs]
  rw [touch_ldvg x g hop, if_neg hf, none]
  rfl

theorem ldvg_place_none (hop : x.op = 10) (hs : x.org.lanes = 0) : x.place = .vector 28 (ofLanes fun _ => 0) := by
  rw [GOp.place, act_ldvg hop]
  exact congrArg (Payload.vector 28) (ofLanes_congr fun n _ => if_neg (by simp [hs]))

end

/-- The gather of no lane counts in ol and delivers what stands for its datum. -/
theorem gAccess_noLane {s : State} {i : Issue} {gd : BitVec 3} {src : List Rd} {o : Opnds} {x : GOp} {l id : Nat} {g : Seg}
    {pay : Payload} (h : s.Executes i gd src o) (hh : x.h = i.slotOf o) (hb : s.binding i.tile i.cx x.name = some id)
    (hg : s.seg? (s.partOf i.tile) id = some g) (hop : x.op = 10)
    (ht : { x with org := (s.past i src).origin id }.touch g = .ok {})
    (hp : GOp.place { x with org := (s.past i src).origin id } = pay) :
    (s.past i src).gAccess x l false =
      ((s.past i src).modIssue fun z => { z with out := z.out ++ [i.loaded l pay] }).modCtx i.tile i.cx fun c =>
        { c with ol := c.ol + 1 } := by
  have bound : (s.past i src).binding i.tile i.cx x.name = some id := hb
  have found : (s.past i src).seg? (s.partOf i.tile) id = some g := hg
  have nothing : (Touch.all {}).isEmpty = true := rfl
  unfold State.gAccess
  simp only [past_here, past_partOf, Bool.false_eq_true, if_false, bound, found, ht, hp, nothing, if_true, if_pos hop]
  rw [hh, slotOf_slot h.first, slotOf_pc h.first, hop]
  rfl

/-! ### Loads at their slot -/

section
variable {s : State} {i : Issue} {gd : BitVec 3} {g a k v : BitVec 6} {o : Opnds} {id : Nat} {x : Seg} {rs : List (Nat × Nat)}
  {swz : Bool} {pay : Payload} {fp : Fpst} {op l : Nat} (hb : s.binding i.tile i.cx g.toNat = some id)
include hb

theorem gLoad_accessed (h : s.Executes i gd [srcS a] o) (hr : s.Reaches i id x rs) (hv : x.InView rs swz)
    (hl : (i.access op g (immS 6 k.toNat i.lits) o ((s.past i [srcS a]).origin id)).Loads x rs swz pay fp) :
    ∃ t, gLoad op l gd g a k s = .next t ∧ s.Accessed t i [srcS a] [i.loaded l pay fp] (s.loads i) id x.bytes :=
  ⟨_, gLoad_executes h k, gAccess_load (x := i.access op g _ o {}) (m := false) h rfl hb hr hv hl⟩

/-- A scalar load delivers the number at its offset, extended as its form says. -/
theorem scalarLoad_delivers (h : s.Executes i gd [srcS a] o) (hop : op ≤ 6) :
    let e := (o.s0 + immS 6 k.toNat i.lits).toNat
    let n := gSize op
    s.Reaches i id x [(e, n)] → x.InView [(e, n)] false → e % n = 0 → e + n ≤ 256 * x.len →
      ∃ t, gLoad op 8 gd g a k s = .next t ∧
        s.Accessed t i [srcS a] [i.loaded 8 (.scalar 28 (loadExt op (x.bytes.nat e n)))] (s.loads i) id x.bytes := by
  intro e n hr hv ha hl
  rw [← bytesLen_eq] at hl
  exact gLoad_accessed hb h hr hv (scalar_loads (x := i.access op g _ o _) hop (rangeWhy_one ha hl))

/-- A gather of no lane delivers zeros without an access. -/
theorem gather_none (h : s.Executes i gd [srcS a, srcV v] o) (hg : s.seg? (s.partOf i.tile) id = some x) (hf : x.fmt ≠ 8)
    (hs : (s.ctx i.tile i.cx).select = 0) :
    s.Accessed ((s.past i [srcS a, srcV v]).gAccess (i.access 10 g 0 o {}) 14 false) i [srcS a, srcV v]
      [i.loaded 14 (.vector 28 (ofLanes fun _ => 0))] (s.loads i) id x.bytes := by
  rw [gAccess_noLane h rfl hb hg rfl (ldvg_touch_none rfl hf hs) (ldvg_place_none rfl hs)]
  refine ⟨⟨i.acquire, rfl⟩, fun n => ?_, ⟨x, x, hg, hg, rfl⟩, fun _ _ _ => rfl, fun _ => rfl, rfl⟩
  split
  · next e => rw [e]; exact tile_putTile _ _ _
  · next e => exact tile_putTile_other _ (Ne.symm e) _

end

/-- Settles O22: each form is the scalar load of its operation. -/
theorem scalarLoadsDeliver : Obligations.ScalarLoadsDeliver := by
  unfold Obligations.ScalarLoadsDeliver
  intro s i st gd g a k o id x h hb e sext zext
  have key {op : Nat} (hop : op ≤ 6) := scalarLoad_delivers (k := k) (x := x) hb h hop
  simp only [List.forall_mem_cons]
  exact ⟨key (op := 0) (by decide), key (op := 1) (by decide), key (op := 2) (by decide), key (op := 3) (by decide),
    key (op := 4) (by decide), key (op := 5) (by decide), key (op := 6) (by decide), List.forall_mem_nil _⟩

/-- Settles O23: the checks of each form pass, and nothing hinders its access; a gather of no lane makes none. -/
theorem vectorLoadsDeliver : Obligations.VectorLoadsDeliver := by
  unfold Obligations.VectorLoadsDeliver
  intro s i st gd g a k v o id x hb e sel at_ on q code block
  rw [← bytesLen_eq]
  refine ⟨fun h => ⟨?_, ?_, ?_⟩, ?_⟩
  · intro hr hv hf ha hl
    exact gLoad_accessed hb h hr hv (ldv_loads rfl hf (rangeWhy_one ha hl))
  · intro hr hv hf ha hl
    exact gLoad_accessed hb h hr hv (ldvS_loads rfl hf (rangeWhy_one ha hl))
  · intro hr hv hf ha hl
    exact gLoad_accessed hb h hr hv (ldv_loads_n4q rfl hf (n4qWhy_one ha hl))
  · intro h hr hv hf hin
    by_cases hs : sel = 0
    · have zeros : (fun n => if bit sel n then BitVec.ofNat 32 (x.bytes.nat (at_ n) 4) else 0) = fun _ => (0 : Word) := by
        simp [hs]
      rw [zeros]
      exact ⟨_, gData_executes h, gather_none hb h hr.entry hf hs⟩
    · exact ⟨_, gData_executes h, gAccess_load (x := i.access 10 g 0 o {}) (m := false) h rfl hb hr hv
        (ldvg_loads (x := i.access 10 g 0 o _) rfl hf hs (rangeWhy_lanes hin))⟩

end Sys2Proof.Machine
end

