-- ==== Sys2Proof/Proofs/CoreStores.lean ====
section
/-! PROOFS. Core accesses that write (R199 to R203, R255, R258, R263): a store or local atomic that meets no pending range, no race
and no line of the other view, and everything that it leaves. -/

namespace Sys2Proof.Machine

/-! ### A write that nothing hinders (R201, R202, R263) -/

/-- A store or local atomic in hand on the segment `g` passes its checks: it touches `w`, leaves the bytes `m`, and delivers `out`
whatever the history and the time of use of the segment are. -/
structure GOp.Stores (x : GOp) (g : Seg) (w : Touch) (m : Memory) (out : Option (Payload × Fpst)) : Prop where
  stores : gStores x.op = true ∧ gLoads x.op = false
  touch : x.touch g = .ok w
  some_bytes : w.all ≠ []
  act : ∀ h t, x.act { g with hist := h, touch := t } = (m, out)

/-- What an access of latency `l` sends: its datum, or its conditions alone at issue + 1. -/
def Issue.delivers (i : Issue) (l : Nat) : Option (Payload × Fpst) → List Res
  | none => []
  | some (.status, fp) => [i.gives 1 .status fp]
  | some (p, fp) => [i.gives l p fp]

/-- The bundle has acquired the knowledge `k`. -/
def State.knows (s : State) (k : Clock) : State := s.modIssue fun z => { z with acquire := k }

/-- A write of the bundle `i` to `lines` in the view `swz` that has been made and has not retired (R201, R203). -/
def State.unretired (s : State) (i : Issue) (lines : List Nat) (swz : Bool) : Unretired :=
  ⟨agentOf i.tile i.cx, s.now + 1 + Config.freeDur s.free, (s.ctx i.tile i.cx).tick, lines, swz, false⟩

/-- The segment with a write that has not retired. -/
def Seg.awaits (g : Seg) (u : Unretired) : Seg := { g with unretired := g.unretired ++ [u] }

/-- A store adds its time of retirement to the context, and itself to its segment. -/
theorem willRetire_eq (s : State) (t : Nat) (cx : Cx) (tick id : Nat) (lines : List Nat) (swz : Bool) :
    s.willRetire t cx tick id lines swz =
      (State.modCtx { s with free := s.free + 1 } t cx fun c =>
        { c with stores := c.stores ++ [(s.now + 1 + Config.freeDur s.free, tick)] }).modSeg (s.partOf t) id
        (·.awaits ⟨agentOf t cx, s.now + 1 + Config.freeDur s.free, tick, lines, swz, false⟩) := rfl

/-- The state after a store of the bundle `i` with the view `swz`: the segment is `g`, the lines written `lines`. -/
def State.afterStore (s : State) (i : Issue) (src : List Rd) (out : List Res) (k : Clock) (g : Seg) (lines : List Nat)
    (swz : Bool) : State :=
  (((State.modCtx { ((s.past i src).knows k).putSeg (s.partOf i.tile) g with free := s.free + 1 } i.tile i.cx fun c =>
      { c with stores := c.stores ++ [(s.now + 1 + Config.freeDur s.free, (s.ctx i.tile i.cx).tick)] }).modSeg (s.partOf i.tile) g.id
      (·.awaits (s.unretired i lines swz))).modCtx i.tile i.cx fun c => { c with os := c.os + 1 }).modIssue fun z =>
    { z with out := z.out ++ out }

theorem tile_modCtx_eq (s : State) (t : Nat) (cx : Cx) (f : Ctx → Ctx) (n : Nat) :
    (s.modCtx t cx f).tile n = if n = t then (s.tile n).modCtx cx f else s.tile n := by
  split
  · next h => rw [h]; exact tile_putTile _ _ _
  · next h => exact tile_putTile_other _ (Ne.symm h) _

theorem modSeg_tile (s : State) (p id : Nat) (f : Seg → Seg) (n : Nat) : (s.modSeg p id f).tile n = s.tile n := rfl

/-- Changing a segment changes the directory of its partition and nothing else of any partition. -/
theorem modSeg_part (s : State) (p id q : Nat) (f : Seg → Seg) :
    { (s.modSeg p id f).part q with dir := [] } = { s.part q with dir := [] } := by
  by_cases h : p = q
  · subst h
    rw [State.modSeg, part_modPart]
  · rw [State.modSeg, part_modPart_other s h]

theorem afterStore_accessed (s : State) (i : Issue) (src : List Rd) (out : List Res) (k : Clock) (lines : List Nat) (swz : Bool)
    {g g' : Seg} {id : Nat} {m : Memory} (hg : s.seg? (s.partOf i.tile) id = some g)
    (hg' : g' = { g with bytes := m, hist := g'.hist, marks := g'.marks, touch := g'.touch, atoms := g'.atoms, wrote := g'.wrote }) :
    s.Accessed (s.afterStore i src out k g' lines swz) i src out (s.stores i) id m := by
  obtain ⟨hid, hvalid⟩ := seg?_some hg
  have id' : g'.id = id := by rw [hg', ← hid]
  have valid' : g'.valid = true := by rw [hg', ← hvalid]
  have found : ((s.past i src).knows k |>.putSeg (s.partOf i.tile) g').seg? (s.partOf i.tile) g'.id = some g' :=
    seg?_putSeg _ _ _ valid'
  have kept (y : Seg) (h : y.id = g'.id) : (y.awaits (s.unretired i lines swz)).id = g'.id ∧
      (y.awaits (s.unretired i lines swz)).valid = y.valid := ⟨h, rfl⟩
  refine ⟨⟨k, rfl⟩, fun n => ?_, ⟨g, g'.awaits (s.unretired i lines swz), hg, ?_, ?_⟩, fun p n h => ?_, fun p => ?_, rfl⟩
  · rw [State.afterStore, modIssue_tile, tile_modCtx_eq, modSeg_tile, tile_modCtx_eq]
    show (if n = i.tile then (if n = i.tile then (s.tile n).modCtx i.cx _ else s.tile n).modCtx i.cx _
      else if n = i.tile then (s.tile n).modCtx i.cx _ else s.tile n) = _
    split
    · next h => rw [modCtx_modCtx, h]; rfl
    · rfl
  · rw [← id']
    exact (seg?_modSeg _ _ _ _ kept).trans (congrArg _ found)
  · rw [hg']
    rfl
  · rw [← id'] at h
    exact (seg?_modSeg_other _ _ kept h).trans (seg?_putSeg_other ((s.past i src).knows k) g' h)
  · exact (modSeg_part _ _ _ _ _).trans (putSeg_part ((s.past i src).knows k) (s.partOf i.tile) p g')

/-- Two accesses that enter change the history of a segment and nothing else. -/
theorem enter_twice (g : Seg) (ls ls' : List Nat) (a b : Acc) :
    ∃ h, ((g.enter ls a).1.enter ls' b).1 = { g with hist := h } := by
  obtain ⟨h, e⟩ := enter_same g ls a
  obtain ⟨h', e'⟩ := enter_same { g with hist := h } ls' b
  rw [← e] at e'
  exact ⟨h', e'.trans (by rw [e])⟩

/-- Where nothing hinders the access of the slot in hand, its accesses to lines of its ranges are no race. -/
theorem reaches_race {s : State} {i : Issue} {id : Nat} {g : Seg} {rs ls : List (Nat × Nat)} (hr : s.Reaches i id g rs)
    (sub : ∀ x ∈ ls, x ∈ rs) {a : Acc} (ha : a.agent = agentOf i.tile i.cx)
    (hc : ∀ n, clockGet (s.ctx i.tile i.cx).clock n ≤ clockGet a.clock n) : g.race (linesOf ls) a = none := by
  refine race_none fun l hl hline y hy => ?_
  obtain ⟨r, hls, meets⟩ := linesOf_meets hline
  rcases hr.ordered l hl ⟨r, sub r hls, meets⟩ y hy with own | before
  · exact .inl (own.trans ha.symm)
  · exact .inr (Nat.le_trans before (hc _))

section
variable {s : State} {i : Issue} {id : Nat} {g : Seg} {w : Touch} {m : Memory} {out : Option (Payload × Fpst)} {x : GOp}

/-- The access of a store that nothing hinders. -/
theorem gMake_store (src : List Rd) (hx : x.org.seg = id ∧ x.org.clock = (s.ctx i.tile i.cx).clock) (hr : s.Reaches i id g w.all)
    (hv : g.InView w.reads w.swz) (hs : x.Stores g w m out) :
    ∃ k g', g' = { g with bytes := m, hist := g'.hist, marks := g'.marks, touch := g'.touch, atoms := g'.atoms, wrote := g'.wrote } ∧
      (s.past i src).gMake i.tile i.cx x [] = ((((s.past i src).knows k).putSeg (s.partOf i.tile) g').willRetire i.tile i.cx x.org.tick id
        (linesOf w.writes) w.swz, .ok out) := by
  obtain ⟨rfl, hclock⟩ := hx
  have found : (s.past i src).seg? (s.partOf i.tile) x.org.seg = some g := hr.entry
  have present : g.absent = false := by simp [Seg.absent, hr.resident]
  have reads (a : Acc) := reaches_race (a := a) hr (ls := w.reads) fun y hy => List.mem_append_left _ hy
  have writes (a : Acc) := reaches_race (a := a) hr (ls := w.writes) fun y hy => List.mem_append_right _ hy
  unfold State.gMake
  simp only [past_partOf, found, present, Bool.false_and, Bool.false_eq_true, if_false, hs.touch, hs.stores, if_true]
  generalize g.publishers (linesOf w.reads ++ linesOf w.writes) (clockJoin [] ((s.past i src).tile i.tile).handover) = know
  generalize (if w.atomic = true then aget g.atoms (x.eo / 8) [] else []) = prior
  generalize ha : (Acc.mk (agentOf i.tile i.cx) (accessTick x.org.tick x.op) (clockJoin (clockJoin x.org.clock know) prior) false false) = a
  generalize hb : (Acc.mk (agentOf i.tile i.cx) (accessTick x.org.tick x.op) (clockJoin (clockJoin x.org.clock know) prior) true
    w.atomic) = b
  generalize hl : (if w.atomic = true then [] else linesOf w.reads) = ls
  have known (n : Nat) : clockGet (s.ctx i.tile i.cx).clock n ≤ clockGet (clockJoin (clockJoin x.org.clock know) prior) n :=
    hclock ▸ Nat.le_trans (clockGet_join _ know n) (clockGet_join _ prior n)
  have race_r : g.race ls a = none := by
    rw [← hl, ← ha]
    split
    · exact race_nil g _
    · exact reads _ rfl known
  have race_w : g.race (linesOf w.writes) b = none := by
    rw [← hb]
    exact writes _ rfl known
  obtain ⟨hist, entered⟩ := enter_twice g ls (linesOf w.writes) a b
  have view : { g with hist := hist, touch := (s.past i src).now }.viewClash (linesOf w.reads) w.swz = none := viewClash_none hv
  have acts := hs.act hist (s.past i src).now
  simp only [race_r, race_w, entered, view, acts, Option.toList_none, List.append_nil, List.min?_nil]
  cases w.atomic with
  | false =>
    simp only [Bool.false_eq_true, if_false]
    refine ⟨clockJoin i.acquire know, _, ?_, rfl⟩
    split <;> rfl
  | true =>
    simp only [if_true]
    refine ⟨clockJoin (clockJoin i.acquire know) prior, _, ?_, rfl⟩
    split <;> rfl

theorem sends_nothing (s : State) : (s.modIssue fun z => { z with out := z.out ++ [] }) = s := by
  simp [State.modIssue]

/-- A store whose checks pass and that nothing hinders is made at its issue. -/
theorem gAccess_store {gd : BitVec 3} {src : List Rd} {o : Opnds} {l : Nat} (h : s.Executes i gd src o) (hh : x.h = i.slotOf o)
    (hb : s.binding i.tile i.cx x.name = some id) (hr : s.Reaches i id g w.all) (hv : g.InView w.reads w.swz)
    (hs : GOp.Stores { x with org := (s.past i src).origin id } g w m out) :
    s.Accessed ((s.past i src).gAccess x l false) i src (i.delivers l out) (s.stores i) id m := by
  have bound : (s.past i src).binding i.tile i.cx x.name = some id := hb
  have found : (s.past i src).seg? (s.partOf i.tile) id = some g := hr.entry
  have present : g.absent = false := by simp [Seg.absent, hr.resident]
  have some_bytes : w.all.isEmpty = false := by simpa using hs.some_bytes
  have free : (s.tile i.tile).waitsFor id w = [] := List.append_eq_nil_iff.2
    ⟨pending_nil (fun r hr' e y hy => hr.free r hr' e y (List.mem_append_left _ hy)) _,
      pending_nil (fun r hr' e y hy => hr.free r hr' e y (List.mem_append_right _ hy)) _⟩
  obtain ⟨k, g', hg', made⟩ := gMake_store (s := s) (i := i) (id := id) (x := { x with org := (s.past i src).origin id }) src
    ⟨rfl, rfl⟩ hr hv hs
  obtain ⟨stores, loads⟩ := hs.stores
  have same : g'.id = id := by rw [hg']; exact (seg?_some hr.entry).1
  have done : (s.past i src).gAccess x l false = s.afterStore i src (i.delivers l out) k g' (linesOf w.writes) w.swz := by
    unfold State.gAccess
    simp only [past_here, past_partOf, past_tile, bound, found, hs.touch, some_bytes, present, free, made, stores, loads,
      Bool.false_eq_true, if_false, ne_eq, not_true_eq_false]
    rw [hh, slotOf_slot h.first, slotOf_pc h.first, willRetire_eq, partOf_putSeg, ← same]
    match out with
    | none => exact (sends_nothing _).symm
    | some (p, fp) => cases p <;> rfl
  rw [done]
  exact afterStore_accessed s i src _ k _ _ hr.entry hg'

end

end Sys2Proof.Machine
end

