-- ==== Sys2Proof/Proofs/SegmentStores.lean ====
section
/-! PROOFS. The stores and local atomics of class G (R205 to R208, R120): the bytes that each writes where its checks pass, and the
obligations that say what stores, masked stores, scatters, block stores and atomics write. -/

namespace Sys2Proof.Machine

/-! ### Stores whose checks pass (R205, R206) -/

section
variable {x : GOp} {g : Seg}

theorem scalar_stores (hop : 16 ≤ x.op ∧ x.op ≤ 19) (hr : rangeWhy g.bytesLen (gSize x.op) [(x.eo, gSize x.op)] = none) :
    x.Stores g { writes := [(x.eo, gSize x.op)] } (g.bytes.storeNat x.eo (gSize x.op) x.o.s1.toNat) none where
  stores := by simp only [gStores, gLoads, Bool.and_eq_true, decide_eq_true_eq, Bool.or_eq_false_iff, decide_eq_false_iff_not]; omega
  touch := by rw [touch_scalarStore x g hop, hr, checked_none]
  some_bytes := List.cons_ne_nil _ _
  act h t := by
    obtain ⟨op, name, imm, r, o, org⟩ := x
    obtain ⟨lo, hi⟩ := hop
    interval_cases op <;> rfl

theorem stv_stores (hop : x.op = 20) (hf : g.fmt ≠ 8) (hr : rangeWhy g.bytesLen 4 [(x.eo, 256)] = none) :
    x.Stores g { writes := [(x.eo, 256)] } (g.bytes.storeNat x.eo 256 x.o.v0.toNat) none where
  stores := by rw [hop]; decide
  touch := by rw [touch_stv x g hop, if_neg hf, hr, checked_none]
  some_bytes := List.cons_ne_nil _ _
  act h t := by
    unfold GOp.act
    simp only [hop, if_neg hf]

theorem stvS_stores (hop : x.op = 21) (hf : g.fmt ≠ 8) (hr : rangeWhy g.bytesLen 256 [(x.eo, 256)] = none) :
    x.Stores g { writes := [(x.eo, 256)], swz := true } (g.bytes.storeNat x.eo 256 x.o.v0.toNat) none where
  stores := by rw [hop]; decide
  touch := by rw [touch_stvS x g hop, if_neg hf, hr, checked_none]
  some_bytes := List.cons_ne_nil _ _
  act h t := by
    unfold GOp.act
    simp only [hop]

/-! ### Masked stores and scatters (R206, R207) -/

/-- The words of the lanes `ls` of `v` stored each at its offset, in the order of the list. -/
def Memory.storeLanes (m : Memory) (off : Nat → Nat) (v : Vec) (ls : List Nat) : Memory :=
  ls.foldl (fun m n => m.storeNat (off n) 4 (laneN v n)) m

theorem storeLanes_cons (m : Memory) (off : Nat → Nat) (v : Vec) (n : Nat) (ls : List Nat) :
    m.storeLanes off v (n :: ls) = (m.storeNat (off n) 4 (laneN v n)).storeLanes off v ls := rfl

/-- A byte that no lane reaches is unchanged. -/
theorem read_storeLanes_other {off : Nat → Nat} (v : Vec) {ls : List Nat} (m : Memory) {b : Nat}
    (h : ∀ n ∈ ls, b < off n ∨ off n + 4 ≤ b) : (m.storeLanes off v ls).read b = m.read b := by
  induction ls generalizing m with
  | nil => rfl
  | cons n r ih =>
    obtain ⟨hn, hr⟩ := List.forall_mem_cons.1 h
    rw [storeLanes_cons, ih _ hr, read_storeNat_other m hn]

/-- The highest of the lanes that reach an aligned word writes it. -/
theorem nat_storeLanes {off : Nat → Nat} (v : Vec) {ls : List Nat} {m : Memory} (hm : m.wf = true)
    (rising : ls.Pairwise (· < ·)) (ha : ∀ n ∈ ls, off n % 4 = 0) {n : Nat} (hn : n ∈ ls)
    (last : ∀ k ∈ ls, off k = off n → k ≤ n) : (m.storeLanes off v ls).nat (off n) 4 = laneN v n := by
  induction ls generalizing m with
  | nil => cases hn
  | cons k r ih =>
    obtain ⟨below, rising'⟩ := List.pairwise_cons.1 rising
    obtain ⟨-, ha'⟩ := List.forall_mem_cons.1 ha
    by_cases hr : n ∈ r
    · exact ih (storeNat_wf m _ _ _ hm) rising' ha' hr fun j hj => last j (List.mem_cons_of_mem _ hj)
    · obtain rfl : n = k := (List.mem_cons.1 hn).resolve_right hr
      have apart : ∀ j ∈ r, off j ≠ off n := fun j hj same =>
        absurd (last j (List.mem_cons_of_mem _ hj) same) (Nat.not_le.2 (below j hj))
      have kept : (m.storeLanes off v (n :: r)).nat (off n) 4 = (m.storeNat (off n) 4 (laneN v n)).nat (off n) 4 := by
        rw [storeLanes_cons]
        refine nat_congr fun b hb => read_storeLanes_other v _ fun j hj => ?_
        have := ha' j hj
        have := ha n hn
        have := apart j hj
        omega
      rw [kept, nat_storeNat hm]
      exact Nat.mod_eq_of_lt (lane v n).isLt

theorem stvm_stores (hop : x.op = 22) (hf : g.fmt ≠ 8) (hs : x.org.lanes ≠ 0) (ha : x.eo % 4 = 0)
    (hr : rangeWhy g.bytesLen 4 (laneRanges x.org.lanes fun n => x.eo + 4 * n) = none) :
    x.Stores g { writes := laneRanges x.org.lanes fun n => x.eo + 4 * n }
      (g.bytes.storeLanes (fun n => x.eo + 4 * n) x.o.v0 ((List.range 64).filter fun n => bit x.org.lanes n)) none where
  stores := by rw [hop]; decide
  touch := by
    rw [touch_stvm x g hop, if_neg hf]
    simp only [laneRanges_isEmpty, decide_eq_false hs, Bool.false_eq_true, if_false, ha, ne_eq, not_true_eq_false, hr, checked_none]
  some_bytes := laneRanges_ne_nil hs _
  act h t := by
    unfold GOp.act
    simp only [hop]
    rfl

theorem stvs_stores (hop : x.op = 23) (hf : g.fmt ≠ 8) (hs : x.org.lanes ≠ 0)
    (hr : rangeWhy g.bytesLen 4 (laneRanges x.org.lanes x.laneOff) = none) :
    x.Stores g { writes := laneRanges x.org.lanes x.laneOff }
      (g.bytes.storeLanes x.laneOff x.o.v1 ((List.range 64).filter fun n => bit x.org.lanes n)) none where
  stores := by rw [hop]; decide
  touch := by rw [touch_stvs x g hop, if_neg hf, hr, checked_none]
  some_bytes := laneRanges_ne_nil hs _
  act h t := by
    unfold GOp.act
    simp only [hop]
    rw [laneOffs, List.foldl_map]
    rfl

/-- A masked store or scatter of no lane touches nothing. -/
theorem stvm_touch_none (hop : x.op = 22) (hf : g.fmt ≠ 8) (hs : x.org.lanes = 0) : x.touch g = .ok {} := by
  rw [touch_stvm x g hop, if_neg hf]
  simp only [laneRanges_isEmpty, decide_eq_true hs, if_true]

theorem stvs_touch_none (hop : x.op = 23) (hf : g.fmt ≠ 8) (hs : x.org.lanes = 0) : x.touch g = .ok {} := by
  have none : laneRanges x.org.lanes x.laneOff = [] := by rw [← List.isEmpty_iff, laneRanges_isEmpty, decide_eq_true hs]
  rw [touch_stvs x g hop, if_neg hf, none]
  rfl

/-! ### Block stores (R118, R120) -/

/-- The memory with the block of element offset `e` encoded from `v`, under the super-scale of its header. -/
def Memory.storeBlock (m : Memory) (e : Nat) (v : Vec) : Memory :=
  let z := n4qEncode (m.nat (n4qAt e).1 4) ((List.range 64).map (laneN v))
  (m.storeNat (n4qAt e).2.1 1 z.1).store (n4qAt e).2.2 (packNibbles z.2.1)

theorem stv_stores_n4q (hop : x.op = 20) (hf : g.fmt = 8) (hr : n4qWhy g.bytesLen [x.eo] = none) :
    let fs := (n4qEncode (g.bytes.nat (n4qAt x.eo).1 4) ((List.range 64).map (laneN x.o.v0))).2.2
    x.Stores g { reads := [((n4qAt x.eo).1, 16)], writes := [((n4qAt x.eo).2.1, 1), ((n4qAt x.eo).2.2, 32)] }
      (g.bytes.storeBlock x.eo x.o.v0) (if fs = 0 then none else some (.status, fs)) where
  stores := by rw [hop]; decide
  touch := by rw [touch_stv x g hop, if_pos hf, hr, checked_none]
  some_bytes := List.cons_ne_nil _ _
  act h t := by
    unfold GOp.act
    simp only [hop, if_pos hf]
    rfl

theorem packNibbles_length {n : Nat} {cs : List Nat} (h : cs.length = 2 * n) : (packNibbles cs).length = n := by
  induction n generalizing cs with
  | zero => rw [List.length_eq_zero_iff.1 h]; rfl
  | succ n ih =>
    match cs, h with
    | a :: b :: r, h =>
      simp only [List.length_cons] at h
      rw [packNibbles, List.length_cons, ih (by omega)]

/-- Byte `b` of packed codes holds the codes `2 b` and `2 b + 1`. -/
theorem packNibbles_getElem {cs : List Nat} (hc : ∀ c ∈ cs, c < 16) (b : Nat) (h : b < (packNibbles cs).length) :
    (packNibbles cs)[b] = BitVec.ofNat 8 (cs.getD (2 * b) 0 + 16 * cs.getD (2 * b + 1) 0) := by
  induction b generalizing cs with
  | zero =>
    match cs, h with
    | [x], h =>
      have := hc x (by simp)
      simp [packNibbles, Nat.mod_eq_of_lt this]
    | x :: y :: r, h =>
      have hx := hc x (by simp)
      have hy := hc y (by simp)
      simp [packNibbles, Nat.mod_eq_of_lt hx, Nat.mod_eq_of_lt hy, Nat.mul_comm]
  | succ b ih =>
    match cs, h with
    | [x], h => simp [packNibbles] at h
    | x :: y :: r, h =>
      exact ih (fun c hc' => hc c (by simp [hc'])) (by simpa [packNibbles] using h)

/-- The bytes of a stored block: its scale byte, two codes in each byte of its elements, and no other. -/
theorem read_storeBlock {m : Memory} (hm : m.wf = true) (e : Nat) (v : Vec) :
    let q := n4qAt e
    let z := n4qEncode (m.nat q.1 4) ((List.range 64).map (laneN v))
    (m.storeBlock e v).read q.2.1 = BitVec.ofNat 8 z.1 ∧
    (∀ b, b < 32 → (m.storeBlock e v).read (q.2.2 + b) = BitVec.ofNat 8 (z.2.1.getD (2 * b) 0 + 16 * z.2.1.getD (2 * b + 1) 0)) ∧
    ∀ b, b ≠ q.2.1 → (b < q.2.2 ∨ q.2.2 + 32 ≤ b) → (m.storeBlock e v).read b = m.read b := by
  intro q z
  obtain ⟨-, small, length⟩ := n4qEncode_bounds (m.nat q.1 4) ((List.range 64).map (laneN v))
  have bytes : (packNibbles z.2.1).length = 32 := packNibbles_length (length.trans (by simp))
  have before : q.2.1 < q.2.2 := by
    simp only [q, n4qAt]
    omega
  refine ⟨?_, fun b hb => ?_, fun b hs hb => ?_⟩
  · rw [Memory.storeBlock, read_store_other _ _ _ _ (.inl before)]
    simpa using read_storeNat hm q.2.1 z.1 Nat.one_pos
  · rw [Memory.storeBlock, read_store_inside _ _ _ _ (storeNat_wf m _ _ _ hm) (bytes ▸ hb), packNibbles_getElem small]
  · rw [Memory.storeBlock, read_store_other _ _ _ _ (by rw [bytes]; exact hb), read_storeNat_other m (Nat.lt_or_gt_of_ne hs)]

/-! ### Local atomics (R208) -/

theorem atomic_stores (hop : 24 ≤ x.op ∧ x.op ≤ 29) (hr : rangeWhy g.bytesLen (gSize x.op) [(x.eo, gSize x.op)] = none) :
    let n := gSize x.op
    let old := g.bytes.nat x.eo n
    x.Stores g { reads := [(x.eo, n)], writes := [(x.eo, n)], atomic := true }
      (g.bytes.storeNat x.eo n (atomicNew x.op old x.o.s1 x.o.s2))
      (some (.scalar 28 (if n = 4 then (BitVec.ofNat 32 old).signExtend 64 else BitVec.ofNat 64 old), 0)) where
  stores := by simp only [gStores, gLoads, Bool.and_eq_true, decide_eq_true_eq, Bool.or_eq_false_iff, decide_eq_false_iff_not]; omega
  touch := by rw [touch_atomic x g hop, hr, checked_none]
  some_bytes := List.cons_ne_nil _ _
  act h t := by
    obtain ⟨op, name, imm, r, o, org⟩ := x
    obtain ⟨lo, hi⟩ := hop
    interval_cases op <;> rfl

end

/-! ### Stores at their slot -/

section
variable {s : State} {i : Issue} {gd : BitVec 3} {g a : BitVec 6} {src : List Rd} {o : Opnds} {id : Nat} {x : Seg}
  {op l : Nat} (hb : s.binding i.tile i.cx g.toNat = some id) (h : s.Executes i gd (srcS a :: src) o)
include hb h

theorem gData_accessed {w : Touch} {m : Memory} {out : Option (Payload × Fpst)} (hr : s.Reaches i id x w.all)
    (hv : x.InView w.reads w.swz) (hs : (i.access op g 0 o ((s.past i (srcS a :: src)).origin id)).Stores x w m out) :
    ∃ t, gData op l src gd g a s = .next t ∧
      s.Accessed t i (srcS a :: src) (i.delivers l out) (s.stores i) id m :=
  ⟨_, gData_executes h, gAccess_store (x := i.access op g 0 o {}) h rfl hb hr hv hs⟩

/-- A store of `n` bytes of the number `v` at `e` writes these bytes and no other. -/
theorem gData_writes {w : Touch} {e n v : Nat}
    (hs : (i.access op g 0 o ((s.past i (srcS a :: src)).origin id)).Stores x w (x.bytes.storeNat e n v) none)
    (hr : s.Reaches i id x w.all) (hv : w.reads = []) :
    ∃ t m, gData op l src gd g a s = .next t ∧ s.Accessed t i (srcS a :: src) [] (s.stores i) id m ∧
      (∀ b, b < n → m.read (e + b) = BitVec.ofNat 8 (v / 256 ^ b)) ∧
      (∀ b, b < e ∨ e + n ≤ b → m.read b = x.bytes.read b) := by
  have view : x.InView w.reads w.swz := fun _ _ _ y hy => absurd (hv ▸ hy) List.not_mem_nil
  obtain ⟨t, ht, accessed⟩ := gData_accessed (l := l) hb h hr view hs
  exact ⟨t, _, ht, accessed, fun b => read_storeNat hr.form e v, fun b => read_storeNat_other _⟩

theorem scalarStore_writes (hop : 16 ≤ op ∧ op ≤ 19) :
    let e := o.s0.toNat
    let n := gSize op
    s.Reaches i id x [(e, n)] → e % n = 0 → e + n ≤ 256 * x.len →
    ∃ t m, gData op l src gd g a s = .next t ∧ s.Accessed t i (srcS a :: src) [] (s.stores i) id m ∧
      (∀ b, b < n → m.read (e + b) = BitVec.ofNat 8 (o.s1.toNat / 256 ^ b)) ∧
      (∀ b, b < e ∨ e + n ≤ b → m.read b = x.bytes.read b) := by
  intro e n hr ha hl
  rw [← bytesLen_eq] at hl
  have hs := scalar_stores (g := x) (x := i.access op g 0 o ((s.past i (srcS a :: src)).origin id)) hop
    (by rw [access_eo]; exact rangeWhy_one ha hl)
  rw [access_eo] at hs
  exact gData_writes hb h hs hr rfl

/-- The word that an atomic leaves, the word that it delivers, and the bytes that it does not reach. -/
theorem atomic_swaps (hop : 24 ≤ op ∧ op ≤ 29) :
    let e := o.s0.toNat
    let n := gSize op
    let old := x.bytes.nat e n
    s.Reaches i id x [(e, n)] → x.InView [(e, n)] false → e % n = 0 → e + n ≤ 256 * x.len →
    ∃ t m, gData op 12 src gd g a s = .next t ∧ s.Accessed t i (srcS a :: src)
        [i.gives 12 (.scalar 28 (if n = 4 then (BitVec.ofNat 32 old).signExtend 64 else BitVec.ofNat 64 old))] (s.stores i) id m ∧
      m.nat e n = atomicNew op old o.s1 o.s2 % 256 ^ n ∧ ∀ b, b < e ∨ e + n ≤ b → m.read b = x.bytes.read b := by
  intro e n old hr hv ha hl
  rw [← bytesLen_eq] at hl
  have hs := atomic_stores (g := x) (x := i.access op g 0 o ((s.past i (srcS a :: src)).origin id)) hop
    (by rw [access_eo]; exact rangeWhy_one ha hl)
  rw [access_eo] at hs
  have both : s.Reaches i id x ([(e, n)] ++ [(e, n)]) :=
    ⟨hr.entry, hr.resident, hr.form, by simpa using hr.free, by simpa using hr.ordered⟩
  obtain ⟨t, ht, accessed⟩ := gData_accessed (l := 12) hb h both hv hs
  exact ⟨t, _, ht, accessed, nat_storeNat hr.form _ _ _, fun b => read_storeNat_other _⟩

/-- An access that touches no byte does nothing. -/
theorem gData_nothing (hg : s.seg? (s.partOf i.tile) id = some x) (hop : op ≠ 10)
    (ht : (i.access op g 0 o ((s.past i (srcS a :: src)).origin id)).touch x = .ok {}) :
    gData op l src gd g a s = .next (s.past i (srcS a :: src)) :=
  (gData_executes h).trans
    (congrArg _ (gAccess_nothing (x := i.access op g 0 o {}) (m := false) h.issue hb hg ht hop))

/-- A masked store or scatter of some lanes. -/
theorem gData_writesLanes {off : Nat → Nat} {v : Vec} (hr : s.Reaches i id x (laneRanges (s.ctx i.tile i.cx).select off))
    (ha : ∀ n ∈ (List.range 64).filter (fun n => bit (s.ctx i.tile i.cx).select n), off n % 4 = 0)
    (hs : (i.access op g 0 o ((s.past i (srcS a :: src)).origin id)).Stores x
      { writes := laneRanges (s.ctx i.tile i.cx).select off }
      (x.bytes.storeLanes off v ((List.range 64).filter fun n => bit (s.ctx i.tile i.cx).select n)) none) :
    let on := (List.range 64).filter fun n => bit (s.ctx i.tile i.cx).select n
    ∃ t m, gData op l src gd g a s = .next t ∧ s.Accessed t i (srcS a :: src) [] (s.stores i) id m ∧
      (∀ n ∈ on, (∀ k ∈ on, off k = off n → k ≤ n) → m.nat (off n) 4 = laneN v n) ∧
      (∀ b, (∀ n ∈ on, b < off n ∨ off n + 4 ≤ b) → m.read b = x.bytes.read b) := by
  intro on
  have view : x.InView [] false := fun _ _ _ _ hy => (List.not_mem_nil hy).elim
  obtain ⟨t, ht, accessed⟩ := gData_accessed (l := l) hb h hr view hs
  have rising : on.Pairwise (· < ·) := List.pairwise_lt_range.filter _
  exact ⟨t, _, ht, accessed, fun n hn last => nat_storeLanes v hr.form rising ha hn last, fun b => read_storeLanes_other v _⟩

end

/-- Settles O24: each store is made at its issue, and a masked store or scatter of no lane makes no access. -/
theorem storesWriteTheirBytes : Obligations.StoresWriteTheirBytes := by
  unfold Obligations.StoresWriteTheirBytes
  refine ⟨?_, ?_⟩
  · intro s i st gd g a d o id x hb e writes
    refine ⟨fun h => ?_, fun h hr hf hl => ⟨fun ha => ?_, fun ha => ?_⟩⟩
    · have key {op : Nat} (hop : 16 ≤ op ∧ op ≤ 19) := scalarStore_writes (x := x) (l := 0) hb h hop
      simp only [List.forall_mem_cons]
      exact ⟨key (op := 16) (by decide), key (op := 17) (by decide), key (op := 18) (by decide), key (op := 19) (by decide),
        List.forall_mem_nil _⟩
    · rw [← bytesLen_eq] at hl
      have hs := stv_stores (g := x) (x := i.access 20 g 0 o ((s.past i [srcS a, srcV d]).origin id)) rfl hf
        (by rw [access_eo]; exact rangeWhy_one ha hl)
      rw [access_eo] at hs
      exact gData_writes hb h hs hr rfl
    · rw [← bytesLen_eq] at hl
      have hs := stvS_stores (g := x) (x := i.access 21 g 0 o ((s.past i [srcS a, srcV d]).origin id)) rfl hf
        (by rw [access_eo]; exact rangeWhy_one ha hl)
      rw [access_eo] at hs
      exact gData_writes hb h hs hr rfl
  · intro s i st gd g a d o id x hb sel on writes
    refine ⟨fun h hr hf hin => ⟨fun h0 => ?_, fun hs => ?_⟩, fun h hr hf hin => ⟨fun h0 => ?_, fun hs => ?_⟩⟩
    · have ht := stvm_touch_none (g := x) (x := i.access 22 g 0 o ((s.past i [srcS a, srcV d]).origin id)) rfl hf h0
      exact gData_nothing hb h hr.entry (by decide) ht
    · have hin' := hin
      rw [← bytesLen_eq] at hin
      obtain ⟨n, hn⟩ := List.exists_mem_of_ne_nil on (by
        rw [← List.isEmpty_eq_false_iff, selected_isEmpty, decide_eq_false hs])
      have ha : o.s0.toNat % 4 = 0 := by
        have aligned : (o.s0.toNat + 4 * n) % 4 = 0 := (hin n hn).1
        omega
      have hw := stvm_stores (g := x) (x := i.access 22 g 0 o ((s.past i [srcS a, srcV d]).origin id)) rfl hf hs
        (by rw [access_eo]; exact ha) (by rw [access_eo]; exact rangeWhy_lanes hin)
      rw [access_eo] at hw
      exact gData_writesLanes hb h hr (fun n hn => (hin n hn).1) hw
    · have ht := stvs_touch_none (g := x) (x := i.access 23 g 0 o ((s.past i [srcS a, srcVn d 2]).origin id)) rfl hf h0
      exact gData_nothing hb h hr.entry (by decide) ht
    · rw [← bytesLen_eq] at hin
      have hw := stvs_stores (g := x) (x := i.access 23 g 0 o ((s.past i [srcS a, srcVn d 2]).origin id)) rfl hf hs
        (rangeWhy_lanes hin)
      exact gData_writesLanes hb h hr (fun n hn => (hin n hn).1) hw

/-- Settles O25: the block is encoded under the super-scale of its header, and its conditions land alone. -/
theorem blockStoresEncode : Obligations.BlockStoresEncode := by
  unfold Obligations.BlockStoresEncode
  intro s i st gd g a d o id x h hb e q z code rs hr hv hf ha hl
  rw [← bytesLen_eq] at hl
  have hs := stv_stores_n4q (g := x) (x := i.access 20 g 0 o ((s.past i [srcS a, srcV d]).origin id)) rfl hf
    (by rw [access_eo]; exact n4qWhy_one ha hl)
  rw [access_eo] at hs
  obtain ⟨t, ht, accessed⟩ := gData_accessed (l := 0) hb h hr hv hs
  have sent : i.delivers 0 (if z.2.2 = 0 then none else some (.status, z.2.2)) =
      if z.2.2 = 0 then [] else [i.gives 1 .status z.2.2] := by
    split <;> rfl
  exact ⟨t, _, ht, sent ▸ accessed, read_storeBlock hr.form e o.v0⟩

/-- Settles O26: each atomic leaves and delivers what the shared rule says, the word and the numbers in the terms of R208. -/
theorem atomicsReadAndWrite : Obligations.AtomicsReadAndWrite := by
  unfold Obligations.AtomicsReadAndWrite
  intro s i st gd g a d o id x hb e w q y swaps
  have word (v : Word) : v.toNat % 256 ^ 4 = v.toNat := Nat.mod_eq_of_lt v.isLt
  have dword (v : Dword) : v.toNat % 256 ^ 8 = v.toNat := Nat.mod_eq_of_lt v.isLt
  have key {op : Nat} (hop : 24 ≤ op ∧ op ≤ 29) {src : List Rd} {j : Instr} {new : Nat} {old : Dword}
      (hj : exec j s = gData op 12 src gd g a s) (hnew : atomicNew op (x.bytes.nat e (gSize op)) o.s1 o.s2 % 256 ^ gSize op = new)
      (hold : (if gSize op = 4 then (BitVec.ofNat 32 (x.bytes.nat e (gSize op))).signExtend 64
        else BitVec.ofNat 64 (x.bytes.nat e (gSize op))) = old) : swaps j (srcS a :: src) (gSize op) new old := by
    intro h hr hv ha hl
    subst hold hnew
    rw [hj]
    exact atomic_swaps hb h hop hr hv ha hl
  have least : (if w.sle y then w else y) = if y.toInt < w.toInt then y else w := by
    by_cases hlt : y.toInt < w.toInt
    · rw [if_pos hlt, if_neg (by simpa [BitVec.sle] using hlt)]
    · rw [if_neg hlt, if_pos (by simpa [BitVec.sle] using hlt)]
  have most : (if w.sle y then y else w) = if w.toInt < y.toInt then y else w := by
    by_cases hle : w.toInt ≤ y.toInt
    · rw [if_pos (by simpa [BitVec.sle] using hle)]
      split
      · rfl
      · next hlt => exact BitVec.eq_of_toInt_eq (Int.le_antisymm (Int.not_lt.1 hlt) hle)
    · rw [if_neg (by simpa [BitVec.sle] using hle), if_neg (by omega)]
  have swapped : (if q = o.s1 then o.s2.toNat else x.bytes.nat e 8) = (if q = o.s1 then o.s2 else q).toNat := by
    split
    · rfl
    · exact (Nat.mod_eq_of_lt (nat_lt x.bytes e 8)).symm
  simp only [List.forall_mem_cons]
  exact ⟨⟨key (op := 24) (by decide) rfl (word _) rfl, key (op := 26) (by decide) rfl (least ▸ word _) rfl,
      key (op := 27) (by decide) rfl (most ▸ word _) rfl, List.forall_mem_nil _⟩,
    key (op := 25) (by decide) rfl (dword _) rfl, key (op := 28) (by decide) rfl (dword _) rfl,
    key (op := 29) (by decide) rfl ((congrArg (· % 256 ^ 8) swapped).trans (dword _)) rfl⟩

end Sys2Proof.Machine
end

