-- ==== Sys2Proof/Proofs/RefusedAccesses.lean ====
section
/-! PROOFS. Core accesses that are refused (R200, R204, R206, R207, R384, R159, R161, R172): the check that fails first, the detail
word, and the obligation that says which accesses raise which cause. -/

namespace Sys2Proof.Machine

/-! ### The access of a slot that is refused (R204) -/

theorem segInfo_name (g : BitVec 6) {why : Nat} (h : why < 16) (off : Nat) :
    segInfo g.toNat why off = BitVec.ofNat 64 (g.toNat + why * 2 ^ 8 + off % 2 ^ 32 * 2 ^ 16) := by
  rw [segInfo, if_neg (by decide), Nat.mod_eq_of_lt g.isLt, Nat.mod_eq_of_lt h, Nat.zero_mod, Nat.zero_mul, Nat.add_zero]
  rfl

section
variable {s : State} {i : Issue} {src : List Rd} {o : Opnds} {y : GOp} {l : Nat} {m : Bool} (hi : s.issue = some i)
  (hh : y.h = i.slotOf o)
include hi hh

/-- A name without a segment raises SEGU. -/
theorem gAccess_unbound (hb : (if m then s.bindingBefore i.tile i.cx y.name else s.binding i.tile i.cx y.name) = none) :
    (s.past i src).gAccess y l m = s.raises i src o Cause.segu (segInfo y.name 1 0) := by
  have bound : (if m then (s.past i src).bindingBefore i.tile i.cx y.name else (s.past i src).binding i.tile i.cx y.name) = none := by
    rw [bindingBefore_past hi]
    exact hb
  unfold State.gAccess
  simp only [past_here, bound, hh, raise_past]

/-- An access whose checks fail raises their cause. -/
theorem gAccess_refused {id : Nat} {x : Seg}
    (hb : (if m then s.bindingBefore i.tile i.cx y.name else s.binding i.tile i.cx y.name) = some id)
    (hg : s.seg? (s.partOf i.tile) id = some x) {e : Nat × Dword}
    (ht : GOp.touch { y with org := (s.past i src).origin id } x = .error e) :
    (s.past i src).gAccess y l m = s.raises i src o e.1 e.2 := by
  have found : (s.past i src).seg? (s.partOf i.tile) id = some x := hg
  unfold State.gAccess
  simp only [past_here, past_partOf, bound_past hi src hb, found, ht]
  rw [hh, raise_past]

end

/-! ### The check that fails first (R384) -/

/-- The first of rising numbers that satisfies a test. -/
theorem find_first {ls : List Nat} (rising : ls.Pairwise (· < ·)) {p : Nat → Bool} {q : Nat} (hq : q ∈ ls) (hp : p q = true)
    (first : ∀ k ∈ ls, k < q → p k = false) : ls.find? p = some q := by
  induction ls with
  | nil => cases hq
  | cons k r ih =>
    obtain ⟨below, rising'⟩ := List.pairwise_cons.1 rising
    by_cases e : k = q
    · rw [e, List.find?_cons_of_pos hp]
    · have hr : q ∈ r := (List.mem_cons.1 hq).resolve_left (Ne.symm e)
      rw [List.find?_cons_of_neg (by simpa using first k (List.mem_cons_self ..) (below q hr))]
      exact ih rising' hr fun j hj => first j (List.mem_cons_of_mem _ hj)

section
variable {len al n : Nat} {off : Nat → Nat} {ls : List Nat} (rising : ls.Pairwise (· < ·)) {q : Nat} (hq : q ∈ ls)
include rising hq

theorem rangeWhy_misaligned (h : off q % al ≠ 0) (first : ∀ k ∈ ls, k < q → off k % al = 0) :
    rangeWhy len al (ls.map fun k => (off k, n)) = some (2, off q) := by
  have found : ls.find? (fun k => off k % al != 0) = some q :=
    find_first rising hq (by simpa using h) fun k hk lt => by simpa using first k hk lt
  have mapped : (ls.map fun k => (off k, n)).find? (fun x => x.1 % al != 0) = some (off q, n) := by
    rw [List.find?_map]
    exact congrArg (Option.map _) found
  rw [rangeWhy, mapped]

theorem rangeWhy_outside (aligned : ∀ k ∈ ls, off k % al = 0) (h : len < off q + n)
    (first : ∀ k ∈ ls, k < q → off k + n ≤ len) : rangeWhy len al (ls.map fun k => (off k, n)) = some (1, off q) := by
  have found : ls.find? (fun k => decide (len < off k + n)) = some q :=
    find_first rising hq (by simpa using h) fun k hk lt => by simpa using first k hk lt
  have none : (ls.map fun k => (off k, n)).find? (fun x => x.1 % al != 0) = none := by simpa using aligned
  have mapped : (ls.map fun k => (off k, n)).find? (fun x => decide (len < x.1 + x.2)) = some (off q, n) := by
    rw [List.find?_map]
    exact congrArg (Option.map _) found
  rw [rangeWhy, none, mapped]
  rfl

end

theorem rangeWhy_one_misaligned {len al e n : Nat} (h : e % al ≠ 0) : rangeWhy len al [(e, n)] = some (2, e) :=
  rangeWhy_misaligned (ls := [0]) (off := fun _ => e) (q := 0) (List.pairwise_singleton _ _) (List.mem_singleton.2 rfl) h
    fun k _ lt => absurd lt (Nat.not_lt_zero k)

theorem rangeWhy_one_outside {len al e n : Nat} (ha : e % al = 0) (h : len < e + n) : rangeWhy len al [(e, n)] = some (1, e) :=
  rangeWhy_outside (ls := [0]) (off := fun _ => e) (q := 0) (List.pairwise_singleton _ _) (List.mem_singleton.2 rfl)
    (fun _ _ => ha) h fun k _ lt => absurd lt (Nat.not_lt_zero k)

/-- The checks of one N4Q block in their order. -/
theorem n4qWhy_one_cases (len e : Nat) : n4qWhy len [e] =
    if e % 64 ≠ 0 then some (2, e)
    else if len ≤ (n4qAt e).2.1 then some (1, e)
    else if len < (n4qAt e).2.2 + 32 then some (3, e) else none := by
  unfold n4qWhy
  by_cases ha : e % 64 = 0
  · by_cases hs : len ≤ (n4qAt e).2.1
    · simp [ha, hs]
    · by_cases hb : len < (n4qAt e).2.2 + 32 <;> simp [ha, hs, hb]
  · simp [ha]

/-! ### The checks of the array's loads (R159, R161, R172) -/

/-- The lanes whose rows an MGA gathers (R161). -/
def mgaLanes (v : Vec) : List Nat := (List.range 8).takeWhile fun j => !bit (lane v j) 31

section
variable {x : GOp} {g : Seg} {m af wf : Nat} (hm : bmodeOf x.org.bmode = (m, af, wf))
include hm

/-- The check of the two blocks of an MWL reports the offset of the first. -/
theorem touch_mwl (hop : x.op = 64) : x.touch g =
    let a := x.o.s0.toNat
    let y := n4qAt a
    let z := n4qAt (a + 64)
    let bad : Except (Nat × Dword) Touch := .error (Cause.fmt, BitVec.ofNat 64 ((fld x.imm 0 6).toNat + 64))
    if m = 1 then
      if g.fmt ≠ 8 then bad
      else x.checked ((n4qWhy g.bytesLen [a, a + 64]).map fun w => (w.1, a))
        { reads := [(y.1, 16), (z.1, 16), (y.2.1, 1), (z.2.1, 1), (y.2.2, 32), (z.2.2, 32)], swz := g.swz }
    else if !fmtMatch g.fmt (bmodeFmt m wf) then bad
    else x.checked (rangeWhy g.bytesLen (if g.swz then 64 else 4) [(a, 64)]) { reads := [(a, 64)], swz := g.swz } := by
  unfold GOp.touch
  simp only [hop, hm] <;> rfl

theorem touch_mga (hop : x.op = 65) : x.touch g =
    let rows := (mgaLanes x.o.v0).map fun q =>
      (x.o.s0.toNat + laneN x.o.v0 q * (fld x.org.stride 0 32).toNat, if m = 1 then 128 else 64)
    if !fmtMatch g.fmt (bmodeFmt m af) then .error (Cause.fmt, 64)
    else x.checked (rangeWhy g.bytesLen (if g.swz then 64 else 4) rows) { reads := rows, swz := g.swz } := by
  have rows : (mgaRows x.o.s0 (fld x.org.stride 0 32).toNat x.o.v0).map (fun y => (y.2, if m = 1 then 128 else 64)) =
      (mgaLanes x.o.v0).map fun q =>
        (x.o.s0.toNat + laneN x.o.v0 q * (fld x.org.stride 0 32).toNat, if m = 1 then 128 else 64) := List.map_map
  rw [← rows]
  unfold GOp.touch
  simp only [hop, hm] <;> rfl

end

theorem fmtMatch_ne {f g : Nat} (hf : f ≠ 0) (hg : g ≠ 0) (h : f ≠ g) : fmtMatch f g = false := by
  simp [fmtMatch, hf, hg, h]

theorem bmodeFmt_ne_zero (m f : Nat) : bmodeFmt m f ≠ 0 := by
  unfold bmodeFmt
  split
  · split
    · decide
    · split <;> decide
  · split
    · decide
    · split <;> decide
  · split <;> decide
  · decide

theorem n4qWhy_two_misaligned {len a b : Nat} (h : a % 64 ≠ 0) :
    (n4qWhy len [a, b]).map (fun w => (w.1, a)) = some (2, a) := by
  simp [n4qWhy, h]

/-- Two blocks, the second of which has its scale byte beyond the end. -/
theorem n4qWhy_two_outside {len a b : Nat} (ha : a % 64 = 0) (hb : b % 64 = 0) (h : len ≤ (n4qAt b).2.1) :
    (n4qWhy len [a, b]).map (fun w => (w.1, a)) = some (1, a) := by
  have aligned : [a, b].find? (fun e => e % 64 != 0) = none := by simp [ha, hb]
  obtain ⟨e, scales⟩ := Option.isSome_iff_exists.1 (List.find?_isSome (p := fun e => decide (len < (n4qAt e).2.1 + 1)).2
    ⟨b, List.mem_cons_of_mem a (List.mem_singleton.2 rfl), decide_eq_true (Nat.lt_succ_of_le h)⟩)
  rw [n4qWhy, aligned, scales]
  rfl

/-- The leading numbers that satisfy a test are those up to which all do. -/
theorem mem_takeWhile_range' {p : Nat → Bool} {b n q : Nat} :
    q ∈ (List.range' b n).takeWhile p ↔ b ≤ q ∧ q < b + n ∧ ∀ k, b ≤ k → k ≤ q → p k = true := by
  induction n generalizing b with
  | zero =>
    simp only [List.range'_zero, List.takeWhile_nil, List.not_mem_nil, false_iff]
    omega
  | succ n ih =>
    rw [List.range'_succ, List.takeWhile_cons]
    split
    · next hp =>
      rw [List.mem_cons, ih]
      constructor
      · rintro (rfl | ⟨h1, h2, h3⟩)
        · exact ⟨Nat.le_refl _, by omega, fun k lo hi => Nat.le_antisymm hi lo ▸ hp⟩
        · refine ⟨by omega, by omega, fun k lo hi => ?_⟩
          rcases Nat.eq_or_lt_of_le lo with rfl | lt
          · exact hp
          · exact h3 k lt hi
      · rintro ⟨h1, h2, h3⟩
        rcases Nat.eq_or_lt_of_le h1 with rfl | lt
        · exact .inl rfl
        · exact .inr ⟨lt, by omega, fun k lo hi => h3 k (by omega) hi⟩
    · next hp =>
      simp only [List.not_mem_nil, false_iff]
      exact fun ⟨h1, _, h3⟩ => hp (h3 b (Nat.le_refl _) h1)

theorem mem_mgaLanes {v : Vec} {q : Nat} : q ∈ mgaLanes v ↔ q < 8 ∧ ∀ p, p ≤ q → bit (lane v p) 31 = false := by
  rw [mgaLanes, List.range_eq_range', mem_takeWhile_range']
  simp

theorem mgaLanes_rising (v : Vec) : (mgaLanes v).Pairwise (· < ·) := List.pairwise_lt_range.sublist (List.takeWhile_sublist _)

/-! ### Slots that are refused (R204) -/

/-- The detail word of a cause of the name `g`. -/
def nameInfo (g : BitVec 6) (why off : Nat) : Dword := BitVec.ofNat 64 (g.toNat + why * 2 ^ 8 + off % 2 ^ 32 * 2 ^ 16)

section
variable {s : State} {i : Issue} {gd : BitVec 3} {src : List Rd} {o : Opnds} {g : BitVec 6} {op l : Nat} {imm : Dword} {m : Bool}
  {r : Host.Outcome State Fault Refusal} (h : s.Executes i gd src o)
  (hj : r = .next ((s.past i src).gAccess (i.access op g imm o {}) l m))
include h hj

theorem slot_unbound (hb : (if m then s.bindingBefore i.tile i.cx g.toNat else s.binding i.tile i.cx g.toNat) = none) :
    r = .next (s.raises i src o Cause.segu (nameInfo g 1 0)) := by
  rw [hj, gAccess_unbound (y := i.access op g imm o {}) h.issue rfl hb, nameInfo, ← segInfo_name g (by decide)]
  rfl

variable {id : Nat} {x : Seg}
  (hb : (if m then s.bindingBefore i.tile i.cx g.toNat else s.binding i.tile i.cx g.toNat) = some id)
  (hg : s.seg? (s.partOf i.tile) id = some x)
include hb hg

theorem slot_refused {e : Nat × Dword} (ht : (i.access op g imm o ((s.past i src).origin id)).touch x = .error e) :
    r = .next (s.raises i src o e.1 e.2) := by
  rw [hj, gAccess_refused (y := i.access op g imm o {}) h.issue rfl hb hg ht]

theorem slot_refusesN4q {e : Nat} (he : (i.access op g imm o ((s.past i src).origin id)).eo = e)
    (ht : (i.access op g imm o ((s.past i src).origin id)).touch x =
      (i.access op g imm o ((s.past i src).origin id)).refusesN4q) :
    r = .next (s.raises i src o Cause.fmt (nameInfo g 2 e)) := by
  rw [nameInfo, ← segInfo_name g (by decide), ← he]
  exact slot_refused h hj hb hg ht

theorem slot_segb {why : Option (Nat × Nat)} {w : Touch} {n e : Nat}
    (ht : (i.access op g imm o ((s.past i src).origin id)).touch x =
      (i.access op g imm o ((s.past i src).origin id)).checked why w)
    (hw : why = some (n, e)) (hn : n < 16 := by decide) : r = .next (s.raises i src o Cause.segb (nameInfo g n e)) := by
  rw [nameInfo, ← segInfo_name g hn]
  exact slot_refused h hj hb hg (ht.trans (by rw [hw, checked_some]))

/-- One range: its alignment comes before its end. -/
theorem slot_range {al e n : Nat} {w : Touch} (ht : (i.access op g imm o ((s.past i src).origin id)).touch x =
      (i.access op g imm o ((s.past i src).origin id)).checked (rangeWhy x.bytesLen al [(e, n)]) w) :
    (e % al ≠ 0 → r = .next (s.raises i src o Cause.segb (nameInfo g 2 e))) ∧
      (e % al = 0 → 256 * x.len < e + n → r = .next (s.raises i src o Cause.segb (nameInfo g 1 e))) :=
  ⟨fun ha => slot_segb h hj hb hg ht (rangeWhy_one_misaligned ha),
    fun ha hl => slot_segb h hj hb hg ht (rangeWhy_one_outside ha (bytesLen_eq x ▸ hl))⟩

/-- One block: its offset, then its scale byte, then its element bytes. -/
theorem slot_block {e : Nat} {w : Touch} (ht : (i.access op g imm o ((s.past i src).origin id)).touch x =
      (i.access op g imm o ((s.past i src).origin id)).checked (n4qWhy x.bytesLen [e]) w) :
    (e % 64 ≠ 0 → r = .next (s.raises i src o Cause.segb (nameInfo g 2 e))) ∧
      (e % 64 = 0 → 256 * x.len ≤ (n4qAt e).2.1 → r = .next (s.raises i src o Cause.segb (nameInfo g 1 e))) ∧
      (e % 64 = 0 → (n4qAt e).2.1 < 256 * x.len → 256 * x.len < (n4qAt e).2.2 + 32 →
        r = .next (s.raises i src o Cause.segb (nameInfo g 3 e))) := by
  rw [n4qWhy_one_cases, bytesLen_eq] at ht
  refine ⟨fun ha => slot_segb h hj hb hg ht (if_pos ha), fun ha hs => slot_segb h hj hb hg ht ?_,
    fun ha hs he => slot_segb h hj hb hg ht ?_⟩
  · rw [if_neg (not_not.2 ha), if_pos hs]
  · rw [if_neg (not_not.2 ha), if_neg (Nat.not_le.2 hs), if_pos he]

/-- Ranges of lanes or rows: the lowest that is not aligned, then the lowest that passes the end. -/
theorem slot_rows {al n : Nat} {off : Nat → Nat} {ls : List Nat} {w : Touch} (rising : ls.Pairwise (· < ·))
    (ht : (i.access op g imm o ((s.past i src).origin id)).touch x =
      (i.access op g imm o ((s.past i src).origin id)).checked (rangeWhy x.bytesLen al (ls.map fun k => (off k, n))) w)
    {on : Nat → Prop} (hon : ∀ q, q ∈ ls ↔ on q) :
    (∀ q, on q → off q % al ≠ 0 → (∀ p, p < q → on p → off p % al = 0) →
        r = .next (s.raises i src o Cause.segb (nameInfo g 2 (off q)))) ∧
      ((∀ q, on q → off q % al = 0) → ∀ q, on q → 256 * x.len < off q + n → (∀ p, p < q → on p → off p + n ≤ 256 * x.len) →
        r = .next (s.raises i src o Cause.segb (nameInfo g 1 (off q)))) := by
  rw [bytesLen_eq] at ht
  exact ⟨fun q hq hbad first => slot_segb h hj hb hg ht
      (rangeWhy_misaligned rising ((hon q).2 hq) hbad fun k hk lt => first k lt ((hon k).1 hk)),
    fun ha q hq hl first => slot_segb h hj hb hg ht
      (rangeWhy_outside rising ((hon q).2 hq) (fun k hk => ha k ((hon k).1 hk)) hl fun k hk lt => first k lt ((hon k).1 hk))⟩

end

/-- The selected lanes, in rising order. -/
theorem selected_rising (sel : Dword) : ((List.range 64).filter fun n => bit sel n).Pairwise (· < ·) :=
  List.pairwise_lt_range.filter _

theorem mem_selected (sel : Dword) (q : Nat) : (q ∈ (List.range 64).filter fun n => bit sel n) ↔ q < 64 ∧ bit sel q = true := by
  rw [List.mem_filter, List.mem_range]

/-- The scalar stores and the local atomics check one range. -/
theorem dataScalar_refused {s : State} {i : Issue} {gd : BitVec 3} {src : List Rd} {o : Opnds} {g : BitVec 6} {op l : Nat}
    {r : Host.Outcome State Fault Refusal} {id : Nat} {x : Seg} (h : s.Executes i gd src o)
    (hj : r = .next ((s.past i src).gAccess (i.access op g 0 o {}) l false)) (hop : 16 ≤ op ∧ op ≤ 19 ∨ 24 ≤ op ∧ op ≤ 29) :
    let e := o.s0.toNat
    let n := gSize op
    (s.binding i.tile i.cx g.toNat = none → r = .next (s.raises i src o Cause.segu (nameInfo g 1 0))) ∧
      (s.binding i.tile i.cx g.toNat = some id ∧ s.seg? (s.partOf i.tile) id = some x →
        (e % n ≠ 0 → r = .next (s.raises i src o Cause.segb (nameInfo g 2 e))) ∧
        (e % n = 0 → 256 * x.len < e + n → r = .next (s.raises i src o Cause.segb (nameInfo g 1 e)))) := by
  intro e n
  refine ⟨slot_unbound (m := false) h hj, fun ⟨hb, hg⟩ => ?_⟩
  rcases hop with hop | hop
  · exact slot_range h hj hb hg (by rw [touch_scalarStore _ x hop, access_eo]; rfl)
  · exact slot_range h hj hb hg (by rw [touch_atomic _ x hop, access_eo]; rfl)

/-- Settles O27: each form makes its access with its own checks, and the first that fails decides. -/
theorem accessesOutsideTheirSegment : Obligations.AccessesOutsideTheirSegment := by
  unfold Obligations.AccessesOutsideTheirSegment
  intro s i st gd g a k d r v o id x sel
  split
  rename_i m af wt hm
  intro len info raises inside unbound here range block rows scalar lanes vector e b
  have mode : m ≤ 3 := by
    have le := bmodeOf_le (rd (s.regsOf i).me 0 0)
    rwa [show bmodeOf (rd (s.regsOf i).me 0 0) = _ from hm] at le
  have alike {f : Nat} (hf : x.fmt = 0 ∨ x.fmt = bmodeFmt m f) : fmtMatch x.fmt (bmodeFmt m f) = true := fmtMatch_of hf
  have unlike {f : Nat} (h0 : x.fmt ≠ 0) (hf : x.fmt ≠ bmodeFmt m f) : fmtMatch x.fmt (bmodeFmt m f) = false :=
    fmtMatch_ne h0 (bmodeFmt_ne_zero m f) hf
  refine ⟨fun h => ⟨?_, ?_⟩, fun h => ?_, fun h => ?_, fun h => ⟨?_, ?_, ?_⟩, fun h => ?_, fun h => ?_, fun h => ?_⟩
  · have key {op : Nat} (hop : op ≤ 6) {j : Instr} (hj : exec j s = gLoad op 8 gd g a k s) : scalar j [srcS a] (gSize op) e :=
      ⟨slot_unbound (m := false) h (hj.trans (gLoad_executes h k)), fun ⟨hb, hg⟩ =>
        slot_range h (hj.trans (gLoad_executes h k)) hb hg (touch_scalarLoad _ x hop)⟩
    simp only [List.forall_mem_cons]
    exact ⟨key (op := 0) (by decide) rfl, key (op := 1) (by decide) rfl, key (op := 2) (by decide) rfl,
      key (op := 3) (by decide) rfl, key (op := 4) (by decide) rfl, key (op := 5) (by decide) rfl,
      key (op := 6) (by decide) rfl, List.forall_mem_nil _⟩
  · have hj : exec (.ldv st gd g a k) s = _ := gLoad_executes (op := 8) (l := 10) h k
    have hjs : exec (.ldvS st gd g a k) s = _ := gLoad_executes (op := 9) (l := 10) h k
    refine ⟨slot_unbound h hj, slot_unbound h hjs, fun ⟨hb, hg⟩ hf => ⟨?_, ?_⟩, fun ⟨hb, hg⟩ hf => ⟨?_, ?_⟩⟩
    · exact slot_range h hj hb hg ((touch_ldv _ x rfl).trans (if_neg hf))
    · exact slot_range h hjs hb hg ((touch_ldvS _ x rfl).trans (if_neg hf))
    · exact slot_block h hj hb hg ((touch_ldv _ x rfl).trans (if_pos hf))
    · exact slot_refusesN4q h hjs hb hg rfl ((touch_ldvS _ x rfl).trans (if_pos hf))
  · have key {op l : Nat} (hop : 16 ≤ op ∧ op ≤ 19 ∨ 24 ≤ op ∧ op ≤ 29) {j : Instr} (hj : exec j s = gData op l [srcS d] gd g a s) :
        scalar j [srcS a, srcS d] (gSize op) b :=
      dataScalar_refused h (hj.trans (gData_executes h)) hop
    simp only [List.forall_mem_cons]
    exact ⟨key (op := 16) (by decide) rfl, key (op := 17) (by decide) rfl, key (op := 18) (by decide) rfl,
      key (op := 19) (by decide) rfl, key (op := 24) (by decide) rfl, key (op := 25) (by decide) rfl,
      key (op := 26) (by decide) rfl, key (op := 27) (by decide) rfl, key (op := 28) (by decide) rfl, List.forall_mem_nil _⟩
  · exact dataScalar_refused (op := 29) (l := 12) h (gData_executes h) (by decide)
  · have hj : exec (.stv st gd g a d) s = _ := gData_executes (op := 20) (l := 0) h
    have hjs : exec (.stvS st gd g a d) s = _ := gData_executes (op := 21) (l := 0) h
    refine ⟨slot_unbound h hj, slot_unbound h hjs, fun ⟨hb, hg⟩ hf => ⟨?_, ?_⟩, fun ⟨hb, hg⟩ hf => ⟨?_, ?_⟩⟩
    · exact slot_range h hj hb hg (by rw [touch_stv _ x rfl, if_neg hf, access_eo])
    · exact slot_range h hjs hb hg (by rw [touch_stvS _ x rfl, if_neg hf, access_eo])
    · exact slot_block h hj hb hg (by rw [touch_stv _ x rfl, if_pos hf, access_eo])
    · exact slot_refusesN4q h hjs hb hg (access_eo ..) ((touch_stvS _ x rfl).trans (if_pos hf))
  · have hj : exec (.stvm st gd g a d) s = _ := gData_executes (op := 22) (l := 0) h
    refine ⟨slot_unbound h hj, fun ⟨hb, hg⟩ hf => ?_, fun ⟨hb, hg⟩ hf hs => ?_⟩
    · exact slot_refusesN4q h hj hb hg (access_eo ..) ((touch_stvm _ x rfl).trans (if_pos hf))
    · have lanes : (laneRanges sel fun n => b + 4 * n).isEmpty = false := by rw [laneRanges_isEmpty, decide_eq_false hs]
      have ht : (i.access 22 g 0 o ((s.past i [srcS a, srcV d]).origin id)).touch x =
          (i.access 22 g 0 o ((s.past i [srcS a, srcV d]).origin id)).checked
            (if b % 4 ≠ 0 then some (2, b) else rangeWhy x.bytesLen 4 (laneRanges sel fun n => b + 4 * n))
            { writes := laneRanges sel fun n => b + 4 * n } := by
        rw [touch_stvm _ x rfl, if_neg hf, access_eo]
        exact if_neg (Bool.eq_false_iff.1 lanes)
      refine ⟨fun ha => slot_segb h hj hb hg ht (if_pos ha), fun ha q hq hsel hl first => ?_⟩
      rw [if_neg (not_not.2 ha)] at ht
      exact (slot_rows h hj hb hg (selected_rising sel) ht (mem_selected sel)).2 (fun q _ => by omega) q ⟨hq, hsel⟩ hl
        fun p lt hp => first p lt hp.2
  · intro h
    have hj : exec (.ldvg st gd g a v) s = _ := gData_executes (op := 10) (l := 14) h
    refine ⟨slot_unbound h hj, fun ⟨hb, hg⟩ hf => ?_, fun ⟨hb, hg⟩ hf => ?_⟩
    · exact slot_refusesN4q h hj hb hg (access_eo ..) ((touch_ldvg _ x rfl).trans (if_pos hf))
    · exact slot_rows h hj hb hg (selected_rising sel) ((touch_ldvg _ x rfl).trans (if_neg hf)) (mem_selected sel)
  · have hj : exec (.stvs st gd g a d) s = _ := gData_executes (op := 23) (l := 0) h
    refine ⟨slot_unbound h hj, fun ⟨hb, hg⟩ hf => ?_, fun ⟨hb, hg⟩ hf => ?_⟩
    · exact slot_refusesN4q h hj hb hg (access_eo ..) ((touch_stvs _ x rfl).trans (if_pos hf))
    · exact slot_rows h hj hb hg (selected_rising sel) ((touch_stvs _ x rfl).trans (if_neg hf)) (mem_selected sel)
  · intro j bad
    have hj : exec j s = .next ((s.past i [srcS a]).gAccess (i.access 64 g (r.setWidth 64) o {}) 4 true) :=
      show execMwl gd g a r s = _ from runSlot_executes h _
    have ht := touch_mwl (g := x) (x := i.access 64 g (r.setWidth 64) o ((s.past i [srcS a]).origin id)) hm rfl
    rw [show (fld (GOp.imm _) 0 6).toNat = r.toNat from row_of_imm r] at ht
    refine ⟨slot_unbound (m := true) h hj, fun ⟨hb, hg⟩ h1 => ⟨fun h0 hf => ?_, fun hf => ?_⟩, fun ⟨hb, hg⟩ h1 =>
      ⟨fun hf => ?_, fun hf => ⟨fun ha => ?_, fun ha hl => ?_⟩⟩⟩
    · rw [if_neg h1, if_pos (by rw [unlike h0 (bmodeFmt_eq mode _ ▸ hf)]; rfl)] at ht
      exact slot_refused h hj hb hg ht
    · rw [if_neg h1, if_neg (by rw [alike (bmodeFmt_eq mode _ ▸ hf)]; decide)] at ht
      exact slot_range h hj hb hg ht
    · rw [if_pos h1, if_pos hf] at ht
      exact slot_refused h hj hb hg ht
    · rw [if_pos h1, if_neg (not_not.2 hf)] at ht
      exact slot_segb h hj hb hg ht (n4qWhy_two_misaligned ha)
    · rw [if_pos h1, if_neg (not_not.2 hf)] at ht
      exact slot_segb h hj hb hg ht (n4qWhy_two_outside ha ((Nat.add_mod_right _ 64).trans ha) (bytesLen_eq x ▸ hl))
  · intro j stride rb
    have hj : exec j s = .next ((s.past i [srcS a, srcV v]).gAccess (i.access 65 g 0 o {}) 14 true) :=
      show execMga gd g a v s = _ from runSlot_executes h _
    have ht := touch_mga (g := x) (x := i.access 65 g 0 o ((s.past i [srcS a, srcV v]).origin id)) hm rfl
    refine ⟨slot_unbound (m := true) h hj, fun ⟨hb, hg⟩ h0 hf => ?_, fun ⟨hb, hg⟩ hf => ?_⟩
    · rw [if_pos (by rw [unlike h0 (bmodeFmt_eq mode _ ▸ hf)]; rfl)] at ht
      exact slot_refused h hj hb hg ht
    · rw [if_neg (by rw [alike (bmodeFmt_eq mode _ ▸ hf)]; decide)] at ht
      exact slot_rows h hj hb hg (mgaLanes_rising o.v0) ht fun q => mem_mgaLanes

end Sys2Proof.Machine
end

