-- ==== Sys2Proof/Proofs/AbsentAccesses.lean ====
section
/-! PROOFS. Core accesses to segments that are not resident (R199, R28, R248): what an access that waits leaves, and the obligation
that says so of every form. -/

namespace Sys2Proof.Machine

/-- The context of a bundle after an access of operation `op` that waits (R18). -/
def State.counts (s : State) (i : Issue) (op : Nat) : Ctx :=
  let c := s.ctx i.tile i.cx
  if gStores op then { c with os := c.os + 1 } else { c with ol := c.ol + 1 }

/-- The results that wait for the datum of an access of operation `op`: their latency and whether they count in ol. -/
def awaited (op l : Nat) : List (Nat × Bool) := if gResult op then [(l, gLoads op)] else []

/-- An access to the absent segment `id` waits (R199, R248): `pay` stands for its datum, the context becomes `c`. -/
def State.delays (s : State) (i : Issue) (src : List Rd) (o : Opnds) (id : Nat) (c : Ctx) (out : List (Nat × Bool)) (pay : Payload) :
    State :=
  { s.putCtx i.tile i.cx c with
    issue := some { i.past (s.ctx i.tile i.cx).frame.mode src with
      out := i.out ++ out.map fun y => { i.gives y.1 pay with ol := y.2, await := some s.fresh }
      delayed := i.delayed ++ [{ cap := i.slotOf o, why := .absent 0, id := s.fresh, stops := true,
                                 org := { (s.past i src).origin id with order := s.fresh } }]
      absent := [id] }
    fresh := s.fresh + 1 }

/-- The registration of an access that waits (R28, R248). -/
theorem gDelay_past {s : State} {i : Issue} {src : List Rd} {o : Opnds} {y : GOp} (first : i.remake = []) (hh : y.h = i.slotOf o)
    (l : Nat) (why : Obstacle) (stops : Bool) (after : Clock) :
    (s.past i src).gDelay y l why stops after = { s with
      issue := some { i.past (s.ctx i.tile i.cx).frame.mode src with
        out := i.out ++ (awaited y.op l).map fun z => { i.gives z.1 y.place with ol := z.2, await := some s.fresh }
        delayed := i.delayed ++ [⟨i.slotOf o, why, s.fresh, stops, 0, after, { y.org with order := s.fresh }⟩] }
      fresh := s.fresh + 1 } := by
  rw [State.gDelay, awaited, hh]
  cases gResult y.op with
  | false =>
    simp only [Bool.false_eq_true, if_false, List.map_nil, List.append_nil]
    rfl
  | true =>
    simp only [if_true, slotOf_slot first, slotOf_pc first]
    rfl

/-- An access to an absent segment that its checks let pass waits for the segment. -/
theorem gAccess_absent {s : State} {i : Issue} {gd : BitVec 3} {src : List Rd} {o : Opnds} {y : GOp} {l id : Nat} {m : Bool} {x : Seg}
    {w : Touch} (h : s.Executes i gd src o) (hh : y.h = i.slotOf o)
    (hb : (if m then s.bindingBefore i.tile i.cx y.name else s.binding i.tile i.cx y.name) = some id)
    (hg : s.seg? (s.partOf i.tile) id = some x) (absent : x.absent = true) (lost : x.lost = 0) (first : i.absent = [])
    (fits : x.charge ≤ s.budget i.tile (s.groupOf i.tile i.cx))
    (ht : GOp.touch { y with org := (s.past i src).origin id } x = .ok w) (hw : w.all ≠ []) :
    (s.past i src).gAccess y l m = s.delays i src o id (s.counts i y.op) (awaited y.op l)
      (GOp.place { y with org := (s.past i src).origin id }) := by
  have found : (s.past i src).seg? (s.partOf i.tile) id = some x := hg
  have some_bytes : w.all.isEmpty = false := by simpa using hw
  have set : (((s.past i src).issue.map (·.absent)).getD []) = [] := first
  have asked : (if ([] : List Nat).contains id then [] else if m then [] ++ [id] else [id]) = [id] := by cases m <;> rfl
  have need : (s.past i src).chargeOf (s.partOf i.tile) [id] = x.charge := by simp [State.chargeOf, found]
  have room : ¬ (s.past i src).budget i.tile ((s.past i src).groupOf i.tile i.cx) < x.charge := Nat.not_lt.2 fits
  unfold State.gAccess
  simp only [past_here, past_partOf, bound_past h.issue src hb, found, ht, some_bytes, absent, lost, set, asked, need, room,
    Bool.false_eq_true, if_false, if_true, ne_eq, not_true_eq_false]
  rw [gDelay_past (y := { y with org := (s.past i src).origin id }) h.first hh, State.delays, State.counts]
  cases gStores y.op <;> rfl

/-- Settles O28: each form counts and awaits what its operation does. -/
theorem absentSegmentsDelayLoads : Obligations.AbsentSegmentsDelayLoads := by
  unfold Obligations.AbsentSegmentsDelayLoads
  intro s i st gd g a k r v d o id x w hg away lost first fits c keeps delays stored bound imm
  have absent : x.absent = true := by simpa [Seg.absent, Option.isSome_iff_ne_none] using away
  have key {op l : Nat} {src : List Rd} {m : Bool} {j : Instr} {imm' : Dword} (h : s.Executes i gd src o)
      (hj : exec j s = .next ((s.past i src).gAccess (i.access op g imm' o {}) l m))
      (hb : (if m then s.bindingBefore i.tile i.cx g.toNat else s.binding i.tile i.cx g.toNat) = some id) :
      delays j src op imm' (s.counts i op) (awaited op l) := fun ht hw =>
    ⟨_, hj.trans (congrArg _ (gAccess_absent (y := i.access op g imm' o {}) h rfl hb hg absent lost first fits ht hw))⟩
  refine ⟨fun h hb => ?_, fun h hb => ?_, fun h hb => ?_, fun h hb => ?_, fun h hb => ?_, fun h hb => ?_,
    fun hb => ⟨fun h => ?_, fun h => ?_⟩⟩
  · have load {op l : Nat} {j : Instr} (hj : exec j s = gLoad op l gd g a k s) :=
      key (op := op) (m := false) (j := j) h (hj.trans (gLoad_executes (l := l) h k)) hb
    simp only [List.forall_mem_cons]
    exact ⟨load (op := 0) (l := 8) rfl, load (op := 1) (l := 8) rfl, load (op := 2) (l := 8) rfl, load (op := 3) (l := 8) rfl,
      load (op := 4) (l := 8) rfl, load (op := 5) (l := 8) rfl, load (op := 6) (l := 8) rfl, load (op := 8) (l := 10) rfl,
      load (op := 9) (l := 10) rfl, List.forall_mem_nil _⟩
  · exact key (op := 10) (l := 14) (m := false) h (gData_executes h) hb
  · have data {op l : Nat} {j : Instr} (hj : exec j s = gData op l [srcS d] gd g a s) :=
      key (op := op) (m := false) (j := j) h (hj.trans (gData_executes (l := l) h)) hb
    simp only [List.forall_mem_cons]
    exact ⟨data (op := 16) (l := 0) rfl, data (op := 17) (l := 0) rfl, data (op := 18) (l := 0) rfl, data (op := 19) (l := 0) rfl,
      data (op := 24) (l := 12) rfl, data (op := 25) (l := 12) rfl, data (op := 26) (l := 12) rfl, data (op := 27) (l := 12) rfl,
      data (op := 28) (l := 12) rfl, List.forall_mem_nil _⟩
  · exact key (op := 29) (l := 12) (m := false) h (gData_executes h) hb
  · have data {op : Nat} {j : Instr} (hj : exec j s = gData op 0 [srcV d] gd g a s) :=
      key (op := op) (m := false) (j := j) h (hj.trans (gData_executes h)) hb
    simp only [List.forall_mem_cons]
    exact ⟨data (op := 20) rfl, data (op := 21) rfl, data (op := 22) rfl, List.forall_mem_nil _⟩
  · exact key (op := 23) (l := 0) (m := false) h (gData_executes h) hb
  · exact key (op := 64) (l := 4) (m := true) h (show execMwl gd g a r s = _ from runSlot_executes h _) hb
  · exact key (op := 65) (l := 14) (m := true) h (show execMga gd g a v s = _ from runSlot_executes h _) hb

end Sys2Proof.Machine
end

