-- ==== Sys2Proof/Proofs/SegmentNames.lean ====
section
/-! PROOFS. Names and what they bind (R199, R203, R204, R209 to R211): how a change of a binding or of a directory entry shows, the
words of SLEN and SFMT, and the obligations about VJOIN, SLEN, SFMT, SBIND and SFREE. -/

namespace Sys2Proof.Machine

/-! ### What leaves the segments, and what leaves the names -/

theorem seg?_of_parts {s t : State} (h : t.parts = s.parts) (p k : Nat) : t.seg? p k = s.seg? p k := by
  simp only [State.seg?, State.part, h]

theorem binding_of_tiles {s t : State} (h : t.tiles = s.tiles) (u : Nat) (cx : Cx) (k : Nat) :
    t.binding u cx k = s.binding u cx k := by
  have tile : t.tile u = s.tile u := by rw [State.tile, State.tile, h]
  unfold State.binding State.ctx
  rw [tile]

@[simp] theorem writeEntry_parts (s : State) (p : Nat) (g : Seg) : (s.writeEntry p g).parts = s.parts := by
  unfold State.writeEntry State.partStore
  split
  · rfl
  · split <;> rfl

@[simp] theorem setBinding_parts (s : State) (t : Nat) (cx : Cx) (g : Nat) (b : Option Nat) :
    (s.setBinding t cx g b).parts = s.parts := by
  unfold State.setBinding
  split <;> rfl

@[simp] theorem keepOld_parts (s : State) (g : Nat) (old : Option Nat) : (s.keepOld g old).parts = s.parts := rfl
@[simp] theorem keepOld_tiles (s : State) (g : Nat) (old : Option Nat) : (s.keepOld g old).tiles = s.tiles := rfl

/-- A name that has been bound binds what it was given; every other name of the context binds what it did (R199, R325). -/
theorem binding_setBinding (s : State) (t : Nat) (cx : Cx) {g k : Nat} (hg : g < 64) (hk : k < 64) (b : Option Nat) :
    (s.setBinding t cx g b).binding t cx k = if k = g then b.map (· % 2 ^ 32) else s.binding t cx k := by
  have word : (b.map (BitVec.ofNat 32)).map (·.toNat) = b.map (· % 2 ^ 32) := by
    cases b <;> rfl
  unfold State.setBinding
  split
  case isTrue monitor =>
    obtain ⟨mode, high⟩ := Bool.and_eq_true_iff.1 monitor
    have high : 60 ≤ g := of_decide_eq_true high
    have same : (s.modTile t fun x => { x with monitor := wr x.monitor (g - 60) (b.map (BitVec.ofNat 32)) }).ctx t cx =
        s.ctx t cx := by
      rw [State.ctx, tile_modTile]
      rfl
    simp only [State.binding, same, mode, Bool.true_and, decide_eq_true_eq, tile_modTile, rd_wr]
    by_cases e : k = g
    · subst e
      rw [if_pos high, if_pos ⟨rfl, by omega⟩, if_pos rfl, word]
    · rw [if_neg e]
      by_cases h : 60 ≤ k
      · rw [if_pos h, if_pos h, if_neg (by omega)]
      · rw [if_neg h, if_neg h]
  case isFalse segmap =>
    have ctx : (s.modCtx t cx (·.mapRegs fun r => { r with segmap := wr r.segmap g (b.map (BitVec.ofNat 32)) })).ctx t cx =
        (s.ctx t cx).mapRegs fun r => { r with segmap := wr r.segmap g (b.map (BitVec.ofNat 32)) } := ctx_modCtx ..
    have mode : ((s.ctx t cx).mapRegs fun r => { r with segmap := wr r.segmap g (b.map (BitVec.ofNat 32)) }).frame =
        (s.ctx t cx).frame := rfl
    simp only [State.binding, ctx, mode, modCtx_tile, Tile.modCtx_monitor]
    by_cases e : k = g
    · subst e
      rw [if_neg segmap, if_pos rfl, ← word]
      exact congrArg _ ((rd_wr ..).trans (if_pos ⟨rfl, hg⟩))
    · rw [if_neg e]
      split
      · rfl
      · exact congrArg _ ((rd_wr ..).trans (if_neg fun c => e c.1.symm))

/-! ### The slots of a name (R199, R204) -/

section
variable {s : State} {i : Issue} {gd : BitVec 3} {g : BitVec 6} {o : Opnds} {f : SlotRec → Nat → Seg → State → State}

theorem onName_bound {id : Nat} {x : Seg} (h : s.Executes i gd [] o) (hb : s.binding i.tile i.cx g.toNat = some id)
    (hx : s.seg? (s.partOf i.tile) id = some x) : onName gd g f s = .next (f (i.slotOf o) id x (s.past i [])) := by
  have bound : (s.past i []).binding i.tile i.cx g.toNat = some id := hb
  have found : (s.past i []).seg? (s.partOf i.tile) id = some x := hx
  rw [onName, runSlot_executes h]
  simp only [past_here, past_partOf, bound, found]

theorem onName_unbound (h : s.Executes i gd [] o) (hb : s.binding i.tile i.cx g.toNat = none) : onName gd g f s =
    .next (s.raises i [] o Cause.segu (BitVec.ofNat 64 (g.toNat + 1 * 2 ^ 8))) := by
  have unbound : (s.past i []).binding i.tile i.cx g.toNat = none := hb
  rw [onName, runSlot_executes h]
  simp only [past_here, unbound, raise_past]
  rw [segInfo_name g (by decide)]
  rfl

end

/-- The forms that name a segment and read no offset (R203, R210 to R212). -/
theorem exec_onName (s : State) (st : BitVec 1) (gd : BitVec 3) (g d : BitVec 6) : ∀ j ∈ [Instr.vjoin st gd g, .slen st gd g d,
    .sfmt st gd g d, .sfree st gd g, .sshd st gd g, .spub st gd g, .spubp st gd g, .sdisc st gd g],
    ∃ f, exec j s = onName gd g f s := by
  simp only [List.forall_mem_cons]
  exact ⟨⟨_, execVjoin.eq_1 ..⟩, ⟨_, execSlen.eq_1 ..⟩, ⟨_, execSfmt.eq_1 ..⟩, ⟨_, execSfree.eq_1 ..⟩, ⟨_, execSshd.eq_1 ..⟩,
    ⟨_, execSpub.eq_1 ..⟩, ⟨_, execSpubp.eq_1 ..⟩, ⟨_, execSdisc.eq_1 ..⟩, nofun⟩

/-! ### Descriptors (R211) -/

/-- The word of SFMT, its parts as R211 lists them. -/
theorem descriptor_eq (x : Seg) : x.descriptor = BitVec.ofNat 64 (x.fmt % 16 + (if x.swz then 2 ^ 4 else 0) +
    (if x.evict.isSome then 3 else if x.place = .resident then 0 else if x.place = .lateral then 1
      else if x.place = .backed then 2 else 3) * 2 ^ 5 + (if x.shadow = none then 0 else 2 ^ 7) +
    x.live.getD x.id % 2 ^ 32 * 2 ^ 32) := by
  have state : x.stateCode = if x.evict.isSome then 3 else if x.place = .resident then 0 else if x.place = .lateral then 1
      else if x.place = .backed then 2 else 3 := by
    unfold Seg.stateCode
    cases x.place <;> rfl
  have swz : b2n x.swz * 16 = if x.swz then 2 ^ 4 else 0 := by
    cases x.swz <;> rfl
  have shadow : b2n x.shadow.isSome * 128 = if x.shadow = none then 0 else 2 ^ 7 := by
    cases x.shadow <;> rfl
  rw [Seg.descriptor, state, swz, shadow]
  rfl

/-- Settles O29: VJOIN is the change that it makes to its segment; the lengths and the descriptor word are the numbers that R211
lists; a name that binds nothing raises SEGU in all eight forms. -/
theorem namesAndDescriptors : Obligations.NamesAndDescriptors := by
  intro s i st gd g d o id x h
  refine ⟨fun hb hx => ⟨?_, ?_, ?_⟩, fun hb j hj => ?_⟩
  · change execVjoin gd g s = _
    rw [execVjoin, onName_bound h hb hx]
    rfl
  · have len : x.bytesLen = 256 * x.len := Nat.mul_comm ..
    change execSlen gd g d s = _
    rw [execSlen, onName_bound h hb hx, pushS_past h.first, len]
  · change execSfmt gd g d s = _
    rw [execSfmt, onName_bound h hb hx, pushS_past h.first, descriptor_eq, (seg?_some hx).1]
  · obtain ⟨f, hf⟩ := exec_onName s st gd g d j hj
    rw [hf]
    exact onName_unbound h hb

/-! ### SBIND (R209) -/

/-- A binding is kept, with what the name bound before the bundle (R199): the name binds the segment, every other name of the
context what it did, and no segment has changed. -/
theorem bound_after {s v : State} (tiles : v.tiles = s.tiles) (t : Nat) (cx : Cx) {g : Nat} (hg : g < 64) (b old : Option Nat) :
    let u := (v.setBinding t cx g b).keepOld g old
    u.binding t cx g = b.map (· % 2 ^ 32) ∧ (∀ k, k < 64 → k ≠ g → u.binding t cx k = s.binding t cx k) ∧
      ∀ p k, u.seg? p k = v.seg? p k := by
  refine ⟨?_, fun k hk e => ?_, fun p k => seg?_of_parts (setBinding_parts ..) p k⟩
  · rw [binding_of_tiles (keepOld_tiles ..), binding_setBinding v t cx hg hg, if_pos rfl]
  · rw [binding_of_tiles (keepOld_tiles ..), binding_setBinding v t cx hg hk, if_neg e, binding_of_tiles tiles]

/-- A segment that joins a tile keeps its bytes and its form. -/
theorem adopt_eq (s : State) (p t : Nat) (grp : Option Nat) (x : Seg) : ∃ b e, s.adopt p t grp x =
    { x with owned := true, owner := if x.owned then x.owner else t, group := b, evict := e } := by
  unfold State.adopt
  cases h : x.owned
  case true =>
    obtain ⟨⟩ := x
    cases h
    exact ⟨_, _, rfl⟩
  case false =>
    dsimp only
    rw [if_neg Bool.false_ne_true]
    split
    · split <;> exact ⟨_, _, rfl⟩
    · split <;> exact ⟨_, _, rfl⟩

theorem adopt_keeps (s : State) (p t : Nat) (grp : Option Nat) (x : Seg) :
    (s.adopt p t grp x).id = x.id ∧ (s.adopt p t grp x).valid = x.valid := by
  obtain ⟨b, e, hx⟩ := adopt_eq s p t grp x
  rw [hx]
  exact ⟨rfl, rfl⟩

/-- The segment that SBIND makes of the word `w` with NEW = 1: zero, under the lowest free id. -/
def State.newSeg (s : State) (t : Nat) (cx : Cx) (w : Dword) : Seg :=
  let p := s.partOf t
  let id := lowestFree 1 ((s.part p).dir.filter (·.valid))
  { id := id, len := (fld w 32 15).toNat, fmt := (fld w 47 4).toNat, swz := bit w 51, place := .backed, zero := true, owner := t,
    owned := true, back := (fld (s.entryWord p id 2) 0 30).toNat, priv := (s.ctx t cx).task.or (some 0), group := s.groupOf t cx }

section
variable {s : State} {t : Nat} {cx : Cx} {g : Nat} {w : Dword}

theorem sbind_badLen (made : bit w 63 = true) (h : (fld w 32 15).toNat = 0 ∨ 16384 < (fld w 32 15).toNat) :
    s.sbind t cx g w = .error (Cause.segb, segInfo g 5 0) := by
  simp only [State.sbind, made, if_true, if_pos h]

theorem sbind_badFmt (made : bit w 63 = true) (len : ¬ ((fld w 32 15).toNat = 0 ∨ 16384 < (fld w 32 15).toNat))
    (h : 8 < (fld w 47 4).toNat) : s.sbind t cx g w = .error (Cause.fmt, segInfo g 3 0) := by
  simp only [State.sbind, made, if_true, if_neg len, if_pos h]

variable (free : s.binding t cx g = none)
include free

section
variable (given : bit w 63 = false)
include given

theorem sbind_unknown (h : s.seg? (s.partOf t) (fld w 0 32).toNat = none) :
    s.sbind t cx g w = .error (Cause.segu, segInfo g 2 (fld w 0 32).toNat) := by
  simp only [State.sbind, free, given, Bool.false_eq_true, if_false, reduceCtorEq, h]

theorem sbind_foreign {x : Seg} (h : s.seg? (s.partOf t) (fld w 0 32).toNat = some x) (owned : x.owned = true)
    (foreign : x.owner ≠ t) : s.sbind t cx g w = .error (Cause.segu, segInfo g 3 (fld w 0 32).toNat) := by
  have refused : (x.owned && decide (x.owner ≠ t)) = true := by
    rw [owned, decide_eq_true foreign]
    rfl
  simp only [State.sbind, free, given, Bool.false_eq_true, if_false, reduceCtorEq, h, refused, if_true]

theorem sbind_adopts {x : Seg} (h : s.seg? (s.partOf t) (fld w 0 32).toNat = some x) (own : x.owned = false ∨ x.owner = t) :
    s.sbind t cx g w = .ok ((s.modSeg (s.partOf t) (fld w 0 32).toNat (s.adopt (s.partOf t) t (s.groupOf t cx))).setBinding t cx g
      (some (fld w 0 32).toNat)) := by
  have admitted : (x.owned && decide (x.owner ≠ t)) = false := by
    rcases own with e | e <;> simp [e]
  simp only [State.sbind, free, given, Bool.false_eq_true, if_false, reduceCtorEq, h, admitted]

end

section
variable (made : bit w 63 = true) (len : ¬ ((fld w 32 15).toNat = 0 ∨ 16384 < (fld w 32 15).toNat))
  (fmt : ¬ 8 < (fld w 47 4).toNat)
include made len fmt

theorem sbind_full (h : (s.part (s.partOf t)).dirSize < lowestFree 1 ((s.part (s.partOf t)).dir.filter (·.valid))) :
    s.sbind t cx g w = .error (Cause.segu, segInfo g 4 0) := by
  simp only [State.sbind, free, made, if_true, Bool.false_eq_true, if_false, if_neg len, if_neg fmt, if_pos h]

theorem sbind_makes (h : ¬ (s.part (s.partOf t)).dirSize < lowestFree 1 ((s.part (s.partOf t)).dir.filter (·.valid))) :
    s.sbind t cx g w = .ok (((s.putSeg (s.partOf t) (s.newSeg t cx w)).writeEntry (s.partOf t) (s.newSeg t cx w)).setBinding
      t cx g (some (s.newSeg t cx w).id)) := by
  simp only [State.sbind, free, made, if_true, Bool.false_eq_true, if_false, if_neg len, if_neg fmt, if_neg h]
  rfl

end
end

section
variable {s : State} {i : Issue} {st : BitVec 1} {gd : BitVec 3} {g a : BitVec 6} {o : Opnds} (h : s.Executes i gd [srcS a] o)
include h

theorem execSbind_error {e : Nat × Dword} (he : (s.past i [srcS a]).sbind i.tile i.cx g.toNat o.s0 = .error e) :
    exec (.sbind st gd g a) s = .next (s.raises i [srcS a] o e.1 e.2) := by
  change execSbind gd g a s = _
  rw [execSbind, runSlot_executes h]
  simp only [past_here, he, raise_past]

theorem execSbind_ok {u : State} (he : (s.past i [srcS a]).sbind i.tile i.cx g.toNat o.s0 = .ok u) :
    exec (.sbind st gd g a) s = .next (u.keepOld g.toNat (s.binding i.tile i.cx g.toNat)) := by
  change execSbind gd g a s = _
  rw [execSbind, runSlot_executes h]
  simp only [past_here, he]
  rfl

end

/-- Settles O30: each cause by the case of SBIND's own checks, and the two kinds of binding by what putting, adopting and binding
leave. -/
theorem bindingNames : Obligations.BindingNames := by
  intro s i st gd g a o h hb p w id len fmt new bad binds
  have free : (s.past i [srcS a]).binding i.tile i.cx g.toNat = none := hb
  have fails {cause why off : Nat} (hw : why < 16) (ho : off < 2 ^ 32)
      (he : (s.past i [srcS a]).sbind i.tile i.cx g.toNat w = .error (cause, segInfo g.toNat why off)) : bad cause why off := by
    refine (execSbind_error h he).trans ?_
    rw [segInfo_name g hw, Nat.mod_eq_of_lt ho]
  have small : id < 2 ^ 32 := (fld w 0 32).isLt
  refine ⟨fun given => ⟨fun hx => ?_, fun x hx => ⟨fun owned foreign => ?_, fun own => ?_⟩⟩,
    fun made => ⟨fun hl => ?_, fun h1 h2 hf => ?_, fun h1 h2 hf hd => ?_, fun h1 h2 hf hd hn => ?_⟩⟩
  · exact fails (by decide) small (sbind_unknown free given hx)
  · exact fails (by decide) small (sbind_foreign free given hx owned foreign)
  · have keeps (z : Seg) (hz : z.id = id) := And.imp_left (·.trans hz)
      (adopt_keeps (s.past i [srcS a]) p i.tile ((s.past i [srcS a]).groupOf i.tile i.cx) z)
    obtain ⟨b, e, hx'⟩ := adopt_eq (s.past i [srcS a]) p i.tile ((s.past i [srcS a]).groupOf i.tile i.cx) x
    obtain ⟨same, others, segs⟩ := bound_after (s := s) (v := (s.past i [srcS a]).modSeg p id _) rfl i.tile i.cx g.isLt (some id)
      (s.binding i.tile i.cx g.toNat)
    refine ⟨_, _, execSbind_ok h (sbind_adopts free given hx own), ?_, others,
      (segs p id).trans ((seg?_modSeg _ p id _ keeps).trans (congrArg (Option.map _) hx)), ?_, ?_, ?_, fun k hk => ?_⟩
    · exact same.trans (congrArg some (Nat.mod_eq_of_lt small))
    · rw [hx']
      exact ⟨rfl, rfl, rfl⟩
    · rw [hx']
    · rw [hx']
      rcases own with e | e <;> simp [e]
    · exact (segs p k).trans (seg?_modSeg_other _ _ keeps (.inr hk))
  · exact fails (by decide) (by decide) (sbind_badLen made hl)
  · exact fails (by decide) (by decide) (sbind_badFmt made (by omega) hf)
  · exact fails (by decide) (by decide) (sbind_full free made (by omega) (by omega) hd)
  · have hl : ¬ (len = 0 ∨ 16384 < len) := by omega
    have hp : ((s.past i [srcS a]).newSeg i.tile i.cx w).priv.isSome = true := by
      unfold State.newSeg
      cases ((s.past i [srcS a]).ctx i.tile i.cx).task <;> rfl
    have tiles : (((s.past i [srcS a]).putSeg p ((s.past i [srcS a]).newSeg i.tile i.cx w)).writeEntry p
        ((s.past i [srcS a]).newSeg i.tile i.cx w)).tiles = s.tiles := writeEntry_tiles ..
    obtain ⟨same, others, segs⟩ := bound_after tiles i.tile i.cx g.isLt (some new) (s.binding i.tile i.cx g.toNat)
    refine ⟨_, _, execSbind_ok h (sbind_makes free made hl hf.not_gt hd.not_gt), ?_, others, ?_,
      ⟨rfl, rfl, rfl, rfl, hp⟩, rfl, rfl, fun k hk => ?_⟩
    · exact same.trans (congrArg some (Nat.mod_eq_of_lt hn))
    · exact (segs p new).trans ((seg?_of_parts (writeEntry_parts ..) p new).trans (seg?_putSeg _ p _ rfl))
    · exact (segs p k).trans ((seg?_of_parts (writeEntry_parts ..) p k).trans (seg?_putSeg_other _ _ (.inr hk)))

/-! ### SFREE (R210) -/

@[simp] theorem setBinding_lane (s : State) (t : Nat) (cx : Cx) (g : Nat) (b : Option Nat) (u : Nat) (cy : Cx) :
    ((s.setBinding t cx g b).ctx u cy).lane = (s.ctx u cy).lane := by
  unfold State.setBinding
  split
  · by_cases e : t = u
    · subst e
      rw [State.ctx, tile_modTile]
      cases cy <;> rfl
    · rw [State.ctx, tile_modTile_other s e]
      rfl
  · rw [ctx_modCtx_eq]
    split
    case isTrue e =>
      rw [← e.1, ← e.2]
      rfl
    case isFalse => rfl

theorem named_of_tiles {s t : State} (h : t.tiles = s.tiles) (u id : Nat) : t.named u id = s.named u id := by
  have tile : t.tile u = s.tile u := by rw [State.tile, State.tile, h]
  unfold State.named
  rw [tile]

/-- A segment of the tile stays past the end of a binding: another name binds it, it is a replica, or a settle needs it. -/
def State.staysBound (s : State) (t id : Nat) (x : Seg) : Bool :=
  s.named t id || x.live.isSome || x.priv.isSome && s.keptDeferred t id

section
variable {s : State} {t : Nat} {cx : Cx} {g id : Nat} {x : Seg} (found : s.seg? (s.partOf t) id = some x)
include found

theorem release_foreign (h : x.owner ≠ t) : s.release t cx g id = s.setBinding t cx g none := by
  have found' : (s.setBinding t cx g none).seg? (s.partOf t) id = some x := (seg?_of_parts (setBinding_parts ..) _ _).trans found
  simp only [State.release, found', if_pos h]

section
variable (own : x.owner = t)
include own

theorem release_stays (h : (s.setBinding t cx g none).staysBound t id x = true) :
    s.release t cx g id = (s.setBinding t cx g none).putSeg (s.partOf t) { x with shadow := none } := by
  have found' : (s.setBinding t cx g none).seg? (s.partOf t) id = some x := (seg?_of_parts (setBinding_parts ..) _ _).trans found
  simp only [State.release, found', if_neg (not_not.2 own)]
  exact if_pos h

variable (h : (s.setBinding t cx g none).staysBound t id x = false)
include h

theorem release_private (priv : x.priv.isSome = true) : s.release t cx g id =
    ((s.setBinding t cx g none).dropSeg (s.partOf t) id).writeEntry (s.partOf t)
      { x with shadow := none, valid := false, owned := false } := by
  have found' : (s.setBinding t cx g none).seg? (s.partOf t) id = some x := (seg?_of_parts (setBinding_parts ..) _ _).trans found
  simp only [State.release, found', if_neg (not_not.2 own)]
  exact (if_neg (by simpa [State.staysBound] using h)).trans (if_pos priv)

theorem release_shared (shared : x.priv.isSome = false) : s.release t cx g id =
    ((s.setBinding t cx g none).putSeg (s.partOf t) { x with shadow := none, owned := false, hist := [] }).writeEntry (s.partOf t)
      { x with shadow := none, owned := false, hist := [] } := by
  have found' : (s.setBinding t cx g none).seg? (s.partOf t) id = some x := (seg?_of_parts (setBinding_parts ..) _ _).trans found
  simp only [State.release, found', if_neg (not_not.2 own)]
  exact (if_neg (by simpa [State.staysBound] using h)).trans (if_neg (by simp [shared]))

end

/-- What the end of a binding leaves (R210). -/
structure State.Released (s u : State) (t : Nat) (cx : Cx) (g id : Nat) (x : Seg) : Prop where
  tiles : u.tiles = (s.setBinding t cx g none).tiles
  others : ∀ k, k ≠ id → u.seg? (s.partOf t) k = s.seg? (s.partOf t) k
  foreign : x.owner ≠ t → u.seg? (s.partOf t) id = some x
  dies : x.owner = t → (s.setBinding t cx g none).staysBound t id x = false → x.priv.isSome = true →
    u.seg? (s.partOf t) id = none
  stays : x.owner = t → ((s.setBinding t cx g none).staysBound t id x = true ∨ x.priv.isSome = false) →
    ∃ y, u.seg? (s.partOf t) id = some y ∧ y.bytes = x.bytes ∧ y.shadow = none

theorem release_released : s.Released (s.release t cx g id) t cx g id x := by
  obtain ⟨rfl, valid⟩ := seg?_some found
  have bound (k : Nat) : (s.setBinding t cx g none).seg? (s.partOf t) k = s.seg? (s.partOf t) k :=
    seg?_of_parts (setBinding_parts ..) _ _
  have put (v : State) (y : Seg) (e : y.id = x.id) {k : Nat} (hk : k ≠ x.id) :
      (v.putSeg (s.partOf t) y).seg? (s.partOf t) k = v.seg? (s.partOf t) k := seg?_putSeg_other v y (.inr (e ▸ hk))
  by_cases own : x.owner = t
  case neg =>
    rw [release_foreign found own]
    exact ⟨rfl, fun k _ => bound k, fun _ => (bound _).trans found, fun e => absurd e own, fun e => absurd e own⟩
  case pos =>
    cases h : (s.setBinding t cx g none).staysBound t x.id x
    case true =>
      rw [release_stays found own h]
      exact ⟨rfl, fun k hk => (put _ { x with shadow := none } rfl hk).trans (bound k), fun e => absurd own e, fun _ e => (nomatch h.symm.trans e),
        fun _ _ => ⟨_, seg?_putSeg _ _ { x with shadow := none } valid, rfl, rfl⟩⟩
    case false =>
      have written (v : State) (y : Seg) (k : Nat) : (v.writeEntry (s.partOf t) y).seg? (s.partOf t) k = v.seg? (s.partOf t) k :=
        seg?_of_parts (writeEntry_parts ..) _ _
      cases priv : x.priv.isSome
      case true =>
        rw [release_private found own h priv]
        exact ⟨writeEntry_tiles .., fun k hk => (written _ _ k).trans ((seg?_dropSeg_other _ (.inr hk)).trans (bound k)),
          fun e => absurd own e, fun _ _ _ => (written ..).trans (seg?_dropSeg ..),
          fun _ e => e.elim (fun c => nomatch h.symm.trans c) (fun c => nomatch priv.symm.trans c)⟩
      case false =>
        rw [release_shared found own h priv]
        exact ⟨writeEntry_tiles .., fun k hk => 
            (written _ _ k).trans ((put _ { x with shadow := none, owned := false, hist := [] } rfl hk).trans (bound k)),
          fun e => absurd own e, fun _ _ c => (nomatch priv.symm.trans c),
          fun _ _ => ⟨_, (written ..).trans (seg?_putSeg _ _ { x with shadow := none, owned := false, hist := [] } valid), rfl, rfl⟩⟩

end

/-- Settles O31: EBUSY by SFREE's own check, and otherwise what the end of the binding leaves. -/
theorem freeingNames : Obligations.FreeingNames := by
  intro s i st gd g o id x h hb hx
  have busyPast : (s.past i []).inUse (s.partOf i.tile) i.tile id = s.inUse (s.partOf i.tile) i.tile id := rfl
  refine ⟨fun busy => ?_, fun idle => ?_⟩
  · change execSfree gd g s = _
    rw [execSfree, onName_bound h hb hx]
    simp only [past_here, past_partOf, busyPast, busy, if_true, raise_past]
    rw [segInfo_name g (by decide)]
    rfl
  · have freed : exec (.sfree st gd g) s =
        .next (((s.past i []).release i.tile i.cx g.toNat id).keepOld g.toNat (some id)) := by
      change execSfree gd g s = _
      rw [execSfree, onName_bound h hb hx]
      simp only [past_here, past_partOf, busyPast, idle, Bool.false_eq_true, if_false]
    have left := release_released (s := s.past i []) (t := i.tile) (cx := i.cx) (g := g.toNat) hx
    have bound (k : Nat) (hk : k < 64) := (binding_of_tiles left.tiles i.tile i.cx k).trans
      (binding_setBinding (s.past i []) i.tile i.cx g.isLt hk none)
    have stays : ((s.past i []).setBinding i.tile i.cx g.toNat none).staysBound i.tile id x =
        (((s.past i []).release i.tile i.cx g.toNat id).named i.tile id || x.live.isSome ||
          x.priv.isSome && s.keptDeferred i.tile id) := by
      rw [State.staysBound, named_of_tiles left.tiles, State.keptDeferred, setBinding_lane]
      rfl
    refine ⟨_, freed, (bound _ g.isLt).trans (if_pos rfl), fun k hk e => (bound k hk).trans (if_neg e), left.foreign,
      fun own named priv live kept => left.dies own ?_ (Option.isSome_iff_ne_none.2 priv), fun own why => left.stays own ?_,
      left.others⟩
    · rw [stays, show State.named (State.release ..) i.tile id = false from named, live, kept]
      simp
    · rw [stays]
      rcases why with named | none | live | kept
      · rw [show State.named (State.release ..) i.tile id = true from named]
        exact .inl rfl
      · exact .inr (by rw [none]; rfl)
      · exact .inl (by rw [Option.isSome_iff_ne_none.2 live, Bool.or_true]; rfl)
      · rw [kept]
        cases x.priv.isSome
        · exact .inr rfl
        · exact .inl (Bool.or_true _)

end Sys2Proof.Machine
end

