-- ==== Sys2Proof/Proofs/SegmentShadows.lean ====
section
/-! PROOFS. Shadows (R212, R258, R263, R357): the bytes that a publish leaves, when it is no race, and the obligation about SSHD,
SPUB, SPUBP and SDISC. -/

namespace Sys2Proof.Machine

/-! ### The bytes of published lines -/

/-- A line of another memory over those of a segment of `len` bytes. -/
theorem read_line {m : Memory} (hm : m.wf = true) (q : Memory) (len n a : Nat) :
    (m.store (64 * n) (q.bytes (64 * n) (min 64 (len - 64 * n)))).read a = if a / 64 = n ∧ a < len then q.read a else m.read a := by
  split
  case isTrue h =>
    obtain ⟨rfl, below⟩ := h
    have inside : a % 64 < (q.bytes (64 * (a / 64)) (min 64 (len - 64 * (a / 64)))).length := by
      rw [bytes_length]
      omega
    have split : 64 * (a / 64) + a % 64 = a := Nat.div_add_mod a 64
    calc _ = _ := congrArg _ split.symm
      _ = _ := (read_store_inside _ _ _ _ hm inside).trans (bytes_getElem ..)
      _ = q.read a := congrArg _ split
  case isFalse h =>
    refine read_store_other _ _ _ _ ?_
    rw [bytes_length]
    omega

/-- The bytes of a segment after a publish: those of the shadow in its written lines, its own elsewhere (R212). -/
theorem read_publishLines {x : Seg} (hm : x.bytes.wf = true) (sh : Shadow) (a : Nat) :
    (publishLines x sh).read a = if a / 64 ∈ sh.lines ∧ a < x.bytesLen then sh.bytes.read a else x.bytes.read a := by
  have key : ∀ (ls : List Nat) (m : Memory), m.wf = true → (ls.foldl (fun m n =>
      m.store (64 * n) (sh.bytes.bytes (64 * n) (min 64 (x.bytesLen - 64 * n)))) m).read a =
      if a / 64 ∈ ls ∧ a < x.bytesLen then sh.bytes.read a else m.read a := by
    intro ls
    induction ls with
    | nil => exact fun m _ => (if_neg fun h => nomatch h.1).symm
    | cons n r ih =>
      intro m hm
      rw [List.foldl_cons, ih _ (store_wf _ _ _ hm), read_line hm]
      by_cases later : a / 64 ∈ r ∧ a < x.bytesLen
      · rw [if_pos later, if_pos ⟨List.mem_cons_of_mem _ later.1, later.2⟩]
      · rw [if_neg later]
        refine if_congr ?_ rfl rfl
        rw [List.mem_cons]
        tauto
  exact key sh.lines x.bytes hm

/-! ### A publish that is no race (R258, R263) -/

/-- What a publish knows is at least what its context knew. -/
theorem clockGet_publishers (x : Seg) (lines : List Nat) (k : Clock) (n : Nat) :
    clockGet k n ≤ clockGet (x.publishers lines k) n := by
  unfold Seg.publishers
  induction lines generalizing k with
  | nil => exact Nat.le_refl _
  | cons l r ih => exact Nat.le_trans (clockGet_join _ _ _) (ih _)

/-- A publish changes the history of a segment and nothing else. -/
theorem published_same (x : Seg) (lines : List Nat) (a : Acc) : ∃ h, x.published lines a = { x with hist := h } := by
  unfold Seg.published
  generalize clockJoin (x.publishers lines a.clock) [(a.agent, a.tick)] = k
  have key : ∀ (ls : List Nat) (h : List LineHist), ∃ h', ls.foldl (fun (g : Seg) n =>
      { g with hist := putLine { (g.line n).add a with pub := some k } g.hist }) { x with hist := h } = { x with hist := h' } := by
    intro ls
    induction ls with
    | nil => exact fun h => ⟨h, rfl⟩
    | cons n r ih => exact fun h => ih _
  exact key lines x.hist

/-- The write of a publish of the bundle `i`. -/
def State.publishAcc (s : State) (i : Issue) (x : Seg) (sh : Shadow) : Acc :=
  { agent := agentOf i.tile i.cx, tick := accessTick (s.ctx i.tile i.cx).tick 0,
    clock := x.publishers sh.lines (clockJoin (s.ctx i.tile i.cx).clock (s.tile i.tile).handover), write := true }

/-- A replica keeps the lines that it publishes (R295). -/
def Seg.recorded (x : Seg) (sh : Shadow) : Seg :=
  if x.live.isSome
    then { x with pubs := x.pubs ++ sh.lines.map fun k => (k, sh.bytes.bytes (64 * k) (min 64 (x.bytesLen - 64 * k))) }
    else x

/-- The segment after a publish of its shadow. -/
def Seg.shown (x : Seg) (sh : Shadow) (a : Acc) : Seg :=
  { ((x.recorded sh).published sh.lines a).mark sh.lines x.swz with bytes := publishLines x sh, shadow := none }

theorem shown_id_valid (x : Seg) (sh : Shadow) (a : Acc) : (x.shown sh a).id = x.id ∧ (x.shown sh a).valid = x.valid := by
  obtain ⟨h, e⟩ := published_same (x.recorded sh) sh.lines a
  have kept : (x.recorded sh).id = x.id ∧ (x.recorded sh).valid = x.valid := by
    unfold Seg.recorded
    split <;> exact ⟨rfl, rfl⟩
  rw [Seg.shown, e]
  exact kept

/-- An engine write into the shadow is outstanding (R204). -/
theorem shadowBusy_iff (s : State) (t id : Nat) : s.shadowBusy t id = true ↔ ∃ e ∈ s.eops, e.tile = t ∧ e.op = 1 ∧ e.seg = id := by
  simp [State.shadowBusy, and_assoc]

section
variable {s : State} {i : Issue} {g : BitVec 6} {o : Opnds} {id : Nat} {x : Seg} {sh : Shadow}

theorem publish_busy (h : s.shadowBusy i.tile id = true) : (s.past i []).publish (i.slotOf o) g.toNat id x sh =
    s.raises i [] o Cause.ebusy (BitVec.ofNat 64 (g.toNat + 2 * 2 ^ 8)) := by
  have busy : (s.past i []).shadowBusy i.tile id = true := h
  simp only [State.publish, past_here, busy, if_true, raise_past]
  rw [segInfo_name g (by decide)]
  rfl

/-- The state after the bundle `i` has published the shadow `sh` of the segment `x`. -/
def State.shows (s : State) (i : Issue) (x : Seg) (sh : Shadow) : State :=
  (((s.past i []).acquire (s.publishAcc i x sh).clock).putSeg (s.partOf i.tile) (x.shown sh (s.publishAcc i x sh))).copied sh.id

theorem publish_ok (h : s.shadowBusy i.tile id = false) (ordered : ∀ l ∈ x.hist, l.line ∈ sh.lines → ∀ y ∈ l.write.toList ++ l.reads,
      y.agent = agentOf i.tile i.cx ∨ y.tick ≤ clockGet (s.ctx i.tile i.cx).clock y.agent) :
    (s.past i []).publish (i.slotOf o) g.toNat id x sh = s.shows i x sh := by
  have idle : (s.past i []).shadowBusy i.tile id = false := h
  have race : x.race sh.lines (s.publishAcc i x sh) = none := race_none fun l hl hline y hy =>
    (ordered l hl hline y hy).imp_right fun before => Nat.le_trans before
      (Nat.le_trans (clockGet_join ..) (clockGet_publishers ..))
  rw [State.publishAcc] at race
  simp only [State.publish, past_here, past_cur, past_tile, past_partOf, idle, Bool.false_eq_true, if_false, race]
  rfl

end

/-- What a publish leaves of the directory: its segment as shown, and every other one. -/
theorem shows_seg? {s : State} {i : Issue} {id : Nat} {x : Seg} (hx : s.seg? (s.partOf i.tile) id = some x) (sh : Shadow) :
    (s.shows i x sh).seg? (s.partOf i.tile) id = some (x.shown sh (s.publishAcc i x sh)) ∧
      ∀ k, k ≠ id → (s.shows i x sh).seg? (s.partOf i.tile) k = s.seg? (s.partOf i.tile) k := by
  obtain ⟨hid, hvalid⟩ := seg?_some hx
  obtain ⟨sameId, sameValid⟩ := shown_id_valid x sh (s.publishAcc i x sh)
  have found := seg?_putSeg ((s.past i []).acquire (s.publishAcc i x sh).clock) (s.partOf i.tile)
    (x.shown sh (s.publishAcc i x sh)) (sameValid.trans hvalid)
  rw [sameId, hid] at found
  exact ⟨found, fun k hk => seg?_putSeg_other _ _ (.inr (by rw [sameId, hid]; exact hk))⟩

/-- Settles O32: a shadow opened has no line; a publish that is no race leaves the bytes of its lines; each EBUSY is the check of
its own form. -/
theorem shadowsOpenAndPublish : Obligations.ShadowsOpenAndPublish := by
  intro s i st gd g o id x h hb hx hm p busy writing known publishes
  obtain ⟨rfl, hvalid⟩ := seg?_some hx
  have why {n : Nat} (hn : n < 16) : segInfo g.toNat n 0 = BitVec.ofNat 64 (g.toNat + n * 2 ^ 8) := segInfo_name g hn 0
  have sshd : exec (.sshd st gd g) s = execSshd gd g s := rfl
  have spub : exec (.spub st gd g) s = execSpub gd g s := rfl
  have spubp : exec (.spubp st gd g) s = execSpubp gd g s := rfl
  have sdisc : exec (.sdisc st gd g) s = execSdisc gd g s := rfl
  rw [execSshd, onName_bound h hb hx] at sshd
  rw [execSpub, onName_bound h hb hx] at spub
  rw [execSpubp, onName_bound h hb hx] at spubp
  rw [execSdisc, onName_bound h hb hx] at sdisc
  refine ⟨fun none => ⟨?_, ?_, ?_, ?_⟩, fun sh some => ⟨?_, fun writes => ?_, fun idle => ⟨fun ordered => ?_, ?_⟩⟩⟩
  · obtain ⟨base, evict, ht⟩ : ∃ base evict, exec (.sshd st gd g) s = .next (State.putSeg
        (State.modCur { s.past i [] with fresh := s.fresh + 1 } fun c =>
          { c with phase := { c.phase with opened := s.fresh :: c.phase.opened } }) p
        { x with shadow := Option.some { id := s.fresh, base := base }, evict := evict }) := by
      simp only [none, Option.isSome_none, Bool.false_eq_true, if_false] at sshd
      cases room : (((s.past i []).next.2.shadowBase p i.tile x).isNone && x.evict.isNone)
      · exact ⟨_, x.evict, sshd.trans (congrArg _ (congrArg (State.putSeg _ _) (if_neg (Bool.eq_false_iff.1 room))))⟩
      · exact ⟨_, Option.some i.tile, sshd.trans (congrArg _ (congrArg (State.putSeg _ _) (if_pos room)))⟩
    exact ⟨_, { x with shadow := Option.some { id := s.fresh, base := base }, evict := evict }, ht, seg?_putSeg _ p _ hvalid, rfl,
      { id := s.fresh, base := base }, rfl, rfl, rfl⟩
  · simp only [none, raise_past] at spub
    exact spub.trans (by rw [why (by decide)])
  · simp only [none, Option.isNone_none, if_true, raise_past] at sdisc
    exact sdisc.trans (by rw [why (by decide)])
  · simp only [none] at spubp
    exact spubp
  · simp only [some, Option.isSome_some, if_true, raise_past] at sshd
    exact sshd.trans (by rw [why (by decide)])
  · have held := (shadowBusy_iff s i.tile x.id).2 writes
    have heldPast : (s.past i []).shadowBusy i.tile x.id = true := held
    simp only [some, publish_busy held] at spub spubp
    simp only [some, past_here, Option.isNone_some, Bool.false_eq_true, if_false, heldPast, if_true, raise_past] at sdisc
    refine ⟨spub, spubp.trans ?_, sdisc.trans (by rw [why (by decide)])⟩
    refine congrArg Host.Outcome.next (if_neg ?_)
    simp [State.raises, State.past, Issue.past]
  · have free : s.shadowBusy i.tile x.id = false := Bool.eq_false_iff.2 fun c => idle ((shadowBusy_iff s i.tile x.id).1 c)
    obtain ⟨found, others⟩ := shows_seg? hx sh
    have bytes (a : Nat) := read_publishLines hm sh a
    rw [show x.bytesLen = 256 * x.len from Nat.mul_comm ..] at bytes
    simp only [some, publish_ok free ordered] at spub spubp
    refine ⟨⟨_, _, spub, found, rfl, ?_, bytes, others⟩, ⟨_, _, spubp.trans (congrArg _ (if_pos rfl)), found, rfl, ?_, bytes, others⟩⟩
    · rw [Bool.or_false]
      rfl
    · rw [Bool.or_true]
      rfl
  · have free : (s.past i []).shadowBusy i.tile x.id = false :=
      Bool.eq_false_iff.2 fun c => idle ((shadowBusy_iff s i.tile x.id).1 c)
    simp only [some, past_here, Option.isNone_some, Bool.false_eq_true, if_false, free] at sdisc
    exact sdisc

end Sys2Proof.Machine
end

