-- ==== Sys2Proof/Proofs/EngineSlots.lean ====
section
/-! PROOFS. The slots of class E and POSTR (R104, R213, R214, R242, R349, R351): what the submission of an operation leaves, what a
slot does by its checks and by the TLB, and the obligation that says how operations are queued. -/

namespace Sys2Proof.Machine

/-! ### What serves an operation beside the machine: the TLB, the locks, the requests -/

/-- Nothing but the clusters, the log of refused reads and the next number has changed. -/
def State.Beside (s u : State) : Prop := ∃ c e f, u = { s with clusters := c, ensign := e, fresh := f }

theorem State.Beside.refl (s : State) : s.Beside s := ⟨_, _, _, rfl⟩

theorem State.Beside.trans {s u v : State} (h : s.Beside u) (h' : u.Beside v) : s.Beside v := by
  obtain ⟨c, e, f, rfl⟩ := h
  obtain ⟨c', e', f', rfl⟩ := h'
  exact ⟨c', e', f', rfl⟩

theorem beside_modCluster (s : State) (k : Nat) (f : Cluster → Cluster) : s.Beside (s.modCluster k f) := ⟨_, _, _, rfl⟩

/-- Steps one after the other that each leave the machine leave it together. -/
theorem beside_foldl {α : Type} (f : State → α → State) (hf : ∀ (s : State) a, s.Beside (f s a)) (l : List α) (s : State) :
    s.Beside (l.foldl f s) := by
  induction l generalizing s with
  | nil => exact .refl s
  | cons a r ih => exact (hf s a).trans (ih _)

theorem beside_fillTlb (s : State) (p k asid : Nat) (vas : List Nat) : s.Beside (s.fillTlb p k asid vas) := by
  refine beside_foldl _ (fun s va => ?_) vas s
  have logged : s.Beside (s.logReads p (s.walkAddrs p asid va)) := ⟨_, _, _, logReads_frame ..⟩
  cases s.tlbHit k asid va with
  | some _ => exact .refl s
  | none =>
    cases h : (s.logReads p (s.walkAddrs p asid va)).walk p asid va with
    | error _ => simpa only [h] using logged
    | ok l =>
      simp only [h]
      split
      · exact logged
      · exact logged.trans (beside_modCluster ..)

theorem beside_takeLocks (s : State) (k asid op : Nat) (pages : List LPage) : s.Beside (s.takeLocks k asid op pages) :=
  beside_foldl _ (fun s _ => beside_modCluster s k _) pages s

theorem beside_request (s : State) (t : Nat) (cx : Cx) (kind op : Nat) (members : List Nat) (lane made slot cycle : Nat) :
    s.Beside (s.request t cx kind op members lane made slot cycle).2 := ⟨_, _, _, rfl⟩

/-! ### Submission (R214, R242, R351) -/

/-- An operation that takes its locks changes among the operations itself alone. -/
theorem acquireLocks_eq {s : State} {o : EOp} {es : List EOp} (h : s.eops = es ++ [o]) (others : ∀ y ∈ es, y.id ≠ o.id) :
    ∃ pages c e f, s.acquireLocks o =
      { s with eops := es ++ [{ o with stage := 0, pages := pages }], clusters := c, ensign := e, fresh := f } := by
  obtain ⟨c, e, f, hv⟩ := (beside_fillTlb s (s.partOf o.tile) (clusterOf o.tile) o.asid (rangePages o.pkt.va o.pkt.len)).trans
    (beside_takeLocks _ (clusterOf o.tile) o.asid o.id (s.pagesNow o))
  have eops : (es ++ [o]).map (fun y => if y.id = o.id then { y with stage := 0, pages := s.pagesNow o } else y) =
      es ++ [{ o with stage := 0, pages := s.pagesNow o }] := by
    rw [List.map_append, List.map_singleton, if_pos rfl]
    congr 1
    exact (List.map_congr_left fun y hy => if_neg (others y hy)).trans (List.map_id es)
  have taken : State.modEop { s with clusters := c, ensign := e, fresh := f } o.id (fun y => { y with stage := 0, pages := s.pagesNow o }) =
      { s with clusters := c, ensign := e, fresh := f, eops := es ++ [{ o with stage := 0, pages := s.pagesNow o }] } := by
    rw [State.modEop, h, eops]
  have asked : State.Beside (State.modEop ((s.fillTlb (s.partOf o.tile) (clusterOf o.tile) o.asid
      (rangePages o.pkt.va o.pkt.len)).takeLocks (clusterOf o.tile) o.asid o.id (s.pagesNow o)) o.id
      (fun y => { y with stage := 0, pages := s.pagesNow o })) (s.acquireLocks o) := beside_request ..
  rw [hv, taken] at asked
  obtain ⟨c', e', f', hr⟩ := asked
  exact ⟨s.pagesNow o, c', e', f', hr⟩

/-- The state in which a packet becomes an operation: its number has been given, its pages are in the TLB. -/
def State.served (s : State) (t : Nat) (cx : Cx) (x : Packet) : State :=
  if x.isVirtual
    then State.fillTlb { s with fresh := s.fresh + 1 } (s.partOf t) (clusterOf t) (s.ctx t cx).asid (rangePages x.va x.len)
    else { s with fresh := s.fresh + 1 }

theorem beside_served (s : State) (t : Nat) (cx : Cx) (x : Packet) : s.Beside (s.served t cx x) := by
  have next : s.Beside { s with fresh := s.fresh + 1 } := ⟨_, _, _, rfl⟩
  unfold State.served
  split
  · exact next.trans (beside_fillTlb ..)
  · exact next

/-- The operation of a packet at its submission. -/
def State.newOp (s : State) (t : Nat) (cx : Cx) (slot : Nat) (x : Packet) (loc : Option Seg) (tgt : List Seg) (clock : Clock)
    (tick : Nat) : EOp :=
  let v := s.served t cx x
  let far := tgt.map fun g => (g.id, g.owner)
  let pages := if x.isVirtual then v.pagesOf (s.partOf t) (clusterOf t) (s.ctx t cx).asid x.va x.len [] else []
  { id := s.fresh, tile := t, cx := cx, op := x.op, df := x.df, packet := x.w, asid := (s.ctx t cx).asid
    stage := if x.idle then 3 else if !pages.isEmpty then 1 else if (x.members t loc tgt).isEmpty then 2 else 0
    slot := slot
    seg := ((if x.op = 11 then tgt.head? else loc).map (·.id)).getD 0
    far := if x.op = 4 then far.find? fun y => y.2 == t else far.head?
    row := x.row
    data := match x.row with
      | some v => natBytes 256 v.toNat
      | none => []
    after := tick, pages := pages, agent := s.fresh, clock := clock, order := s.fresh, cycle := v.now }

/-- An operation among those in progress, its ranges on its tile, and one more in the count of its context. -/
def State.enqueue (v : State) (t : Nat) (cx : Cx) (o : EOp) (r : List Range) : State :=
  (State.modTile { v with eops := v.eops ++ [o] } t fun y => { y with ranges := y.ranges ++ r }).modCtx t cx fun c =>
    { c with oc := c.oc + 1 }

/-- A submission: the operation is queued, and asks for residency, takes its locks or waits. -/
theorem eSubmit_eq (s : State) (t : Nat) (cx : Cx) (slot : Nat) (x : Packet) (loc : Option Seg) (tgt : List Seg) (clock : Clock)
    (tick : Nat) :
    let o := s.newOp t cx slot x loc tgt clock tick
    let w := (s.served t cx x).enqueue t cx o
      (if x.idle then [] else x.ranges s.fresh t loc (tgt.map fun g => (g.id, g.owner)))
    s.eSubmit t cx slot x loc tgt clock tick =
      if o.stage = 0 then (w.request t cx 2 s.fresh (x.members t loc tgt) (s.ctx t cx).laneRank (s.served t cx x).now slot).2
      else if w.canAcquire o then w.acquireLocks o else w := rfl

/-- An operation without a virtual range has no locks to take. -/
theorem canAcquire_real {s : State} {t : Nat} {cx : Cx} {slot : Nat} {x : Packet} {loc : Option Seg} {tgt : List Seg} {clock : Clock}
    {tick : Nat} (h : x.isVirtual = false) (w : State) : w.canAcquire (s.newOp t cx slot x loc tgt clock tick) = false := by
  have stage : (s.newOp t cx slot x loc tgt clock tick).stage ≠ 1 := by
    simp only [State.newOp, h, Bool.false_eq_true, if_false, List.isEmpty_nil, Bool.not_true]
    split
    · decide
    · split <;> decide
  rw [State.canAcquire, beq_false_of_ne stage]
  rfl

/-- What a submission leaves: `s` with one operation more, `o`, whose context counts it and whose tile has its ranges. -/
structure State.Submits (s u : State) (t : Nat) (cx : Cx) (x : Packet) (o : EOp) : Prop where
  op : o.op = x.op ∧ o.packet = x.w ∧ o.tile = t ∧ o.cx = cx ∧ o.landed = 0
  eops : u.eops = s.eops ++ [o]
  ctx : u.ctx t cx = { s.ctx t cx with oc := (s.ctx t cx).oc + 1 }
  frame : u.issue = s.issue ∧ u.parts = s.parts ∧ u.gddr = s.gddr ∧ u.host = s.host

theorem ctx_enqueue (v : State) (t : Nat) (cx : Cx) (o : EOp) (r : List Range) :
    (v.enqueue t cx o r).ctx t cx = { v.ctx t cx with oc := (v.ctx t cx).oc + 1 } := by
  have ctx : (State.modTile { v with eops := v.eops ++ [o] } t fun y => { y with ranges := y.ranges ++ r }).ctx t cx = v.ctx t cx := by
    rw [State.ctx, tile_modTile]
    cases cx <;> rfl
  rw [State.enqueue, ctx_modCtx, ctx]

/-- What serves an operation beside the machine does not show. -/
theorem State.Submits.beside {s u v : State} {t : Nat} {cx : Cx} {x : Packet} {o : EOp} (h : s.Submits u t cx x o) (h' : u.Beside v) :
    s.Submits v t cx x o := by
  obtain ⟨c, e, f, rfl⟩ := h'
  exact ⟨h.op, h.eops, h.ctx, h.frame⟩

/-- A packet submitted is queued. -/
theorem eSubmit_submits {s : State} {t : Nat} {cx : Cx} {slot : Nat} {x : Packet} {loc : Option Seg} {tgt : List Seg} {clock : Clock}
    {tick : Nat} (old : x.isVirtual = true → ∀ y ∈ s.eops, y.id < s.fresh) :
    ∃ o, s.Submits (s.eSubmit t cx slot x loc tgt clock tick) t cx x o := by
  obtain ⟨c, e, f, served⟩ := beside_served s t cx x
  have queued (r : List Range) : s.Submits ((s.served t cx x).enqueue t cx (s.newOp t cx slot x loc tgt clock tick) r) t cx x
      (s.newOp t cx slot x loc tgt clock tick) := by
    refine ⟨⟨rfl, rfl, rfl, rfl, rfl⟩, ?_, ?_, ?_⟩
    · rw [served]
      rfl
    · rw [ctx_enqueue, served]
      rfl
    · rw [served]
      exact ⟨rfl, rfl, rfl, rfl⟩
  rw [eSubmit_eq]
  generalize (if x.idle then [] else x.ranges s.fresh t loc (tgt.map fun g => (g.id, g.owner))) = r
  split
  · exact ⟨_, (queued _).beside (beside_request ..)⟩
  · split
    case isTrue can =>
      have others : ∀ y ∈ s.eops, y.id ≠ (s.newOp t cx slot x loc tgt clock tick).id := fun y hy => by
        have virtual : x.isVirtual = true := by
          by_contra real
          rw [canAcquire_real (Bool.eq_false_iff.2 real)] at can
          cases can
        exact (old virtual y hy).ne
      obtain ⟨op, eops, ctx, frame⟩ := queued r
      obtain ⟨pages, c', e', f', locked⟩ := acquireLocks_eq eops others
      rw [locked]
      exact ⟨{ s.newOp t cx slot x loc tgt clock tick with stage := 0, pages := pages }, op, rfl, ctx, frame⟩
    case isFalse => exact ⟨_, queued _⟩

/-! ### A slot of class E (R214, R349) -/

section
variable {s : State} {i : Issue} {src : List Rd} {o : Opnds} {x : Packet} (lane : (s.ctx i.tile i.cx).lane = none)

/-- The segment that the name of a packet binds, as it stood before the bundle (R199). -/
def State.packetName (s : State) (i : Issue) (src : List Rd) (x : Packet) : Option Nat :=
  if x.hasLocal then (s.past i src).bindingBefore i.tile i.cx x.df else none

theorem eSlot_error {e : Nat × Dword} (h : (s.past i src).eCheck i.tile i.cx x (s.packetName i src x) = .error e)
    (now : s.eMiss i.tile (s.ctx i.tile i.cx).asid x = false ∨ e.1 ∉ [Cause.fmt, Cause.segb, Cause.setbig, Cause.xlat]) :
    (s.past i src).eSlot (i.slotOf o) x = s.raises i src o e.1 e.2 := by
  have decided : ¬ (s.eMiss i.tile (s.ctx i.tile i.cx).asid x &&
      (e.1 == Cause.fmt || e.1 == Cause.segb || e.1 == Cause.setbig || e.1 == Cause.xlat)) = true := by
    rcases now with hit | early
    · simp [hit]
    · simpa [and_assoc, or_assoc] using fun _ => early
  unfold State.packetName at h
  simp only [State.eSlot, past_here, past_cur, h]
  exact if_neg decided

theorem eSlot_ok {r : Option Seg × List Seg} (h : (s.past i src).eCheck i.tile i.cx x (s.packetName i src x) = .ok r)
    (hit : s.eMiss i.tile (s.ctx i.tile i.cx).asid x = false) : (s.past i src).eSlot (i.slotOf o) x =
      (s.past i src).eAccept i.tile i.cx (i.slotOf o) x r.1 r.2 ((s.ctx i.tile i.cx).releases i.tile i.cx) (s.ctx i.tile i.cx).tick := by
  have hit' : (s.past i src).eMiss i.tile (s.ctx i.tile i.cx).asid x = false := hit
  unfold State.packetName at h
  simp only [State.eSlot, past_here, past_cur, h, hit', Bool.false_eq_true, if_false]

/-- A packet whose pages are not in the TLB and whose checks up to check 4 pass waits for the walk. -/
theorem eSlot_waits (miss : s.eMiss i.tile (s.ctx i.tile i.cx).asid x = true)
    (h : ∀ e, (s.past i src).eCheck i.tile i.cx x (s.packetName i src x) = .error e →
      e.1 ∈ [Cause.fmt, Cause.segb, Cause.setbig, Cause.xlat]) :
    (s.past i src).eSlot (i.slotOf o) x = (s.past i src).eWalk (i.slotOf o) (s.packetName i src x) := by
  have miss' : (s.past i src).eMiss i.tile (s.ctx i.tile i.cx).asid x = true := miss
  unfold State.packetName at h ⊢
  cases check : (s.past i src).eCheck i.tile i.cx x
      (if x.hasLocal then (s.past i src).bindingBefore i.tile i.cx x.df else none) with
  | error e =>
    have late : (e.1 == Cause.fmt || e.1 == Cause.segb || e.1 == Cause.setbig || e.1 == Cause.xlat) = true := by
      simpa [or_assoc] using h e check
    simp only [State.eSlot, past_here, past_cur, check, miss', late, Bool.and_self, if_true]
  | ok r => simp only [State.eSlot, past_here, past_cur, check, miss', if_true]

include lane

/-- A full count of operations stops a packet before its other checks (R214). -/
theorem eCheck_full (full : (s.ctx i.tile i.cx).oc = 32) (loc : Option Nat) :
    (s.past i src).eCheck i.tile i.cx x loc = .error (Cause.ebusy, segInfo 0 1 0) := by
  simp only [State.eCheck, past_ctx, lane, full, beq_self_eq_true, if_true]

theorem eAccept_submits (loc : Option Seg) (tgt : List Seg) (h : SlotRec) (clock : Clock) (tick : Nat)
    (old : x.isVirtual = true → ∀ y ∈ s.eops, y.id < s.fresh) :
    ∃ t e, (s.past i src).eAccept i.tile i.cx h x loc tgt clock tick = t ∧ t.issue = (s.past i src).issue ∧ t.eops = s.eops ++ [e] ∧
      e.op = x.op ∧ e.packet = x.w ∧ e.tile = i.tile ∧ e.cx = i.cx ∧ e.landed = 0 ∧
      (t.ctx i.tile i.cx).oc = (s.ctx i.tile i.cx).oc + 1 ∧ (t.ctx i.tile i.cx).regs = (s.ctx i.tile i.cx).regs ∧
      t.parts = s.parts ∧ t.gddr = s.gddr ∧ t.host = s.host := by
  obtain ⟨e, ⟨op, packet, tile, cx, landed⟩, eops, ctx, issue, parts, gddr, host⟩ := eSubmit_submits (s := s.past i src)
    (t := i.tile) (cx := i.cx) (slot := h.slot) (x := x) (loc := loc) (tgt := tgt) (clock := clock) (tick := tick) old
  refine ⟨_, e, rfl, ?_⟩
  unfold State.eAccept
  simp only [past_ctx, lane, Option.any_none, Bool.false_and, Bool.false_eq_true, if_false]
  split
  case isTrue copies =>
    refine ⟨issue, eops, op, packet, tile, cx, landed, ?_, ?_, parts, gddr, host⟩
    · rw [ctx_modCtx, ctx]
      rfl
    · rw [ctx_modCtx, ctx]
      rfl
  case isFalse =>
    refine ⟨issue, eops, op, packet, tile, cx, landed, ?_, ?_, parts, gddr, host⟩
    · rw [ctx]
      rfl
    · rw [ctx]
      rfl

end

/-- The forms with a name and a packet, their opcodes and the words of their packets (R213). -/
theorem exec_eForm (s : State) (st : BitVec 1) (gd : BitVec 3) (n a : BitVec 6) : ∀ p ∈ ([(.cpyin st gd n a, 0, 3),
    (.cpyinSh st gd n a, 1, 3), (.cpyout st gd n a, 2, 3), (.cpysg st gd n a, 3, 3), (.cpymc st gd n a, 4, 3),
    (.puts st gd n a, 5, 4), (.gets st gd n a, 7, 4), (.atadd st gd n a, 8, 3), (.atcas st gd n a, 9, 4),
    (.atxch st gd n a, 10, 3)] : List (Instr × Nat × Nat)), exec p.1 s = eForm p.2.1 gd n a s ∧ packetWords p.2.1 = p.2.2 := by
  simp only [List.forall_mem_cons]
  exact ⟨⟨rfl, rfl⟩, ⟨rfl, rfl⟩, ⟨rfl, rfl⟩, ⟨rfl, rfl⟩, ⟨rfl, rfl⟩, ⟨rfl, rfl⟩, ⟨rfl, rfl⟩, ⟨rfl, rfl⟩, ⟨rfl, rfl⟩, ⟨rfl, rfl⟩, nofun⟩

theorem eForm_executes {s : State} {i : Issue} {gd : BitVec 3} {n a : BitVec 6} {o : Opnds} {op k : Nat} (hk : packetWords op = k)
    (h : s.Executes i gd [srcSn a k] o) :
    eForm op gd n a s = .next ((s.past i [srcSn a k]).eSlot (i.slotOf o) ⟨op, n.toNat, o.s, none⟩) := by
  subst hk
  exact runSlot_executes h _

/-- POSTR goes to another module by its NODE, where LOC is 0 (R104). -/
theorem remote_postr (w : Dword) (modid : BitVec 12) :
    Packet.remote ⟨64, 0, [w], none⟩ modid = true ↔ bit w 51 = false ∧ fld w 39 12 ≠ modid := by
  have parts : Packet.remote ⟨64, 0, [w], none⟩ modid = (!bit w 51 && fld w 39 12 != modid) := rfl
  rw [parts, Bool.and_eq_true_iff, Bool.not_eq_true', bne_iff_ne]

/-- Settles O40: a slot of class E does by its checks and by the TLB what `eSlot` does, and a packet accepted or a POSTR is
submitted. -/
theorem engineOperationsAreQueued : Obligations.EngineOperationsAreQueued := by
  refine ⟨fun s i st gd n a o => ?_, fun s i st gd a o h => ?_⟩
  · intro c queues
    have slot {j : Instr} {src : List Rd} {x : Packet}
        (hj : s.Executes i gd src o → exec j s = .next ((s.past i src).eSlot (i.slotOf o) x)) : queues j src x := by
      intro h lane
      rw [hj h]
      refine ⟨fun full => ?_, fun hit old => ⟨fun e he => ?_, fun r hr => ?_⟩, fun miss => ⟨fun e he early => ?_, fun late => ?_⟩⟩
      · exact congrArg _ (eSlot_error (eCheck_full lane full _) (.inr (by decide)))
      · exact congrArg _ (eSlot_error he (.inl hit))
      · rw [eSlot_ok hr hit]
        obtain ⟨t, e, ht, rest⟩ := eAccept_submits (src := src) lane r.1 r.2 (i.slotOf o) (c.releases i.tile i.cx) c.tick fun _ => old
        exact ⟨t, e, congrArg _ ht, rest⟩
      · exact congrArg _ (eSlot_error he (.inr early))
      · rw [eSlot_waits miss late]
        exact ⟨_, rfl, rfl, rfl, rfl, rfl⟩
    refine ⟨fun p hp => slot fun h => ?_, slot fun h => ?_, slot fun h => ?_⟩
    · obtain ⟨form, words⟩ := exec_eForm s st gd n a p hp
      exact form.trans (eForm_executes words h)
    · exact (show exec (.putr st gd n a) s = execPutr gd n a s from rfl).trans (runSlot_executes h _)
    · exact (show exec (.spawn st gd a) s = eForm 11 gd 0 a s from rfl).trans (eForm_executes rfl h)
  · intro c away lane
    have slot : exec (.postr st gd a) s = execPostr gd a s := rfl
    rw [execPostr, runSlot_executes h] at slot
    have remote : Packet.remote ⟨64, 0, [o.s0], none⟩ s.modid = true ↔ away := remote_postr o.s0 s.modid
    have caps : (s.past i [srcS a]).caps = s.caps := rfl
    have modid : (s.past i [srcS a]).modid = s.modid := rfl
    refine ⟨fun full => ?_, fun room far alone => ?_, fun room linked => ?_⟩
    · simp only [past_here, past_cur, show (s.ctx i.tile i.cx).oc = 32 from full, if_true, raise_past] at slot
      exact slot
    · simp only [past_here, past_cur, if_neg (show ¬ (s.ctx i.tile i.cx).oc = 32 from room), caps, modid, remote.2 far, alone,
        Bool.not_false, Bool.and_self, if_true, raise_past] at slot
      exact slot
    · have reached : ¬ (Packet.remote ⟨64, 0, [o.s0], none⟩ s.modid && !bit s.caps 25) = true := fun c => by
        obtain ⟨far, unlinked⟩ := Bool.and_eq_true_iff.1 c
        rw [linked (remote.1 far)] at unlinked
        cases unlinked
      have inside : (s.past i [srcS a]).postrOutside i.tile i.cx ⟨64, 0, [o.s0], none⟩ = false := by
        rw [State.postrOutside, past_ctx, lane]
      simp only [past_here, past_cur, if_neg (show ¬ (s.ctx i.tile i.cx).oc = 32 from room), caps, modid, if_neg reached, inside,
        Bool.false_eq_true, if_false] at slot
      obtain ⟨e, ⟨op, packet, tile, cx, -⟩, eops, ctx, issue, parts, gddr, -⟩ := eSubmit_submits (s := s.past i [srcS a])
        (t := i.tile) (cx := i.cx) (slot := (i.slotOf o).slot) (x := ⟨64, 0, [o.s0], none⟩) (loc := none) (tgt := [])
        (clock := c.releases i.tile i.cx) (tick := c.tick + 1) nofun
      refine ⟨_, e, slot, issue, eops, op, packet, tile, cx, ?_, ?_, parts, gddr⟩
      · rw [ctx]
        rfl
      · rw [ctx]
        rfl

end Sys2Proof.Machine
end

