-- ==== Sys2Proof/Proofs/CarrySlots.lean ====
section
/-! PROOFS. The carry instructions (R233) outside a guessed-carry loop and inside one (R288, R290): the loop of the bundle in progress,
what each slot does by it, and the obligation that says so. -/

namespace Sys2Proof.Machine

section
variable {s : State} {i : Issue} {src : List Rd}

/-! ### The loop of the bundle in progress -/

theorem curLoop_outside (h : (s.ctx i.tile i.cx).lane = none) : (s.past i src).curLoop = none := by
  simp only [State.curLoop, past_cur, h]

theorem curLoop_inside {x : Lane} {g : GLoop} (h : (s.ctx i.tile i.cx).lane = some x)
    (hg : s.loop? (s.partOf i.tile) x.loop = some g) : (s.past i src).curLoop = some (g, x) := by
  have found : (s.past i src).loop? (s.partOf i.tile) x.loop = some g := hg
  simp only [State.curLoop, past_cur, past_here, past_partOf, h, found, Option.map_some]

end

/-! ### The slots (R233) -/

section
variable {s : State} {i : Issue} {gd k l : BitVec 3} {a : BitVec 6} {o : Opnds} (h : s.Executes i gd [srcS a] o)
include h

theorem execCset_outside (out : (s.ctx i.tile i.cx).lane = none) :
    execCset gd a k s = .next (s.sends i [srcS a] [i.gives 1 (.carry k.toNat o.s0)]) := by
  rw [execCset, runSlot_executes h]
  simp only [curLoop_outside out, Bool.false_eq_true, if_false, push_past h.first]

theorem execAcmp_outside (out : (s.ctx i.tile i.cx).lane = none) : execAcmp gd a k s = .next (s.sends i [srcS a] []) := by
  rw [execAcmp, runSlot_executes h, ← past_eq_sends]
  simp only [curLoop_outside out]

theorem execCgset_outside (out : (s.ctx i.tile i.cx).lane = none) :
    execCgset gd a l k s = .next (s.sends i [srcS a] []) := by
  rw [execCgset, runSlot_executes h, ← past_eq_sends]
  simp only [curLoop_outside out]

variable {x : Lane} {g : GLoop} (lane : (s.ctx i.tile i.cx).lane = some x)
  (loop : s.loop? (s.partOf i.tile) x.loop = some g)
include lane loop

/-- In a lane, a carry-out is that of the lane group's carry tile (R288). -/
theorem execCset_inside (real : x.guess = false) : execCset gd a k s = .next (s.sends i [srcS a]
    (if i.tile % 8 % 2 ^ g.lgs = 0 then [i.gives 1 (.carry k.toNat o.s0)] else [])) := by
  rw [execCset, runSlot_executes h]
  simp only [curLoop_inside lane loop, past_here, real, Bool.not_false, Bool.true_and, bne_iff_ne, ne_eq, ite_not]
  split
  · rw [push_past h.first]
  · rw [past_eq_sends]

/-- In a lane with a successor whose carry is one of the loop's, ACMP compares it with the one the successor was started with
(R290, R291). -/
theorem execAcmp_inside (real : x.guess = false) (next : x.lane + 1 < g.n) (carry : k.toNat < g.nc) :
    execAcmp gd a k s = .next (if o.s0 = g.carryIn (x.lane + 1) k.toNat then s.past i [srcS a]
      else (s.past i [srcS a]).modLane x fun y => { y with mism := true }) := by
  rw [execAcmp, runSlot_executes h]
  simp only [curLoop_inside lane loop, real, Nat.not_le.2 next, Nat.not_le.2 carry, decide_false, Bool.false_or, beq_iff_eq]

theorem execCgset_lane (real : x.guess = false) : execCgset gd a l k s = .next (s.past i [srcS a]) := by
  rw [execCgset, runSlot_executes h]
  simp only [curLoop_inside lane loop, real, Bool.not_false, Bool.true_or, if_true]

/-- The guess routine posts a guess for a lane of the round (R290). -/
theorem execCgset_guess (guess : x.guess = true) (hl : l.toNat < g.n) (carry : k.toNat < g.nc) :
    execCgset gd a l k s = .next ((s.past i [srcS a]).modLoop (s.partOf i.tile) g.id fun g =>
      { g with posts := (l.toNat, k.toNat, o.s0) :: g.posts }) := by
  rw [execCgset, runSlot_executes h]
  simp only [curLoop_inside lane loop, past_here, past_partOf, guess, Nat.not_le.2 hl, Nat.not_le.2 carry, decide_false,
    Bool.not_true, Bool.or_self, Bool.false_eq_true, if_false]

end

/-- Settles O14: CGET and SLANE push; CSET, ACMP and CGSET do by the loop of the bundle what R233 says, outside one and inside. -/
theorem carriesOfLoops : Obligations.CarriesOfLoops := by
  unfold Obligations.CarriesOfLoops
  refine ⟨fun s i st gd k l d a o => ⟨fun h => ⟨?_, ?_⟩, fun h out => ⟨?_, ?_, ?_⟩⟩, ?_⟩
  · exact runSlot_pushS h d 2 fun _ _ s => rd s.cur.regs.ci k.toNat 0
  · exact runSlot_pushS h d 1 fun _ _ s => s.spst s.here.1 s.here.2 &&& 255
  · exact execCset_outside h out
  · exact execAcmp_outside h out
  · exact execCgset_outside h out
  intro s i st gd k l a o x g h lane loop past
  refine ⟨fun real => ⟨?_, ?_, fun next carry => ?_⟩, fun guess hl carry => ?_⟩
  · exact execCset_inside h lane loop real
  · exact execCgset_lane h lane loop real
  · exact execAcmp_inside h lane loop real next carry
  · exact execCgset_guess h lane loop guess hl carry

end Sys2Proof.Machine
end

