-- ==== Sys2Proof/Proofs/KvHandles.lean ====
section
/-! PROOFS. The K unit's handles and intervals (R221, R222, R224, R229, R230): the checks of a handle, what a context outside a round
sees of a stream, masks and their class, and the obligation about KSET, KCLR, KIVL and KCLS. -/

namespace Sys2Proof.Machine

/-! ### Handles (R221, R222) -/

/-- The detail word, as R222 lists its parts. -/
theorem kInfo_eq (kh why pos : Nat) :
    kInfo kh why pos = BitVec.ofNat 64 (kh % 8 + why * 2 ^ 8 + pos % 2 ^ 32 * 2 ^ 16) := rfl

theorem kInfo_start (kh why : Nat) : kInfo kh why 0 = BitVec.ofNat 64 (kh % 8 + why * 2 ^ 8) := rfl

@[simp] theorem past_kCheck (s : State) (i : Issue) (src : List Rd) (p : Nat) (h : Dword) :
    (s.past i src).kCheck p h = s.kCheck p h := rfl

@[simp] theorem past_kHandle (s : State) (i : Issue) (src : List Rd) (t : Nat) (cx : Cx) (k : Nat) :
    (s.past i src).kHandle t cx k = s.kHandle t cx k := rfl

section
variable {s : State} {p : Nat} {h : Dword}

/-- The table has no entry in use for the index: WHY 2. -/
theorem kCheck_entry (e : (s.part p).ktCount ≤ hIndex h ∨ bit (s.kWord p (hIndex h) 0) 24 = false) : s.kCheck p h = some 2 := by
  simp only [State.kCheck]
  exact if_pos (by simpa using e)

variable (inside : hIndex h < (s.part p).ktCount) (used : bit (s.kWord p (hIndex h) 0) 24 = true)
include inside used

/-- An entry in use leaves tenant and generation to be compared. -/
theorem kCheck_used : s.kCheck p h = if hTenant h ≠ fld (s.kWord p (hIndex h) 0) 0 12 then some 3
    else if hGen h ≠ fld (s.kWord p (hIndex h) 0) 12 12 then some 4 else none := by
  simp only [State.kCheck, used]
  exact if_neg (by simpa using inside)

theorem kCheck_tenant (e : hTenant h ≠ fld (s.kWord p (hIndex h) 0) 0 12) : s.kCheck p h = some 3 := by
  rw [kCheck_used inside used, if_pos e]

variable (tenant : hTenant h = fld (s.kWord p (hIndex h) 0) 0 12)
include tenant

theorem kCheck_generation (e : hGen h ≠ fld (s.kWord p (hIndex h) 0) 12 12) : s.kCheck p h = some 4 := by
  rw [kCheck_used inside used, if_neg (not_not.2 tenant), if_pos e]

theorem kCheck_passes (e : hGen h = fld (s.kWord p (hIndex h) 0) 12 12) : s.kCheck p h = none := by
  rw [kCheck_used inside used, if_neg (not_not.2 tenant), if_neg (not_not.2 e)]

end

theorem kHandle_invalid {s : State} {t : Nat} {cx : Cx} {k : Nat} (h : (rd (s.ctx t cx).regs.kh k (false, 0)).1 = false) :
    s.kHandle t cx k = .error 1 := by
  simp only [State.kHandle, h, Bool.not_false, if_true]

/-- A register that names a stream passes every check. -/
theorem State.Stream.handle {s : State} {i : Issue} {kh : Nat} {hd : Dword} (h : s.Stream i kh hd) :
    s.kHandle i.tile i.cx kh = .ok hd := by
  obtain ⟨valid, inside, used, tenant, generation⟩ := h
  simp only [State.kHandle, valid, Bool.not_true, Bool.false_eq_true, if_false,
    kCheck_passes inside used tenant generation]

/-! ### A stream outside a round (R225, R234) -/

section
variable {s : State} {t : Nat} {cx : Cx} (out : (s.ctx t cx).lane = none) (n : Nat)
include out

theorem kNamed_outside : s.kNamed t cx n = none := by
  simp only [State.kNamed, out]

theorem kLane_outside : s.kLane t cx n = none := by
  rw [State.kLane, kNamed_outside out]
  rfl

/-- Outside a round, the length that a context sees is that of the table. -/
theorem kSeen_outside : s.kSeen t cx n = s.kLen (s.partOf t) n := by
  simp only [State.kSeen, kLane_outside out]

end

section
variable {s : State} {i : Issue} {src : List Rd} (out : (s.ctx i.tile i.cx).lane = none) (n : Nat)
include out

theorem past_kNamed_outside : (s.past i src).kNamed i.tile i.cx n = none := kNamed_outside out n

theorem past_kSeen_outside : (s.past i src).kSeen i.tile i.cx n = s.kLen (s.partOf i.tile) n := kSeen_outside out n

end

theorem inRound_outside {c : Ctx} (out : c.lane = none) : c.inRound = false := by
  rw [Ctx.inRound, out]
  rfl

/-! ### Masks and their class (R230) -/

theorem maskNat_lt (f : Nat → Bool) (n : Nat) : maskNat f n < 2 ^ n := by
  induction n with
  | zero => exact Nat.one_pos
  | succ n ih =>
    rw [maskNat, Nat.shiftLeft_eq, Nat.one_mul, Nat.pow_succ]
    split <;> omega

theorem testBit_maskNat (f : Nat → Bool) {n j : Nat} (h : j < n) : (maskNat f n).testBit j = f j := by
  induction n with
  | zero => exact absurd h (Nat.not_lt_zero _)
  | succ n ih =>
    rw [maskNat, Nat.shiftLeft_eq, Nat.one_mul]
    obtain lower | rfl := Nat.lt_succ_iff_lt_or_eq.1 h
    · split
      · rw [Nat.testBit_two_pow_add_gt lower, ih lower]
      · rw [Nat.zero_add, ih lower]
    · have rest : (maskNat f j).testBit j = false := Nat.testBit_lt_two_pow (maskNat_lt f j)
      split
      case isTrue set => rw [Nat.testBit_two_pow_add_eq, rest, set]; rfl
      case isFalse clear => rw [Nat.zero_add, rest, Bool.eq_false_iff.2 clear]

theorem bit_ofMask (f : Nat → Bool) {j : Nat} (h : j < 64) : bit (ofMask f) j = f j := by
  rw [ofMask, bit, BitVec.getLsbD_ofNat, testBit_maskNat f h, decide_eq_true h, Bool.true_and]

theorem ofMask_eq_zero (f : Nat → Bool) : ofMask f = 0 ↔ (List.range 64).any f = false := by
  rw [List.any_eq_false]
  refine ⟨fun h j hj => ?_, fun h => BitVec.eq_of_getLsbD_eq fun j hj => ?_⟩
  · rw [← bit_ofMask f (List.mem_range.1 hj), h]
    simp
  · exact (bit_ofMask f hj).trans (by simpa using h j (List.mem_range.2 hj))

theorem ofMask_eq_allOnes (f : Nat → Bool) : ofMask f = BitVec.allOnes 64 ↔ (List.range 64).all f = true := by
  rw [List.all_eq_true]
  refine ⟨fun h j hj => ?_, fun h => BitVec.eq_of_getLsbD_eq fun j hj => ?_⟩
  · rw [← bit_ofMask f (List.mem_range.1 hj), h, bit, BitVec.getLsbD_allOnes, decide_eq_true (List.mem_range.1 hj)]
  · rw [BitVec.getLsbD_allOnes, decide_eq_true hj]
    exact (bit_ofMask f hj).trans (h j (List.mem_range.2 hj))

/-- The class of a tile: 2 where every position is inside, 1 where some are, 0 where none is. -/
theorem maskClass_eq (f : Nat → Bool) :
    (if ofMask f = 0 then 0 else if ofMask f = BitVec.allOnes 64 then 2 else 1 : Dword) =
      if (List.range 64).all f then 2 else if (List.range 64).any f then 1 else 0 := by
  simp only [ofMask_eq_zero, ofMask_eq_allOnes]
  cases some : (List.range 64).any f with
  | true => simp
  | false =>
    have notAll : (List.range 64).all f = false := by
      rw [List.all_eq_false]
      exact ⟨0, by decide, List.any_eq_false.1 some 0 (by decide)⟩
    simp [notAll]

/-- The entries of a register file, one by one. -/
theorem any_toList {α : Type} {n : Nat} (v : Vector α n) (d : α) (q : α → Bool) :
    v.toList.any q = (List.range n).any fun k => q (rd v k d) := by
  have entries : v.toList = (List.range n).map fun k => rd v k d := by
    refine List.ext_getElem (by simp) fun k hk _ => ?_
    have hk : k < n := by simpa using hk
    simp [rd, hk]
  rw [entries, List.any_map]
  rfl

/-- A position is classified by its length and by the four intervals (R229, R230). -/
theorem kclsBit_eq (ki : Vector (BitVec 32 × BitVec 32) 4) (len t j : Nat) : kclsBit ki.toList len t j =
    (decide (t + j < len) && decide (t + j < 2 ^ 32) && (List.range 4).any fun k =>
      decide ((rd ki k (0, 0)).1.toNat ≤ t + j) && decide (t + j < (rd ki k (0, 0)).2.toNat)) := by
  rw [← any_toList ki (0, 0) fun x => decide (x.1.toNat ≤ t + j) && decide (t + j < x.2.toNat)]
  rfl

/-! ### The slots -/

section
variable {s : State} {i : Issue} {src : List Rd} {gd m : BitVec 3} {h a d : BitVec 6} {o : Opnds}

/-- Two results of one slot, the second for a scalar destination. -/
theorem push_pushS_past (first : i.remake = []) (l : Nat) (y : Payload) (d : BitVec 6) (v : Dword) :
    ((s.past i src).push (i.slotOf o) l y).pushS (i.slotOf o) d l v = s.sends i src (i.gives l y :: s.toS i d l v) := by
  have mode : (s.sends i src [i.gives l y]).cur = s.ctx i.tile i.cx := rfl
  rw [push_past first, State.pushS, State.toS, mode]
  split
  · rfl
  · simp [State.push, State.sends, State.modIssue, Issue.past, Issue.gives, first]

theorem execKset_fails (hx : s.Executes i gd [srcS a] o) {w : Nat} (check : s.kCheck (s.partOf i.tile) o.s0 = some w) :
    execKset gd h a s = .next (s.raises i [srcS a] o Cause.kvh (BitVec.ofNat 64 (h.toNat % 8 + w * 2 ^ 8))) := by
  rw [execKset, runSlot_executes hx]
  simp only [past_here, past_partOf, past_kCheck, check, raise_past, kInfo_start]

theorem execKset_takes (hx : s.Executes i gd [srcS a] o) (check : s.kCheck (s.partOf i.tile) o.s0 = none) :
    execKset gd h a s = .next ((s.past i [srcS a]).modCtx i.tile i.cx
      (·.mapRegs fun r => { r with kh := wr r.kh h.toNat (true, o.s0) })) := by
  rw [execKset, runSlot_executes hx]
  simp only [past_here, past_partOf, past_kCheck, check, State.modCur]

/-- KCLS against the length `len`: the mask, and its class. -/
def State.classifies (s : State) (i : Issue) (a d : BitVec 6) (m : BitVec 3) (o : Opnds) (len : Nat) : State :=
  let f := kclsBit (s.ctx i.tile i.cx).regs.ki.toList len (fld o.s0 0 32).toNat
  s.sends i [srcS a] (i.gives 4 (.mask m.toNat (ofMask f)) ::
    s.toS i d 4 (if (List.range 64).all f then 2 else if (List.range 64).any f then 1 else 0))

/-- What KCLS pushes once it has its length. -/
theorem push_classifies (first : i.remake = []) (len : Nat) :
    let bits := ofMask (kclsBit (s.ctx i.tile i.cx).regs.ki.toList len (fld o.s0 0 32).toNat)
    ((s.past i [srcS a]).push (i.slotOf o) 4 (.mask m.toNat bits)).pushS (i.slotOf o) d 4
      (if bits = 0 then 0 else if bits = BitVec.allOnes 64 then 2 else 1) = s.classifies i a d m o len := by
  intro bits
  rw [push_pushS_past first, maskClass_eq]
  rfl

theorem execKcls_invalid (hx : s.Executes i gd [srcS a] o) (kh0 : (rd (s.ctx i.tile i.cx).regs.kh 0 (false, 0)).1 = false) :
    execKcls gd d a m s = .next (s.classifies i a d m o (2 ^ 32)) := by
  rw [execKcls, runSlot_executes hx]
  simp only [past_here, past_cur, kh0, Bool.not_false, if_true, -BitVec.reduceAllOnes]
  exact congrArg _ (push_classifies hx.first _)

theorem execKcls_stream (hx : s.Executes i gd [srcS a] o) {hd : Dword} (stream : s.Stream i 0 hd)
    (out : (s.ctx i.tile i.cx).lane = none) :
    execKcls gd d a m s = .next (s.classifies i a d m o (s.kLen (s.partOf i.tile) (hIndex hd))) := by
  rw [execKcls, runSlot_executes hx]
  simp only [past_here, past_cur, stream.valid, past_kHandle, stream.handle, past_kSeen_outside out, Bool.not_true,
    Bool.false_eq_true, if_false, -BitVec.reduceAllOnes]
  exact congrArg _ (push_classifies hx.first _)

end

/-- Settles O41: KSET by the check that fails first; KCLR and KIVL write their register; KCLS by the bits of its mask. -/
theorem handlesAndIntervals : Obligations.HandlesAndIntervals := by
  unfold Obligations.HandlesAndIntervals
  intro s i st gd m h a d o p c idx w regs bad
  refine ⟨fun hx => ⟨?_, ?_, ?_, ?_⟩, fun hx => ?_, fun hx => ?_, fun hx => ?_⟩
  · exact fun e => execKset_fails hx (kCheck_entry e)
  · exact fun inside used e => execKset_fails hx (kCheck_tenant inside used e)
  · exact fun inside used tenant e => execKset_fails hx (kCheck_generation inside used tenant e)
  · exact fun inside used tenant e => execKset_takes hx (kCheck_passes inside used tenant e)
  · exact (execKclr.eq_1 ..).trans (runSlot_executes hx _)
  · exact (execKivl.eq_1 ..).trans (runSlot_executes hx _)
  · intro t inside cls classified
    have bits (len : Nat) : kclsBit c.regs.ki.toList len t = inside len := funext fun j => kclsBit_eq c.regs.ki len t j
    have given {len : Nat} (e : exec (.kcls st gd d a m) s = .next (s.classifies i a d m o len)) : classified len := by
      rw [State.classifies, bits len] at e
      exact e
    exact ⟨fun kh0 => given (execKcls_invalid hx kh0), fun hd stream out => given (execKcls_stream hx stream out)⟩

end Sys2Proof.Machine
end

