-- ==== Sys2Proof/Proofs/KvRows.lean ====
section
/-! PROOFS. Row loads of the K unit outside a round (R225, R272 to R275, R355): what a context finds at a position, the walker's reads
beside the bundle in progress, and the obligation about KLDK and KLDV. -/

namespace Sys2Proof.Machine

/-! ### The row of a position (R225, R272 to R275) -/

/-- A page word is that of its leaf where the root entry has V = 1. -/
theorem kPage_leaf {s : State} {p root n : Nat} (v : Bool) (h : bit (s.partWord p (root + 8 * (n / 256))) 0 = true) :
    s.kPage p root n v = s.partWord p ((s.partWord p (root + 8 * (n / 256))).toNat / 4096 * 4096 + 16 * (n % 256) + 8 * b2n v) := by
  simp only [State.kPage, State.kSlot, h, if_true]

/-- No append that a truncation has left is on its way to the position. -/
theorem kLanding_false {s : State} {p n pos : Nat}
    (h : ∀ e ∈ (s.part p).appends, e.stream = n → e.pos = pos → e.dropped = true) : s.kLanding p n pos = false := by
  rw [State.kLanding, List.any_eq_false]
  intro e he
  simpa [and_imp] using h e he

section
variable {s : State} {t : Nat} {cx : Cx} (out : (s.ctx t cx).lane = none) {n pos : Nat} (kh : Nat) (v : Bool)
include out

theorem kRow_beyond (h : s.kLen (s.partOf t) n ≤ pos) : s.kRow t cx n (s.kRoot (s.partOf t) n) pos kh v = .row 0 none := by
  unfold State.kRow
  exact if_pos ⟨rfl, (kSeen_outside out n).symm ▸ h⟩

theorem kRow_present (h : pos < s.kLen (s.partOf t) n) (landed : s.kLanding (s.partOf t) n pos = false) {w : Dword}
    (page : s.kPage (s.partOf t) (s.kRoot (s.partOf t) n) (pos / 64) v = w) (present : fld w 0 2 = 1) :
    s.kRow t cx n (s.kRoot (s.partOf t) n) pos kh v =
      .row (s.kRowAt (s.partOf t) (rowAddr (pageLoc w) pos)) (some (pageLoc w)) := by
  have below : ¬ s.kSeen t cx n ≤ pos := by
    rw [kSeen_outside out]
    exact Nat.not_le.2 h
  have one : pageState w = 1 := congrArg BitVec.toNat present
  simp only [State.kRow, below, and_false, if_false, kLane_outside out, landed, Bool.false_eq_true, State.kLoadPage, page, one]

end

/-! ### The walker's reads beside the bundle in progress -/

theorem logReads_withIssue (s : State) (x : Option Issue) (p : Nat) (as : List Nat) :
    State.logReads { s with issue := x } p as = { s.logReads p as with issue := x } := by
  unfold State.logReads
  induction as generalizing s with
  | nil => rfl
  | cons a r ih =>
    rw [List.foldl_cons, List.foldl_cons, ← ih]
    congr 1
    by_cases h : s.admits p a 8
    · rw [if_pos h, if_pos (by exact h)]
    · rw [if_neg h, if_neg (by exact h)]
      rfl

theorem kTakeRow_withIssue (s : State) (x : Option Issue) (p page pos : Nat) :
    State.kTakeRow { s with issue := x } p page pos = { s.kTakeRow p page pos with issue := x } := by
  unfold State.kTakeRow
  by_cases h : s.admits p (rowAddr page pos) 256
  · rw [if_pos h, if_pos (by exact h)]
    rfl
  · rw [if_neg h, if_neg (by exact h)]
    rfl

@[simp] theorem kTrace_ctx (s : State) (p i root pos : Nat) (v : Bool) (t : Nat) (cx : Cx) :
    (s.kTrace p i root pos v).ctx t cx = s.ctx t cx := by
  rw [State.kTrace, logReads_frame]
  rfl

@[simp] theorem kTakeRow_ctx (s : State) (p page pos t : Nat) (cx : Cx) : (s.kTakeRow p page pos).ctx t cx = s.ctx t cx := by
  unfold State.kTakeRow
  split <;> rfl

/-! ### The slots (R225) -/

/-- A bundle that goes on with one result of a load, which its context counts. -/
def State.delivers (s : State) (i : Issue) (src : List Rd) (r : Res) : State :=
  { s.putCtx i.tile i.cx (s.loads i) with
    issue := some { i.past (s.ctx i.tile i.cx).frame.mode src with out := i.out ++ [r] } }

section
variable {s : State} {i : Issue} {src : List Rd} {o : Opnds} {kh : Nat} {a : Dword} {v : Bool} {hd : Dword}

/-- What a load delivers, put into the bundle of a state that has the same contexts. -/
theorem loaded_past (first : i.remake = []) {u : State} (same : u.ctx i.tile i.cx = s.ctx i.tile i.cx) (row : Vec) (f : Option Nat) :
    (State.modCur { u with issue := (s.past i src).issue } fun c => { c with ol := c.ol + 1 }).modIssue (fun x =>
      { x with out := x.out ++
        [{ rem := 24, slot := (i.slotOf o).slot, pc := (i.slotOf o).pc, ol := true, frame := f, pay := .vector 29 row }] }) =
    u.delivers i src { i.loaded 24 (.vector 29 row) with frame := f } := by
  rw [slotOf_slot first, slotOf_pc first, State.delivers, same]
  rfl

theorem kLoad_invalid (h : (rd (s.ctx i.tile i.cx).regs.kh kh (false, 0)).1 = false) :
    (s.past i src).kLoad (i.slotOf o) kh a v = s.raises i src o Cause.kvh
      (BitVec.ofNat 64 (kh % 8 + 1 * 2 ^ 8 + a.toNat % 2 ^ 32 * 2 ^ 16)) := by
  simp only [State.kLoad, past_here, past_kHandle, kHandle_invalid h, raise_past, kInfo_eq]

variable (stream : s.Stream i kh hd)
include stream

theorem kLoad_bound (h : 16 * hBound hd ≤ a.toNat) : (s.past i src).kLoad (i.slotOf o) kh a v = s.raises i src o Cause.kvh
    (BitVec.ofNat 64 (kh % 8 + 5 * 2 ^ 8 + a.toNat % 2 ^ 32 * 2 ^ 16)) := by
  simp only [State.kLoad, past_here, past_kHandle, stream.handle, if_pos h, raise_past, kInfo_eq]

variable (inside : a.toNat < 16 * hBound hd) (first : i.remake = [])
include inside first

/-- A row that is in no page is a zero row. -/
theorem kLoad_zero
    (row : (s.past i src).kRow i.tile i.cx (hIndex hd) (s.kRoot (s.partOf i.tile) (hIndex hd)) a.toNat kh v = .row 0 none) :
    (s.past i src).kLoad (i.slotOf o) kh a v = s.delivers i src (i.loaded 24 (.vector 29 0)) := by
  have root : (s.past i src).kRoot (s.partOf i.tile) (hIndex hd) = s.kRoot (s.partOf i.tile) (hIndex hd) := rfl
  simp only [State.kLoad, past_here, past_kHandle, stream.handle, if_neg (Nat.not_le.2 inside), past_partOf, root, row]
  exact loaded_past first rfl 0 none

/-- A row of a page is read through the walker's port, and its page is used now (R277, R355). -/
theorem kLoad_row {x : Vec} {f : Nat}
    (row : (s.past i src).kRow i.tile i.cx (hIndex hd) (s.kRoot (s.partOf i.tile) (hIndex hd)) a.toNat kh v = .row x (some f)) :
    (s.past i src).kLoad (i.slotOf o) kh a v =
      ((s.kTrace (s.partOf i.tile) (hIndex hd) (s.kRoot (s.partOf i.tile) (hIndex hd)) a.toNat v).kTakeRow (s.partOf i.tile) f
        a.toNat).delivers i src { i.loaded 24 (.vector 29 x) with frame := some f } := by
  have root : (s.past i src).kRoot (s.partOf i.tile) (hIndex hd) = s.kRoot (s.partOf i.tile) (hIndex hd) := rfl
  have traced (root : Nat) : (s.past i src).kTrace (s.partOf i.tile) (hIndex hd) root a.toNat v =
      { s.kTrace (s.partOf i.tile) (hIndex hd) root a.toNat v with issue := (s.past i src).issue } := logReads_withIssue ..
  simp only [State.kLoad, past_here, past_kHandle, stream.handle, if_neg (Nat.not_le.2 inside), past_partOf, root, row, traced,
    kTakeRow_withIssue]
  exact loaded_past first (by simp) x (some f)

end

/-- The two loads of a slot that executes: KLDK of the key page, KLDV of the value page. -/
theorem exec_rowLoads {s : State} {i : Issue} {gd : BitVec 3} {h a : BitVec 6} {o : Opnds} (hx : s.Executes i gd [srcS a] o)
    (st : BitVec 1) : ∀ q ∈ ([(.kldk st gd h a, 0), (.kldv st gd h a, 1)] : List (Instr × Nat)), ∃ v,
      b2n v = q.2 ∧ (q.2 == 1) = v ∧ exec q.1 s = .next ((s.past i [srcS a]).kLoad (i.slotOf o) h.toNat o.s0 v) := by
  simp only [List.forall_mem_cons]
  exact ⟨⟨false, rfl, rfl, (execKldk.eq_1 ..).trans (runSlot_executes hx _)⟩,
    ⟨true, rfl, rfl, (execKldv.eq_1 ..).trans (runSlot_executes hx _)⟩, nofun⟩

/-- Settles O42: a load is refused by its register or its bound, finds a zero row at and beyond the length, and below it the row that
its page holds. -/
theorem rowLoadsWalkThePages : Obligations.RowLoadsWalkThePages := by
  unfold Obligations.RowLoadsWalkThePages
  intro s i st gd h a o hd hx out p kh pos ent len root up word page row taken gives bad q hq
  obtain ⟨v, hv, two, load⟩ := exec_rowLoads hx st q hq
  refine ⟨fun invalid => ?_, fun stream beyond => ?_, fun stream inside beyond => ?_,
    fun stream inside below landed leaf present => ?_⟩
  · exact load.trans (congrArg _ (kLoad_invalid invalid))
  · exact load.trans (congrArg _ (kLoad_bound stream beyond))
  · exact load.trans (congrArg _ (kLoad_zero stream inside hx.first (kRow_beyond out kh v beyond)))
  · have found : s.kPage p root (pos / 64) v = word q.2 := by
      rw [← hv]
      exact kPage_leaf v leaf
    rw [two]
    exact load.trans (congrArg _ (kLoad_row stream inside hx.first
      (kRow_present out kh v below (kLanding_false landed) found present)))

end Sys2Proof.Machine
end

