-- ==== Sys2Proof/Proofs/KvAppends.lean ====
section
/-! PROOFS. Appends of the K unit outside a round (R227, R275, R355): what a write of the unit leaves, what the walker keeps of a page
that it has used, the reserved position, and the obligation about KAPP. -/

namespace Sys2Proof.Machine

/-! ### Writes of the K unit (R355) -/

section
variable (s : State) (p a n v : Nat)

/-- A write changes GDDR-7 where it is admitted, and the log where it is not. -/
theorem kPoke_frame : s.kPoke p a n v = { s with
    gddr := if s.admits p a n = true then s.gddr.storeNat a n v else s.gddr
    ensign := { s.ensign with log := (s.kPoke p a n v).ensign.log } } := by
  unfold State.kPoke
  split <;> rfl

@[simp] theorem kPoke_gddr : (s.kPoke p a n v).gddr = if s.admits p a n = true then s.gddr.storeNat a n v else s.gddr := by
  rw [kPoke_frame]

@[simp] theorem kPoke_issue : (s.kPoke p a n v).issue = s.issue := by
  rw [kPoke_frame]

@[simp] theorem kPoke_tiles : (s.kPoke p a n v).tiles = s.tiles := by
  rw [kPoke_frame]

@[simp] theorem kPoke_parts : (s.kPoke p a n v).parts = s.parts := by
  rw [kPoke_frame]

@[simp] theorem kPoke_ctx (t : Nat) (cx : Cx) : (s.kPoke p a n v).ctx t cx = s.ctx t cx := by
  rw [kPoke_frame]
  rfl

@[simp] theorem kPoke_part (q : Nat) : (s.kPoke p a n v).part q = s.part q := by
  rw [kPoke_frame]
  rfl

@[simp] theorem kPoke_now : (s.kPoke p a n v).now = s.now := by
  rw [kPoke_frame]

end

/-! ### The tables of a partition -/

/-- What the walkers of partition `p` read is the same: GDDR-7, the range that is admitted, and where the handle table stands. -/
structure State.SameTables (p : Nat) (s t : State) : Prop where
  gddr : t.gddr = s.gddr
  low : (t.part p).lo = (s.part p).lo
  high : (t.part p).len = (s.part p).len
  base : (t.part p).ktBase = (s.part p).ktBase

theorem sameTables_modPart {s u : State} {p : Nat} {f : Part → Part} (same : u.gddr = s.gddr)
    (h : (f (u.part p)).lo = (s.part p).lo ∧ (f (u.part p)).len = (s.part p).len ∧ (f (u.part p)).ktBase = (s.part p).ktBase) :
    s.SameTables p (u.modPart p f) := by
  obtain ⟨low, high, base⟩ := h
  exact ⟨same, by rw [part_modPart, low], by rw [part_modPart, high], by rw [part_modPart, base]⟩

section
variable {p : Nat} {s t : State} (h : s.SameTables p t)
include h

theorem State.SameTables.admits (a n : Nat) : t.admits p a n = s.admits p a n := by
  simp only [State.admits, h.low, h.high]

theorem State.SameTables.partWord (a : Nat) : t.partWord p a = s.partWord p a := by
  rw [State.partWord, h.admits, h.gddr]
  rfl

theorem State.SameTables.kAddr (n : Nat) : t.kAddr p n = s.kAddr p n := by
  rw [State.kAddr, h.base]
  rfl

theorem State.SameTables.kRoot (n : Nat) : t.kRoot p n = s.kRoot p n := by
  rw [State.kRoot, State.kWord, h.kAddr, h.partWord]
  rfl

theorem State.SameTables.kPage (root n : Nat) (v : Bool) : t.kPage p root n v = s.kPage p root n v := by
  simp only [State.kPage, State.kSlot, h.partWord]

theorem State.SameTables.kPagesFrom (root n : Nat) : t.kPagesFrom p root n = s.kPagesFrom p root n := by
  simp only [State.kPagesFrom, h.partWord, h.kPage]

end

/-! ### What a walker keeps of its reads (R277, R355) -/

/-- The state in which a walker of the partition has logged its refused reads, and noted when it used which page. -/
def State.pagesRead (s : State) (p : Nat) (log : List (Nat × Nat × Nat)) (us : List PageUse) : State :=
  State.modPart { s with ensign := { s.ensign with log := log } } p fun x => { x with uses := us }

section
variable (s : State) (p : Nat) (log : List (Nat × Nat × Nat)) (us : List PageUse)

theorem pagesRead_tables : s.SameTables p (s.pagesRead p log us) := by
  simp only [State.pagesRead]
  exact sameTables_modPart rfl (by exact ⟨rfl, rfl, rfl⟩)

theorem pagesRead_appends : ((s.pagesRead p log us).part p).appends = (s.part p).appends := by
  simp only [State.pagesRead, part_modPart]
  rfl

end

theorem kTrace_frame (s : State) (p n root pos : Nat) (v : Bool) :
    ∃ log, s.kTrace p n root pos v = { s with ensign := { s.ensign with log := log } } := ⟨_, logReads_frame ..⟩

theorem kPage_kTrace (s : State) (p n root pos : Nat) (v : Bool) (q root' m : Nat) (u : Bool) :
    (s.kTrace p n root pos v).kPage q root' m u = s.kPage q root' m u := by
  obtain ⟨log, e⟩ := kTrace_frame s p n root pos v
  rw [e]
  rfl

/-- A walk to a page that is then used. -/
theorem kTrace_kUse (s : State) (p n root pos : Nat) (v : Bool) (f : Nat) :
    ∃ log us, (s.kTrace p n root pos v).kUse p f = s.pagesRead p log us := by
  obtain ⟨log, e⟩ := kTrace_frame s p n root pos v
  exact ⟨log, _, by rw [e]; rfl⟩

theorem pagesRead_pagesRead (s : State) (p : Nat) (log log' : List (Nat × Nat × Nat)) (us us' : List PageUse) :
    (s.pagesRead p log us).pagesRead p log' us' = s.pagesRead p log' us' := by
  simp only [State.pagesRead, State.modPart, State.part, aget_aput_same, aput_aput]

/-! ### The pages of an append (R275) -/

/-- An append whose pages are present walks to both and waits for neither. -/
theorem kAppendPages_present {s : State} {p n root pos kh : Nat} (h : ∀ v, fld (s.kPage p root (pos / 64) v) 0 2 = 1) :
    ∃ log us, s.kAppendPages p n root pos kh = .ok (s.pagesRead p log us, none) := by
  have present (v : Bool) : pageState (s.kPage p root (pos / 64) v) = 1 := congrArg BitVec.toNat (h v)
  obtain ⟨log, us, key⟩ := kTrace_kUse s p n root pos false (pageLoc (s.kPage p root (pos / 64) false))
  obtain ⟨log', us', value⟩ := kTrace_kUse (s.pagesRead p log us) p n root pos true (pageLoc (s.kPage p root (pos / 64) true))
  refine ⟨log', us', ?_⟩
  simp only [State.kAppendPages, kPage_kTrace, present, key, (pagesRead_tables s p log us).kPage, value, pagesRead_pagesRead,
    Option.or_none]

/-! ### The reserved position (R227) -/

/-- An append on its way to the position `pos` of stream `n`, as it is reserved at the slot. -/
def State.append (s : State) (i : Issue) (n root pos : Nat) (key value : Vec) : Append :=
  ⟨s.fresh, i.tile, i.cx, n, pos, key, value, s.now + 1 + Config.freeDur s.free, false, false, root⟩

/-- The state in which position `pos` of stream `n` is reserved: the length of the table has risen (R355), the append is on its way,
and its context counts it. -/
def State.positionTaken (s : State) (i : Issue) (n root pos : Nat) (key value : Vec) : State :=
  ((State.kSetLen { s with fresh := s.fresh + 1, free := s.free + 1 } (s.partOf i.tile) n (pos + 1)).modCtx i.tile i.cx
    fun c => { c with os := c.os + 1 }).modPart (s.partOf i.tile)
    fun x => { x with appends := x.appends ++ [s.append i n root pos key value] }

theorem kReserve_outside {s : State} {i : Issue} (out : (s.ctx i.tile i.cx).lane = none) (n root pos : Nat) (key value : Vec) :
    (s.kReserve i.tile i.cx n root pos key value).2 = s.positionTaken i n root pos key value := by
  simp only [State.kReserve, kNamed_outside out, next_fst, next_snd, duration_snd, State.positionTaken, State.append, modCtx_now,
    State.kSetLen, kPoke_now]
  rfl

section
variable (s : State) (i : Issue) (n root pos : Nat) (key value : Vec)

theorem positionTaken_issue : (s.positionTaken i n root pos key value).issue = s.issue := by
  simp [State.positionTaken, State.kSetLen]

theorem positionTaken_gddr : (s.positionTaken i n root pos key value).gddr =
    if s.admits (s.partOf i.tile) (s.kAddr (s.partOf i.tile) n + 4) 4 = true
    then s.gddr.storeNat (s.kAddr (s.partOf i.tile) n + 4) 4 (pos + 1) else s.gddr := by
  simp only [State.positionTaken, modPart_gddr, modCtx_gddr, State.kSetLen, kPoke_gddr]
  rfl

theorem positionTaken_ctx : (s.positionTaken i n root pos key value).ctx i.tile i.cx =
    { s.ctx i.tile i.cx with os := (s.ctx i.tile i.cx).os + 1 } := by
  simp only [State.positionTaken, modPart_ctx, ctx_modCtx, State.kSetLen, kPoke_ctx]
  rfl

theorem positionTaken_appends : ((s.positionTaken i n root pos key value).part (s.partOf i.tile)).appends =
    (s.part (s.partOf i.tile)).appends ++ [s.append i n root pos key value] := by
  simp only [State.positionTaken, part_modPart, modCtx_part, State.kSetLen, kPoke_part]
  rfl

/-- A change to a partition that leaves its directory leaves every segment. -/
theorem seg?_modPart (s : State) (p : Nat) {f : Part → Part} (h : ∀ x, (f x).dir = x.dir) (q k : Nat) :
    (s.modPart p f).seg? q k = s.seg? q k := by
  by_cases e : p = q
  · subst e
    simp only [State.seg?, part_modPart, h]
  · simp only [State.seg?, part_modPart_other s e]

theorem positionTaken_seg? (q k : Nat) : (s.positionTaken i n root pos key value).seg? q k = s.seg? q k := by
  have parts : (State.modCtx (State.kSetLen { s with fresh := s.fresh + 1, free := s.free + 1 } (s.partOf i.tile) n (pos + 1)) i.tile
      i.cx fun c => { c with os := c.os + 1 }).parts = s.parts := by
    simp [State.kSetLen]
  exact (seg?_modPart _ _ (by exact fun _ => rfl) q k).trans (seg?_of_parts parts q k)

end

/-! ### The slot -/

section
variable {s : State} {i : Issue} {src : List Rd} {o : Opnds} {kh : Nat} {hd : Dword} (stream : s.Stream i kh hd)
  (out : (s.ctx i.tile i.cx).lane = none) (key value : Vec)
include stream out

/-- At the bound of its handle an append is refused (R222). -/
theorem kAppend_full (full : 16 * hBound hd < s.kLen (s.partOf i.tile) (hIndex hd) + 1) :
    (s.past i src).kAppend (i.slotOf o) kh key value =
      s.raises i src o Cause.kvh (kInfo kh 5 (s.kLen (s.partOf i.tile) (hIndex hd))) := by
  simp only [State.kAppend, past_here, past_kHandle, stream.handle, past_kNamed_outside out, Option.any_none,
    Bool.false_eq_true, if_false, past_kSeen_outside out, if_pos full, raise_past]

/-- Below it an append whose pages are present reserves its position. -/
theorem kAppend_present (room : s.kLen (s.partOf i.tile) (hIndex hd) + 1 ≤ 16 * hBound hd)
    (present : ∀ v, fld (s.kPage (s.partOf i.tile) (s.kRoot (s.partOf i.tile) (hIndex hd))
      (s.kLen (s.partOf i.tile) (hIndex hd) / 64) v) 0 2 = 1) :
    ∃ log us, (s.past i src).kAppend (i.slotOf o) kh key value =
      ((s.past i src).pagesRead (s.partOf i.tile) log us).positionTaken i (hIndex hd) (s.kRoot (s.partOf i.tile) (hIndex hd))
        (s.kLen (s.partOf i.tile) (hIndex hd)) key value := by
  have root : (s.past i src).kRoot (s.partOf i.tile) (hIndex hd) = s.kRoot (s.partOf i.tile) (hIndex hd) := rfl
  obtain ⟨log, us, pages⟩ := kAppendPages_present (s := s.past i src) (n := hIndex hd) (kh := kh) present
  refine ⟨log, us, ?_⟩
  rw [← kReserve_outside (by exact out)]
  simp only [State.kAppend, past_here, past_partOf, past_cur, past_kHandle, stream.handle, past_kNamed_outside out,
    Option.any_none, Bool.false_eq_true, if_false, past_kSeen_outside out, if_neg (Nat.not_lt.2 room), out, Option.filter_none, root, pages]

end

/-- Settles O43: at the bound an append is refused, and below it, its pages present, it is the reservation of its position. -/
theorem appendsReserveThePosition : Obligations.AppendsReserveThePosition := by
  unfold Obligations.AppendsReserveThePosition
  intro s i st gd h a b o hd hx out stream p n pos c
  have slot : exec (.kapp st gd h a b) s = .next ((s.past i [srcV a, srcV b]).kAppend (i.slotOf o) h.toNat o.v0 o.v1) :=
    (execKapp.eq_1 ..).trans (runSlot_executes hx _)
  refine ⟨fun full => ?_, fun room present => ?_⟩
  · exact slot.trans (congrArg _ (kAppend_full stream out o.v0 o.v1 full))
  · obtain ⟨log, us, reserved⟩ := kAppend_present (src := [srcV a, srcV b]) (o := o) stream out o.v0 o.v1 room present
    have home : ((s.past i [srcV a, srcV b]).pagesRead p log us).partOf i.tile = p := partOf_modPart _ _ _ rfl _
    refine ⟨_, slot.trans (congrArg _ reserved), ?_, ?_, ?_, ?_, fun q k => ?_⟩
    · rw [positionTaken_issue]
      rfl
    · rw [positionTaken_gddr, home, (pagesRead_tables ..).admits, (pagesRead_tables ..).kAddr]
      rfl
    · rw [positionTaken_ctx]
      rfl
    · have appends := positionTaken_appends ((s.past i [srcV a, srcV b]).pagesRead p log us) i n (s.kRoot p n) pos o.v0 o.v1
      rw [home, pagesRead_appends] at appends
      exact appends
    · rw [positionTaken_seg?]
      exact seg?_modPart _ _ (by exact fun _ => rfl) q k

end Sys2Proof.Machine
end

