-- ==== Sys2Proof/Proofs/KvLengths.lean ====
section
/-! PROOFS. Lengths and marks of streams (R228, R278) and prefetches (R231): what a truncation leaves of the contexts and of the appends
besides those that it discards, what a prefetch starts, and the obligation about KLEN, KMARK, KTRUNC and KPF. -/

namespace Sys2Proof.Machine

/-- Steps one after the other that each keep a reflexive and transitive relation keep it together. -/
theorem foldl_rel {α β : Type} {R : α → α → Prop} (refl : ∀ a, R a a) (trans : ∀ {a b c}, R a b → R b c → R a c)
    {f : α → β → α} (hf : ∀ a b, R a (f a b)) (l : List β) (a : α) : R a (l.foldl f a) := by
  induction l generalizing a with
  | nil => exact refl a
  | cons b r ih => exact trans (hf a b) (ih _)

/-! ### What the pages of a truncation leave (R278) -/

/-- The registers and store counts of every context stand, and the bundle in progress; in partition `p` the appends. -/
structure State.Frees (p : Nat) (s t : State) : Prop where
  issue : t.issue = s.issue
  ctx : ∀ n cx, (t.ctx n cx).regs = (s.ctx n cx).regs ∧ (t.ctx n cx).os = (s.ctx n cx).os
  appends : (t.part p).appends = (s.part p).appends

theorem State.Frees.refl (p : Nat) (s : State) : s.Frees p s := ⟨rfl, fun _ _ => ⟨rfl, rfl⟩, rfl⟩

theorem State.Frees.trans {p : Nat} {s t u : State} (h : s.Frees p t) (h' : t.Frees p u) : s.Frees p u :=
  ⟨h'.issue.trans h.issue, fun n cx => ⟨(h'.ctx n cx).1.trans (h.ctx n cx).1, (h'.ctx n cx).2.trans (h.ctx n cx).2⟩,
    h'.appends.trans h.appends⟩

/-- A change to the partition beside its appends. -/
theorem frees_modPart (s : State) (p : Nat) {f : Part → Part} (h : ∀ x, (f x).appends = x.appends) : s.Frees p (s.modPart p f) :=
  ⟨rfl, fun _ _ => ⟨rfl, rfl⟩, by rw [part_modPart, h]⟩

theorem frees_kPoke (s : State) (p a n v : Nat) : s.Frees p (s.kPoke p a n v) :=
  ⟨kPoke_issue .., fun _ _ => by rw [kPoke_ctx]; exact ⟨rfl, rfl⟩, by rw [kPoke_part]⟩

theorem frees_kAddPages (s : State) (p i root : Nat) (d : Int) : s.Frees p (s.kAddPages p i root d) := by
  unfold State.kAddPages
  split
  · exact frees_kPoke ..
  · exact .refl p s

/-- What every change to a numbered value keeps, a change to all of them keeps. -/
theorem aget_map_keeps {α β : Type} (q : α → β) (f : Nat × α → Nat × α) (key : ∀ x, (f x).1 = x.1) (keeps : ∀ x, q (f x).2 = q x.2)
    (l : List (Nat × α)) (n : Nat) (d : α) : q (aget (l.map f) n d) = q (aget l n d) := by
  induction l with
  | nil => rfl
  | cons a r ih =>
    have pair : f a = (a.1, (f a).2) := Prod.ext (key a) rfl
    rw [List.map_cons, pair, aget, aget]
    split
    · exact keeps a
    · exact ih

/-- Captured accesses lie beside the registers of their contexts. -/
theorem frees_mapCaptured (s : State) (p : Nat) (f : SlotRec → Obstacle → Origin → Origin) : s.Frees p (s.mapCaptured p f) := by
  refine ⟨rfl, fun n cx => ?_, ?_⟩
  · refine Prod.ext_iff.1 (aget_map_keeps (fun x : Tile => ((x.ctx cx).regs, (x.ctx cx).os)) _ (fun x => ?_) (fun x => ?_)
      s.tiles n {})
    · dsimp only
      split <;> rfl
    · dsimp only
      split
      · cases cx <;> rfl
      · rfl
  · unfold State.mapCaptured
    rw [part_modPart]
    rfl

/-- The word of a page that goes is cleared. -/
def State.kClear (s : State) (p root n : Nat) (v : Bool) : State :=
  match s.kSlot p root n v with
  | some a => s.kPoke p a 8 0
  | none => s

/-- The frame or the spill space of a page that goes, whose word was `w`, goes back to its pool, where no fetch of the page is to do
that. -/
def State.kGiveBack (s : State) (p i root n : Nat) (v : Bool) (w : Dword) : State :=
  let fetching := (s.part p).fetches.any fun f => f.stream == i && f.pageNo == n && f.value == v && !f.freed
  let late := ((s.part p).appends.filter fun a => a.stream == i && a.pos / 64 == n).map (·.id)
  match pageState w with
  | 1 => (s.kAddPages p i root (-1)).modPart p fun x => { x with returning := x.returning ++ [(pageLoc w, late)] }
  | _ =>
    if fetching then s.modPart p fun x => { x with fetches := x.fetches.map fun f =>
      if f.stream = i ∧ f.pageNo = n ∧ f.value = v then { f with freed := true } else f }
    else if pageState w = 2 then s.modPart p fun x => { x with spillFree := insertNat (pageLoc w) x.spillFree }
    else s

/-- A page that goes: its row stays with the captured loads, its word is cleared, its place is given back. -/
def State.kDrop (s : State) (p i root : Nat) (x : Nat × Bool × Dword) : State :=
  ((if pageState x.2.2 = 1 then s.kKeepRows p i root x.1 x.2.1 (pageLoc x.2.2) else s).kClear p root x.1 x.2.1).kGiveBack p i root x.1
    x.2.1 x.2.2

/-- The fetches of pages at and beyond a new length that append for their frames alone have no page to bring. -/
def State.kForget (s : State) (p i root len : Nat) : State :=
  s.modPart p fun x => { x with fetches := x.fetches.map fun f =>
    if f.stream = i ∧ f.root = root ∧ (len + 63) / 64 ≤ f.pageNo ∧ pageState f.word = 0 then { f with freed := true } else f }

/-- Page by page, the pages at and beyond a new length go. -/
theorem kFree_eq (s : State) (p i len : Nat) : s.kFree p i len =
    ((s.kForget p i (s.kRoot p i) len).kPagesFrom p (s.kRoot p i) ((len + 63) / 64)).foldl (fun u x => u.kDrop p i (s.kRoot p i) x)
      (s.kForget p i (s.kRoot p i) len) := rfl

theorem frees_kClear (s : State) (p root n : Nat) (v : Bool) : s.Frees p (s.kClear p root n v) := by
  unfold State.kClear
  split
  · exact frees_kPoke ..
  · exact .refl p s

theorem frees_kGiveBack (s : State) (p i root n : Nat) (v : Bool) (w : Dword) : s.Frees p (s.kGiveBack p i root n v w) := by
  unfold State.kGiveBack
  dsimp only
  split
  · exact (frees_kAddPages ..).trans (frees_modPart _ p (by exact fun _ => rfl))
  · split
    · exact frees_modPart _ p (by exact fun _ => rfl)
    · split
      · exact frees_modPart _ p (by exact fun _ => rfl)
      · exact .refl p s

theorem frees_kDrop (s : State) (p i root : Nat) (x : Nat × Bool × Dword) : s.Frees p (s.kDrop p i root x) := by
  have kept : s.Frees p (if pageState x.2.2 = 1 then s.kKeepRows p i root x.1 x.2.1 (pageLoc x.2.2) else s) := by
    split
    · exact frees_mapCaptured ..
    · exact .refl p s
  exact kept.trans ((frees_kClear ..).trans (frees_kGiveBack ..))

theorem frees_kForget (s : State) (p i root len : Nat) : s.Frees p (s.kForget p i root len) :=
  frees_modPart s p (by exact fun _ => rfl)

theorem frees_kFree (s : State) (p i len : Nat) : s.Frees p (s.kFree p i len) := by
  rw [kFree_eq]
  exact (frees_kForget ..).trans (foldl_rel (State.Frees.refl p) State.Frees.trans (fun u x => frees_kDrop u p i _ x) _ _)

theorem frees_kSweep (s : State) (p : Nat) : s.Frees p (s.kSweep p) := by
  unfold State.kSweep
  exact frees_modPart s p (by exact fun _ => rfl)

/-! ### Truncation (R228, R278) -/

/-- An append that a truncation of stream `n` to the length `cut` discards. -/
def Append.cutAt (e : Append) (n cut : Nat) : Append := if e.stream = n ∧ cut ≤ e.pos then { e with dropped := true } else e

/-- A truncation before its pages go: the length has fallen (R355), the appends beyond it are discarded. -/
def State.shortened (s : State) (p n cut : Nat) : State :=
  (s.kSetLen p n cut).modPart p fun x => { x with appends := x.appends.map (·.cutAt n cut) }

theorem kCut_eq (s : State) (p n cut : Nat) : s.kCut p n cut = ((s.shortened p n cut).kFree p n cut).kSweep p := rfl

/-- A truncation leaves registers and store counts, and discards the appends at and beyond the new length. -/
theorem kCut_keeps (s : State) (p n cut : Nat) : (s.kCut p n cut).issue = s.issue ∧
    (∀ t cx, ((s.kCut p n cut).ctx t cx).regs = (s.ctx t cx).regs ∧ ((s.kCut p n cut).ctx t cx).os = (s.ctx t cx).os) ∧
    ((s.kCut p n cut).part p).appends = (s.part p).appends.map (·.cutAt n cut) := by
  obtain ⟨issue, ctx, appends⟩ := (frees_kFree (s.shortened p n cut) p n cut).trans (frees_kSweep _ p)
  rw [kCut_eq]
  refine ⟨issue.trans ?_, fun t cx => ?_, appends.trans ?_⟩
  · simp [State.shortened, State.kSetLen]
  · have same : (s.shortened p n cut).ctx t cx = s.ctx t cx := by
      simp [State.shortened, State.kSetLen]
    rw [← same]
    exact ctx t cx
  · simp only [State.shortened, part_modPart, State.kSetLen, kPoke_part]

/-- A truncation changes the length alone among what the walkers read. -/
theorem shortened_tables {s u : State} {p n cut : Nat} (gddr : (s.kSetLen p n cut).gddr = u.gddr) (part : s.part p = u.part p) :
    u.SameTables p (s.shortened p n cut) := by
  have kept : (s.kSetLen p n cut).part p = u.part p := (kPoke_part ..).trans part
  refine sameTables_modPart gddr ?_
  rw [kept]
  exact ⟨rfl, rfl, rfl⟩

theorem kForget_tables (s : State) (p i root len : Nat) : s.SameTables p (s.kForget p i root len) :=
  sameTables_modPart rfl (by exact ⟨rfl, rfl, rfl⟩)

/-- Where no page stands at or beyond the new length, a truncation changes nothing in GDDR-7 besides, and no tile. -/
theorem kCut_pageless {s u : State} {p n cut : Nat} (tables : u.SameTables p (s.shortened p n cut))
    (h : u.kPagesFrom p (u.kRoot p n) ((cut + 63) / 64) = []) :
    (s.kCut p n cut).gddr = u.gddr ∧ (s.kCut p n cut).tiles = s.tiles := by
  have none : ((s.shortened p n cut).kForget p n ((s.shortened p n cut).kRoot p n) cut).kPagesFrom p
      ((s.shortened p n cut).kRoot p n) ((cut + 63) / 64) = [] := by
    rw [(kForget_tables ..).kPagesFrom, tables.kRoot, tables.kPagesFrom, h]
  rw [kCut_eq, kFree_eq, none, List.foldl_nil]
  exact ⟨tables.gddr, kPoke_tiles ..⟩

/-! ### Prefetches (R231) -/

/-- Nothing but the fetches of the partitions, their numbers and durations, and the log of refused reads has changed. -/
def State.Prefetches (s t : State) : Prop :=
  (∃ ps fresh free log, t = { s with parts := ps, fresh := fresh, free := free, ensign := { s.ensign with log := log } }) ∧
    ∀ q, { t.part q with fetches := [] } = { s.part q with fetches := [] }

theorem State.Prefetches.refl (s : State) : s.Prefetches s := ⟨⟨_, _, _, _, rfl⟩, fun _ => rfl⟩

theorem State.Prefetches.trans {s t u : State} (h : s.Prefetches t) (h' : t.Prefetches u) : s.Prefetches u := by
  obtain ⟨⟨ps, fresh, free, log, rfl⟩, parts⟩ := h
  obtain ⟨⟨ps', fresh', free', log', rfl⟩, parts'⟩ := h'
  exact ⟨⟨_, _, _, _, rfl⟩, fun q => (parts' q).trans (parts q)⟩

theorem prefetches_kTrace (s : State) (p n root pos : Nat) (v : Bool) : s.Prefetches (s.kTrace p n root pos v) := by
  obtain ⟨log, e⟩ := kTrace_frame s p n root pos v
  rw [e]
  exact ⟨⟨_, _, _, _, rfl⟩, fun _ => rfl⟩

/-- A fetch that runs already, or one that is started. -/
theorem prefetches_kFetch (s : State) (p n root k : Nat) (v : Bool) : s.Prefetches (s.kFetch p n root k v).2 := by
  unfold State.kFetch
  split
  · exact .refl s
  · refine ⟨⟨_, _, _, _, rfl⟩, fun q => ?_⟩
    by_cases e : p = q
    · subst e
      simp only [part_modPart]
      rfl
    · simp only [part_modPart_other _ e]
      rfl

/-! ### The slots -/

section
variable {s : State} {i : Issue} {gd : BitVec 3} {h a d : BitVec 6} {o : Opnds} {hd : Dword} (stream : s.Stream i h.toNat hd)
include stream

/-- A slot on a stream whose register passes the checks. -/
theorem onStream_past (src : List Rd) (r : SlotRec) (pos : Nat) (f : Nat → State) :
    (s.past i src).onStream r h.toNat pos f = f (hIndex hd) := by
  simp only [State.onStream, past_here, past_kHandle, stream.handle]

/-- A prefetch of a position. -/
theorem execKpf_prefetches (hx : s.Executes i gd [srcS a] o) :
    ∃ t, execKpf gd h a s = .next t ∧ (s.past i [srcS a]).Prefetches t := by
  rw [execKpf, runSlot_executes hx]
  refine ⟨_, rfl, ?_⟩
  simp only [past_here, past_kHandle, stream.handle]
  refine iteInduction (fun _ => .refl _) fun _ => foldl_rel .refl .trans (fun u v => ?_) _ _
  exact iteInduction (fun _ => (prefetches_kTrace ..).trans (prefetches_kFetch ..)) fun _ => prefetches_kTrace ..

variable (out : (s.ctx i.tile i.cx).lane = none)
include out

theorem execKlen_outside (hx : s.Executes i gd [] o) : execKlen gd d h s =
    .next (s.sends i [] (s.toS i d 2 (BitVec.ofNat 64 (s.kLen (s.partOf i.tile) (hIndex hd))))) := by
  rw [execKlen, runSlot_executes hx, onStream_past stream, past_here, past_kSeen_outside out, pushS_past hx.first]

theorem execKmark_outside (hx : s.Executes i gd [] o) : execKmark gd h s =
    .next ((s.past i []).kSetMark (s.partOf i.tile) (hIndex hd) (s.kLen (s.partOf i.tile) (hIndex hd))) := by
  rw [execKmark, runSlot_executes hx, onStream_past stream]
  simp only [past_here, past_cur, past_partOf, inRound_outside out, Bool.false_eq_true, if_false]
  rfl

/-- A truncation by the mark and the length of its stream (R222, R228). -/
theorem execKtrunc_outside (hx : s.Executes i gd [srcS a] o) : execKtrunc gd h a s = .next (
    if o.s0.toNat < s.kMark (s.partOf i.tile) (hIndex hd) then s.raises i [srcS a] o Cause.kvh (kInfo h.toNat 6 o.s0.toNat)
    else if s.kLen (s.partOf i.tile) (hIndex hd) ≤ o.s0.toNat then s.past i [srcS a]
    else (s.past i [srcS a]).kCut (s.partOf i.tile) (hIndex hd) o.s0.toNat) := by
  rw [execKtrunc, runSlot_executes hx, onStream_past stream]
  simp only [past_here, past_cur, past_partOf, inRound_outside out, Bool.false_eq_true, if_false, raise_past]
  rfl

end

/-- Settles O44: each slot by the length and the mark of its stream; a truncation by what it keeps, a prefetch by what alone it may
change. -/
theorem lengthsOfStreams : Obligations.LengthsOfStreams := by
  unfold Obligations.LengthsOfStreams
  intro s i st gd h a d o hd out stream p n ent len mark cut
  refine ⟨fun hx => ⟨?_, ?_⟩, fun hx => ?_⟩
  · exact (execKlen.eq_1 ..).trans (execKlen_outside stream out hx)
  · exact execKmark_outside stream out hx
  have trunc : exec (.ktrunc st gd h a) s = _ := execKtrunc_outside stream out hx
  refine ⟨fun below => ?_, fun above beyond => ?_, fun above inside => ?_, ?_⟩
  · rw [trunc, if_pos (by exact below)]
    rfl
  · rw [trunc, if_neg (by exact Nat.not_lt.2 above), if_pos (by exact beyond)]
  · rw [trunc, if_neg (by exact Nat.not_lt.2 above), if_neg (by exact Nat.not_le.2 inside)]
    obtain ⟨issue, ctx, appends⟩ := kCut_keeps (s.past i [srcS a]) p n cut
    exact ⟨_, rfl, issue, ctx, appends, fun pageless => kCut_pageless (shortened_tables (kPoke_gddr ..) rfl) pageless⟩
  · obtain ⟨t, run, ⟨ps, fresh, free, log, rfl⟩, parts⟩ := execKpf_prefetches stream hx
    exact ⟨_, run, rfl, parts⟩

end Sys2Proof.Machine
end
